-- ==== Sys2Proof/Word.lean ====
section
/-! DEFINITION. The word types of the LK512: bytes, addresses, keys, salts, nonces, and the numbers of its fixed tables. -/

namespace Sys2Proof

/-- One byte. -/
abbrev Byte := BitVec 8

/-- A 64-bit host address (R147, R211). -/
abbrev Address := BitVec 64

/-- A 32-byte key: a root key, a traffic key or the device master key. -/
abbrev Key := BitVec 256

/-- An 8-byte nonce salt (R6, R31). -/
abbrev Salt := BitVec 64

/-- An 8-byte nonce naming one attempt of an exchange (R84). -/
abbrev AttemptNonce := BitVec 64

/-- The 14-byte packet nonce of R31. -/
abbrev PacketNonce := BitVec 112

/-- A 16-byte packet tag (R32). -/
abbrev Tag := BitVec 128

/-- A 48-byte wrapped form (R34). -/
abbrev Wrapped := BitVec 384

/-- A 16-byte proof (R35). -/
abbrev Proof := BitVec 128

/-- One 64-bit draw of the Random Source (R129). -/
abbrev Draw := BitVec 64

/-- A 32-bit register word (R201). -/
abbrev Word := BitVec 32

/-- A link slot, 0 to 511 (R4). -/
abbrev Slot := Fin 512

/-- The number of a renewal record, 0 to 15 (R84). -/
abbrev RecordNumber := Fin 16

/-- A stored profile number, 0 to 15 (R21, R141). -/
abbrev ProfileNumber := Fin 16

end Sys2Proof
end

