-- ==== Sys2Proof/Syntax.lean ====
section
/-! DEFINITION. The commands of the LK512: one constructor of Instr per row of spec/opcode_table.json, with what the outside supplies in each as its operands. -/

namespace Sys2Proof

/-- The two batches (R147). -/
inductive BatchId where
  | a
  | b
  deriving DecidableEq, Repr

/-- The two halves of the work base (R147). -/
inductive BaseHalf where
  | lo
  | hi
  deriving DecidableEq, Repr

/-- The registers whose writes are ignored (R201). -/
inductive ReadOnlyRegister where
  | ident
  | status
  deriving DecidableEq, Repr

/-- The two traffic key slots of a link record (R6). -/
inductive KeySlotName where
  | current
  | retiring
  deriving DecidableEq, Repr

/-- The host-written fields of a 64-byte work entry, but for its kind, which the command names
(formats chapter, 11.3; `Machine.parseEntry` and `Machine.entryCommand` read them from the 64 bytes). -/
structure WorkEntry where
  flags : Byte
  /-- The slot number, or the branch number for OUTBOUND. -/
  slotField : BitVec 16
  inputAddress : Address
  inputLength : BitVec 32
  outputRoom : BitVec 32
  outputAddress : Address
  deriving DecidableEq, Repr

/-- How one access of host memory ends (R161). -/
inductive BusOutcome where
  | done
  /-- An error. Bit i of `landed` says whether byte i of a write reached host memory all the same, where the
  spec leaves that open (R176); it is not used for other accesses. -/
  | error (landed : Nat)
  /-- RESETN falls before the access: neither it nor any later access of the command is made (R206). Of a write of an
  output buffer, bit i of `landed` says whether byte i had been issued by then; it is not used for other accesses. -/
  | fall (landed : Nat)
  deriving DecidableEq, Repr

/-- What the outside of the device decides within one command. -/
structure Env where
  /-- How the device's accesses of host memory end, in the order it makes them; those past the list succeed. -/
  bus : List BusOutcome
  /-- What the Random Source draws, in order; a draw past the list takes a free value. -/
  noise : List Draw
  deriving DecidableEq, Repr

/-- Every access succeeds and every draw is a free value. -/
def Env.plain : Env := ⟨[], []⟩

/-- A write to CONTROL: the word written, and what the outside decides within the event that it makes (R202). -/
structure ControlWrite where
  value : Word
  env : Env
  deriving DecidableEq, Repr

/-- The commands: one constructor per row of the opcode table, in the table's order.

An `entry` holds the host-written fields the device reads from the entry at the next index, and an `input` holds
the bytes it reads from that entry's input buffer. -/
inductive Instr where
  /-- Application of power (R206). -/
  | powerOnReset
  /-- RESETN goes low (R206). -/
  | resetnFall
  /-- RESETN is released (R206). -/
  | pinReset
  /-- Start-up, to its end (R209); `block` holds the 64 bytes read from the settings memory. -/
  | startUp (block : List Byte) (env : Env)
  /-- QUIESCE goes high (R205). -/
  | quiesceAssert (env : Env)
  /-- QUIESCE goes low (R205). -/
  | quiesceRelease (env : Env)
  /-- A write to HAND_A or HAND_B (R150). -/
  | handover (batch : BatchId) (value : Word) (env : Env)
  /-- A write to WORK_BASE_LO or WORK_BASE_HI (R147). -/
  | workBaseWrite (half : BaseHalf) (value : Word)
  /-- A CONTROL write that sets RUN and leaves the other parts as they are (R159). -/
  | runSet (env : Env)
  /-- A CONTROL write that clears RUN and leaves the other parts as they are (R159). -/
  | runClear
  /-- A CONTROL write with ABANDON 1 that leaves the other parts as they are (R160). -/
  | abandon (env : Env)
  /-- A CONTROL write with its RESTART part 1 (R210). -/
  | restart (env : Env)
  /-- A write of a whole word to CONTROL, whose mask part sets the notice enable mask, with whatever else the word asks for
  (R202, log entry 8). -/
  | noticeEnableMaskWrite (control : ControlWrite)
  /-- A write to NOTICE (R203). -/
  | noticeClear (value : Word)
  /-- A write to IDENT or STATUS (R201). -/
  | ignoredRegisterWrite (register : ReadOnlyRegister) (value : Word)
  /-- The start of a waiting batch's service (R152). -/
  | serviceStart (env : Env)
  /-- The entry at the next index is OUTBOUND (R39). -/
  | outbound (entry : WorkEntry) (input : List Byte) (env : Env)
  /-- The entry at the next index is INBOUND (R45). -/
  | inbound (entry : WorkEntry) (input : List Byte) (env : Env)
  /-- The entry at the next index is ENROL (R186). -/
  | enrol (entry : WorkEntry) (input : List Byte) (env : Env)
  /-- The entry at the next index is RETIRE (R187). -/
  | retire (entry : WorkEntry) (env : Env)
  /-- The entry at the next index is SET_LINK (R188). -/
  | setLink (entry : WorkEntry) (input : List Byte) (env : Env)
  /-- The entry at the next index is SET_PROFILE (R191). -/
  | setProfile (entry : WorkEntry) (input : List Byte) (env : Env)
  /-- The entry at the next index is HOLD (R192). -/
  | hold (entry : WorkEntry) (env : Env)
  /-- The entry at the next index is RELEASE (R193). -/
  | release (entry : WorkEntry) (env : Env)
  /-- The entry at the next index is RENEW_NOW (R195). -/
  | renewNow (entry : WorkEntry) (env : Env)
  /-- The entry at the next index is READ_LINK (R197). -/
  | readLink (entry : WorkEntry) (env : Env)
  /-- The entry at the next index is READ_FAULTS (R198). -/
  | readFaults (entry : WorkEntry) (env : Env)
  /-- The entry at the next index is READ_DEVICE (R199). -/
  | readDevice (entry : WorkEntry) (env : Env)
  /-- The kind of the entry at the next index, `kind`, names no request (R153). -/
  | badRequest (kind : Byte) (entry : WorkEntry) (env : Env)
  /-- The close of the batch in service (R156). -/
  | batchClose (env : Env)
  /-- A scrub step (R138). -/
  | scrubStep (env : Env)
  /-- The issue of a period mark (R62). -/
  | periodMark
  /-- A period mark reaches one link record (R63). -/
  | periodMarkAtLink (slot : Slot) (env : Env)
  /-- The aging of one key slot by a period mark brings it to its age limit (R64). -/
  | ageLimitReached (slot : Slot) (key : KeySlotName) (env : Env)
  /-- A period mark brings a retire timer to 0 (R65). -/
  | retireTimerExpiry (slot : Slot) (env : Env)
  /-- A period mark brings a rest timer to 0 (R66). -/
  | restEnd (slot : Slot) (env : Env)
  /-- A period mark reaches one renewal record (R92). -/
  | periodMarkAtRenewalRecord (number : RecordNumber) (env : Env)
  /-- A period mark brings a reply timer to 0 (R93). -/
  | replyTimerExpiry (number : RecordNumber) (env : Env)
  /-- A try at admission (R86). -/
  | admission (env : Env)
  /-- A try at origination (R89). -/
  | origination (env : Env)
  deriving DecidableEq, Repr

end Sys2Proof
end

