-- ==== Sys2Proof/Decode.lean ====
section
/-! DEFINITION. The command that a word spells by the bits of spec/opcode_table.json: the table gives no row any bits (every row's "fields" is empty and none has "fixed"), so no word spells a command. -/

namespace Sys2Proof

/-- No row of the opcode table carries bits: the LK512's commands are register writes, pin edges, entries of a batch
and internal events, not instruction words. -/
def decodeTableWord (_nbits _w : Nat) : Option Instr := none

end Sys2Proof
end

