-- ==== Sys2Proof/Config.lean ====
section
/-! DEFINITION. What an implementation fixes and the spec leaves open: the cipher, wrap and proof functions of the Cipher Unit, and the values the Random Source draws. Every constant here is opaque, so no proof can rest on a value of it. -/

namespace Sys2Proof

/-- The 12-byte packet header as its fields (formats chapter, 11.2). -/
structure Header where
  format : Byte
  class_ : Byte
  generation : Byte
  flags : Byte
  branch : BitVec 16
  bodyLength : BitVec 16
  sequence : BitVec 32
  deriving DecidableEq, Repr

/-- The functions of the Cipher Unit (R30 to R35), with the properties the spec gives them and no more.
`encipher` and `decipher` are the functions of R32 and R33 with the nonce of R31 already formed: its salt in front of
direction, generation and sequence.

What R33, R34 and R35 say of different keys and salts is a law for the keys and salts in use, `keyInUse` and
`saltInUse`, which are free: no functions of these sizes keep all 2^256 keys apart (log entry 10). -/
structure CipherUnit where
  encipher : Key → PacketNonce → Header → List Byte → List Byte × Tag
  decipher : Key → PacketNonce → Header → List Byte → Tag → Option (List Byte)
  wrap : Key → Key → Salt → Wrapped
  unwrap : Key → Wrapped → Option (Key × Salt)
  proof : Key → AttemptNonce → Byte → Proof
  /-- The keys that the functions keep apart. -/
  keyInUse : Key → Prop
  /-- The salts that the functions keep apart. -/
  saltInUse : Salt → Prop
  /-- There are keys to keep apart. -/
  keys_in_use : ∃ k k', k ≠ k' ∧ keyInUse k ∧ keyInUse k'
  /-- There are salts to keep apart: the eight zero bytes of a root channel (R31), and another. -/
  salts_in_use : saltInUse 0 ∧ ∃ x, x ≠ 0 ∧ saltInUse x
  /-- R32: a ciphertext of exactly L bytes. -/
  encipher_length : ∀ k n h p, (encipher k n h p).1.length = p.length
  /-- R32, R33: under one key and nonce a packet verifies exactly when it is the encipherment of the
  plaintext returned, with the same 12 header bytes. -/
  decipher_iff : ∀ k n h c t p, decipher k n h c t = some p ↔ encipher k n h p = (c, t)
  /-- R32: the whole header is bound into the tag. -/
  encipher_binds_header : ∀ k n h p n' h' p', encipher k n h p = encipher k n' h' p' → h = h'
  /-- R32: a changed tag fails, since a ciphertext has one tag. -/
  encipher_binds_tag : ∀ k n h p p', (encipher k n h p).1 = (encipher k n h p').1 → p = p'
  /-- R32: a ciphertext with one byte changed fails under its tag. -/
  encipher_binds_byte : ∀ k n h p p' i b,
    encipher k n h p' = ((encipher k n h p).1.set i b, (encipher k n h p).2) → p' = p
  /-- R33: a packet is bound to the key and the salt it was enciphered under. -/
  encipher_binds_key : ∀ k x d h p k' x' d' h' p', keyInUse k → keyInUse k' → saltInUse x → saltInUse x' →
    encipher k (x ++ (d : BitVec 48)) h p = encipher k' (x' ++ (d' : BitVec 48)) h' p' → k = k' ∧ x = x'
  /-- R34: unwrap returns the key and salt exactly for a form that wrap made of them. -/
  unwrap_iff : ∀ w f k s, unwrap w f = some (k, s) ↔ wrap w k s = f
  /-- R34: a form made under one wrapping key fails to unwrap under any other. -/
  wrap_binds_key : ∀ w k s w' k' s', keyInUse w → keyInUse w' → wrap w k s = wrap w' k' s' → w = w'
  /-- R35: under one key a proof is bound to its nonce and generation. -/
  proof_binds_attempt : ∀ k n g n' g', proof k n g = proof k n' g' → n = n' ∧ g = g'
  /-- R35: a proof is bound to its key. -/
  proof_binds_key : ∀ k n g k' n' g', keyInUse k → keyInUse k' → proof k n g = proof k' n' g' → k = k'

/-- The header as 96 bits, used only to show that functions with the properties of `CipherUnit` exist. -/
def Header.bits (h : Header) : BitVec 96 :=
  h.format ++ h.class_ ++ h.generation ++ h.flags ++ h.branch ++ h.bodyLength ++ h.sequence

/-- Two concatenations of the same widths are equal only when their parts are. -/
theorem append_parts {m n : Nat} {a a' : BitVec m} {b b' : BitVec n} (e : a ++ b = a' ++ b') :
    a = a' ∧ b = b' := by
  have g : ∀ i, (a ++ b).getLsbD i = (a' ++ b').getLsbD i := by simp [e]
  constructor
  · apply BitVec.eq_of_getLsbD_eq
    intro i hi
    have := g (n + i)
    simpa [BitVec.getLsbD_append] using this
  · apply BitVec.eq_of_getLsbD_eq
    intro i hi
    have := g i
    simpa [BitVec.getLsbD_append, hi] using this

/-- `Header.bits` loses nothing. -/
theorem Header.bits_injective {h h' : Header} (e : h.bits = h'.bits) : h = h' := by
  obtain ⟨e1, sequence⟩ := append_parts e
  obtain ⟨e2, bodyLength⟩ := append_parts e1
  obtain ⟨e3, branch⟩ := append_parts e2
  obtain ⟨e4, flags⟩ := append_parts e3
  obtain ⟨e5, generation⟩ := append_parts e4
  obtain ⟨format, class_⟩ := append_parts e5
  cases h
  cases h'
  simp_all

/-- A 48-byte form is its 32-byte, 8-byte and 8-byte parts put together. -/
theorem Wrapped.parts (f : Wrapped) :
    f.extractLsb' 128 256 ++ f.extractLsb' 64 64 ++ f.extractLsb' 0 64 = f := by
  apply BitVec.eq_of_getLsbD_eq
  intro i hi
  simp only [BitVec.getLsbD_append, BitVec.getLsbD_extractLsb']
  by_cases h1 : i < 64
  · simp [h1]
  · by_cases h2 : i - 64 < 64
    · have : 64 + (i - 64) = i := by omega
      simp [h1, h2, this]
    · have h3 : i - 64 - 64 < 256 := by omega
      have : 128 + (i - 64 - 64) = i := by omega
      simp [h1, h2, h3, this]

/-- The sum of bytes, used only to show that functions with the properties of `CipherUnit` exist. -/
def byteSum : List Byte → Byte
  | [] => 0
  | b :: rest => b + byteSum rest

/-- A change of one byte that leaves the sum changes nothing. -/
theorem set_of_byteSum {b : Byte} : ∀ {bs : List Byte} {i : Nat}, byteSum (bs.set i b) = byteSum bs → bs.set i b = bs
  | [], _, _ => rfl
  | v :: bs, 0, e => by
    have : b = v := by simpa [byteSum] using e
    simp [this]
  | v :: bs, i + 1, e => by
    have : byteSum (bs.set i b) = byteSum bs := by simpa [byteSum] using e
    simp [set_of_byteSum this]

/-- A word that its low `m` bits hold is known by them. -/
theorem eq_of_low {w m : Nat} {v v' : BitVec w} (h : v.toNat < 2 ^ m) (h' : v'.toNat < 2 ^ m)
    (e : v.truncate m = v'.truncate m) : v = v' := by
  have := congrArg BitVec.toNat e
  simp only [BitVec.truncate_eq_setWidth, BitVec.toNat_setWidth, Nat.mod_eq_of_lt h, Nat.mod_eq_of_lt h'] at this
  exact BitVec.eq_of_toNat_eq this

/-- The low bits of the salt in a nonce. -/
theorem salt_of_nonce (x : Salt) (d : BitVec 48) : (x ++ d).extractLsb' 48 8 = x.truncate 8 := by
  apply BitVec.eq_of_getLsbD_eq
  intro i hi
  have := BitVec.getLsbD_append (x := x) (y := d) (i := 48 + i)
  simp_all

/-- The tag of the unit below: the header, the sum of the text, and the low bits of the key and of the salt. -/
def sumTag (k : Key) (n : PacketNonce) (h : Header) (p : List Byte) : Tag :=
  h.bits ++ byteSum p ++ k.truncate 16 ++ n.extractLsb' 48 8

/-- `sumTag` loses none of its four parts. -/
theorem sumTag_parts {k k' : Key} {n n' : PacketNonce} {h h' : Header} {p p' : List Byte}
    (e : sumTag k n h p = sumTag k' n' h' p') :
    h = h' ∧ byteSum p = byteSum p' ∧ k.truncate 16 = k'.truncate 16 ∧ n.extractLsb' 48 8 = n'.extractLsb' 48 8 := by
  obtain ⟨most, salt⟩ := append_parts e
  obtain ⟨front, low⟩ := append_parts most
  obtain ⟨bits, sum⟩ := append_parts front
  exact ⟨Header.bits_injective bits, sum, low, salt⟩

/-- A unit that has the properties: it shows that they can be met together, which is what the opaque
`Config.cipher` needs in order to be declared. Nothing about it is known of `Config.cipher`. -/
def CipherUnit.inhabitant : CipherUnit where
  encipher k n h p := (p, sumTag k n h p)
  decipher k n h c t := if sumTag k n h c = t then some c else none
  wrap w k s := k ++ s ++ w.truncate 64
  unwrap w f := if f.extractLsb' 0 64 = w.truncate 64 then some (f.extractLsb' 128 256, f.extractLsb' 64 64) else none
  proof k n g := n ++ g ++ k.truncate 56
  keyInUse k := k.toNat < 2 ^ 16
  saltInUse x := x.toNat < 2 ^ 8
  keys_in_use := ⟨0, 1, by decide, by decide, by decide⟩
  salts_in_use := ⟨by decide, 1, by decide, by decide⟩
  encipher_length := by simp
  decipher_iff _ _ h c t p := by
    rw [Option.ite_none_right_eq_some, Prod.mk.injEq, Option.some.injEq]
    exact ⟨fun ⟨e, q⟩ => ⟨q.symm, q ▸ e⟩, fun ⟨q, e⟩ => ⟨q ▸ e, q.symm⟩⟩
  encipher_binds_header _ _ _ _ _ _ _ e := (sumTag_parts (congrArg Prod.snd e)).1
  encipher_binds_tag _ _ _ _ _ e := e
  encipher_binds_byte _ _ _ p p' i b e := by
    have text : p' = p.set i b := congrArg Prod.fst e
    have sum := (sumTag_parts (congrArg Prod.snd e)).2.1
    rw [text] at sum ⊢
    exact set_of_byteSum sum
  encipher_binds_key k x _ _ _ k' x' _ _ _ hk hk' hx hx' e := by
    obtain ⟨-, -, key, salt⟩ := sumTag_parts (congrArg Prod.snd e)
    rw [salt_of_nonce, salt_of_nonce] at salt
    exact ⟨eq_of_low hk hk' key, eq_of_low hx hx' salt⟩
  unwrap_iff w f k s := by
    have whole := Wrapped.parts f
    constructor
    · intro e
      by_cases hz : f.extractLsb' 0 64 = w.truncate 64
      · have := Prod.mk.inj (Option.some.inj ((if_pos hz).symm.trans e))
        rw [← whole, this.1, this.2, hz]
      · exact absurd ((if_neg hz).symm.trans e) (by simp)
    · intro e
      obtain ⟨front, low⟩ := append_parts (whole.trans e.symm)
      obtain ⟨key, salt⟩ := append_parts front
      rw [if_pos low, key, salt]
  wrap_binds_key _ _ _ _ _ _ hw hw' e :=
    eq_of_low (m := 64) (lt_trans hw (by decide)) (lt_trans hw' (by decide)) (append_parts e).2
  proof_binds_attempt _ _ _ _ _ e := append_parts (append_parts e).1
  proof_binds_key _ _ _ _ _ _ hk hk' e :=
    eq_of_low (m := 56) (lt_trans hk (by decide)) (lt_trans hk' (by decide)) (append_parts e).2

namespace Config

/-- A Cipher Unit of which only the properties of `CipherUnit` are known. -/
opaque anyCipherUnit [h : Inhabited CipherUnit] : CipherUnit

/-- The device's Cipher Unit (R30): its internal construction is not the spec's matter, so it is a free
value with the properties of `CipherUnit` (log entry 10). -/
def cipher : CipherUnit := @anyCipherUnit ⟨CipherUnit.inhabitant⟩

/-- The free value of the n-th draw of the Random Source for which the command gives no value (R129, log
entry 4). -/
opaque noise : Nat → Draw

end Config

end Sys2Proof
end

