-- ==== Sys2Proof/Machine/State.lean ====
section
/-! DEFINITION. The state of the LK512 as plain data: the link records, the profiles, the Branch Map, the lists and tables of the renewal exchange, the Origination Queue, the fault records, the Batch Engine, the registers and pins, the host memory the device has written, the command queue, and the state after power-on reset. -/

namespace Sys2Proof.Machine

/-- Why the machine stops with a fault: never. The spec gives every command an effect, so there is no constructor. -/
inductive Fault where
  deriving DecidableEq, Repr

/-- Why a command has no meaning. -/
inductive Refusal where
  /-- The command's arm of exec has no meaning yet; raised by exec's refused arms alone; safe, since the machine stops. -/
  | notModelled (mnemonic : String)
  deriving DecidableEq, Repr

/-! ## Link records (R5, R6, R108) -/

/-- The states of a link (R9). -/
inductive LinkState where
  | vacant
  | standby
  | live
  | stalled
  | quarantined
  deriving DecidableEq, Repr

/-- The states of a key slot (R6). -/
inductive SlotState where
  | empty
  | inUse
  | spent
  deriving DecidableEq, Repr

/-- The renewal states of a link (R19, R78). -/
inductive RenewalState where
  | idle
  | due
  | exchange
  | rest
  deriving DecidableEq, Repr

/-- A replay window: the highest accepted sequence H and the map, whose bit i stands for the sequence H − i (R37, 11.4). -/
structure Window where
  high : Nat
  map : BitVec 64
  deriving DecidableEq, Repr

/-- The window that has accepted nothing (R6). -/
def Window.empty : Window := ⟨0, 0⟩

/-- What both traffic key slots hold (R6; counts are numbers, log entry 21); the next outbound sequence of CURRENT and the retire timer of RETIRING
stand in the link record. -/
structure KeySlot where
  state : SlotState
  generation : Nat
  key : Key
  salt : Salt
  /-- U, the blocks charged. -/
  use : Nat
  age : Nat
  /-- B, in blocks. -/
  budget : Nat
  /-- A, in periods. -/
  ageLimit : Nat
  window : Window
  deriving DecidableEq, Repr

/-- An EMPTY slot holds zero in every field (R6). -/
def KeySlot.empty : KeySlot := ⟨.empty, 0, 0, 0, 0, 0, 0, 0, .empty⟩

/-- The nine link fault kinds (R108). -/
inductive LinkKind where
  | tagFail
  | replay
  | unknownGen
  | exchangeFault
  | keySpent
  | renewalFailed
  | linkSilent
  | shopAlert
  | storeCorrupt
  deriving DecidableEq, Repr

/-- The four rate kinds (R108, R110). -/
inductive RateKind where
  | tagFail
  | replay
  | unknownGen
  | exchangeFault
  deriving DecidableEq, Repr

/-- The active state, counter and overflow mark of one kind (R108). -/
structure KindRecord where
  active : Bool
  counter : Nat
  overflow : Bool
  deriving DecidableEq, Repr

/-- A kind that has never been active or counted. -/
def KindRecord.zero : KindRecord := ⟨false, 0, false⟩

/-- One entry of a shop code list: a shop fault code and its occurrence sum (R108, R115). -/
structure ShopCode where
  code : Nat
  sum : Nat
  deriving DecidableEq, Repr

/-- A link record (R5, R6, R108). An absent root key is zero (R135). -/
structure Link where
  state : LinkState
  first : Nat
  last : Nat
  profile : ProfileNumber
  rootKey : Key
  /-- The root channel's next outbound sequence (R16). -/
  rootSequence : Nat
  rootWindow : Window
  current : KeySlot
  /-- CURRENT's next outbound sequence (R6, R41). -/
  nextSequence : Nat
  retiring : KeySlot
  retireTimer : Nat
  /-- E16 (R68). -/
  rate : Nat
  /-- N (R67). -/
  periodCount : Nat
  hostHold : Bool
  supervisorHold : Bool
  renewal : RenewalState
  restTimer : Nat
  silence : Nat
  /-- The nine kinds, in the order of their numbers 1 to 9. -/
  kinds : Vector KindRecord 9
  /-- The scores of the four rate kinds, in the order of their numbers 1 to 4. -/
  scores : Vector Nat 4
  /-- The most recent report first (R115). -/
  shopCodes : List ShopCode
  checkCode : BitVec 32
  deriving DecidableEq, Repr

/-- A VACANT record: every field is zero (R5, R15). -/
def Link.vacant : Link where
  state := .vacant
  first := 0
  last := 0
  profile := 0
  rootKey := 0
  rootSequence := 0
  rootWindow := .empty
  current := .empty
  nextSequence := 0
  retiring := .empty
  retireTimer := 0
  rate := 0
  periodCount := 0
  hostHold := false
  supervisorHold := false
  renewal := .idle
  restTimer := 0
  silence := 0
  kinds := .replicate 9 .zero
  scores := .replicate 4 0
  shopCodes := []
  checkCode := 0

/-! ## Profiles and the Branch Map (R21 to R29) -/

/-- The actions of a raise (R23). -/
inductive Action where
  | note
  | hold
  | renew
  | quarantine
  deriving DecidableEq, Repr

/-- The fault settings of one rate kind (R23). -/
structure RateSettings where
  weight : Nat
  decay : Nat
  raiseLevel : Nat
  clearLevel : Nat
  action : Action
  deriving DecidableEq, Repr

/-- A profile (R21 to R23). -/
structure Profile where
  valid : Bool
  budget : Nat
  ageLimit : Nat
  /-- L, in periods. -/
  lead : Nat
  /-- W, in periods. -/
  replyWait : Nat
  /-- M. -/
  attempts : Nat
  restTime : Nat
  /-- T, in periods. -/
  retireTime : Nat
  /-- S, in periods; 0 is off. -/
  silenceLimit : Nat
  rates : Vector RateSettings 4
  keySpentAction : Action
  renewalFailedAction : Action
  linkSilentAction : Action
  shopAlertAction : Action
  deriving DecidableEq, Repr

/-- An invalid profile: every field reads zero (R21). -/
def Profile.invalid : Profile where
  valid := false
  budget := 0
  ageLimit := 0
  lead := 0
  replyWait := 0
  attempts := 0
  restTime := 0
  retireTime := 0
  silenceLimit := 0
  rates := .replicate 4 ⟨0, 0, 0, 0, .note⟩
  keySpentAction := .note
  renewalFailedAction := .note
  linkSilentAction := .note
  shopAlertAction := .note

/-- A triple of the Branch Map (R26). -/
structure Triple where
  first : Nat
  last : Nat
  slot : Slot
  deriving DecidableEq, Repr

/-! ## The turnover exchange (R79 to R85) -/

/-- The Due List: its urgent section stands ahead of its ordinary section (R79). -/
structure DueList where
  urgent : List Slot
  ordinary : List Slot
  deriving DecidableEq, Repr

/-- The states of a renewal record; a free record's reads as none (R84, 11.9). -/
inductive RecordState where
  | free
  | waitingSend
  | waitingReply
  deriving DecidableEq, Repr

/-- The reason of the last refuse taken (R84). -/
inductive Refuse where
  | none
  | busy
  | noRoom
  | badWrap
  deriving DecidableEq, Repr

/-- A renewal record (R84). -/
structure RenewalRecord where
  state : RecordState
  slot : Slot
  generation : Nat
  key : Key
  salt : Salt
  nonce : AttemptNonce
  attempt : Nat
  offerQueued : Bool
  replyTimer : Nat
  lastRefusal : Refuse
  deriving DecidableEq, Repr

/-- A free record holds zero in every field (R84). -/
def RenewalRecord.free : RenewalRecord := ⟨.free, 0, 0, 0, 0, 0, 0, false, 0, .none⟩

/-! ## The Origination Queue and the device fault record (R109, R130, R167) -/

/-- The device items that notices report (R109, 11.9). -/
inductive DeviceItem where
  | unknownBranch
  | settingsDefaulted
  | noMaster
  | randomFault
  | busFault
  deriving DecidableEq, Repr

/-- The kind of a notice: of a link or of the device (R130). -/
inductive NoticeKind where
  | link (kind : LinkKind)
  | device (item : DeviceItem)
  deriving DecidableEq, Repr

/-- The two edges of a kind (R120). -/
inductive Edge where
  | raised
  | cleared
  deriving DecidableEq, Repr

/-- A notice (R130); its link is none for the device's number 0xFFFF. -/
structure Notice where
  link : Option Slot
  kind : NoticeKind
  edge : Edge
  counter : Nat
  score : Nat
  flicker : Bool
  deriving DecidableEq, Repr

/-- An item of the Origination Queue (R167). -/
inductive Item where
  | offer (slot : Slot) (packet : List Byte)
  | notice (notice : Notice)
  deriving DecidableEq, Repr

/-- The device fault record (R109). -/
structure DeviceFaults where
  unknownBranchCount : Nat
  unknownBranchOverflow : Bool
  settingsDefaulted : Bool
  noMaster : Bool
  randomFault : Bool
  busFault : Bool
  noticesDropped : Bool
  deriving DecidableEq, Repr

/-! ## The Batch Engine, the settings and the registers (R148, R201, R208) -/

/-- The states of a batch (R148). -/
inductive BatchState where
  | free
  | waiting
  | inService
  deriving DecidableEq, Repr

/-- What the engine holds for each batch (R148). -/
structure Batch where
  state : BatchState
  taken : Nat
  deriving DecidableEq, Repr

/-- The engine states (R148). -/
inductive EngineState where
  | starting
  | stopped
  | idle
  | serving
  deriving DecidableEq, Repr

/-- The NOTICE drive (R204). -/
inductive Drive where
  | openDrain
  | pushPull
  deriving DecidableEq, Repr

/-- The NOTICE polarity (R204). -/
inductive Polarity where
  | activeLow
  | activeHigh
  deriving DecidableEq, Repr

/-- Where the settings came from (R201, R208). -/
inductive SettingsSource where
  | defaults
  | block
  deriving DecidableEq, Repr

/-- The settings in force (R208). -/
structure Settings where
  /-- P, in milliseconds (R61). -/
  period : Nat
  tailRoom : Nat
  drive : Drive
  polarity : Polarity
  source : SettingsSource
  deriving DecidableEq, Repr

/-- The settings taken when the settings block is not good (R208). -/
def Settings.defaults : Settings := ⟨1000, 16, .openDrain, .activeLow, .defaults⟩

/-! ## Host memory as the device writes it -/

/-- The bytes of host memory that the device has written, each as the device last wrote it, with strictly rising
addresses. An address that is not listed has not been written by the device (log entry 3). -/
abbrev Memory := List Host.Cell

/-- One write that the device has made of host memory (R134). -/
structure HostWrite where
  address : Address
  bytes : List Byte
  deriving DecidableEq, Repr

/-! ## The state -/

/-- The state of the LK512. -/
structure State where
  /-- The level of the RESETN pin; true is high (R206). -/
  resetn : Bool
  /-- The level of the QUIESCE pin; true is high (R205). -/
  quiescePin : Bool
  /-- The level of QUIESCE that the device has taken (R205). -/
  quiesce : Bool
  settings : Settings
  /-- The one-time store that holds the device master key (R126, R206). -/
  oneTimeStore : Key
  /-- The master key that start-up has read (R209). -/
  masterKey : Key
  /-- The notice enable mask (R202). -/
  mask : BitVec 5
  /-- The five notice causes at their NOTICE positions (R203). -/
  causes : BitVec 5
  /-- The CLAMPED mark (R150). -/
  clamped : Bool
  run : Bool
  workBase : Address
  batchA : Batch
  batchB : Batch
  engine : EngineState
  firstWaiting : Option BatchId
  nextIndex : Nat
  entriesDone : Nat
  faultStop : Bool
  /-- An entry of the batch in service has received SKIPPED or BUS_FAULT (R156). -/
  abandoned : Bool
  /-- The Branch Map (R26). -/
  branchMap : List Triple
  /-- The link records that are not all zero, by rising slot number; a slot that is not listed holds the VACANT
  record (R4, R5). -/
  links : List (Nat × Link)
  profiles : Vector Profile 16
  dueList : DueList
  records : Vector RenewalRecord 16
  /-- The send order (R85). -/
  sendOrder : List RecordNumber
  /-- The Origination Queue, its front first (R168). -/
  queue : List Item
  device : DeviceFaults
  /-- The board base; none is absent (R131). -/
  boardBase : Option Address
  /-- The last draw of the Random Source; none after a reset (R129). -/
  lastDraw : Option Draw
  /-- The period phase, in milliseconds (R62). -/
  phase : Nat
  /-- The Scrubber's walk position (R137). -/
  walkPosition : Slot
  hostMem : Memory
  /-- The writes the device made of host memory in the last event, in the order it made them (R134). -/
  posted : List HostWrite
  /-- The model's own: how the accesses still to come in the present event end (log entry 4). Empty between events. -/
  bus : List BusOutcome
  /-- The model's own: the draws still to come in the present event. Empty between events. -/
  noise : List Draw
  /-- The model's own: how many draws have taken a free value. -/
  drawCount : Nat
  /-- The commands that wait, the first in front (log entry 1). -/
  pending : List Instr
  deriving DecidableEq, Repr

/-- Right after power-on reset: every value as R5, R21, R26, R61, R79, R84, R85, R109, R129, R131, R137, R147, R148,
R164, R167, R201 and R203 state, start-up being still to come (R209). The pin levels, the one-time store and the
settings before start-up are the choices of log entry 2. -/
def State.reset : State where
  resetn := true
  quiescePin := false
  quiesce := false
  settings := .defaults
  oneTimeStore := 1
  masterKey := 0
  mask := 0
  causes := 0
  clamped := false
  run := false
  workBase := 0
  batchA := ⟨.free, 0⟩
  batchB := ⟨.free, 0⟩
  engine := .starting
  firstWaiting := none
  nextIndex := 0
  entriesDone := 0
  faultStop := false
  abandoned := false
  branchMap := []
  links := []
  profiles := .replicate 16 .invalid
  dueList := ⟨[], []⟩
  records := .replicate 16 .free
  sendOrder := []
  queue := []
  device := ⟨0, false, false, false, false, false, false⟩
  boardBase := none
  lastDraw := none
  phase := 0
  walkPosition := 0
  hostMem := []
  posted := []
  bus := []
  noise := []
  drawCount := 0
  pending := []

end Sys2Proof.Machine
end

