-- ==== Sys2Proof/Machine/Sparse.lean ====
section
/-! DEFINITION. Tables with few entries: lists of number and value with strictly rising numbers, and host memory and the link records held so. -/

namespace Sys2Proof.Machine

/-! ## Sparse tables -/

/-- The value a table lists for a number. -/
def tableGet {α : Type} : List (Nat × α) → Nat → Option α
  | [], _ => none
  | (j, v) :: rest, k => if j = k then some v else tableGet rest k

/-- The table with a value listed for a number. -/
def tablePut {α : Type} : List (Nat × α) → Nat → α → List (Nat × α)
  | [], k, v => [(k, v)]
  | (j, w) :: rest, k, v =>
    if k < j then (k, v) :: (j, w) :: rest
    else if k = j then (k, v) :: rest
    else (j, w) :: tablePut rest k v

/-- The table with nothing listed for a number. -/
def tableErase {α : Type} (t : List (Nat × α)) (k : Nat) : List (Nat × α) :=
  t.filter fun e => e.1 ≠ k

/-- The canonical form of a table: the numbers strictly rise. -/
def tableSorted {α : Type} : List (Nat × α) → Bool
  | [] => true
  | [_] => true
  | (j, _) :: (k, w) :: rest => j < k && tableSorted ((k, w) :: rest)

/-! ## Host memory as the device writes it -/

/-- The canonical form of the device's image of host memory. -/
def Memory.wf (m : Memory) : Bool := tableSorted m

/-- The byte the device has last written at an address; none where it has written nothing. -/
def Memory.readByte (m : Memory) (a : Nat) : Option Byte := tableGet m a

/-- One byte written. -/
def Memory.writeByte (m : Memory) (a : Nat) (v : Byte) : Memory := tablePut m a v

/-- Bytes written at rising addresses, modulo 2^64 (log entry 20). -/
def Memory.writeBytes (m : Memory) (a : Address) : List Byte → Memory
  | [] => m
  | v :: rest => Memory.writeBytes (Memory.writeByte m a.toNat v) (a + 1) rest

/-- The bytes of a failed write that reached host memory all the same: byte i when bit i of `landed` is set (log
entry 11). -/
def Memory.writeLanded (m : Memory) (a : Address) (landed : Nat) : List Byte → Memory
  | [] => m
  | v :: rest =>
    Memory.writeLanded (if landed % 2 = 1 then Memory.writeByte m a.toNat v else m) (a + 1) (landed / 2) rest

/-! ## The link records -/

/-- The record at a slot: the one listed, or the VACANT record (R4, R5). -/
def State.link (s : State) (k : Slot) : Link := (tableGet s.links k.val).getD .vacant

/-- The record of a slot replaced; a record that is all zero is not listed. -/
def State.setLink (s : State) (k : Slot) (l : Link) : State :=
  { s with links := if l = .vacant then tableErase s.links k.val else tablePut s.links k.val l }

/-- The canonical form of the link records: rising slots below 512, and no record that is all zero listed. -/
def linksWf (t : List (Nat × Link)) : Bool :=
  tableSorted t && t.all fun e => e.1 < 512 && e.2 ≠ .vacant

/-- All slots, in ascending order. -/
def allSlots : List Slot := List.finRange 512

/-- All renewal record numbers, in ascending order. -/
def allRecordNumbers : List RecordNumber := List.finRange 16

/-- Said of a link that has been enrolled and not retired (R9). -/
def State.enrolled (s : State) (k : Slot) : Bool := (s.link k).state ≠ .vacant

/-- The non-VACANT slots, in ascending order (R194). -/
def State.enrolledSlots (s : State) : List Slot := allSlots.filter s.enrolled

end Sys2Proof.Machine
end

