-- ==== Sys2Proof/Machine/Formats.lean ====
section
/-! DEFINITION. Bytes and numbers: byte orders (R211), the check function (R135), the numeric values of the enumerated names (11.9), and the layouts of the packet header, the control bodies and the covered string. -/

namespace Sys2Proof.Machine

/-! ## Byte orders (R211) -/

/-- The low `n` bytes of a number, least-significant byte first. -/
def leBytes : Nat → Nat → List Byte
  | 0, _ => []
  | n + 1, v => BitVec.ofNat 8 v :: leBytes n (v / 256)

/-- The low `n` bytes of a number, most-significant byte first. -/
def beBytes (n v : Nat) : List Byte := (leBytes n v).reverse

/-- The number that bytes hold, least-significant byte first. -/
def ofLe : List Byte → Nat
  | [] => 0
  | b :: rest => b.toNat + 256 * ofLe rest

/-- The number that bytes hold, most-significant byte first. -/
def ofBe (bs : List Byte) : Nat := ofLe bs.reverse

/-- `n` zero bytes, as every reserved byte is written (R213). -/
def zeroBytes (n : Nat) : List Byte := List.replicate n 0

/-- `n` bytes of `bs` from `offset`; a byte past its end is 0. -/
def bytesAt (bs : List Byte) (offset n : Nat) : List Byte :=
  (List.range n).map fun i => bs.getD (offset + i) 0

/-- A bit as the byte 1 or 0. -/
def flagByte (b : Bool) : Byte := if b then 1 else 0

/-- Bits as a number, the first bit the least significant. -/
def ofBits : List Bool → Nat
  | [] => 0
  | b :: rest => (if b then 1 else 0) + 2 * ofBits rest

/-! ## The check function (R135) -/

/-- The generator polynomial of R135. -/
def crcPolynomial : BitVec 32 := 0x04C11DB7

/-- One bit taken into the check register. -/
def crcBit (r : BitVec 32) (b : Bool) : BitVec 32 :=
  if r.msb != b then (r <<< 1) ^^^ crcPolynomial else r <<< 1

/-- `f r`, with `r` brought to a numeral before `f` is entered, so that a long check can be evaluated. -/
def forced {α : Type} (r : BitVec 32) (f : BitVec 32 → α) : α :=
  match r.toNat with
  | 0 => f 0
  | n + 1 => f (BitVec.ofNat 32 (n + 1))

/-- Bits taken into the check register one after the other. -/
def crcBits : BitVec 32 → List Bool → BitVec 32
  | r, [] => r
  | r, b :: rest => forced (crcBit r b) fun r => crcBits r rest

/-- The bits of a string in the order in which the check takes them: each byte least-significant bit first. -/
def crcInput (bs : List Byte) : List Bool :=
  bs.flatMap fun v => (List.range 8).map fun i => v.getLsbD i

/-- The 32-bit check of a string of bytes: the register starts at 0xFFFFFFFF, and the result is bit-reversed and then
complemented (R135). -/
def crc32 (bs : List Byte) : BitVec 32 := ~~~(crcBits 0xFFFFFFFF (crcInput bs)).reverse

/-! ## Enumerated values (11.9) -/

/-- Link state numbers. -/
def LinkState.code : LinkState → Nat
  | .vacant => 0
  | .standby => 1
  | .live => 2
  | .stalled => 3
  | .quarantined => 4

/-- Key slot state numbers. -/
def SlotState.code : SlotState → Nat
  | .empty => 0
  | .inUse => 1
  | .spent => 2

/-- Renewal state numbers. -/
def RenewalState.code : RenewalState → Nat
  | .idle => 0
  | .due => 1
  | .exchange => 2
  | .rest => 3

/-- Renewal record state numbers. -/
def RecordState.code : RecordState → Nat
  | .free => 0
  | .waitingSend => 1
  | .waitingReply => 2

/-- Last refusal numbers; those of the three reasons are also the reasons' numbers in a TURN_REFUSE (11.2). -/
def Refuse.code : Refuse → Nat
  | .none => 0
  | .busy => 1
  | .noRoom => 2
  | .badWrap => 3

/-- Edge numbers. -/
def Edge.code : Edge → Nat
  | .raised => 1
  | .cleared => 2

/-- Link fault kind numbers. -/
def LinkKind.code : LinkKind → Nat
  | .tagFail => 1
  | .replay => 2
  | .unknownGen => 3
  | .exchangeFault => 4
  | .keySpent => 5
  | .renewalFailed => 6
  | .linkSilent => 7
  | .shopAlert => 8
  | .storeCorrupt => 9

/-- Device item numbers. -/
def DeviceItem.code : DeviceItem → Nat
  | .unknownBranch => 16
  | .settingsDefaulted => 17
  | .noMaster => 18
  | .randomFault => 19
  | .busFault => 20

/-- The number of a notice's kind. -/
def NoticeKind.code : NoticeKind → Nat
  | .link k => k.code
  | .device d => d.code

/-- Engine state numbers. -/
def EngineState.code : EngineState → Nat
  | .starting => 0
  | .stopped => 1
  | .idle => 2
  | .serving => 3

/-- Batch state numbers. -/
def BatchState.code : BatchState → Nat
  | .free => 0
  | .waiting => 1
  | .inService => 2

/-- The action of an action byte; a value outside the four actions becomes NOTE (R23). -/
def Action.ofByte (b : Byte) : Action :=
  if b = 1 then .hold else if b = 2 then .renew else if b = 3 then .quarantine else .note

/-- The statuses of an entry. -/
inductive Status where
  | ok
  | okClamped
  | delivered
  | consumed
  | reportDelivered
  | skipped
  | badRequest
  | malformed
  | runt
  | oversize
  | noRoom
  | unknownBranch
  | notEnrolled
  | noKey
  | keySpent
  | held
  | quiesced
  | quarantined
  | unknownGen
  | tooOld
  | replayed
  | tagFail
  | classMismatch
  | slotTaken
  | rangeOverlap
  | badRange
  | badWrap
  | noMaster
  | profileEmpty
  | profileInUse
  | badProfile
  | badSlot
  | notHeld
  | busFault
  deriving DecidableEq, Repr

/-- Status numbers. -/
def Status.code : Status → Byte
  | .ok => 0x00
  | .okClamped => 0x01
  | .delivered => 0x02
  | .consumed => 0x03
  | .reportDelivered => 0x04
  | .skipped => 0x08
  | .badRequest => 0x10
  | .malformed => 0x11
  | .runt => 0x12
  | .oversize => 0x13
  | .noRoom => 0x14
  | .unknownBranch => 0x15
  | .notEnrolled => 0x16
  | .noKey => 0x17
  | .keySpent => 0x18
  | .held => 0x19
  | .quiesced => 0x1A
  | .quarantined => 0x1B
  | .unknownGen => 0x1C
  | .tooOld => 0x1D
  | .replayed => 0x1E
  | .tagFail => 0x1F
  | .classMismatch => 0x20
  | .slotTaken => 0x21
  | .rangeOverlap => 0x22
  | .badRange => 0x23
  | .badWrap => 0x24
  | .noMaster => 0x25
  | .profileEmpty => 0x26
  | .profileInUse => 0x27
  | .badProfile => 0x28
  | .badSlot => 0x29
  | .notHeld => 0x2A
  | .busFault => 0x3F

/-- The details of an entry's result. -/
inductive Detail where
  | none
  | host
  | supervisor
  | both
  | read
  | write
  | lastUse
  | format
  | class_
  | length
  | flags
  | sequence
  | currentKey
  | retiringKey
  | rootChannel
  | controlCode
  | controlLength
  | controlField
  | acceptTaken
  | refuseTaken
  | stale
  | wasVacant
  | zeroKey
  | unchanged
  | joined
  | promoted
  deriving DecidableEq, Repr

/-- Detail numbers. -/
def Detail.code : Detail → Byte
  | .none => 0x00
  | .host => 0x01
  | .supervisor => 0x02
  | .both => 0x03
  | .read => 0x04
  | .write => 0x05
  | .lastUse => 0x06
  | .format => 0x0A
  | .class_ => 0x0B
  | .length => 0x0C
  | .flags => 0x0D
  | .sequence => 0x0E
  | .currentKey => 0x10
  | .retiringKey => 0x11
  | .rootChannel => 0x12
  | .controlCode => 0x14
  | .controlLength => 0x15
  | .controlField => 0x16
  | .acceptTaken => 0x18
  | .refuseTaken => 0x19
  | .stale => 0x1A
  | .wasVacant => 0x20
  | .zeroKey => 0x21
  | .unchanged => 0x22
  | .joined => 0x23
  | .promoted => 0x24

/-- The header close statuses (11.3). -/
inductive CloseStatus where
  | inService
  | complete
  | abandoned
  deriving DecidableEq, Repr

/-- Close status numbers. -/
def CloseStatus.code : CloseStatus → Byte
  | .inService => 1
  | .complete => 2
  | .abandoned => 3

/-! ## Positions of the kinds in a fault record -/

/-- The position of a link kind in the fault record: its number less 1. -/
def LinkKind.index : LinkKind → Fin 9
  | .tagFail => 0
  | .replay => 1
  | .unknownGen => 2
  | .exchangeFault => 3
  | .keySpent => 4
  | .renewalFailed => 5
  | .linkSilent => 6
  | .shopAlert => 7
  | .storeCorrupt => 8

/-- The position of a rate kind among the scores: its number less 1. -/
def RateKind.index : RateKind → Fin 4
  | .tagFail => 0
  | .replay => 1
  | .unknownGen => 2
  | .exchangeFault => 3

/-- A rate kind as a link kind. -/
def RateKind.kind : RateKind → LinkKind
  | .tagFail => .tagFail
  | .replay => .replay
  | .unknownGen => .unknownGen
  | .exchangeFault => .exchangeFault

/-- The rate kinds in the order of R111. -/
def rateKinds : List RateKind := [.tagFail, .replay, .unknownGen, .exchangeFault]

/-- The rate kind that a link kind is; none for a condition kind (R108). -/
def LinkKind.rate? : LinkKind → Option RateKind
  | .tagFail => some .tagFail
  | .replay => some .replay
  | .unknownGen => some .unknownGen
  | .exchangeFault => some .exchangeFault
  | .keySpent => none
  | .renewalFailed => none
  | .linkSilent => none
  | .shopAlert => none
  | .storeCorrupt => none

/-! ## The line packet (11.2) -/

/-- The class of a DATA packet. -/
def classData : Byte := 1

/-- The class of a CONTROL packet. -/
def classControl : Byte := 2

/-- The 12 bytes of a header, most-significant byte first. -/
def headerBytes (h : Header) : List Byte :=
  [h.format, h.class_, h.generation, h.flags] ++ beBytes 2 h.branch.toNat ++ beBytes 2 h.bodyLength.toNat
    ++ beBytes 4 h.sequence.toNat

/-- The header that the first 12 bytes of a packet hold. -/
def parseHeader (bs : List Byte) : Header where
  format := bs.getD 0 0
  class_ := bs.getD 1 0
  generation := bs.getD 2 0
  flags := bs.getD 3 0
  branch := BitVec.ofNat 16 (ofBe (bytesAt bs 4 2))
  bodyLength := BitVec.ofNat 16 (ofBe (bytesAt bs 6 2))
  sequence := BitVec.ofNat 32 (ofBe (bytesAt bs 8 4))

/-- The direction a header's flags name: bit 0 (11.2). -/
def direction (h : Header) : Byte := h.flags &&& 1

/-- The nonce of a packet: salt, direction, generation, sequence (R31). -/
def packetNonce (salt : Salt) (h : Header) : PacketNonce :=
  salt ++ direction h ++ h.generation ++ h.sequence

/-- A key's bytes in their stored order (log entry 18). -/
def keyBytes (k : Key) : List Byte := leBytes 32 k.toNat

/-- A salt's bytes in their stored order. -/
def saltBytes (x : Salt) : List Byte := leBytes 8 x.toNat

/-- An attempt nonce's bytes in the order in which they were drawn (11.2). -/
def nonceBytes (x : AttemptNonce) : List Byte := leBytes 8 x.toNat

/-- A wrapped form's bytes, carried as it stands (11.2). -/
def wrappedBytes (w : Wrapped) : List Byte := leBytes 48 w.toNat

/-- A tag's bytes. -/
def tagBytes (t : Tag) : List Byte := leBytes 16 t.toNat

/-! ## The check code's covered string (R135, 11.6) -/

/-- The 119 bytes over which the check code of a record is taken, each field as it is stored. -/
def coveredString (l : Link) : List Byte :=
  keyBytes l.rootKey
    ++ leBytes 1 l.current.generation ++ keyBytes l.current.key ++ saltBytes l.current.salt
    ++ leBytes 1 l.retiring.generation ++ keyBytes l.retiring.key ++ saltBytes l.retiring.salt
    ++ leBytes 2 l.first ++ leBytes 2 l.last ++ leBytes 1 l.profile.val

/-- The check of a record computed afresh (R135). -/
def freshCode (l : Link) : BitVec 32 := crc32 (coveredString l)

/-- The record with its code computed afresh (R136). -/
def Link.recodeFresh (l : Link) : Link := { l with checkCode := freshCode l }

/-- The record `l`, written over `old`, with its code computed by difference: the stored code combined with the
check of the difference between the old and the new covered strings (R136). -/
def Link.recodeBy (old l : Link) : Link :=
  { l with checkCode := old.checkCode ^^^ (freshCode old ^^^ freshCode l) }

end Sys2Proof.Machine
end

