-- ==== Sys2Proof/Machine/Flags.lean ====
section
/-! DEFINITION. The notice causes and their mask, the NOTICE pin, the device flags, and what each register reads as. -/

namespace Sys2Proof.Machine

/-! ## Notice causes (R203) -/

/-- The five notice causes. -/
inductive Cause where
  | batchAClosed
  | batchBClosed
  | collect
  | clash
  | faultRaised
  deriving DecidableEq, Repr

/-- A cause at its NOTICE position (11.8). -/
def Cause.bit : Cause → BitVec 5
  | .batchAClosed => 0b00001
  | .batchBClosed => 0b00010
  | .collect => 0b00100
  | .clash => 0b01000
  | .faultRaised => 0b10000

/-- The cause of a batch's close (R156). -/
def closedCause : BatchId → Cause
  | .a => .batchAClosed
  | .b => .batchBClosed

/-- A cause is set; one that is already set stays set (R203). -/
def State.setCause (s : State) (c : Cause) : State := { s with causes := s.causes ||| c.bit }

/-- Said of a cause that is set. -/
def State.hasCause (s : State) (c : Cause) : Bool := s.causes &&& c.bit ≠ 0

/-! ## The NOTICE pin (R204) -/

/-- What the NOTICE output does. -/
inductive PinDrive where
  | released
  | low
  | high
  deriving DecidableEq, Repr

/-- The pin is active while a set cause has its enable mask bit set (R204). -/
def State.noticeActive (s : State) : Bool := s.causes &&& s.mask ≠ 0

/-- The NOTICE pin under its drive and polarity; released while RESETN is low and while the engine is STARTING
(R204). -/
def State.noticePin (s : State) : PinDrive :=
  if !s.resetn || s.engine = .starting then .released
  else
    match s.settings.drive, s.settings.polarity, s.noticeActive with
    | .openDrain, .activeLow, true => .low
    | .openDrain, .activeLow, false => .released
    | .openDrain, .activeHigh, true => .released
    | .openDrain, .activeHigh, false => .low
    | .pushPull, .activeLow, true => .low
    | .pushPull, .activeLow, false => .high
    | .pushPull, .activeHigh, true => .high
    | .pushPull, .activeHigh, false => .low

/-! ## Batches -/

/-- What the engine holds for a batch. -/
def State.batch (s : State) : BatchId → Batch
  | .a => s.batchA
  | .b => s.batchB

/-- What the engine holds for a batch, replaced. -/
def State.setBatch (s : State) (id : BatchId) (v : Batch) : State :=
  match id with
  | .a => { s with batchA := v }
  | .b => { s with batchB := v }

/-- The other batch. -/
def otherBatch : BatchId → BatchId
  | .a => .b
  | .b => .a

/-- Neither batch is WAITING or IN_SERVICE (R173). -/
def State.bothFree (s : State) : Bool := s.batchA.state = .free && s.batchB.state = .free

/-- The batch in service; at most one is (R148). -/
def State.inService? (s : State) : Option BatchId :=
  if s.batchA.state = .inService then some .a
  else if s.batchB.state = .inService then some .b
  else none

/-! ## The device flags (11.5) -/

/-- Byte 0 of the device board slot, and byte 8 of the device summary. The Random Source is FAILED exactly while
RANDOM_FAULT is active (R129, log entry 22). -/
def State.deviceFlags (s : State) : Nat :=
  ofBits [s.device.settingsDefaulted, s.device.noMaster, s.device.randomFault, s.device.busFault,
    s.device.noticesDropped, s.device.unknownBranchOverflow, s.quiesce, s.device.randomFault]

/-! ## The registers (R201, 11.8) -/

/-- The eight registers of the window. -/
inductive Register where
  | ident
  | control
  | status
  | notice
  | workBaseLo
  | workBaseHi
  | handA
  | handB
  deriving DecidableEq, Repr

/-- The offset of a register in the device's memory space (R201). -/
def Register.offset : Register → Nat
  | .ident => 0x00
  | .control => 0x04
  | .status => 0x08
  | .notice => 0x0C
  | .workBaseLo => 0x10
  | .workBaseHi => 0x14
  | .handA => 0x18
  | .handB => 0x1C

/-- The register at an offset; none at any other (R201). -/
def Register.ofOffset (offset : Nat) : Option Register :=
  [Register.ident, .control, .status, .notice, .workBaseLo, .workBaseHi, .handA, .handB].find? fun r => r.offset = offset

/-- What HAND_A or HAND_B reads as: the entries taken, and 0 while the batch is FREE (R201). -/
def Batch.handRead (b : Batch) : Nat := if b.state = .free then 0 else b.taken

/-- What a register holds to be read; a read changes nothing (R201). -/
def State.readRegister (s : State) : Register → Word
  | .ident => 0x05120100
  | .control => BitVec.ofNat 32 ((if s.run then 1 else 0) + 256 * s.mask.toNat)
  | .status =>
    BitVec.ofNat 32 (s.engine.code + 4 * s.batchA.state.code + 16 * s.batchB.state.code
      + 64 * (if s.clamped then 1 else 0) + 128 * (if s.settings.source = .block then 1 else 0))
  | .notice => BitVec.ofNat 32 s.causes.toNat
  | .workBaseLo => s.workBase.extractLsb' 0 32
  | .workBaseHi => s.workBase.extractLsb' 32 32
  | .handA => BitVec.ofNat 32 s.batchA.handRead
  | .handB => BitVec.ofNat 32 s.batchB.handRead

/-- What a read at an offset of the window answers. The registers answer from the release of reset onward (R201); a read
while RESETN is low, and one at an offset of no register, is given no value (DESIGN CHOICE, log entry 27). -/
def State.readAt (s : State) (offset : Nat) : Option Word :=
  if s.resetn then (Register.ofOffset offset).map s.readRegister else none

end Sys2Proof.Machine
end

