-- ==== Sys2Proof/Machine/Ops.lean ====
section
/-! DEFINITION. The operations every event shares: the Origination Queue's joins, folds and removals, device conditions, accesses of host memory, draws of the Random Source, and changes of one link or renewal record. -/

namespace Sys2Proof.Machine

/-! ## One record changed -/

/-- A link record changed. -/
def State.modLink (s : State) (k : Slot) (f : Link → Link) : State := s.setLink k (f (s.link k))

/-- A renewal record replaced. -/
def State.setRecord (s : State) (n : RecordNumber) (r : RenewalRecord) : State :=
  { s with records := s.records.set n.val r }

/-- The device fault record changed. -/
def State.modDevice (s : State) (f : DeviceFaults → DeviceFaults) : State := { s with device := f s.device }

/-! ## The Origination Queue (R167 to R173, R178) -/

/-- Said of a NOTICE item. -/
def Item.isNotice : Item → Bool
  | .notice _ => true
  | .offer _ _ => false

/-- The notice count: the number of NOTICE items (R167). -/
def noticeCount (q : List Item) : Nat := q.countP Item.isNotice

/-- The capacity of the queue (R167). -/
def queueCapacity : Nat := 32

/-- The limit of notices on the queue (R167). -/
def noticeLimit : Nat := 24

/-- Said of an item that is a notice of the same pair: link, or device, and kind (R167). -/
def samePair (n : Notice) : Item → Bool
  | .notice m => m.link = n.link && m.kind = n.kind
  | .offer _ _ => false

/-- A waiting notice with a new one folded into it; any other item as it stands (R170). -/
def foldInto (n : Notice) : Item → Item
  | .notice m =>
    if samePair n (.notice m) then
      .notice { m with edge := n.edge, counter := n.counter, score := n.score,
                       flicker := m.flicker || (n.edge ≠ m.edge) }
    else .notice m
  | .offer k p => .offer k p

/-- An item placed at the end of the queue (R168). -/
def pushItem (it : Item) (s : State) : State := { s with queue := s.queue ++ [it] }

/-- An item joins the end of the queue, which sets COLLECT when neither batch is WAITING or IN_SERVICE (R168,
R173). -/
def joinQueue (it : Item) (s : State) : State :=
  if s.bothFree then (pushItem it s).setCause .collect else pushItem it s

/-- A notice folded into the waiting notice of its pair (R170). -/
def foldNotice (n : Notice) (s : State) : State := { s with queue := s.queue.map (foldInto n) }

/-- The NOTICES_DROPPED mark set (R128, R171). -/
def dropNotice (s : State) : State := s.modDevice fun d => { d with noticesDropped := true }

/-- A notice handed to the queue: folded, joined or dropped (R170, R171). -/
def makeNotice (n : Notice) (s : State) : State :=
  if s.queue.any (samePair n) then foldNotice n s
  else if noticeCount s.queue < noticeLimit ∧ s.queue.length < queueCapacity then joinQueue (.notice n) s
  else dropNotice s

/-- Said of an OFFER item of a link. -/
def isOfferOf (k : Slot) : Item → Bool
  | .offer j _ => j = k
  | .notice _ => false

/-- Said of an OFFER or NOTICE item of a link. -/
def isItemOf (k : Slot) : Item → Bool
  | .offer j _ => j = k
  | .notice n => n.link = some k

/-- The OFFER item of a link removed (R178). -/
def removeOffers (k : Slot) (s : State) : State :=
  { s with queue := s.queue.filter fun it => !isOfferOf k it }

/-- Every item of a link removed (R178). -/
def removeItems (k : Slot) (s : State) : State :=
  { s with queue := s.queue.filter fun it => !isItemOf k it }

/-! ## Counters and device conditions (R118, R124, R125) -/

/-- The largest value of a 16-bit count (R118). -/
def countMax : Nat := 65535

/-- A count and its overflow mark after one more: past 65,535 the count stays and the mark is set (R118). -/
def countUp (count : Nat) (overflow : Bool) : Nat × Bool :=
  if count + 1 > countMax then (countMax, true) else (count + 1, overflow)

/-- Said of a device condition that is active; UNKNOWN_BRANCH has no active state (R125). -/
def DeviceFaults.isActive (d : DeviceFaults) : DeviceItem → Bool
  | .unknownBranch => false
  | .settingsDefaulted => d.settingsDefaulted
  | .noMaster => d.noMaster
  | .randomFault => d.randomFault
  | .busFault => d.busFault

/-- A device condition made active. -/
def DeviceFaults.activate (d : DeviceFaults) : DeviceItem → DeviceFaults
  | .unknownBranch => d
  | .settingsDefaulted => { d with settingsDefaulted := true }
  | .noMaster => { d with noMaster := true }
  | .randomFault => { d with randomFault := true }
  | .busFault => { d with busFault := true }

/-- A device condition raised: a notice with the device number, counter 0 and score 0, and FAULT_RAISED. One already
active makes no edge (R124). -/
def raiseDevice (item : DeviceItem) (s : State) : State :=
  if s.device.isActive item then s
  else
    let s := s.modDevice fun d => d.activate item
    let s := makeNotice ⟨none, .device item, .raised, 0, 0, false⟩ s
    s.setCause .faultRaised

/-- An INBOUND entry refused with UNKNOWN_BRANCH: the count, a notice with the count, and FAULT_RAISED (R125). -/
def countUnknownBranch (s : State) : State :=
  let c := countUp s.device.unknownBranchCount s.device.unknownBranchOverflow
  let s := s.modDevice fun d => { d with unknownBranchCount := c.1, unknownBranchOverflow := c.2 }
  let s := makeNotice ⟨none, .device .unknownBranch, .raised, c.1, 0, false⟩ s
  s.setCause .faultRaised

/-! ## Accesses of host memory (R127, R134, R161) -/

/-- How the next access ends, and the state with that outcome used up. Once RESETN has fallen it stays low, and no later
access of the command is made (R206). -/
def nextAccess (s : State) : BusOutcome × State :=
  match s.bus with
  | [] => (.done, s)
  | .fall landed :: rest => (.fall landed, { s with resetn := false, bus := .fall 0 :: rest })
  | o :: rest => (o, { s with bus := rest })

/-- A read of host memory: whether it succeeded. An error raises BUS_FAULT (R127). Where RESETN has fallen the read is not
made, and the command runs on without it (R206, log entry 9). -/
def hostRead (s : State) : Bool × State :=
  match nextAccess s with
  | (.done, s) => (true, s)
  | (.error _, s) => (false, raiseDevice .busFault s)
  | (.fall _, s) => (true, s)

/-- What a write is of. The spec leaves open which bytes of a failed write of a tail item (R176) or of an output buffer
(R44, R57) reach host memory; of any other failed write none do (R134). Of the writes that a fall of RESETN meets, one of
an output buffer may have been issued in part, and no other (R206). -/
inductive WriteKind where
  | whole
  | tailItem
  | output
  deriving DecidableEq, Repr

/-- Some bytes of a write that was not made whole have reached host memory. -/
def landBytes (a : Address) (landed : Nat) (bytes : List Byte) (s : State) : State :=
  { s with hostMem := s.hostMem.writeLanded a landed bytes }

/-- One write of host memory: whether it succeeded. An error raises BUS_FAULT (R127). Where RESETN has fallen the write is
not made, and the command runs on without it (R206, log entry 9). -/
def hostWrite (kind : WriteKind) (a : Address) (bytes : List Byte) (s : State) : Bool × State :=
  match nextAccess s with
  | (.done, s) =>
    (true, { s with hostMem := s.hostMem.writeBytes a bytes, posted := s.posted ++ [⟨a, bytes⟩] })
  | (.error landed, s) =>
    (false, raiseDevice .busFault (match kind with
      | .whole => s
      | .tailItem => landBytes a landed bytes s
      | .output => landBytes a landed bytes s))
  | (.fall landed, s) =>
    (true, match kind with
      | .whole => s
      | .tailItem => s
      | .output => landBytes a landed bytes s)

/-! ## The Random Source (R129) -/

/-- The next value of the noise: the one the command gives, or a free value. -/
def nextNoise (s : State) : Draw × State :=
  match s.noise with
  | d :: rest => (d, { s with noise := rest })
  | [] => (Config.noise s.drawCount, { s with drawCount := s.drawCount + 1 })

/-- The last draw replaced (R129). -/
def setLastDraw (d : Draw) (s : State) : State := { s with lastDraw := some d }

/-- One draw under the repetition test. A draw equal to the last draw fails and raises RANDOM_FAULT; the last draw
becomes the new one either way (R129). The answer is none when the test fails. -/
def draw (s : State) : Option Draw × State :=
  let (d, s) := nextNoise s
  if s.lastDraw = some d then (none, raiseDevice .randomFault (setLastDraw d s)) else (some d, setLastDraw d s)

/-- The given number of draws, ending at the first that fails its test (R87). -/
def drawMany : Nat → State → Option (List Draw) × State
  | 0, s => (some [], s)
  | n + 1, s =>
    match draw s with
    | (none, s) => (none, s)
    | (some d, s) =>
      match drawMany n s with
      | (none, s) => (none, s)
      | (some ds, s) => (some (d :: ds), s)

/-- The self-test: two consecutive draws, each under the repetition test (R129). -/
def selfTest (s : State) : State := (draw (draw s).2).2

/-! ## Renewal records (R84, R85) -/

/-- The number of the in-use renewal record of a link, if it has one. -/
def State.recordOf (s : State) (k : Slot) : Option RecordNumber :=
  allRecordNumbers.find? fun n => s.records[n].state ≠ .free && s.records[n].slot = k

/-- The lowest-numbered free renewal record (R86). -/
def State.freeRecord (s : State) : Option RecordNumber :=
  allRecordNumbers.find? fun n => s.records[n].state = .free

/-- How many renewal records are in use (R133). -/
def State.recordsInUse (s : State) : Nat :=
  (allRecordNumbers.filter fun n => s.records[n].state ≠ .free).length

/-- A record joins the end of the send order (R85). -/
def joinSendOrder (n : RecordNumber) (s : State) : State := { s with sendOrder := s.sendOrder ++ [n] }

/-- A record leaves the send order (R85). -/
def leaveSendOrder (n : RecordNumber) (s : State) : State := { s with sendOrder := s.sendOrder.filter fun m => m ≠ n }

/-- A renewal record freed: every field zero, and out of the send order (R84, R85). -/
def freeRecordAt (n : RecordNumber) (s : State) : State := leaveSendOrder n (s.setRecord n .free)

/-- The renewal record of a link freed, when it has one (R103, R104). -/
def freeRecordOf (k : Slot) (s : State) : State :=
  match s.recordOf k with
  | some n => freeRecordAt n s
  | none => s

/-! ## The Branch Map (R26 to R29) -/

/-- The slot of the triple that holds a branch number (R27). -/
def lookupBranch (m : List Triple) (b : Nat) : Option Slot :=
  (m.find? fun t => t.first ≤ b && b ≤ t.last).map Triple.slot

/-- The branch range that a link serves: that of its triple in the Branch Map, against which lookups are made, whatever its
record holds (R26, R141, R143); the record's own when it has no triple (log entry 25). -/
def mapRange (m : List Triple) (k : Slot) (l : Link) : Nat × Nat :=
  match m.find? fun t => t.slot = k with
  | some t => (t.first, t.last)
  | none => (l.first, l.last)

/-- The branch range of a link (R26, R143). -/
def State.rangeOf (s : State) (k : Slot) : Nat × Nat := mapRange s.branchMap k (s.link k)

/-- Two ranges share a branch number (R28). -/
def rangesShare (f l : Nat) (t : Triple) : Bool := f ≤ t.last && t.first ≤ l

/-- A triple placed so that the list stays in ascending order of first (R28). -/
def insertTriple (t : Triple) : List Triple → List Triple
  | [] => [t]
  | u :: rest => if t.first < u.first then t :: u :: rest else u :: insertTriple t rest

/-- The Branch Map replaced. -/
def setBranchMap (m : List Triple) (s : State) : State := { s with branchMap := m }

/-- The triple of a link taken out of the list (R29). -/
def removeTriple (k : Slot) (m : List Triple) : List Triple := m.filter fun t => t.slot ≠ k

end Sys2Proof.Machine
end

