-- ==== Sys2Proof/Machine/Board.lean ====
section
/-! DEFINITION. The fault board: what each slot shows (11.5), the writes an event makes of the slots it changed, and the full board write (R131 to R134). -/

namespace Sys2Proof.Machine

/-! ## What the slots show -/

/-- The hold marks as they are shown: bit 0 host, bit 1 supervisor (11.4, 11.5). -/
def holdMarks (l : Link) : Nat := ofBits [l.hostHold, l.supervisorHold]

/-- The active states of the nine kinds, bit k − 1 for kind k (11.4). -/
def activeStates (l : Link) : Nat := ofBits (l.kinds.toList.map KindRecord.active)

/-- The overflow marks of the nine kinds, at the same positions (11.4). -/
def overflowMarks (l : Link) : Nat := ofBits (l.kinds.toList.map KindRecord.overflow)

/-- The nine counters, two bytes each, in kind order (11.4, 11.5). -/
def counterBytes (l : Link) : List Byte := l.kinds.toList.flatMap fun k => leBytes 2 k.counter

/-- The attempt of a link's renewal record, and 0 when it has none (R132). -/
def State.attemptOf (s : State) (k : Slot) : Nat :=
  match s.recordOf k with
  | some n => s.records[n].attempt
  | none => 0

/-- The most recent shop code, and 0 when the list is empty (R115, R132). -/
def recentShopCode (l : Link) : Nat :=
  match l.shopCodes with
  | [] => 0
  | c :: _ => c.code

/-- The 32 bytes of a link's board slot; a VACANT link's are all zero (R132, 11.5). -/
def linkSlotBytes (s : State) (k : Slot) : List Byte :=
  let l := s.link k
  if l.state = .vacant then zeroBytes 32
  else
    leBytes 1 l.state.code ++ leBytes 1 (holdMarks l) ++ leBytes 1 l.renewal.code ++ leBytes 1 (s.attemptOf k)
      ++ leBytes 1 l.current.generation ++ leBytes 1 l.retiring.generation ++ leBytes 1 l.profile.val ++ zeroBytes 1
      ++ leBytes 2 (activeStates l) ++ leBytes 2 (overflowMarks l) ++ leBytes 2 (recentShopCode l) ++ counterBytes l

/-- The length of the Due List (R133). -/
def State.dueLength (s : State) : Nat := s.dueList.urgent.length + s.dueList.ordinary.length

/-- The 32 bytes of the device slot (R133, 11.5). -/
def deviceSlotBytes (s : State) : List Byte :=
  leBytes 1 s.deviceFlags ++ zeroBytes 1 ++ leBytes 1 s.recordsInUse ++ leBytes 1 s.queue.length
    ++ leBytes 2 s.dueLength ++ leBytes 2 s.device.unknownBranchCount ++ zeroBytes 24

/-! ## Writes -/

/-- The address of board slot `k` at a board base (R147). -/
def boardSlotAddress (base : Address) (k : Nat) : Address := base + BitVec.ofNat 64 (16384 + 32 * k)

/-- One slot written as one 32-byte write; a failure raises BUS_FAULT and is not retried (R134). -/
def writeBoardSlot (base : Address) (k : Nat) (bytes : List Byte) (s : State) : State :=
  (hostWrite .whole (boardSlotAddress base k) bytes s).2

/-- The device slot written, and written once more when that write's own failure has changed what it shows
(R134). -/
def writeDeviceSlot (base : Address) (s : State) : State :=
  let t := writeBoardSlot base 512 (deviceSlotBytes s) s
  if deviceSlotBytes t = deviceSlotBytes s then t else writeBoardSlot base 512 (deviceSlotBytes t) t

/-- Said of a link slot that shows other values in `t` than in `s`. -/
def slotChanged (s t : State) (k : Slot) : Bool :=
  if (s.link k).state = .vacant ∧ (t.link k).state = .vacant then false
  else linkSlotBytes s k ≠ linkSlotBytes t k

/-- The slots an event changed, from `before` on, written at the board base: each link slot, and then the device
slot, once each (R132, R133, log entry 15). Nothing is written while the base is absent (R131). -/
def flushBoard (before s : State) : State :=
  match s.boardBase with
  | none => s
  | some base =>
    let t := (allSlots.filter (slotChanged before s)).foldl
      (fun t k => writeBoardSlot base k.val (linkSlotBytes s k) t) s
    if deviceSlotBytes before = deviceSlotBytes t then t else writeDeviceSlot base t

/-- All 513 slots written with their present contents (R131). -/
def fullBoardWrite (s : State) : State :=
  match s.boardBase with
  | none => s
  | some base =>
    writeDeviceSlot base (allSlots.foldl (fun t k => writeBoardSlot base k.val (linkSlotBytes s k) t) s)

/-! ## Events -/

/-- An event begins: what the outside decides within it is at hand, and no write has been made. -/
def beginEvent (env : Env) (s : State) : State := { s with bus := env.bus, noise := env.noise, posted := [] }

/-- An event ends. -/
def endEvent (s : State) : State := { s with bus := [], noise := [] }

/-- One event's changes, followed by its board writes (R132). -/
def withBoard (body : State → State) (s : State) : State := flushBoard s (body s)

/-- A whole command: nothing happens while RESETN is low (R206); otherwise the event is taken whole. -/
def event (env : Env) (body : State → State) (s : State) : State :=
  if s.resetn then endEvent (body (beginEvent env s)) else s

end Sys2Proof.Machine
end

