-- ==== Sys2Proof/Machine/Budget.lean ====
section
/-! DEFINITION. Key budgets: the cost of a use, the charge, the rate estimate, the reserve, and the due, urgency and spent tests (R36, R64 to R75), with the profile a link reads (R24). -/

namespace Sys2Proof.Machine

/-! ## The profile a link reads (R24) -/

/-- The lowest value of each field's range, which a link reads from an invalid profile (R24). -/
def Profile.lowest : Profile where
  valid := false
  budget := 1024
  ageLimit := 16
  lead := 1
  replyWait := 1
  attempts := 1
  restTime := 1
  retireTime := 1
  silenceLimit := 0
  rates := .replicate 4 ⟨1, 0, 1, 0, .note⟩
  keySpentAction := .note
  renewalFailedAction := .note
  linkSilentAction := .note
  shopAlertAction := .note

/-- The fields that a link reads from the profile it names (R24). -/
def State.profileOf (s : State) (k : Slot) : Profile :=
  let p := s.profiles[(s.link k).profile]
  if p.valid then p else .lowest

/-! ## Cost and charge (R36, R67) -/

/-- The cost of one use on a body of `len` bytes: ceil(len / 16) + 2 (R36). -/
def cost (len : Nat) : Nat := (len + 15) / 16 + 2

/-- The largest cost of one use (R36). -/
def maxCost : Nat := 98

/-- The largest period count (R67). -/
def periodCountMax : Nat := 8388607

/-- A link whose CURRENT key is charged: U and N go up (R36, R67). -/
def Link.chargeCurrent (l : Link) (c : Nat) : Link :=
  { l with current := { l.current with use := l.current.use + c },
           periodCount := min periodCountMax (l.periodCount + c) }

/-- A link whose RETIRING key is charged: N stays (R36). -/
def Link.chargeRetiring (l : Link) (c : Nat) : Link :=
  { l with retiring := { l.retiring with use := l.retiring.use + c } }

/-! ## The rate estimate and the reserve (R68, R69) -/

/-- The largest rate estimate (R68). -/
def rateMax : Nat := 16777215

/-- E16 after a mark at which the period count was `n` (R68). -/
def nextRate (e n : Nat) : Nat := min rateMax (e - e / 8 + 2 * n)

/-- The largest reserve (R69). -/
def reserveMax : Nat := 4294967295

/-- The reserve R of a rate estimate and a lead (R69). -/
def reserve (e lead : Nat) : Nat := min reserveMax ((e * lead + 15) / 16)

/-! ## Due, urgent and spent (R70 to R72, R75) -/

/-- The tests of R70 on a key. -/
def keyDue (slot : KeySlot) (r lead : Nat) : Bool := slot.budget ≤ slot.use + r || slot.ageLimit ≤ slot.age + lead

/-- The tests of R71 on a key: B − U ≤ floor(R / 2), or A − age ≤ floor(L / 2). -/
def keyUrgent (slot : KeySlot) (r lead : Nat) : Bool :=
  slot.budget - slot.use ≤ r / 2 || slot.ageLimit - slot.age ≤ lead / 2

/-- Said of a due link (R70, R72). -/
def State.isDue (s : State) (k : Slot) : Bool :=
  let l := s.link k
  let lead := (s.profileOf k).lead
  match l.state with
  | .vacant => false
  | .standby => true
  | .live => keyDue l.current (reserve l.rate lead) lead
  | .stalled => true
  | .quarantined => false

/-- Said of an urgent link (R71, R72). -/
def State.isUrgent (s : State) (k : Slot) : Bool :=
  let l := s.link k
  let lead := (s.profileOf k).lead
  match l.state with
  | .vacant => false
  | .standby => true
  | .live => keyUrgent l.current (reserve l.rate lead) lead
  | .stalled => true
  | .quarantined => false

/-- The budget and age limits of the spent check: B − U < 98, or age ≥ A (R75). -/
def limitReached (slot : KeySlot) : Bool := slot.budget < slot.use + maxCost || slot.ageLimit ≤ slot.age

/-- The generation after another: one more, 255 being followed by 1 (R87). -/
def nextGeneration (g : Nat) : Nat := if g ≥ 255 then 1 else g + 1

end Sys2Proof.Machine
end

