-- ==== Sys2Proof/Machine/Turnover.lean ====
section
/-! DEFINITION. The Due List, origination, admission, the forced join and the due check (R73, R79 to R91). -/

namespace Sys2Proof.Machine

/-! ## Cipher functions with the nonce formed (R31 to R33) -/

/-- The encipher function (R32). -/
def encipher (key : Key) (salt : Salt) (h : Header) (body : List Byte) : List Byte × Tag :=
  Config.cipher.encipher key (packetNonce salt h) h body

/-- The decipher function; none is a tag failure (R33). -/
def decipher (key : Key) (salt : Salt) (h : Header) (body : List Byte) (tag : Tag) : Option (List Byte) :=
  Config.cipher.decipher key (packetNonce salt h) h body tag

/-- The finished packet: header, ciphertext and tag (R42, R88). -/
def sealPacket (key : Key) (salt : Salt) (h : Header) (body : List Byte) : List Byte :=
  let c := encipher key salt h body
  headerBytes h ++ c.1 ++ tagBytes c.2

/-- The sequence after another, 4,294,967,295 being followed by 0, which is exhausted (R16, R41). -/
def nextSequence (q : Nat) : Nat := if q ≥ 4294967295 then 0 else q + 1

/-! ## Origination (R88, R89) -/

/-- The code of a TURN_OFFER body (11.2). -/
def codeOffer : Byte := 1

/-- The clear body of an offer: code, new generation, nonce, wrapped key and salt (R88). -/
def offerBody (rootKey : Key) (r : RenewalRecord) : List Byte :=
  [codeOffer] ++ leBytes 1 r.generation ++ nonceBytes r.nonce
    ++ wrappedBytes (Config.cipher.wrap rootKey r.key r.salt)

/-- The header of an offer of a link whose range begins at `first` (R88). -/
def offerHeader (first : Nat) (l : Link) : Header where
  format := 1
  class_ := classControl
  generation := 0
  flags := 0
  branch := BitVec.ofNat 16 first
  bodyLength := 58
  sequence := BitVec.ofNat 32 l.rootSequence

/-- The 86-byte offer packet, under the root key with eight zero bytes as salt (R88). -/
def offerPacket (first : Nat) (l : Link) (r : RenewalRecord) : List Byte :=
  sealPacket l.rootKey 0 (offerHeader first l) (offerBody l.rootKey r)

/-- One record originated: the offer names the first branch of the link's range and takes the root sequence, joins the
queue, and the record leaves the send order (R88, R89). The range is the Branch Map's, so an altered range in the record
has no effect (R143, log entry 12). -/
def originateOne (n : RecordNumber) (s : State) : State :=
  let r := s.records[n]
  let l := s.link r.slot
  let packet := offerPacket (s.rangeOf r.slot).1 l r
  let s := s.setLink r.slot { l with rootSequence := nextSequence l.rootSequence }
  let s := joinQueue (.offer r.slot packet) s
  leaveSendOrder n (s.setRecord n { r with offerQueued := true })

/-- Said of a record of the send order that can be originated now: the queue has a free entry, QUIESCE is released,
and its link's root channel is not exhausted (R89). -/
def canOriginate (n : RecordNumber) (s : State) : Bool :=
  s.queue.length < queueCapacity && !s.quiesce && (s.link s.records[n].slot).rootSequence ≠ 0

/-- A try at origination: the send order walked from its earliest record (R89). -/
def tryOriginate (s : State) : State :=
  s.sendOrder.foldl (fun s n => if canOriginate n s then originateOne n s else s) s

/-! ## Admission (R86, R87) -/

/-- The head of the Due List (R79). -/
def DueList.head? (d : DueList) : Option Slot :=
  match d.urgent with
  | k :: _ => some k
  | [] => d.ordinary.head?

/-- A slot taken out of the Due List; the entries behind it close up (R79). -/
def DueList.remove (d : DueList) (k : Slot) : DueList :=
  ⟨d.urgent.filter fun j => j ≠ k, d.ordinary.filter fun j => j ≠ k⟩

/-- A Due List entry removed (R83). -/
def removeDue (k : Slot) (s : State) : State := { s with dueList := s.dueList.remove k }

/-- The key that four draws make, the first draw its first eight bytes (R87, log entry 18). -/
def keyOfDraws (d0 d1 d2 d3 : Draw) : Key := d3 ++ d2 ++ d1 ++ d0

/-- The new generation of a turnover (R87). -/
def newGeneration (l : Link) : Nat :=
  if l.current.state = .empty then 1 else nextGeneration l.current.generation

/-- A link's renewal state and rest timer set (R19). -/
def Link.withRenewal (r : RenewalState) (timer : Nat) (l : Link) : Link := { l with renewal := r, restTimer := timer }

/-- The record of a new admission (R86, step 4). -/
def admittedRecord (l : Link) (k : Slot) (key : Key) (salt : Salt) (nonce : AttemptNonce) : RenewalRecord :=
  ⟨.waitingSend, k, newGeneration l, key, salt, nonce, 1, false, 0, .none⟩

/-- The head `k` taken into the free record `n` with a drawn key, salt and nonce (R86, steps 1 to 6). -/
def admitInto (n : RecordNumber) (k : Slot) (key : Key) (salt : Salt) (nonce : AttemptNonce) (s : State) : State :=
  let s := removeDue k s
  let s := s.setRecord n (admittedRecord (s.link k) k key salt nonce)
  let s := s.modLink k (Link.withRenewal .exchange 0)
  tryOriginate (joinSendOrder n s)

/-- Admissions for as long as a record is free, the Due List is not empty and the Random Source is healthy, at most
the given number of them (R86). An admission whose draws fail is abandoned, and the failure ends the tries (R87). -/
def admitUpTo : Nat → State → State
  | 0, s => s
  | i + 1, s =>
    match s.freeRecord, s.dueList.head?, s.device.randomFault with
    | some n, some k, false =>
      match drawMany 6 s with
      | (some [d0, d1, d2, d3, d4, d5], s) => admitUpTo i (admitInto n k (keyOfDraws d0 d1 d2 d3) d4 d5 s)
      | (_, s) => s
    | _, _, _ => s

/-- A try at admission. There are 16 renewal records, so an event admits at most 16 links by one try (R86). -/
def tryAdmit (s : State) : State := admitUpTo 16 s

/-! ## Joins and promotion (R80 to R82) -/

/-- The two sections of the Due List. -/
inductive Section where
  | urgent
  | ordinary
  deriving DecidableEq, Repr

/-- A slot at the end of a section (R79). -/
def DueList.append (d : DueList) (k : Slot) : Section → DueList
  | .urgent => { d with urgent := d.urgent ++ [k] }
  | .ordinary => { d with ordinary := d.ordinary ++ [k] }

/-- A slot placed at the end of a section of the Due List (R79). -/
def appendDue (k : Slot) (sec : Section) (s : State) : State := { s with dueList := s.dueList.append k sec }

/-- A link joins the end of a section and becomes DUE, any rest being over, and an admission is tried (R80). -/
def joinDue (k : Slot) (sec : Section) (s : State) : State :=
  tryAdmit ((appendDue k sec s).modLink k (Link.withRenewal .due 0))

/-- An entry of the ordinary section moves to the end of the urgent section (R82). -/
def promoteDue (k : Slot) (s : State) : State :=
  { s with dueList := ⟨s.dueList.urgent ++ [k], s.dueList.ordinary.filter fun j => j ≠ k⟩ }

/-- What a forced join did (R195). -/
inductive JoinResult where
  | joined
  | promoted
  | unchanged
  deriving DecidableEq, Repr

/-- A forced join (R81). -/
def forcedJoin (k : Slot) (sec : Section) (s : State) : JoinResult × State :=
  match (s.link k).renewal with
  | .idle => (.joined, joinDue k sec s)
  | .rest => (.joined, joinDue k sec s)
  | .due =>
    if sec = .urgent ∧ k ∈ s.dueList.ordinary then (.promoted, promoteDue k s) else (.unchanged, s)
  | .exchange => (.unchanged, s)

/-! ## The due check (R73, R74) -/

/-- The sites of the due check, by whether the urgency test of a DUE link is made there (R73). -/
inductive DueSite where
  | testsUrgency
  | joinsOnly
  deriving DecidableEq, Repr

/-- The due check (R73). On a VACANT or QUARANTINED link it does nothing (R72). -/
def dueCheck (k : Slot) (site : DueSite) (s : State) : State :=
  if (s.link k).state = .vacant ∨ (s.link k).state = .quarantined then s
  else
    match (s.link k).renewal with
    | .idle => if s.isDue k then joinDue k (if s.isUrgent k then .urgent else .ordinary) s else s
    | .due =>
      if site = .testsUrgency ∧ s.isUrgent k ∧ k ∈ s.dueList.ordinary then promoteDue k s else s
    | .exchange => s
    | .rest => s

end Sys2Proof.Machine
end

