-- ==== Sys2Proof/Machine/Window.lean ====
section
/-! DEFINITION. The replay window's test and advance (R37, R38). -/

namespace Sys2Proof.Machine

/-- The outcomes of a window test (R37). -/
inductive WindowTest where
  | passes
  | replayed
  | tooOld
  deriving DecidableEq, Repr

/-- The test of an inbound sequence against a window; it changes nothing (R37). -/
def windowTest (w : Window) (q : Nat) : WindowTest :=
  if w.high < q then .passes
  else if q + 64 ≤ w.high then .tooOld
  else if w.map.getLsbD (w.high - q) then .replayed
  else .passes

/-- The window after a packet that passed its test has passed its tag (R38). -/
def windowAdvance (w : Window) (q : Nat) : Window :=
  if w.high < q then ⟨q, (w.map <<< (q - w.high)) ||| 1⟩
  else ⟨w.high, w.map ||| ((1 : BitVec 64) <<< (w.high - q))⟩

end Sys2Proof.Machine
end

