-- ==== Sys2Proof/Machine/Faults.lean ====
section
/-! DEFINITION. Fault supervision: edges and their actions, quarantine, scoring and decay, the spending and erasure of key slots, and the shop code list (R12 to R14, R25, R110 to R123). -/

namespace Sys2Proof.Machine

/-! ## The fault record of a link -/

/-- What a link's fault record holds for a kind. -/
def Link.kind (l : Link) (k : LinkKind) : KindRecord := l.kinds[k.index]

/-- A kind of a link's fault record replaced. -/
def Link.setKind (l : Link) (k : LinkKind) (v : KindRecord) : Link := { l with kinds := l.kinds.set k.index v }

/-- The score of a rate kind. -/
def Link.score (l : Link) (r : RateKind) : Nat := l.scores[r.index]

/-- The score of a rate kind replaced. -/
def Link.setScore (l : Link) (r : RateKind) (v : Nat) : Link := { l with scores := l.scores.set r.index v }

/-- A kind counted once more (R118). -/
def KindRecord.count (v : KindRecord) : KindRecord :=
  let c := countUp v.counter v.overflow
  { v with counter := c.1, overflow := c.2 }

/-- The score that a notice of a kind carries: 0 for a condition kind (R130). -/
def Link.noticeScore (l : Link) (k : LinkKind) : Nat :=
  match k.rate? with
  | some r => l.score r
  | none => 0

/-- The fault settings of a rate kind in a profile (R23). -/
def Profile.rate (p : Profile) (r : RateKind) : RateSettings := p.rates[r.index]

/-- The action a profile names for a kind; STORE_CORRUPT's is QUARANTINE in every profile (R23, R117). -/
def Profile.actionOf (p : Profile) : LinkKind → Action
  | .tagFail => (p.rate .tagFail).action
  | .replay => (p.rate .replay).action
  | .unknownGen => (p.rate .unknownGen).action
  | .exchangeFault => (p.rate .exchangeFault).action
  | .keySpent => p.keySpentAction
  | .renewalFailed => p.renewalFailedAction
  | .linkSilent => p.linkSilentAction
  | .shopAlert => p.shopAlertAction
  | .storeCorrupt => .quarantine

/-! ## Edges (R120, R130) -/

/-- The notice of an edge of a link kind, with the counter and score as they stand (R130). -/
def linkNotice (k : Slot) (kind : LinkKind) (edge : Edge) (s : State) : State :=
  let l := s.link k
  makeNotice ⟨some k, .link kind, edge, (l.kind kind).counter, l.noticeScore kind, false⟩ s

/-- The record with a kind not active (R120). -/
def clearedRecord (kind : LinkKind) (l : Link) : Link := l.setKind kind { l.kind kind with active := false }

/-- The record with a kind active and, for a condition kind, counted once more (R118, R120). -/
def raisedRecord (kind : LinkKind) (l : Link) : Link :=
  l.setKind kind
    (if kind.rate?.isSome then { l.kind kind with active := true } else { l.kind kind with active := true }.count)

/-- A kind cleared: it ceases to be active, and a notice is made (R120). -/
def clearKind (k : Slot) (kind : LinkKind) (s : State) : State :=
  linkNotice k kind .cleared (s.modLink k (clearedRecord kind))

/-- A kind cleared when it is active. -/
def clearIfActive (k : Slot) (kind : LinkKind) (s : State) : State :=
  if ((s.link k).kind kind).active then clearKind k kind s else s

/-! ## Quarantine (R14, R103, R123, R141) -/

/-- The record as a quarantine leaves it, its range that of the Branch Map and its code computed afresh (R14, R136,
R141). -/
def quarantinedRecord (m : List Triple) (k : Slot) (l : Link) : Link :=
  Link.recodeFresh
    { l with
      state := .quarantined
      first := (mapRange m k l).1
      last := (mapRange m k l).2
      rootKey := 0
      rootSequence := 0
      rootWindow := .empty
      current := .empty
      nextSequence := 0
      retiring := .empty
      retireTimer := 0
      renewal := .idle
      restTimer := 0 }

/-- A quarantine. It changes nothing on a link that is already QUARANTINED, nor on a VACANT slot (R14). KEY_SPENT is
cleared, with its notice, before the queued offer is removed (R123, R178). An admission and an origination are tried
at the end (R103, R140, R178; log entry 16). -/
def quarantineLink (k : Slot) (s : State) : State :=
  if (s.link k).state = .quarantined ∨ (s.link k).state = .vacant then s
  else
    let s := s.modLink k (quarantinedRecord s.branchMap k)
    let s := clearIfActive k .keySpent s
    let s := freeRecordOf k s
    let s := removeDue k s
    let s := removeOffers k s
    tryOriginate (tryAdmit s)

/-! ## Raises and their actions (R120 to R123) -/

/-- The record with its supervisor hold mark set (R121). -/
def supervisedRecord (l : Link) : Link := { l with supervisorHold := true }

/-- The action of a raise, taken on a link (R121 to R123). -/
def takeAction (k : Slot) (a : Action) (s : State) : State :=
  match a with
  | .note => s
  | .hold => s.modLink k supervisedRecord
  | .renew =>
    if (s.link k).state = .quarantined ∨ (s.link k).state = .vacant then s else (forcedJoin k .urgent s).2
  | .quarantine => quarantineLink k s

/-- A kind raised: it becomes active and, for a condition kind, is counted; a notice is made; FAULT_RAISED is set;
and the action the link's profile names is taken (R120). -/
def raiseKind (k : Slot) (kind : LinkKind) (s : State) : State :=
  let s := linkNotice k kind .raised (s.modLink k (raisedRecord kind))
  let s := s.setCause .faultRaised
  takeAction k ((s.profileOf k).actionOf kind) s

/-- A kind raised when it is not active. -/
def raiseIfInactive (k : Slot) (kind : LinkKind) (s : State) : State :=
  if ((s.link k).kind kind).active then s else raiseKind k kind s

/-! ## Rate kinds (R25, R110, R111) -/

/-- The record with a rate kind's weight added to its score, and the kind counted once more (R110). -/
def scoredRecord (r : RateKind) (w : Nat) (l : Link) : Link :=
  (l.setScore r (min countMax (l.score r + w))).setKind r.kind (l.kind r.kind).count

/-- The record with a rate kind's decay taken from its score (R111). -/
def decayedRecord (r : RateKind) (d : Nat) (l : Link) : Link := l.setScore r (l.score r - d)

/-- A scoring event: weight and counter, and the raise that the new score makes (R110). -/
def scoreKind (k : Slot) (r : RateKind) (s : State) : State :=
  let s := s.modLink k (scoredRecord r ((s.profileOf k).rate r).weight)
  let l := s.link k
  if (l.kind r.kind).active = false ∧ ((s.profileOf k).rate r).raiseLevel ≤ l.score r then raiseKind k r.kind s else s

/-- The decay of one rate kind at a mark, and the clear that the new score makes (R111). -/
def decayKind (k : Slot) (s : State) (r : RateKind) : State :=
  let s := s.modLink k (decayedRecord r ((s.profileOf k).rate r).decay)
  let l := s.link k
  if (l.kind r.kind).active = true ∧ l.score r ≤ ((s.profileOf k).rate r).clearLevel then clearKind k r.kind s else s

/-- The decay of the four rate kinds, each edge handled before the next kind (R111). -/
def decayKinds (k : Slot) (s : State) : State := rateKinds.foldl (decayKind k) s

/-- The re-examination of one rate kind against the levels now in force (R25). -/
def reexamineKind (k : Slot) (s : State) (r : RateKind) : State :=
  let l := s.link k
  let p := (s.profileOf k).rate r
  if (l.kind r.kind).active = false ∧ p.raiseLevel ≤ l.score r then raiseKind k r.kind s
  else if (l.kind r.kind).active = true ∧ l.score r ≤ p.clearLevel then clearKind k r.kind s
  else s

/-- The re-examination of a link's four rate kinds (R25). -/
def reexamine (k : Slot) (s : State) : State := rateKinds.foldl (reexamineKind k) s

/-! ## Silence (R114) -/

/-- The record with another silence count. -/
def Link.withSilence (n : Nat) (l : Link) : Link := { l with silence := n }

/-- The silence step of a mark on a STANDBY, LIVE or STALLED link (R114). -/
def countSilence (k : Slot) (s : State) : State :=
  match (s.link k).state with
  | .vacant => s
  | .quarantined => s
  | _ =>
    let s := s.modLink k (Link.withSilence (min countMax ((s.link k).silence + 1)))
    let limit := (s.profileOf k).silenceLimit
    if limit ≠ 0 ∧ limit ≤ (s.link k).silence then raiseIfInactive k .linkSilent s else s

/-- An accepted packet ends a silence: the count becomes 0, and LINK_SILENT clears if it is active (R52, R114). -/
def endSilence (k : Slot) (s : State) : State :=
  clearIfActive k .linkSilent (s.modLink k (Link.withSilence 0))

/-! ## Spending and erasing key slots (R12, R13, R53, R64, R75) -/

/-- The record with its CURRENT key spent: the slot keeps its generation, U, age, B, A and next sequence (R12). -/
def spentRecord (l : Link) : Link :=
  Link.recodeBy l
    { l with
      state := .stalled
      current := { l.current with state := .spent, key := 0, salt := 0, window := .empty } }

/-- The CURRENT key of a link spent, and KEY_SPENT raised (R12, R112). -/
def spendCurrent (k : Slot) (s : State) : State := raiseIfInactive k .keySpent (s.modLink k spentRecord)

/-- The record with its RETIRING slot erased (R13). -/
def erasedRecord (l : Link) : Link := Link.recodeBy l { l with retiring := .empty, retireTimer := 0 }

/-- The RETIRING slot erased, when it is IN_USE (R13). -/
def eraseRetiring (k : Slot) (s : State) : State :=
  if (s.link k).retiring.state = .inUse then s.modLink k erasedRecord else s

/-- The spent check of the CURRENT slot by budget and age (R53, R75). -/
def checkCurrent (k : Slot) (s : State) : State :=
  let l := s.link k
  if l.current.state = .inUse ∧ limitReached l.current then spendCurrent k s else s

/-- The spent check of the RETIRING slot (R53, R75). -/
def checkRetiring (k : Slot) (s : State) : State :=
  let l := s.link k
  if l.retiring.state = .inUse ∧ limitReached l.retiring then eraseRetiring k s else s

/-- Whether an OUTBOUND use has spent the CURRENT key: by budget, age or the exhaustion of its sequences (R43,
R75). -/
def outboundSpends (l : Link) : Bool := l.current.state = .inUse && (limitReached l.current || l.nextSequence = 0)

/-! ## The shop code list (R115, R116) -/

/-- One report entry taken into a shop code list (R115). -/
def takeShopCode (codes : List ShopCode) (e : ShopCode) : List ShopCode :=
  match codes.find? fun c => c.code = e.code with
  | some c => ⟨c.code, min countMax (c.sum + e.sum)⟩ :: codes.filter fun c => c.code ≠ e.code
  | none => e :: codes.take 7

/-- The record with a report's entries taken into its shop code list (R115). -/
def reportedRecord (entries : List ShopCode) (l : Link) : Link :=
  { l with shopCodes := entries.foldl takeShopCode l.shopCodes }

/-- Said of an alert code (R116). -/
def isAlertCode (e : ShopCode) : Bool := 0x8000 ≤ e.code

/-- A report's entries taken in body order, and SHOP_ALERT raised or cleared by the entries of this report (R115,
R116). -/
def takeReport (k : Slot) (entries : List ShopCode) (s : State) : State :=
  let s := s.modLink k (reportedRecord entries)
  if entries.any isAlertCode then raiseIfInactive k .shopAlert s else clearIfActive k .shopAlert s

end Sys2Proof.Machine
end

