-- ==== Sys2Proof/Machine/Exchange.lean ====
section
/-! DEFINITION. The exchange at a renewal record: installation, the end of an attempt, failure, replies and delivery (R11, R90, R92 to R100). -/

namespace Sys2Proof.Machine

/-! ## Installation (R11, R96) -/

/-- The RETIRING slot after an installation: the old CURRENT key when it was IN_USE, and EMPTY otherwise (R11, steps
1 and 2). -/
def retiredSlot (l : Link) : KeySlot := if l.current.state = .inUse then l.current else .empty

/-- The new CURRENT slot of an installation (R11, step 3). -/
def installedSlot (p : Profile) (r : RenewalRecord) : KeySlot where
  state := .inUse
  generation := r.generation
  key := r.key
  salt := r.salt
  use := 0
  age := 0
  budget := p.budget
  ageLimit := p.ageLimit
  window := .empty

/-- The record as an installation leaves it, its code computed by difference (R11). -/
def installedRecord (p : Profile) (r : RenewalRecord) (l : Link) : Link :=
  Link.recodeBy l
    { l with
      state := .live
      current := installedSlot p r
      nextSequence := 1
      retiring := retiredSlot l
      retireTimer := if l.current.state = .inUse then p.retireTime else 0
      renewal := .idle
      restTimer := 0 }

/-- The key of renewal record `n` installed on its link (R96). -/
def install (n : RecordNumber) (s : State) : State :=
  let r := s.records[n]
  let k := r.slot
  let s := s.modLink k (installedRecord (s.profileOf k) r)
  let s := freeRecordAt n s
  let s := clearIfActive k .renewalFailed s
  let s := clearIfActive k .keySpent s
  let s := dueCheck k .joinsOnly s
  tryAdmit s

/-! ## The end of an attempt (R93, R94, R100) -/

/-- The failure of a renewal (R100). -/
def failRenewal (n : RecordNumber) (s : State) : State :=
  let k := s.records[n].slot
  let s := freeRecordAt n s
  let s := s.modLink k (Link.withRenewal .rest (s.profileOf k).restTime)
  let s := raiseIfInactive k .renewalFailed s
  tryAdmit s

/-- A retry: a new nonce, or the failure of the renewal when its draw fails (R94). -/
def retry (n : RecordNumber) (s : State) : State :=
  match draw s with
  | (none, s) => failRenewal n s
  | (some nonce, s) =>
    let r := s.records[n]
    tryOriginate (joinSendOrder n (s.setRecord n
      { r with nonce := nonce, attempt := r.attempt + 1, state := .waitingSend, replyTimer := 0, offerQueued := false }))

/-- The end of an attempt: a retry or a failure (R93). -/
def endAttempt (n : RecordNumber) (s : State) : State :=
  let r := s.records[n]
  if r.attempt < (s.profileOf r.slot).attempts ∧ s.device.randomFault = false then retry n s else failRenewal n s

/-- The expiry of a reply timer (R92, R93). -/
def expireReply (n : RecordNumber) (s : State) : State :=
  endAttempt n (s.setRecord n { s.records[n] with replyTimer := 0 })

/-- A period mark at a renewal record (R92). -/
def markRecord (n : RecordNumber) (s : State) : State :=
  let r := s.records[n]
  if r.state = .waitingReply then
    if r.replyTimer ≤ 1 then expireReply n s else s.setRecord n { r with replyTimer := r.replyTimer - 1 }
  else s

/-! ## Replies (R95, R98, R99) -/

/-- A TURN_ACCEPT or TURN_REFUSE matches the record's state, generation and nonce (R95 tests 2 to 4, R98). -/
def replyMatches (r : RenewalRecord) (generation : Nat) (nonce : AttemptNonce) : Bool :=
  r.state = .waitingReply && r.generation = generation && r.nonce = nonce

/-- A TURN_ACCEPT: whether it is taken, and the state after it (R95, R96). -/
def takeAccept (k : Slot) (generation : Nat) (nonce : AttemptNonce) (proof : Proof) (s : State) : Bool × State :=
  match s.recordOf k with
  | none => (false, s)
  | some n =>
    let r := s.records[n]
    if replyMatches r generation nonce
        ∧ Config.cipher.proof r.key r.nonce (BitVec.ofNat 8 r.generation) = proof then (true, install n s)
    else (false, s)

/-- A TURN_REFUSE: whether it is taken, and the state after it (R98). -/
def takeRefuse (k : Slot) (generation : Nat) (nonce : AttemptNonce) (reason : Refuse) (s : State) : Bool × State :=
  match s.recordOf k with
  | none => (false, s)
  | some n =>
    let r := s.records[n]
    if replyMatches r generation nonce then (true, endAttempt n (s.setRecord n { r with lastRefusal := reason }))
    else (false, s)

/-! ## Delivery (R90) -/

/-- An item reported delivered: the record of an offer enters WAITING_REPLY with its reply timer set (R90). -/
def deliverItem (it : Item) (s : State) : State :=
  match it with
  | .notice _ => s
  | .offer k _ =>
    match s.recordOf k with
    | none => s
    | some n =>
      s.setRecord n
        { s.records[n] with state := .waitingReply, offerQueued := false, replyTimer := (s.profileOf k).replyWait }

end Sys2Proof.Machine
end

