-- ==== Sys2Proof/WellFormed.lean ====
section
/-! DEFINITION. Which terms of Instr stand for a command that can occur: the operands that a command's own name or its entry's fields fix agree with them. -/

namespace Sys2Proof

/-- The kinds that name a request are 1 to 12 (formats chapter, 11.9). -/
def kindNamesRequest (kind : Byte) : Bool := 1 ≤ kind.toNat && kind.toNat ≤ 12

/-- The longest line packet: header, 1,536 bytes of body and tag (11.2). -/
def maxPacket : Nat := 1564

/-- The settings block has 64 bytes (R207), a parameter block that is read has 64 bytes (R183), a packet or plaintext has
the bytes its input length names as far as the device ever reads, and a BAD_REQUEST has a kind that names no request
(R153). -/
def Instr.wellFormed : Instr → Bool
  | .startUp block _ => block.length == 64
  | .outbound entry input _ => input.length == min entry.inputLength.toNat maxPacket
  | .inbound entry input _ => input.length == min entry.inputLength.toNat maxPacket
  | .enrol entry input _ => entry.inputLength.toNat != 64 || input.length == 64
  | .setLink entry input _ => entry.inputLength.toNat != 64 || input.length == 64
  | .setProfile entry input _ => entry.inputLength.toNat != 64 || input.length == 64
  | .badRequest kind _ _ => !kindNamesRequest kind
  | .powerOnReset => true
  | .resetnFall => true
  | .pinReset => true
  | .quiesceAssert _ => true
  | .quiesceRelease _ => true
  | .handover _ _ _ => true
  | .workBaseWrite _ _ => true
  | .runSet _ => true
  | .runClear => true
  | .abandon _ => true
  | .restart _ => true
  | .noticeEnableMaskWrite _ => true
  | .noticeClear _ => true
  | .ignoredRegisterWrite _ _ => true
  | .serviceStart _ => true
  | .retire _ _ => true
  | .hold _ _ => true
  | .release _ _ => true
  | .renewNow _ _ => true
  | .readLink _ _ => true
  | .readFaults _ _ => true
  | .readDevice _ _ => true
  | .batchClose _ => true
  | .scrubStep _ => true
  | .periodMark => true
  | .periodMarkAtLink _ _ => true
  | .ageLimitReached _ _ _ => true
  | .retireTimerExpiry _ _ => true
  | .restEnd _ _ => true
  | .periodMarkAtRenewalRecord _ _ => true
  | .replyTimerExpiry _ _ => true
  | .admission _ => true
  | .origination _ => true

end Sys2Proof
end

