-- ==== Sys2Proof/Machine/Operands.lean ====
section
/-! DEFINITION. What entries and buffers hold: slot numbers, entry flags, parameter blocks with the clamps of SET_PROFILE, control bodies and the settings block (R4, R22, R23, R55, R207, R208, 11.2, 11.3, 11.7). -/

namespace Sys2Proof.Machine

/-! ## The entry's fields -/

/-- The link slot that a slot number names; none for 512 and above (R4). -/
def slotOf (field : BitVec 16) : Option Slot := if h : field.toNat < 512 then some ⟨field.toNat, h⟩ else none

/-- The all-links number (R4). -/
def allLinks : BitVec 16 := 1023

/-- Bit 0 of the flags: the hold, invalidate or clear option, or the host mark of a RELEASE (11.3). -/
def entryFlag0 (e : WorkEntry) : Bool := e.flags.getLsbD 0

/-- Bit 1 of the flags: the supervisor mark of a RELEASE (11.3). -/
def entryFlag1 (e : WorkEntry) : Bool := e.flags.getLsbD 1

/-! ## The 64 bytes of an entry (11.3, R211) -/

/-- The kind of an entry, byte 0. -/
def entryKind (bs : List Byte) : Byte := bs.getD 0 0

/-- The host-written fields of an entry, each least-significant byte first; the bytes between them are not examined
(R211, R212). -/
def parseEntry (bs : List Byte) : WorkEntry where
  flags := bs.getD 1 0
  slotField := BitVec.ofNat 16 (ofLe (bytesAt bs 2 2))
  inputAddress := BitVec.ofNat 64 (ofLe (bytesAt bs 8 8))
  inputLength := BitVec.ofNat 32 (ofLe (bytesAt bs 16 4))
  outputRoom := BitVec.ofNat 32 (ofLe (bytesAt bs 20 4))
  outputAddress := BitVec.ofNat 64 (ofLe (bytesAt bs 24 8))

/-- The command that the 64 bytes of an entry are, by their kind (R153, 11.9). -/
def entryCommand (bs input : List Byte) (env : Env) : Instr :=
  let e := parseEntry bs
  match (entryKind bs).toNat with
  | 1 => .outbound e input env
  | 2 => .inbound e input env
  | 3 => .enrol e input env
  | 4 => .retire e env
  | 5 => .setLink e input env
  | 6 => .setProfile e input env
  | 7 => .hold e env
  | 8 => .release e env
  | 9 => .renewNow e env
  | 10 => .readLink e env
  | 11 => .readFaults e env
  | 12 => .readDevice e env
  | _ => .badRequest (entryKind bs) e env

/-! ## Parameter blocks (11.3) -/

/-- The size of a parameter block (R183). -/
def blockSize : Nat := 64

/-- What an ENROL or SET_LINK block holds; the wrapped root key is ENROL's alone. -/
structure LinkBlock where
  first : Nat
  last : Nat
  profile : Nat
  wrappedKey : Wrapped
  deriving DecidableEq, Repr

/-- The fields of an ENROL or SET_LINK block. -/
def parseLinkBlock (bs : List Byte) : LinkBlock where
  first := ofLe (bytesAt bs 0 2)
  last := ofLe (bytesAt bs 2 2)
  profile := ofLe (bytesAt bs 4 1)
  wrappedKey := BitVec.ofNat 384 (ofLe (bytesAt bs 16 48))

/-- A stored profile number; none for 16 and above (R21). -/
def profileNumberOf (n : Nat) : Option ProfileNumber := if h : n < 16 then some ⟨n, h⟩ else none

/-- A range whose first is above its last, or whose last is 65,535 (R28). -/
def badRange (first last : Nat) : Bool := last < first || last = 65535

/-- A value brought to the nearer end of its range (R22). -/
def clamp (low high v : Nat) : Nat := max low (min high v)

/-- The raise level written: 0 becomes 1 (R23). -/
def clampRaise (v : Nat) : Nat := max 1 v

/-- The clear level written: one at or above the raise level becomes the raise level less 1 (R23). -/
def clampClear (raiseLevel v : Nat) : Nat := if raiseLevel ≤ v then raiseLevel - 1 else v

/-- The number of an action byte after clamping: a value outside the four actions becomes NOTE, 0 (R23). -/
def clampAction (v : Nat) : Nat := if v ≤ 3 then v else 0

/-- The raw fields of one rate kind in a SET_PROFILE block. -/
def rawRate (bs : List Byte) (i : Nat) : List Nat :=
  let o := 26 + 7 * i
  [ofLe (bytesAt bs o 1), ofLe (bytesAt bs (o + 1) 1), ofLe (bytesAt bs (o + 2) 2), ofLe (bytesAt bs (o + 4) 2),
    ofLe (bytesAt bs (o + 6) 1)]

/-- The fields of one rate kind as they are written (R23). -/
def clampedRate (bs : List Byte) (i : Nat) : List Nat :=
  let o := 26 + 7 * i
  let level := clampRaise (ofLe (bytesAt bs (o + 2) 2))
  [max 1 (ofLe (bytesAt bs o 1)), ofLe (bytesAt bs (o + 1) 1), level,
    clampClear level (ofLe (bytesAt bs (o + 4) 2)), clampAction (ofLe (bytesAt bs (o + 6) 1))]

/-- The raw fields of a SET_PROFILE block after its profile number, in the block's order (11.3). -/
def rawProfile (bs : List Byte) : List Nat :=
  [ofLe (bytesAt bs 1 4), ofLe (bytesAt bs 5 4), ofLe (bytesAt bs 9 4), ofLe (bytesAt bs 13 2), ofLe (bytesAt bs 15 1),
    ofLe (bytesAt bs 16 4), ofLe (bytesAt bs 20 2), ofLe (bytesAt bs 22 4)]
    ++ rawRate bs 0 ++ rawRate bs 1 ++ rawRate bs 2 ++ rawRate bs 3
    ++ [ofLe (bytesAt bs 54 1), ofLe (bytesAt bs 55 1), ofLe (bytesAt bs 56 1), ofLe (bytesAt bs 57 1)]

/-- The same fields as they are written (R22, R23). -/
def clampedProfile (bs : List Byte) : List Nat :=
  [clamp 1024 4294967295 (ofLe (bytesAt bs 1 4)), clamp 16 16777215 (ofLe (bytesAt bs 5 4)),
    clamp 1 65535 (ofLe (bytesAt bs 9 4)), clamp 1 255 (ofLe (bytesAt bs 13 2)), clamp 1 15 (ofLe (bytesAt bs 15 1)),
    clamp 1 65535 (ofLe (bytesAt bs 16 4)), clamp 1 255 (ofLe (bytesAt bs 20 2)), clamp 0 65535 (ofLe (bytesAt bs 22 4))]
    ++ clampedRate bs 0 ++ clampedRate bs 1 ++ clampedRate bs 2 ++ clampedRate bs 3
    ++ [clampAction (ofLe (bytesAt bs 54 1)), clampAction (ofLe (bytesAt bs 55 1)), clampAction (ofLe (bytesAt bs 56 1)),
      clampAction (ofLe (bytesAt bs 57 1))]

/-- The action of a clamped number. -/
def actionOfNumber (v : Nat) : Action := Action.ofByte (BitVec.ofNat 8 v)

/-- One rate kind's settings from its written fields. -/
def rateOfFields (f : List Nat) : RateSettings where
  weight := f.getD 0 0
  decay := f.getD 1 0
  raiseLevel := f.getD 2 0
  clearLevel := f.getD 3 0
  action := actionOfNumber (f.getD 4 0)

/-- The valid profile that a SET_PROFILE block writes (R22, R23, R191). -/
def parseProfile (bs : List Byte) : Profile :=
  let f := clampedProfile bs
  { valid := true
    budget := f.getD 0 0
    ageLimit := f.getD 1 0
    lead := f.getD 2 0
    replyWait := f.getD 3 0
    attempts := f.getD 4 0
    restTime := f.getD 5 0
    retireTime := f.getD 6 0
    silenceLimit := f.getD 7 0
    rates := #v[rateOfFields (clampedRate bs 0), rateOfFields (clampedRate bs 1), rateOfFields (clampedRate bs 2),
      rateOfFields (clampedRate bs 3)]
    keySpentAction := actionOfNumber (f.getD 28 0)
    renewalFailedAction := actionOfNumber (f.getD 29 0)
    linkSilentAction := actionOfNumber (f.getD 30 0)
    shopAlertAction := actionOfNumber (f.getD 31 0) }

/-- Said of a SET_PROFILE block in which clamping changes a field (R191). -/
def profileClamps (bs : List Byte) : Bool := rawProfile bs ≠ clampedProfile bs

/-! ## Control bodies (R55, 11.2) -/

/-- What a control body holds. -/
inductive ControlBody where
  | accept (generation : Nat) (nonce : AttemptNonce) (proof : Proof)
  | refuse (generation : Nat) (nonce : AttemptNonce) (reason : Refuse)
  | report (entries : List ShopCode)
  | invalid (detail : Detail)
  deriving DecidableEq, Repr

/-- The reason of a TURN_REFUSE (11.2). -/
def reasonOf (b : Byte) : Option Refuse :=
  if b = 1 then some .busy else if b = 2 then some .noRoom else if b = 3 then some .badWrap else none

/-- The nonce that a body carries from byte 2. -/
def bodyNonce (bs : List Byte) : AttemptNonce := BitVec.ofNat 64 (ofLe (bytesAt bs 2 8))

/-- The entries of a SHOP_REPORT of `n` entries (11.2). -/
def reportEntries (bs : List Byte) (n : Nat) : List ShopCode :=
  (List.range n).map fun i => ⟨ofBe (bytesAt bs (2 + 4 * i) 2), ofBe (bytesAt bs (4 + 4 * i) 2)⟩

/-- A control body read and checked (R55). -/
def parseControl (bs : List Byte) : ControlBody :=
  let code := bs.getD 0 0
  if bs.length = 0 then .invalid .controlCode
  else if code = 2 then
    if bs.length = 26 then
      .accept (bs.getD 1 0).toNat (bodyNonce bs) (BitVec.ofNat 128 (ofLe (bytesAt bs 10 16)))
    else .invalid .controlLength
  else if code = 3 then
    if bs.length = 11 then
      match reasonOf (bs.getD 10 0) with
      | some reason => .refuse (bs.getD 1 0).toNat (bodyNonce bs) reason
      | none => .invalid .controlField
    else .invalid .controlLength
  else if code = 4 then
    let n := (bs.getD 1 0).toNat
    if 1 ≤ n ∧ n ≤ 16 ∧ bs.length = 2 + 4 * n then
      if (reportEntries bs n).any fun e => e.code = 0 then .invalid .controlField
      else .report (reportEntries bs n)
    else .invalid .controlLength
  else .invalid .controlCode

/-! ## The settings block (R207, R208, 11.7) -/

/-- The stored check code of a settings block. -/
def settingsCode (bs : List Byte) : BitVec 32 := BitVec.ofNat 32 (ofLe (bytesAt bs 60 4))

/-- A settings block judged good: its stored check code equals the check of its other 60 bytes and is neither
0x00000000 nor 0xFFFFFFFF (R207). -/
def settingsGood (bs : List Byte) : Bool :=
  settingsCode bs ≠ 0 && settingsCode bs ≠ 0xFFFFFFFF && settingsCode bs = crc32 (bytesAt bs 0 60)

/-- The settings that a good block gives (R61, R174, R208). -/
def settingsOf (bs : List Byte) : Settings where
  period := clamp 100 60000 (ofLe (bytesAt bs 0 4))
  tailRoom := min 32 (bs.getD 4 0).toNat
  drive := if bs.getD 5 0 = 1 then .pushPull else .openDrain
  polarity := if bs.getD 6 0 = 1 then .activeHigh else .activeLow
  source := .block

end Sys2Proof.Machine
end

