-- ==== Sys2Proof/Machine/Traffic.lean ====
section
/-! DEFINITION. OUTBOUND and INBOUND entries: their checks, key selection, charge, and aftermath (R39 to R58). -/

namespace Sys2Proof.Machine

/-! ## Results (R58, R153, R154, R182) -/

/-- The slot number that a result carries for no link (R58). -/
def noSlot : Nat := 0xFFFF

/-- The result fields of an entry (R154). -/
structure EntryResult where
  status : Status
  detail : Detail
  outputLength : Nat
  slot : Nat
  generation : Nat
  sequence : Nat
  deriving DecidableEq, Repr

/-- A result without output, slot, generation or sequence. -/
def EntryResult.bare (status : Status) (detail : Detail) : EntryResult := ⟨status, detail, 0, noSlot, 0, 0⟩

/-! ## OUTBOUND (R39 to R44) -/

/-- The largest body (R32). -/
def maxBody : Nat := 1536

/-- The header of an outbound packet (R42). -/
def outboundHeader (l : Link) (branch : BitVec 16) (len : Nat) : Header where
  format := 1
  class_ := classData
  generation := BitVec.ofNat 8 l.current.generation
  flags := 0
  branch := branch
  bodyLength := BitVec.ofNat 16 len
  sequence := BitVec.ofNat 32 l.nextSequence

/-- The refusal that a link's effective hold gives; none when it is not held (R18). -/
def holdRefusal (l : Link) (quiesce : Bool) : Option (Status × Detail) :=
  match l.hostHold, l.supervisorHold, quiesce with
  | true, false, _ => some (.held, .host)
  | false, true, _ => some (.held, .supervisor)
  | true, true, _ => some (.held, .both)
  | false, false, true => some (.quiesced, .none)
  | false, false, false => none

/-- The record with its next outbound sequence taken (R41). -/
def sequencedRecord (l : Link) : Link := { l with nextSequence := nextSequence l.nextSequence }

/-- The use of the CURRENT key by an OUTBOUND entry whose plaintext has been read (R41 to R44). -/
def outboundUse (k : Slot) (e : WorkEntry) (body : List Byte) (s : State) : EntryResult × State :=
  let len := body.length
  let l := s.link k
  let packet := sealPacket l.current.key l.current.salt (outboundHeader l e.slotField len) body
  let s := s.modLink k sequencedRecord
  let (written, s) := hostWrite .output e.outputAddress packet s
  let s := s.modLink k fun l => l.chargeCurrent (cost len)
  let spends := outboundSpends (s.link k)
  let s := if spends then spendCurrent k s else s
  let s := dueCheck k .testsUrgency s
  if written then
    (⟨.ok, if spends then .lastUse else .none, 28 + len, k.val, l.current.generation, l.nextSequence⟩, s)
  else (⟨.busFault, .write, 0, k.val, l.current.generation, l.nextSequence⟩, s)

/-- An OUTBOUND entry (R39 to R44). `input` is what the plaintext buffer holds. -/
def serveOutbound (e : WorkEntry) (input : List Byte) (s : State) : EntryResult × State :=
  let len := e.inputLength.toNat
  if len > maxBody then (.bare .oversize .none, s)
  else if e.outputRoom.toNat < len + 28 then (.bare .noRoom .none, s)
  else
    match lookupBranch s.branchMap e.slotField.toNat with
    | none => (.bare .unknownBranch .none, s)
    | some k =>
      let refuse (status : Status) (detail : Detail) : EntryResult := { EntryResult.bare status detail with slot := k.val }
      match (s.link k).state with
      | .quarantined => (refuse .quarantined .none, s)
      | .vacant => (refuse .noKey .none, s)
      | .standby => (refuse .noKey .none, s)
      | .stalled => (refuse .keySpent .none, s)
      | .live =>
        match holdRefusal (s.link k) s.quiesce with
        | some (status, detail) => (refuse status detail, s)
        | none =>
          let (read, s) := if len = 0 then (true, s) else hostRead s
          if read then outboundUse k e (bytesAt input 0 len) s else (refuse .busFault .read, s)

/-! ## INBOUND (R45 to R57) -/

/-- The first header check that fails (R45). -/
def headerRefusal (h : Header) (inputLength outputRoom : Nat) : Option (Status × Detail) :=
  let len := h.bodyLength.toNat
  if h.format ≠ 1 then some (.malformed, .format)
  else if h.class_ ≠ classData ∧ h.class_ ≠ classControl then some (.malformed, .class_)
  else if inputLength ≠ 28 + len then some (.malformed, .length)
  else if h.flags ≠ 1 then some (.malformed, .flags)
  else if len > maxBody then some (.oversize, .none)
  else if h.sequence = 0 then some (.malformed, .sequence)
  else if outputRoom < len then some (.noRoom, .none)
  else none

/-- The key a packet is deciphered under (R48). -/
inductive KeyChoice where
  | root
  | current
  | retiring
  deriving DecidableEq, Repr

/-- The detail that names a key. -/
def KeyChoice.detail : KeyChoice → Detail
  | .root => .rootChannel
  | .current => .currentKey
  | .retiring => .retiringKey

/-- What key selection finds (R48). -/
inductive Selection where
  | key (choice : KeyChoice)
  | keySpent
  | unknownGen
  deriving DecidableEq, Repr

/-- Key selection by the header's generation, the cases in the order of R48. -/
def selectKey (l : Link) (generation : Nat) : Selection :=
  if generation = 0 then .key .root
  else if generation = l.current.generation ∧ l.current.state = .inUse then .key .current
  else if generation = l.current.generation ∧ l.current.state = .spent then .keySpent
  else if generation = l.retiring.generation ∧ l.retiring.state = .inUse then .key .retiring
  else .unknownGen

/-- The key and salt of a choice; the root channel's salt is eight zero bytes (R31, R50). -/
def Link.keyOf (l : Link) : KeyChoice → Key × Salt
  | .root => (l.rootKey, 0)
  | .current => (l.current.key, l.current.salt)
  | .retiring => (l.retiring.key, l.retiring.salt)

/-- The window of a choice. -/
def Link.windowOf (l : Link) : KeyChoice → Window
  | .root => l.rootWindow
  | .current => l.current.window
  | .retiring => l.retiring.window

/-- The window of a choice replaced. -/
def Link.setWindow (l : Link) (w : Window) : KeyChoice → Link
  | .root => { l with rootWindow := w }
  | .current => { l with current := { l.current with window := w } }
  | .retiring => { l with retiring := { l.retiring with window := w } }

/-- The charge of a use; the root channel is charged nothing (R36, R50). -/
def Link.charge (l : Link) (c : Nat) : KeyChoice → Link
  | .root => l
  | .current => l.chargeCurrent c
  | .retiring => l.chargeRetiring c

/-- The spent check of the slot charged, and the due check when it is CURRENT (R51, R52 step 4, R53). -/
def afterCharge (k : Slot) (choice : KeyChoice) (s : State) : State :=
  match choice with
  | .root => s
  | .current => dueCheck k .testsUrgency (checkCurrent k s)
  | .retiring => checkRetiring k s

/-- Steps 1 to 4 of a tag pass (R52). -/
def tagPassed (k : Slot) (choice : KeyChoice) (sequence : Nat) (s : State) : State :=
  let s := s.modLink k fun l => l.setWindow (windowAdvance (l.windowOf choice) sequence) choice
  let s := endSilence k s
  let s := if choice = .current then eraseRetiring k s else s
  afterCharge k choice s

/-- The result of an INBOUND entry whose header has been read (R58). -/
def inboundResult (h : Header) (slot : Nat) (status : Status) (detail : Detail) : EntryResult :=
  ⟨status, detail, 0, slot, h.generation.toNat, h.sequence.toNat⟩

/-- A plaintext or report body written to the output buffer; an error leaves every state change standing (R54, R56,
R57). A body of length 0 writes nothing (R54). -/
def writeOutput (e : WorkEntry) (body : List Byte) (s : State) : Bool × State :=
  if body.length = 0 then (true, s) else hostWrite .output e.outputAddress body s

/-- A DATA plaintext delivered (R54, R57). -/
def deliverData (k : Slot) (e : WorkEntry) (h : Header) (choice : KeyChoice) (body : List Byte) (s : State) :
    EntryResult × State :=
  let (written, s) := writeOutput e body s
  if written then ({ inboundResult h k.val .delivered choice.detail with outputLength := body.length }, s)
  else (inboundResult h k.val .busFault .write, s)

/-- A control body handed to its consumer (R55, R56, R99). -/
def consumeControl (k : Slot) (e : WorkEntry) (h : Header) (body : List Byte) (s : State) : EntryResult × State :=
  match parseControl body with
  | .invalid detail => (inboundResult h k.val .malformed detail, scoreKind k .exchangeFault s)
  | .accept generation nonce proof =>
    match takeAccept k generation nonce proof s with
    | (true, s) => (inboundResult h k.val .consumed .acceptTaken, s)
    | (false, s) => (inboundResult h k.val .consumed .stale, scoreKind k .exchangeFault s)
  | .refuse generation nonce reason =>
    match takeRefuse k generation nonce reason s with
    | (true, s) => (inboundResult h k.val .consumed .refuseTaken, s)
    | (false, s) => (inboundResult h k.val .consumed .stale, scoreKind k .exchangeFault s)
  | .report entries =>
    let s := takeReport k entries s
    let (written, s) := writeOutput e body s
    if written then ({ inboundResult h k.val .reportDelivered .none with outputLength := body.length }, s)
    else (inboundResult h k.val .busFault .write, s)

/-- An INBOUND packet that has passed its window test: the rest is read, the key charged, and the packet deciphered
(R50 to R56). -/
def decipherInbound (k : Slot) (e : WorkEntry) (input : List Byte) (h : Header) (choice : KeyChoice) (s : State) :
    EntryResult × State :=
  let len := h.bodyLength.toNat
  let (read, s) := hostRead s
  if !read then (inboundResult h k.val .busFault .read, s)
  else
    let l := s.link k
    let body := bytesAt input 12 len
    let tag := BitVec.ofNat 128 (ofLe (bytesAt input (12 + len) 16))
    let plain := decipher (l.keyOf choice).1 (l.keyOf choice).2 h body tag
    let s := s.modLink k fun l => l.charge (cost len) choice
    match plain with
    | none =>
      let s := scoreKind k .tagFail s
      (inboundResult h k.val .tagFail choice.detail, afterCharge k choice s)
    | some text =>
      let s := tagPassed k choice h.sequence.toNat s
      if h.class_ = classData then deliverData k e h choice text s else consumeControl k e h text s

/-- An INBOUND packet at its link record (R47 to R49). -/
def inboundAtLink (k : Slot) (e : WorkEntry) (input : List Byte) (h : Header) (s : State) : EntryResult × State :=
  let g := h.generation.toNat
  if (h.class_ = classControl) ≠ (g = 0) then
    (inboundResult h k.val .classMismatch .none, scoreKind k .exchangeFault s)
  else
    let l := s.link k
    match selectKey l g with
    | .keySpent => (inboundResult h k.val .keySpent .none, s)
    | .unknownGen => (inboundResult h k.val .unknownGen .none, scoreKind k .unknownGen s)
    | .key choice =>
      match windowTest (l.windowOf choice) h.sequence.toNat with
      | .replayed => (inboundResult h k.val .replayed choice.detail, scoreKind k .replay s)
      | .tooOld => (inboundResult h k.val .tooOld choice.detail, scoreKind k .replay s)
      | .passes => decipherInbound k e input h choice s

/-- An INBOUND entry (R45, R46). `input` is what the packet buffer holds. -/
def serveInbound (e : WorkEntry) (input : List Byte) (s : State) : EntryResult × State :=
  if e.inputLength.toNat < 28 then (.bare .runt .none, s)
  else
    let (read, s) := hostRead s
    if !read then (.bare .busFault .read, s)
    else
      let h := parseHeader input
      match headerRefusal h e.inputLength.toNat e.outputRoom.toNat with
      | some (status, detail) => (inboundResult h noSlot status detail, s)
      | none =>
        match lookupBranch s.branchMap h.branch.toNat with
        | none => (inboundResult h noSlot .unknownBranch .none, countUnknownBranch s)
        | some k =>
          if (s.link k).state = .quarantined then (inboundResult h k.val .quarantined .none, s)
          else inboundAtLink k e input h s

end Sys2Proof.Machine
end

