-- ==== Sys2Proof/Machine/BatchEngine.lean ====
section
/-! DEFINITION. The Batch Engine: addresses in the work area, headers, results, tails, service, close, abandon and the fault stop (R147 to R162, R174 to R177). -/

namespace Sys2Proof.Machine

/-! ## The work area (R147) -/

/-- The offset of a batch from the work base (R147). -/
def batchOffset : BatchId → Nat
  | .a => 0
  | .b => 8192

/-- The address of a batch's header. -/
def headerAddress (base : Address) (id : BatchId) : Address := base + BitVec.ofNat 64 (batchOffset id)

/-- The address of the result fields of entry `i`: bytes 48 to 63 of the entry (R147, R213). -/
def resultAddress (base : Address) (id : BatchId) (i : Nat) : Address :=
  base + BitVec.ofNat 64 (batchOffset id + 64 + 64 * i + 48)

/-- The address of tail item `j`. -/
def tailAddress (base : Address) (id : BatchId) (j : Nat) : Address :=
  base + BitVec.ofNat 64 (batchOffset id + 4160 + 96 * j)

/-! ## What is written there (11.3, R213) -/

/-- Bytes 0 to 7 of a batch header. -/
def headerBlock (status : CloseStatus) (taken done tailCount : Nat) : List Byte :=
  [status.code] ++ zeroBytes 3 ++ leBytes 1 taken ++ leBytes 1 done ++ leBytes 1 tailCount ++ zeroBytes 1

/-- The 16 bytes of an entry's result fields. -/
def resultBytes (r : EntryResult) : List Byte :=
  [r.status.code, r.detail.code] ++ leBytes 2 r.slot ++ leBytes 4 r.outputLength ++ leBytes 1 r.generation
    ++ zeroBytes 3 ++ leBytes 4 r.sequence

/-- The link number of a notice: 0xFFFF for the device (R130). -/
def Notice.linkNumber (n : Notice) : Nat :=
  match n.link with
  | some k => k.val
  | none => noSlot

/-- The 96 bytes of a tail item (11.3). -/
def tailItemBytes : Item → List Byte
  | .offer k packet => leBytes 1 1 ++ zeroBytes 1 ++ leBytes 2 k.val ++ leBytes 2 86 ++ zeroBytes 4 ++ packet
  | .notice n =>
    leBytes 1 2 ++ [flagByte n.flicker] ++ leBytes 2 n.linkNumber ++ leBytes 1 n.kind.code ++ leBytes 1 n.edge.code
      ++ leBytes 2 n.counter ++ leBytes 2 n.score ++ zeroBytes 86

/-! ## The fault stop (R161) -/

/-- A write error on a header or result stops the engine; the batch in service stays IN_SERVICE (R161). -/
def stopOnFault (s : State) : State := { s with run := false, faultStop := true, engine := .stopped }

/-! ## Single updates of the engine -/

/-- The engine state replaced. -/
def setEngine (e : EngineState) (s : State) : State := { s with engine := e }

/-- First waiting replaced. -/
def setFirstWaiting (f : Option BatchId) (s : State) : State := { s with firstWaiting := f }

/-- The engine SERVING from index 0 on, with no entry done (R152). -/
def serveFromStart (s : State) : State :=
  { s with engine := .serving, nextIndex := 0, entriesDone := 0, abandoned := false }

/-- An entry of the batch in service has received SKIPPED or BUS_FAULT (R156). -/
def setAbandoned (s : State) : State := { s with abandoned := true }

/-- The next index replaced. -/
def setNextIndex (n : Nat) (s : State) : State := { s with nextIndex := n }

/-- The entries done and the next index up by 1 (R153). -/
def countEntry (s : State) : State := { s with entriesDone := s.entriesDone + 1, nextIndex := s.nextIndex + 1 }

/-- The item at the front of the queue leaves it (R175). -/
def popItem (s : State) : State := { s with queue := s.queue.tail }

/-- The CLAMPED mark set (R150). -/
def setClamped (s : State) : State := { s with clamped := true }

/-- RUN is set, and the board base is taken from the work base (R131, R159). -/
def setRunBase (s : State) : State := { s with run := true, boardBase := some s.workBase }

/-- RUN is cleared; an IDLE engine becomes STOPPED (R159). -/
def clearRunBit (s : State) : State :=
  { s with run := false, engine := if s.engine = .idle then .stopped else s.engine }

/-! ## The start of service (R152) -/

/-- First waiting after a batch has left the handover order: the other batch when it is WAITING (R148, R152;
log entry 14). -/
def waitingAfter (id : BatchId) (s : State) : Option BatchId :=
  if (s.batch (otherBatch id)).state = .waiting then some (otherBatch id) else none

/-- A batch's service starts (R152). -/
def startService (id : BatchId) (s : State) : State :=
  let taken := (s.batch id).taken
  let s := s.setBatch id ⟨.inService, taken⟩
  let s := serveFromStart (setFirstWaiting (waitingAfter id s) s)
  let (written, s) := hostWrite .whole (headerAddress s.workBase id) (headerBlock .inService taken 0 0) s
  if written then s else stopOnFault s

/-! ## The close (R156, R173 to R177) -/

/-- Up to the given number of items written from the front of the queue into the tail, from tail item `j` on: how many
tail items have then been written in all, and the state (R175). An item whose write fails stays at the front of the queue,
with every item behind it (R176). The last sentence of R177 has the BUS_FAULT notice of a failure at the last item stand
alone on the queue after the close: that R176 is followed there too is the model's choice (log entry 28). -/
def fillTail (id : BatchId) (j : Nat) : Nat → State → Nat × State
  | 0, s => (j, s)
  | n + 1, s =>
    match s.queue with
    | [] => (j, s)
    | it :: _ =>
      match hostWrite .tailItem (tailAddress s.workBase id j) (tailItemBytes it) s with
      | (true, s) => fillTail id (j + 1) n (deliverItem it (popItem s))
      | (false, s) => (j, s)

/-- A close that leaves both batches FREE with items on the queue sets COLLECT (R173). -/
def collectAfterClose (s : State) : State :=
  if s.bothFree ∧ s.queue ≠ [] then s.setCause .collect else s

/-- Step 5 of a close: the other batch's service, IDLE or STOPPED (R156). -/
def afterClose (id : BatchId) (s : State) : State :=
  if s.run then
    if (s.batch (otherBatch id)).state = .waiting then startService (otherBatch id) s else setEngine .idle s
  else setEngine .stopped s

/-- The close of the batch in service (R156). A header write that fails stops the engine (R161); origination is tried then
too, since the tail may have freed entries of the queue (R89, R162, log entry 26). -/
def closeBatch (id : BatchId) (s : State) : State :=
  let room := min s.settings.tailRoom s.queue.length
  let (tailCount, s) := fillTail id 0 room s
  let status : CloseStatus := if s.abandoned then .abandoned else .complete
  let header := headerBlock status (s.batch id).taken s.entriesDone tailCount
  let (written, s) := hostWrite .whole (headerAddress s.workBase id) header s
  if !written then tryOriginate (stopOnFault s)
  else
    let s := s.setBatch id ⟨.free, 0⟩
    let s := s.setCause (closedCause id)
    let s := afterClose id s
    let s := tryOriginate s
    collectAfterClose s

/-! ## Abandoning the rest of a batch (R154, R160, R161) -/

/-- The result of an entry passed over (R154). -/
def skippedResult : EntryResult := .bare .skipped .none

/-- The given number of entries from index `i` receive SKIPPED, each as its own result write, up to the first write
that fails: whether all were written (R160, R161). -/
def skipEntries (id : BatchId) (i : Nat) : Nat → State → Bool × State
  | 0, s => (true, s)
  | n + 1, s =>
    match hostWrite .whole (resultAddress s.workBase id i) (resultBytes skippedResult) s with
    | (true, s) => skipEntries id (i + 1) n (setAbandoned s)
    | (false, s) => (false, s)

/-- The rest of the batch in service is abandoned, and the close follows in the same event (R160, R161). -/
def abandonRest (id : BatchId) (s : State) : State :=
  let taken := (s.batch id).taken
  match skipEntries id s.nextIndex (taken - s.nextIndex) s with
  | (true, s) => closeBatch id (setNextIndex taken s)
  | (false, s) => stopOnFault s

/-! ## The service of one entry (R153, R154, R161) -/

/-- The result of an entry whose own read has failed (R161). -/
def unreadResult : EntryResult := .bare .busFault .read

/-- An entry's result written, the entry counted, and the rest of the batch abandoned after a BUS_FAULT (R153, R154,
R161). -/
def completeEntry (id : BatchId) (r : EntryResult) (s : State) : State :=
  let (written, s) := hostWrite .whole (resultAddress s.workBase id s.nextIndex) (resultBytes r) s
  if !written then stopOnFault s
  else
    let s := countEntry s
    if r.status = .busFault then abandonRest id (setAbandoned s) else s

/-- The entry at the next index is read, its request served, the board slots it changed are written, and its result is
written (R153, R154, R132). -/
def serveEntryOf (id : BatchId) (request : State → EntryResult × State) (s : State) : State :=
  let (read, t) := hostRead s
  let (r, t) := if read then request t else (unreadResult, t)
  let t := flushBoard s t
  flushBoard t (completeEntry id r t)

/-- The batch whose entry is to be served next: the engine is SERVING, and the next index is below the entries taken
(R148, R153). -/
def State.serving? (s : State) : Option BatchId :=
  match s.engine, s.inService? with
  | .serving, some id => if s.nextIndex < (s.batch id).taken then some id else none
  | _, _ => none

/-- An entry's event. With no entry to be served the event does not arise, and nothing changes (log entry 5). -/
def serveEntry (request : State → EntryResult × State) (env : Env) (s : State) : State :=
  event env (fun s =>
    match s.serving? with
    | some id => serveEntryOf id request s
    | none => s) s

/-- The batch whose close is to be taken: the engine is SERVING, and every entry taken has its result (R153, R156). -/
def State.closing? (s : State) : Option BatchId :=
  match s.engine, s.inService? with
  | .serving, some id => if s.nextIndex < (s.batch id).taken then none else some id
  | _, _ => none

/-! ## Handover, RUN and ABANDON (R150, R151, R159, R160) -/

/-- The count of a handover: the low 7 bits of the written value (R150). -/
def handoverCount (value : Word) : Nat := value.toNat % 128

/-- A handover write (R150, R151). -/
def takeHandover (id : BatchId) (value : Word) (s : State) : State :=
  if s.engine = .starting ∨ (s.batch id).state ≠ .free then s.setCause .clash
  else
    let count := handoverCount value
    let s := if count > 64 then setClamped s else s
    let taken := min count 64
    if s.engine = .idle then startService id (s.setBatch id ⟨.waiting, taken⟩)
    else
      let first := if (s.batch (otherBatch id)).state = .waiting then s.firstWaiting else some id
      setFirstWaiting first (s.setBatch id ⟨.waiting, taken⟩)

/-- RUN is set, the board base is taken from the work base, and all 513 slots are written (R131, R159). -/
def takeRun (s : State) : State := fullBoardWrite (setRunBase s)

/-- RUN as it stands takes a setting: it is clear, and neither start-up nor a fault stop forbids it (R159). -/
def State.takesRun (s : State) : Bool := !s.run && s.engine ≠ .starting && !s.faultStop

/-- The RUN part of a CONTROL write, written as 1 (R159). -/
def setRun (s : State) : State :=
  if s.run then s
  else if s.engine = .starting ∨ s.faultStop then s.setCause .clash
  else if s.engine = .serving then takeRun s
  else
    let s := takeRun s
    withBoard (fun s =>
      match s.firstWaiting with
      | some id => startService id s
      | none => setEngine .idle s) s

/-- The RUN part of a CONTROL write, written as 0 (R159). -/
def clearRun (s : State) : State :=
  if s.run then clearRunBit s else s

/-- The ABANDON part of a CONTROL write, written as 1 (R160). -/
def takeAbandon (s : State) : State :=
  match s.engine, s.inService? with
  | .serving, some id => abandonRest id s
  | _, _ => s

end Sys2Proof.Machine
end

