-- ==== Sys2Proof/Machine/Admin.lean ====
section
/-! DEFINITION. The ten administrative requests: their checks in order, their changes and their results (R181 to R199). -/

namespace Sys2Proof.Machine

/-! ## Results and blocks (R182, R183) -/

/-- A result that names a slot (R182). -/
def slotResult (slot : Nat) (status : Status) (detail : Detail) : EntryResult :=
  { EntryResult.bare status detail with slot := slot }

/-- The BAD_SLOT refusal (R182). -/
def badSlot : EntryResult := .bare .badSlot .none

/-- The parameter block read after the slot check: the length check, then the read, and then `next` (R183). -/
def withBlock (slot : Nat) (e : WorkEntry) (s : State) (next : State → EntryResult × State) : EntryResult × State :=
  if e.inputLength.toNat ≠ blockSize then (slotResult slot .malformed .length, s)
  else
    let (read, s) := hostRead s
    if read then next s else (slotResult slot .busFault .read, s)

/-- A READ request's output: the record written, and then what its clear option does, once the write has succeeded
(R183, R198, R199). -/
def withOutput (e : WorkEntry) (bytes : List Byte) (good failed : EntryResult) (clear : State → State) (s : State) :
    EntryResult × State :=
  let (written, s) := hostWrite .output e.outputAddress bytes s
  if written then ({ good with outputLength := bytes.length }, clear s) else (failed, s)

/-! ## ENROL (R184 to R186) -/

/-- The record that ENROL gives a slot: the ENROL values of R5, its code computed afresh (R10, R136). The renewal
state becomes DUE with the join that follows in the same event. -/
def enrolledRecord (b : LinkBlock) (profile : ProfileNumber) (rootKey : Key) (hold : Bool) : Link :=
  Link.recodeFresh
    { Link.vacant with
      state := .standby
      first := b.first
      last := b.last
      profile := profile
      rootKey := rootKey
      rootSequence := 1
      hostHold := hold }

/-- The changes of an ENROL that has passed its checks (R186). -/
def enrolLink (k : Slot) (b : LinkBlock) (profile : ProfileNumber) (rootKey : Key) (hold : Bool) (s : State) : State :=
  let s := s.setLink k (enrolledRecord b profile rootKey hold)
  joinDue k .urgent (setBranchMap (insertTriple ⟨b.first, b.last, k⟩ s.branchMap) s)

/-- ENROL's checks 3 to 9 and its changes (R184, R186). -/
def enrolChecked (k : Slot) (e : WorkEntry) (b : LinkBlock) (s : State) : EntryResult × State :=
  if (s.link k).state ≠ .vacant then (slotResult k.val .slotTaken .none, s)
  else if badRange b.first b.last then (slotResult k.val .badRange .none, s)
  else if s.branchMap.any (rangesShare b.first b.last) then (slotResult k.val .rangeOverlap .none, s)
  else
    match profileNumberOf b.profile with
    | none => (slotResult k.val .badProfile .none, s)
    | some p =>
      if s.profiles[p].valid = false then (slotResult k.val .profileEmpty .none, s)
      else if s.device.noMaster then (slotResult k.val .noMaster .none, s)
      else
        match Config.cipher.unwrap s.masterKey b.wrappedKey with
        | none => (slotResult k.val .badWrap .none, s)
        | some (rootKey, _) =>
          if rootKey = 0 then (slotResult k.val .badWrap .zeroKey, s)
          else (slotResult k.val .ok .none, enrolLink k b p rootKey (entryFlag0 e) s)

/-- An ENROL entry (R184). -/
def serveEnrol (e : WorkEntry) (input : List Byte) (s : State) : EntryResult × State :=
  match slotOf e.slotField with
  | none => (badSlot, s)
  | some k => withBlock k.val e s (enrolChecked k e (parseLinkBlock input))

/-! ## RETIRE (R187) -/

/-- The changes of a RETIRE on a non-VACANT slot, in the order of R187; the board slots follow with the event. -/
def retireLink (k : Slot) (s : State) : State :=
  let s := freeRecordOf k s
  let s := removeDue k s
  let s := removeItems k s
  let s := setBranchMap (removeTriple k s.branchMap) s
  tryOriginate (tryAdmit (s.setLink k .vacant))

/-- A RETIRE entry (R187). -/
def serveRetire (e : WorkEntry) (s : State) : EntryResult × State :=
  match slotOf e.slotField with
  | none => (badSlot, s)
  | some k =>
    if (s.link k).state = .vacant then (slotResult k.val .ok .wasVacant, s)
    else (slotResult k.val .ok .none, retireLink k s)

/-! ## SET_LINK (R188, R189) -/

/-- The record with a new profile number and, when the range differs, the new range; its code is computed by difference
when either changed (R189, steps 1 to 3). -/
def relinkedRecord (b : LinkBlock) (sameRange : Bool) (profile : ProfileNumber) (l : Link) : Link :=
  if sameRange ∧ l.profile = profile then l
  else
    Link.recodeBy l
      { l with
        first := if sameRange then l.first else b.first
        last := if sameRange then l.last else b.last
        profile := profile }

/-- The Branch Map with a link's triple replaced by a new range (R29). -/
def replaceTriple (k : Slot) (first last : Nat) (m : List Triple) : List Triple :=
  insertTriple ⟨first, last, k⟩ (removeTriple k m)

/-- The changes of a SET_LINK that has passed its checks (R189). The present range, with which the new one is compared, is
the Branch Map's, so an altered range in the record has no effect (R143, log entry 12). -/
def relink (k : Slot) (b : LinkBlock) (profile : ProfileNumber) (s : State) : State :=
  let l := s.link k
  let sameRange : Bool := s.rangeOf k = (b.first, b.last)
  let s := if sameRange then s else setBranchMap (replaceTriple k b.first b.last s.branchMap) s
  let s := s.modLink k (relinkedRecord b sameRange profile)
  let s := if l.profile = profile then s else reexamine k s
  dueCheck k .joinsOnly s

/-- SET_LINK's checks 3 to 9 and its changes (R188, R189). -/
def setLinkChecked (k : Slot) (b : LinkBlock) (s : State) : EntryResult × State :=
  if (s.link k).state = .vacant then (slotResult k.val .notEnrolled .none, s)
  else if (s.link k).state = .quarantined then (slotResult k.val .quarantined .none, s)
  else if (s.link k).hostHold = false then (slotResult k.val .notHeld .none, s)
  else if badRange b.first b.last then (slotResult k.val .badRange .none, s)
  else if (removeTriple k s.branchMap).any (rangesShare b.first b.last) then (slotResult k.val .rangeOverlap .none, s)
  else
    match profileNumberOf b.profile with
    | none => (slotResult k.val .badProfile .none, s)
    | some p =>
      if s.profiles[p].valid = false then (slotResult k.val .profileEmpty .none, s)
      else (slotResult k.val .ok .none, relink k b p s)

/-- A SET_LINK entry (R188). -/
def serveSetLink (e : WorkEntry) (input : List Byte) (s : State) : EntryResult × State :=
  match slotOf e.slotField with
  | none => (badSlot, s)
  | some k => withBlock k.val e s (setLinkChecked k (parseLinkBlock input))

/-! ## SET_PROFILE (R190, R191) -/

/-- The non-VACANT links that name a profile, in ascending slot order (R190). -/
def State.namingLinks (s : State) (p : ProfileNumber) : List Slot :=
  s.enrolledSlots.filter fun k => (s.link k).profile = p

/-- A profile replaced. -/
def State.setProfile (s : State) (p : ProfileNumber) (v : Profile) : State :=
  { s with profiles := s.profiles.set p.val v }

/-- A profile written, and every link that names it re-examined (R25, R191). -/
def writeProfile (p : ProfileNumber) (v : Profile) (s : State) : State :=
  (s.namingLinks p).foldl (fun s k => reexamine k s) (s.setProfile p v)

/-- SET_PROFILE's checks 2 and 3 and its changes (R190, R191). -/
def setProfileChecked (e : WorkEntry) (input : List Byte) (s : State) : EntryResult × State :=
  match profileNumberOf (ofLe (bytesAt input 0 1)) with
  | none => (.bare .badProfile .none, s)
  | some p =>
    let count := (s.namingLinks p).length
    let result (status : Status) : EntryResult := { EntryResult.bare status .none with sequence := count }
    if entryFlag0 e then
      if count ≠ 0 then (result .profileInUse, s) else (result .ok, s.setProfile p .invalid)
    else (result (if profileClamps input then .okClamped else .ok), writeProfile p (parseProfile input) s)

/-- A SET_PROFILE entry (R190). -/
def serveSetProfile (e : WorkEntry) (input : List Byte) (s : State) : EntryResult × State :=
  withBlock noSlot e s (setProfileChecked e input)

/-! ## HOLD and RELEASE (R192 to R194) -/

/-- The record with its host hold mark set (R17). -/
def heldRecord (l : Link) : Link := { l with hostHold := true }

/-- The record with the named marks clear (R17). -/
def releasedRecord (host supervisor : Bool) (l : Link) : Link :=
  { l with hostHold := l.hostHold && !host, supervisorHold := l.supervisorHold && !supervisor }

/-- Every non-VACANT link changed, in ascending slot order (R194). -/
def onEnrolled (f : Link → Link) (s : State) : State := s.enrolledSlots.foldl (fun t k => t.modLink k f) s

/-- The result of a request on the all-links number that affected `count` links (R182, R194). -/
def allLinksResult (count : Nat) : EntryResult := { slotResult allLinks.toNat .ok .none with sequence := count }

/-- One link's marks changed: the detail says whether any was (R192, R193). -/
def markOne (k : Slot) (f : Link → Link) (s : State) : EntryResult × State :=
  if (s.link k).state = .vacant then (slotResult k.val .notEnrolled .none, s)
  else if f (s.link k) = s.link k then (slotResult k.val .ok .unchanged, s)
  else (slotResult k.val .ok .none, s.modLink k f)

/-- A HOLD entry (R192, R194). -/
def serveHold (e : WorkEntry) (s : State) : EntryResult × State :=
  if e.slotField = allLinks then (allLinksResult s.enrolledSlots.length, onEnrolled heldRecord s)
  else
    match slotOf e.slotField with
    | none => (badSlot, s)
    | some k => markOne k heldRecord s

/-- A RELEASE entry (R193, R194). -/
def serveRelease (e : WorkEntry) (s : State) : EntryResult × State :=
  let f := releasedRecord (entryFlag0 e) (entryFlag1 e)
  let named := entryFlag0 e || entryFlag1 e
  if e.slotField = allLinks then
    if named then (allLinksResult s.enrolledSlots.length, onEnrolled f s)
    else (slotResult allLinks.toNat .malformed .flags, s)
  else
    match slotOf e.slotField with
    | none => (badSlot, s)
    | some k => if named then markOne k f s else (slotResult k.val .malformed .flags, s)

/-! ## RENEW_NOW (R195, R196) -/

/-- The detail of a forced join's result (R195). -/
def JoinResult.detail : JoinResult → Detail
  | .joined => .joined
  | .promoted => .promoted
  | .unchanged => .unchanged

/-- One link of a RENEW_NOW on the all-links number: a forced join to the ordinary section, counted when it joins
(R194, R196). -/
def renewOneOfAll (c : Nat × State) (k : Slot) : Nat × State :=
  if (c.2.link k).state = .vacant ∨ (c.2.link k).state = .quarantined then c
  else
    match forcedJoin k .ordinary c.2 with
    | (.joined, s) => (c.1 + 1, s)
    | (_, s) => (c.1, s)

/-- RENEW_NOW on the all-links number (R196). -/
def renewAll (s : State) : Nat × State := s.enrolledSlots.foldl renewOneOfAll (0, s)

/-- A RENEW_NOW entry (R195, R196). -/
def serveRenewNow (e : WorkEntry) (s : State) : EntryResult × State :=
  if e.slotField = allLinks then
    let (count, s) := renewAll s
    (allLinksResult count, s)
  else
    match slotOf e.slotField with
    | none => (badSlot, s)
    | some k =>
      match (s.link k).state with
      | .vacant => (slotResult k.val .notEnrolled .none, s)
      | .quarantined => (slotResult k.val .quarantined .none, s)
      | _ =>
        let (did, s) := forcedJoin k .urgent s
        (slotResult k.val .ok did.detail, s)

/-! ## READ requests (R197 to R199, 11.4) -/

/-- A window in a link summary: H and the map. -/
def windowBytes (w : Window) : List Byte := leBytes 4 w.high ++ leBytes 8 w.map.toNat

/-- The renewal record's part of a link summary; 0xFF and zeros when the link holds none. -/
def renewalBytes (s : State) (k : Slot) : List Byte :=
  match s.recordOf k with
  | none => leBytes 1 0xFF ++ zeroBytes 7
  | some n =>
    let r := s.records[n]
    leBytes 1 n.val ++ leBytes 1 r.generation ++ leBytes 1 r.attempt ++ leBytes 1 r.state.code
      ++ [flagByte r.offerQueued] ++ leBytes 1 r.lastRefusal.code ++ leBytes 1 r.replyTimer ++ zeroBytes 1

/-- The 128-byte link summary (R197). -/
def linkSummary (s : State) (k : Slot) : List Byte :=
  let l := s.link k
  leBytes 1 l.state.code ++ leBytes 1 (holdMarks l) ++ leBytes 1 l.profile.val ++ leBytes 1 l.renewal.code
    ++ leBytes 2 l.first ++ leBytes 2 l.last ++ leBytes 2 l.silence ++ leBytes 2 l.restTimer
    ++ leBytes 4 l.rate ++ leBytes 4 l.periodCount ++ leBytes 4 l.checkCode.toNat
    ++ leBytes 4 l.rootSequence ++ windowBytes l.rootWindow
    ++ leBytes 1 l.current.state.code ++ leBytes 1 l.current.generation ++ zeroBytes 2
    ++ leBytes 4 l.current.use ++ leBytes 4 l.current.age ++ leBytes 4 l.current.budget ++ leBytes 4 l.current.ageLimit
    ++ leBytes 4 l.nextSequence ++ windowBytes l.current.window
    ++ leBytes 1 l.retiring.state.code ++ leBytes 1 l.retiring.generation ++ leBytes 1 l.retireTimer ++ zeroBytes 1
    ++ leBytes 4 l.retiring.use ++ leBytes 4 l.retiring.age ++ leBytes 4 l.retiring.budget
    ++ leBytes 4 l.retiring.ageLimit ++ windowBytes l.retiring.window
    ++ renewalBytes s k ++ zeroBytes 12

/-- A READ_LINK entry (R197). -/
def serveReadLink (e : WorkEntry) (s : State) : EntryResult × State :=
  match slotOf e.slotField with
  | none => (badSlot, s)
  | some k =>
    if e.outputRoom.toNat < 128 then (slotResult k.val .noRoom .none, s)
    else if (s.link k).state = .vacant then (slotResult k.val .notEnrolled .none, s)
    else
      withOutput e (linkSummary s k) { slotResult k.val .ok .none with generation := (s.link k).current.generation }
        (slotResult k.val .busFault .write) id s

/-- The list entries of a fault copy: eight positions, the unused ones zero. -/
def shopCodeBytes (codes : List ShopCode) : List Byte :=
  bytesAt (codes.flatMap fun c => leBytes 2 c.code ++ leBytes 2 c.sum) 0 32

/-- The 96-byte fault copy (R198). -/
def faultCopy (l : Link) : List Byte :=
  leBytes 2 (activeStates l) ++ leBytes 2 (overflowMarks l) ++ counterBytes l
    ++ l.scores.toList.flatMap (leBytes 2) ++ leBytes 2 l.silence
    ++ leBytes 1 l.shopCodes.length ++ zeroBytes 3 ++ shopCodeBytes l.shopCodes ++ zeroBytes 28

/-- The record with its counters 0 and its overflow marks clear (R119). -/
def clearedCounters (l : Link) : Link :=
  { l with kinds := l.kinds.map fun v => { v with counter := 0, overflow := false } }

/-- A READ_FAULTS entry (R198). -/
def serveReadFaults (e : WorkEntry) (s : State) : EntryResult × State :=
  match slotOf e.slotField with
  | none => (badSlot, s)
  | some k =>
    if e.outputRoom.toNat < 96 then (slotResult k.val .noRoom .none, s)
    else if (s.link k).state = .vacant then (slotResult k.val .notEnrolled .none, s)
    else
      withOutput e (faultCopy (s.link k)) (slotResult k.val .ok .none) (slotResult k.val .busFault .write)
        (fun s => if entryFlag0 e then s.modLink k clearedCounters else s) s

/-- How many profiles are valid (R199). -/
def State.validProfiles (s : State) : Nat := s.profiles.toList.countP Profile.valid

/-- How many links are QUARANTINED (R199). -/
def State.quarantinedLinks (s : State) : Nat := (allSlots.filter fun k => (s.link k).state = .quarantined).length

/-- The 64-byte device summary (R199). -/
def deviceSummary (s : State) : List Byte :=
  leBytes 4 s.settings.period ++ leBytes 1 s.settings.tailRoom ++ [flagByte (s.settings.drive = .pushPull)]
    ++ [flagByte (s.settings.polarity = .activeHigh)] ++ [flagByte (s.settings.source = .block)]
    ++ leBytes 1 s.deviceFlags ++ zeroBytes 1 ++ leBytes 2 s.device.unknownBranchCount ++ leBytes 1 s.recordsInUse
    ++ zeroBytes 1 ++ leBytes 2 s.dueLength ++ leBytes 2 s.dueList.urgent.length
    ++ leBytes 1 s.sendOrder.length ++ leBytes 1 s.queue.length ++ leBytes 1 (noticeCount s.queue)
    ++ leBytes 1 s.validProfiles ++ leBytes 2 s.enrolledSlots.length ++ leBytes 2 s.quarantinedLinks
    ++ leBytes 2 s.walkPosition.val ++ zeroBytes 36

/-- The device items that the clear option of READ_DEVICE clears (R119). -/
def clearDeviceCounts (s : State) : State :=
  s.modDevice fun d => { d with unknownBranchCount := 0, unknownBranchOverflow := false, noticesDropped := false }

/-- A READ_DEVICE entry (R199). -/
def serveReadDevice (e : WorkEntry) (s : State) : EntryResult × State :=
  if e.outputRoom.toNat < 64 then (.bare .noRoom .none, s)
  else
    withOutput e (deviceSummary s) (.bare .ok .none) (.bare .busFault .write)
      (fun s => if entryFlag0 e then clearDeviceCounts s else s) s

end Sys2Proof.Machine
end

