-- ==== Sys2Proof/Machine/Clock.lean ====
section
/-! DEFINITION. The Renewal Clock and the Scrubber: the period mark at a link record and at a renewal record, the scrub step, and a millisecond of the timebase (R60 to R68, R92, R111, R114, R137 to R141). -/

namespace Sys2Proof.Machine

/-! ## A period mark at a link record (R63 to R68, R111, R114) -/

/-- The CURRENT slot one period older (R64). -/
def agedCurrent (l : Link) : Link := { l with current := { l.current with age := l.current.age + 1 } }

/-- The RETIRING slot one period older (R64). -/
def agedRetiring (l : Link) : Link := { l with retiring := { l.retiring with age := l.retiring.age + 1 } }

/-- The aging of an IN_USE CURRENT slot and its spent check (R64). -/
def ageCurrent (k : Slot) (s : State) : State :=
  if (s.link k).current.state = .inUse then checkCurrent k (s.modLink k agedCurrent) else s

/-- The aging of an IN_USE RETIRING slot and its spent check (R64). -/
def ageRetiring (k : Slot) (s : State) : State :=
  if (s.link k).retiring.state = .inUse then checkRetiring k (s.modLink k agedRetiring) else s

/-- The record with its retire timer one period lower (R65). -/
def retireTimerDown (l : Link) : Link := { l with retireTimer := l.retireTimer - 1 }

/-- The retire timer of an IN_USE RETIRING slot goes down by 1; at 0 the slot is erased (R65). -/
def countRetireTimer (k : Slot) (s : State) : State :=
  let l := s.link k
  if l.retiring.state = .inUse then
    if l.retireTimer ≤ 1 then eraseRetiring k s else s.modLink k retireTimerDown
  else s

/-- The rest timer of a link in REST goes down by 1; at 0 the renewal state becomes IDLE (R66). -/
def countedRest (l : Link) : Link :=
  if l.renewal = .rest then
    if l.restTimer ≤ 1 then { l with renewal := .idle, restTimer := 0 } else { l with restTimer := l.restTimer - 1 }
  else l

/-- The rate update: N is folded into E16 and returns to 0 (R67, R68). -/
def ratedRecord (l : Link) : Link := { l with rate := nextRate l.rate l.periodCount, periodCount := 0 }

/-- A period mark at a link record: aging, retire timer, rest timer, rate estimate, due check, decay, silence (R63).
A VACANT record is not reached. The one due check serves a rest that has ended too (log entry 17). -/
def markLink (k : Slot) (s : State) : State :=
  if (s.link k).state = .vacant then s
  else
    let s := ageCurrent k s
    let s := ageRetiring k s
    let s := countRetireTimer k s
    let s := s.modLink k countedRest
    let s := s.modLink k ratedRecord
    let s := dueCheck k .testsUrgency s
    let s := decayKinds k s
    countSilence k s

/-! ## The parts of a mark that the table lists as events of their own -/

/-- The aging that brings one IN_USE key slot to its age limit (R64). A slot that is not one period short of its limit
is not brought to it, and nothing changes. -/
def reachAgeLimit (k : Slot) (which : KeySlotName) (s : State) : State :=
  let l := s.link k
  match which with
  | .current => if l.current.state = .inUse ∧ l.current.ageLimit ≤ l.current.age + 1 then ageCurrent k s else s
  | .retiring => if l.retiring.state = .inUse ∧ l.retiring.ageLimit ≤ l.retiring.age + 1 then ageRetiring k s else s

/-- The mark that brings a retire timer to 0 (R65). A timer that is not at its last period does not reach 0, and
nothing changes. -/
def reachRetireTime (k : Slot) (s : State) : State :=
  let l := s.link k
  if l.retiring.state = .inUse ∧ l.retireTimer ≤ 1 then countRetireTimer k s else s

/-- The mark that brings a rest timer to 0, and the due check that follows (R66). A timer that is not at its last
period does not reach 0, and nothing changes. -/
def reachRestEnd (k : Slot) (s : State) : State :=
  let l := s.link k
  if l.renewal = .rest ∧ l.restTimer ≤ 1 then dueCheck k .joinsOnly (s.modLink k countedRest) else s

/-- The mark that brings a reply timer to 0 (R92, R93). A timer that is not at its last period does not reach 0, and
nothing changes. -/
def reachReplyExpiry (n : RecordNumber) (s : State) : State :=
  let r := s.records[n]
  if r.state = .waitingReply ∧ r.replyTimer ≤ 1 then expireReply n s else s

/-! ## The scrub step (R138 to R140) -/

/-- Said of a link that the Scrubber visits: STANDBY, LIVE or STALLED (R138). -/
def State.scrubbed (s : State) (k : Slot) : Bool :=
  match (s.link k).state with
  | .vacant => false
  | .standby => true
  | .live => true
  | .stalled => true
  | .quarantined => false

/-- The slot a scrub step selects: the first from the walk position on, and then from slot 0 on (R138). -/
def State.scrubSelect (s : State) : Option Slot :=
  match allSlots.find? fun k => s.walkPosition ≤ k && s.scrubbed k with
  | some k => some k
  | none => allSlots.find? s.scrubbed

/-- The walk position after a visit: the next slot, 511 being followed by 0 (R138). -/
def nextWalk (k : Slot) : Slot := k + 1

/-- The walk position set (R137). -/
def walkTo (k : Slot) (s : State) : State := { s with walkPosition := k }

/-- The period phase set (R62). -/
def setPhase (n : Nat) (s : State) : State := { s with phase := n }

/-- A scrub step: the visit, the walk position, and the handling of a mismatch (R138 to R140, log entry 19). -/
def scrub (s : State) : State :=
  match s.scrubSelect with
  | none => s
  | some k =>
    let l := s.link k
    let s := walkTo (nextWalk k) s
    if freshCode l = l.checkCode then s else raiseKind k .storeCorrupt s

/-! ## The timebase (R60, R62) -/

/-- The timebase runs from the end of start-up on (R60). -/
def State.timebaseRuns (s : State) : Bool := s.resetn && s.engine ≠ .starting

/-- The events of one issued period mark, at each link record and then at each renewal record (R63, R92). The order
is the choice of log entry 6. -/
def markEverywhere (s : State) : State :=
  let s := allSlots.foldl (fun s k => withBoard (markLink k) s) s
  allRecordNumbers.foldl (fun s n => withBoard (markRecord n) s) s

/-- One millisecond of the timebase: a scrub step, and 1 on the period phase, which at P returns to 0 with a period
mark (R60, R62). R63 leaves open which of the two comes first at a record: that the scrub step of a millisecond comes
before its mark is the model's choice (log entry 6). -/
def millisecond (s : State) : State :=
  let s := withBoard scrub s
  if s.settings.period ≤ s.phase + 1 then markEverywhere (setPhase 0 s) else setPhase (s.phase + 1) s

/-- What passes while no command waits: one millisecond of the timebase when it runs, and nothing otherwise (log
entry 6). -/
def idleStep (s : State) : State :=
  if s.timebaseRuns then endEvent (millisecond (beginEvent Env.plain s)) else s

end Sys2Proof.Machine
end

