-- ==== Sys2Proof/Machine/ClockEvents.lean ====
section
/-! DEFINITION. The meanings of the timed events: SCRUB_STEP, PERIOD_MARK, PERIOD_MARK_AT_LINK, AGE_LIMIT_REACHED, RETIRE_TIMER_EXPIRY, REST_END, PERIOD_MARK_AT_RENEWAL_RECORD and REPLY_TIMER_EXPIRY. -/

namespace Sys2Proof.Machine

/-- A timed event: none is issued while the engine is STARTING (R60). -/
def timedEvent (env : Env) (body : State → State) (s : State) : State :=
  event env (fun s => if s.timebaseRuns then withBoard body s else s) s

/-- SCRUB_STEP (R138 to R140). -/
def execScrubStep (env : Env) (s : State) : Host.Outcome State Fault Refusal := .next (timedEvent env scrub s)

/-- PERIOD_MARK: a mark is issued and the period phase returns to 0 (R62). Its arrivals at the records are commands of
their own (R63, R92, log entry 7). -/
def execPeriodMark (s : State) : Host.Outcome State Fault Refusal :=
  .next (timedEvent Env.plain (setPhase 0) s)

/-- PERIOD_MARK_AT_LINK (R63). -/
def execPeriodMarkAtLink (k : Slot) (env : Env) (s : State) : Host.Outcome State Fault Refusal :=
  .next (timedEvent env (markLink k) s)

/-- AGE_LIMIT_REACHED (R64). -/
def execAgeLimitReached (k : Slot) (which : KeySlotName) (env : Env) (s : State) : Host.Outcome State Fault Refusal :=
  .next (timedEvent env (reachAgeLimit k which) s)

/-- RETIRE_TIMER_EXPIRY (R65). -/
def execRetireTimerExpiry (k : Slot) (env : Env) (s : State) : Host.Outcome State Fault Refusal :=
  .next (timedEvent env (reachRetireTime k) s)

/-- REST_END (R66). -/
def execRestEnd (k : Slot) (env : Env) (s : State) : Host.Outcome State Fault Refusal :=
  .next (timedEvent env (reachRestEnd k) s)

/-- PERIOD_MARK_AT_RENEWAL_RECORD (R92). -/
def execPeriodMarkAtRenewalRecord (n : RecordNumber) (env : Env) (s : State) : Host.Outcome State Fault Refusal :=
  .next (timedEvent env (markRecord n) s)

/-- REPLY_TIMER_EXPIRY (R93). -/
def execReplyTimerExpiry (n : RecordNumber) (env : Env) (s : State) : Host.Outcome State Fault Refusal :=
  .next (timedEvent env (reachReplyExpiry n) s)

end Sys2Proof.Machine
end

