-- ==== Sys2Proof/Machine/Entries.lean ====
section
/-! DEFINITION. The meanings of the Batch Engine's events: SERVICE_START, the thirteen kinds of entry, and BATCH_CLOSE. -/

namespace Sys2Proof.Machine

/-- The batch whose service can start: RUN is set, no fault stands, no batch is in service, and one waits (R152). -/
def State.startable? (s : State) : Option BatchId :=
  if s.run ∧ s.faultStop = false ∧ s.inService? = none ∧ s.engine ≠ .starting then
    s.firstWaiting.filter fun id => (s.batch id).state = .waiting
  else none

/-- The service of a waiting batch started, when one can start (R152). -/
def startWaiting (s : State) : State :=
  match s.startable? with
  | some id => startService id s
  | none => s

/-- SERVICE_START (R152). -/
def execServiceStart (env : Env) (s : State) : Host.Outcome State Fault Refusal :=
  .next (event env (withBoard startWaiting) s)

/-- OUTBOUND (R39 to R44). -/
def execOutbound (e : WorkEntry) (input : List Byte) (env : Env) (s : State) : Host.Outcome State Fault Refusal :=
  .next (serveEntry (serveOutbound e input) env s)

/-- INBOUND (R45 to R57). -/
def execInbound (e : WorkEntry) (input : List Byte) (env : Env) (s : State) : Host.Outcome State Fault Refusal :=
  .next (serveEntry (serveInbound e input) env s)

/-- ENROL (R184 to R186). -/
def execEnrol (e : WorkEntry) (input : List Byte) (env : Env) (s : State) : Host.Outcome State Fault Refusal :=
  .next (serveEntry (serveEnrol e input) env s)

/-- RETIRE (R187). -/
def execRetire (e : WorkEntry) (env : Env) (s : State) : Host.Outcome State Fault Refusal :=
  .next (serveEntry (serveRetire e) env s)

/-- SET_LINK (R188, R189). -/
def execSetLink (e : WorkEntry) (input : List Byte) (env : Env) (s : State) : Host.Outcome State Fault Refusal :=
  .next (serveEntry (serveSetLink e input) env s)

/-- SET_PROFILE (R190, R191). -/
def execSetProfile (e : WorkEntry) (input : List Byte) (env : Env) (s : State) : Host.Outcome State Fault Refusal :=
  .next (serveEntry (serveSetProfile e input) env s)

/-- HOLD (R192, R194). -/
def execHold (e : WorkEntry) (env : Env) (s : State) : Host.Outcome State Fault Refusal :=
  .next (serveEntry (serveHold e) env s)

/-- RELEASE (R193, R194). -/
def execRelease (e : WorkEntry) (env : Env) (s : State) : Host.Outcome State Fault Refusal :=
  .next (serveEntry (serveRelease e) env s)

/-- RENEW_NOW (R195, R196). -/
def execRenewNow (e : WorkEntry) (env : Env) (s : State) : Host.Outcome State Fault Refusal :=
  .next (serveEntry (serveRenewNow e) env s)

/-- READ_LINK (R197). -/
def execReadLink (e : WorkEntry) (env : Env) (s : State) : Host.Outcome State Fault Refusal :=
  .next (serveEntry (serveReadLink e) env s)

/-- READ_FAULTS (R198). -/
def execReadFaults (e : WorkEntry) (env : Env) (s : State) : Host.Outcome State Fault Refusal :=
  .next (serveEntry (serveReadFaults e) env s)

/-- READ_DEVICE (R199). -/
def execReadDevice (e : WorkEntry) (env : Env) (s : State) : Host.Outcome State Fault Refusal :=
  .next (serveEntry (serveReadDevice e) env s)

/-- An entry whose kind names no request touches no state (R153). -/
def serveBadRequest (s : State) : EntryResult × State := (.bare .badRequest .none, s)

/-- BAD_REQUEST (R153). -/
def execBadRequest (_kind : Byte) (_e : WorkEntry) (env : Env) (s : State) : Host.Outcome State Fault Refusal :=
  .next (serveEntry serveBadRequest env s)

/-- The close of the batch in service, when every entry taken has its result (R156). -/
def takeClose (s : State) : State :=
  match s.closing? with
  | some id => closeBatch id s
  | none => s

/-- BATCH_CLOSE (R156, log entry 13). -/
def execBatchClose (env : Env) (s : State) : Host.Outcome State Fault Refusal :=
  .next (event env (withBoard takeClose) s)

end Sys2Proof.Machine
end

