-- ==== Sys2Proof/Machine/Startup.lean ====
section
/-! DEFINITION. Resets, start-up, RESTART, the pins, and the register writes that no other block takes (R147, R201 to R210). -/

namespace Sys2Proof.Machine

/-! ## Resets (R206) -/

/-- Every item of the device's state at its reset value. What is not the device's to reset stays: the level of the
pins, the one-time store, host memory, the command queue, and the count of free draws (log entry 9). -/
def resetDevice (s : State) : State :=
  { State.reset with
    resetn := s.resetn
    quiescePin := s.quiescePin
    oneTimeStore := s.oneTimeStore
    hostMem := s.hostMem
    drawCount := s.drawCount
    pending := s.pending }

/-! ## Start-up (R208, R209) -/

/-- The settings replaced. -/
def setSettings (v : Settings) (s : State) : State := { s with settings := v }

/-- The master key read from the one-time store (R209). -/
def takeMasterKey (s : State) : State := { s with masterKey := s.oneTimeStore }

/-- The last draw of the Random Source is none (R129). -/
def clearLastDraw (s : State) : State := { s with lastDraw := none }

/-- The end of start-up: the engine STOPPED, the period phase 0, and the QUIESCE level taken (R209). -/
def endStartUp (s : State) : State := { s with engine := .stopped, phase := 0, quiesce := s.quiescePin }

/-- The settings block judged and the settings taken (R208). -/
def loadSettings (block : List Byte) (s : State) : State :=
  if settingsGood block then setSettings (settingsOf block) s
  else raiseDevice .settingsDefaulted (setSettings .defaults s)

/-- The master key read from the one-time store; a blank store raises NO_MASTER (R209). -/
def readMasterKey (s : State) : State :=
  let s := takeMasterKey s
  if s.masterKey = 0 then raiseDevice .noMaster s else s

/-- The steps of start-up (R209). It is taken while the engine is STARTING; at other times there is no start-up to
end, and nothing changes. -/
def startUp (block : List Byte) (s : State) : State :=
  if s.engine = .starting then
    endStartUp (selfTest (clearLastDraw (readMasterKey (loadSettings block s))))
  else s

/-! ## RESTART (R210) -/

/-- A link's renewal state and rest timer after RESTART (R8). -/
def restartedRecord (l : Link) : Link := l.withRenewal .idle 0

/-- What RESTART sets, wherever it stands (R8, R62, R105, R109, R163, R179, R202, R210). -/
def clearForRestart (s : State) : State :=
  { s with
    queue := []
    causes := 0
    batchA := ⟨.free, 0⟩
    batchB := ⟨.free, 0⟩
    firstWaiting := none
    nextIndex := 0
    entriesDone := 0
    faultStop := false
    abandoned := false
    run := false
    engine := .stopped
    clamped := false
    dueList := ⟨[], []⟩
    records := .replicate 16 .free
    sendOrder := []
    phase := 0
    device := { s.device with randomFault := false, busFault := false }
    lastDraw := none }

/-- The changes of RESTART but for the self-test and the board (R8, R62, R105, R109, R163, R179, R202, R210). -/
def restartState (s : State) : State :=
  clearForRestart (onEnrolled restartedRecord s)

/-- RESTART; while the engine is STARTING it is ignored with CLASH (R202, R210). -/
def restart (s : State) : State :=
  if s.engine = .starting then s.setCause .clash else fullBoardWrite (selfTest (restartState s))

/-! ## The QUIESCE pin (R205) -/

/-- Edges of QUIESCE are events from the end of start-up on, while RESETN is high (R205). -/
def State.takesEdges (s : State) : Bool := s.resetn && s.engine ≠ .starting

/-- QUIESCE goes high. -/
def assertQuiesce (s : State) : State := { s with quiesce := true }

/-- QUIESCE goes low, and an origination is tried. -/
def releaseQuiesce (s : State) : State := tryOriginate { s with quiesce := false }

/-! ## Register writes (R147, R201 to R203) -/

/-- The work base with one half written; the low 12 bits of WORK_BASE_LO are ignored (R147). -/
def writtenBase (base : Address) (half : BaseHalf) (value : Word) : Address :=
  match half with
  | .lo => base.extractLsb' 32 32 ++ (value.extractLsb' 12 20 ++ (0 : BitVec 12))
  | .hi => value ++ base.extractLsb' 0 32

/-- A write to a work base register (R147). -/
def writeWorkBase (half : BaseHalf) (value : Word) (s : State) : State :=
  if s.bothFree then { s with workBase := writtenBase s.workBase half value } else s.setCause .clash

/-- The RUN part of a CONTROL word (11.8). -/
def controlRun (control : Word) : Bool := control.getLsbD 0

/-- The ABANDON part of a CONTROL word (11.8). -/
def controlAbandon (control : Word) : Bool := control.getLsbD 1

/-- The RESTART part of a CONTROL word (11.8). -/
def controlRestart (control : Word) : Bool := control.getLsbD 2

/-- The enable mask part of a CONTROL word (11.8). -/
def controlMask (control : Word) : BitVec 5 := control.extractLsb' 8 5

/-- The enable mask replaced (R202). -/
def setMask (mask : BitVec 5) (s : State) : State := { s with mask := mask }

/-- The first two steps of a CONTROL write with RESTART 0: the mask, and the abandon (R202). -/
def maskAndAbandon (control : Word) (s : State) : State :=
  let s := setMask (controlMask control) s
  if controlAbandon control then takeAbandon s else s

/-- A CONTROL write, one event: a RESTART, of which no other part is taken, or the mask, ABANDON and RUN in this order
(R202). A setting of RUN writes every board slot as the event has left it (R131); otherwise the slots changed are
written. -/
def writeControl (control : Word) (s : State) : State :=
  if controlRestart control then restart s
  else
    let t := maskAndAbandon control s
    if controlRun control && t.takesRun then setRun t
    else flushBoard s (if controlRun control then setRun t else clearRun t)

/-- A write to NOTICE clears each cause written as 1 (R203). -/
def clearCauses (value : Word) (s : State) : State := { s with causes := s.causes &&& ~~~(value.extractLsb' 0 5) }

end Sys2Proof.Machine
end

