-- ==== Sys2Proof/Machine/RegisterWrites.lean ====
section
/-! DEFINITION. The meanings of the register writes: HANDOVER, WORK_BASE_WRITE, RUN_SET, RUN_CLEAR, ABANDON, NOTICE_ENABLE_MASK_WRITE, NOTICE_CLEAR and IGNORED_REGISTER_WRITE. -/

namespace Sys2Proof.Machine

/-- HANDOVER (R150, R151). -/
def execHandover (id : BatchId) (value : Word) (env : Env) (s : State) : Host.Outcome State Fault Refusal :=
  .next (event env (withBoard (takeHandover id value)) s)

/-- WORK_BASE_WRITE (R147). -/
def execWorkBaseWrite (half : BaseHalf) (value : Word) (s : State) : Host.Outcome State Fault Refusal :=
  .next (event Env.plain (writeWorkBase half value) s)

/-- RUN_SET (R159). -/
def execRunSet (env : Env) (s : State) : Host.Outcome State Fault Refusal := .next (event env setRun s)

/-- RUN_CLEAR (R159). -/
def execRunClear (s : State) : Host.Outcome State Fault Refusal := .next (event Env.plain clearRun s)

/-- ABANDON (R160). -/
def execAbandon (env : Env) (s : State) : Host.Outcome State Fault Refusal :=
  .next (event env (withBoard takeAbandon) s)

/-- NOTICE_ENABLE_MASK_WRITE: the write of a whole word to CONTROL (R202, log entry 8). -/
def execNoticeEnableMaskWrite (control : ControlWrite) (s : State) : Host.Outcome State Fault Refusal :=
  .next (event control.env (writeControl control.value) s)

/-- NOTICE_CLEAR (R203). -/
def execNoticeClear (value : Word) (s : State) : Host.Outcome State Fault Refusal :=
  .next (event Env.plain (clearCauses value) s)

/-- IGNORED_REGISTER_WRITE: a write to IDENT or STATUS is ignored (R201). -/
def execIgnoredRegisterWrite (_register : ReadOnlyRegister) (_value : Word) (s : State) :
    Host.Outcome State Fault Refusal :=
  .next (event Env.plain id s)

end Sys2Proof.Machine
end

