-- ==== Sys2Proof/Machine/Resets.lean ====
section
/-! DEFINITION. The meanings of the reset, start-up and pin commands: POWER_ON_RESET, RESETN_FALL, PIN_RESET, START_UP, QUIESCE_ASSERT, QUIESCE_RELEASE and RESTART. -/

namespace Sys2Proof.Machine

/-- POWER_ON_RESET (R206). The level of RESETN stays: start-up begins once it is high. -/
def execPowerOnReset (s : State) : Host.Outcome State Fault Refusal := .next (resetDevice s)

/-- RESETN_FALL between two operations: the device is held in reset, and makes no further access of host memory (R206). A
fall within an operation is an outcome of one of its accesses (`BusOutcome.fall`, log entry 9). -/
def execResetnFall (s : State) : Host.Outcome State Fault Refusal := .next { s with resetn := false, posted := [] }

/-- PIN_RESET: RESETN rises and the pin reset takes effect (R206). The spec gives none for a RESETN that is high already;
there the device is reset all the same (DESIGN CHOICE, log entry 9). -/
def execPinReset (s : State) : Host.Outcome State Fault Refusal := .next { resetDevice s with resetn := true }

/-- START_UP (R209; the block is what the settings memory holds, log entry 24). -/
def execStartUp (block : List Byte) (env : Env) (s : State) : Host.Outcome State Fault Refusal :=
  .next (event env (withBoard (startUp block)) s)

/-- QUIESCE_ASSERT: the pin goes high; from the end of start-up on that is an event (R205). -/
def execQuiesceAssert (env : Env) (s : State) : Host.Outcome State Fault Refusal :=
  .next (event env (fun s => if s.takesEdges then withBoard assertQuiesce s else s) { s with quiescePin := true })

/-- QUIESCE_RELEASE: the pin goes low; from the end of start-up on that is an event when the level changes (R205). -/
def execQuiesceRelease (env : Env) (s : State) : Host.Outcome State Fault Refusal :=
  .next (event env (fun s => if s.takesEdges ∧ s.quiesce then withBoard releaseQuiesce s else s)
    { s with quiescePin := false })

/-- RESTART (R202, R210). -/
def execRestart (env : Env) (s : State) : Host.Outcome State Fault Refusal := .next (event env restart s)

end Sys2Proof.Machine
end

