-- ==== Sys2Proof/Machine/TurnoverEvents.lean ====
section
/-! DEFINITION. The meanings of the Renewal Table's own tries: ADMISSION and ORIGINATION. -/

namespace Sys2Proof.Machine

/-- ADMISSION: an admission for as long as a record is free, the Due List is not empty and the Random Source is
healthy (R86). -/
def execAdmission (env : Env) (s : State) : Host.Outcome State Fault Refusal := .next (event env (withBoard tryAdmit) s)

/-- ORIGINATION: the send order is walked, and each record that can be is originated (R89). -/
def execOrigination (env : Env) (s : State) : Host.Outcome State Fault Refusal :=
  .next (event env (withBoard tryOriginate) s)

end Sys2Proof.Machine
end

