-- ==== Sys2Proof/Machine/Dispatch.lean ====
section
/-! DEFINITION. The dispatch: one arm per command, each one call of that command's meaning. -/

namespace Sys2Proof.Machine

/-- The effect of a command on everything but the command queue. -/
def exec (i : Instr) (s : State) : Host.Outcome State Fault Refusal :=
    match i with
    | .powerOnReset => Sys2Proof.Machine.execPowerOnReset s
    | .resetnFall => Sys2Proof.Machine.execResetnFall s
    | .pinReset => Sys2Proof.Machine.execPinReset s
    | .startUp block env => Sys2Proof.Machine.execStartUp block env s
    | .quiesceAssert env => Sys2Proof.Machine.execQuiesceAssert env s
    | .quiesceRelease env => Sys2Proof.Machine.execQuiesceRelease env s
    | .handover id value env => Sys2Proof.Machine.execHandover id value env s
    | .workBaseWrite half value => Sys2Proof.Machine.execWorkBaseWrite half value s
    | .runSet env => Sys2Proof.Machine.execRunSet env s
    | .runClear => Sys2Proof.Machine.execRunClear s
    | .abandon env => Sys2Proof.Machine.execAbandon env s
    | .restart env => Sys2Proof.Machine.execRestart env s
    | .noticeEnableMaskWrite control => Sys2Proof.Machine.execNoticeEnableMaskWrite control s
    | .noticeClear value => Sys2Proof.Machine.execNoticeClear value s
    | .ignoredRegisterWrite reg value => Sys2Proof.Machine.execIgnoredRegisterWrite reg value s
    | .serviceStart env => Sys2Proof.Machine.execServiceStart env s
    | .outbound e input env => Sys2Proof.Machine.execOutbound e input env s
    | .inbound e input env => Sys2Proof.Machine.execInbound e input env s
    | .enrol e input env => Sys2Proof.Machine.execEnrol e input env s
    | .retire e env => Sys2Proof.Machine.execRetire e env s
    | .setLink e input env => Sys2Proof.Machine.execSetLink e input env s
    | .setProfile e input env => Sys2Proof.Machine.execSetProfile e input env s
    | .hold e env => Sys2Proof.Machine.execHold e env s
    | .release e env => Sys2Proof.Machine.execRelease e env s
    | .renewNow e env => Sys2Proof.Machine.execRenewNow e env s
    | .readLink e env => Sys2Proof.Machine.execReadLink e env s
    | .readFaults e env => Sys2Proof.Machine.execReadFaults e env s
    | .readDevice e env => Sys2Proof.Machine.execReadDevice e env s
    | .badRequest kind e env => Sys2Proof.Machine.execBadRequest kind e env s
    | .batchClose env => Sys2Proof.Machine.execBatchClose env s
    | .scrubStep env => Sys2Proof.Machine.execScrubStep env s
    | .periodMark => Sys2Proof.Machine.execPeriodMark s
    | .periodMarkAtLink k env => Sys2Proof.Machine.execPeriodMarkAtLink k env s
    | .ageLimitReached k which env => Sys2Proof.Machine.execAgeLimitReached k which env s
    | .retireTimerExpiry k env => Sys2Proof.Machine.execRetireTimerExpiry k env s
    | .restEnd k env => Sys2Proof.Machine.execRestEnd k env s
    | .periodMarkAtRenewalRecord n env => Sys2Proof.Machine.execPeriodMarkAtRenewalRecord n env s
    | .replyTimerExpiry n env => Sys2Proof.Machine.execReplyTimerExpiry n env s
    | .admission env => Sys2Proof.Machine.execAdmission env s
    | .origination env => Sys2Proof.Machine.execOrigination env s

end Sys2Proof.Machine
end

