-- ==== Sys2Proof/Safety.lean ====
section
/-! DEFINITION. What statements about the LK512 are made of: the invariants that every step keeps, the device's own part of a state, the bytes of host memory that an event may write, and the conditions under which a command completes. -/

namespace Sys2Proof.Machine

/-! ## Invariants -/

/-- Host memory and the link records are in their canonical forms. -/
def State.tablesOk (s : State) : Prop := Memory.wf s.hostMem = true ∧ linksWf s.links = true

/-- The pair of a notice: its link, or none for the device, and its kind (R167). -/
def Item.pair? : Item → Option (Option Slot × NoticeKind)
  | .notice n => some (n.link, n.kind)
  | .offer _ _ => none

/-- The limits of the Origination Queue: at most 32 items, at most 24 notices, and at most one notice for any pair
(R167). -/
def queueOk (q : List Item) : Prop :=
  q.length ≤ queueCapacity ∧ noticeCount q ≤ noticeLimit ∧ (q.filterMap Item.pair?).Nodup

/-- The key slots agree with the link's state (R9), an EMPTY slot holds zero in every field (R6), a SPENT slot holds no
key, salt or window mark (R12), and neither a VACANT nor a QUARANTINED link holds a root key (R14, R15). -/
def Link.keysAgree (l : Link) : Prop :=
  (l.retiring.state = .inUse ∨ l.retiring = .empty ∧ l.retireTimer = 0) ∧
    match l.state with
    | .vacant => l.current = .empty ∧ l.nextSequence = 0 ∧ l.retiring = .empty ∧ l.rootKey = 0 ∧ l.rootSequence = 0
    | .standby => l.current = .empty ∧ l.nextSequence = 0 ∧ l.retiring = .empty
    | .live => l.current.state = .inUse
    | .stalled => l.current.state = .spent ∧ l.current.key = 0 ∧ l.current.salt = 0 ∧ l.current.window = .empty
    | .quarantined =>
      l.current = .empty ∧ l.nextSequence = 0 ∧ l.retiring = .empty ∧ l.rootKey = 0 ∧ l.rootSequence = 0

/-- `Link.keysAgree` holds of every link. -/
def State.keysAgree (s : State) : Prop := ∀ k, (s.link k).keysAgree

/-- A STANDBY, LIVE or STALLED link holds a root key (R9). -/
def State.rooted (s : State) : Prop :=
  ∀ k, (s.link k).state = .standby ∨ (s.link k).state = .live ∨ (s.link k).state = .stalled → (s.link k).rootKey ≠ 0

/-- KEY_SPENT is active exactly while the link is STALLED (R112). -/
def State.keySpentOk (s : State) : Prop :=
  ∀ k, (s.link k).kinds[LinkKind.keySpent.index].active = true ↔ (s.link k).state = .stalled

/-- The work base is a multiple of 4,096 (R147). -/
def State.workBaseOk (s : State) : Prop := s.workBase.extractLsb' 0 12 = 0

/-- What the engine holds for a batch is in range: at most 64 entries taken, and none while it is FREE (R148, R201). -/
def Batch.ok (b : Batch) : Prop := b.taken ≤ 64 ∧ (b.state = .free → b.taken = 0)

/-- The batch that first waiting names, by the states of the batches (R148). -/
def State.firstWaitingOk (s : State) : Prop :=
  (∀ id, s.firstWaiting = some id → (s.batch id).state = .waiting) ∧
    (s.firstWaiting = none → s.batchA.state ≠ .waiting ∧ s.batchB.state ≠ .waiting)

/-- The engine state follows the batches, RUN and the fault stop (R148): its table, at most one batch in service, and
WAITING batches only while the engine is SERVING or STOPPED. -/
def State.engineOk (s : State) : Prop :=
  s.batchA.ok ∧ s.batchB.ok ∧ s.firstWaitingOk ∧
    ¬ (s.batchA.state = .inService ∧ s.batchB.state = .inService) ∧
    match s.engine with
    | .starting => s.run = false ∧ s.faultStop = false ∧ s.bothFree = true
    | .stopped => s.run = false ∧ (s.faultStop = true ∨ s.inService? = none)
    | .idle => s.run = true ∧ s.faultStop = false ∧ s.bothFree = true
    | .serving => s.faultStop = false ∧ s.inService? ≠ none

/-- An in-use renewal record. -/
def State.inUse (s : State) (n : RecordNumber) : Prop := s.records[n].state ≠ .free

/-- The slot of an OFFER item. -/
def Item.offer? : Item → Option Slot
  | .offer k _ => some k
  | .notice _ => none

/-- The renewal state of every link mirrors its place (R78): on the Due List exactly in DUE, and there once (R79); with a
renewal record exactly in EXCHANGE, and with one at most (R84). The rest timer is 0 outside REST (R19), and neither a
VACANT nor a QUARANTINED link is anywhere (R14, R15). The send order holds exactly the in-use records that wait to send
with no offer queued (R85), and the queue holds exactly one offer for each record whose offer is queued (R169). -/
structure State.TurnoverOk (s : State) : Prop where
  dueNodup : (s.dueList.urgent ++ s.dueList.ordinary).Nodup
  dueMirror : ∀ k, k ∈ s.dueList.urgent ++ s.dueList.ordinary ↔ (s.link k).renewal = .due
  recordMirror : ∀ k, (∃ n : RecordNumber, s.inUse n ∧ s.records[n].slot = k) ↔ (s.link k).renewal = .exchange
  recordUnique : ∀ m n : RecordNumber, s.inUse m → s.inUse n → s.records[m].slot = s.records[n].slot → m = n
  restTimer : ∀ k, (s.link k).renewal ≠ .rest → (s.link k).restTimer = 0
  outside : ∀ k, (s.link k).state = .vacant ∨ (s.link k).state = .quarantined → (s.link k).renewal = .idle
  sendNodup : s.sendOrder.Nodup
  sendMirror : ∀ n : RecordNumber, n ∈ s.sendOrder ↔ s.records[n].state = .waitingSend ∧ s.records[n].offerQueued = false
  queuedWaits : ∀ n : RecordNumber, s.records[n].offerQueued = true → s.records[n].state = .waitingSend
  offerNodup : (s.queue.filterMap Item.offer?).Nodup
  offerMirror : ∀ k, k ∈ s.queue.filterMap Item.offer? ↔
    ∃ n : RecordNumber, s.records[n].offerQueued = true ∧ s.records[n].slot = k

/-! ## The device's own state, and host memory beside it -/

/-- The state without host memory and without what belongs to one event alone. -/
def State.inner (s : State) : State := { s with hostMem := [], posted := [], bus := [], noise := [] }

/-- Every access of host memory within the command succeeds. -/
def cleanEnv (env : Env) : Prop := ∀ o ∈ env.bus, o = .done

/-- Host memory after writes, in their order. -/
def applyWrites (m : Memory) (ws : List HostWrite) : Memory := ws.foldl (fun m w => m.writeBytes w.address w.bytes) m

/-- The state after `n` more accesses of host memory, all of which have succeeded, the writes among them `ws`. -/
def State.wrote (s : State) (n : Nat) (ws : List HostWrite) : State :=
  { s with bus := s.bus.drop n, hostMem := applyWrites s.hostMem ws, posted := s.posted ++ ws }

/-- The state within an event that began in `s`, after its first `n` accesses of host memory, all of which have
succeeded, the writes among them `ws`. -/
def State.accessed (s : State) (env : Env) (n : Nat) (ws : List HostWrite) : State := (beginEvent env s).wrote n ws

/-- Address `x` is one of the `n` bytes from `a` on. -/
def inRange (a : Address) (n x : Nat) : Prop := ∃ i, i < n ∧ x = (a + BitVec.ofNat 64 i).toNat

/-- Address `x` is one that a write stores to. -/
def HostWrite.covers (w : HostWrite) (x : Nat) : Prop := inRange w.address w.bytes.length x

/-- Address `x` lies in one of the 513 board slots at a board base (R147). -/
def onBoard (board : Option Address) (x : Nat) : Prop :=
  ∃ base k, board = some base ∧ k ≤ 512 ∧ inRange (boardSlotAddress base k) 32 x

/-- A write of a board slot at a board base (R134, R147). -/
def isBoardWrite (board : Option Address) (w : HostWrite) : Prop :=
  ∃ base k, board = some base ∧ k ≤ 512 ∧ w.address = boardSlotAddress base k ∧ w.bytes.length = 32

/-- What the event's board writes leave: each slot that the event has changed is among the writes made, with the bytes
the slot shows after it (R132, R133). -/
def boardShown (s t : State) : Prop :=
  ∀ base, t.boardBase = some base →
    (∀ k, slotChanged s t k = true → ⟨boardSlotAddress base k.val, linkSlotBytes t k⟩ ∈ t.posted) ∧
      (deviceSlotBytes s ≠ deviceSlotBytes t → ⟨boardSlotAddress base 512, deviceSlotBytes t⟩ ∈ t.posted)

/-- The writes that show the slots that differ between two states: each link slot, and then the device slot (R132 to
R134). -/
def boardWrites (s t : State) : List HostWrite :=
  match t.boardBase with
  | none => []
  | some base =>
    (allSlots.filter (slotChanged s t)).map (fun k => ⟨boardSlotAddress base k.val, linkSlotBytes t k⟩)
      ++ if deviceSlotBytes s = deviceSlotBytes t then [] else [⟨boardSlotAddress base 512, deviceSlotBytes t⟩]

/-- The writes of a full board write (R131). -/
def fullWrites (s : State) : List HostWrite :=
  match s.boardBase with
  | none => []
  | some base =>
    allSlots.map (fun k => ⟨boardSlotAddress base k.val, linkSlotBytes s k⟩)
      ++ [⟨boardSlotAddress base 512, deviceSlotBytes s⟩]

/-- How an event that is no entry completes: the writes `output` are made, then the board slots that the event has
changed are written, the device's own state becomes `own`, and no other byte of host memory changes. That the board
writes come last, and the order among them, is log entry 15. -/
structure EventDone (s t : State) (output : List HostWrite) (own : State) : Prop where
  inner : t.inner = own.inner
  posted : t.posted = output ++ boardWrites s own
  memory : t.hostMem = applyWrites s.hostMem t.posted
  frame : ∀ x, (∀ w ∈ output, ¬ w.covers x) → ¬ onBoard t.boardBase x → t.hostMem.readByte x = s.hostMem.readByte x

/-- How an event that writes nothing completes. -/
structure SilentDone (s t : State) (own : State) : Prop where
  inner : t.inner = own.inner
  posted : t.posted = []
  memory : t.hostMem = s.hostMem

/-! ## The service of an entry -/

/-- An entry of batch `id` is to be served, and the device is not held in reset (R153). -/
def State.ready (s : State) (id : BatchId) : Prop := s.resetn = true ∧ s.serving? = some id

/-- The state with one more entry counted (R153). -/
def State.counted (s : State) : State := { s with nextIndex := s.nextIndex + 1, entriesDone := s.entriesDone + 1 }

/-- The write of an entry's result (R154). -/
def resultWrite (s : State) (id : BatchId) (r : EntryResult) : HostWrite :=
  ⟨resultAddress s.workBase id s.nextIndex, resultBytes r⟩

/-- How an entry of batch `id` completes: the writes `output` are made, then the board slots that the entry has changed
are written, and last its result; the device's own state becomes `own` with the entry counted; and no other byte of
host memory changes (R132, R153, R154). That the board writes stand between output and result, and the order among them,
is log entry 15. -/
structure EntryDone (id : BatchId) (s t : State) (result : EntryResult) (output : List HostWrite) (own : State) :
    Prop where
  inner : t.inner = own.counted.inner
  posted : t.posted = output ++ boardWrites s own ++ [resultWrite s id result]
  memory : t.hostMem = applyWrites s.hostMem t.posted
  frame : ∀ x, ¬ (resultWrite s id result).covers x → (∀ w ∈ output, ¬ w.covers x) → ¬ onBoard s.boardBase x →
    t.hostMem.readByte x = s.hostMem.readByte x

/-! ## What the outside decides within a command -/

/-- The operand that says what the outside decides; none where a command asks nothing of it. -/
def envOf : Instr → Env
  | .startUp _ env => env
  | .quiesceAssert env => env
  | .quiesceRelease env => env
  | .handover _ _ env => env
  | .runSet env => env
  | .abandon env => env
  | .restart env => env
  | .noticeEnableMaskWrite control => control.env
  | .serviceStart env => env
  | .outbound _ _ env => env
  | .inbound _ _ env => env
  | .enrol _ _ env => env
  | .retire _ env => env
  | .setLink _ _ env => env
  | .setProfile _ _ env => env
  | .hold _ env => env
  | .release _ env => env
  | .renewNow _ env => env
  | .readLink _ env => env
  | .readFaults _ env => env
  | .readDevice _ env => env
  | .badRequest _ _ env => env
  | .batchClose env => env
  | .scrubStep env => env
  | .periodMarkAtLink _ env => env
  | .ageLimitReached _ _ env => env
  | .retireTimerExpiry _ env => env
  | .restEnd _ env => env
  | .periodMarkAtRenewalRecord _ env => env
  | .replyTimerExpiry _ env => env
  | .admission env => env
  | .origination env => env
  | .powerOnReset => .plain
  | .resetnFall => .plain
  | .pinReset => .plain
  | .workBaseWrite _ _ => .plain
  | .runClear => .plain
  | .noticeClear _ => .plain
  | .ignoredRegisterWrite _ _ => .plain
  | .periodMark => .plain

/-- The command with something else decided by the outside. -/
def withEnv (env : Env) : Instr → Instr
  | .startUp block _ => .startUp block env
  | .quiesceAssert _ => .quiesceAssert env
  | .quiesceRelease _ => .quiesceRelease env
  | .handover id value _ => .handover id value env
  | .runSet _ => .runSet env
  | .abandon _ => .abandon env
  | .restart _ => .restart env
  | .noticeEnableMaskWrite control => .noticeEnableMaskWrite { control with env := env }
  | .serviceStart _ => .serviceStart env
  | .outbound e input _ => .outbound e input env
  | .inbound e input _ => .inbound e input env
  | .enrol e input _ => .enrol e input env
  | .retire e _ => .retire e env
  | .setLink e input _ => .setLink e input env
  | .setProfile e input _ => .setProfile e input env
  | .hold e _ => .hold e env
  | .release e _ => .release e env
  | .renewNow e _ => .renewNow e env
  | .readLink e _ => .readLink e env
  | .readFaults e _ => .readFaults e env
  | .readDevice e _ => .readDevice e env
  | .badRequest kind e _ => .badRequest kind e env
  | .batchClose _ => .batchClose env
  | .scrubStep _ => .scrubStep env
  | .periodMarkAtLink k _ => .periodMarkAtLink k env
  | .ageLimitReached k which _ => .ageLimitReached k which env
  | .retireTimerExpiry k _ => .retireTimerExpiry k env
  | .restEnd k _ => .restEnd k env
  | .periodMarkAtRenewalRecord n _ => .periodMarkAtRenewalRecord n env
  | .replyTimerExpiry n _ => .replyTimerExpiry n env
  | .admission _ => .admission env
  | .origination _ => .origination env
  | .powerOnReset => .powerOnReset
  | .resetnFall => .resetnFall
  | .pinReset => .pinReset
  | .workBaseWrite half value => .workBaseWrite half value
  | .runClear => .runClear
  | .noticeClear value => .noticeClear value
  | .ignoredRegisterWrite register value => .ignoredRegisterWrite register value
  | .periodMark => .periodMark

/-- The command with other outcomes of its accesses of host memory. -/
def withBus (bus : List BusOutcome) (c : Instr) : Instr := withEnv { envOf c with bus := bus } c

/-- Draws that all pass the repetition test after a last draw (R129). -/
def drawsPass : Option Draw → List Draw → Prop
  | _, [] => True
  | last, d :: rest => last ≠ some d ∧ drawsPass (some d) rest

/-! ## A replay window over a run of packets -/

/-- The sequences a window accepts out of a run of packets that all verify, in the order in which they come (R37,
R38). -/
def acceptedBy : Window → List Nat → List Nat
  | _, [] => []
  | w, q :: rest =>
    match windowTest w q with
    | .passes => q :: acceptedBy (windowAdvance w q) rest
    | .replayed => acceptedBy w rest
    | .tooOld => acceptedBy w rest

/-- A sequence inside the map of a window that is marked there (R37). -/
def Window.marked (w : Window) (q : Nat) : Prop := q ≤ w.high ∧ w.high < q + 64 ∧ w.map.getLsbD (w.high - q) = true

/-! ## The start and the close of a batch -/

/-- A batch IN_SERVICE from index 0 on (R152). -/
def servingFrom (id : BatchId) (taken : Nat) (s : State) : State :=
  { s.setBatch id ⟨.inService, taken⟩ with
    engine := .serving
    nextIndex := 0
    entriesDone := 0
    abandoned := false
    firstWaiting := if (s.batch (otherBatch id)).state = .waiting then some (otherBatch id) else none }

/-- The write of a batch header as its service starts (R152). -/
def startHeader (s : State) (id : BatchId) (taken : Nat) : HostWrite :=
  ⟨headerAddress s.workBase id, headerBlock .inService taken 0 0⟩

/-- The items that a close takes: as many as the tail room holds, from the front of the queue (R175). -/
def tailItems (s : State) : List Item := s.queue.take s.settings.tailRoom

/-- The tail items that a close writes, each in its place (R147, R175). -/
def tailWrites (s : State) (id : BatchId) : List HostWrite :=
  (tailItems s).zipIdx.map fun p => ⟨tailAddress s.workBase id p.2, tailItemBytes p.1⟩

/-- The write of the header at a close (R156). -/
def closeHeader (s : State) (id : BatchId) : HostWrite :=
  ⟨headerAddress s.workBase id,
    headerBlock (if s.abandoned then .abandoned else .complete) (s.batch id).taken s.entriesDone (tailItems s).length⟩

/-- The state once the items of a close have left the queue, each delivered (R90, R175). -/
def deliveredAll (s : State) : State := (tailItems s).foldl (fun s it => deliverItem it (popItem s)) s

/-- The state at step 4 of a close whose writes have all succeeded: the batch is FREE and its cause is set (R156). -/
def closedState (s : State) (id : BatchId) : State :=
  (((deliveredAll s).wrote ((tailItems s).length + 1) (tailWrites s id ++ [closeHeader s id])).setBatch id
    ⟨.free, 0⟩).setCause (closedCause id)

/-- The state that a close leaves: the next service or the rest of the engine, a try at origination, and COLLECT when
items wait and both batches are FREE (R156, R173). -/
def afterCloseState (s : State) (id : BatchId) : State :=
  collectAfterClose (tryOriginate (afterClose id (closedState s id)))

/-- The results of the entries that an ABANDON passes over (R154, R160). -/
def skipWrites (s : State) (id : BatchId) : List HostWrite :=
  (List.range' s.nextIndex ((s.batch id).taken - s.nextIndex)).map fun i =>
    ⟨resultAddress s.workBase id i, resultBytes skippedResult⟩

/-- The state once the rest of a batch has its SKIPPED results (R160). -/
def skippedState (s : State) (id : BatchId) : State :=
  { s.wrote (skipWrites s id).length (skipWrites s id) with
    nextIndex := (s.batch id).taken
    abandoned := s.abandoned || s.nextIndex < (s.batch id).taken }

/-! ## Kinds of commands -/

/-- A reset that gives every item its reset value (R206). -/
def isReset (c : Instr) : Bool := c matches .powerOnReset | .pinReset

/-- A command that has its effect while RESETN is low: a reset, or a change of a pin's level. -/
def actsInReset (c : Instr) : Bool :=
  c matches .powerOnReset | .resetnFall | .pinReset | .quiesceAssert .. | .quiesceRelease ..

/-- An event of the Renewal Clock or the Scrubber (R60). -/
def isTimed (c : Instr) : Bool :=
  c matches .scrubStep .. | .periodMark | .periodMarkAtLink .. | .ageLimitReached .. | .retireTimerExpiry ..
    | .restEnd .. | .periodMarkAtRenewalRecord .. | .replyTimerExpiry ..

/-- An entry at the next index of the batch in service (R153). -/
def isEntry (c : Instr) : Bool :=
  c matches .outbound .. | .inbound .. | .enrol .. | .retire .. | .setLink .. | .setProfile .. | .hold .. | .release ..
    | .renewNow .. | .readLink .. | .readFaults .. | .readDevice .. | .badRequest ..

/-! ## Accesses that fail -/

/-- The state at the start of an event whose remaining accesses of host memory all succeed. -/
def State.begun (s : State) (env : Env) : State := beginEvent { env with bus := [] } s

/-- The state with the first `n` items of the queue delivered by a close (R90, R175). -/
def deliveredFirst (n : Nat) (s : State) : State :=
  (s.queue.take n).foldl (fun s it => deliverItem it (popItem s)) s

/-- The header of the service that a close starts, when it starts one (R156). -/
def nextHeader (s : State) (id : BatchId) : List HostWrite :=
  if s.run ∧ (s.batch (otherBatch id)).state = .waiting then
    [startHeader s (otherBatch id) (s.batch (otherBatch id)).taken]
  else []

/-- An entry of batch `id` counted, its batch to be abandoned (R153, R161). -/
def State.faulted (s : State) : State := { s.counted with abandoned := true }

/-- The state once the batch of an entry that ended in BUS_FAULT has been abandoned and closed (R160, R161). -/
def abandonedState (id : BatchId) (own : State) : State := afterCloseState (skippedState own.faulted id) id

/-- How an entry of batch `id` ends in BUS_FAULT: the slots it has changed are written, then its result, the SKIPPED results
of the entries after it, the tail and the ABANDONED header, the header of the next service, and what the close has
changed on the board. Bytes of the writes `torn`, which failed, may have landed (R160, R161; log entries 11, 15). -/
structure EntryAbandoned (id : BatchId) (s t : State) (result : EntryResult) (torn : List HostWrite) (own : State) :
    Prop where
  inner : t.inner = (abandonedState id own).inner
  posted : t.posted = boardWrites s own ++ [resultWrite s id result] ++ skipWrites own.faulted id
    ++ tailWrites own.faulted id ++ [closeHeader (skippedState own.faulted id) id] ++ nextHeader own id
    ++ boardWrites own (abandonedState id own)
  status : (skippedState own.faulted id).abandoned = true
  frame : ∀ x, (∀ w ∈ t.posted, ¬ w.covers x) → (∀ w ∈ torn, ¬ w.covers x) →
    t.hostMem.readByte x = s.hostMem.readByte x

/-- How an event that stops the engine leaves it: RUN clear, the fault stop set, the engine STOPPED and BUS_FAULT active,
with batch `id` still IN_SERVICE (R127, R161). -/
structure FaultStopped (id : BatchId) (t : State) : Prop where
  run : t.run = false
  faultStop : t.faultStop = true
  engine : t.engine = .stopped
  busFault : t.device.busFault = true
  inService : (t.batch id).state = .inService

/-- How an event is stopped by a header or a result that is not written, with batch `id` still IN_SERVICE: the writes
`made` are made, the device's own state becomes `own`, and of no other byte of host memory but those of the failed writes
`torn` does anything change (R161). -/
structure EventStopped (id : BatchId) (s t : State) (made torn : List HostWrite) (own : State) : Prop
    extends FaultStopped id t where
  inner : t.inner = own.inner
  posted : t.posted = made
  frame : ∀ x, (∀ w ∈ made, ¬ w.covers x) → (∀ w ∈ torn, ¬ w.covers x) → t.hostMem.readByte x = s.hostMem.readByte x

/-- How the command `c` of an entry of batch `id` ends whose last access in `envOf c` has failed: in BUS_FAULT, with the rest
of the batch abandoned. When its result is not written the engine stops with the entry not counted; when the SKIPPED
result of a later entry is not written, with the entry counted and its batch to be abandoned (R160, R161). -/
structure EntryBusFault (id : BatchId) (s : State) (c : Instr) (result : EntryResult) (torn : List HostWrite)
    (own : State) : Prop where
  ends : ∃ t, exec c s = .next t ∧ (t.batch id).state = .free ∧ EntryAbandoned id s t result torn own
  resultLost : ∀ landed, ∃ t,
    exec (withBus ((envOf c).bus ++ List.replicate (boardWrites s own).length .done ++ [.error landed]) c) s = .next t ∧
      EventStopped id s t (boardWrites s own) torn (stopOnFault own) ∧ t.nextIndex = s.nextIndex ∧
      t.entriesDone = s.entriesDone
  skippedLost : ∀ j landed, j < (skipWrites own.faulted id).length → ∃ t,
    exec (withBus ((envOf c).bus ++ List.replicate ((boardWrites s own).length + 1 + j) .done ++ [.error landed]) c) s
        = .next t ∧
      EventStopped id s t (boardWrites s own ++ [resultWrite s id result] ++ (skipWrites own.faulted id).take j) torn
        (stopOnFault own.faulted) ∧
      t.nextIndex = s.nextIndex + 1 ∧ t.entriesDone = s.entriesDone + 1

/-- The commands that come to the close of batch `id`: the outcomes `lead` of the accesses made before it, the writes
`made` among them, the state whose slots the board then shows, and the state that the close finds: BATCH_CLOSE (R156), an
ABANDON whose SKIPPED results have been written (R160), and an entry that was not read, once its own result and the
SKIPPED results after it have been written (R161). -/
inductive ComesToClose (id : BatchId) (s : State) :
    Instr → List BusOutcome → List HostWrite → State → State → Prop where
  | close (env : Env) : s.closing? = some id → ComesToClose id s (.batchClose env) [] [] s (s.begun env)
  | abandon (env : Env) : s.engine = .serving → s.inService? = some id →
    ComesToClose id s (.abandon env) (List.replicate (skipWrites s id).length .done) (skipWrites s id) s
      (skippedState (s.begun env) id)
  | entry (c : Instr) (landed : Nat) (own : State) : s.serving? = some id → isEntry c = true →
    own = raiseDevice .busFault (s.begun (envOf c)) →
    ComesToClose id s c
      (.error landed
        :: List.replicate ((boardWrites s own).length + 1 + (skipWrites own.faulted id).length) .done)
      (boardWrites s own ++ [resultWrite s id (.bare .busFault .read)] ++ skipWrites own.faulted id) own
      (skippedState own.faulted id)

/-- The item that reports a device condition raised (R124, R130). -/
def deviceNotice (item : DeviceItem) : Item := .notice ⟨none, .device item, .raised, 0, 0, false⟩

/-! ## Packets that come to a key -/

/-- A header that passes every check of R45 for an entry. -/
def headerGood (h : Header) (e : WorkEntry) : Prop :=
  h.format = 1 ∧ (h.class_ = 1 ∨ h.class_ = 2) ∧ e.inputLength.toNat = 28 + h.bodyLength.toNat ∧ h.flags = 1 ∧
    h.bodyLength.toNat ≤ 1536 ∧ h.sequence ≠ 0 ∧ h.bodyLength.toNat ≤ e.outputRoom.toNat

/-- An INBOUND packet that comes to a key of link `k`: its header passes, its branch is the link's, its class and
generation agree, key selection finds the key, and its sequence passes the key's window (R45 to R49). -/
def InboundAtKey (s : State) (e : WorkEntry) (input : List Byte) (k : Slot) (choice : KeyChoice) : Prop :=
  let h := parseHeader input
  headerGood h e ∧ lookupBranch s.branchMap h.branch.toNat = some k ∧ (s.link k).state ≠ .quarantined ∧
    (h.class_ = 2 ↔ h.generation.toNat = 0) ∧ selectKey (s.link k) h.generation.toNat = .key choice ∧
    windowTest ((s.link k).windowOf choice) h.sequence.toNat = .passes

/-- What a packet deciphers to under a key of link `k`; none is a tag failure (R31, R33, R50). The order of the bytes of
its tag is log entry 18. -/
def inboundText (s : State) (input : List Byte) (k : Slot) (choice : KeyChoice) : Option (List Byte) :=
  let h := parseHeader input
  let len := h.bodyLength.toNat
  Config.cipher.decipher ((s.link k).keyOf choice).1
    (((s.link k).keyOf choice).2 ++ (h.flags &&& 1) ++ h.generation ++ h.sequence) h (bytesAt input 12 len)
    (BitVec.ofNat 128 (ofLe (bytesAt input (12 + len) 16)))

/-- A reply that answers the attempt a renewal record waits on (R95 tests 2 to 4, R98). -/
def ReplyMatches (r : RenewalRecord) (generation : Nat) (nonce : AttemptNonce) : Prop :=
  r.state = .waitingReply ∧ r.generation = generation ∧ r.nonce = nonce

/-- An accept that a renewal record takes: it answers the attempt, and it proves the new key (R95). -/
def AcceptMatches (r : RenewalRecord) (generation : Nat) (nonce : AttemptNonce) (proof : Proof) : Prop :=
  ReplyMatches r generation nonce ∧ Config.cipher.proof r.key r.nonce (BitVec.ofNat 8 r.generation) = proof

/-! ## Invariants of the records -/

/-- The fault settings of a rate kind lie in their ranges (R23). -/
structure RateSettings.inRange (r : RateSettings) : Prop where
  weight : 1 ≤ r.weight ∧ r.weight ≤ 255
  decay : r.decay ≤ 255
  raiseLevel : 1 ≤ r.raiseLevel ∧ r.raiseLevel ≤ 65535
  clearLevel : r.clearLevel < r.raiseLevel

/-- The fields of a profile lie in their ranges (R22, R23). -/
structure Profile.inRange (p : Profile) : Prop where
  budget : 1024 ≤ p.budget ∧ p.budget ≤ 4294967295
  ageLimit : 16 ≤ p.ageLimit ∧ p.ageLimit ≤ 16777215
  lead : 1 ≤ p.lead ∧ p.lead ≤ 65535
  replyWait : 1 ≤ p.replyWait ∧ p.replyWait ≤ 255
  attempts : 1 ≤ p.attempts ∧ p.attempts ≤ 15
  restTime : 1 ≤ p.restTime ∧ p.restTime ≤ 65535
  retireTime : 1 ≤ p.retireTime ∧ p.retireTime ≤ 255
  silenceLimit : p.silenceLimit ≤ 65535
  rates : ∀ r : RateKind, (p.rate r).inRange

/-- An IN_USE key slot has U below B − 97 and age below A (R7). -/
def KeySlot.belowLimits (k : KeySlot) : Prop := k.state = .inUse → k.use + 97 < k.budget ∧ k.age < k.ageLimit

/-- Every valid profile is in range (R22, R23), and every IN_USE key slot is below its limits (R7). -/
def State.limitsOk (s : State) : Prop :=
  (∀ p : ProfileNumber, s.profiles[p].valid = true → s.profiles[p].inRange) ∧
    ∀ k, (s.link k).current.belowLimits ∧ (s.link k).retiring.belowLimits

/-- The Branch Map holds one triple for each non-VACANT link, with the range of its record, and its ranges rise and share
no branch number (R26, R28). -/
structure State.MapOk (s : State) : Prop where
  slots : (s.branchMap.map Triple.slot).Nodup
  rising : s.branchMap.Pairwise fun t u => t.last < u.first
  ranges : ∀ t ∈ s.branchMap, t.first ≤ t.last ∧ t.last < 65535
  enrolled : ∀ k, (s.link k).state ≠ .vacant → ∃ t ∈ s.branchMap, t.slot = k
  agrees : ∀ t ∈ s.branchMap,
    (s.link t.slot).state ≠ .vacant ∧ (s.link t.slot).first = t.first ∧ (s.link t.slot).last = t.last

/-- The stored check code of every enrolled link is the check of its covered fields (R20, R136). -/
def State.codesOk (s : State) : Prop := ∀ k, (s.link k).state ≠ .vacant → (s.link k).checkCode = freshCode (s.link k)

end Sys2Proof.Machine
end

