-- ==== Sys2Proof/Certificates/Slice0/Obligations.lean ====
section
/-! DEFINITION. The statements for the provers. Each docstring names the rule or the section of spec/ that the statement formalises, or the log entry it rests on. A statement of how a command completes holds for every state that meets its hypotheses, reached or not. Where one is made of EventDone, EntryDone, EntryAbandoned, EntryBusFault or EventStopped, the place of the board writes among the writes of one event, and their order, is log entry 15. -/

open Sys2Proof Sys2Proof.Machine

/-! ## The machine as a whole -/

/-- A step takes the command at the front of the queue and runs it on the state with the rest of the queue. -/
def Obligations.StepRunsFrontCommand : Prop :=
  ∀ (c : Instr) (rest : List Instr) (s : State), s.pending = c :: rest → step s = exec c { s with pending := rest }

/-- With no command waiting, one millisecond of the timebase passes once start-up has ended, and nothing before (R60,
R62; that it is the empty queue's step, that its scrub step comes before its mark, and the order in which the mark
reaches the records, is log entry 6). The command PERIOD_MARK is the issue of a mark alone: it returns the period phase
to 0 and changes nothing else (R62; that the issue stands alone is log entry 7). While the engine is STARTING the
Renewal Clock issues nothing, so no timed event changes anything (R60; that such a command changes nothing is log entry
5). The order of the board writes is log entry 15. An issued mark is, at each of the 512 link slots ascending and then
at each of the 16 renewal records ascending, the event of its arrival there, with its own board writes (R62, R63, R92);
and each of these events is what its own command does. What begins and ends an event, and what a board write after it
adds where every access succeeds, is spelled out (R132). -/
def Obligations.TheTimebasePasses : Prop :=
  (∀ s : State, s.pending = [] →
     (s.timebaseRuns = false → step s = .next s) ∧
       (s.timebaseRuns = true → s.phase + 1 < s.settings.period →
         ∃ t, step s = .next t ∧ EventDone s t [] (setPhase (s.phase + 1) (scrub (beginEvent .plain s)))) ∧
       (s.timebaseRuns = true → s.settings.period ≤ s.phase + 1 →
         ∃ t, step s = .next t ∧ t.phase = 0 ∧
           t = endEvent (markEverywhere (setPhase 0 (withBoard scrub (beginEvent .plain s)))))) ∧
  (∀ s : State, s.resetn = true →
     (s.engine ≠ .starting → ∃ t, exec .periodMark s = .next t ∧ SilentDone s t { s with phase := 0 }) ∧
       (s.engine = .starting → ∀ c : Instr, isTimed c = true → ∃ t, exec c s = .next t ∧ SilentDone s t s)) ∧
  (∀ (env : Env) (s t : State),
     (s.timebaseRuns = true ↔ s.resetn = true ∧ s.engine ≠ .starting) ∧
       beginEvent env s = { s with bus := env.bus, noise := env.noise, posted := [] } ∧
       endEvent s = { s with bus := [], noise := [] } ∧ (∀ n, setPhase n s = { s with phase := n }) ∧
       (∀ body, withBoard body s = flushBoard s (body s)) ∧
       ((∀ o ∈ t.bus, o = .done) → flushBoard s t = t.wrote (boardWrites s t).length (boardWrites s t))) ∧
  (∀ s : State,
     let marked := (List.finRange 512).foldl (fun u k => flushBoard u (markLink k u)) s
     markEverywhere s = (List.finRange 16).foldl (fun u n => flushBoard u (markRecord n u)) marked) ∧
  (∀ (env : Env) (s : State) (k : Slot) (n : RecordNumber), s.timebaseRuns = true →
     let begun := beginEvent env s
     let event (c : Instr) (part : State → State) := exec c s = .next (endEvent (flushBoard begun (part begun)))
     event (.scrubStep env) scrub ∧ event (.periodMarkAtLink k env) (markLink k) ∧
       event (.periodMarkAtRenewalRecord n env) (markRecord n))

/-- Every command has an effect in every state; it leaves the command queue alone, and what the outside decides within an
event does not outlast it. While RESETN is low no command but a reset or a pin level changes anything: the model's
reading of R206, log entry 9. -/
def Obligations.EveryCommandCompletes : Prop :=
  (∀ (c : Instr) (s : State), ∃ t, exec c s = .next t ∧ t.pending = s.pending ∧
     (s.bus = [] → s.noise = [] → t.bus = [] ∧ t.noise = [])) ∧
  (∀ (c : Instr) (s : State), s.resetn = false → actsInReset c = false → exec c s = .next s)

/-- Each register, setting, base and table changes only under the commands that the spec names for it (R21, R26, R61, R62,
R131, R137, R147, R150, R202, R205, R206, R208). That a CONTROL write is one event, taken whole by the command of its mask
part, so that this command is a writer of what RUN, ABANDON and RESTART write, is log entry 8. The level of RESETN changes
under its own commands, and where RESETN falls within a command (log entry 9). -/
def Obligations.EachFieldHasItsWriters : Prop :=
  ∀ (c : Instr) (s t : State), exec c s = .next t →
    t.oneTimeStore = s.oneTimeStore ∧
      (!(c matches .resetnFall | .pinReset) → (∀ landed, .fall landed ∉ (envOf c).bus) → t.resetn = s.resetn) ∧
      (!(c matches .quiesceAssert .. | .quiesceRelease ..) → t.quiescePin = s.quiescePin) ∧
      (isReset c = false →
        (!(c matches .startUp ..) → t.settings = s.settings ∧ t.masterKey = s.masterKey) ∧
          (!(c matches .startUp .. | .quiesceAssert .. | .quiesceRelease ..) → t.quiesce = s.quiesce) ∧
          (!(c matches .noticeEnableMaskWrite ..) → t.mask = s.mask) ∧
          (!(c matches .workBaseWrite ..) → t.workBase = s.workBase) ∧
          (!(c matches .runSet .. | .noticeEnableMaskWrite ..) → t.boardBase = s.boardBase) ∧
          (!(c matches .scrubStep ..) → t.walkPosition = s.walkPosition) ∧
          (!(c matches .startUp .. | .periodMark | .restart .. | .noticeEnableMaskWrite ..) → t.phase = s.phase) ∧
          (!(c matches .setProfile ..) → t.profiles = s.profiles) ∧
          (!(c matches .enrol .. | .retire .. | .setLink ..) → t.branchMap = s.branchMap) ∧
          (!(c matches .handover .. | .restart .. | .noticeEnableMaskWrite ..) → t.clamped = s.clamped))

/-- When every access of host memory succeeds, host memory after a command is what the writes that the command posts
make of it, and no other byte changes; and every board slot that a command changes has been written, within that
command, with the bytes it shows after it (R132, R133, R134, R154). Where the 513 slots stand and what each shows (R147,
11.5): a VACANT link's slot is all zero, and every reserved byte is zero (R213). That an address past the last one goes
on at 0 is log entry 20. Each byte of the last write stands in host memory where that write put it, and every other byte
is as the writes before it left it. -/
def Obligations.HostMemoryAndBoardKeepUp : Prop :=
  (∀ (m : Memory) (ws : List HostWrite) (w : HostWrite),
     let all := applyWrites m (ws ++ [w])
     (w.bytes.length ≤ 2 ^ 64 → ∀ i, i < w.bytes.length →
       all.readByte (w.address + BitVec.ofNat 64 i).toNat = w.bytes[i]?) ∧
       ∀ x, ¬ w.covers x → all.readByte x = (applyWrites m ws).readByte x) ∧
  (∀ (c : Instr) (s t : State), s.resetn = true → cleanEnv (envOf c) → exec c s = .next t →
     (t.hostMem = applyWrites s.hostMem t.posted ∧
       ∀ x, (∀ w ∈ t.posted, ¬ w.covers x) → t.hostMem.readByte x = s.hostMem.readByte x) ∧
       boardShown s t) ∧
  (∀ (base : Address) (k : Nat), boardSlotAddress base k = base + BitVec.ofNat 64 (16384 + 32 * k)) ∧
  (∀ (s : State) (k : Slot),
     let l := s.link k
     let at_ (offset size value : Nat) := bytesAt (linkSlotBytes s k) offset size = leBytes size value
     let bit (offset i : Nat) := (ofLe (bytesAt (linkSlotBytes s k) offset 2)).testBit i
     (l.state = .vacant → linkSlotBytes s k = List.replicate 32 0) ∧
       (l.state ≠ .vacant →
         (linkSlotBytes s k).length = 32 ∧
           at_ 0 1 l.state.code ∧ at_ 1 1 ((if l.hostHold then 1 else 0) + (if l.supervisorHold then 2 else 0)) ∧
           at_ 2 1 l.renewal.code ∧ (s.recordOf k = none → at_ 3 1 0) ∧
           (∀ n, s.recordOf k = some n → at_ 3 1 s.records[n].attempt) ∧
           at_ 4 1 l.current.generation ∧ at_ 5 1 l.retiring.generation ∧ at_ 6 1 l.profile.val ∧ at_ 7 1 0 ∧
           (∀ i : Fin 9, bit 8 i = l.kinds[i].active ∧ bit 10 i = l.kinds[i].overflow ∧
             at_ (14 + 2 * i) 2 l.kinds[i].counter) ∧
           (∀ i, 9 ≤ i → bit 8 i = false ∧ bit 10 i = false) ∧
           (l.shopCodes = [] → at_ 12 2 0) ∧ ∀ c, l.shopCodes.head? = some c → at_ 12 2 c.code)) ∧
  (∀ s : State,
     let at_ (offset size value : Nat) := bytesAt (deviceSlotBytes s) offset size = leBytes size value
     let flag (i : Nat) := (ofLe (bytesAt (deviceSlotBytes s) 0 1)).testBit i
     (deviceSlotBytes s).length = 32 ∧ at_ 0 1 s.deviceFlags ∧
       flag 0 = s.device.settingsDefaulted ∧ flag 1 = s.device.noMaster ∧ flag 2 = s.device.randomFault ∧
       flag 3 = s.device.busFault ∧ flag 4 = s.device.noticesDropped ∧ flag 5 = s.device.unknownBranchOverflow ∧
       flag 6 = s.quiesce ∧ flag 7 = s.device.randomFault ∧ at_ 1 1 0 ∧
       at_ 2 1 (allRecordNumbers.filter fun n => s.records[n].state ≠ .free).length ∧ at_ 3 1 s.queue.length ∧
       at_ 4 2 (s.dueList.urgent.length + s.dueList.ordinary.length) ∧ at_ 6 2 s.device.unknownBranchCount ∧
       at_ 8 24 0)

/-- A fall of RESETN within a command: the accesses of host memory that were issued before it stand, and none is made after
it; the writes made are the first of those the whole command makes, and the device is held in reset (R206). Of the write
that the fall meets, bytes may have been issued when it is of an output buffer (`landed`; log entry 9). Where the command
makes no access that late, it is taken whole. The values that the reset after it gives where the spec gives none are log
entry 2. -/
def Obligations.ResetnFallEndsTheAccesses : Prop :=
  ∀ (c : Instr) (s t : State) (n landed : Nat), s.resetn = true → cleanEnv (envOf c) → exec c s = .next t →
    ∃ u, exec (withBus (List.replicate n .done ++ [.fall landed]) c) s = .next u ∧
      u.posted <+: t.posted ∧ u.posted.length ≤ n ∧ (u.resetn = false ∨ u = t) ∧
      (landed = 0 → u.hostMem = applyWrites s.hostMem u.posted) ∧
      (∀ x, (∀ w ∈ t.posted, ¬ w.covers x) → u.hostMem.readByte x = s.hostMem.readByte x) ∧
      exec .pinReset u = .next
        { State.reset with
          resetn := true, quiescePin := t.quiescePin, oneTimeStore := s.oneTimeStore, hostMem := u.hostMem,
          drawCount := u.drawCount, pending := s.pending }

/-! ## Replay windows -/

/-- The test of a window by the table of R37, and what an accepted sequence does to H and the map (R38). A window accepts
each sequence at most once over any run of packets (R38). -/
def Obligations.WindowsAcceptEachSequenceOnce : Prop :=
  (∀ (w : Window) (q : Nat),
     (w.high < q → windowTest w q = .passes) ∧
       (q ≤ w.high → w.high < q + 64 → w.marked q → windowTest w q = .replayed) ∧
       (q ≤ w.high → w.high < q + 64 → ¬ w.marked q → windowTest w q = .passes) ∧
       (q + 64 ≤ w.high → windowTest w q = .tooOld) ∧
       (w.high < 64 → 1 ≤ q → windowTest w q ≠ .tooOld) ∧
       (windowTest w q = .passes →
         (windowAdvance w q).high = max w.high q ∧
           ∀ x, (windowAdvance w q).marked x ↔ x = q ∨ (w.marked x ∧ max w.high q < x + 64))) ∧
  (∀ (w : Window) (qs : List Nat),
     (acceptedBy w qs).Nodup ∧ ∀ q ∈ acceptedBy w qs, q ∈ qs ∧ windowTest w q = .passes)

/-- What binds a packet, a wrapped form and a proof, for the free functions of the Cipher Unit. A packet that comes to a
key fails its tag when its body and tag are another header's encipherment, and when its tag, or one byte of its
ciphertext, is another than its encipherment gave (R32, R33). Of keys and salts in use, a packet made under another
fails, a form wrapped under another key does not unwrap, and a proof made under another key is not taken (R33, R34, R35;
that this holds of the keys and salts in use is log entry 10). Under one key a proof for another attempt or generation
is not taken (R35). The nonce of a packet is salt, direction, generation and sequence (R31). That the word of a tag and
the bytes of a packet answer each other in this order is log entry 18. -/
def Obligations.CipherBindsKeyAndText : Prop :=
  (∀ (key : Key) (salt : Salt) (h : Header) (p : List Byte),
     encipher key salt h p = Config.cipher.encipher key (salt ++ (h.flags &&& 1) ++ h.generation ++ h.sequence) h p) ∧
  (∀ (s : State) (input : List Byte) (k : Slot) (choice : KeyChoice),
     let h := parseHeader input
     let key := ((s.link k).keyOf choice).1
     let salt := ((s.link k).keyOf choice).2
     let body := bytesAt input 12 h.bodyLength.toNat
     let tag : Tag := BitVec.ofNat 128 (ofLe (bytesAt input (12 + h.bodyLength.toNat) 16))
     let fails := inboundText s input k choice = none
     (∀ (x : Salt) (g : Header) (p : List Byte), encipher key x g p = (body, tag) → g ≠ h → fails) ∧
       (∀ (p : List Byte) (t : Tag), encipher key salt h p = (body, t) → tag ≠ t → fails) ∧
       (∀ (p c : List Byte) (i : Nat) (b : Byte), encipher key salt h p = (c, tag) → body = c.set i b → body ≠ c →
         fails) ∧
       ∀ (key' : Key) (x : Salt) (g : Header) (p : List Byte), Config.cipher.keyInUse key → Config.cipher.keyInUse key' →
         Config.cipher.saltInUse salt → Config.cipher.saltInUse x → encipher key' x g p = (body, tag) →
         key' ≠ key ∨ x ≠ salt → fails) ∧
  (∀ (w k : Key) (x : Salt), Config.cipher.unwrap w (Config.cipher.wrap w k x) = some (k, x) ∧
     ∀ w' : Key, w' ≠ w → Config.cipher.keyInUse w → Config.cipher.keyInUse w' →
       Config.cipher.unwrap w' (Config.cipher.wrap w k x) = none) ∧
  (∀ (s : State) (k : Slot) (n : RecordNumber) (key : Key) (nonce : AttemptNonce) (g : Nat) (named : AttemptNonce)
     (made : Byte), s.recordOf k = some n →
     let r := s.records[n]
     key = r.key ∧ (nonce ≠ r.nonce ∨ made ≠ BitVec.ofNat 8 r.generation) ∨
       key ≠ r.key ∧ Config.cipher.keyInUse key ∧ Config.cipher.keyInUse r.key →
     takeAccept k g named (Config.cipher.proof key nonce made) s = (false, s))

/-! ## Invariants -/

/-- The state after reset meets every invariant below. -/
def Obligations.ResetMeetsTheInvariants : Prop :=
  State.reset.tablesOk ∧ queueOk State.reset.queue ∧ State.reset.workBaseOk ∧ State.reset.engineOk ∧
    State.reset.keysAgree ∧ State.reset.rooted ∧ State.reset.keySpentOk ∧ State.reset.TurnoverOk ∧
    State.reset.limitsOk ∧ State.reset.MapOk ∧ State.reset.codesOk

/-- Host memory and the link records keep their canonical forms. A link record written is the one read at its slot, and
no other record and no other part of the state changes. -/
def Obligations.TablesStayCanonical : Prop :=
  (∀ s t : State, s.tablesOk → step s = .next t → t.tablesOk) ∧
  (∀ (s : State) (k j : Slot) (l : Link) (f : Link → Link),
     let t := s.setLink k l
     t.link j = (if j = k then l else s.link j) ∧ t = { s with links := t.links } ∧
       s.modLink k f = s.setLink k (f (s.link k)))

/-- The Origination Queue holds at most 32 items, at most 24 of them notices, and at most one notice waits for any pair of
link or device and kind (R167). -/
def Obligations.QueueKeepsItsLimits : Prop :=
  ∀ s t : State, queueOk s.queue → step s = .next t → queueOk t.queue

/-- The engine state follows the batches, RUN and the fault stop; at most one batch is IN_SERVICE; first waiting names a
WAITING batch whenever there is one; entries taken stay within 0 to 64 (R148); and the work base stays a multiple of
4,096 (R147). -/
def Obligations.EngineFollowsTheBatches : Prop :=
  ∀ s t : State, s.engineOk → s.workBaseOk → step s = .next t → t.engineOk ∧ t.workBaseOk

/-- The key slots of every link agree with its state (R9); an EMPTY slot holds zero (R6), a SPENT slot no key (R12), and
a VACANT or QUARANTINED link no root key (R14, R15), while a STANDBY, LIVE or STALLED link holds one (R9). KEY_SPENT is
active exactly while the link is STALLED (R112). -/
def Obligations.KeysAgreeWithLinkStates : Prop :=
  (∀ s t : State, s.keysAgree → step s = .next t → t.keysAgree) ∧
    (∀ s t : State, s.keysAgree → s.MapOk → s.rooted → step s = .next t → t.rooted) ∧
    ∀ s t : State, s.keySpentOk → step s = .next t → t.keySpentOk

/-- The renewal state of every link mirrors the Due List and the renewal records (R78, R79, R84), and the send order and
the queued offers mirror the records (R85, R169). -/
def Obligations.TurnoverStaysMirrored : Prop :=
  ∀ s t : State, s.TurnoverOk → step s = .next t → t.TurnoverOk

/-- Every IN_USE key slot has U below B − 97 and age below A (R7), and the profiles stay within their ranges (R22,
R23). -/
def Obligations.KeysStayBelowTheirLimits : Prop :=
  ∀ s t : State, s.limitsOk → step s = .next t → t.limitsOk

/-- The Branch Map keeps one triple for each non-VACANT link, with the range of its record, in ascending order and with no
branch number shared (R26, R28, R29), while the keys of every link agree with its state (R9). -/
def Obligations.BranchMapMatchesTheRecords : Prop :=
  ∀ s t : State, s.MapOk → s.keysAgree → step s = .next t → t.MapOk

/-- The stored check code of every enrolled link stays the check of its covered fields, so a scrub step finds no mismatch
that the device itself made (R20, R136), while keys and states agree (R9) and the Branch Map names no VACANT slot
(R26). What the check of a string is, and the 119 bytes of the covered string, each field at its offset (R135, 11.6; the
stored byte order of a key and a salt is log entry 18): a change within 32 consecutive bits, in the order in which the
check takes them, gives another check, and a VACANT record's code 0 is not the check of its fields (R135). -/
def Obligations.CheckCodesStayTrue : Prop :=
  (∀ s t : State, s.codesOk → s.keysAgree → s.MapOk → step s = .next t → t.codesOk) ∧
  (∃ register : List Bool → BitVec 32,
     register [] = 0xFFFFFFFF ∧
       (∀ bits b, register (bits ++ [b]) =
         if (register bits).msb = b then register bits <<< 1 else (register bits <<< 1) ^^^ 0x04C11DB7) ∧
       ∀ bs : List Byte,
         crc32 bs = ~~~(register (bs.flatMap fun v => (List.range 8).map fun i => v.getLsbD i)).reverse) ∧
  (∀ (l m : Link) (before old new after : List Bool),
     crcInput (coveredString l) = before ++ old ++ after → crcInput (coveredString m) = before ++ new ++ after →
     old.length = new.length → new.length ≤ 32 → old ≠ new → freshCode l ≠ freshCode m) ∧
  (∀ l : Link,
     let at_ (offset size value : Nat) := bytesAt (coveredString l) offset size = leBytes size value
     freshCode l = crc32 (coveredString l) ∧ (coveredString l).length = 119 ∧ at_ 0 32 l.rootKey.toNat ∧
       at_ 32 1 l.current.generation ∧ at_ 33 32 l.current.key.toNat ∧ at_ 65 8 l.current.salt.toNat ∧
       at_ 73 1 l.retiring.generation ∧ at_ 74 32 l.retiring.key.toNat ∧ at_ 106 8 l.retiring.salt.toNat ∧
       at_ 114 2 l.first ∧ at_ 116 2 l.last ∧ at_ 118 1 l.profile.val) ∧
  (Link.vacant.checkCode = 0 ∧ freshCode .vacant ≠ 0)

/-! ## Resets, start-up, RESTART and the pins -/

/-- A reset gives every item of the device its reset value (R206). That the pins, the one-time store, host memory and the
command queue stay, that the values come at the rise of RESETN, that a PIN_RESET needs no fall before it, and that
RESETN_FALL sets the level alone, is log entry 9. What reset leaves: every link VACANT and zero, every profile invalid,
empty lists, no board base, no last draw, the phase and the walk position 0, and the registers as R201 gives them (R5,
R21, R26, R62, R79, R84, R85, R129, R131, R137, R148, R167; the values that the spec does not give are log entry 2). -/
def Obligations.ResetsGiveResetValues : Prop :=
  (∀ s : State,
     exec .powerOnReset s = .next
         { State.reset with
           resetn := s.resetn, quiescePin := s.quiescePin, oneTimeStore := s.oneTimeStore, hostMem := s.hostMem,
           drawCount := s.drawCount, pending := s.pending } ∧
       exec .pinReset s = .next
         { State.reset with
           resetn := true, quiescePin := s.quiescePin, oneTimeStore := s.oneTimeStore, hostMem := s.hostMem,
           drawCount := s.drawCount, pending := s.pending } ∧
       exec .resetnFall s = .next { s with resetn := false, posted := [] }) ∧
  ((∀ k, State.reset.link k = .vacant) ∧ (∀ p : ProfileNumber, State.reset.profiles[p] = .invalid) ∧
     (∀ n : RecordNumber, State.reset.records[n] = .free) ∧ State.reset.branchMap = [] ∧
     State.reset.dueList = ⟨[], []⟩ ∧ State.reset.sendOrder = [] ∧ State.reset.queue = [] ∧
     State.reset.boardBase = none ∧ State.reset.lastDraw = none ∧ State.reset.phase = 0 ∧
     State.reset.walkPosition = 0 ∧ State.reset.engine = .starting ∧ State.reset.bothFree = true ∧
     State.reset.faultStop = false ∧ State.reset.noticePin = .released ∧
     State.reset.readRegister .ident = 0x05120100 ∧ State.reset.readRegister .control = 0 ∧
     State.reset.readRegister .status = 0 ∧ State.reset.readRegister .notice = 0 ∧
     State.reset.readRegister .workBaseLo = 0 ∧ State.reset.readRegister .workBaseHi = 0 ∧
     State.reset.readRegister .handA = 0 ∧ State.reset.readRegister .handB = 0)

/-- Start-up from the state a reset leaves: the settings block judged, the master key read, the Random Source tested by
two draws, and the engine STOPPED with the QUIESCE level taken; each condition found is raised with its notice (R124,
R126, R129, R208, R209). A block is good when the code it stores at byte 60 is the check of its first 60 bytes, and
neither 0x00000000 nor 0xFFFFFFFF (R207); a good one gives its period clamped into 100 to 60,000, its tail room, 32 at
most, and the drive and polarity of its bytes 5 and 6, and one that is not good the defaults (R61, R174, R208, 11.7). -/
def Obligations.StartUpEndsStopped : Prop :=
  (∀ block : List Byte,
     let field (offset size : Nat) := ofLe (bytesAt block offset size)
     let v := settingsOf block
     (settingsGood block = true ↔
       field 60 4 = (crc32 (bytesAt block 0 60)).toNat ∧ field 60 4 ≠ 0x00000000 ∧ field 60 4 ≠ 0xFFFFFFFF) ∧
       (field 0 4 < 100 → v.period = 100) ∧ (60000 < field 0 4 → v.period = 60000) ∧
       (100 ≤ field 0 4 → field 0 4 ≤ 60000 → v.period = field 0 4) ∧
       (field 4 1 ≤ 32 → v.tailRoom = field 4 1) ∧ (32 < field 4 1 → v.tailRoom = 32) ∧
       (field 5 1 = 1 → v.drive = .pushPull) ∧ (field 5 1 ≠ 1 → v.drive = .openDrain) ∧
       (field 6 1 = 1 → v.polarity = .activeHigh) ∧ (field 6 1 ≠ 1 → v.polarity = .activeLow) ∧ v.source = .block ∧
       Settings.defaults = ⟨1000, 16, .openDrain, .activeLow, .defaults⟩) ∧
  ∀ (block : List Byte) (d0 d1 : Draw) (rest : List Draw) (env : Env) (s : State),
    s.resetn = true → s.engine = .starting → s.bothFree = true → s.boardBase = none → s.queue = [] →
    s.device = ⟨0, false, false, false, false, false, false⟩ → env.noise = d0 :: d1 :: rest →
    let good := settingsGood block
    let blank := decide (s.oneTimeStore = 0)
    let failed := decide (d0 = d1)
    ∃ t, exec (.startUp block env) s = .next t ∧
      SilentDone s t
        { s with
          settings := if good then settingsOf block else .defaults
          masterKey := s.oneTimeStore
          engine := .stopped
          phase := 0
          quiesce := s.quiescePin
          lastDraw := some d1
          device := ⟨0, false, !good, blank, failed, false, false⟩
          queue := (if good then [] else [deviceNotice .settingsDefaulted])
            ++ (if blank then [deviceNotice .noMaster] else [])
            ++ (if failed then [deviceNotice .randomFault] else [])
          causes := if !good || blank || failed then s.causes ||| Cause.collect.bit ||| Cause.faultRaised.bit
            else s.causes }

/-- RESTART keeps the links and what start-up took, ends every exchange and every batch, empties the queue, restarts the
period and tests the Random Source; with a board base, all 513 slots are written after it (R8, R62, R105, R131, R163,
R179, R202, R210). While the engine is STARTING it is ignored with CLASH.
The order of the board writes is log entry 15. -/
def Obligations.RestartKeepsTheLinks : Prop :=
  ∀ (d0 d1 : Draw) (rest : List Draw) (env : Env) (s : State), s.resetn = true → cleanEnv env →
    env.noise = d0 :: d1 :: rest →
    (s.engine = .starting → ∃ t, exec (.restart env) s = .next t ∧ SilentDone s t (s.setCause .clash)) ∧
      (s.engine ≠ .starting →
        ∃ t, exec (.restart env) s = .next t ∧
          (∀ k, t.link k = if (s.link k).state = .vacant then s.link k
            else { s.link k with renewal := .idle, restTimer := 0 }) ∧
          t.inner =
            { s.inner with
              links := t.links
              queue := if d0 = d1 then [deviceNotice .randomFault] else []
              causes := if d0 = d1 then Cause.collect.bit ||| Cause.faultRaised.bit else 0
              batchA := ⟨.free, 0⟩
              batchB := ⟨.free, 0⟩
              firstWaiting := none
              nextIndex := 0
              entriesDone := 0
              faultStop := false
              abandoned := false
              run := false
              engine := .stopped
              clamped := false
              dueList := ⟨[], []⟩
              records := .replicate 16 .free
              sendOrder := []
              phase := 0
              device := { s.device with busFault := false, randomFault := d0 = d1 }
              lastDraw := some d1 } ∧
          t.posted = fullWrites t ∧ t.hostMem = applyWrites s.hostMem t.posted)

/-- QUIESCE going high, and going low with a try at origination, are taken from the end of start-up on; before it the pin's
level alone changes (R89, R205). That a release while QUIESCE is not taken changes the pin's level alone is log entry 5,
and that the level changes so while RESETN is low is log entry 9. The order of the board writes is log entry 15. -/
def Obligations.QuiesceEdges : Prop :=
  (∀ (env : Env) (s : State),
     (s.resetn = true → s.engine ≠ .starting → cleanEnv env →
       ∃ t, exec (.quiesceAssert env) s = .next t ∧ EventDone s t [] { s with quiescePin := true, quiesce := true }) ∧
       (s.resetn = true → s.engine = .starting →
         ∃ t, exec (.quiesceAssert env) s = .next t ∧ SilentDone s t { s with quiescePin := true }) ∧
       (s.resetn = false → exec (.quiesceAssert env) s = .next { s with quiescePin := true })) ∧
  (∀ (env : Env) (s : State),
     (s.resetn = true → s.engine ≠ .starting → s.quiesce = true → cleanEnv env →
       ∃ t, exec (.quiesceRelease env) s = .next t ∧
         EventDone s t [] (tryOriginate { beginEvent env s with quiescePin := false, quiesce := false })) ∧
       (s.resetn = true → s.engine = .starting ∨ s.quiesce = false →
         ∃ t, exec (.quiesceRelease env) s = .next t ∧ SilentDone s t { s with quiescePin := false }) ∧
       (s.resetn = false → exec (.quiesceRelease env) s = .next { s with quiescePin := false }))

/-! ## The register window -/

/-- Where each register stands and what it reads as (R201, 11.8); while RESETN is low no read is answered (log entry
27). The NOTICE pin is released while RESETN is low or the engine is STARTING, and otherwise follows the enabled causes
under the drive and polarity of the settings (R204). Each cause has its bit of NOTICE, and setting it leaves the others
(R203, 11.8). A CONTROL write, taken by the command of its mask part (log entry 8), is one event: a RESTART when that
part is 1, and otherwise the mask, then ABANDON, then RUN where the written value differs from RUN as it stands; one
whose ABANDON part is 0 and whose RUN part is as RUN stands touches the mask alone (R202). A NOTICE write clears the
causes written as 1 (R203), and a write to IDENT or STATUS nothing (R201). A write to a work base register takes its
half while both batches are FREE, the low 12 bits of the base staying 0, and is ignored with CLASH otherwise (R147).
ABANDON and RUN within a CONTROL write do what the commands ABANDON and RUN_SET do (R202). -/
def Obligations.TheRegisterWindow : Prop :=
  (∀ (env : Env) (s : State), s.resetn = true →
     let begun := beginEvent env s
     exec (.abandon env) s = .next (endEvent (flushBoard begun (takeAbandon begun))) ∧
       exec (.runSet env) s = .next (endEvent (setRun begun))) ∧
  (∀ s : State,
     s.readRegister .ident = 0x05120100 ∧
       (s.readRegister .control).getLsbD 0 = s.run ∧ (s.readRegister .control).extractLsb' 8 5 = s.mask ∧
       (s.readRegister .control).extractLsb' 1 7 = 0 ∧ (s.readRegister .control).extractLsb' 13 19 = 0 ∧
       (s.readRegister .status).extractLsb' 0 2 = BitVec.ofNat 2 s.engine.code ∧
       (s.readRegister .status).extractLsb' 2 2 = BitVec.ofNat 2 s.batchA.state.code ∧
       (s.readRegister .status).extractLsb' 4 2 = BitVec.ofNat 2 s.batchB.state.code ∧
       (s.readRegister .status).getLsbD 6 = s.clamped ∧
       (s.readRegister .status).getLsbD 7 = decide (s.settings.source = .block) ∧
       (s.readRegister .status).extractLsb' 8 24 = 0 ∧
       (s.readRegister .notice).extractLsb' 0 5 = s.causes ∧ (s.readRegister .notice).extractLsb' 5 27 = 0 ∧
       s.readRegister .workBaseHi ++ s.readRegister .workBaseLo = s.workBase ∧
       (s.batchA.state = .free → s.readRegister .handA = 0) ∧ (s.batchB.state = .free → s.readRegister .handB = 0) ∧
       (s.batchA.state ≠ .free → s.readRegister .handA = BitVec.ofNat 32 s.batchA.taken) ∧
       (s.batchB.state ≠ .free → s.readRegister .handB = BitVec.ofNat 32 s.batchB.taken)) ∧
  (∀ (s : State) (c : Cause),
     [Cause.batchAClosed, .batchBClosed, .collect, .clash, .faultRaised].map Cause.bit = [0x01, 0x02, 0x04, 0x08, 0x10] ∧
       s.setCause c = { s with causes := s.causes ||| c.bit } ∧ (s.hasCause c = true ↔ s.causes &&& c.bit ≠ 0)) ∧
  (∀ s : State,
     (s.resetn = false ∨ s.engine = .starting → s.noticePin = .released) ∧
       (s.resetn = true → s.engine ≠ .starting →
         (s.settings.drive = .openDrain → s.settings.polarity = .activeLow →
           s.noticePin = if s.causes &&& s.mask = 0 then .released else .low) ∧
           (s.settings.drive = .openDrain → s.settings.polarity = .activeHigh →
             s.noticePin = if s.causes &&& s.mask = 0 then .low else .released) ∧
           (s.settings.drive = .pushPull → s.settings.polarity = .activeLow →
             s.noticePin = if s.causes &&& s.mask = 0 then .high else .low) ∧
           (s.settings.drive = .pushPull → s.settings.polarity = .activeHigh →
             s.noticePin = if s.causes &&& s.mask = 0 then .low else .high))) ∧
  (∀ s : State,
     (s.resetn = false → ∀ offset, s.readAt offset = none) ∧
       (s.resetn = true →
         s.readAt 0x00 = some (s.readRegister .ident) ∧ s.readAt 0x04 = some (s.readRegister .control) ∧
           s.readAt 0x08 = some (s.readRegister .status) ∧ s.readAt 0x0C = some (s.readRegister .notice) ∧
           s.readAt 0x10 = some (s.readRegister .workBaseLo) ∧ s.readAt 0x14 = some (s.readRegister .workBaseHi) ∧
           s.readAt 0x18 = some (s.readRegister .handA) ∧ s.readAt 0x1C = some (s.readRegister .handB))) ∧
  (∀ (value : Word) (env : Env) (s : State), s.resetn = true →
     let write := exec (.noticeEnableMaskWrite ⟨value, env⟩) s
     let masked := { s with mask := value.extractLsb' 8 5 }
     let begun := beginEvent env s
     let abandoned := if value.getLsbD 1 then takeAbandon (beginEvent env masked) else beginEvent env masked
     let done (t : State) := write = .next (endEvent t)
     (value.getLsbD 2 = true → write = exec (.restart env) s) ∧
       (value.getLsbD 2 = false →
         (value.getLsbD 1 = false → value.getLsbD 0 = s.run → ∃ t, write = .next t ∧ SilentDone s t masked) ∧
           (value.getLsbD 0 = abandoned.run → done (flushBoard begun abandoned)) ∧
           (value.getLsbD 0 = false → abandoned.run = true →
             done (flushBoard begun
               { abandoned with
                 run := false, engine := if abandoned.engine = .idle then .stopped else abandoned.engine })) ∧
           (value.getLsbD 0 = true → abandoned.run = false →
             (abandoned.engine = .starting ∨ abandoned.faultStop = true →
               done (flushBoard begun (abandoned.setCause .clash))) ∧
               (abandoned.engine ≠ .starting → abandoned.faultStop = false → done (setRun abandoned))))) ∧
  (∀ (value : Word) (register : ReadOnlyRegister) (s : State), s.resetn = true →
     (∃ t, exec (.noticeClear value) s = .next t ∧ (∀ i, t.causes.getLsbD i = (s.causes.getLsbD i && !value.getLsbD i)) ∧
       SilentDone s t { s with causes := t.causes }) ∧
       ∃ t, exec (.ignoredRegisterWrite register value) s = .next t ∧ SilentDone s t s) ∧
  (∀ (value : Word) (s : State), s.resetn = true →
     (s.bothFree = true →
       (∃ t, exec (.workBaseWrite .lo value) s = .next t ∧
         SilentDone s t { s with workBase := s.workBase.extractLsb' 32 32 ++ (value &&& 0xFFFFF000) }) ∧
         ∃ t, exec (.workBaseWrite .hi value) s = .next t ∧
           SilentDone s t { s with workBase := value ++ s.workBase.extractLsb' 0 32 }) ∧
       (s.bothFree = false → ∀ half, ∃ t, exec (.workBaseWrite half value) s = .next t ∧
         SilentDone s t (s.setCause .clash)))

/-- A handover that finds its batch WAITING or IN_SERVICE, or the engine STARTING, is ignored and sets CLASH (R151). A handover
of a FREE batch leaves it WAITING with its count, 64 at most, in the handover order, while the engine is STOPPED or
SERVING; while the engine is IDLE its service starts in the same event, with the header written IN_SERVICE (R150, R152;
that first waiting then names the other batch if it is WAITING is log entry 14).
The order of the board writes is log entry 15. -/
def Obligations.HandoverTakesTheBatch : Prop :=
  (∀ (id : BatchId) (value : Word) (env : Env) (s : State), s.resetn = true →
     s.engine = .starting ∨ (s.batch id).state ≠ .free →
     ∃ t, exec (.handover id value env) s = .next t ∧ SilentDone s t (s.setCause .clash)) ∧
  (∀ (id : BatchId) (value : Word) (env : Env) (s : State), s.resetn = true →
     s.engine = .stopped ∨ s.engine = .serving → (s.batch id).state = .free →
     ∃ t, exec (.handover id value env) s = .next t ∧
       SilentDone s t
         { s.setBatch id ⟨.waiting, min (value.toNat % 128) 64⟩ with
           clamped := s.clamped || 64 < value.toNat % 128
           firstWaiting := if (s.batch (otherBatch id)).state = .waiting then s.firstWaiting else some id }) ∧
  (∀ (id : BatchId) (value : Word) (env : Env) (s : State), s.resetn = true → cleanEnv env →
     s.engine = .idle → (s.batch id).state = .free →
     let taken := min (value.toNat % 128) 64
     ∃ t, exec (.handover id value env) s = .next t ∧
       EventDone s t [startHeader s id taken]
         { servingFrom id taken s with clamped := s.clamped || 64 < value.toNat % 128 })

/-- Setting RUN: a set RUN stays as it is; while the engine is STARTING or a fault stop stands it is ignored with CLASH;
otherwise the work base becomes the board base and all 513 slots are written, and a STOPPED engine starts the batch that
waits first, or becomes IDLE (R131, R159). Clearing RUN stops an IDLE engine at once and lets a batch in service finish
(R159). A waiting batch's service starts when RUN is set, no fault stands and no batch is in service: the header is
written IN_SERVICE and the engine serves from index 0 (R152). That first waiting then names the other batch if it is
WAITING is log entry 14; that a SERVICE_START where none can start changes nothing is log entry 5, and in the states
that a run reaches it finds none. The order of the board writes is log entry 15. Which batch can start is spelled out
(R152). -/
def Obligations.RunAndServiceStart : Prop :=
  (∀ (s : State) (id : BatchId),
     s.startable? = some id ↔
       s.run = true ∧ s.faultStop = false ∧ s.inService? = none ∧ s.engine ≠ .starting ∧ s.firstWaiting = some id ∧
         (s.batch id).state = .waiting) ∧
  (∀ (env : Env) (s : State), s.resetn = true → cleanEnv env →
     let running := { s with run := true, boardBase := some s.workBase }
     (s.run = true → ∃ t, exec (.runSet env) s = .next t ∧ SilentDone s t s) ∧
       (s.run = false → s.engine = .starting ∨ s.faultStop = true →
         ∃ t, exec (.runSet env) s = .next t ∧ SilentDone s t (s.setCause .clash)) ∧
       (s.run = false → s.faultStop = false → s.engine = .serving →
         ∃ t, exec (.runSet env) s = .next t ∧ EventDone s t (fullWrites running) running) ∧
       (s.run = false → s.faultStop = false → s.engine = .stopped → s.firstWaiting = none →
         ∃ t, exec (.runSet env) s = .next t ∧ EventDone s t (fullWrites running) { running with engine := .idle }) ∧
       ∀ id, s.run = false → s.faultStop = false → s.engine = .stopped → s.firstWaiting = some id →
         ∃ t, exec (.runSet env) s = .next t ∧
           EventDone s t (fullWrites running ++ [startHeader s id (s.batch id).taken])
             (servingFrom id (s.batch id).taken running)) ∧
  (∀ s : State, s.resetn = true →
     ∃ t, exec .runClear s = .next t ∧
       SilentDone s t
         (if s.run then { s with run := false, engine := if s.engine = .idle then .stopped else s.engine } else s)) ∧
  (∀ (env : Env) (s : State), s.resetn = true →
     (∀ id, s.run = true → s.faultStop = false → s.inService? = none → s.engine ≠ .starting →
       s.firstWaiting = some id → (s.batch id).state = .waiting → cleanEnv env →
       ∃ t, exec (.serviceStart env) s = .next t ∧
         EventDone s t [startHeader s id (s.batch id).taken] (servingFrom id (s.batch id).taken s)) ∧
       (s.startable? = none → ∃ t, exec (.serviceStart env) s = .next t ∧ SilentDone s t s))

/-! ## The Batch Engine -/

/-- The close of the batch in service: items from the front of the queue are written into its tail, as many as the tail
room holds, each delivered as it leaves; the header is written with the close status and the counts; the batch becomes
FREE with its cause set; and the other batch's service, IDLE or STOPPED follows, with a try at origination (R90, R156,
R173, R175, R177). A delivered offer sets its record waiting for the reply, for the reply wait of its link's profile as
it is read now (R90). Where headers and tail items stand (R147), and the bytes of each, every reserved byte zero (11.3,
R213). That the close is this command is log entry 13, what first waiting then names is log entry 14, and that an
address past the last one goes on at 0 is log entry 20. The order of the board writes is log entry 15. A close that
leaves both batches FREE with items on the queue sets COLLECT (R173). Which batch is in service, when its close is due,
and what follows step 4 of a close are spelled out (R148, R153, R156). -/
def Obligations.BatchCloseDeliversAndFrees : Prop :=
  (∀ (s : State) (id : BatchId) (b : Batch),
     s.batch .a = s.batchA ∧ s.batch .b = s.batchB ∧ s.setBatch .a b = { s with batchA := b } ∧
       s.setBatch .b b = { s with batchB := b } ∧ otherBatch .a = .b ∧ otherBatch .b = .a ∧
       (s.bothFree = true ↔ s.batchA.state = .free ∧ s.batchB.state = .free) ∧
       (s.inService? = some id ↔ (s.batch id).state = .inService ∧ (id = .b → s.batchA.state ≠ .inService)) ∧
       (s.closing? = some id ↔ s.engine = .serving ∧ s.inService? = some id ∧ (s.batch id).taken ≤ s.nextIndex)) ∧
  (∀ (id : BatchId) (s : State),
     let other := otherBatch id
     let taken := (s.batch other).taken
     (s.bothFree = true → s.queue ≠ [] → collectAfterClose s = s.setCause .collect) ∧
       (s.bothFree = false ∨ s.queue = [] → collectAfterClose s = s) ∧
       (s.run = false → afterClose id s = { s with engine := .stopped }) ∧
       (s.run = true → (s.batch other).state ≠ .waiting → afterClose id s = { s with engine := .idle }) ∧
       (s.run = true → (s.batch other).state = .waiting → (∀ o ∈ s.bus, o = .done) →
         afterClose id s = (servingFrom other taken s).wrote 1 [startHeader s other taken])) ∧
  (∀ (base : Address) (j : Nat),
     headerAddress base .a = base ∧ headerAddress base .b = base + 8192 ∧
       tailAddress base .a j = base + BitVec.ofNat 64 (4160 + 96 * j) ∧
       tailAddress base .b j = base + BitVec.ofNat 64 (12352 + 96 * j)) ∧
  (∀ (status : CloseStatus) (taken done count : Nat),
     let at_ (offset size value : Nat) := bytesAt (headerBlock status taken done count) offset size = leBytes size value
     (headerBlock status taken done count).length = 8 ∧ (status = .inService → at_ 0 1 1) ∧
       (status = .complete → at_ 0 1 2) ∧ (status = .abandoned → at_ 0 1 3) ∧ at_ 1 3 0 ∧ at_ 4 1 taken ∧ at_ 5 1 done ∧
       at_ 6 1 count ∧ at_ 7 1 0) ∧
  (∀ it : Item,
     let at_ (offset size value : Nat) := bytesAt (tailItemBytes it) offset size = leBytes size value
     match it with
     | .offer k packet => packet.length = 86 →
       (tailItemBytes it).length = 96 ∧ at_ 0 1 1 ∧ at_ 1 1 0 ∧ at_ 2 2 k.val ∧ at_ 4 2 86 ∧ at_ 6 4 0 ∧
         bytesAt (tailItemBytes it) 10 86 = packet
     | .notice n =>
       (tailItemBytes it).length = 96 ∧ at_ 0 1 2 ∧ at_ 1 1 (if n.flicker then 1 else 0) ∧
         (∀ k, n.link = some k → at_ 2 2 k.val) ∧ (n.link = none → at_ 2 2 0xFFFF) ∧
         (∀ kind, n.kind = .link kind → at_ 4 1 (kind.index.val + 1)) ∧
         (∀ item, n.kind = .device item → at_ 4 1 item.code) ∧ (n.edge = .raised → at_ 5 1 1) ∧
         (n.edge = .cleared → at_ 5 1 2) ∧ at_ 6 2 n.counter ∧ at_ 8 2 n.score ∧ at_ 10 86 0) ∧
  (∀ (s : State) (n : Notice) (k : Slot) (packet : List Byte),
     deliverItem (.notice n) s = s ∧ (s.recordOf k = none → deliverItem (.offer k packet) s = s) ∧
       ∀ r, s.recordOf k = some r →
         deliverItem (.offer k packet) s =
           { s with
             records := s.records.set r.val
               { s.records[r] with
                 state := .waitingReply, offerQueued := false, replyTimer := (s.profileOf k).replyWait } }) ∧
  ∀ (id : BatchId) (env : Env) (s : State), s.resetn = true → cleanEnv env → s.closing? = some id →
    let other := otherBatch id
    let own := afterCloseState (beginEvent env s) id
    ∃ t, exec (.batchClose env) s = .next t ∧
      EventDone s t
        (tailWrites s id ++ [closeHeader s id]
          ++ if s.run ∧ (s.batch other).state = .waiting then [startHeader s other (s.batch other).taken] else [])
        own ∧
      t.batch id = ⟨.free, 0⟩ ∧ t.hasCause (if id = .a then .batchAClosed else .batchBClosed) = true ∧
      (s.run = false → t.engine = .stopped) ∧
      (s.run = true → (s.batch other).state = .waiting →
        t.engine = .serving ∧ t.batch other = ⟨.inService, (s.batch other).taken⟩) ∧
      (s.run = true → (s.batch other).state ≠ .waiting → t.engine = .idle) ∧
      (s.quiesce = true → t.queue = s.queue.drop s.settings.tailRoom) ∧
      (t.bothFree = true → t.queue ≠ [] → t.hasCause .collect = true)

/-- ABANDON gives SKIPPED to the entries that are left, counts none of them, and closes the batch ABANDONED in the same
event; with no batch in service it does nothing (R160). What first waiting names after the close is log entry 14. The
order of the board writes is log entry 15. The result SKIPPED has detail NONE, slot 0xFFFF and every other field 0
(R154). -/
def Obligations.AbandonSkipsAndCloses : Prop :=
  (skippedResult = ⟨.skipped, .none, 0, 0xFFFF, 0, 0⟩ ∧
     resultBytes skippedResult = [0x08, 0x00, 0xFF, 0xFF, 0, 0, 0, 0, 0, 0, 0, 0, 0, 0, 0, 0]) ∧
  ∀ (env : Env) (s : State), s.resetn = true →
    (∀ id, s.engine = .serving → s.inService? = some id → cleanEnv env →
      let skipped := skippedState (beginEvent env s) id
      let other := otherBatch id
      ∃ t, exec (.abandon env) s = .next t ∧
        EventDone s t
          (skipWrites s id ++ tailWrites s id ++ [closeHeader skipped id]
            ++ if s.run ∧ (s.batch other).state = .waiting then [startHeader s other (s.batch other).taken] else [])
          (afterCloseState skipped id) ∧
        t.batch id = ⟨.free, 0⟩) ∧
      (s.engine ≠ .serving ∨ s.inService? = none → ∃ t, exec (.abandon env) s = .next t ∧ SilentDone s t s)

/-- The 64 bytes of an entry: where its host-written fields stand, each least-significant byte first, with the bytes
between them not examined, and the command that its kind makes of it (R153, R211, R212, 11.3, 11.9). An entry whose kind
names no request completes with BAD_REQUEST and touches no state (R153). An entry or a close that the engine has not
come to does not arise, and changes nothing (log entry 5). The 16 bytes of a result stand at byte 48 of their entry,
reserved bytes zero (R147, R213, 11.3), and each enumerated name has its number (11.9); that an address past the last
one goes on at 0 is log entry 20. The order of the board writes is log entry 15. What bytes in either order hold, what a
result without output, generation and sequence holds, with a slot and without, and when an entry is due, are spelled out
(R58, R153, R154, R211). -/
def Obligations.EntriesByKind : Prop :=
  (∀ (n v i : Nat) (b : Byte) (bs : List Byte),
     (leBytes n v).length = n ∧ (i < n → (leBytes n v)[i]? = some (BitVec.ofNat 8 (v / 256 ^ i))) ∧
       beBytes n v = (leBytes n v).reverse ∧ ofLe [] = 0 ∧ ofLe (b :: bs) = b.toNat + 256 * ofLe bs ∧
       (bytesAt bs i n).length = n ∧ ∀ j, j < n → (bytesAt bs i n)[j]? = some (bs.getD (i + j) 0)) ∧
  (∀ (status : Status) (detail : Detail) (slot : Nat),
     EntryResult.bare status detail = ⟨status, detail, 0, 0xFFFF, 0, 0⟩ ∧
       slotResult slot status detail = ⟨status, detail, 0, slot, 0, 0⟩) ∧
  ((∀ kind : Byte, kindNamesRequest kind = false ↔ kind.toNat = 0 ∨ 12 < kind.toNat) ∧
     ∀ (s : State) (id : BatchId),
       s.serving? = some id ↔ s.engine = .serving ∧ s.inService? = some id ∧ s.nextIndex < (s.batch id).taken) ∧
  (∀ (base : Address) (i : Nat),
     resultAddress base .a i = base + BitVec.ofNat 64 (64 + 64 * i + 48) ∧
       resultAddress base .b i = base + BitVec.ofNat 64 (8256 + 64 * i + 48)) ∧
  (∀ r : EntryResult,
     let at_ (offset size value : Nat) := bytesAt (resultBytes r) offset size = leBytes size value
     (resultBytes r).length = 16 ∧ at_ 0 1 r.status.code.toNat ∧ at_ 1 1 r.detail.code.toNat ∧ at_ 2 2 r.slot ∧
       at_ 4 4 r.outputLength ∧ at_ 8 1 r.generation ∧ at_ 9 3 0 ∧ at_ 12 4 r.sequence) ∧
  ([Status.ok, .okClamped, .delivered, .consumed, .reportDelivered, .skipped].map Status.code
       = [0x00, 0x01, 0x02, 0x03, 0x04, 0x08] ∧
     [Status.badRequest, .malformed, .runt, .oversize, .noRoom, .unknownBranch, .notEnrolled, .noKey].map Status.code
       = [0x10, 0x11, 0x12, 0x13, 0x14, 0x15, 0x16, 0x17] ∧
     [Status.keySpent, .held, .quiesced, .quarantined, .unknownGen, .tooOld, .replayed, .tagFail].map Status.code
       = [0x18, 0x19, 0x1A, 0x1B, 0x1C, 0x1D, 0x1E, 0x1F] ∧
     [Status.classMismatch, .slotTaken, .rangeOverlap, .badRange, .badWrap, .noMaster, .profileEmpty].map Status.code
       = [0x20, 0x21, 0x22, 0x23, 0x24, 0x25, 0x26] ∧
     [Status.profileInUse, .badProfile, .badSlot, .notHeld, .busFault].map Status.code
       = [0x27, 0x28, 0x29, 0x2A, 0x3F] ∧
     [Detail.none, .host, .supervisor, .both, .read, .write, .lastUse].map Detail.code
       = [0x00, 0x01, 0x02, 0x03, 0x04, 0x05, 0x06] ∧
     [Detail.format, .class_, .length, .flags, .sequence, .currentKey, .retiringKey, .rootChannel].map Detail.code
       = [0x0A, 0x0B, 0x0C, 0x0D, 0x0E, 0x10, 0x11, 0x12] ∧
     [Detail.controlCode, .controlLength, .controlField, .acceptTaken, .refuseTaken, .stale].map Detail.code
       = [0x14, 0x15, 0x16, 0x18, 0x19, 0x1A] ∧
     [Detail.wasVacant, .zeroKey, .unchanged, .joined, .promoted].map Detail.code = [0x20, 0x21, 0x22, 0x23, 0x24]) ∧
  ([LinkState.vacant, .standby, .live, .stalled, .quarantined].map LinkState.code = [0, 1, 2, 3, 4] ∧
     [SlotState.empty, .inUse, .spent].map SlotState.code = [0, 1, 2] ∧
     [RenewalState.idle, .due, .exchange, .rest].map RenewalState.code = [0, 1, 2, 3] ∧
     [RecordState.free, .waitingSend, .waitingReply].map RecordState.code = [0, 1, 2] ∧
     [Refuse.none, .busy, .noRoom, .badWrap].map Refuse.code = [0, 1, 2, 3] ∧
     [EngineState.starting, .stopped, .idle, .serving].map EngineState.code = [0, 1, 2, 3] ∧
     [BatchState.free, .waiting, .inService].map BatchState.code = [0, 1, 2] ∧
     [LinkKind.tagFail, .replay, .unknownGen, .exchangeFault, .keySpent].map (fun k => k.index.val) = [0, 1, 2, 3, 4] ∧
     [LinkKind.renewalFailed, .linkSilent, .shopAlert, .storeCorrupt].map (fun k => k.index.val) = [5, 6, 7, 8] ∧
     [RateKind.tagFail, .replay, .unknownGen, .exchangeFault].map (fun r => (r.index.val, r.kind))
       = [(0, .tagFail), (1, .replay), (2, .unknownGen), (3, .exchangeFault)] ∧
     [DeviceItem.unknownBranch, .settingsDefaulted, .noMaster, .randomFault, .busFault].map DeviceItem.code
       = [16, 17, 18, 19, 20]) ∧
  (∀ (kind : Byte) (e : WorkEntry) (reserved rest input : List Byte) (env : Env), reserved.length = 4 →
     let bs := [kind, e.flags] ++ leBytes 2 e.slotField.toNat ++ reserved ++ leBytes 8 e.inputAddress.toNat
       ++ leBytes 4 e.inputLength.toNat ++ leBytes 4 e.outputRoom.toNat ++ leBytes 8 e.outputAddress.toNat ++ rest
     parseEntry bs = e ∧
       (kind = 1 → entryCommand bs input env = .outbound e input env) ∧
       (kind = 2 → entryCommand bs input env = .inbound e input env) ∧
       (kind = 3 → entryCommand bs input env = .enrol e input env) ∧
       (kind = 4 → entryCommand bs input env = .retire e env) ∧
       (kind = 5 → entryCommand bs input env = .setLink e input env) ∧
       (kind = 6 → entryCommand bs input env = .setProfile e input env) ∧
       (kind = 7 → entryCommand bs input env = .hold e env) ∧
       (kind = 8 → entryCommand bs input env = .release e env) ∧
       (kind = 9 → entryCommand bs input env = .renewNow e env) ∧
       (kind = 10 → entryCommand bs input env = .readLink e env) ∧
       (kind = 11 → entryCommand bs input env = .readFaults e env) ∧
       (kind = 12 → entryCommand bs input env = .readDevice e env) ∧
       (kindNamesRequest kind = false → entryCommand bs input env = .badRequest kind e env)) ∧
  (∀ (kind : Byte) (e : WorkEntry) (env : Env) (s : State) (id : BatchId), s.ready id → cleanEnv env →
     ∃ t, exec (.badRequest kind e env) s = .next t ∧ EntryDone id s t ⟨.badRequest, .none, 0, 0xFFFF, 0, 0⟩ [] s) ∧
  (∀ (c : Instr) (env : Env) (s : State), s.resetn = true →
     (isEntry c = true → s.serving? = none → ∃ t, exec c s = .next t ∧ SilentDone s t s) ∧
       (s.closing? = none → ∃ t, exec (.batchClose env) s = .next t ∧ SilentDone s t s))

/-- Errors on an entry's own accesses. An error on the write of the result of any entry that would else complete stops the
engine with the entry not counted, while its own effects stand (R127, R161). An error on the read of any entry gives it
BUS_FAULT, detail READ, slot 0xFFFF, and touches no state (R161). An error on the read of its input buffer gives an entry
BUS_FAULT, detail READ, and changes nothing but BUS_FAULT, no key charged: of the plaintext, with the link's slot (R40); of
an INBOUND header, with slot 0xFFFF, and of body and tag, with the link's slot, generation and sequence (R45, R50); of the
parameter block of an ENROL or SET_LINK, with its slot, and of a SET_PROFILE, with slot 0xFFFF (R183). Each abandons the
rest of its batch: every later entry gets SKIPPED, and the close follows with close status ABANDONED; where the BUS_FAULT
result or a SKIPPED result is not written the engine stops, with no close made (R154, R156, R160, R161). The order of the
board writes is log entry 15. -/
def Obligations.EntryErrorsStopOrAbandon : Prop :=
  (∀ (id : BatchId) (c : Instr) (s t : State), s.ready id → isEntry c = true → cleanEnv (envOf c) → exec c s = .next t →
     ∃ n, ∀ (landed : Nat) (rest : List BusOutcome),
       ∃ u, exec (withBus (List.replicate n .done ++ .error landed :: rest) c) s = .next u ∧
         FaultStopped id u ∧ u.nextIndex = s.nextIndex ∧ u.entriesDone = s.entriesDone ∧
         u.links = t.links ∧ u.profiles = t.profiles ∧ u.branchMap = t.branchMap ∧
         ∃ ws, u.posted = t.posted.dropLast ++ ws ∧ ∀ w ∈ ws, isBoardWrite s.boardBase w) ∧
  (∀ (id : BatchId) (landed : Nat) (c : Instr) (s : State), s.ready id → isEntry c = true →
     (envOf c).bus = [.error landed] →
     EntryBusFault id s c ⟨.busFault, .read, 0, 0xFFFF, 0, 0⟩ [] (raiseDevice .busFault (s.begun (envOf c)))) ∧
  (∀ (id : BatchId) (landed : Nat) (e : WorkEntry) (input : List Byte) (env : Env) (s : State), s.ready id →
     let len := e.inputLength.toNat
     let h := parseHeader input
     let unread (c : Instr) (slot generation sequence : Nat) :=
       EntryBusFault id s c ⟨.busFault, .read, 0, slot, generation, sequence⟩ [] (raiseDevice .busFault (s.begun env))
     (env.bus = [.done, .error landed] →
       (∀ k : Slot, 1 ≤ len → len ≤ 1536 → len + 28 ≤ e.outputRoom.toNat →
         lookupBranch s.branchMap e.slotField.toNat = some k → (s.link k).state = .live → (s.link k).hostHold = false →
         (s.link k).supervisorHold = false → s.quiesce = false → unread (.outbound e input env) k.val 0 0) ∧
         (28 ≤ len → unread (.inbound e input env) 0xFFFF 0 0) ∧
         (len = 64 →
           (∀ k : Slot, e.slotField.toNat = k.val →
             unread (.enrol e input env) k.val 0 0 ∧ unread (.setLink e input env) k.val 0 0) ∧
             unread (.setProfile e input env) 0xFFFF 0 0)) ∧
       (env.bus = [.done, .done, .error landed] → ∀ (k : Slot) (choice : KeyChoice), InboundAtKey s e input k choice →
         unread (.inbound e input env) k.val h.generation.toNat h.sequence.toNat))

/-- Errors on the writes of headers, tail items and SKIPPED results. A header write that fails at the start of a
service, be it by a handover to an IDLE engine, by a setting of RUN, by a SERVICE_START or by a close that goes on to
the other batch, leaves that batch IN_SERVICE under a fault stop, with no entry served (R152, R156, R159, R161). A
SKIPPED result that an ABANDON cannot write ends the skipping there with a fault stop, and no close is made (R160,
R161). At a close, however it is come to: a tail item whose write fails stays on the queue with those behind it, and the
close goes on with the items written before it as its tail count, its status as it was (R156, R176); a header write that
fails stops the engine, with the items written gone from the queue and delivered, no close made and no closed cause set
(R156, R161); that origination is tried there too is log entry 26, and what first waiting names is log entry 14. A
BUS_FAULT result or a later SKIPPED result that is not written is stated with the entries that end in BUS_FAULT. The
order of the board writes is log entry 15. That the failed tail item stays on the queue also where it is the last one
(R176), against the last sentence of R177, is log entry 28. -/
def Obligations.HeaderAndTailErrors : Prop :=
  (∀ s : State, stopOnFault s = { s with run := false, faultStop := true, engine := .stopped }) ∧
  (∀ (id : BatchId) (value : Word) (landed : Nat) (rest : List BusOutcome) (env : Env) (s : State), s.resetn = true →
     s.engine = .idle → (s.batch id).state = .free → env.bus = .error landed :: rest →
     ∃ t, exec (.handover id value env) s = .next t ∧ FaultStopped id t ∧
       (t.batch id).taken = min (value.toNat % 128) 64 ∧ t.nextIndex = 0 ∧ t.entriesDone = 0 ∧
       ∀ w ∈ t.posted, isBoardWrite s.boardBase w) ∧
  (∀ (id : BatchId) (landed : Nat) (env : Env) (s : State), s.resetn = true →
     let taken := (s.batch id).taken
     let unwritten (u : State) := stopOnFault (raiseDevice .busFault (servingFrom id taken u))
     let stopped (c : Instr) (made : List HostWrite) (own : State) :=
       ∃ t, exec c s = .next t ∧ EventStopped id s t made [] own ∧ (t.batch id).taken = taken ∧ t.nextIndex = 0 ∧
         t.entriesDone = 0
     let running := { s.begun env with run := true, boardBase := some s.workBase }
     (env.bus = List.replicate 513 .done ++ [.error landed] → s.run = false → s.faultStop = false →
       s.engine = .stopped → s.firstWaiting = some id →
       stopped (.runSet env) (fullWrites running ++ boardWrites running (unwritten running)) (unwritten running)) ∧
       (env.bus = [.error landed] → s.startable? = some id →
         stopped (.serviceStart env) (boardWrites s (unwritten (s.begun env))) (unwritten (s.begun env)))) ∧
  (∀ (id : BatchId) (j landed : Nat) (env : Env) (s : State), s.resetn = true → s.engine = .serving →
     s.inService? = some id → j < (skipWrites s id).length → env.bus = List.replicate j .done ++ [.error landed] →
     let own := stopOnFault (raiseDevice .busFault { s.begun env with abandoned := s.abandoned || 0 < j })
     ∃ t, exec (.abandon env) s = .next t ∧
       EventStopped id s t ((skipWrites s id).take j ++ boardWrites s own) [] own ∧ t.nextIndex = s.nextIndex ∧
       t.entriesDone = s.entriesDone ∧ t.hasCause (closedCause id) = s.hasCause (closedCause id)) ∧
  (∀ (id : BatchId) (s : State) (c : Instr) (lead : List BusOutcome) (made : List HostWrite) (shown u : State),
     s.resetn = true → ComesToClose id s c lead made shown u →
     let other := otherBatch id
     let all := (tailItems u).length
     let closed (u : State) := (u.setBatch id ⟨.free, 0⟩).setCause (closedCause id)
     let ends (bus : List BusOutcome) (t : State) := exec (withBus (lead ++ bus) c) s = .next t
     (∀ j landed, j < all →
       let own := collectAfterClose (tryOriginate (afterClose id (closed (raiseDevice .busFault (deliveredFirst j u)))))
       let header : HostWrite := ⟨headerAddress s.workBase id,
         headerBlock (if u.abandoned then .abandoned else .complete) (s.batch id).taken u.entriesDone j⟩
       ∃ t, ends (List.replicate j .done ++ [.error landed]) t ∧ t.inner = own.inner ∧
         t.posted = made ++ (tailWrites u id).take j ++ [header] ++ nextHeader s id ++ boardWrites shown own ∧
         (t.batch id).state = .free ∧ t.device.busFault = true ∧
         (s.quiesce = true → u.device.busFault = true → t.queue = u.queue.drop j) ∧
         ∀ x, (∀ w ∈ t.posted, ¬ w.covers x) → (∀ w ∈ (tailWrites u id)[j]?, ¬ w.covers x) →
           t.hostMem.readByte x = s.hostMem.readByte x) ∧
       (∀ landed,
         let own := tryOriginate (stopOnFault (raiseDevice .busFault (deliveredFirst all u)))
         ∃ t, ends (List.replicate all .done ++ [.error landed]) t ∧
           EventStopped id s t (made ++ tailWrites u id ++ boardWrites shown own) [] own ∧ t.nextIndex = u.nextIndex ∧
           t.entriesDone = u.entriesDone ∧ t.hasCause (closedCause id) = s.hasCause (closedCause id)) ∧
       (∀ landed, s.run = true → (s.batch other).state = .waiting →
         let started := servingFrom other (s.batch other).taken (closed (deliveredFirst all u))
         let own := tryOriginate (stopOnFault (raiseDevice .busFault started))
         ∃ t, ends (List.replicate (all + 1) .done ++ [.error landed]) t ∧
           EventStopped other s t (made ++ tailWrites u id ++ [closeHeader u id] ++ boardWrites shown own) [] own ∧
           t.batch id = ⟨.free, 0⟩ ∧ t.batch other = ⟨.inService, (s.batch other).taken⟩ ∧ t.nextIndex = 0 ∧
           t.entriesDone = 0 ∧ t.hasCause (closedCause id) = true))

/-- Errors on the writes of output buffers and board slots. An OUTBOUND entry whose packet is not written ends in
BUS_FAULT, detail WRITE, with its use of the key standing (R44); an INBOUND entry whose plaintext or report is not
written, likewise, with every change it made standing (R56, R57); a READ request whose record is not written, likewise,
with its clear option not taken (R183, R198, R199). Each abandons the rest of its batch, and stops the engine when a
result of that is not written (R161). A board write that fails raises BUS_FAULT, shown by a write of the device slot
that is not made again when it fails too, and stops nothing (R127, R134). The order of the board writes is log entry 15.
The order of the bytes of a tag is log entry 18. -/
def Obligations.OutputAndBoardErrors : Prop :=
  (∀ (id : BatchId) (landed : Nat) (e : WorkEntry) (input : List Byte) (env : Env) (s : State) (k : Slot), s.ready id →
     let len := e.inputLength.toNat
     let l := s.link k
     env.bus = List.replicate (if len = 0 then 1 else 2) .done ++ [.error landed] →
     len ≤ 1536 → len + 28 ≤ e.outputRoom.toNat → lookupBranch s.branchMap e.slotField.toNat = some k →
     l.state = .live → l.current.state = .inUse → l.hostHold = false → l.supervisorHold = false → s.quiesce = false →
     let use := l.current.use + ((len + 15) / 16 + 2)
     let next := if l.nextSequence ≥ 4294967295 then 0 else l.nextSequence + 1
     let spends := l.current.budget < use + 98 ∨ l.current.ageLimit ≤ l.current.age ∨ next = 0
     let charged := (raiseDevice .busFault (s.begun env)).setLink k
       { l with
         nextSequence := next
         current := { l.current with use := use }
         periodCount := min 8388607 (l.periodCount + ((len + 15) / 16 + 2)) }
     ∃ packet : List Byte, packet.length = 28 + len ∧
       EntryBusFault id s (.outbound e input env)
         ⟨.busFault, .write, 0, k.val, l.current.generation, l.nextSequence⟩ [⟨e.outputAddress, packet⟩]
         (dueCheck k .testsUrgency (if spends then spendCurrent k charged else charged))) ∧
  (∀ (id : BatchId) (landed : Nat) (e : WorkEntry) (input : List Byte) (env : Env) (s : State) (k : Slot)
     (choice : KeyChoice) (text : List Byte), s.ready id → env.bus = [.done, .done, .done, .error landed] →
     let h := parseHeader input
     InboundAtKey s e input k choice → inboundText s input k choice = some text → text ≠ [] →
     let charged := (s.begun env).modLink k fun l => l.charge (cost h.bodyLength.toNat) choice
     let heard := endSilence k
       (charged.modLink k fun l => l.setWindow (windowAdvance (l.windowOf choice) h.sequence.toNat) choice)
     let checked := match choice with
       | .root => heard
       | .current => dueCheck k .testsUrgency (checkCurrent k (eraseRetiring k heard))
       | .retiring => checkRetiring k heard
     let failed (own : State) :=
       EntryBusFault id s (.inbound e input env)
         ⟨.busFault, .write, 0, k.val, h.generation.toNat, h.sequence.toNat⟩ [⟨e.outputAddress, text⟩]
         (raiseDevice .busFault own)
     (h.class_ = 1 → failed checked) ∧
       ∀ entries, h.class_ = 2 → parseControl text = .report entries → failed (takeReport k entries checked)) ∧
  (∀ (id : BatchId) (landed : Nat) (e : WorkEntry) (env : Env) (s : State), s.ready id →
     env.bus = [.done, .error landed] →
     let failed (c : Instr) (slot : Nat) (bytes : List Byte) :=
       EntryBusFault id s c ⟨.busFault, .write, 0, slot, 0, 0⟩ [⟨e.outputAddress, bytes⟩]
         (raiseDevice .busFault (s.begun env))
     (∀ k : Slot, e.slotField.toNat = k.val → (s.link k).state ≠ .vacant →
       (128 ≤ e.outputRoom.toNat → failed (.readLink e env) k.val (linkSummary s k)) ∧
         (96 ≤ e.outputRoom.toNat → failed (.readFaults e env) k.val (faultCopy (s.link k)))) ∧
       (64 ≤ e.outputRoom.toNat → failed (.readDevice e env) 0xFFFF (deviceSummary s))) ∧
  (∀ (landed again : Nat) (env : Env) (s : State) (base : Address), s.resetn = true → s.engine ≠ .starting →
     s.quiesce = false → s.boardBase = some base → s.device.busFault = false →
     let own := raiseDevice .busFault { s.begun env with quiescePin := true, quiesce := true }
     (env.bus = [.error landed] → ∃ t, exec (.quiesceAssert env) s = .next t ∧ t.inner = own.inner ∧
       t.posted = [⟨boardSlotAddress base 512, deviceSlotBytes own⟩]) ∧
       (env.bus = [.error landed, .error again] → ∃ t, exec (.quiesceAssert env) s = .next t ∧ t.inner = own.inner ∧
         t.posted = [] ∧ t.hostMem = s.hostMem)) ∧
  (∀ (id : BatchId) (landed : Nat) (e : WorkEntry) (env : Env) (s : State) (k : Slot) (base : Address), s.ready id →
     e.slotField.toNat = k.val → (s.link k).state ≠ .vacant → (s.link k).hostHold = false → s.boardBase = some base →
     s.device.busFault = false → env.bus = [.done, .error landed] →
     let own := raiseDevice .busFault ((s.begun env).setLink k { s.link k with hostHold := true })
     ∃ t, exec (.hold e env) s = .next t ∧ t.inner = own.counted.inner ∧
       t.posted = [⟨boardSlotAddress base 512, deviceSlotBytes own⟩, resultWrite s id (slotResult k.val .ok .none)])

/-! ## OUTBOUND -/

/-- The refusals of an OUTBOUND entry, in the order of its checks (R18, R39): each leaves every record as it was. That a branch
whose triple names a VACANT slot is refused as one without a key is log entry 25; the Branch Map names none (R26).
The order of the board writes is log entry 15. -/
def Obligations.OutboundRefusals : Prop :=
  ∀ (id : BatchId) (e : WorkEntry) (input : List Byte) (env : Env) (s : State), s.ready id → cleanEnv env →
    let len := e.inputLength.toNat
    let refused (r : EntryResult) := ∃ t, exec (.outbound e input env) s = .next t ∧ EntryDone id s t r [] s
    (1536 < len → refused (.bare .oversize .none)) ∧
      (len ≤ 1536 → e.outputRoom.toNat < len + 28 → refused (.bare .noRoom .none)) ∧
      (len ≤ 1536 → len + 28 ≤ e.outputRoom.toNat →
        (lookupBranch s.branchMap e.slotField.toNat = none → refused (.bare .unknownBranch .none)) ∧
          ∀ k, lookupBranch s.branchMap e.slotField.toNat = some k →
            let l := s.link k
            (l.state = .quarantined → refused (slotResult k.val .quarantined .none)) ∧
              (l.state = .vacant ∨ l.state = .standby → refused (slotResult k.val .noKey .none)) ∧
              (l.state = .stalled → refused (slotResult k.val .keySpent .none)) ∧
              (l.state = .live →
                (l.hostHold = true → l.supervisorHold = false → refused (slotResult k.val .held .host)) ∧
                  (l.hostHold = false → l.supervisorHold = true → refused (slotResult k.val .held .supervisor)) ∧
                  (l.hostHold = true → l.supervisorHold = true → refused (slotResult k.val .held .both)) ∧
                  (l.hostHold = false → l.supervisorHold = false → s.quiesce = true →
                    refused (slotResult k.val .quiesced .none))))

/-- An OUTBOUND entry that passes its checks takes the next sequence, writes header, ciphertext and tag to the output
address, charges the CURRENT key, spends it when a limit is reached or its sequences are exhausted, and makes the due
check (R36, R40 to R43, R67, R75). The 12 bytes of a header, most-significant byte first (R211, 11.2), and the bytes of a
tag (log entry 18). The order of the board writes is log entry 15. -/
def Obligations.OutboundEnciphersAndCharges : Prop :=
  (∀ h : Header,
     headerBytes h =
       [h.format, h.class_, h.generation, h.flags, h.branch.extractLsb' 8 8, h.branch.extractLsb' 0 8,
         h.bodyLength.extractLsb' 8 8, h.bodyLength.extractLsb' 0 8, h.sequence.extractLsb' 24 8,
         h.sequence.extractLsb' 16 8, h.sequence.extractLsb' 8 8, h.sequence.extractLsb' 0 8]) ∧
  (∀ tag : Tag, (tagBytes tag).length = 16 ∧ BitVec.ofNat 128 (ofLe (tagBytes tag)) = tag) ∧
  ∀ (id : BatchId) (e : WorkEntry) (input : List Byte) (env : Env) (s : State) (k : Slot), s.ready id → cleanEnv env →
    let len := e.inputLength.toNat
    let l := s.link k
    len ≤ 1536 → len + 28 ≤ e.outputRoom.toNat → lookupBranch s.branchMap e.slotField.toNat = some k →
    l.state = .live → l.current.state = .inUse → l.hostHold = false → l.supervisorHold = false → s.quiesce = false →
    let header : Header :=
      ⟨1, 1, BitVec.ofNat 8 l.current.generation, 0, e.slotField, BitVec.ofNat 16 len, BitVec.ofNat 32 l.nextSequence⟩
    let nonce := l.current.salt ++ (0 : Byte) ++ header.generation ++ header.sequence
    let sealed := Config.cipher.encipher l.current.key nonce header (bytesAt input 0 len)
    let packet := headerBytes header ++ sealed.1 ++ tagBytes sealed.2
    let use := l.current.use + ((len + 15) / 16 + 2)
    let next := if l.nextSequence ≥ 4294967295 then 0 else l.nextSequence + 1
    let spends := l.current.budget < use + 98 ∨ l.current.ageLimit ≤ l.current.age ∨ next = 0
    let charged := (s.accessed env (if len = 0 then 2 else 3) [⟨e.outputAddress, packet⟩]).setLink k
      { l with
        nextSequence := next
        current := { l.current with use := use }
        periodCount := min 8388607 (l.periodCount + ((len + 15) / 16 + 2)) }
    ∃ t, exec (.outbound e input env) s = .next t ∧ packet.length = 28 + len ∧
      EntryDone id s t
        ⟨.ok, if spends then .lastUse else .none, 28 + len, k.val, l.current.generation, l.nextSequence⟩
        [⟨e.outputAddress, packet⟩]
        (dueCheck k .testsUrgency (if spends then spendCurrent k charged else charged))

/-! ## INBOUND -/

/-- The refusals of an INBOUND entry before its link record is reached, in the order of its checks (R45, R46, R125). An
UNKNOWN_BRANCH refusal counts the event; every other one leaves every record as it was. The fields of a header stand in
its first 12 bytes, most-significant byte first (R211, 11.2). The order of the board writes is log entry 15. -/
def Obligations.InboundRefusedBeforeTheRecord : Prop :=
  (∀ input : List Byte,
     let h := parseHeader input
     let byte (i : Nat) := (input.getD i 0).toNat
     h.format.toNat = byte 0 ∧ h.class_.toNat = byte 1 ∧ h.generation.toNat = byte 2 ∧ h.flags.toNat = byte 3 ∧
       h.branch.toNat = 256 * byte 4 + byte 5 ∧ h.bodyLength.toNat = 256 * byte 6 + byte 7 ∧
       h.sequence.toNat = 16777216 * byte 8 + 65536 * byte 9 + 256 * byte 10 + byte 11) ∧
  ∀ (id : BatchId) (e : WorkEntry) (input : List Byte) (env : Env) (s : State), s.ready id → cleanEnv env →
    let n := e.inputLength.toNat
    let h := parseHeader input
    let len := h.bodyLength.toNat
    let refused (r : EntryResult) := ∃ t, exec (.inbound e input env) s = .next t ∧ EntryDone id s t r [] s
    let bad (status : Status) (detail : Detail) := refused ⟨status, detail, 0, 0xFFFF, h.generation.toNat, h.sequence.toNat⟩
    let class_ := h.class_ = 1 ∨ h.class_ = 2
    (n < 28 → refused (.bare .runt .none)) ∧
      (28 ≤ n → h.format ≠ 1 → bad .malformed .format) ∧
      (28 ≤ n → h.format = 1 → ¬ class_ → bad .malformed .class_) ∧
      (28 ≤ n → h.format = 1 → class_ → n ≠ 28 + len → bad .malformed .length) ∧
      (h.format = 1 → class_ → n = 28 + len → h.flags ≠ 1 → bad .malformed .flags) ∧
      (h.format = 1 → class_ → n = 28 + len → h.flags = 1 → 1536 < len → bad .oversize .none) ∧
      (h.format = 1 → class_ → n = 28 + len → h.flags = 1 → len ≤ 1536 → h.sequence = 0 → bad .malformed .sequence) ∧
      (h.format = 1 → class_ → n = 28 + len → h.flags = 1 → len ≤ 1536 → h.sequence ≠ 0 → e.outputRoom.toNat < len →
        bad .noRoom .none) ∧
      (headerGood h e → lookupBranch s.branchMap h.branch.toNat = none →
        ∃ t, exec (.inbound e input env) s = .next t ∧
          EntryDone id s t ⟨.unknownBranch, .none, 0, 0xFFFF, h.generation.toNat, h.sequence.toNat⟩ []
            (countUnknownBranch (s.accessed env 2 []))) ∧
      ∀ k, headerGood h e → lookupBranch s.branchMap h.branch.toNat = some k → (s.link k).state = .quarantined →
        refused ⟨.quarantined, .none, 0, k.val, h.generation.toNat, h.sequence.toNat⟩

/-- The refusals of an INBOUND entry at its link record, before anything is deciphered or charged (R47, R48, R49): each
scores its rate kind once, and KEY_SPENT scores none. The order of the board writes is log entry 15. -/
def Obligations.InboundRefusedAtTheRecord : Prop :=
  ∀ (id : BatchId) (e : WorkEntry) (input : List Byte) (env : Env) (s : State) (k : Slot), s.ready id → cleanEnv env →
    let h := parseHeader input
    let g := h.generation.toNat
    let l := s.link k
    headerGood h e → lookupBranch s.branchMap h.branch.toNat = some k → l.state ≠ .quarantined →
    let refused (status : Status) (detail : Detail) (own : State) :=
      ∃ t, exec (.inbound e input env) s = .next t ∧ EntryDone id s t ⟨status, detail, 0, k.val, g, h.sequence.toNat⟩ [] own
    let scored (kind : RateKind) := scoreKind k kind (s.accessed env 2 [])
    (h.class_ = 2 → g ≠ 0 → refused .classMismatch .none (scored .exchangeFault)) ∧
      (h.class_ = 1 → g = 0 → refused .classMismatch .none (scored .exchangeFault)) ∧
      (h.class_ = 1 → g ≠ 0 → selectKey l g = .keySpent → refused .keySpent .none s) ∧
      (h.class_ = 1 → g ≠ 0 → selectKey l g = .unknownGen → refused .unknownGen .none (scored .unknownGen)) ∧
      ∀ choice, (h.class_ = 2 ↔ g = 0) → selectKey l g = .key choice →
        (windowTest (l.windowOf choice) h.sequence.toNat = .replayed →
          refused .replayed choice.detail (scored .replay)) ∧
          (windowTest (l.windowOf choice) h.sequence.toNat = .tooOld →
            refused .tooOld choice.detail (scored .replay))

/-- Key selection by generation, the cases in their order (R48); what each control body is read as, and which are
invalid with which detail (R55, 11.2); and how a report's entries are taken into the list of at most eight codes, each
once, the most recent first (R115). The order in which the bytes of a nonce and of a proof make one word is log entry
18. -/
def Obligations.SelectionBodiesAndShopCodes : Prop :=
  (∀ (l : Link) (g : Nat),
     let atCurrent := g = l.current.generation ∧ l.current.state ≠ .empty
     let atRetiring := g = l.retiring.generation ∧ l.retiring.state = .inUse
     (g = 0 → selectKey l g = .key .root) ∧
       (g ≠ 0 → g = l.current.generation → l.current.state = .inUse → selectKey l g = .key .current) ∧
       (g ≠ 0 → g = l.current.generation → l.current.state = .spent → selectKey l g = .keySpent) ∧
       (g ≠ 0 → ¬ atCurrent → atRetiring → selectKey l g = .key .retiring) ∧
       (g ≠ 0 → ¬ atCurrent → ¬ atRetiring → selectKey l g = .unknownGen)) ∧
  (parseControl [] = .invalid .controlCode ∧ parseControl [4] = .invalid .controlLength ∧
     (∀ (code : Byte) (rest : List Byte), code ≠ 2 → code ≠ 3 → code ≠ 4 →
       parseControl (code :: rest) = .invalid .controlCode) ∧
     (∀ (g : Byte) (nonce : AttemptNonce) (proof : Proof),
       parseControl ([2, g] ++ leBytes 8 nonce.toNat ++ leBytes 16 proof.toNat) = .accept g.toNat nonce proof) ∧
     (∀ (g reason : Byte) (nonce : AttemptNonce),
       let refuse := parseControl ([3, g] ++ leBytes 8 nonce.toNat ++ [reason])
       (reason = 1 → refuse = .refuse g.toNat nonce .busy) ∧ (reason = 2 → refuse = .refuse g.toNat nonce .noRoom) ∧
         (reason = 3 → refuse = .refuse g.toNat nonce .badWrap) ∧
         (reason ≠ 1 → reason ≠ 2 → reason ≠ 3 → refuse = .invalid .controlField)) ∧
     (∀ rest : List Byte, (rest.length ≠ 25 → parseControl (2 :: rest) = .invalid .controlLength) ∧
       (rest.length ≠ 10 → parseControl (3 :: rest) = .invalid .controlLength)) ∧
     (∀ entries : List ShopCode, 1 ≤ entries.length → entries.length ≤ 16 →
       (∀ e ∈ entries, e.code ≤ 65535 ∧ e.sum ≤ 65535) →
       let report := parseControl
         ([4, BitVec.ofNat 8 entries.length] ++ entries.flatMap fun e => beBytes 2 e.code ++ beBytes 2 e.sum)
       ((∀ e ∈ entries, e.code ≠ 0) → report = .report entries) ∧
         ((∃ e ∈ entries, e.code = 0) → report = .invalid .controlField)) ∧
     ∀ (n : Byte) (rest : List Byte), n.toNat = 0 ∨ 16 < n.toNat ∨ rest.length ≠ 4 * n.toNat →
       parseControl (4 :: n :: rest) = .invalid .controlLength) ∧
  ((∀ (codes : List ShopCode) (e : ShopCode), (∀ c ∈ codes, c.code ≠ e.code) →
      takeShopCode codes e = e :: codes.take 7) ∧
     (∀ (before after : List ShopCode) (c e : ShopCode), c.code = e.code → (∀ d ∈ before ++ after, d.code ≠ e.code) →
       takeShopCode (before ++ c :: after) e = ⟨e.code, min 65535 (c.sum + e.sum)⟩ :: (before ++ after)) ∧
     ∀ (l : Link) (entries : List ShopCode), l.shopCodes.length ≤ 8 → (l.shopCodes.map ShopCode.code).Nodup →
       let m := reportedRecord entries l
       m = { l with shopCodes := entries.foldl takeShopCode l.shopCodes } ∧ m.shopCodes.length ≤ 8 ∧
         (m.shopCodes.map ShopCode.code).Nodup)

/-- A packet whose tag fails is refused with TAG_FAIL: the key is charged, TAG_FAIL is scored once, and the spent and
due checks follow when it was a traffic key; no window, no silence count and no output changes (R50, R51, R53). The cost
of a use, and what its charge adds to: U of the key, and N when it is CURRENT; a use of the root key charges nothing
(R36, R67). The order of the board writes is log entry 15. The key, salt and window of each choice, and the detail that
names it (R48, R53, R58), and that a packet is read with the bytes of its tag in the order of log entry 18. -/
def Obligations.InboundTagFailure : Prop :=
  (∀ (l : Link) (w : Window),
     l.keyOf .root = (l.rootKey, 0) ∧ l.keyOf .current = (l.current.key, l.current.salt) ∧
       l.keyOf .retiring = (l.retiring.key, l.retiring.salt) ∧ l.windowOf .root = l.rootWindow ∧
       l.windowOf .current = l.current.window ∧ l.windowOf .retiring = l.retiring.window ∧
       l.setWindow w .root = { l with rootWindow := w } ∧
       l.setWindow w .current = { l with current := { l.current with window := w } } ∧
       l.setWindow w .retiring = { l with retiring := { l.retiring with window := w } } ∧
       KeyChoice.root.detail = .rootChannel ∧ KeyChoice.current.detail = .currentKey ∧
       KeyChoice.retiring.detail = .retiringKey) ∧
  (∀ (l : Link) (len : Nat),
     let c := cost len
     c = (len + 15) / 16 + 2 ∧ l.charge c .root = l ∧
       l.charge c .current =
         { l with
           current := { l.current with use := l.current.use + c }, periodCount := min 8388607 (l.periodCount + c) } ∧
       l.charge c .retiring = { l with retiring := { l.retiring with use := l.retiring.use + c } }) ∧
  ∀ (id : BatchId) (e : WorkEntry) (input : List Byte) (env : Env) (s : State) (k : Slot) (choice : KeyChoice),
    s.ready id → cleanEnv env →
    let h := parseHeader input
    let len := h.bodyLength.toNat
    InboundAtKey s e input k choice → inboundText s input k choice = none →
    let charged := (s.accessed env 3 []).modLink k fun l => l.charge (cost len) choice
    let scored := scoreKind k .tagFail charged
    ∃ t, exec (.inbound e input env) s = .next t ∧
      EntryDone id s t ⟨.tagFail, choice.detail, 0, k.val, h.generation.toNat, h.sequence.toNat⟩ []
        (match choice with
          | .root => scored
          | .current => dueCheck k .testsUrgency (checkCurrent k scored)
          | .retiring => checkRetiring k scored)

/-- A DATA packet whose tag passes ends the entry with DELIVERED: the key is charged, its window takes the sequence, the
silence ends, a packet under CURRENT erases RETIRING, the spent and due checks follow, and the L bytes of plaintext are
written to the output address; a plaintext of length 0 writes nothing (R50, R52, R53, R54). The order of the board
writes is log entry 15. The order of the bytes of a tag is log entry 18. -/
def Obligations.InboundDataDelivered : Prop :=
  ∀ (id : BatchId) (e : WorkEntry) (input : List Byte) (env : Env) (s : State) (k : Slot) (choice : KeyChoice)
    (text : List Byte), s.ready id → cleanEnv env →
    let h := parseHeader input
    let len := h.bodyLength.toNat
    InboundAtKey s e input k choice → h.class_ = 1 → inboundText s input k choice = some text →
    let out : List HostWrite := if len = 0 then [] else [⟨e.outputAddress, text⟩]
    let charged := (s.accessed env 3 []).modLink k fun l => l.charge (cost len) choice
    let advanced := charged.modLink k fun l => l.setWindow (windowAdvance (l.windowOf choice) h.sequence.toNat) choice
    let heard := endSilence k advanced
    ∃ t, exec (.inbound e input env) s = .next t ∧ text.length = len ∧ choice ≠ .root ∧
      EntryDone id s t ⟨.delivered, choice.detail, len, k.val, h.generation.toNat, h.sequence.toNat⟩ out
        (State.wrote
          (match choice with
            | .root => heard
            | .current => dueCheck k .testsUrgency (checkCurrent k (eraseRetiring k heard))
            | .retiring => checkRetiring k heard)
          out.length out)

/-- A CONTROL packet whose tag passes is read as R55 gives its body: an accept that matches the link's renewal record
and proves the new key installs it, a refuse that matches ends the attempt, any other reply is stale and scores
EXCHANGE_FAULT, a report is taken and written to the output, and a body of no form is MALFORMED and scores
EXCHANGE_FAULT (R55, R56, R95, R98, R99). The order of the board writes is log entry 15. The order of the bytes of a tag
is log entry 18. -/
def Obligations.InboundControlConsumed : Prop :=
  ∀ (id : BatchId) (e : WorkEntry) (input : List Byte) (env : Env) (s : State) (k : Slot) (text : List Byte),
    s.ready id → cleanEnv env →
    let h := parseHeader input
    InboundAtKey s e input k .root → h.class_ = 2 → inboundText s input k .root = some text →
    let charged := (s.accessed env 3 []).modLink k fun l => l.charge (cost h.bodyLength.toNat) .root
    let heard := endSilence k
      (charged.modLink k fun l => { l with rootWindow := windowAdvance l.rootWindow h.sequence.toNat })
    let done (status : Status) (detail : Detail) (length : Nat) (out : List HostWrite) (own : State) :=
      ∃ t, exec (.inbound e input env) s = .next t ∧
        EntryDone id s t ⟨status, detail, length, k.val, h.generation.toNat, h.sequence.toNat⟩ out own
    match parseControl text with
    | .invalid detail => done .malformed detail 0 [] (scoreKind k .exchangeFault heard)
    | .accept g nonce proof =>
      (∀ n, s.recordOf k = some n → AcceptMatches s.records[n] g nonce proof →
        done .consumed .acceptTaken 0 [] (install n heard)) ∧
        ((∀ n, s.recordOf k = some n → ¬ AcceptMatches s.records[n] g nonce proof) →
          done .consumed .stale 0 [] (scoreKind k .exchangeFault heard))
    | .refuse g nonce reason =>
      (∀ n, s.recordOf k = some n → ReplyMatches s.records[n] g nonce →
        done .consumed .refuseTaken 0 [] (endAttempt n (heard.setRecord n { s.records[n] with lastRefusal := reason }))) ∧
        ((∀ n, s.recordOf k = some n → ¬ ReplyMatches s.records[n] g nonce) →
          done .consumed .stale 0 [] (scoreKind k .exchangeFault heard))
    | .report entries =>
      done .reportDelivered .none text.length [⟨e.outputAddress, text⟩]
        ((takeReport k entries heard).wrote 1 [⟨e.outputAddress, text⟩])

/-! ## Administrative requests -/

/-- A slot number that names no link slot is refused with BAD_SLOT before any other check; HOLD, RELEASE and RENEW_NOW take
1023 as every enrolled link (R4, R182). The refusals of ENROL (R184) and of SET_LINK (R188) in the order of their checks.
Each refusal leaves every record and the Branch Map as they were. The fields of their parameter blocks stand at their
offsets, least-significant byte first (R211, 11.3; the bytes of a wrapped form are log entry 18). The order of the board
writes is log entry 15. -/
def Obligations.SlotAndBlockRefusals : Prop :=
  (∀ input : List Byte,
     let b := parseLinkBlock input
     let byte (i : Nat) := (input.getD i 0).toNat
     b.first = byte 0 + 256 * byte 1 ∧ b.last = byte 2 + 256 * byte 3 ∧ b.profile = byte 4 ∧
       wrappedBytes b.wrappedKey = bytesAt input 16 48) ∧
  (∀ (id : BatchId) (e : WorkEntry) (input : List Byte) (env : Env) (s : State), s.ready id → cleanEnv env →
     512 ≤ e.slotField.toNat →
     let refused (c : Instr) := ∃ t, exec c s = .next t ∧ EntryDone id s t (.bare .badSlot .none) [] s
     refused (.enrol e input env) ∧ refused (.retire e env) ∧ refused (.setLink e input env) ∧ refused (.readLink e env) ∧
       refused (.readFaults e env) ∧
       (e.slotField ≠ 1023 → refused (.hold e env) ∧ refused (.release e env) ∧ refused (.renewNow e env))) ∧
  (∀ (id : BatchId) (e : WorkEntry) (input : List Byte) (env : Env) (s : State) (k : Slot), s.ready id → cleanEnv env →
     e.slotField.toNat = k.val →
     let b := parseLinkBlock input
     let refused (status : Status) (detail : Detail) :=
       ∃ t, exec (.enrol e input env) s = .next t ∧ EntryDone id s t (slotResult k.val status detail) [] s
     (e.inputLength.toNat ≠ 64 → refused .malformed .length) ∧
       (e.inputLength.toNat = 64 →
         ((s.link k).state ≠ .vacant → refused .slotTaken .none) ∧
           ((s.link k).state = .vacant →
             (b.last < b.first ∨ b.last = 65535 → refused .badRange .none) ∧
               (b.first ≤ b.last → b.last ≠ 65535 →
                 ((∃ u ∈ s.branchMap, b.first ≤ u.last ∧ u.first ≤ b.last) → refused .rangeOverlap .none) ∧
                   ((∀ u ∈ s.branchMap, ¬ (b.first ≤ u.last ∧ u.first ≤ b.last)) →
                     (16 ≤ b.profile → refused .badProfile .none) ∧
                       ∀ p : ProfileNumber, b.profile = p.val →
                         (s.profiles[p].valid = false → refused .profileEmpty .none) ∧
                           (s.profiles[p].valid = true →
                             (s.device.noMaster = true → refused .noMaster .none) ∧
                               (s.device.noMaster = false →
                                 (Config.cipher.unwrap s.masterKey b.wrappedKey = none → refused .badWrap .none) ∧
                                   ∀ salt, Config.cipher.unwrap s.masterKey b.wrappedKey = some (0, salt) →
                                     refused .badWrap .zeroKey))))))) ∧
  (∀ (id : BatchId) (e : WorkEntry) (input : List Byte) (env : Env) (s : State) (k : Slot), s.ready id → cleanEnv env →
     e.slotField.toNat = k.val →
     let b := parseLinkBlock input
     let refused (status : Status) (detail : Detail) :=
       ∃ t, exec (.setLink e input env) s = .next t ∧ EntryDone id s t (slotResult k.val status detail) [] s
     (e.inputLength.toNat ≠ 64 → refused .malformed .length) ∧
       (e.inputLength.toNat = 64 →
         ((s.link k).state = .vacant → refused .notEnrolled .none) ∧
           ((s.link k).state = .quarantined → refused .quarantined .none) ∧
           ((s.link k).state ≠ .vacant → (s.link k).state ≠ .quarantined →
             ((s.link k).hostHold = false → refused .notHeld .none) ∧
               ((s.link k).hostHold = true →
                 (b.last < b.first ∨ b.last = 65535 → refused .badRange .none) ∧
                   (b.first ≤ b.last → b.last ≠ 65535 →
                     ((∃ u ∈ s.branchMap, u.slot ≠ k ∧ b.first ≤ u.last ∧ u.first ≤ b.last) →
                       refused .rangeOverlap .none) ∧
                       ((∀ u ∈ s.branchMap, u.slot ≠ k → ¬ (b.first ≤ u.last ∧ u.first ≤ b.last)) →
                         (16 ≤ b.profile → refused .badProfile .none) ∧
                           ∀ p : ProfileNumber, b.profile = p.val → s.profiles[p].valid = false →
                             refused .profileEmpty .none))))))

/-- An ENROL that passes its checks gives the slot the ENROL values, its root channel open at sequence 1, its triple and a
place at the end of the urgent section (R5, R10, R186). A triple that shares no branch number with the list is placed in
ascending order of first, and a lookup finds the triple that holds the branch number (R27, R28). The order of the board
writes is log entry 15. -/
def Obligations.EnrolMakesTheLink : Prop :=
  (∀ l : Link, l.recodeFresh = { l with checkCode := freshCode l }) ∧
  (∀ (m : List Triple) (t : Triple), m.Pairwise (fun u v => u.last < v.first) → (∀ u ∈ m, u.first ≤ u.last) →
     (∀ (b : Nat) (k : Slot), lookupBranch m b = some k ↔ ∃ u ∈ m, u.slot = k ∧ u.first ≤ b ∧ b ≤ u.last) ∧
       (t.first ≤ t.last → (∀ u ∈ m, ¬ (t.first ≤ u.last ∧ u.first ≤ t.last)) →
         (insertTriple t m).Pairwise (fun u v => u.last < v.first) ∧ (insertTriple t m).Perm (t :: m))) ∧
  ∀ (id : BatchId) (e : WorkEntry) (input : List Byte) (env : Env) (s : State) (k : Slot) (p : ProfileNumber)
    (rootKey : Key) (salt : Salt), s.ready id → cleanEnv env →
    let b := parseLinkBlock input
    e.slotField.toNat = k.val → e.inputLength.toNat = 64 → (s.link k).state = .vacant → b.first ≤ b.last →
    b.last ≠ 65535 → (∀ u ∈ s.branchMap, ¬ (b.first ≤ u.last ∧ u.first ≤ b.last)) → b.profile = p.val →
    s.profiles[p].valid = true → s.device.noMaster = false →
    Config.cipher.unwrap s.masterKey b.wrappedKey = some (rootKey, salt) → rootKey ≠ 0 →
    let l := Link.recodeFresh
      { Link.vacant with
        state := .standby, first := b.first, last := b.last, profile := p, rootKey := rootKey, rootSequence := 1,
        hostHold := e.flags.getLsbD 0 }
    let mapped := { s.accessed env 2 [] with branchMap := insertTriple ⟨b.first, b.last, k⟩ s.branchMap }
    ∃ t, exec (.enrol e input env) s = .next t ∧
      EntryDone id s t (slotResult k.val .ok .none) [] (joinDue k .urgent (mapped.setLink k l)) ∧
      (t.link k).state = .standby ∧ ((t.link k).renewal = .due ∨ (t.link k).renewal = .exchange)

/-- RETIRE leaves a slot VACANT with every field zero, and takes away its triple, its Due List entry, its renewal record
and its queued items; on a VACANT slot it completes with WAS_VACANT and changes nothing (R15, R187). The order of the
board writes is log entry 15. The changes of a RETIRE are spelled out: the renewal record of the link is empty and out
of the send order, its Due List entry, its items and its triple are gone, the items behind closing up in their order,
and its link record is zero; every other link record is as before; and then the tries at admission and at origination
follow (R15, R178, R187). -/
def Obligations.RetireLeavesNothing : Prop :=
  (∀ (s : State) (k : Slot),
     let holds (n : RecordNumber) := s.records[n].state ≠ .free ∧ s.records[n].slot = k
     (s.recordOf k = none ↔ ∀ n, ¬ holds n) ∧
       (∀ n, s.recordOf k = some n ↔ holds n ∧ ∀ m, m < n → ¬ holds m) ∧
       ∀ it : Item, isItemOf k it = true ↔
         (∃ packet, it = .offer k packet) ∨ ∃ n, it = .notice n ∧ n.link = some k) ∧
  (RenewalRecord.free = ⟨.free, 0, 0, 0, 0, 0, 0, false, 0, .none⟩ ∧
     Link.vacant =
       { state := .vacant, first := 0, last := 0, profile := 0, rootKey := 0, rootSequence := 0, rootWindow := ⟨0, 0⟩,
         current := ⟨.empty, 0, 0, 0, 0, 0, 0, 0, ⟨0, 0⟩⟩, nextSequence := 0,
         retiring := ⟨.empty, 0, 0, 0, 0, 0, 0, 0, ⟨0, 0⟩⟩, retireTimer := 0, rate := 0, periodCount := 0,
         hostHold := false, supervisorHold := false, renewal := .idle, restTimer := 0, silence := 0,
         kinds := .replicate 9 ⟨false, 0, false⟩, scores := .replicate 4 0, shopCodes := [], checkCode := 0 }) ∧
  (∀ (s : State) (k : Slot),
     let freed := match s.recordOf k with
       | none => s
       | some n => { s with
           records := s.records.set n.val .free, sendOrder := s.sendOrder.filter fun m => m ≠ n }
     let left := { freed with
         dueList := ⟨s.dueList.urgent.filter fun j => j ≠ k, s.dueList.ordinary.filter fun j => j ≠ k⟩
         queue := s.queue.filter fun it => isItemOf k it = false
         branchMap := s.branchMap.filter fun u => u.slot ≠ k }.setLink k .vacant
     retireLink k s = tryOriginate (tryAdmit left) ∧ left.link k = .vacant ∧ ∀ j, j ≠ k → left.link j = s.link j) ∧
  ∀ (id : BatchId) (e : WorkEntry) (env : Env) (s : State) (k : Slot), s.ready id → cleanEnv env →
    e.slotField.toNat = k.val →
    ((s.link k).state = .vacant →
      ∃ t, exec (.retire e env) s = .next t ∧ EntryDone id s t (slotResult k.val .ok .wasVacant) [] s) ∧
      ((s.link k).state ≠ .vacant →
        ∃ t, exec (.retire e env) s = .next t ∧
          EntryDone id s t (slotResult k.val .ok .none) [] (retireLink k (s.accessed env 1 [])) ∧
          t.link k = .vacant ∧ t.branchMap = s.branchMap.filter (fun u => u.slot ≠ k) ∧
          k ∉ t.dueList.urgent ++ t.dueList.ordinary ∧ (∀ it ∈ t.queue, isItemOf k it = false) ∧
          (s.TurnoverOk → t.recordOf k = none))

/-- A SET_LINK that passes its checks writes the new range into the record and the Branch Map and the new profile number
into the record, re-examines the rate kinds when the profile differs, and makes the due check (R25, R29, R74, R189). The
present range, from which the new one may differ, is that of the link's triple, so an altered range in the record has no
effect (R143); that it is read so is log entry 12. The order of the board writes is log entry 15. -/
def Obligations.SetLinkMovesTheRange : Prop :=
  ∀ (id : BatchId) (e : WorkEntry) (input : List Byte) (env : Env) (s : State) (k : Slot) (p : ProfileNumber),
    s.ready id → cleanEnv env →
    let b := parseLinkBlock input
    let l := s.link k
    e.slotField.toNat = k.val → e.inputLength.toNat = 64 → l.state ≠ .vacant → l.state ≠ .quarantined →
    l.hostHold = true → b.first ≤ b.last → b.last ≠ 65535 →
    (∀ u ∈ s.branchMap, u.slot ≠ k → ¬ (b.first ≤ u.last ∧ u.first ≤ b.last)) → b.profile = p.val →
    s.profiles[p].valid = true →
    let same := s.rangeOf k = (b.first, b.last)
    let moved := if same then { l with profile := p } else { l with first := b.first, last := b.last, profile := p }
    let written := if same ∧ l.profile = p then l
      else { moved with checkCode := l.checkCode ^^^ (freshCode l ^^^ freshCode moved) }
    let mapped := { s.accessed env 2 [] with
      branchMap := if same then s.branchMap
        else insertTriple ⟨b.first, b.last, k⟩ (s.branchMap.filter fun u => u.slot ≠ k) }
    let placed := mapped.setLink k written
    ((s.branchMap.map Triple.slot).Nodup → ∀ u ∈ s.branchMap, u.slot = k → s.rangeOf k = (u.first, u.last)) ∧
      ∃ t, exec (.setLink e input env) s = .next t ∧
        EntryDone id s t (slotResult k.val .ok .none) []
          (dueCheck k .joinsOnly (if l.profile = p then placed else reexamine k placed))

/-- SET_PROFILE: the length and profile number checks; the write of a valid profile, each field as carried when it lies in
its range and otherwise clamped to the nearer end, the links that name it re-examined and counted, OK_CLAMPED when a
field was clamped; and the invalidate option, refused while a link names the profile (R22, R23, R25, R190, R191, with
the offsets of 11.3). A link reads the profile it names, and of an invalid one the lowest value of each field (R24).
The order of the board writes is log entry 15. -/
def Obligations.SetProfileWritesOrInvalidates : Prop :=
  (∀ (s : State) (k : Slot),
     let named := s.profiles[(s.link k).profile]
     (named.valid = true → s.profileOf k = named) ∧
       (named.valid = false →
         s.profileOf k =
           ⟨false, 1024, 16, 1, 1, 1, 1, 1, 0, .replicate 4 ⟨1, 0, 1, 0, .note⟩, .note, .note, .note, .note⟩)) ∧
  ∀ (id : BatchId) (e : WorkEntry) (input : List Byte) (env : Env) (s : State), s.ready id → cleanEnv env →
    let done (r : EntryResult) (own : State) := ∃ t, exec (.setProfile e input env) s = .next t ∧ EntryDone id s t r [] own
    (e.inputLength.toNat ≠ 64 → done (.bare .malformed .length) s) ∧
      (e.inputLength.toNat = 64 → 16 ≤ (input.getD 0 0).toNat → done (.bare .badProfile .none) s) ∧
      ∀ p : ProfileNumber, e.inputLength.toNat = 64 → (input.getD 0 0).toNat = p.val →
        let naming := allSlots.filter fun k => s.enrolled k && (s.link k).profile = p
        let result (status : Status) : EntryResult := ⟨status, .none, 0, 0xFFFF, 0, naming.length⟩
        let v := parseProfile input
        let field (offset size : Nat) := ofLe (bytesAt input offset size)
        let written (low high offset size x : Nat) :=
          (field offset size < low → x = low) ∧ (high < field offset size → x = high) ∧
            (low ≤ field offset size → field offset size ≤ high → x = field offset size)
        let action (offset : Nat) (a : Action) :=
          (field offset 1 = 1 → a = .hold) ∧ (field offset 1 = 2 → a = .renew) ∧ (field offset 1 = 3 → a = .quarantine) ∧
            (field offset 1 = 0 ∨ 3 < field offset 1 → a = .note)
        let rateOffset (r : RateKind) := 26 + 7 * r.index.val
        let carried := v.budget = field 1 4 ∧ v.ageLimit = field 5 4 ∧ v.lead = field 9 4 ∧ v.replyWait = field 13 2 ∧
          v.attempts = field 15 1 ∧ v.restTime = field 16 4 ∧ v.retireTime = field 20 2 ∧ v.silenceLimit = field 22 4 ∧
          (∀ r : RateKind, let o := rateOffset r
            (v.rate r).weight = field o 1 ∧ (v.rate r).raiseLevel = field (o + 2) 2 ∧
              (v.rate r).clearLevel = field (o + 4) 2 ∧ field (o + 6) 1 ≤ 3) ∧
          field 54 1 ≤ 3 ∧ field 55 1 ≤ 3 ∧ field 56 1 ≤ 3 ∧ field 57 1 ≤ 3
        let wrote := naming.foldl (fun s k => reexamine k s)
          { s.accessed env 2 [] with profiles := s.profiles.set p.val v }
        (e.flags.getLsbD 0 = true → naming ≠ [] → done (result .profileInUse) s) ∧
          (e.flags.getLsbD 0 = true → naming = [] →
            done (result .ok) { s with profiles := s.profiles.set p.val .invalid }) ∧
          (e.flags.getLsbD 0 = false → (carried → done (result .ok) wrote) ∧ (¬ carried → done (result .okClamped) wrote)) ∧
          v.valid = true ∧ v.inRange ∧
          written 1024 4294967295 1 4 v.budget ∧ written 16 16777215 5 4 v.ageLimit ∧ written 1 65535 9 4 v.lead ∧
          written 1 255 13 2 v.replyWait ∧ written 1 15 15 1 v.attempts ∧ written 1 65535 16 4 v.restTime ∧
          written 1 255 20 2 v.retireTime ∧ written 0 65535 22 4 v.silenceLimit ∧
          (∀ r : RateKind, let o := rateOffset r
            written 1 255 o 1 (v.rate r).weight ∧ (v.rate r).decay = field (o + 1) 1 ∧
              written 1 65535 (o + 2) 2 (v.rate r).raiseLevel ∧
              written 0 ((v.rate r).raiseLevel - 1) (o + 4) 2 (v.rate r).clearLevel ∧ action (o + 6) (v.rate r).action) ∧
          action 54 v.keySpentAction ∧ action 55 v.renewalFailedAction ∧ action 56 v.linkSilentAction ∧
          action 57 v.shopAlertAction

/-- HOLD and RELEASE on one slot: the host mark is set, the marks named are cleared, the detail is UNCHANGED when no
mark changes, a VACANT slot is refused with NOT_ENROLLED, and a RELEASE that names no mark with MALFORMED (R17, R192,
R193). On the all-links number they change the marks of every enrolled link and of no other, and the result counts the
enrolled links (R4, R194). The order of the board writes is log entry 15. The links walked are all 512 slots ascending,
and an enrolled link is one that is not VACANT. -/
def Obligations.HoldAndReleaseMoveMarks : Prop :=
  (allSlots = List.finRange 512 ∧
     ∀ (s : State) (k : Slot), s.enrolled k = true ↔ (s.link k).state ≠ .vacant) ∧
  (∀ (id : BatchId) (e : WorkEntry) (env : Env) (s : State) (k : Slot), s.ready id → cleanEnv env →
     e.slotField.toNat = k.val →
     let l := s.link k
     let host := e.flags.getLsbD 0
     let supervisor := e.flags.getLsbD 1
     let hold (r : EntryResult) (own : State) := ∃ t, exec (.hold e env) s = .next t ∧ EntryDone id s t r [] own
     let release (r : EntryResult) (own : State) := ∃ t, exec (.release e env) s = .next t ∧ EntryDone id s t r [] own
     (l.state = .vacant → hold (slotResult k.val .notEnrolled .none) s) ∧
       (l.state ≠ .vacant → l.hostHold = true → hold (slotResult k.val .ok .unchanged) s) ∧
       (l.state ≠ .vacant → l.hostHold = false →
         hold (slotResult k.val .ok .none) (s.setLink k { l with hostHold := true })) ∧
       (host = false → supervisor = false → release (slotResult k.val .malformed .flags) s) ∧
       (host = true ∨ supervisor = true →
         (l.state = .vacant → release (slotResult k.val .notEnrolled .none) s) ∧
           (l.state ≠ .vacant → (host = true → l.hostHold = false) → (supervisor = true → l.supervisorHold = false) →
             release (slotResult k.val .ok .unchanged) s) ∧
           (l.state ≠ .vacant → host = true ∧ l.hostHold = true ∨ supervisor = true ∧ l.supervisorHold = true →
             release (slotResult k.val .ok .none)
               (s.setLink k
                 { l with hostHold := l.hostHold && !host, supervisorHold := l.supervisorHold && !supervisor })))) ∧
  (∀ (id : BatchId) (e : WorkEntry) (env : Env) (s : State), s.ready id → cleanEnv env → e.slotField = 1023 →
     let host := e.flags.getLsbD 0
     let supervisor := e.flags.getLsbD 1
     let count := (allSlots.filter s.enrolled).length
     let done (c : Instr) (mark : Link → Link) :=
       ∃ t own, exec c s = .next t ∧ EntryDone id s t ⟨.ok, .none, 0, 1023, 0, count⟩ [] own ∧
         own = { s with links := own.links } ∧
         ∀ k, own.link k = if (s.link k).state = .vacant then s.link k else mark (s.link k)
     done (.hold e env) (fun l => { l with hostHold := true }) ∧
       (host = true ∨ supervisor = true →
         done (.release e env) fun l =>
           { l with hostHold := l.hostHold && !host, supervisorHold := l.supervisorHold && !supervisor }) ∧
       (host = false → supervisor = false →
         ∃ t, exec (.release e env) s = .next t ∧ EntryDone id s t ⟨.malformed, .flags, 0, 1023, 0, 0⟩ [] s))

/-- RENEW_NOW forces one link onto the urgent section and reports what the forced join did; a VACANT and a QUARANTINED link
are refused (R81, R195). On the all-links number the enrolled links are walked in ascending slot order: a STANDBY, LIVE
or STALLED link in IDLE or REST joins the end of the ordinary section, with an admission tried after it, every other is
passed over, and the result counts the joins (R196). While no admission is possible, the links that join stand in
ascending slot order behind those that were there. The order of the board writes is log entry 15. -/
def Obligations.RenewNowForcesJoins : Prop :=
  ∀ (id : BatchId) (e : WorkEntry) (env : Env) (s : State), s.ready id → cleanEnv env →
    let done (r : EntryResult) (own : State) := ∃ t, exec (.renewNow e env) s = .next t ∧ EntryDone id s t r [] own
    let given := s.accessed env 1 []
    (∀ k : Slot, e.slotField.toNat = k.val →
      let l := s.link k
      (l.state = .vacant → done (slotResult k.val .notEnrolled .none) s) ∧
        (l.state = .quarantined → done (slotResult k.val .quarantined .none) s) ∧
        (l.state ≠ .vacant → l.state ≠ .quarantined →
          (l.renewal = .idle ∨ l.renewal = .rest →
            done (slotResult k.val .ok .joined) (joinDue k .urgent given)) ∧
            (l.renewal = .due → k ∈ s.dueList.ordinary →
              done (slotResult k.val .ok .promoted)
                { s with dueList := ⟨s.dueList.urgent ++ [k], s.dueList.ordinary.filter fun j => j ≠ k⟩ }) ∧
            (l.renewal = .due → k ∉ s.dueList.ordinary → done (slotResult k.val .ok .unchanged) s) ∧
            (l.renewal = .exchange → done (slotResult k.val .ok .unchanged) s))) ∧
      (e.slotField = 1023 →
        let joins (l : Link) :=
          (l.state = .standby ∨ l.state = .live ∨ l.state = .stalled) ∧ (l.renewal = .idle ∨ l.renewal = .rest)
        let walk := (allSlots.filter s.enrolled).foldl
          (fun (c : Nat × State) k => if joins (c.2.link k) then (c.1 + 1, joinDue k .ordinary c.2) else c) (0, given)
        let joined := allSlots.filter fun k => joins (s.link k)
        done ⟨.ok, .none, 0, 1023, 0, walk.1⟩ walk.2 ∧
          (s.freeRecord = none ∨ s.device.randomFault = true →
            walk.1 = joined.length ∧ walk.2.dueList = ⟨s.dueList.urgent, s.dueList.ordinary ++ joined⟩))

/-- READ_LINK, READ_FAULTS and READ_DEVICE write their record, laid out as 11.4 gives it, to the output address when there
is room for it, and their clear options take effect once it is written (R119, R197, R198, R199).
The order of the board writes is log entry 15. -/
def Obligations.ReadsWriteTheirRecords : Prop :=
  (∀ (id : BatchId) (e : WorkEntry) (env : Env) (s : State), s.ready id → cleanEnv env →
     let clear := e.flags.getLsbD 0
     let done (c : Instr) (r : EntryResult) (bytes : List Byte) (own : State) :=
       ∃ t, exec c s = .next t ∧ EntryDone id s t r [⟨e.outputAddress, bytes⟩] own
     let refused (c : Instr) (r : EntryResult) := ∃ t, exec c s = .next t ∧ EntryDone id s t r [] s
     (∀ k : Slot, e.slotField.toNat = k.val →
       let l := s.link k
       (e.outputRoom.toNat < 128 → refused (.readLink e env) (slotResult k.val .noRoom .none)) ∧
         (128 ≤ e.outputRoom.toNat → l.state = .vacant →
           refused (.readLink e env) (slotResult k.val .notEnrolled .none)) ∧
         (128 ≤ e.outputRoom.toNat → l.state ≠ .vacant →
           done (.readLink e env) ⟨.ok, .none, 128, k.val, l.current.generation, 0⟩ (linkSummary s k) s) ∧
         (e.outputRoom.toNat < 96 → refused (.readFaults e env) (slotResult k.val .noRoom .none)) ∧
         (96 ≤ e.outputRoom.toNat → l.state = .vacant →
           refused (.readFaults e env) (slotResult k.val .notEnrolled .none)) ∧
         (96 ≤ e.outputRoom.toNat → l.state ≠ .vacant →
           done (.readFaults e env) ⟨.ok, .none, 96, k.val, 0, 0⟩ (faultCopy l)
             (if clear then s.setLink k { l with kinds := l.kinds.map fun v => ⟨v.active, 0, false⟩ } else s))) ∧
       (e.outputRoom.toNat < 64 → refused (.readDevice e env) (.bare .noRoom .none)) ∧
       (64 ≤ e.outputRoom.toNat →
         done (.readDevice e env) ⟨.ok, .none, 64, 0xFFFF, 0, 0⟩ (deviceSummary s)
           (if clear then
             { s with
               device := { s.device with
                 unknownBranchCount := 0, unknownBranchOverflow := false, noticesDropped := false } }
           else s))) ∧
  (∀ (s : State) (k : Slot),
     let l := s.link k
     let at_ (offset size value : Nat) := bytesAt (linkSummary s k) offset size = leBytes size value
     (linkSummary s k).length = 128 ∧
       at_ 0 1 l.state.code ∧ at_ 1 1 ((if l.hostHold then 1 else 0) + (if l.supervisorHold then 2 else 0)) ∧
       at_ 2 1 l.profile.val ∧ at_ 3 1 l.renewal.code ∧ at_ 4 2 l.first ∧ at_ 6 2 l.last ∧ at_ 8 2 l.silence ∧
       at_ 10 2 l.restTimer ∧ at_ 12 4 l.rate ∧ at_ 16 4 l.periodCount ∧ at_ 20 4 l.checkCode.toNat ∧
       at_ 24 4 l.rootSequence ∧ at_ 28 4 l.rootWindow.high ∧ at_ 32 8 l.rootWindow.map.toNat ∧
       at_ 40 1 l.current.state.code ∧ at_ 41 1 l.current.generation ∧ at_ 42 2 0 ∧ at_ 44 4 l.current.use ∧
       at_ 48 4 l.current.age ∧ at_ 52 4 l.current.budget ∧ at_ 56 4 l.current.ageLimit ∧ at_ 60 4 l.nextSequence ∧
       at_ 64 4 l.current.window.high ∧ at_ 68 8 l.current.window.map.toNat ∧
       at_ 76 1 l.retiring.state.code ∧ at_ 77 1 l.retiring.generation ∧ at_ 78 1 l.retireTimer ∧ at_ 79 1 0 ∧
       at_ 80 4 l.retiring.use ∧ at_ 84 4 l.retiring.age ∧ at_ 88 4 l.retiring.budget ∧ at_ 92 4 l.retiring.ageLimit ∧
       at_ 96 4 l.retiring.window.high ∧ at_ 100 8 l.retiring.window.map.toNat ∧ at_ 115 1 0 ∧ at_ 116 12 0 ∧
       (s.recordOf k = none → at_ 108 1 0xFF ∧ at_ 109 6 0) ∧
       ∀ n, s.recordOf k = some n →
         let r := s.records[n]
         at_ 108 1 n.val ∧ at_ 109 1 r.generation ∧ at_ 110 1 r.attempt ∧ at_ 111 1 r.state.code ∧
           at_ 112 1 (if r.offerQueued then 1 else 0) ∧ at_ 113 1 r.lastRefusal.code ∧ at_ 114 1 r.replyTimer) ∧
  (∀ l : Link,
     let at_ (offset size value : Nat) := bytesAt (faultCopy l) offset size = leBytes size value
     let bit (offset i : Nat) := (ofLe (bytesAt (faultCopy l) offset 2)).testBit i
     (faultCopy l).length = 96 ∧
       (∀ i : Fin 9, bit 0 i = l.kinds[i].active ∧ bit 2 i = l.kinds[i].overflow ∧ at_ (4 + 2 * i) 2 l.kinds[i].counter) ∧
       (∀ i, 9 ≤ i → bit 0 i = false ∧ bit 2 i = false) ∧
       (∀ i : Fin 4, at_ (22 + 2 * i) 2 l.scores[i]) ∧ at_ 30 2 l.silence ∧ at_ 32 1 l.shopCodes.length ∧ at_ 33 3 0 ∧
       (∀ i, i < 8 → (l.shopCodes[i]? = none → at_ (36 + 4 * i) 4 0) ∧
         ∀ c, l.shopCodes[i]? = some c → at_ (36 + 4 * i) 2 c.code ∧ at_ (38 + 4 * i) 2 c.sum) ∧
       at_ 68 28 0) ∧
  (∀ s : State,
     let at_ (offset size value : Nat) := bytesAt (deviceSummary s) offset size = leBytes size value
     let inState (state : LinkState) := allSlots.filter fun k => (s.link k).state = state
     (deviceSummary s).length = 64 ∧
       at_ 0 4 s.settings.period ∧ at_ 4 1 s.settings.tailRoom ∧
       at_ 5 1 (if s.settings.drive = .pushPull then 1 else 0) ∧
       at_ 6 1 (if s.settings.polarity = .activeHigh then 1 else 0) ∧
       at_ 7 1 (if s.settings.source = .block then 1 else 0) ∧ at_ 8 1 s.deviceFlags ∧ at_ 9 1 0 ∧
       at_ 10 2 s.device.unknownBranchCount ∧
       at_ 12 1 (allRecordNumbers.filter fun n => s.records[n].state ≠ .free).length ∧ at_ 13 1 0 ∧
       at_ 14 2 (s.dueList.urgent.length + s.dueList.ordinary.length) ∧ at_ 16 2 s.dueList.urgent.length ∧
       at_ 18 1 s.sendOrder.length ∧ at_ 19 1 s.queue.length ∧ at_ 20 1 (noticeCount s.queue) ∧
       at_ 21 1 (s.profiles.toList.filter fun p => p.valid).length ∧
       at_ 22 2 (512 - (inState .vacant).length) ∧ at_ 24 2 (inState .quarantined).length ∧
       at_ 26 2 s.walkPosition.val ∧ at_ 28 36 0)

/-! ## Due checks, admission, origination and the exchange -/

/-- A STANDBY or STALLED link is due and urgent whatever its fields; a QUARANTINED link is neither, and a due check that
reaches it does nothing (R72; that one reaching a VACANT slot, which R72 says none does, would do nothing either, is log
entry 25). The tests of a LIVE link against the reserve, and that an urgent link is due (R69, R70, R71); what the due
check does by the renewal state (R73); and that a join places the link at the end of its section, DUE, any rest over, and
tries an admission, which leaves it there while none is possible (R79, R80). A forced join acts by the renewal state
(R81). -/
def Obligations.DueCheckByTheReserve : Prop :=
  (∀ (s : State) (k : Slot),
     ((s.link k).state = .standby ∨ (s.link k).state = .stalled → s.isDue k = true ∧ s.isUrgent k = true) ∧
       ((s.link k).state = .quarantined →
         s.isDue k = false ∧ s.isUrgent k = false ∧ ∀ site, dueCheck k site s = s) ∧
       ((s.link k).state = .vacant → ∀ site, dueCheck k site s = s)) ∧
  (∀ (s : State) (k : Slot),
     let l := s.link k
     let lead := (s.profileOf k).lead
     let r := min 4294967295 ((l.rate * lead + 15) / 16)
     (l.state = .live →
       (s.isDue k = true ↔ l.current.budget ≤ l.current.use + r ∨ l.current.ageLimit ≤ l.current.age + lead) ∧
         (s.isUrgent k = true ↔
           l.current.budget - l.current.use ≤ r / 2 ∨ l.current.ageLimit - l.current.age ≤ lead / 2) ∧
         (s.isUrgent k = true → s.isDue k = true)) ∧
       (l.state ≠ .vacant → l.state ≠ .quarantined →
         (l.renewal = .idle → s.isDue k = false → ∀ site, dueCheck k site s = s) ∧
           (l.renewal = .idle → s.isDue k = true → ∀ site,
             dueCheck k site s = joinDue k (if s.isUrgent k then .urgent else .ordinary) s) ∧
           (l.renewal = .due → s.isUrgent k = true → k ∈ s.dueList.ordinary →
             dueCheck k .testsUrgency s =
                 { s with dueList := ⟨s.dueList.urgent ++ [k], s.dueList.ordinary.filter fun j => j ≠ k⟩ } ∧
               dueCheck k .joinsOnly s = s) ∧
           (l.renewal = .due → s.isUrgent k = false ∨ k ∉ s.dueList.ordinary → ∀ site, dueCheck k site s = s) ∧
           (l.renewal = .exchange ∨ l.renewal = .rest → ∀ site, dueCheck k site s = s))) ∧
  (∀ (s : State) (k : Slot),
     let due := { s.link k with renewal := .due, restTimer := 0 }
     let urgent := ({ s with dueList := ⟨s.dueList.urgent ++ [k], s.dueList.ordinary⟩ }).setLink k due
     let ordinary := ({ s with dueList := ⟨s.dueList.urgent, s.dueList.ordinary ++ [k]⟩ }).setLink k due
     joinDue k .urgent s = tryAdmit urgent ∧ joinDue k .ordinary s = tryAdmit ordinary ∧
       (s.freeRecord = none ∨ s.device.randomFault = true →
         joinDue k .urgent s = urgent ∧ joinDue k .ordinary s = ordinary)) ∧
  (∀ (s : State) (k : Slot),
     let l := s.link k
     (l.renewal = .idle ∨ l.renewal = .rest → ∀ sec, (forcedJoin k sec s).2 = joinDue k sec s) ∧
       (l.renewal = .due → k ∈ s.dueList.ordinary →
         (forcedJoin k .urgent s).2 =
             { s with dueList := ⟨s.dueList.urgent ++ [k], s.dueList.ordinary.filter fun j => j ≠ k⟩ } ∧
           (forcedJoin k .ordinary s).2 = s) ∧
       (l.renewal = .due → k ∉ s.dueList.ordinary → ∀ sec, (forcedJoin k sec s).2 = s) ∧
       (l.renewal = .exchange → ∀ sec, (forcedJoin k sec s).2 = s))

/-- An ADMISSION admits for as long as a record is free, the Due List is not empty and the Random Source is healthy, and
ends where one of the three fails (R86). One admission takes the head of the Due List into the lowest free record, with
a key, salt and nonce drawn in that order, and the record joins the end of the send order, with a try at origination
(R86, R87). A draw equal to the last draw abandons it: RANDOM_FAULT is raised, the values drawn are discarded, and the
head stays where it stood (R87, R129). A try at admission within another event is the same, 16 links at most, since
there are 16 records (R84, R86). The order of the board writes is log entry 15. The lowest free record and the head of
the list are spelled out (R79, R86). The order in which the draws make one key is log entry 18. -/
def Obligations.AdmissionTakesTheHead : Prop :=
  (∀ s : State,
     let free (n : RecordNumber) := s.records[n].state = .free
     (s.freeRecord = none ↔ ∀ n, ¬ free n) ∧ (∀ n, s.freeRecord = some n ↔ free n ∧ ∀ m, m < n → ¬ free m) ∧
       s.dueList.head? = (s.dueList.urgent ++ s.dueList.ordinary).head?) ∧
  (∀ s : State, tryAdmit s = admitUpTo 16 s ∧
    ((tryAdmit s).freeRecord = none ∨ (tryAdmit s).dueList.head? = none ∨ (tryAdmit s).device.randomFault = true)) ∧
  (∀ (env : Env) (s : State), s.resetn = true → cleanEnv env →
     (∃ t, exec (.admission env) s = .next t ∧ EventDone s t [] (admitUpTo 16 (beginEvent env s)) ∧
       (t.freeRecord = none ∨ t.dueList.head? = none ∨ t.device.randomFault = true)) ∧
       (s.freeRecord = none ∨ s.dueList.head? = none ∨ s.device.randomFault = true →
         ∃ t, exec (.admission env) s = .next t ∧ SilentDone s t s)) ∧
  (∀ (s : State) (i : Nat), s.freeRecord = none ∨ s.dueList.head? = none ∨ s.device.randomFault = true →
     admitUpTo i s = s) ∧
  (∀ (s : State) (i : Nat) (n : RecordNumber) (k : Slot), s.freeRecord = some n → s.dueList.head? = some k →
     s.device.randomFault = false →
     (∀ (d0 d1 d2 d3 d4 d5 : Draw) (rest : List Draw), s.noise = d0 :: d1 :: d2 :: d3 :: d4 :: d5 :: rest →
       drawsPass s.lastDraw [d0, d1, d2, d3, d4, d5] →
       let l := s.link k
       let generation := if l.current.state = .empty then 1
         else if l.current.generation ≥ 255 then 1 else l.current.generation + 1
       let given := { s with
         noise := rest
         lastDraw := some d5
         dueList := ⟨s.dueList.urgent.filter fun j => j ≠ k, s.dueList.ordinary.filter fun j => j ≠ k⟩
         records := s.records.set n.val ⟨.waitingSend, k, generation, d3 ++ d2 ++ d1 ++ d0, d4, d5, 1, false, 0, .none⟩
         sendOrder := s.sendOrder ++ [n] }
       admitUpTo (i + 1) s =
         admitUpTo i (tryOriginate (given.setLink k { l with renewal := .exchange, restTimer := 0 }))) ∧
       ∀ (passed : List Draw) (d : Draw) (rest : List Draw), s.noise = passed ++ d :: rest → passed.length < 6 →
         drawsPass s.lastDraw passed → (passed.getLast?).or s.lastDraw = some d →
         admitUpTo (i + 1) s = raiseDevice .randomFault { s with noise := rest, lastDraw := some d })

/-- A try at origination walks the send order from its earliest record: a record is passed over while the queue is full,
QUIESCE is asserted or its link's root channel is exhausted, and otherwise its offer takes the root sequence and the end
of the queue, and the record leaves the send order (R16, R88, R89, R91, R173). The offer names the first branch of the
link's triple, so an altered range in the record has no effect (R143); that it is read so is log entry 12. The order of
the board writes is log entry 15. The order of the bytes of a nonce, a wrapped form and a tag is log entry 18. -/
def Obligations.OriginationQueuesTheOffer : Prop :=
  let packet (s : State) (n : RecordNumber) : List Byte :=
    let r := s.records[n]
    let l := s.link r.slot
    let header : Header := ⟨1, 2, 0, 0, BitVec.ofNat 16 (s.rangeOf r.slot).1, 58, BitVec.ofNat 32 l.rootSequence⟩
    let body := [(1 : Byte)] ++ leBytes 1 r.generation ++ leBytes 8 r.nonce.toNat
      ++ leBytes 48 (Config.cipher.wrap l.rootKey r.key r.salt).toNat
    let nonce := (0 : Salt) ++ (0 : Byte) ++ (0 : Byte) ++ header.sequence
    let sealed := Config.cipher.encipher l.rootKey nonce header body
    headerBytes header ++ sealed.1 ++ tagBytes sealed.2
  let originated (s : State) (n : RecordNumber) : State :=
    let r := s.records[n]
    let l := s.link r.slot
    if 32 ≤ s.queue.length ∨ s.quiesce = true ∨ l.rootSequence = 0 then s
    else
      { s with
        records := s.records.set n.val { r with offerQueued := true }
        sendOrder := s.sendOrder.filter fun m => m ≠ n
        queue := s.queue ++ [Item.offer r.slot (packet s n)]
        causes := if s.bothFree then s.causes ||| Cause.collect.bit else s.causes }.setLink r.slot
        { l with rootSequence := if l.rootSequence ≥ 4294967295 then 0 else l.rootSequence + 1 }
  (∀ (s : State) (n : RecordNumber), (packet s n).length = 86) ∧
  (∀ s : State, tryOriginate s = s.sendOrder.foldl originated s) ∧
  ∀ (env : Env) (s : State), s.resetn = true → cleanEnv env →
    (∃ t, exec (.origination env) s = .next t ∧ EventDone s t [] (s.sendOrder.foldl originated s)) ∧
      (s.quiesce = true ∨ 32 ≤ s.queue.length ∨ s.sendOrder = [] →
        ∃ t, exec (.origination env) s = .next t ∧ SilentDone s t s)

/-- A period mark lowers the reply timer of a record in WAITING_REPLY and does nothing to any other; at 0 the attempt
ends: with attempts left and a healthy Random Source a new nonce is drawn and the record returns to the send order, a
draw that fails raises RANDOM_FAULT and the renewal fails, and otherwise the renewal fails (R92, R93, R94). A failed
renewal frees its record, puts the link in REST for the profile's rest time, and raises RENEWAL_FAILED unless it is
active (R100, R113). That REPLY_TIMER_EXPIRY is this part of a mark alone is log entry 7, and that it changes nothing
where the timer is not at its last period is log entry 5. The order of the board writes is log entry 15. The end of an
attempt is spelled out for the end that a refuse brings, too (R93, R94, R98). -/
def Obligations.ReplyTimerEndsTheAttempt : Prop :=
  (∀ (s : State) (n : RecordNumber),
     let r := s.records[n]
     (∀ v, s.setRecord n v = { s with records := s.records.set n.val v }) ∧
       ((s.profileOf r.slot).attempts ≤ r.attempt ∨ s.device.randomFault = true → endAttempt n s = failRenewal n s) ∧
       ∀ (d : Draw) (rest : List Draw), r.attempt < (s.profileOf r.slot).attempts → s.device.randomFault = false →
         s.noise = d :: rest →
         let drawn := { s with noise := rest, lastDraw := some d }
         (s.lastDraw ≠ some d →
           endAttempt n s = tryOriginate
             { drawn with
               records := s.records.set n.val
                 { r with
                   state := .waitingSend, nonce := d, attempt := r.attempt + 1, replyTimer := 0, offerQueued := false }
               sendOrder := s.sendOrder ++ [n] }) ∧
           (s.lastDraw = some d → endAttempt n s = failRenewal n (raiseDevice .randomFault drawn))) ∧
  (∀ (env : Env) (s : State) (n : RecordNumber), s.timebaseRuns = true → cleanEnv env →
     let r := s.records[n]
     let mark (own : State) := ∃ t, exec (.periodMarkAtRenewalRecord n env) s = .next t ∧ EventDone s t [] own
     let expiry (own : State) := ∃ t, exec (.replyTimerExpiry n env) s = .next t ∧ EventDone s t [] own
     let zeroed := (beginEvent env s).setRecord n { r with replyTimer := 0 }
     (r.state ≠ .waitingReply → mark s ∧ expiry s) ∧
       (r.state = .waitingReply → 2 ≤ r.replyTimer →
         mark { s with records := s.records.set n.val { r with replyTimer := r.replyTimer - 1 } } ∧ expiry s) ∧
       (r.state = .waitingReply → r.replyTimer ≤ 1 →
         ((s.profileOf r.slot).attempts ≤ r.attempt ∨ s.device.randomFault = true →
           mark (failRenewal n zeroed) ∧ expiry (failRenewal n zeroed)) ∧
           ∀ (d : Draw) (rest : List Draw), r.attempt < (s.profileOf r.slot).attempts → s.device.randomFault = false →
             env.noise = d :: rest →
             let drawn := { beginEvent env s with noise := rest, lastDraw := some d }
             let again := tryOriginate
               { drawn with
                 records := s.records.set n.val
                   { r with
                     state := .waitingSend, nonce := d, attempt := r.attempt + 1, replyTimer := 0, offerQueued := false }
                 sendOrder := s.sendOrder ++ [n] }
             let failed := failRenewal n (raiseDevice .randomFault
               { drawn with records := s.records.set n.val { r with replyTimer := 0 } })
             (s.lastDraw ≠ some d → mark again ∧ expiry again) ∧ (s.lastDraw = some d → mark failed ∧ expiry failed))) ∧
  (∀ (s : State) (n : RecordNumber),
     let k := s.records[n].slot
     let rested := { s with
         records := s.records.set n.val .free
         sendOrder := s.sendOrder.filter fun m => m ≠ n }.setLink k
       { s.link k with renewal := .rest, restTimer := (s.profileOf k).restTime }
     failRenewal n s =
       tryAdmit (if ((s.link k).kind .renewalFailed).active then rested else raiseKind k .renewalFailed rested))

/-- An installation, step by step: it moves an IN_USE CURRENT key to RETIRING with the retire time, drops a SPENT one, gives
CURRENT the new key with the terms of the profile, makes the link LIVE and IDLE, and takes the code on by difference
(R11); it frees the record, clears RENEWAL_FAILED and KEY_SPENT where they are active, makes the due check, and tries an
admission (R96). Of the link it leaves, what no later step touches is stated beside it. -/
def Obligations.InstallationMovesTheKeys : Prop :=
  ∀ (s : State) (n : RecordNumber),
    let r := s.records[n]
    let k := r.slot
    let l := s.link k
    let p := s.profileOf k
    let current : KeySlot := ⟨.inUse, r.generation, r.key, r.salt, 0, 0, p.budget, p.ageLimit, ⟨0, 0⟩⟩
    let keyed := { l with
      state := .live
      current := current
      nextSequence := 1
      retiring := if l.current.state = SlotState.inUse then l.current else .empty
      retireTimer := if l.current.state = SlotState.inUse then p.retireTime else 0
      renewal := .idle
      restTimer := 0 }
    let freed := { s with
        records := s.records.set n.val .free
        sendOrder := s.sendOrder.filter fun m => m ≠ n }.setLink k
      { keyed with checkCode := l.checkCode ^^^ (freshCode l ^^^ freshCode keyed) }
    let cleared (kind : LinkKind) (s : State) := if ((s.link k).kind kind).active then clearKind k kind s else s
    let m := (install n s).link k
    install n s = tryAdmit (dueCheck k .joinsOnly (cleared .keySpent (cleared .renewalFailed freed))) ∧
      m.state = .live ∧ m.current = current ∧ m.nextSequence = 1 ∧ m.rootKey = l.rootKey ∧ m.rootWindow = l.rootWindow ∧
      m.rate = l.rate ∧ m.periodCount = l.periodCount ∧ m.retiring = keyed.retiring ∧
      m.retireTimer = keyed.retireTimer ∧ (m.kind .renewalFailed).active = false ∧ (m.kind .keySpent).active = false ∧
      (l.checkCode = freshCode l → m.checkCode = freshCode m)

/-! ## Fault supervision -/

/-- A notice whose pair has a waiting notice is folded into it where it stands, however deep the queue and however many
notices wait: the item takes the edge, counter and score of the new notice, its flicker mark is set when the edge differs
and otherwise stays as it is, and the depth and the notice count stay (R170). At most one notice waits for a pair
(R167). -/
def Obligations.NoticesFoldIntoTheirPair : Prop :=
  ∀ (s : State) (n m : Notice) (before after : List Item),
    s.queue = before ++ .notice m :: after → m.link = n.link → m.kind = n.kind → (s.queue.filterMap Item.pair?).Nodup →
    makeNotice n s =
        { s with
          queue := before
            ++ .notice ⟨m.link, m.kind, n.edge, n.counter, n.score, m.flicker || decide (n.edge ≠ m.edge)⟩ :: after } ∧
      (makeNotice n s).queue.length = s.queue.length ∧ noticeCount (makeNotice n s).queue = noticeCount s.queue

/-- A notice whose pair has no waiting notice joins the end of the queue when fewer than 24 notices and 32 items wait, and
sets COLLECT when both batches are FREE; otherwise it is dropped, and NOTICES_DROPPED alone is set (R171, R173). -/
def Obligations.NoticesJoinOrDrop : Prop :=
  (∀ (q : List Item) (n : Notice) (k : Slot) (packet : List Byte),
     noticeCount [] = 0 ∧ noticeCount (.notice n :: q) = noticeCount q + 1 ∧
       noticeCount (.offer k packet :: q) = noticeCount q) ∧
  ∀ (s : State) (n : Notice), (∀ m, .notice m ∈ s.queue → ¬ (m.link = n.link ∧ m.kind = n.kind)) →
    (noticeCount s.queue < 24 → s.queue.length < 32 →
      makeNotice n s =
        { s with
          queue := s.queue ++ [.notice n]
          causes := if s.bothFree then s.causes ||| Cause.collect.bit else s.causes }) ∧
      (24 ≤ noticeCount s.queue ∨ 32 ≤ s.queue.length →
        makeNotice n s = { s with device := { s.device with noticesDropped := true } })

/-- A raise makes the kind active, counts a condition kind, makes a notice with the counter and the score, sets
FAULT_RAISED and takes the action of the link's profile: NOTE nothing, HOLD the supervisor mark, RENEW a forced join to
the urgent section of an enrolled link that is not QUARANTINED, QUARANTINE the quarantine; STORE_CORRUPT always
quarantines (R117, R118, R120 to R123). A clear makes the kind not active and makes a notice (R120). A device condition
that is not active is made so, with its notice and FAULT_RAISED, and one that is active makes no edge (R124); an
UNKNOWN_BRANCH event adds 1 to its count, saturating with an overflow mark, with a notice of the count and FAULT_RAISED
(R125). Which action a profile names for each kind, and which kinds are rate kinds, is spelled out (R23, R109). -/
def Obligations.RaiseNotifiesAndActs : Prop :=
  (∀ (p : Profile) (l : Link) (r : RateKind) (kind : LinkKind),
     p.rate r = p.rates[r.index] ∧ p.actionOf r.kind = (p.rate r).action ∧ r.kind.rate? = some r ∧
       (kind.rate? = some r → kind = r.kind) ∧ p.actionOf .keySpent = p.keySpentAction ∧
       p.actionOf .renewalFailed = p.renewalFailedAction ∧ p.actionOf .linkSilent = p.linkSilentAction ∧
       p.actionOf .shopAlert = p.shopAlertAction ∧ p.actionOf .storeCorrupt = .quarantine ∧
       l.kind kind = l.kinds[kind.index]) ∧
  (∀ (s : State) (k : Slot) (kind : LinkKind),
     let l := s.link k
     let v := l.kinds[kind.index]
     let score := match kind.rate? with
       | some r => l.scores[r.index]
       | none => 0
     clearKind k kind s =
       makeNotice ⟨some k, .link kind, .cleared, v.counter, score, false⟩
         (s.setLink k { l with kinds := l.kinds.set kind.index ⟨false, v.counter, v.overflow⟩ })) ∧
  (∀ s : State,
     let d := s.device
     let told (item : DeviceItem) (counter : Nat) (d : DeviceFaults) :=
       (makeNotice ⟨none, .device item, .raised, counter, 0, false⟩ { s with device := d }).setCause .faultRaised
     let raised (item : DeviceItem) (active : Bool) (after : DeviceFaults) :=
       (active = false → raiseDevice item s = told item 0 after) ∧ (active = true → raiseDevice item s = s)
     let count := min 65535 (d.unknownBranchCount + 1)
     let overflowed := d.unknownBranchOverflow || decide (65535 ≤ d.unknownBranchCount)
     raised .settingsDefaulted d.settingsDefaulted { d with settingsDefaulted := true } ∧
       raised .noMaster d.noMaster { d with noMaster := true } ∧
       raised .randomFault d.randomFault { d with randomFault := true } ∧
       raised .busFault d.busFault { d with busFault := true } ∧
       countUnknownBranch s =
         told .unknownBranch count { d with unknownBranchCount := count, unknownBranchOverflow := overflowed }) ∧
  ∀ (s : State) (k : Slot) (kind : LinkKind),
    let l := s.link k
    let v := l.kinds[kind.index]
    let count := if kind.rate?.isSome then (v.counter, v.overflow)
      else if 65535 ≤ v.counter then (65535, true) else (v.counter + 1, v.overflow)
    let raised := s.setLink k { l with kinds := l.kinds.set kind.index ⟨true, count.1, count.2⟩ }
    let score := match kind.rate? with
      | some r => l.scores[r.index]
      | none => 0
    let told := (makeNotice ⟨some k, .link kind, .raised, count.1, score, false⟩ raised).setCause .faultRaised
    let action := (s.profileOf k).actionOf kind
    l.state ≠ .vacant →
      (action = .note → raiseKind k kind s = told) ∧
        (action = .hold → raiseKind k kind s = told.setLink k { told.link k with supervisorHold := true }) ∧
        (action = .renew → l.state ≠ .quarantined → raiseKind k kind s = (forcedJoin k .urgent told).2) ∧
        (action = .renew → l.state = .quarantined → raiseKind k kind s = told) ∧
        (action = .quarantine → raiseKind k kind s = quarantineLink k told) ∧
        (kind = .storeCorrupt → action = .quarantine)

/-- A scoring event adds the weight and counts once, both saturating, and raises an inactive kind at its raise level; a decay
takes the decay off and clears an active kind at its clear level (R110, R111, R118). A re-examination compares each score
as it stands with the levels now in force (R25). A mark counts the silence of a STANDBY, LIVE or STALLED link and raises
LINK_SILENT at the limit, and an accepted packet ends it (R52, R114). -/
def Obligations.ScoresRaiseAndDecaysClear : Prop :=
  (∀ (s : State) (k : Slot) (r : RateKind), (s.link k).state ≠ .vacant →
     let l := s.link k
     let p := (s.profileOf k).rate r
     let v := l.kinds[r.kind.index]
     let score := l.scores[r.index]
     let up := min 65535 (score + p.weight)
     let down := score - p.decay
     let counted : KindRecord :=
       if 65535 ≤ v.counter then ⟨v.active, 65535, true⟩ else ⟨v.active, v.counter + 1, v.overflow⟩
     let scored := s.setLink k
       { l with scores := l.scores.set r.index up, kinds := l.kinds.set r.kind.index counted }
     let decayed := s.setLink k { l with scores := l.scores.set r.index down }
     (v.active = false → p.raiseLevel ≤ up → scoreKind k r s = raiseKind k r.kind scored) ∧
       (v.active = true ∨ up < p.raiseLevel → scoreKind k r s = scored) ∧
       (v.active = true → down ≤ p.clearLevel → decayKind k s r = clearKind k r.kind decayed) ∧
       (v.active = false ∨ p.clearLevel < down → decayKind k s r = decayed) ∧
       (v.active = false → p.raiseLevel ≤ score → reexamineKind k s r = raiseKind k r.kind s) ∧
       (v.active = true → score ≤ p.clearLevel → reexamineKind k s r = clearKind k r.kind s) ∧
       (v.active = false ∧ score < p.raiseLevel ∨ v.active = true ∧ p.clearLevel < score → reexamineKind k s r = s)) ∧
  (∀ (s : State) (k : Slot),
     let each (f : State → RateKind → State) := f (f (f (f s .tagFail) .replay) .unknownGen) .exchangeFault
     reexamine k s = each (reexamineKind k) ∧ decayKinds k s = each (decayKind k)) ∧
  (∀ (s : State) (k : Slot),
     let l := s.link k
     let active := (l.kinds[LinkKind.linkSilent.index]).active
     let limit := (s.profileOf k).silenceLimit
     let count := min 65535 (l.silence + 1)
     let counted := s.setLink k { l with silence := count }
     let heard := s.setLink k { l with silence := 0 }
     (l.state = .standby ∨ l.state = .live ∨ l.state = .stalled →
       (limit ≠ 0 → limit ≤ count → active = false → countSilence k s = raiseKind k .linkSilent counted) ∧
         (limit = 0 ∨ count < limit ∨ active = true → countSilence k s = counted)) ∧
       (l.state = .quarantined ∨ l.state = .vacant → countSilence k s = s) ∧
       (active = true → endSilence k s = clearKind k .linkSilent heard) ∧
       (active = false → endSilence k s = heard))

/-- SHOP_ALERT is raised by a report with an alert code when it is not active, cleared by a report without one when it is,
and stays as it is in the other two cases (R116). -/
def Obligations.ShopAlertFollowsTheReport : Prop :=
  ∀ (s : State) (k : Slot) (entries : List ShopCode),
    let listed := s.modLink k (reportedRecord entries)
    let active := ((s.link k).kind .shopAlert).active
    let alert := ∃ e ∈ entries, 0x8000 ≤ e.code
    (alert → active = false → takeReport k entries s = raiseKind k .shopAlert listed) ∧
      (alert → active = true → takeReport k entries s = listed) ∧
      (¬ alert → active = true → takeReport k entries s = clearKind k .shopAlert listed) ∧
      (¬ alert → active = false → takeReport k entries s = listed)

/-- A quarantine erases every key, window and timer of the link, takes its range from the link's triple in the Branch
Map, so that an altered range is restored, keeps its marks, profile, rate, silence and scores, and takes it off the Due
List, out of the renewal records and out of the queued offers; on a QUARANTINED link it does nothing (R14, R103, R123,
R141, R178; the order of its parts is log entry 16, and that it leaves a VACANT slot alone is log entry 25). A
quarantine is its parts in their order: the record erased with a fresh code, KEY_SPENT cleared with its notice when it
is active, the renewal record freed, the Due List entry and the offer taken away, the other items staying in their order
and every other link record as it was, and then the tries at admission and at origination (R103, R123, R140, R178). -/
def Obligations.QuarantineErasesTheLink : Prop :=
  (∀ (s : State) (k : Slot),
     let l := s.link k
     (∀ it : Item, isOfferOf k it = true ↔ ∃ packet, it = .offer k packet) ∧
       (∀ u, s.branchMap.find? (fun u => u.slot = k) = some u → s.rangeOf k = (u.first, u.last)) ∧
       (s.branchMap.find? (fun u => u.slot = k) = none → s.rangeOf k = (l.first, l.last))) ∧
  (∀ (s : State) (k : Slot),
     let l := s.link k
     let erased := { l with
       state := .quarantined, first := (s.rangeOf k).1, last := (s.rangeOf k).2, rootKey := 0, rootSequence := 0,
       rootWindow := .empty, current := .empty, nextSequence := 0, retiring := .empty, retireTimer := 0,
       renewal := .idle, restTimer := 0 }
     let written := s.setLink k { erased with checkCode := freshCode erased }
     let cleared := if (l.kind .keySpent).active then clearKind k .keySpent written else written
     let freed := match s.recordOf k with
       | none => cleared
       | some n => { cleared with
           records := s.records.set n.val .free, sendOrder := s.sendOrder.filter fun m => m ≠ n }
     let left := { freed with
         dueList := ⟨s.dueList.urgent.filter fun j => j ≠ k, s.dueList.ordinary.filter fun j => j ≠ k⟩
         queue := cleared.queue.filter fun it => isOfferOf k it = false }
     l.state ≠ .quarantined → l.state ≠ .vacant →
       quarantineLink k s = tryOriginate (tryAdmit left) ∧ ∀ j, j ≠ k → left.link j = s.link j) ∧
  ∀ (s : State) (k : Slot),
    let l := s.link k
    let t := quarantineLink k s
    let m := t.link k
    (l.state = .quarantined ∨ l.state = .vacant → t = s) ∧
      (l.state ≠ .quarantined → l.state ≠ .vacant →
        m.state = .quarantined ∧ m.rootKey = 0 ∧ m.rootSequence = 0 ∧ m.rootWindow = .empty ∧ m.current = .empty ∧
          m.nextSequence = 0 ∧ m.retiring = .empty ∧ m.retireTimer = 0 ∧ m.renewal = .idle ∧ m.restTimer = 0 ∧
          m.checkCode = freshCode m ∧ m.hostHold = l.hostHold ∧ m.supervisorHold = l.supervisorHold ∧
          m.profile = l.profile ∧ m.rate = l.rate ∧ m.periodCount = l.periodCount ∧ m.silence = l.silence ∧
          m.scores = l.scores ∧ m.shopCodes = l.shopCodes ∧ (m.kind .keySpent).active = false ∧
          (∀ kind, kind ≠ .keySpent → m.kind kind = l.kind kind) ∧
          ((s.branchMap.map Triple.slot).Nodup → ∀ u ∈ s.branchMap, u.slot = k → m.first = u.first ∧ m.last = u.last) ∧
          k ∉ t.dueList.urgent ++ t.dueList.ordinary ∧ (∀ it ∈ t.queue, isOfferOf k it = false) ∧
          (s.TurnoverOk → t.recordOf k = none) ∧ t.branchMap = s.branchMap)

/-! ## The Renewal Clock and the Scrubber -/

/-- A scrub step visits the first STANDBY, LIVE or STALLED link from the walk position on, round past slot 511, and
moves the walk position past it; a record whose code agrees is left alone, one whose code does not is quarantined by
STORE_CORRUPT (R138, R139, R140). The order of the board writes is log entry 15. A link is visited exactly when it is
STANDBY, LIVE or STALLED (R138). -/
def Obligations.ScrubStepVisitsTheNextRecord : Prop :=
  (∀ (s : State) (k : Slot), s.scrubbed k = true ↔
     (s.link k).state = .standby ∨ (s.link k).state = .live ∨ (s.link k).state = .stalled) ∧
  ∀ (env : Env) (s : State), s.timebaseRuns = true → cleanEnv env →
    ((∀ k, s.scrubbed k = false) → ∃ t, exec (.scrubStep env) s = .next t ∧ SilentDone s t s) ∧
      ∀ k, s.scrubbed k = true →
        (s.walkPosition ≤ k ∧ (∀ j, s.walkPosition ≤ j → j < k → s.scrubbed j = false)) ∨
          (k < s.walkPosition ∧ (∀ j, s.walkPosition ≤ j ∨ j < k → s.scrubbed j = false)) →
        let next : Slot := if h : k.val + 1 < 512 then ⟨k.val + 1, h⟩ else 0
        (freshCode (s.link k) = (s.link k).checkCode →
          ∃ t, exec (.scrubStep env) s = .next t ∧ SilentDone s t { s with walkPosition := next }) ∧
          (freshCode (s.link k) ≠ (s.link k).checkCode →
            ∃ t, exec (.scrubStep env) s = .next t ∧ (t.link k).state = .quarantined ∧ t.walkPosition = next ∧
              EventDone s t [] (raiseKind k .storeCorrupt { beginEvent env s with walkPosition := next }))

/-- A period mark at a link record: aging with the spent checks, the retire timer, the rest timer, the rate estimate, the due
check, the decays and the silence count, in that order; a VACANT record is not reached (R63 to R68, R74, R111, R114). Each
IN_USE slot is one period older, and spent or erased at a limit (R64); the retire timer of an IN_USE RETIRING slot goes
down by 1, and erases the slot at 0 (R65); the rest timer of a link in REST goes down by 1, and ends the rest at 0 (R66).
What no later step of the mark touches is stated of the state it leaves: ages, timers, and the rate, which takes in the
period count, which returns to 0. That the one due check, after the rate update, serves a rest that has ended too is log
entry 17. The order of the board writes is log entry 15. -/
def Obligations.PeriodMarkAtLinkAgesAndRates : Prop :=
  (∀ (s : State) (k : Slot),
     let l := s.link k
     let current := { l.current with age := l.current.age + 1 }
     let retiring := { l.retiring with age := l.retiring.age + 1 }
     let reached (key : KeySlot) := key.budget < key.use + 98 ∨ key.ageLimit ≤ key.age
     (l.current.state = .inUse →
       (reached current → ageCurrent k s = spendCurrent k (s.setLink k { l with current := current })) ∧
         (¬ reached current → ageCurrent k s = s.setLink k { l with current := current })) ∧
       (l.current.state ≠ .inUse → ageCurrent k s = s) ∧
       (l.retiring.state = .inUse →
         (reached retiring → ageRetiring k s = eraseRetiring k (s.setLink k { l with retiring := retiring })) ∧
           (¬ reached retiring → ageRetiring k s = s.setLink k { l with retiring := retiring })) ∧
       (l.retiring.state ≠ .inUse → ageRetiring k s = s ∧ countRetireTimer k s = s) ∧
       (l.retiring.state = .inUse →
         (l.retireTimer ≤ 1 → countRetireTimer k s = eraseRetiring k s) ∧
           (2 ≤ l.retireTimer → countRetireTimer k s = s.setLink k { l with retireTimer := l.retireTimer - 1 })) ∧
       (l.renewal = .rest →
         (l.restTimer ≤ 1 → countedRest l = { l with renewal := .idle, restTimer := 0 }) ∧
           (2 ≤ l.restTimer → countedRest l = { l with restTimer := l.restTimer - 1 })) ∧
       (l.renewal ≠ .rest → countedRest l = l)) ∧
  ∀ (env : Env) (s : State) (k : Slot), s.timebaseRuns = true → cleanEnv env →
    let l := s.link k
    (l.state = .vacant → ∃ t, exec (.periodMarkAtLink k env) s = .next t ∧ SilentDone s t s) ∧
      (l.state ≠ .vacant →
        let aged := ageRetiring k (ageCurrent k (beginEvent env s))
        let counted := countRetireTimer k aged
        let rested := counted.setLink k (countedRest (counted.link k))
        let rated := rested.setLink k
          { rested.link k with rate := min 16777215 (l.rate - l.rate / 8 + 2 * l.periodCount), periodCount := 0 }
        ∃ t, exec (.periodMarkAtLink k env) s = .next t ∧
          EventDone s t [] (countSilence k (decayKinds k (dueCheck k .testsUrgency rated))) ∧
          (t.link k).rate = min 16777215 (l.rate - l.rate / 8 + 2 * l.periodCount) ∧ (t.link k).periodCount = 0 ∧
          ((t.link k).state ≠ .quarantined →
            (l.current.state = .inUse → l.current.use + 98 ≤ l.current.budget →
              l.current.age + 1 < l.current.ageLimit →
              (t.link k).current = { l.current with age := l.current.age + 1 }) ∧
              (l.retiring.state = .inUse → l.retiring.use + 98 ≤ l.retiring.budget →
                l.retiring.age + 1 < l.retiring.ageLimit → 2 ≤ l.retireTimer →
                (t.link k).retiring = { l.retiring with age := l.retiring.age + 1 } ∧
                  (t.link k).retireTimer = l.retireTimer - 1) ∧
              (l.retiring.state = .inUse → l.retireTimer ≤ 1 → (t.link k).retiring = .empty)) ∧
          ((t.link k).renewal = .rest →
            l.renewal = .rest ∧ 2 ≤ l.restTimer ∧ (t.link k).restTimer = l.restTimer - 1))

/-- The aging that brings an IN_USE slot to its age limit spends CURRENT, with KEY_SPENT raised unless active, and erases
RETIRING (R12, R13, R64). What spending and erasing leave, each with the code taken on by difference (R12, R13, R136), and
the spent checks that make them (R75). The mark that brings a retire timer to 0 erases RETIRING, and the mark that brings a rest timer
to 0 makes the link IDLE and makes the due check (R65, R66). That AGE_LIMIT_REACHED, RETIRE_TIMER_EXPIRY and REST_END are
these parts of a mark alone is log entry 7. A slot or timer that is not at its last period is not brought there, and
nothing changes (log entry 5). The order of the board writes is log entry 15. -/
def Obligations.LimitsAndTimersOfAMark : Prop :=
  (∀ (s : State) (k : Slot),
     let l := s.link k
     let reached (key : KeySlot) := key.state = .inUse ∧ (key.budget < key.use + 98 ∨ key.ageLimit ≤ key.age)
     let spent := { l with
       state := .stalled
       current := { l.current with state := .spent, key := 0, salt := 0, window := .empty } }
     let stalled := s.setLink k { spent with checkCode := l.checkCode ^^^ (freshCode l ^^^ freshCode spent) }
     let erased := { l with retiring := .empty, retireTimer := 0 }
     spendCurrent k s = (if (l.kind .keySpent).active then stalled else raiseKind k .keySpent stalled) ∧
       (l.retiring.state = .inUse →
         eraseRetiring k s =
           s.setLink k { erased with checkCode := l.checkCode ^^^ (freshCode l ^^^ freshCode erased) }) ∧
       (l.retiring.state ≠ .inUse → eraseRetiring k s = s) ∧
       (reached l.current → checkCurrent k s = spendCurrent k s) ∧ (¬ reached l.current → checkCurrent k s = s) ∧
       (reached l.retiring → checkRetiring k s = eraseRetiring k s) ∧
       (¬ reached l.retiring → checkRetiring k s = s)) ∧
  (∀ (env : Env) (s : State) (k : Slot), s.timebaseRuns = true → cleanEnv env →
     let l := s.link k
     (l.current.state = .inUse → l.current.ageLimit ≤ l.current.age + 1 → l.state ≠ .vacant →
       let older := { l with current := { l.current with age := l.current.age + 1 } }
       let spent := { older with
         state := .stalled
         current := { older.current with state := .spent, key := 0, salt := 0, window := .empty } }
       let stalled := (beginEvent env s).setLink k
         { spent with checkCode := l.checkCode ^^^ (freshCode older ^^^ freshCode spent) }
       ∃ t, exec (.ageLimitReached k .current env) s = .next t ∧
         EventDone s t [] (if (l.kind .keySpent).active then stalled else raiseKind k .keySpent stalled) ∧
         ((t.link k).state = .stalled ∨ (t.link k).state = .quarantined)) ∧
       (l.retiring.state = .inUse → l.retiring.ageLimit ≤ l.retiring.age + 1 → l.state ≠ .vacant →
         let older := { l with retiring := { l.retiring with age := l.retiring.age + 1 } }
         let erased := { older with retiring := .empty, retireTimer := 0 }
         ∃ t, exec (.ageLimitReached k .retiring env) s = .next t ∧
           EventDone s t []
             (s.setLink k { erased with checkCode := l.checkCode ^^^ (freshCode older ^^^ freshCode erased) })) ∧
       (l.current.state ≠ .inUse ∨ l.current.age + 1 < l.current.ageLimit →
         ∃ t, exec (.ageLimitReached k .current env) s = .next t ∧ SilentDone s t s) ∧
       (l.retiring.state ≠ .inUse ∨ l.retiring.age + 1 < l.retiring.ageLimit →
         ∃ t, exec (.ageLimitReached k .retiring env) s = .next t ∧ SilentDone s t s)) ∧
  (∀ (env : Env) (s : State) (k : Slot), s.timebaseRuns = true → cleanEnv env → (s.link k).state ≠ .vacant →
     let l := s.link k
     let erased := { l with retiring := .empty, retireTimer := 0 }
     (l.retiring.state = .inUse → l.retireTimer ≤ 1 →
       ∃ t, exec (.retireTimerExpiry k env) s = .next t ∧
         EventDone s t []
           (s.setLink k { erased with checkCode := l.checkCode ^^^ (freshCode l ^^^ freshCode erased) })) ∧
       (l.retiring.state ≠ .inUse ∨ 2 ≤ l.retireTimer →
         ∃ t, exec (.retireTimerExpiry k env) s = .next t ∧ SilentDone s t s) ∧
       (l.renewal = .rest → l.restTimer ≤ 1 →
         ∃ t, exec (.restEnd k env) s = .next t ∧
           EventDone s t []
             (dueCheck k .joinsOnly ((beginEvent env s).setLink k { l with renewal := .idle, restTimer := 0 }))) ∧
       (l.renewal ≠ .rest ∨ 2 ≤ l.restTimer → ∃ t, exec (.restEnd k env) s = .next t ∧ SilentDone s t s))
end

