-- ==== Sys2Proof/Laws/Bytes.lean ====
section
/-! SUPPORT. Laws of the byte orders (R211) and of the packet header (11.2): bytes written and read back give the same number, field and header, and a packet nonce is its salt in front of its other fields. -/

namespace Sys2Proof.Machine

/-- `leBytes` answers as many bytes as it is asked for. -/
@[simp] theorem leBytes_length (n v : Nat) : (leBytes n v).length = n := by
  induction n generalizing v with
  | zero => rfl
  | succ n ih => simp [leBytes, ih]

/-- `beBytes` answers as many bytes as it is asked for. -/
@[simp] theorem beBytes_length (n v : Nat) : (beBytes n v).length = n := by simp [beBytes]

/-- Bytes written least-significant byte first read back as the number, as far as they hold it. -/
theorem ofLe_leBytes (n v : Nat) : ofLe (leBytes n v) = v % 256 ^ n := by
  induction n generalizing v with
  | zero => simp [leBytes, ofLe, Nat.mod_one]
  | succ n ih =>
    have h : (BitVec.ofNat 8 v).toNat = v % 256 := by simp
    rw [leBytes, ofLe, ih, h, Nat.pow_succ', Nat.mod_mul]

/-- Bytes written most-significant byte first read back as the number, as far as they hold it. -/
theorem ofBe_beBytes (n v : Nat) : ofBe (beBytes n v) = v % 256 ^ n := by
  simp [ofBe, beBytes, ofLe_leBytes]

/-- `bytesAt` answers as many bytes as it is asked for. -/
@[simp] theorem bytesAt_length (bs : List Byte) (o n : Nat) : (bytesAt bs o n).length = n := by simp [bytesAt]

/-- The bytes of `b`, found behind `a`. -/
theorem bytesAt_append (a b c : List Byte) : bytesAt (a ++ (b ++ c)) a.length b.length = b := by
  apply List.ext_getElem
  · simp
  · intro i h1 h2
    have : i < b.length := h2
    simp [bytesAt, List.getD_eq_getElem?_getD, List.getElem?_append, this]

/-- The bytes of `b`, found behind bytes that are `o` in number, `n` of them. -/
theorem bytesAt_part {a b c : List Byte} {o n : Nat} (ho : a.length = o) (hn : b.length = n) :
    bytesAt (a ++ (b ++ c)) o n = b := by
  subst ho hn
  exact bytesAt_append a b c

/-- A tag read from its 16 bytes. -/
theorem tag_read (t : Tag) : BitVec.ofNat 128 (ofLe (tagBytes t)) = t := by
  have h : t.toNat % 256 ^ 16 = t.toNat := Nat.mod_eq_of_lt (by have := t.isLt; omega)
  rw [tagBytes, ofLe_leBytes, h, BitVec.ofNat_toNat, BitVec.setWidth_eq]

/-- A wrapped form read from its 48 bytes. -/
theorem wrapped_read (w : Wrapped) : BitVec.ofNat 384 (ofLe (wrappedBytes w)) = w := by
  have h : w.toNat % 256 ^ 48 = w.toNat := Nat.mod_eq_of_lt (by have := w.isLt; omega)
  rw [wrappedBytes, ofLe_leBytes, h, BitVec.ofNat_toNat, BitVec.setWidth_eq]

/-- A header read from the packet that begins with it. -/
theorem parseHeader_headerBytes (h : Header) (rest : List Byte) : parseHeader (headerBytes h ++ rest) = h := by
  obtain ⟨f, c, g, fl, b, l, s⟩ := h
  have hb : bytesAt (headerBytes ⟨f, c, g, fl, b, l, s⟩ ++ rest) 4 2 = beBytes 2 b.toNat := by
    have := bytesAt_part (a := [f, c, g, fl]) (b := beBytes 2 b.toNat)
      (c := beBytes 2 l.toNat ++ beBytes 4 s.toNat ++ rest) (o := 4) (n := 2) rfl (by simp)
    simpa [headerBytes, List.append_assoc] using this
  have hl : bytesAt (headerBytes ⟨f, c, g, fl, b, l, s⟩ ++ rest) 6 2 = beBytes 2 l.toNat := by
    have := bytesAt_part (a := [f, c, g, fl] ++ beBytes 2 b.toNat) (b := beBytes 2 l.toNat)
      (c := beBytes 4 s.toNat ++ rest) (o := 6) (n := 2) (by simp) (by simp)
    simpa [headerBytes, List.append_assoc] using this
  have hs : bytesAt (headerBytes ⟨f, c, g, fl, b, l, s⟩ ++ rest) 8 4 = beBytes 4 s.toNat := by
    have := bytesAt_part (a := [f, c, g, fl] ++ beBytes 2 b.toNat ++ beBytes 2 l.toNat) (b := beBytes 4 s.toNat)
      (c := rest) (o := 8) (n := 4) (by simp) (by simp)
    simpa [headerBytes, List.append_assoc] using this
  have eb : b.toNat % 256 ^ 2 = b.toNat := Nat.mod_eq_of_lt (by have := b.isLt; omega)
  have el : l.toNat % 256 ^ 2 = l.toNat := Nat.mod_eq_of_lt (by have := l.isLt; omega)
  have es : s.toNat % 256 ^ 4 = s.toNat := Nat.mod_eq_of_lt (by have := s.isLt; omega)
  rw [parseHeader, hb, hl, hs, ofBe_beBytes, ofBe_beBytes, ofBe_beBytes, eb, el, es]
  simp [headerBytes]

/-- The nonce of a packet as the salt in front of 48 bits, the form in which `CipherUnit.encipher_binds_key` names it. -/
theorem packetNonce_split (salt : Salt) (h : Header) :
    packetNonce salt h = salt ++ (direction h ++ h.generation ++ h.sequence : BitVec 48) := by
  apply BitVec.eq_of_getLsbD_eq
  intro i hi
  simp only [packetNonce, BitVec.getLsbD_append]
  split
  · simp [show i < 48 by omega]
  · split <;> split <;> first | omega | skip
    all_goals simp_all [Nat.sub_sub]
    all_goals omega

end Sys2Proof.Machine
end

