-- ==== Sys2Proof/Laws/State.lean ====
section
/-! SUPPORT. What each named update of the state leaves and changes, one lemma for each field. -/

namespace Sys2Proof.Machine

variable (s : State)

/-! ## State.setLink -/

@[simp] theorem State.setLink_resetn (k : Slot) (l : Link) : (s.setLink k l).resetn = s.resetn := rfl
@[simp] theorem State.setLink_quiescePin (k : Slot) (l : Link) : (s.setLink k l).quiescePin = s.quiescePin := rfl
@[simp] theorem State.setLink_quiesce (k : Slot) (l : Link) : (s.setLink k l).quiesce = s.quiesce := rfl
@[simp] theorem State.setLink_settings (k : Slot) (l : Link) : (s.setLink k l).settings = s.settings := rfl
@[simp] theorem State.setLink_oneTimeStore (k : Slot) (l : Link) :
    (s.setLink k l).oneTimeStore = s.oneTimeStore := rfl
@[simp] theorem State.setLink_masterKey (k : Slot) (l : Link) : (s.setLink k l).masterKey = s.masterKey := rfl
@[simp] theorem State.setLink_mask (k : Slot) (l : Link) : (s.setLink k l).mask = s.mask := rfl
@[simp] theorem State.setLink_causes (k : Slot) (l : Link) : (s.setLink k l).causes = s.causes := rfl
@[simp] theorem State.setLink_clamped (k : Slot) (l : Link) : (s.setLink k l).clamped = s.clamped := rfl
@[simp] theorem State.setLink_run (k : Slot) (l : Link) : (s.setLink k l).run = s.run := rfl
@[simp] theorem State.setLink_workBase (k : Slot) (l : Link) : (s.setLink k l).workBase = s.workBase := rfl
@[simp] theorem State.setLink_batchA (k : Slot) (l : Link) : (s.setLink k l).batchA = s.batchA := rfl
@[simp] theorem State.setLink_batchB (k : Slot) (l : Link) : (s.setLink k l).batchB = s.batchB := rfl
@[simp] theorem State.setLink_engine (k : Slot) (l : Link) : (s.setLink k l).engine = s.engine := rfl
@[simp] theorem State.setLink_firstWaiting (k : Slot) (l : Link) :
    (s.setLink k l).firstWaiting = s.firstWaiting := rfl
@[simp] theorem State.setLink_nextIndex (k : Slot) (l : Link) : (s.setLink k l).nextIndex = s.nextIndex := rfl
@[simp] theorem State.setLink_entriesDone (k : Slot) (l : Link) : (s.setLink k l).entriesDone = s.entriesDone := rfl
@[simp] theorem State.setLink_faultStop (k : Slot) (l : Link) : (s.setLink k l).faultStop = s.faultStop := rfl
@[simp] theorem State.setLink_abandoned (k : Slot) (l : Link) : (s.setLink k l).abandoned = s.abandoned := rfl
@[simp] theorem State.setLink_branchMap (k : Slot) (l : Link) : (s.setLink k l).branchMap = s.branchMap := rfl
theorem State.setLink_links (k : Slot) (l : Link) :
    (s.setLink k l).links = if l = .vacant then tableErase s.links k.val else tablePut s.links k.val l := rfl
@[simp] theorem State.setLink_profiles (k : Slot) (l : Link) : (s.setLink k l).profiles = s.profiles := rfl
@[simp] theorem State.setLink_dueList (k : Slot) (l : Link) : (s.setLink k l).dueList = s.dueList := rfl
@[simp] theorem State.setLink_records (k : Slot) (l : Link) : (s.setLink k l).records = s.records := rfl
@[simp] theorem State.setLink_sendOrder (k : Slot) (l : Link) : (s.setLink k l).sendOrder = s.sendOrder := rfl
@[simp] theorem State.setLink_queue (k : Slot) (l : Link) : (s.setLink k l).queue = s.queue := rfl
@[simp] theorem State.setLink_device (k : Slot) (l : Link) : (s.setLink k l).device = s.device := rfl
@[simp] theorem State.setLink_boardBase (k : Slot) (l : Link) : (s.setLink k l).boardBase = s.boardBase := rfl
@[simp] theorem State.setLink_lastDraw (k : Slot) (l : Link) : (s.setLink k l).lastDraw = s.lastDraw := rfl
@[simp] theorem State.setLink_phase (k : Slot) (l : Link) : (s.setLink k l).phase = s.phase := rfl
@[simp] theorem State.setLink_walkPosition (k : Slot) (l : Link) :
    (s.setLink k l).walkPosition = s.walkPosition := rfl
@[simp] theorem State.setLink_hostMem (k : Slot) (l : Link) : (s.setLink k l).hostMem = s.hostMem := rfl
@[simp] theorem State.setLink_posted (k : Slot) (l : Link) : (s.setLink k l).posted = s.posted := rfl
@[simp] theorem State.setLink_bus (k : Slot) (l : Link) : (s.setLink k l).bus = s.bus := rfl
@[simp] theorem State.setLink_noise (k : Slot) (l : Link) : (s.setLink k l).noise = s.noise := rfl
@[simp] theorem State.setLink_drawCount (k : Slot) (l : Link) : (s.setLink k l).drawCount = s.drawCount := rfl
@[simp] theorem State.setLink_pending (k : Slot) (l : Link) : (s.setLink k l).pending = s.pending := rfl

/-! ## State.modLink -/

@[simp] theorem State.modLink_resetn (k : Slot) (f : Link → Link) : (s.modLink k f).resetn = s.resetn := rfl
@[simp] theorem State.modLink_quiescePin (k : Slot) (f : Link → Link) :
    (s.modLink k f).quiescePin = s.quiescePin := rfl
@[simp] theorem State.modLink_quiesce (k : Slot) (f : Link → Link) : (s.modLink k f).quiesce = s.quiesce := rfl
@[simp] theorem State.modLink_settings (k : Slot) (f : Link → Link) : (s.modLink k f).settings = s.settings := rfl
@[simp] theorem State.modLink_oneTimeStore (k : Slot) (f : Link → Link) :
    (s.modLink k f).oneTimeStore = s.oneTimeStore := rfl
@[simp] theorem State.modLink_masterKey (k : Slot) (f : Link → Link) : (s.modLink k f).masterKey = s.masterKey := rfl
@[simp] theorem State.modLink_mask (k : Slot) (f : Link → Link) : (s.modLink k f).mask = s.mask := rfl
@[simp] theorem State.modLink_causes (k : Slot) (f : Link → Link) : (s.modLink k f).causes = s.causes := rfl
@[simp] theorem State.modLink_clamped (k : Slot) (f : Link → Link) : (s.modLink k f).clamped = s.clamped := rfl
@[simp] theorem State.modLink_run (k : Slot) (f : Link → Link) : (s.modLink k f).run = s.run := rfl
@[simp] theorem State.modLink_workBase (k : Slot) (f : Link → Link) : (s.modLink k f).workBase = s.workBase := rfl
@[simp] theorem State.modLink_batchA (k : Slot) (f : Link → Link) : (s.modLink k f).batchA = s.batchA := rfl
@[simp] theorem State.modLink_batchB (k : Slot) (f : Link → Link) : (s.modLink k f).batchB = s.batchB := rfl
@[simp] theorem State.modLink_engine (k : Slot) (f : Link → Link) : (s.modLink k f).engine = s.engine := rfl
@[simp] theorem State.modLink_firstWaiting (k : Slot) (f : Link → Link) :
    (s.modLink k f).firstWaiting = s.firstWaiting := rfl
@[simp] theorem State.modLink_nextIndex (k : Slot) (f : Link → Link) : (s.modLink k f).nextIndex = s.nextIndex := rfl
@[simp] theorem State.modLink_entriesDone (k : Slot) (f : Link → Link) :
    (s.modLink k f).entriesDone = s.entriesDone := rfl
@[simp] theorem State.modLink_faultStop (k : Slot) (f : Link → Link) : (s.modLink k f).faultStop = s.faultStop := rfl
@[simp] theorem State.modLink_abandoned (k : Slot) (f : Link → Link) : (s.modLink k f).abandoned = s.abandoned := rfl
@[simp] theorem State.modLink_branchMap (k : Slot) (f : Link → Link) : (s.modLink k f).branchMap = s.branchMap := rfl
theorem State.modLink_links (k : Slot) (f : Link → Link) :
    (s.modLink k f).links = (s.setLink k (f (s.link k))).links := rfl
@[simp] theorem State.modLink_profiles (k : Slot) (f : Link → Link) : (s.modLink k f).profiles = s.profiles := rfl
@[simp] theorem State.modLink_dueList (k : Slot) (f : Link → Link) : (s.modLink k f).dueList = s.dueList := rfl
@[simp] theorem State.modLink_records (k : Slot) (f : Link → Link) : (s.modLink k f).records = s.records := rfl
@[simp] theorem State.modLink_sendOrder (k : Slot) (f : Link → Link) : (s.modLink k f).sendOrder = s.sendOrder := rfl
@[simp] theorem State.modLink_queue (k : Slot) (f : Link → Link) : (s.modLink k f).queue = s.queue := rfl
@[simp] theorem State.modLink_device (k : Slot) (f : Link → Link) : (s.modLink k f).device = s.device := rfl
@[simp] theorem State.modLink_boardBase (k : Slot) (f : Link → Link) : (s.modLink k f).boardBase = s.boardBase := rfl
@[simp] theorem State.modLink_lastDraw (k : Slot) (f : Link → Link) : (s.modLink k f).lastDraw = s.lastDraw := rfl
@[simp] theorem State.modLink_phase (k : Slot) (f : Link → Link) : (s.modLink k f).phase = s.phase := rfl
@[simp] theorem State.modLink_walkPosition (k : Slot) (f : Link → Link) :
    (s.modLink k f).walkPosition = s.walkPosition := rfl
@[simp] theorem State.modLink_hostMem (k : Slot) (f : Link → Link) : (s.modLink k f).hostMem = s.hostMem := rfl
@[simp] theorem State.modLink_posted (k : Slot) (f : Link → Link) : (s.modLink k f).posted = s.posted := rfl
@[simp] theorem State.modLink_bus (k : Slot) (f : Link → Link) : (s.modLink k f).bus = s.bus := rfl
@[simp] theorem State.modLink_noise (k : Slot) (f : Link → Link) : (s.modLink k f).noise = s.noise := rfl
@[simp] theorem State.modLink_drawCount (k : Slot) (f : Link → Link) : (s.modLink k f).drawCount = s.drawCount := rfl
@[simp] theorem State.modLink_pending (k : Slot) (f : Link → Link) : (s.modLink k f).pending = s.pending := rfl

/-! ## State.setRecord -/

@[simp] theorem State.setRecord_resetn (n : RecordNumber) (r : RenewalRecord) :
    (s.setRecord n r).resetn = s.resetn := rfl
@[simp] theorem State.setRecord_quiescePin (n : RecordNumber) (r : RenewalRecord) :
    (s.setRecord n r).quiescePin = s.quiescePin := rfl
@[simp] theorem State.setRecord_quiesce (n : RecordNumber) (r : RenewalRecord) :
    (s.setRecord n r).quiesce = s.quiesce := rfl
@[simp] theorem State.setRecord_settings (n : RecordNumber) (r : RenewalRecord) :
    (s.setRecord n r).settings = s.settings := rfl
@[simp] theorem State.setRecord_oneTimeStore (n : RecordNumber) (r : RenewalRecord) :
    (s.setRecord n r).oneTimeStore = s.oneTimeStore := rfl
@[simp] theorem State.setRecord_masterKey (n : RecordNumber) (r : RenewalRecord) :
    (s.setRecord n r).masterKey = s.masterKey := rfl
@[simp] theorem State.setRecord_mask (n : RecordNumber) (r : RenewalRecord) : (s.setRecord n r).mask = s.mask := rfl
@[simp] theorem State.setRecord_causes (n : RecordNumber) (r : RenewalRecord) :
    (s.setRecord n r).causes = s.causes := rfl
@[simp] theorem State.setRecord_clamped (n : RecordNumber) (r : RenewalRecord) :
    (s.setRecord n r).clamped = s.clamped := rfl
@[simp] theorem State.setRecord_run (n : RecordNumber) (r : RenewalRecord) : (s.setRecord n r).run = s.run := rfl
@[simp] theorem State.setRecord_workBase (n : RecordNumber) (r : RenewalRecord) :
    (s.setRecord n r).workBase = s.workBase := rfl
@[simp] theorem State.setRecord_batchA (n : RecordNumber) (r : RenewalRecord) :
    (s.setRecord n r).batchA = s.batchA := rfl
@[simp] theorem State.setRecord_batchB (n : RecordNumber) (r : RenewalRecord) :
    (s.setRecord n r).batchB = s.batchB := rfl
@[simp] theorem State.setRecord_engine (n : RecordNumber) (r : RenewalRecord) :
    (s.setRecord n r).engine = s.engine := rfl
@[simp] theorem State.setRecord_firstWaiting (n : RecordNumber) (r : RenewalRecord) :
    (s.setRecord n r).firstWaiting = s.firstWaiting := rfl
@[simp] theorem State.setRecord_nextIndex (n : RecordNumber) (r : RenewalRecord) :
    (s.setRecord n r).nextIndex = s.nextIndex := rfl
@[simp] theorem State.setRecord_entriesDone (n : RecordNumber) (r : RenewalRecord) :
    (s.setRecord n r).entriesDone = s.entriesDone := rfl
@[simp] theorem State.setRecord_faultStop (n : RecordNumber) (r : RenewalRecord) :
    (s.setRecord n r).faultStop = s.faultStop := rfl
@[simp] theorem State.setRecord_abandoned (n : RecordNumber) (r : RenewalRecord) :
    (s.setRecord n r).abandoned = s.abandoned := rfl
@[simp] theorem State.setRecord_branchMap (n : RecordNumber) (r : RenewalRecord) :
    (s.setRecord n r).branchMap = s.branchMap := rfl
@[simp] theorem State.setRecord_links (n : RecordNumber) (r : RenewalRecord) :
    (s.setRecord n r).links = s.links := rfl
@[simp] theorem State.setRecord_profiles (n : RecordNumber) (r : RenewalRecord) :
    (s.setRecord n r).profiles = s.profiles := rfl
@[simp] theorem State.setRecord_dueList (n : RecordNumber) (r : RenewalRecord) :
    (s.setRecord n r).dueList = s.dueList := rfl
@[simp] theorem State.setRecord_records (n : RecordNumber) (r : RenewalRecord) :
    (s.setRecord n r).records = s.records.set n.val r := rfl
@[simp] theorem State.setRecord_sendOrder (n : RecordNumber) (r : RenewalRecord) :
    (s.setRecord n r).sendOrder = s.sendOrder := rfl
@[simp] theorem State.setRecord_queue (n : RecordNumber) (r : RenewalRecord) :
    (s.setRecord n r).queue = s.queue := rfl
@[simp] theorem State.setRecord_device (n : RecordNumber) (r : RenewalRecord) :
    (s.setRecord n r).device = s.device := rfl
@[simp] theorem State.setRecord_boardBase (n : RecordNumber) (r : RenewalRecord) :
    (s.setRecord n r).boardBase = s.boardBase := rfl
@[simp] theorem State.setRecord_lastDraw (n : RecordNumber) (r : RenewalRecord) :
    (s.setRecord n r).lastDraw = s.lastDraw := rfl
@[simp] theorem State.setRecord_phase (n : RecordNumber) (r : RenewalRecord) :
    (s.setRecord n r).phase = s.phase := rfl
@[simp] theorem State.setRecord_walkPosition (n : RecordNumber) (r : RenewalRecord) :
    (s.setRecord n r).walkPosition = s.walkPosition := rfl
@[simp] theorem State.setRecord_hostMem (n : RecordNumber) (r : RenewalRecord) :
    (s.setRecord n r).hostMem = s.hostMem := rfl
@[simp] theorem State.setRecord_posted (n : RecordNumber) (r : RenewalRecord) :
    (s.setRecord n r).posted = s.posted := rfl
@[simp] theorem State.setRecord_bus (n : RecordNumber) (r : RenewalRecord) : (s.setRecord n r).bus = s.bus := rfl
@[simp] theorem State.setRecord_noise (n : RecordNumber) (r : RenewalRecord) :
    (s.setRecord n r).noise = s.noise := rfl
@[simp] theorem State.setRecord_drawCount (n : RecordNumber) (r : RenewalRecord) :
    (s.setRecord n r).drawCount = s.drawCount := rfl
@[simp] theorem State.setRecord_pending (n : RecordNumber) (r : RenewalRecord) :
    (s.setRecord n r).pending = s.pending := rfl

/-! ## State.modDevice -/

@[simp] theorem State.modDevice_resetn (f : DeviceFaults → DeviceFaults) : (s.modDevice f).resetn = s.resetn := rfl
@[simp] theorem State.modDevice_quiescePin (f : DeviceFaults → DeviceFaults) :
    (s.modDevice f).quiescePin = s.quiescePin := rfl
@[simp] theorem State.modDevice_quiesce (f : DeviceFaults → DeviceFaults) : (s.modDevice f).quiesce = s.quiesce := rfl
@[simp] theorem State.modDevice_settings (f : DeviceFaults → DeviceFaults) :
    (s.modDevice f).settings = s.settings := rfl
@[simp] theorem State.modDevice_oneTimeStore (f : DeviceFaults → DeviceFaults) :
    (s.modDevice f).oneTimeStore = s.oneTimeStore := rfl
@[simp] theorem State.modDevice_masterKey (f : DeviceFaults → DeviceFaults) :
    (s.modDevice f).masterKey = s.masterKey := rfl
@[simp] theorem State.modDevice_mask (f : DeviceFaults → DeviceFaults) : (s.modDevice f).mask = s.mask := rfl
@[simp] theorem State.modDevice_causes (f : DeviceFaults → DeviceFaults) : (s.modDevice f).causes = s.causes := rfl
@[simp] theorem State.modDevice_clamped (f : DeviceFaults → DeviceFaults) : (s.modDevice f).clamped = s.clamped := rfl
@[simp] theorem State.modDevice_run (f : DeviceFaults → DeviceFaults) : (s.modDevice f).run = s.run := rfl
@[simp] theorem State.modDevice_workBase (f : DeviceFaults → DeviceFaults) :
    (s.modDevice f).workBase = s.workBase := rfl
@[simp] theorem State.modDevice_batchA (f : DeviceFaults → DeviceFaults) : (s.modDevice f).batchA = s.batchA := rfl
@[simp] theorem State.modDevice_batchB (f : DeviceFaults → DeviceFaults) : (s.modDevice f).batchB = s.batchB := rfl
@[simp] theorem State.modDevice_engine (f : DeviceFaults → DeviceFaults) : (s.modDevice f).engine = s.engine := rfl
@[simp] theorem State.modDevice_firstWaiting (f : DeviceFaults → DeviceFaults) :
    (s.modDevice f).firstWaiting = s.firstWaiting := rfl
@[simp] theorem State.modDevice_nextIndex (f : DeviceFaults → DeviceFaults) :
    (s.modDevice f).nextIndex = s.nextIndex := rfl
@[simp] theorem State.modDevice_entriesDone (f : DeviceFaults → DeviceFaults) :
    (s.modDevice f).entriesDone = s.entriesDone := rfl
@[simp] theorem State.modDevice_faultStop (f : DeviceFaults → DeviceFaults) :
    (s.modDevice f).faultStop = s.faultStop := rfl
@[simp] theorem State.modDevice_abandoned (f : DeviceFaults → DeviceFaults) :
    (s.modDevice f).abandoned = s.abandoned := rfl
@[simp] theorem State.modDevice_branchMap (f : DeviceFaults → DeviceFaults) :
    (s.modDevice f).branchMap = s.branchMap := rfl
@[simp] theorem State.modDevice_links (f : DeviceFaults → DeviceFaults) : (s.modDevice f).links = s.links := rfl
@[simp] theorem State.modDevice_profiles (f : DeviceFaults → DeviceFaults) :
    (s.modDevice f).profiles = s.profiles := rfl
@[simp] theorem State.modDevice_dueList (f : DeviceFaults → DeviceFaults) : (s.modDevice f).dueList = s.dueList := rfl
@[simp] theorem State.modDevice_records (f : DeviceFaults → DeviceFaults) : (s.modDevice f).records = s.records := rfl
@[simp] theorem State.modDevice_sendOrder (f : DeviceFaults → DeviceFaults) :
    (s.modDevice f).sendOrder = s.sendOrder := rfl
@[simp] theorem State.modDevice_queue (f : DeviceFaults → DeviceFaults) : (s.modDevice f).queue = s.queue := rfl
@[simp] theorem State.modDevice_device (f : DeviceFaults → DeviceFaults) : (s.modDevice f).device = f s.device := rfl
@[simp] theorem State.modDevice_boardBase (f : DeviceFaults → DeviceFaults) :
    (s.modDevice f).boardBase = s.boardBase := rfl
@[simp] theorem State.modDevice_lastDraw (f : DeviceFaults → DeviceFaults) :
    (s.modDevice f).lastDraw = s.lastDraw := rfl
@[simp] theorem State.modDevice_phase (f : DeviceFaults → DeviceFaults) : (s.modDevice f).phase = s.phase := rfl
@[simp] theorem State.modDevice_walkPosition (f : DeviceFaults → DeviceFaults) :
    (s.modDevice f).walkPosition = s.walkPosition := rfl
@[simp] theorem State.modDevice_hostMem (f : DeviceFaults → DeviceFaults) : (s.modDevice f).hostMem = s.hostMem := rfl
@[simp] theorem State.modDevice_posted (f : DeviceFaults → DeviceFaults) : (s.modDevice f).posted = s.posted := rfl
@[simp] theorem State.modDevice_bus (f : DeviceFaults → DeviceFaults) : (s.modDevice f).bus = s.bus := rfl
@[simp] theorem State.modDevice_noise (f : DeviceFaults → DeviceFaults) : (s.modDevice f).noise = s.noise := rfl
@[simp] theorem State.modDevice_drawCount (f : DeviceFaults → DeviceFaults) :
    (s.modDevice f).drawCount = s.drawCount := rfl
@[simp] theorem State.modDevice_pending (f : DeviceFaults → DeviceFaults) : (s.modDevice f).pending = s.pending := rfl

/-! ## State.setCause -/

@[simp] theorem State.setCause_resetn (c : Cause) : (s.setCause c).resetn = s.resetn := rfl
@[simp] theorem State.setCause_quiescePin (c : Cause) : (s.setCause c).quiescePin = s.quiescePin := rfl
@[simp] theorem State.setCause_quiesce (c : Cause) : (s.setCause c).quiesce = s.quiesce := rfl
@[simp] theorem State.setCause_settings (c : Cause) : (s.setCause c).settings = s.settings := rfl
@[simp] theorem State.setCause_oneTimeStore (c : Cause) : (s.setCause c).oneTimeStore = s.oneTimeStore := rfl
@[simp] theorem State.setCause_masterKey (c : Cause) : (s.setCause c).masterKey = s.masterKey := rfl
@[simp] theorem State.setCause_mask (c : Cause) : (s.setCause c).mask = s.mask := rfl
@[simp] theorem State.setCause_causes (c : Cause) : (s.setCause c).causes = s.causes ||| c.bit := rfl
@[simp] theorem State.setCause_clamped (c : Cause) : (s.setCause c).clamped = s.clamped := rfl
@[simp] theorem State.setCause_run (c : Cause) : (s.setCause c).run = s.run := rfl
@[simp] theorem State.setCause_workBase (c : Cause) : (s.setCause c).workBase = s.workBase := rfl
@[simp] theorem State.setCause_batchA (c : Cause) : (s.setCause c).batchA = s.batchA := rfl
@[simp] theorem State.setCause_batchB (c : Cause) : (s.setCause c).batchB = s.batchB := rfl
@[simp] theorem State.setCause_engine (c : Cause) : (s.setCause c).engine = s.engine := rfl
@[simp] theorem State.setCause_firstWaiting (c : Cause) : (s.setCause c).firstWaiting = s.firstWaiting := rfl
@[simp] theorem State.setCause_nextIndex (c : Cause) : (s.setCause c).nextIndex = s.nextIndex := rfl
@[simp] theorem State.setCause_entriesDone (c : Cause) : (s.setCause c).entriesDone = s.entriesDone := rfl
@[simp] theorem State.setCause_faultStop (c : Cause) : (s.setCause c).faultStop = s.faultStop := rfl
@[simp] theorem State.setCause_abandoned (c : Cause) : (s.setCause c).abandoned = s.abandoned := rfl
@[simp] theorem State.setCause_branchMap (c : Cause) : (s.setCause c).branchMap = s.branchMap := rfl
@[simp] theorem State.setCause_links (c : Cause) : (s.setCause c).links = s.links := rfl
@[simp] theorem State.setCause_profiles (c : Cause) : (s.setCause c).profiles = s.profiles := rfl
@[simp] theorem State.setCause_dueList (c : Cause) : (s.setCause c).dueList = s.dueList := rfl
@[simp] theorem State.setCause_records (c : Cause) : (s.setCause c).records = s.records := rfl
@[simp] theorem State.setCause_sendOrder (c : Cause) : (s.setCause c).sendOrder = s.sendOrder := rfl
@[simp] theorem State.setCause_queue (c : Cause) : (s.setCause c).queue = s.queue := rfl
@[simp] theorem State.setCause_device (c : Cause) : (s.setCause c).device = s.device := rfl
@[simp] theorem State.setCause_boardBase (c : Cause) : (s.setCause c).boardBase = s.boardBase := rfl
@[simp] theorem State.setCause_lastDraw (c : Cause) : (s.setCause c).lastDraw = s.lastDraw := rfl
@[simp] theorem State.setCause_phase (c : Cause) : (s.setCause c).phase = s.phase := rfl
@[simp] theorem State.setCause_walkPosition (c : Cause) : (s.setCause c).walkPosition = s.walkPosition := rfl
@[simp] theorem State.setCause_hostMem (c : Cause) : (s.setCause c).hostMem = s.hostMem := rfl
@[simp] theorem State.setCause_posted (c : Cause) : (s.setCause c).posted = s.posted := rfl
@[simp] theorem State.setCause_bus (c : Cause) : (s.setCause c).bus = s.bus := rfl
@[simp] theorem State.setCause_noise (c : Cause) : (s.setCause c).noise = s.noise := rfl
@[simp] theorem State.setCause_drawCount (c : Cause) : (s.setCause c).drawCount = s.drawCount := rfl
@[simp] theorem State.setCause_pending (c : Cause) : (s.setCause c).pending = s.pending := rfl

/-! ## State.setBatch -/

@[simp] theorem State.setBatch_resetn (id : BatchId) (v : Batch) :
    (s.setBatch id v).resetn = s.resetn := by cases id <;> rfl
@[simp] theorem State.setBatch_quiescePin (id : BatchId) (v : Batch) :
    (s.setBatch id v).quiescePin = s.quiescePin := by cases id <;> rfl
@[simp] theorem State.setBatch_quiesce (id : BatchId) (v : Batch) :
    (s.setBatch id v).quiesce = s.quiesce := by cases id <;> rfl
@[simp] theorem State.setBatch_settings (id : BatchId) (v : Batch) :
    (s.setBatch id v).settings = s.settings := by cases id <;> rfl
@[simp] theorem State.setBatch_oneTimeStore (id : BatchId) (v : Batch) :
    (s.setBatch id v).oneTimeStore = s.oneTimeStore := by cases id <;> rfl
@[simp] theorem State.setBatch_masterKey (id : BatchId) (v : Batch) :
    (s.setBatch id v).masterKey = s.masterKey := by cases id <;> rfl
@[simp] theorem State.setBatch_mask (id : BatchId) (v : Batch) :
    (s.setBatch id v).mask = s.mask := by cases id <;> rfl
@[simp] theorem State.setBatch_causes (id : BatchId) (v : Batch) :
    (s.setBatch id v).causes = s.causes := by cases id <;> rfl
@[simp] theorem State.setBatch_clamped (id : BatchId) (v : Batch) :
    (s.setBatch id v).clamped = s.clamped := by cases id <;> rfl
@[simp] theorem State.setBatch_run (id : BatchId) (v : Batch) : (s.setBatch id v).run = s.run := by cases id <;> rfl
@[simp] theorem State.setBatch_workBase (id : BatchId) (v : Batch) :
    (s.setBatch id v).workBase = s.workBase := by cases id <;> rfl
@[simp] theorem State.setBatch_engine (id : BatchId) (v : Batch) :
    (s.setBatch id v).engine = s.engine := by cases id <;> rfl
@[simp] theorem State.setBatch_firstWaiting (id : BatchId) (v : Batch) :
    (s.setBatch id v).firstWaiting = s.firstWaiting := by cases id <;> rfl
@[simp] theorem State.setBatch_nextIndex (id : BatchId) (v : Batch) :
    (s.setBatch id v).nextIndex = s.nextIndex := by cases id <;> rfl
@[simp] theorem State.setBatch_entriesDone (id : BatchId) (v : Batch) :
    (s.setBatch id v).entriesDone = s.entriesDone := by cases id <;> rfl
@[simp] theorem State.setBatch_faultStop (id : BatchId) (v : Batch) :
    (s.setBatch id v).faultStop = s.faultStop := by cases id <;> rfl
@[simp] theorem State.setBatch_abandoned (id : BatchId) (v : Batch) :
    (s.setBatch id v).abandoned = s.abandoned := by cases id <;> rfl
@[simp] theorem State.setBatch_branchMap (id : BatchId) (v : Batch) :
    (s.setBatch id v).branchMap = s.branchMap := by cases id <;> rfl
@[simp] theorem State.setBatch_links (id : BatchId) (v : Batch) :
    (s.setBatch id v).links = s.links := by cases id <;> rfl
@[simp] theorem State.setBatch_profiles (id : BatchId) (v : Batch) :
    (s.setBatch id v).profiles = s.profiles := by cases id <;> rfl
@[simp] theorem State.setBatch_dueList (id : BatchId) (v : Batch) :
    (s.setBatch id v).dueList = s.dueList := by cases id <;> rfl
@[simp] theorem State.setBatch_records (id : BatchId) (v : Batch) :
    (s.setBatch id v).records = s.records := by cases id <;> rfl
@[simp] theorem State.setBatch_sendOrder (id : BatchId) (v : Batch) :
    (s.setBatch id v).sendOrder = s.sendOrder := by cases id <;> rfl
@[simp] theorem State.setBatch_queue (id : BatchId) (v : Batch) :
    (s.setBatch id v).queue = s.queue := by cases id <;> rfl
@[simp] theorem State.setBatch_device (id : BatchId) (v : Batch) :
    (s.setBatch id v).device = s.device := by cases id <;> rfl
@[simp] theorem State.setBatch_boardBase (id : BatchId) (v : Batch) :
    (s.setBatch id v).boardBase = s.boardBase := by cases id <;> rfl
@[simp] theorem State.setBatch_lastDraw (id : BatchId) (v : Batch) :
    (s.setBatch id v).lastDraw = s.lastDraw := by cases id <;> rfl
@[simp] theorem State.setBatch_phase (id : BatchId) (v : Batch) :
    (s.setBatch id v).phase = s.phase := by cases id <;> rfl
@[simp] theorem State.setBatch_walkPosition (id : BatchId) (v : Batch) :
    (s.setBatch id v).walkPosition = s.walkPosition := by cases id <;> rfl
@[simp] theorem State.setBatch_hostMem (id : BatchId) (v : Batch) :
    (s.setBatch id v).hostMem = s.hostMem := by cases id <;> rfl
@[simp] theorem State.setBatch_posted (id : BatchId) (v : Batch) :
    (s.setBatch id v).posted = s.posted := by cases id <;> rfl
@[simp] theorem State.setBatch_bus (id : BatchId) (v : Batch) : (s.setBatch id v).bus = s.bus := by cases id <;> rfl
@[simp] theorem State.setBatch_noise (id : BatchId) (v : Batch) :
    (s.setBatch id v).noise = s.noise := by cases id <;> rfl
@[simp] theorem State.setBatch_drawCount (id : BatchId) (v : Batch) :
    (s.setBatch id v).drawCount = s.drawCount := by cases id <;> rfl
@[simp] theorem State.setBatch_pending (id : BatchId) (v : Batch) :
    (s.setBatch id v).pending = s.pending := by cases id <;> rfl

/-! ## State.setProfile -/

@[simp] theorem State.setProfile_resetn (p : ProfileNumber) (v : Profile) :
    (s.setProfile p v).resetn = s.resetn := rfl
@[simp] theorem State.setProfile_quiescePin (p : ProfileNumber) (v : Profile) :
    (s.setProfile p v).quiescePin = s.quiescePin := rfl
@[simp] theorem State.setProfile_quiesce (p : ProfileNumber) (v : Profile) :
    (s.setProfile p v).quiesce = s.quiesce := rfl
@[simp] theorem State.setProfile_settings (p : ProfileNumber) (v : Profile) :
    (s.setProfile p v).settings = s.settings := rfl
@[simp] theorem State.setProfile_oneTimeStore (p : ProfileNumber) (v : Profile) :
    (s.setProfile p v).oneTimeStore = s.oneTimeStore := rfl
@[simp] theorem State.setProfile_masterKey (p : ProfileNumber) (v : Profile) :
    (s.setProfile p v).masterKey = s.masterKey := rfl
@[simp] theorem State.setProfile_mask (p : ProfileNumber) (v : Profile) : (s.setProfile p v).mask = s.mask := rfl
@[simp] theorem State.setProfile_causes (p : ProfileNumber) (v : Profile) :
    (s.setProfile p v).causes = s.causes := rfl
@[simp] theorem State.setProfile_clamped (p : ProfileNumber) (v : Profile) :
    (s.setProfile p v).clamped = s.clamped := rfl
@[simp] theorem State.setProfile_run (p : ProfileNumber) (v : Profile) : (s.setProfile p v).run = s.run := rfl
@[simp] theorem State.setProfile_workBase (p : ProfileNumber) (v : Profile) :
    (s.setProfile p v).workBase = s.workBase := rfl
@[simp] theorem State.setProfile_batchA (p : ProfileNumber) (v : Profile) :
    (s.setProfile p v).batchA = s.batchA := rfl
@[simp] theorem State.setProfile_batchB (p : ProfileNumber) (v : Profile) :
    (s.setProfile p v).batchB = s.batchB := rfl
@[simp] theorem State.setProfile_engine (p : ProfileNumber) (v : Profile) :
    (s.setProfile p v).engine = s.engine := rfl
@[simp] theorem State.setProfile_firstWaiting (p : ProfileNumber) (v : Profile) :
    (s.setProfile p v).firstWaiting = s.firstWaiting := rfl
@[simp] theorem State.setProfile_nextIndex (p : ProfileNumber) (v : Profile) :
    (s.setProfile p v).nextIndex = s.nextIndex := rfl
@[simp] theorem State.setProfile_entriesDone (p : ProfileNumber) (v : Profile) :
    (s.setProfile p v).entriesDone = s.entriesDone := rfl
@[simp] theorem State.setProfile_faultStop (p : ProfileNumber) (v : Profile) :
    (s.setProfile p v).faultStop = s.faultStop := rfl
@[simp] theorem State.setProfile_abandoned (p : ProfileNumber) (v : Profile) :
    (s.setProfile p v).abandoned = s.abandoned := rfl
@[simp] theorem State.setProfile_branchMap (p : ProfileNumber) (v : Profile) :
    (s.setProfile p v).branchMap = s.branchMap := rfl
@[simp] theorem State.setProfile_links (p : ProfileNumber) (v : Profile) : (s.setProfile p v).links = s.links := rfl
@[simp] theorem State.setProfile_profiles (p : ProfileNumber) (v : Profile) :
    (s.setProfile p v).profiles = s.profiles.set p.val v := rfl
@[simp] theorem State.setProfile_dueList (p : ProfileNumber) (v : Profile) :
    (s.setProfile p v).dueList = s.dueList := rfl
@[simp] theorem State.setProfile_records (p : ProfileNumber) (v : Profile) :
    (s.setProfile p v).records = s.records := rfl
@[simp] theorem State.setProfile_sendOrder (p : ProfileNumber) (v : Profile) :
    (s.setProfile p v).sendOrder = s.sendOrder := rfl
@[simp] theorem State.setProfile_queue (p : ProfileNumber) (v : Profile) : (s.setProfile p v).queue = s.queue := rfl
@[simp] theorem State.setProfile_device (p : ProfileNumber) (v : Profile) :
    (s.setProfile p v).device = s.device := rfl
@[simp] theorem State.setProfile_boardBase (p : ProfileNumber) (v : Profile) :
    (s.setProfile p v).boardBase = s.boardBase := rfl
@[simp] theorem State.setProfile_lastDraw (p : ProfileNumber) (v : Profile) :
    (s.setProfile p v).lastDraw = s.lastDraw := rfl
@[simp] theorem State.setProfile_phase (p : ProfileNumber) (v : Profile) : (s.setProfile p v).phase = s.phase := rfl
@[simp] theorem State.setProfile_walkPosition (p : ProfileNumber) (v : Profile) :
    (s.setProfile p v).walkPosition = s.walkPosition := rfl
@[simp] theorem State.setProfile_hostMem (p : ProfileNumber) (v : Profile) :
    (s.setProfile p v).hostMem = s.hostMem := rfl
@[simp] theorem State.setProfile_posted (p : ProfileNumber) (v : Profile) :
    (s.setProfile p v).posted = s.posted := rfl
@[simp] theorem State.setProfile_bus (p : ProfileNumber) (v : Profile) : (s.setProfile p v).bus = s.bus := rfl
@[simp] theorem State.setProfile_noise (p : ProfileNumber) (v : Profile) : (s.setProfile p v).noise = s.noise := rfl
@[simp] theorem State.setProfile_drawCount (p : ProfileNumber) (v : Profile) :
    (s.setProfile p v).drawCount = s.drawCount := rfl
@[simp] theorem State.setProfile_pending (p : ProfileNumber) (v : Profile) :
    (s.setProfile p v).pending = s.pending := rfl

/-! ## beginEvent -/

@[simp] theorem beginEvent_resetn (env : Env) : (beginEvent env s).resetn = s.resetn := rfl
@[simp] theorem beginEvent_quiescePin (env : Env) : (beginEvent env s).quiescePin = s.quiescePin := rfl
@[simp] theorem beginEvent_quiesce (env : Env) : (beginEvent env s).quiesce = s.quiesce := rfl
@[simp] theorem beginEvent_settings (env : Env) : (beginEvent env s).settings = s.settings := rfl
@[simp] theorem beginEvent_oneTimeStore (env : Env) : (beginEvent env s).oneTimeStore = s.oneTimeStore := rfl
@[simp] theorem beginEvent_masterKey (env : Env) : (beginEvent env s).masterKey = s.masterKey := rfl
@[simp] theorem beginEvent_mask (env : Env) : (beginEvent env s).mask = s.mask := rfl
@[simp] theorem beginEvent_causes (env : Env) : (beginEvent env s).causes = s.causes := rfl
@[simp] theorem beginEvent_clamped (env : Env) : (beginEvent env s).clamped = s.clamped := rfl
@[simp] theorem beginEvent_run (env : Env) : (beginEvent env s).run = s.run := rfl
@[simp] theorem beginEvent_workBase (env : Env) : (beginEvent env s).workBase = s.workBase := rfl
@[simp] theorem beginEvent_batchA (env : Env) : (beginEvent env s).batchA = s.batchA := rfl
@[simp] theorem beginEvent_batchB (env : Env) : (beginEvent env s).batchB = s.batchB := rfl
@[simp] theorem beginEvent_engine (env : Env) : (beginEvent env s).engine = s.engine := rfl
@[simp] theorem beginEvent_firstWaiting (env : Env) : (beginEvent env s).firstWaiting = s.firstWaiting := rfl
@[simp] theorem beginEvent_nextIndex (env : Env) : (beginEvent env s).nextIndex = s.nextIndex := rfl
@[simp] theorem beginEvent_entriesDone (env : Env) : (beginEvent env s).entriesDone = s.entriesDone := rfl
@[simp] theorem beginEvent_faultStop (env : Env) : (beginEvent env s).faultStop = s.faultStop := rfl
@[simp] theorem beginEvent_abandoned (env : Env) : (beginEvent env s).abandoned = s.abandoned := rfl
@[simp] theorem beginEvent_branchMap (env : Env) : (beginEvent env s).branchMap = s.branchMap := rfl
@[simp] theorem beginEvent_links (env : Env) : (beginEvent env s).links = s.links := rfl
@[simp] theorem beginEvent_profiles (env : Env) : (beginEvent env s).profiles = s.profiles := rfl
@[simp] theorem beginEvent_dueList (env : Env) : (beginEvent env s).dueList = s.dueList := rfl
@[simp] theorem beginEvent_records (env : Env) : (beginEvent env s).records = s.records := rfl
@[simp] theorem beginEvent_sendOrder (env : Env) : (beginEvent env s).sendOrder = s.sendOrder := rfl
@[simp] theorem beginEvent_queue (env : Env) : (beginEvent env s).queue = s.queue := rfl
@[simp] theorem beginEvent_device (env : Env) : (beginEvent env s).device = s.device := rfl
@[simp] theorem beginEvent_boardBase (env : Env) : (beginEvent env s).boardBase = s.boardBase := rfl
@[simp] theorem beginEvent_lastDraw (env : Env) : (beginEvent env s).lastDraw = s.lastDraw := rfl
@[simp] theorem beginEvent_phase (env : Env) : (beginEvent env s).phase = s.phase := rfl
@[simp] theorem beginEvent_walkPosition (env : Env) : (beginEvent env s).walkPosition = s.walkPosition := rfl
@[simp] theorem beginEvent_hostMem (env : Env) : (beginEvent env s).hostMem = s.hostMem := rfl
@[simp] theorem beginEvent_posted (env : Env) : (beginEvent env s).posted = [] := rfl
@[simp] theorem beginEvent_bus (env : Env) : (beginEvent env s).bus = env.bus := rfl
@[simp] theorem beginEvent_noise (env : Env) : (beginEvent env s).noise = env.noise := rfl
@[simp] theorem beginEvent_drawCount (env : Env) : (beginEvent env s).drawCount = s.drawCount := rfl
@[simp] theorem beginEvent_pending (env : Env) : (beginEvent env s).pending = s.pending := rfl

/-! ## endEvent -/

@[simp] theorem endEvent_resetn : (endEvent s).resetn = s.resetn := rfl
@[simp] theorem endEvent_quiescePin : (endEvent s).quiescePin = s.quiescePin := rfl
@[simp] theorem endEvent_quiesce : (endEvent s).quiesce = s.quiesce := rfl
@[simp] theorem endEvent_settings : (endEvent s).settings = s.settings := rfl
@[simp] theorem endEvent_oneTimeStore : (endEvent s).oneTimeStore = s.oneTimeStore := rfl
@[simp] theorem endEvent_masterKey : (endEvent s).masterKey = s.masterKey := rfl
@[simp] theorem endEvent_mask : (endEvent s).mask = s.mask := rfl
@[simp] theorem endEvent_causes : (endEvent s).causes = s.causes := rfl
@[simp] theorem endEvent_clamped : (endEvent s).clamped = s.clamped := rfl
@[simp] theorem endEvent_run : (endEvent s).run = s.run := rfl
@[simp] theorem endEvent_workBase : (endEvent s).workBase = s.workBase := rfl
@[simp] theorem endEvent_batchA : (endEvent s).batchA = s.batchA := rfl
@[simp] theorem endEvent_batchB : (endEvent s).batchB = s.batchB := rfl
@[simp] theorem endEvent_engine : (endEvent s).engine = s.engine := rfl
@[simp] theorem endEvent_firstWaiting : (endEvent s).firstWaiting = s.firstWaiting := rfl
@[simp] theorem endEvent_nextIndex : (endEvent s).nextIndex = s.nextIndex := rfl
@[simp] theorem endEvent_entriesDone : (endEvent s).entriesDone = s.entriesDone := rfl
@[simp] theorem endEvent_faultStop : (endEvent s).faultStop = s.faultStop := rfl
@[simp] theorem endEvent_abandoned : (endEvent s).abandoned = s.abandoned := rfl
@[simp] theorem endEvent_branchMap : (endEvent s).branchMap = s.branchMap := rfl
@[simp] theorem endEvent_links : (endEvent s).links = s.links := rfl
@[simp] theorem endEvent_profiles : (endEvent s).profiles = s.profiles := rfl
@[simp] theorem endEvent_dueList : (endEvent s).dueList = s.dueList := rfl
@[simp] theorem endEvent_records : (endEvent s).records = s.records := rfl
@[simp] theorem endEvent_sendOrder : (endEvent s).sendOrder = s.sendOrder := rfl
@[simp] theorem endEvent_queue : (endEvent s).queue = s.queue := rfl
@[simp] theorem endEvent_device : (endEvent s).device = s.device := rfl
@[simp] theorem endEvent_boardBase : (endEvent s).boardBase = s.boardBase := rfl
@[simp] theorem endEvent_lastDraw : (endEvent s).lastDraw = s.lastDraw := rfl
@[simp] theorem endEvent_phase : (endEvent s).phase = s.phase := rfl
@[simp] theorem endEvent_walkPosition : (endEvent s).walkPosition = s.walkPosition := rfl
@[simp] theorem endEvent_hostMem : (endEvent s).hostMem = s.hostMem := rfl
@[simp] theorem endEvent_posted : (endEvent s).posted = s.posted := rfl
@[simp] theorem endEvent_bus : (endEvent s).bus = [] := rfl
@[simp] theorem endEvent_noise : (endEvent s).noise = [] := rfl
@[simp] theorem endEvent_drawCount : (endEvent s).drawCount = s.drawCount := rfl
@[simp] theorem endEvent_pending : (endEvent s).pending = s.pending := rfl

/-! ## pushItem -/

@[simp] theorem pushItem_resetn (it : Item) : (pushItem it s).resetn = s.resetn := rfl
@[simp] theorem pushItem_quiescePin (it : Item) : (pushItem it s).quiescePin = s.quiescePin := rfl
@[simp] theorem pushItem_quiesce (it : Item) : (pushItem it s).quiesce = s.quiesce := rfl
@[simp] theorem pushItem_settings (it : Item) : (pushItem it s).settings = s.settings := rfl
@[simp] theorem pushItem_oneTimeStore (it : Item) : (pushItem it s).oneTimeStore = s.oneTimeStore := rfl
@[simp] theorem pushItem_masterKey (it : Item) : (pushItem it s).masterKey = s.masterKey := rfl
@[simp] theorem pushItem_mask (it : Item) : (pushItem it s).mask = s.mask := rfl
@[simp] theorem pushItem_causes (it : Item) : (pushItem it s).causes = s.causes := rfl
@[simp] theorem pushItem_clamped (it : Item) : (pushItem it s).clamped = s.clamped := rfl
@[simp] theorem pushItem_run (it : Item) : (pushItem it s).run = s.run := rfl
@[simp] theorem pushItem_workBase (it : Item) : (pushItem it s).workBase = s.workBase := rfl
@[simp] theorem pushItem_batchA (it : Item) : (pushItem it s).batchA = s.batchA := rfl
@[simp] theorem pushItem_batchB (it : Item) : (pushItem it s).batchB = s.batchB := rfl
@[simp] theorem pushItem_engine (it : Item) : (pushItem it s).engine = s.engine := rfl
@[simp] theorem pushItem_firstWaiting (it : Item) : (pushItem it s).firstWaiting = s.firstWaiting := rfl
@[simp] theorem pushItem_nextIndex (it : Item) : (pushItem it s).nextIndex = s.nextIndex := rfl
@[simp] theorem pushItem_entriesDone (it : Item) : (pushItem it s).entriesDone = s.entriesDone := rfl
@[simp] theorem pushItem_faultStop (it : Item) : (pushItem it s).faultStop = s.faultStop := rfl
@[simp] theorem pushItem_abandoned (it : Item) : (pushItem it s).abandoned = s.abandoned := rfl
@[simp] theorem pushItem_branchMap (it : Item) : (pushItem it s).branchMap = s.branchMap := rfl
@[simp] theorem pushItem_links (it : Item) : (pushItem it s).links = s.links := rfl
@[simp] theorem pushItem_profiles (it : Item) : (pushItem it s).profiles = s.profiles := rfl
@[simp] theorem pushItem_dueList (it : Item) : (pushItem it s).dueList = s.dueList := rfl
@[simp] theorem pushItem_records (it : Item) : (pushItem it s).records = s.records := rfl
@[simp] theorem pushItem_sendOrder (it : Item) : (pushItem it s).sendOrder = s.sendOrder := rfl
@[simp] theorem pushItem_queue (it : Item) : (pushItem it s).queue = s.queue ++ [it] := rfl
@[simp] theorem pushItem_device (it : Item) : (pushItem it s).device = s.device := rfl
@[simp] theorem pushItem_boardBase (it : Item) : (pushItem it s).boardBase = s.boardBase := rfl
@[simp] theorem pushItem_lastDraw (it : Item) : (pushItem it s).lastDraw = s.lastDraw := rfl
@[simp] theorem pushItem_phase (it : Item) : (pushItem it s).phase = s.phase := rfl
@[simp] theorem pushItem_walkPosition (it : Item) : (pushItem it s).walkPosition = s.walkPosition := rfl
@[simp] theorem pushItem_hostMem (it : Item) : (pushItem it s).hostMem = s.hostMem := rfl
@[simp] theorem pushItem_posted (it : Item) : (pushItem it s).posted = s.posted := rfl
@[simp] theorem pushItem_bus (it : Item) : (pushItem it s).bus = s.bus := rfl
@[simp] theorem pushItem_noise (it : Item) : (pushItem it s).noise = s.noise := rfl
@[simp] theorem pushItem_drawCount (it : Item) : (pushItem it s).drawCount = s.drawCount := rfl
@[simp] theorem pushItem_pending (it : Item) : (pushItem it s).pending = s.pending := rfl

/-! ## foldNotice -/

@[simp] theorem foldNotice_resetn (n : Notice) : (foldNotice n s).resetn = s.resetn := rfl
@[simp] theorem foldNotice_quiescePin (n : Notice) : (foldNotice n s).quiescePin = s.quiescePin := rfl
@[simp] theorem foldNotice_quiesce (n : Notice) : (foldNotice n s).quiesce = s.quiesce := rfl
@[simp] theorem foldNotice_settings (n : Notice) : (foldNotice n s).settings = s.settings := rfl
@[simp] theorem foldNotice_oneTimeStore (n : Notice) : (foldNotice n s).oneTimeStore = s.oneTimeStore := rfl
@[simp] theorem foldNotice_masterKey (n : Notice) : (foldNotice n s).masterKey = s.masterKey := rfl
@[simp] theorem foldNotice_mask (n : Notice) : (foldNotice n s).mask = s.mask := rfl
@[simp] theorem foldNotice_causes (n : Notice) : (foldNotice n s).causes = s.causes := rfl
@[simp] theorem foldNotice_clamped (n : Notice) : (foldNotice n s).clamped = s.clamped := rfl
@[simp] theorem foldNotice_run (n : Notice) : (foldNotice n s).run = s.run := rfl
@[simp] theorem foldNotice_workBase (n : Notice) : (foldNotice n s).workBase = s.workBase := rfl
@[simp] theorem foldNotice_batchA (n : Notice) : (foldNotice n s).batchA = s.batchA := rfl
@[simp] theorem foldNotice_batchB (n : Notice) : (foldNotice n s).batchB = s.batchB := rfl
@[simp] theorem foldNotice_engine (n : Notice) : (foldNotice n s).engine = s.engine := rfl
@[simp] theorem foldNotice_firstWaiting (n : Notice) : (foldNotice n s).firstWaiting = s.firstWaiting := rfl
@[simp] theorem foldNotice_nextIndex (n : Notice) : (foldNotice n s).nextIndex = s.nextIndex := rfl
@[simp] theorem foldNotice_entriesDone (n : Notice) : (foldNotice n s).entriesDone = s.entriesDone := rfl
@[simp] theorem foldNotice_faultStop (n : Notice) : (foldNotice n s).faultStop = s.faultStop := rfl
@[simp] theorem foldNotice_abandoned (n : Notice) : (foldNotice n s).abandoned = s.abandoned := rfl
@[simp] theorem foldNotice_branchMap (n : Notice) : (foldNotice n s).branchMap = s.branchMap := rfl
@[simp] theorem foldNotice_links (n : Notice) : (foldNotice n s).links = s.links := rfl
@[simp] theorem foldNotice_profiles (n : Notice) : (foldNotice n s).profiles = s.profiles := rfl
@[simp] theorem foldNotice_dueList (n : Notice) : (foldNotice n s).dueList = s.dueList := rfl
@[simp] theorem foldNotice_records (n : Notice) : (foldNotice n s).records = s.records := rfl
@[simp] theorem foldNotice_sendOrder (n : Notice) : (foldNotice n s).sendOrder = s.sendOrder := rfl
@[simp] theorem foldNotice_queue (n : Notice) : (foldNotice n s).queue = s.queue.map (foldInto n) := rfl
@[simp] theorem foldNotice_device (n : Notice) : (foldNotice n s).device = s.device := rfl
@[simp] theorem foldNotice_boardBase (n : Notice) : (foldNotice n s).boardBase = s.boardBase := rfl
@[simp] theorem foldNotice_lastDraw (n : Notice) : (foldNotice n s).lastDraw = s.lastDraw := rfl
@[simp] theorem foldNotice_phase (n : Notice) : (foldNotice n s).phase = s.phase := rfl
@[simp] theorem foldNotice_walkPosition (n : Notice) : (foldNotice n s).walkPosition = s.walkPosition := rfl
@[simp] theorem foldNotice_hostMem (n : Notice) : (foldNotice n s).hostMem = s.hostMem := rfl
@[simp] theorem foldNotice_posted (n : Notice) : (foldNotice n s).posted = s.posted := rfl
@[simp] theorem foldNotice_bus (n : Notice) : (foldNotice n s).bus = s.bus := rfl
@[simp] theorem foldNotice_noise (n : Notice) : (foldNotice n s).noise = s.noise := rfl
@[simp] theorem foldNotice_drawCount (n : Notice) : (foldNotice n s).drawCount = s.drawCount := rfl
@[simp] theorem foldNotice_pending (n : Notice) : (foldNotice n s).pending = s.pending := rfl

/-! ## dropNotice -/

@[simp] theorem dropNotice_resetn : (dropNotice s).resetn = s.resetn := rfl
@[simp] theorem dropNotice_quiescePin : (dropNotice s).quiescePin = s.quiescePin := rfl
@[simp] theorem dropNotice_quiesce : (dropNotice s).quiesce = s.quiesce := rfl
@[simp] theorem dropNotice_settings : (dropNotice s).settings = s.settings := rfl
@[simp] theorem dropNotice_oneTimeStore : (dropNotice s).oneTimeStore = s.oneTimeStore := rfl
@[simp] theorem dropNotice_masterKey : (dropNotice s).masterKey = s.masterKey := rfl
@[simp] theorem dropNotice_mask : (dropNotice s).mask = s.mask := rfl
@[simp] theorem dropNotice_causes : (dropNotice s).causes = s.causes := rfl
@[simp] theorem dropNotice_clamped : (dropNotice s).clamped = s.clamped := rfl
@[simp] theorem dropNotice_run : (dropNotice s).run = s.run := rfl
@[simp] theorem dropNotice_workBase : (dropNotice s).workBase = s.workBase := rfl
@[simp] theorem dropNotice_batchA : (dropNotice s).batchA = s.batchA := rfl
@[simp] theorem dropNotice_batchB : (dropNotice s).batchB = s.batchB := rfl
@[simp] theorem dropNotice_engine : (dropNotice s).engine = s.engine := rfl
@[simp] theorem dropNotice_firstWaiting : (dropNotice s).firstWaiting = s.firstWaiting := rfl
@[simp] theorem dropNotice_nextIndex : (dropNotice s).nextIndex = s.nextIndex := rfl
@[simp] theorem dropNotice_entriesDone : (dropNotice s).entriesDone = s.entriesDone := rfl
@[simp] theorem dropNotice_faultStop : (dropNotice s).faultStop = s.faultStop := rfl
@[simp] theorem dropNotice_abandoned : (dropNotice s).abandoned = s.abandoned := rfl
@[simp] theorem dropNotice_branchMap : (dropNotice s).branchMap = s.branchMap := rfl
@[simp] theorem dropNotice_links : (dropNotice s).links = s.links := rfl
@[simp] theorem dropNotice_profiles : (dropNotice s).profiles = s.profiles := rfl
@[simp] theorem dropNotice_dueList : (dropNotice s).dueList = s.dueList := rfl
@[simp] theorem dropNotice_records : (dropNotice s).records = s.records := rfl
@[simp] theorem dropNotice_sendOrder : (dropNotice s).sendOrder = s.sendOrder := rfl
@[simp] theorem dropNotice_queue : (dropNotice s).queue = s.queue := rfl
@[simp] theorem dropNotice_device : (dropNotice s).device = { s.device with noticesDropped := true } := rfl
@[simp] theorem dropNotice_boardBase : (dropNotice s).boardBase = s.boardBase := rfl
@[simp] theorem dropNotice_lastDraw : (dropNotice s).lastDraw = s.lastDraw := rfl
@[simp] theorem dropNotice_phase : (dropNotice s).phase = s.phase := rfl
@[simp] theorem dropNotice_walkPosition : (dropNotice s).walkPosition = s.walkPosition := rfl
@[simp] theorem dropNotice_hostMem : (dropNotice s).hostMem = s.hostMem := rfl
@[simp] theorem dropNotice_posted : (dropNotice s).posted = s.posted := rfl
@[simp] theorem dropNotice_bus : (dropNotice s).bus = s.bus := rfl
@[simp] theorem dropNotice_noise : (dropNotice s).noise = s.noise := rfl
@[simp] theorem dropNotice_drawCount : (dropNotice s).drawCount = s.drawCount := rfl
@[simp] theorem dropNotice_pending : (dropNotice s).pending = s.pending := rfl

/-! ## popItem -/

@[simp] theorem popItem_resetn : (popItem s).resetn = s.resetn := rfl
@[simp] theorem popItem_quiescePin : (popItem s).quiescePin = s.quiescePin := rfl
@[simp] theorem popItem_quiesce : (popItem s).quiesce = s.quiesce := rfl
@[simp] theorem popItem_settings : (popItem s).settings = s.settings := rfl
@[simp] theorem popItem_oneTimeStore : (popItem s).oneTimeStore = s.oneTimeStore := rfl
@[simp] theorem popItem_masterKey : (popItem s).masterKey = s.masterKey := rfl
@[simp] theorem popItem_mask : (popItem s).mask = s.mask := rfl
@[simp] theorem popItem_causes : (popItem s).causes = s.causes := rfl
@[simp] theorem popItem_clamped : (popItem s).clamped = s.clamped := rfl
@[simp] theorem popItem_run : (popItem s).run = s.run := rfl
@[simp] theorem popItem_workBase : (popItem s).workBase = s.workBase := rfl
@[simp] theorem popItem_batchA : (popItem s).batchA = s.batchA := rfl
@[simp] theorem popItem_batchB : (popItem s).batchB = s.batchB := rfl
@[simp] theorem popItem_engine : (popItem s).engine = s.engine := rfl
@[simp] theorem popItem_firstWaiting : (popItem s).firstWaiting = s.firstWaiting := rfl
@[simp] theorem popItem_nextIndex : (popItem s).nextIndex = s.nextIndex := rfl
@[simp] theorem popItem_entriesDone : (popItem s).entriesDone = s.entriesDone := rfl
@[simp] theorem popItem_faultStop : (popItem s).faultStop = s.faultStop := rfl
@[simp] theorem popItem_abandoned : (popItem s).abandoned = s.abandoned := rfl
@[simp] theorem popItem_branchMap : (popItem s).branchMap = s.branchMap := rfl
@[simp] theorem popItem_links : (popItem s).links = s.links := rfl
@[simp] theorem popItem_profiles : (popItem s).profiles = s.profiles := rfl
@[simp] theorem popItem_dueList : (popItem s).dueList = s.dueList := rfl
@[simp] theorem popItem_records : (popItem s).records = s.records := rfl
@[simp] theorem popItem_sendOrder : (popItem s).sendOrder = s.sendOrder := rfl
@[simp] theorem popItem_queue : (popItem s).queue = s.queue.tail := rfl
@[simp] theorem popItem_device : (popItem s).device = s.device := rfl
@[simp] theorem popItem_boardBase : (popItem s).boardBase = s.boardBase := rfl
@[simp] theorem popItem_lastDraw : (popItem s).lastDraw = s.lastDraw := rfl
@[simp] theorem popItem_phase : (popItem s).phase = s.phase := rfl
@[simp] theorem popItem_walkPosition : (popItem s).walkPosition = s.walkPosition := rfl
@[simp] theorem popItem_hostMem : (popItem s).hostMem = s.hostMem := rfl
@[simp] theorem popItem_posted : (popItem s).posted = s.posted := rfl
@[simp] theorem popItem_bus : (popItem s).bus = s.bus := rfl
@[simp] theorem popItem_noise : (popItem s).noise = s.noise := rfl
@[simp] theorem popItem_drawCount : (popItem s).drawCount = s.drawCount := rfl
@[simp] theorem popItem_pending : (popItem s).pending = s.pending := rfl

/-! ## removeOffers -/

@[simp] theorem removeOffers_resetn (k : Slot) : (removeOffers k s).resetn = s.resetn := rfl
@[simp] theorem removeOffers_quiescePin (k : Slot) : (removeOffers k s).quiescePin = s.quiescePin := rfl
@[simp] theorem removeOffers_quiesce (k : Slot) : (removeOffers k s).quiesce = s.quiesce := rfl
@[simp] theorem removeOffers_settings (k : Slot) : (removeOffers k s).settings = s.settings := rfl
@[simp] theorem removeOffers_oneTimeStore (k : Slot) : (removeOffers k s).oneTimeStore = s.oneTimeStore := rfl
@[simp] theorem removeOffers_masterKey (k : Slot) : (removeOffers k s).masterKey = s.masterKey := rfl
@[simp] theorem removeOffers_mask (k : Slot) : (removeOffers k s).mask = s.mask := rfl
@[simp] theorem removeOffers_causes (k : Slot) : (removeOffers k s).causes = s.causes := rfl
@[simp] theorem removeOffers_clamped (k : Slot) : (removeOffers k s).clamped = s.clamped := rfl
@[simp] theorem removeOffers_run (k : Slot) : (removeOffers k s).run = s.run := rfl
@[simp] theorem removeOffers_workBase (k : Slot) : (removeOffers k s).workBase = s.workBase := rfl
@[simp] theorem removeOffers_batchA (k : Slot) : (removeOffers k s).batchA = s.batchA := rfl
@[simp] theorem removeOffers_batchB (k : Slot) : (removeOffers k s).batchB = s.batchB := rfl
@[simp] theorem removeOffers_engine (k : Slot) : (removeOffers k s).engine = s.engine := rfl
@[simp] theorem removeOffers_firstWaiting (k : Slot) : (removeOffers k s).firstWaiting = s.firstWaiting := rfl
@[simp] theorem removeOffers_nextIndex (k : Slot) : (removeOffers k s).nextIndex = s.nextIndex := rfl
@[simp] theorem removeOffers_entriesDone (k : Slot) : (removeOffers k s).entriesDone = s.entriesDone := rfl
@[simp] theorem removeOffers_faultStop (k : Slot) : (removeOffers k s).faultStop = s.faultStop := rfl
@[simp] theorem removeOffers_abandoned (k : Slot) : (removeOffers k s).abandoned = s.abandoned := rfl
@[simp] theorem removeOffers_branchMap (k : Slot) : (removeOffers k s).branchMap = s.branchMap := rfl
@[simp] theorem removeOffers_links (k : Slot) : (removeOffers k s).links = s.links := rfl
@[simp] theorem removeOffers_profiles (k : Slot) : (removeOffers k s).profiles = s.profiles := rfl
@[simp] theorem removeOffers_dueList (k : Slot) : (removeOffers k s).dueList = s.dueList := rfl
@[simp] theorem removeOffers_records (k : Slot) : (removeOffers k s).records = s.records := rfl
@[simp] theorem removeOffers_sendOrder (k : Slot) : (removeOffers k s).sendOrder = s.sendOrder := rfl
@[simp] theorem removeOffers_queue (k : Slot) :
    (removeOffers k s).queue = s.queue.filter fun it => !isOfferOf k it := rfl
@[simp] theorem removeOffers_device (k : Slot) : (removeOffers k s).device = s.device := rfl
@[simp] theorem removeOffers_boardBase (k : Slot) : (removeOffers k s).boardBase = s.boardBase := rfl
@[simp] theorem removeOffers_lastDraw (k : Slot) : (removeOffers k s).lastDraw = s.lastDraw := rfl
@[simp] theorem removeOffers_phase (k : Slot) : (removeOffers k s).phase = s.phase := rfl
@[simp] theorem removeOffers_walkPosition (k : Slot) : (removeOffers k s).walkPosition = s.walkPosition := rfl
@[simp] theorem removeOffers_hostMem (k : Slot) : (removeOffers k s).hostMem = s.hostMem := rfl
@[simp] theorem removeOffers_posted (k : Slot) : (removeOffers k s).posted = s.posted := rfl
@[simp] theorem removeOffers_bus (k : Slot) : (removeOffers k s).bus = s.bus := rfl
@[simp] theorem removeOffers_noise (k : Slot) : (removeOffers k s).noise = s.noise := rfl
@[simp] theorem removeOffers_drawCount (k : Slot) : (removeOffers k s).drawCount = s.drawCount := rfl
@[simp] theorem removeOffers_pending (k : Slot) : (removeOffers k s).pending = s.pending := rfl

/-! ## removeItems -/

@[simp] theorem removeItems_resetn (k : Slot) : (removeItems k s).resetn = s.resetn := rfl
@[simp] theorem removeItems_quiescePin (k : Slot) : (removeItems k s).quiescePin = s.quiescePin := rfl
@[simp] theorem removeItems_quiesce (k : Slot) : (removeItems k s).quiesce = s.quiesce := rfl
@[simp] theorem removeItems_settings (k : Slot) : (removeItems k s).settings = s.settings := rfl
@[simp] theorem removeItems_oneTimeStore (k : Slot) : (removeItems k s).oneTimeStore = s.oneTimeStore := rfl
@[simp] theorem removeItems_masterKey (k : Slot) : (removeItems k s).masterKey = s.masterKey := rfl
@[simp] theorem removeItems_mask (k : Slot) : (removeItems k s).mask = s.mask := rfl
@[simp] theorem removeItems_causes (k : Slot) : (removeItems k s).causes = s.causes := rfl
@[simp] theorem removeItems_clamped (k : Slot) : (removeItems k s).clamped = s.clamped := rfl
@[simp] theorem removeItems_run (k : Slot) : (removeItems k s).run = s.run := rfl
@[simp] theorem removeItems_workBase (k : Slot) : (removeItems k s).workBase = s.workBase := rfl
@[simp] theorem removeItems_batchA (k : Slot) : (removeItems k s).batchA = s.batchA := rfl
@[simp] theorem removeItems_batchB (k : Slot) : (removeItems k s).batchB = s.batchB := rfl
@[simp] theorem removeItems_engine (k : Slot) : (removeItems k s).engine = s.engine := rfl
@[simp] theorem removeItems_firstWaiting (k : Slot) : (removeItems k s).firstWaiting = s.firstWaiting := rfl
@[simp] theorem removeItems_nextIndex (k : Slot) : (removeItems k s).nextIndex = s.nextIndex := rfl
@[simp] theorem removeItems_entriesDone (k : Slot) : (removeItems k s).entriesDone = s.entriesDone := rfl
@[simp] theorem removeItems_faultStop (k : Slot) : (removeItems k s).faultStop = s.faultStop := rfl
@[simp] theorem removeItems_abandoned (k : Slot) : (removeItems k s).abandoned = s.abandoned := rfl
@[simp] theorem removeItems_branchMap (k : Slot) : (removeItems k s).branchMap = s.branchMap := rfl
@[simp] theorem removeItems_links (k : Slot) : (removeItems k s).links = s.links := rfl
@[simp] theorem removeItems_profiles (k : Slot) : (removeItems k s).profiles = s.profiles := rfl
@[simp] theorem removeItems_dueList (k : Slot) : (removeItems k s).dueList = s.dueList := rfl
@[simp] theorem removeItems_records (k : Slot) : (removeItems k s).records = s.records := rfl
@[simp] theorem removeItems_sendOrder (k : Slot) : (removeItems k s).sendOrder = s.sendOrder := rfl
@[simp] theorem removeItems_queue (k : Slot) :
    (removeItems k s).queue = s.queue.filter fun it => !isItemOf k it := rfl
@[simp] theorem removeItems_device (k : Slot) : (removeItems k s).device = s.device := rfl
@[simp] theorem removeItems_boardBase (k : Slot) : (removeItems k s).boardBase = s.boardBase := rfl
@[simp] theorem removeItems_lastDraw (k : Slot) : (removeItems k s).lastDraw = s.lastDraw := rfl
@[simp] theorem removeItems_phase (k : Slot) : (removeItems k s).phase = s.phase := rfl
@[simp] theorem removeItems_walkPosition (k : Slot) : (removeItems k s).walkPosition = s.walkPosition := rfl
@[simp] theorem removeItems_hostMem (k : Slot) : (removeItems k s).hostMem = s.hostMem := rfl
@[simp] theorem removeItems_posted (k : Slot) : (removeItems k s).posted = s.posted := rfl
@[simp] theorem removeItems_bus (k : Slot) : (removeItems k s).bus = s.bus := rfl
@[simp] theorem removeItems_noise (k : Slot) : (removeItems k s).noise = s.noise := rfl
@[simp] theorem removeItems_drawCount (k : Slot) : (removeItems k s).drawCount = s.drawCount := rfl
@[simp] theorem removeItems_pending (k : Slot) : (removeItems k s).pending = s.pending := rfl

/-! ## setLastDraw -/

@[simp] theorem setLastDraw_resetn (d : Draw) : (setLastDraw d s).resetn = s.resetn := rfl
@[simp] theorem setLastDraw_quiescePin (d : Draw) : (setLastDraw d s).quiescePin = s.quiescePin := rfl
@[simp] theorem setLastDraw_quiesce (d : Draw) : (setLastDraw d s).quiesce = s.quiesce := rfl
@[simp] theorem setLastDraw_settings (d : Draw) : (setLastDraw d s).settings = s.settings := rfl
@[simp] theorem setLastDraw_oneTimeStore (d : Draw) : (setLastDraw d s).oneTimeStore = s.oneTimeStore := rfl
@[simp] theorem setLastDraw_masterKey (d : Draw) : (setLastDraw d s).masterKey = s.masterKey := rfl
@[simp] theorem setLastDraw_mask (d : Draw) : (setLastDraw d s).mask = s.mask := rfl
@[simp] theorem setLastDraw_causes (d : Draw) : (setLastDraw d s).causes = s.causes := rfl
@[simp] theorem setLastDraw_clamped (d : Draw) : (setLastDraw d s).clamped = s.clamped := rfl
@[simp] theorem setLastDraw_run (d : Draw) : (setLastDraw d s).run = s.run := rfl
@[simp] theorem setLastDraw_workBase (d : Draw) : (setLastDraw d s).workBase = s.workBase := rfl
@[simp] theorem setLastDraw_batchA (d : Draw) : (setLastDraw d s).batchA = s.batchA := rfl
@[simp] theorem setLastDraw_batchB (d : Draw) : (setLastDraw d s).batchB = s.batchB := rfl
@[simp] theorem setLastDraw_engine (d : Draw) : (setLastDraw d s).engine = s.engine := rfl
@[simp] theorem setLastDraw_firstWaiting (d : Draw) : (setLastDraw d s).firstWaiting = s.firstWaiting := rfl
@[simp] theorem setLastDraw_nextIndex (d : Draw) : (setLastDraw d s).nextIndex = s.nextIndex := rfl
@[simp] theorem setLastDraw_entriesDone (d : Draw) : (setLastDraw d s).entriesDone = s.entriesDone := rfl
@[simp] theorem setLastDraw_faultStop (d : Draw) : (setLastDraw d s).faultStop = s.faultStop := rfl
@[simp] theorem setLastDraw_abandoned (d : Draw) : (setLastDraw d s).abandoned = s.abandoned := rfl
@[simp] theorem setLastDraw_branchMap (d : Draw) : (setLastDraw d s).branchMap = s.branchMap := rfl
@[simp] theorem setLastDraw_links (d : Draw) : (setLastDraw d s).links = s.links := rfl
@[simp] theorem setLastDraw_profiles (d : Draw) : (setLastDraw d s).profiles = s.profiles := rfl
@[simp] theorem setLastDraw_dueList (d : Draw) : (setLastDraw d s).dueList = s.dueList := rfl
@[simp] theorem setLastDraw_records (d : Draw) : (setLastDraw d s).records = s.records := rfl
@[simp] theorem setLastDraw_sendOrder (d : Draw) : (setLastDraw d s).sendOrder = s.sendOrder := rfl
@[simp] theorem setLastDraw_queue (d : Draw) : (setLastDraw d s).queue = s.queue := rfl
@[simp] theorem setLastDraw_device (d : Draw) : (setLastDraw d s).device = s.device := rfl
@[simp] theorem setLastDraw_boardBase (d : Draw) : (setLastDraw d s).boardBase = s.boardBase := rfl
@[simp] theorem setLastDraw_lastDraw (d : Draw) : (setLastDraw d s).lastDraw = some d := rfl
@[simp] theorem setLastDraw_phase (d : Draw) : (setLastDraw d s).phase = s.phase := rfl
@[simp] theorem setLastDraw_walkPosition (d : Draw) : (setLastDraw d s).walkPosition = s.walkPosition := rfl
@[simp] theorem setLastDraw_hostMem (d : Draw) : (setLastDraw d s).hostMem = s.hostMem := rfl
@[simp] theorem setLastDraw_posted (d : Draw) : (setLastDraw d s).posted = s.posted := rfl
@[simp] theorem setLastDraw_bus (d : Draw) : (setLastDraw d s).bus = s.bus := rfl
@[simp] theorem setLastDraw_noise (d : Draw) : (setLastDraw d s).noise = s.noise := rfl
@[simp] theorem setLastDraw_drawCount (d : Draw) : (setLastDraw d s).drawCount = s.drawCount := rfl
@[simp] theorem setLastDraw_pending (d : Draw) : (setLastDraw d s).pending = s.pending := rfl

/-! ## joinSendOrder -/

@[simp] theorem joinSendOrder_resetn (n : RecordNumber) : (joinSendOrder n s).resetn = s.resetn := rfl
@[simp] theorem joinSendOrder_quiescePin (n : RecordNumber) : (joinSendOrder n s).quiescePin = s.quiescePin := rfl
@[simp] theorem joinSendOrder_quiesce (n : RecordNumber) : (joinSendOrder n s).quiesce = s.quiesce := rfl
@[simp] theorem joinSendOrder_settings (n : RecordNumber) : (joinSendOrder n s).settings = s.settings := rfl
@[simp] theorem joinSendOrder_oneTimeStore (n : RecordNumber) :
    (joinSendOrder n s).oneTimeStore = s.oneTimeStore := rfl
@[simp] theorem joinSendOrder_masterKey (n : RecordNumber) : (joinSendOrder n s).masterKey = s.masterKey := rfl
@[simp] theorem joinSendOrder_mask (n : RecordNumber) : (joinSendOrder n s).mask = s.mask := rfl
@[simp] theorem joinSendOrder_causes (n : RecordNumber) : (joinSendOrder n s).causes = s.causes := rfl
@[simp] theorem joinSendOrder_clamped (n : RecordNumber) : (joinSendOrder n s).clamped = s.clamped := rfl
@[simp] theorem joinSendOrder_run (n : RecordNumber) : (joinSendOrder n s).run = s.run := rfl
@[simp] theorem joinSendOrder_workBase (n : RecordNumber) : (joinSendOrder n s).workBase = s.workBase := rfl
@[simp] theorem joinSendOrder_batchA (n : RecordNumber) : (joinSendOrder n s).batchA = s.batchA := rfl
@[simp] theorem joinSendOrder_batchB (n : RecordNumber) : (joinSendOrder n s).batchB = s.batchB := rfl
@[simp] theorem joinSendOrder_engine (n : RecordNumber) : (joinSendOrder n s).engine = s.engine := rfl
@[simp] theorem joinSendOrder_firstWaiting (n : RecordNumber) :
    (joinSendOrder n s).firstWaiting = s.firstWaiting := rfl
@[simp] theorem joinSendOrder_nextIndex (n : RecordNumber) : (joinSendOrder n s).nextIndex = s.nextIndex := rfl
@[simp] theorem joinSendOrder_entriesDone (n : RecordNumber) : (joinSendOrder n s).entriesDone = s.entriesDone := rfl
@[simp] theorem joinSendOrder_faultStop (n : RecordNumber) : (joinSendOrder n s).faultStop = s.faultStop := rfl
@[simp] theorem joinSendOrder_abandoned (n : RecordNumber) : (joinSendOrder n s).abandoned = s.abandoned := rfl
@[simp] theorem joinSendOrder_branchMap (n : RecordNumber) : (joinSendOrder n s).branchMap = s.branchMap := rfl
@[simp] theorem joinSendOrder_links (n : RecordNumber) : (joinSendOrder n s).links = s.links := rfl
@[simp] theorem joinSendOrder_profiles (n : RecordNumber) : (joinSendOrder n s).profiles = s.profiles := rfl
@[simp] theorem joinSendOrder_dueList (n : RecordNumber) : (joinSendOrder n s).dueList = s.dueList := rfl
@[simp] theorem joinSendOrder_records (n : RecordNumber) : (joinSendOrder n s).records = s.records := rfl
@[simp] theorem joinSendOrder_sendOrder (n : RecordNumber) : (joinSendOrder n s).sendOrder = s.sendOrder ++ [n] := rfl
@[simp] theorem joinSendOrder_queue (n : RecordNumber) : (joinSendOrder n s).queue = s.queue := rfl
@[simp] theorem joinSendOrder_device (n : RecordNumber) : (joinSendOrder n s).device = s.device := rfl
@[simp] theorem joinSendOrder_boardBase (n : RecordNumber) : (joinSendOrder n s).boardBase = s.boardBase := rfl
@[simp] theorem joinSendOrder_lastDraw (n : RecordNumber) : (joinSendOrder n s).lastDraw = s.lastDraw := rfl
@[simp] theorem joinSendOrder_phase (n : RecordNumber) : (joinSendOrder n s).phase = s.phase := rfl
@[simp] theorem joinSendOrder_walkPosition (n : RecordNumber) :
    (joinSendOrder n s).walkPosition = s.walkPosition := rfl
@[simp] theorem joinSendOrder_hostMem (n : RecordNumber) : (joinSendOrder n s).hostMem = s.hostMem := rfl
@[simp] theorem joinSendOrder_posted (n : RecordNumber) : (joinSendOrder n s).posted = s.posted := rfl
@[simp] theorem joinSendOrder_bus (n : RecordNumber) : (joinSendOrder n s).bus = s.bus := rfl
@[simp] theorem joinSendOrder_noise (n : RecordNumber) : (joinSendOrder n s).noise = s.noise := rfl
@[simp] theorem joinSendOrder_drawCount (n : RecordNumber) : (joinSendOrder n s).drawCount = s.drawCount := rfl
@[simp] theorem joinSendOrder_pending (n : RecordNumber) : (joinSendOrder n s).pending = s.pending := rfl

/-! ## leaveSendOrder -/

@[simp] theorem leaveSendOrder_resetn (n : RecordNumber) : (leaveSendOrder n s).resetn = s.resetn := rfl
@[simp] theorem leaveSendOrder_quiescePin (n : RecordNumber) : (leaveSendOrder n s).quiescePin = s.quiescePin := rfl
@[simp] theorem leaveSendOrder_quiesce (n : RecordNumber) : (leaveSendOrder n s).quiesce = s.quiesce := rfl
@[simp] theorem leaveSendOrder_settings (n : RecordNumber) : (leaveSendOrder n s).settings = s.settings := rfl
@[simp] theorem leaveSendOrder_oneTimeStore (n : RecordNumber) :
    (leaveSendOrder n s).oneTimeStore = s.oneTimeStore := rfl
@[simp] theorem leaveSendOrder_masterKey (n : RecordNumber) : (leaveSendOrder n s).masterKey = s.masterKey := rfl
@[simp] theorem leaveSendOrder_mask (n : RecordNumber) : (leaveSendOrder n s).mask = s.mask := rfl
@[simp] theorem leaveSendOrder_causes (n : RecordNumber) : (leaveSendOrder n s).causes = s.causes := rfl
@[simp] theorem leaveSendOrder_clamped (n : RecordNumber) : (leaveSendOrder n s).clamped = s.clamped := rfl
@[simp] theorem leaveSendOrder_run (n : RecordNumber) : (leaveSendOrder n s).run = s.run := rfl
@[simp] theorem leaveSendOrder_workBase (n : RecordNumber) : (leaveSendOrder n s).workBase = s.workBase := rfl
@[simp] theorem leaveSendOrder_batchA (n : RecordNumber) : (leaveSendOrder n s).batchA = s.batchA := rfl
@[simp] theorem leaveSendOrder_batchB (n : RecordNumber) : (leaveSendOrder n s).batchB = s.batchB := rfl
@[simp] theorem leaveSendOrder_engine (n : RecordNumber) : (leaveSendOrder n s).engine = s.engine := rfl
@[simp] theorem leaveSendOrder_firstWaiting (n : RecordNumber) :
    (leaveSendOrder n s).firstWaiting = s.firstWaiting := rfl
@[simp] theorem leaveSendOrder_nextIndex (n : RecordNumber) : (leaveSendOrder n s).nextIndex = s.nextIndex := rfl
@[simp] theorem leaveSendOrder_entriesDone (n : RecordNumber) :
    (leaveSendOrder n s).entriesDone = s.entriesDone := rfl
@[simp] theorem leaveSendOrder_faultStop (n : RecordNumber) : (leaveSendOrder n s).faultStop = s.faultStop := rfl
@[simp] theorem leaveSendOrder_abandoned (n : RecordNumber) : (leaveSendOrder n s).abandoned = s.abandoned := rfl
@[simp] theorem leaveSendOrder_branchMap (n : RecordNumber) : (leaveSendOrder n s).branchMap = s.branchMap := rfl
@[simp] theorem leaveSendOrder_links (n : RecordNumber) : (leaveSendOrder n s).links = s.links := rfl
@[simp] theorem leaveSendOrder_profiles (n : RecordNumber) : (leaveSendOrder n s).profiles = s.profiles := rfl
@[simp] theorem leaveSendOrder_dueList (n : RecordNumber) : (leaveSendOrder n s).dueList = s.dueList := rfl
@[simp] theorem leaveSendOrder_records (n : RecordNumber) : (leaveSendOrder n s).records = s.records := rfl
@[simp] theorem leaveSendOrder_sendOrder (n : RecordNumber) :
    (leaveSendOrder n s).sendOrder = s.sendOrder.filter fun m => m ≠ n := rfl
@[simp] theorem leaveSendOrder_queue (n : RecordNumber) : (leaveSendOrder n s).queue = s.queue := rfl
@[simp] theorem leaveSendOrder_device (n : RecordNumber) : (leaveSendOrder n s).device = s.device := rfl
@[simp] theorem leaveSendOrder_boardBase (n : RecordNumber) : (leaveSendOrder n s).boardBase = s.boardBase := rfl
@[simp] theorem leaveSendOrder_lastDraw (n : RecordNumber) : (leaveSendOrder n s).lastDraw = s.lastDraw := rfl
@[simp] theorem leaveSendOrder_phase (n : RecordNumber) : (leaveSendOrder n s).phase = s.phase := rfl
@[simp] theorem leaveSendOrder_walkPosition (n : RecordNumber) :
    (leaveSendOrder n s).walkPosition = s.walkPosition := rfl
@[simp] theorem leaveSendOrder_hostMem (n : RecordNumber) : (leaveSendOrder n s).hostMem = s.hostMem := rfl
@[simp] theorem leaveSendOrder_posted (n : RecordNumber) : (leaveSendOrder n s).posted = s.posted := rfl
@[simp] theorem leaveSendOrder_bus (n : RecordNumber) : (leaveSendOrder n s).bus = s.bus := rfl
@[simp] theorem leaveSendOrder_noise (n : RecordNumber) : (leaveSendOrder n s).noise = s.noise := rfl
@[simp] theorem leaveSendOrder_drawCount (n : RecordNumber) : (leaveSendOrder n s).drawCount = s.drawCount := rfl
@[simp] theorem leaveSendOrder_pending (n : RecordNumber) : (leaveSendOrder n s).pending = s.pending := rfl

/-! ## freeRecordAt -/

@[simp] theorem freeRecordAt_resetn (n : RecordNumber) : (freeRecordAt n s).resetn = s.resetn := rfl
@[simp] theorem freeRecordAt_quiescePin (n : RecordNumber) : (freeRecordAt n s).quiescePin = s.quiescePin := rfl
@[simp] theorem freeRecordAt_quiesce (n : RecordNumber) : (freeRecordAt n s).quiesce = s.quiesce := rfl
@[simp] theorem freeRecordAt_settings (n : RecordNumber) : (freeRecordAt n s).settings = s.settings := rfl
@[simp] theorem freeRecordAt_oneTimeStore (n : RecordNumber) : (freeRecordAt n s).oneTimeStore = s.oneTimeStore := rfl
@[simp] theorem freeRecordAt_masterKey (n : RecordNumber) : (freeRecordAt n s).masterKey = s.masterKey := rfl
@[simp] theorem freeRecordAt_mask (n : RecordNumber) : (freeRecordAt n s).mask = s.mask := rfl
@[simp] theorem freeRecordAt_causes (n : RecordNumber) : (freeRecordAt n s).causes = s.causes := rfl
@[simp] theorem freeRecordAt_clamped (n : RecordNumber) : (freeRecordAt n s).clamped = s.clamped := rfl
@[simp] theorem freeRecordAt_run (n : RecordNumber) : (freeRecordAt n s).run = s.run := rfl
@[simp] theorem freeRecordAt_workBase (n : RecordNumber) : (freeRecordAt n s).workBase = s.workBase := rfl
@[simp] theorem freeRecordAt_batchA (n : RecordNumber) : (freeRecordAt n s).batchA = s.batchA := rfl
@[simp] theorem freeRecordAt_batchB (n : RecordNumber) : (freeRecordAt n s).batchB = s.batchB := rfl
@[simp] theorem freeRecordAt_engine (n : RecordNumber) : (freeRecordAt n s).engine = s.engine := rfl
@[simp] theorem freeRecordAt_firstWaiting (n : RecordNumber) : (freeRecordAt n s).firstWaiting = s.firstWaiting := rfl
@[simp] theorem freeRecordAt_nextIndex (n : RecordNumber) : (freeRecordAt n s).nextIndex = s.nextIndex := rfl
@[simp] theorem freeRecordAt_entriesDone (n : RecordNumber) : (freeRecordAt n s).entriesDone = s.entriesDone := rfl
@[simp] theorem freeRecordAt_faultStop (n : RecordNumber) : (freeRecordAt n s).faultStop = s.faultStop := rfl
@[simp] theorem freeRecordAt_abandoned (n : RecordNumber) : (freeRecordAt n s).abandoned = s.abandoned := rfl
@[simp] theorem freeRecordAt_branchMap (n : RecordNumber) : (freeRecordAt n s).branchMap = s.branchMap := rfl
@[simp] theorem freeRecordAt_links (n : RecordNumber) : (freeRecordAt n s).links = s.links := rfl
@[simp] theorem freeRecordAt_profiles (n : RecordNumber) : (freeRecordAt n s).profiles = s.profiles := rfl
@[simp] theorem freeRecordAt_dueList (n : RecordNumber) : (freeRecordAt n s).dueList = s.dueList := rfl
@[simp] theorem freeRecordAt_records (n : RecordNumber) :
    (freeRecordAt n s).records = s.records.set n.val .free := rfl
@[simp] theorem freeRecordAt_sendOrder (n : RecordNumber) :
    (freeRecordAt n s).sendOrder = s.sendOrder.filter fun m => m ≠ n := rfl
@[simp] theorem freeRecordAt_queue (n : RecordNumber) : (freeRecordAt n s).queue = s.queue := rfl
@[simp] theorem freeRecordAt_device (n : RecordNumber) : (freeRecordAt n s).device = s.device := rfl
@[simp] theorem freeRecordAt_boardBase (n : RecordNumber) : (freeRecordAt n s).boardBase = s.boardBase := rfl
@[simp] theorem freeRecordAt_lastDraw (n : RecordNumber) : (freeRecordAt n s).lastDraw = s.lastDraw := rfl
@[simp] theorem freeRecordAt_phase (n : RecordNumber) : (freeRecordAt n s).phase = s.phase := rfl
@[simp] theorem freeRecordAt_walkPosition (n : RecordNumber) : (freeRecordAt n s).walkPosition = s.walkPosition := rfl
@[simp] theorem freeRecordAt_hostMem (n : RecordNumber) : (freeRecordAt n s).hostMem = s.hostMem := rfl
@[simp] theorem freeRecordAt_posted (n : RecordNumber) : (freeRecordAt n s).posted = s.posted := rfl
@[simp] theorem freeRecordAt_bus (n : RecordNumber) : (freeRecordAt n s).bus = s.bus := rfl
@[simp] theorem freeRecordAt_noise (n : RecordNumber) : (freeRecordAt n s).noise = s.noise := rfl
@[simp] theorem freeRecordAt_drawCount (n : RecordNumber) : (freeRecordAt n s).drawCount = s.drawCount := rfl
@[simp] theorem freeRecordAt_pending (n : RecordNumber) : (freeRecordAt n s).pending = s.pending := rfl

/-! ## setBranchMap -/

@[simp] theorem setBranchMap_resetn (m : List Triple) : (setBranchMap m s).resetn = s.resetn := rfl
@[simp] theorem setBranchMap_quiescePin (m : List Triple) : (setBranchMap m s).quiescePin = s.quiescePin := rfl
@[simp] theorem setBranchMap_quiesce (m : List Triple) : (setBranchMap m s).quiesce = s.quiesce := rfl
@[simp] theorem setBranchMap_settings (m : List Triple) : (setBranchMap m s).settings = s.settings := rfl
@[simp] theorem setBranchMap_oneTimeStore (m : List Triple) : (setBranchMap m s).oneTimeStore = s.oneTimeStore := rfl
@[simp] theorem setBranchMap_masterKey (m : List Triple) : (setBranchMap m s).masterKey = s.masterKey := rfl
@[simp] theorem setBranchMap_mask (m : List Triple) : (setBranchMap m s).mask = s.mask := rfl
@[simp] theorem setBranchMap_causes (m : List Triple) : (setBranchMap m s).causes = s.causes := rfl
@[simp] theorem setBranchMap_clamped (m : List Triple) : (setBranchMap m s).clamped = s.clamped := rfl
@[simp] theorem setBranchMap_run (m : List Triple) : (setBranchMap m s).run = s.run := rfl
@[simp] theorem setBranchMap_workBase (m : List Triple) : (setBranchMap m s).workBase = s.workBase := rfl
@[simp] theorem setBranchMap_batchA (m : List Triple) : (setBranchMap m s).batchA = s.batchA := rfl
@[simp] theorem setBranchMap_batchB (m : List Triple) : (setBranchMap m s).batchB = s.batchB := rfl
@[simp] theorem setBranchMap_engine (m : List Triple) : (setBranchMap m s).engine = s.engine := rfl
@[simp] theorem setBranchMap_firstWaiting (m : List Triple) : (setBranchMap m s).firstWaiting = s.firstWaiting := rfl
@[simp] theorem setBranchMap_nextIndex (m : List Triple) : (setBranchMap m s).nextIndex = s.nextIndex := rfl
@[simp] theorem setBranchMap_entriesDone (m : List Triple) : (setBranchMap m s).entriesDone = s.entriesDone := rfl
@[simp] theorem setBranchMap_faultStop (m : List Triple) : (setBranchMap m s).faultStop = s.faultStop := rfl
@[simp] theorem setBranchMap_abandoned (m : List Triple) : (setBranchMap m s).abandoned = s.abandoned := rfl
@[simp] theorem setBranchMap_branchMap (m : List Triple) : (setBranchMap m s).branchMap = m := rfl
@[simp] theorem setBranchMap_links (m : List Triple) : (setBranchMap m s).links = s.links := rfl
@[simp] theorem setBranchMap_profiles (m : List Triple) : (setBranchMap m s).profiles = s.profiles := rfl
@[simp] theorem setBranchMap_dueList (m : List Triple) : (setBranchMap m s).dueList = s.dueList := rfl
@[simp] theorem setBranchMap_records (m : List Triple) : (setBranchMap m s).records = s.records := rfl
@[simp] theorem setBranchMap_sendOrder (m : List Triple) : (setBranchMap m s).sendOrder = s.sendOrder := rfl
@[simp] theorem setBranchMap_queue (m : List Triple) : (setBranchMap m s).queue = s.queue := rfl
@[simp] theorem setBranchMap_device (m : List Triple) : (setBranchMap m s).device = s.device := rfl
@[simp] theorem setBranchMap_boardBase (m : List Triple) : (setBranchMap m s).boardBase = s.boardBase := rfl
@[simp] theorem setBranchMap_lastDraw (m : List Triple) : (setBranchMap m s).lastDraw = s.lastDraw := rfl
@[simp] theorem setBranchMap_phase (m : List Triple) : (setBranchMap m s).phase = s.phase := rfl
@[simp] theorem setBranchMap_walkPosition (m : List Triple) : (setBranchMap m s).walkPosition = s.walkPosition := rfl
@[simp] theorem setBranchMap_hostMem (m : List Triple) : (setBranchMap m s).hostMem = s.hostMem := rfl
@[simp] theorem setBranchMap_posted (m : List Triple) : (setBranchMap m s).posted = s.posted := rfl
@[simp] theorem setBranchMap_bus (m : List Triple) : (setBranchMap m s).bus = s.bus := rfl
@[simp] theorem setBranchMap_noise (m : List Triple) : (setBranchMap m s).noise = s.noise := rfl
@[simp] theorem setBranchMap_drawCount (m : List Triple) : (setBranchMap m s).drawCount = s.drawCount := rfl
@[simp] theorem setBranchMap_pending (m : List Triple) : (setBranchMap m s).pending = s.pending := rfl

/-! ## removeDue -/

@[simp] theorem removeDue_resetn (k : Slot) : (removeDue k s).resetn = s.resetn := rfl
@[simp] theorem removeDue_quiescePin (k : Slot) : (removeDue k s).quiescePin = s.quiescePin := rfl
@[simp] theorem removeDue_quiesce (k : Slot) : (removeDue k s).quiesce = s.quiesce := rfl
@[simp] theorem removeDue_settings (k : Slot) : (removeDue k s).settings = s.settings := rfl
@[simp] theorem removeDue_oneTimeStore (k : Slot) : (removeDue k s).oneTimeStore = s.oneTimeStore := rfl
@[simp] theorem removeDue_masterKey (k : Slot) : (removeDue k s).masterKey = s.masterKey := rfl
@[simp] theorem removeDue_mask (k : Slot) : (removeDue k s).mask = s.mask := rfl
@[simp] theorem removeDue_causes (k : Slot) : (removeDue k s).causes = s.causes := rfl
@[simp] theorem removeDue_clamped (k : Slot) : (removeDue k s).clamped = s.clamped := rfl
@[simp] theorem removeDue_run (k : Slot) : (removeDue k s).run = s.run := rfl
@[simp] theorem removeDue_workBase (k : Slot) : (removeDue k s).workBase = s.workBase := rfl
@[simp] theorem removeDue_batchA (k : Slot) : (removeDue k s).batchA = s.batchA := rfl
@[simp] theorem removeDue_batchB (k : Slot) : (removeDue k s).batchB = s.batchB := rfl
@[simp] theorem removeDue_engine (k : Slot) : (removeDue k s).engine = s.engine := rfl
@[simp] theorem removeDue_firstWaiting (k : Slot) : (removeDue k s).firstWaiting = s.firstWaiting := rfl
@[simp] theorem removeDue_nextIndex (k : Slot) : (removeDue k s).nextIndex = s.nextIndex := rfl
@[simp] theorem removeDue_entriesDone (k : Slot) : (removeDue k s).entriesDone = s.entriesDone := rfl
@[simp] theorem removeDue_faultStop (k : Slot) : (removeDue k s).faultStop = s.faultStop := rfl
@[simp] theorem removeDue_abandoned (k : Slot) : (removeDue k s).abandoned = s.abandoned := rfl
@[simp] theorem removeDue_branchMap (k : Slot) : (removeDue k s).branchMap = s.branchMap := rfl
@[simp] theorem removeDue_links (k : Slot) : (removeDue k s).links = s.links := rfl
@[simp] theorem removeDue_profiles (k : Slot) : (removeDue k s).profiles = s.profiles := rfl
@[simp] theorem removeDue_dueList (k : Slot) : (removeDue k s).dueList = s.dueList.remove k := rfl
@[simp] theorem removeDue_records (k : Slot) : (removeDue k s).records = s.records := rfl
@[simp] theorem removeDue_sendOrder (k : Slot) : (removeDue k s).sendOrder = s.sendOrder := rfl
@[simp] theorem removeDue_queue (k : Slot) : (removeDue k s).queue = s.queue := rfl
@[simp] theorem removeDue_device (k : Slot) : (removeDue k s).device = s.device := rfl
@[simp] theorem removeDue_boardBase (k : Slot) : (removeDue k s).boardBase = s.boardBase := rfl
@[simp] theorem removeDue_lastDraw (k : Slot) : (removeDue k s).lastDraw = s.lastDraw := rfl
@[simp] theorem removeDue_phase (k : Slot) : (removeDue k s).phase = s.phase := rfl
@[simp] theorem removeDue_walkPosition (k : Slot) : (removeDue k s).walkPosition = s.walkPosition := rfl
@[simp] theorem removeDue_hostMem (k : Slot) : (removeDue k s).hostMem = s.hostMem := rfl
@[simp] theorem removeDue_posted (k : Slot) : (removeDue k s).posted = s.posted := rfl
@[simp] theorem removeDue_bus (k : Slot) : (removeDue k s).bus = s.bus := rfl
@[simp] theorem removeDue_noise (k : Slot) : (removeDue k s).noise = s.noise := rfl
@[simp] theorem removeDue_drawCount (k : Slot) : (removeDue k s).drawCount = s.drawCount := rfl
@[simp] theorem removeDue_pending (k : Slot) : (removeDue k s).pending = s.pending := rfl

/-! ## appendDue -/

@[simp] theorem appendDue_resetn (k : Slot) (sec : Section) : (appendDue k sec s).resetn = s.resetn := rfl
@[simp] theorem appendDue_quiescePin (k : Slot) (sec : Section) : (appendDue k sec s).quiescePin = s.quiescePin := rfl
@[simp] theorem appendDue_quiesce (k : Slot) (sec : Section) : (appendDue k sec s).quiesce = s.quiesce := rfl
@[simp] theorem appendDue_settings (k : Slot) (sec : Section) : (appendDue k sec s).settings = s.settings := rfl
@[simp] theorem appendDue_oneTimeStore (k : Slot) (sec : Section) :
    (appendDue k sec s).oneTimeStore = s.oneTimeStore := rfl
@[simp] theorem appendDue_masterKey (k : Slot) (sec : Section) : (appendDue k sec s).masterKey = s.masterKey := rfl
@[simp] theorem appendDue_mask (k : Slot) (sec : Section) : (appendDue k sec s).mask = s.mask := rfl
@[simp] theorem appendDue_causes (k : Slot) (sec : Section) : (appendDue k sec s).causes = s.causes := rfl
@[simp] theorem appendDue_clamped (k : Slot) (sec : Section) : (appendDue k sec s).clamped = s.clamped := rfl
@[simp] theorem appendDue_run (k : Slot) (sec : Section) : (appendDue k sec s).run = s.run := rfl
@[simp] theorem appendDue_workBase (k : Slot) (sec : Section) : (appendDue k sec s).workBase = s.workBase := rfl
@[simp] theorem appendDue_batchA (k : Slot) (sec : Section) : (appendDue k sec s).batchA = s.batchA := rfl
@[simp] theorem appendDue_batchB (k : Slot) (sec : Section) : (appendDue k sec s).batchB = s.batchB := rfl
@[simp] theorem appendDue_engine (k : Slot) (sec : Section) : (appendDue k sec s).engine = s.engine := rfl
@[simp] theorem appendDue_firstWaiting (k : Slot) (sec : Section) :
    (appendDue k sec s).firstWaiting = s.firstWaiting := rfl
@[simp] theorem appendDue_nextIndex (k : Slot) (sec : Section) : (appendDue k sec s).nextIndex = s.nextIndex := rfl
@[simp] theorem appendDue_entriesDone (k : Slot) (sec : Section) :
    (appendDue k sec s).entriesDone = s.entriesDone := rfl
@[simp] theorem appendDue_faultStop (k : Slot) (sec : Section) : (appendDue k sec s).faultStop = s.faultStop := rfl
@[simp] theorem appendDue_abandoned (k : Slot) (sec : Section) : (appendDue k sec s).abandoned = s.abandoned := rfl
@[simp] theorem appendDue_branchMap (k : Slot) (sec : Section) : (appendDue k sec s).branchMap = s.branchMap := rfl
@[simp] theorem appendDue_links (k : Slot) (sec : Section) : (appendDue k sec s).links = s.links := rfl
@[simp] theorem appendDue_profiles (k : Slot) (sec : Section) : (appendDue k sec s).profiles = s.profiles := rfl
@[simp] theorem appendDue_dueList (k : Slot) (sec : Section) :
    (appendDue k sec s).dueList = s.dueList.append k sec := rfl
@[simp] theorem appendDue_records (k : Slot) (sec : Section) : (appendDue k sec s).records = s.records := rfl
@[simp] theorem appendDue_sendOrder (k : Slot) (sec : Section) : (appendDue k sec s).sendOrder = s.sendOrder := rfl
@[simp] theorem appendDue_queue (k : Slot) (sec : Section) : (appendDue k sec s).queue = s.queue := rfl
@[simp] theorem appendDue_device (k : Slot) (sec : Section) : (appendDue k sec s).device = s.device := rfl
@[simp] theorem appendDue_boardBase (k : Slot) (sec : Section) : (appendDue k sec s).boardBase = s.boardBase := rfl
@[simp] theorem appendDue_lastDraw (k : Slot) (sec : Section) : (appendDue k sec s).lastDraw = s.lastDraw := rfl
@[simp] theorem appendDue_phase (k : Slot) (sec : Section) : (appendDue k sec s).phase = s.phase := rfl
@[simp] theorem appendDue_walkPosition (k : Slot) (sec : Section) :
    (appendDue k sec s).walkPosition = s.walkPosition := rfl
@[simp] theorem appendDue_hostMem (k : Slot) (sec : Section) : (appendDue k sec s).hostMem = s.hostMem := rfl
@[simp] theorem appendDue_posted (k : Slot) (sec : Section) : (appendDue k sec s).posted = s.posted := rfl
@[simp] theorem appendDue_bus (k : Slot) (sec : Section) : (appendDue k sec s).bus = s.bus := rfl
@[simp] theorem appendDue_noise (k : Slot) (sec : Section) : (appendDue k sec s).noise = s.noise := rfl
@[simp] theorem appendDue_drawCount (k : Slot) (sec : Section) : (appendDue k sec s).drawCount = s.drawCount := rfl
@[simp] theorem appendDue_pending (k : Slot) (sec : Section) : (appendDue k sec s).pending = s.pending := rfl

/-! ## promoteDue -/

@[simp] theorem promoteDue_resetn (k : Slot) : (promoteDue k s).resetn = s.resetn := rfl
@[simp] theorem promoteDue_quiescePin (k : Slot) : (promoteDue k s).quiescePin = s.quiescePin := rfl
@[simp] theorem promoteDue_quiesce (k : Slot) : (promoteDue k s).quiesce = s.quiesce := rfl
@[simp] theorem promoteDue_settings (k : Slot) : (promoteDue k s).settings = s.settings := rfl
@[simp] theorem promoteDue_oneTimeStore (k : Slot) : (promoteDue k s).oneTimeStore = s.oneTimeStore := rfl
@[simp] theorem promoteDue_masterKey (k : Slot) : (promoteDue k s).masterKey = s.masterKey := rfl
@[simp] theorem promoteDue_mask (k : Slot) : (promoteDue k s).mask = s.mask := rfl
@[simp] theorem promoteDue_causes (k : Slot) : (promoteDue k s).causes = s.causes := rfl
@[simp] theorem promoteDue_clamped (k : Slot) : (promoteDue k s).clamped = s.clamped := rfl
@[simp] theorem promoteDue_run (k : Slot) : (promoteDue k s).run = s.run := rfl
@[simp] theorem promoteDue_workBase (k : Slot) : (promoteDue k s).workBase = s.workBase := rfl
@[simp] theorem promoteDue_batchA (k : Slot) : (promoteDue k s).batchA = s.batchA := rfl
@[simp] theorem promoteDue_batchB (k : Slot) : (promoteDue k s).batchB = s.batchB := rfl
@[simp] theorem promoteDue_engine (k : Slot) : (promoteDue k s).engine = s.engine := rfl
@[simp] theorem promoteDue_firstWaiting (k : Slot) : (promoteDue k s).firstWaiting = s.firstWaiting := rfl
@[simp] theorem promoteDue_nextIndex (k : Slot) : (promoteDue k s).nextIndex = s.nextIndex := rfl
@[simp] theorem promoteDue_entriesDone (k : Slot) : (promoteDue k s).entriesDone = s.entriesDone := rfl
@[simp] theorem promoteDue_faultStop (k : Slot) : (promoteDue k s).faultStop = s.faultStop := rfl
@[simp] theorem promoteDue_abandoned (k : Slot) : (promoteDue k s).abandoned = s.abandoned := rfl
@[simp] theorem promoteDue_branchMap (k : Slot) : (promoteDue k s).branchMap = s.branchMap := rfl
@[simp] theorem promoteDue_links (k : Slot) : (promoteDue k s).links = s.links := rfl
@[simp] theorem promoteDue_profiles (k : Slot) : (promoteDue k s).profiles = s.profiles := rfl
@[simp] theorem promoteDue_dueList (k : Slot) :
    (promoteDue k s).dueList = ⟨s.dueList.urgent ++ [k], s.dueList.ordinary.filter fun j => j ≠ k⟩ := rfl
@[simp] theorem promoteDue_records (k : Slot) : (promoteDue k s).records = s.records := rfl
@[simp] theorem promoteDue_sendOrder (k : Slot) : (promoteDue k s).sendOrder = s.sendOrder := rfl
@[simp] theorem promoteDue_queue (k : Slot) : (promoteDue k s).queue = s.queue := rfl
@[simp] theorem promoteDue_device (k : Slot) : (promoteDue k s).device = s.device := rfl
@[simp] theorem promoteDue_boardBase (k : Slot) : (promoteDue k s).boardBase = s.boardBase := rfl
@[simp] theorem promoteDue_lastDraw (k : Slot) : (promoteDue k s).lastDraw = s.lastDraw := rfl
@[simp] theorem promoteDue_phase (k : Slot) : (promoteDue k s).phase = s.phase := rfl
@[simp] theorem promoteDue_walkPosition (k : Slot) : (promoteDue k s).walkPosition = s.walkPosition := rfl
@[simp] theorem promoteDue_hostMem (k : Slot) : (promoteDue k s).hostMem = s.hostMem := rfl
@[simp] theorem promoteDue_posted (k : Slot) : (promoteDue k s).posted = s.posted := rfl
@[simp] theorem promoteDue_bus (k : Slot) : (promoteDue k s).bus = s.bus := rfl
@[simp] theorem promoteDue_noise (k : Slot) : (promoteDue k s).noise = s.noise := rfl
@[simp] theorem promoteDue_drawCount (k : Slot) : (promoteDue k s).drawCount = s.drawCount := rfl
@[simp] theorem promoteDue_pending (k : Slot) : (promoteDue k s).pending = s.pending := rfl

/-! ## setEngine -/

@[simp] theorem setEngine_resetn (e : EngineState) : (setEngine e s).resetn = s.resetn := rfl
@[simp] theorem setEngine_quiescePin (e : EngineState) : (setEngine e s).quiescePin = s.quiescePin := rfl
@[simp] theorem setEngine_quiesce (e : EngineState) : (setEngine e s).quiesce = s.quiesce := rfl
@[simp] theorem setEngine_settings (e : EngineState) : (setEngine e s).settings = s.settings := rfl
@[simp] theorem setEngine_oneTimeStore (e : EngineState) : (setEngine e s).oneTimeStore = s.oneTimeStore := rfl
@[simp] theorem setEngine_masterKey (e : EngineState) : (setEngine e s).masterKey = s.masterKey := rfl
@[simp] theorem setEngine_mask (e : EngineState) : (setEngine e s).mask = s.mask := rfl
@[simp] theorem setEngine_causes (e : EngineState) : (setEngine e s).causes = s.causes := rfl
@[simp] theorem setEngine_clamped (e : EngineState) : (setEngine e s).clamped = s.clamped := rfl
@[simp] theorem setEngine_run (e : EngineState) : (setEngine e s).run = s.run := rfl
@[simp] theorem setEngine_workBase (e : EngineState) : (setEngine e s).workBase = s.workBase := rfl
@[simp] theorem setEngine_batchA (e : EngineState) : (setEngine e s).batchA = s.batchA := rfl
@[simp] theorem setEngine_batchB (e : EngineState) : (setEngine e s).batchB = s.batchB := rfl
@[simp] theorem setEngine_engine (e : EngineState) : (setEngine e s).engine = e := rfl
@[simp] theorem setEngine_firstWaiting (e : EngineState) : (setEngine e s).firstWaiting = s.firstWaiting := rfl
@[simp] theorem setEngine_nextIndex (e : EngineState) : (setEngine e s).nextIndex = s.nextIndex := rfl
@[simp] theorem setEngine_entriesDone (e : EngineState) : (setEngine e s).entriesDone = s.entriesDone := rfl
@[simp] theorem setEngine_faultStop (e : EngineState) : (setEngine e s).faultStop = s.faultStop := rfl
@[simp] theorem setEngine_abandoned (e : EngineState) : (setEngine e s).abandoned = s.abandoned := rfl
@[simp] theorem setEngine_branchMap (e : EngineState) : (setEngine e s).branchMap = s.branchMap := rfl
@[simp] theorem setEngine_links (e : EngineState) : (setEngine e s).links = s.links := rfl
@[simp] theorem setEngine_profiles (e : EngineState) : (setEngine e s).profiles = s.profiles := rfl
@[simp] theorem setEngine_dueList (e : EngineState) : (setEngine e s).dueList = s.dueList := rfl
@[simp] theorem setEngine_records (e : EngineState) : (setEngine e s).records = s.records := rfl
@[simp] theorem setEngine_sendOrder (e : EngineState) : (setEngine e s).sendOrder = s.sendOrder := rfl
@[simp] theorem setEngine_queue (e : EngineState) : (setEngine e s).queue = s.queue := rfl
@[simp] theorem setEngine_device (e : EngineState) : (setEngine e s).device = s.device := rfl
@[simp] theorem setEngine_boardBase (e : EngineState) : (setEngine e s).boardBase = s.boardBase := rfl
@[simp] theorem setEngine_lastDraw (e : EngineState) : (setEngine e s).lastDraw = s.lastDraw := rfl
@[simp] theorem setEngine_phase (e : EngineState) : (setEngine e s).phase = s.phase := rfl
@[simp] theorem setEngine_walkPosition (e : EngineState) : (setEngine e s).walkPosition = s.walkPosition := rfl
@[simp] theorem setEngine_hostMem (e : EngineState) : (setEngine e s).hostMem = s.hostMem := rfl
@[simp] theorem setEngine_posted (e : EngineState) : (setEngine e s).posted = s.posted := rfl
@[simp] theorem setEngine_bus (e : EngineState) : (setEngine e s).bus = s.bus := rfl
@[simp] theorem setEngine_noise (e : EngineState) : (setEngine e s).noise = s.noise := rfl
@[simp] theorem setEngine_drawCount (e : EngineState) : (setEngine e s).drawCount = s.drawCount := rfl
@[simp] theorem setEngine_pending (e : EngineState) : (setEngine e s).pending = s.pending := rfl

/-! ## setFirstWaiting -/

@[simp] theorem setFirstWaiting_resetn (f : Option BatchId) : (setFirstWaiting f s).resetn = s.resetn := rfl
@[simp] theorem setFirstWaiting_quiescePin (f : Option BatchId) :
    (setFirstWaiting f s).quiescePin = s.quiescePin := rfl
@[simp] theorem setFirstWaiting_quiesce (f : Option BatchId) : (setFirstWaiting f s).quiesce = s.quiesce := rfl
@[simp] theorem setFirstWaiting_settings (f : Option BatchId) : (setFirstWaiting f s).settings = s.settings := rfl
@[simp] theorem setFirstWaiting_oneTimeStore (f : Option BatchId) :
    (setFirstWaiting f s).oneTimeStore = s.oneTimeStore := rfl
@[simp] theorem setFirstWaiting_masterKey (f : Option BatchId) : (setFirstWaiting f s).masterKey = s.masterKey := rfl
@[simp] theorem setFirstWaiting_mask (f : Option BatchId) : (setFirstWaiting f s).mask = s.mask := rfl
@[simp] theorem setFirstWaiting_causes (f : Option BatchId) : (setFirstWaiting f s).causes = s.causes := rfl
@[simp] theorem setFirstWaiting_clamped (f : Option BatchId) : (setFirstWaiting f s).clamped = s.clamped := rfl
@[simp] theorem setFirstWaiting_run (f : Option BatchId) : (setFirstWaiting f s).run = s.run := rfl
@[simp] theorem setFirstWaiting_workBase (f : Option BatchId) : (setFirstWaiting f s).workBase = s.workBase := rfl
@[simp] theorem setFirstWaiting_batchA (f : Option BatchId) : (setFirstWaiting f s).batchA = s.batchA := rfl
@[simp] theorem setFirstWaiting_batchB (f : Option BatchId) : (setFirstWaiting f s).batchB = s.batchB := rfl
@[simp] theorem setFirstWaiting_engine (f : Option BatchId) : (setFirstWaiting f s).engine = s.engine := rfl
@[simp] theorem setFirstWaiting_firstWaiting (f : Option BatchId) : (setFirstWaiting f s).firstWaiting = f := rfl
@[simp] theorem setFirstWaiting_nextIndex (f : Option BatchId) : (setFirstWaiting f s).nextIndex = s.nextIndex := rfl
@[simp] theorem setFirstWaiting_entriesDone (f : Option BatchId) :
    (setFirstWaiting f s).entriesDone = s.entriesDone := rfl
@[simp] theorem setFirstWaiting_faultStop (f : Option BatchId) : (setFirstWaiting f s).faultStop = s.faultStop := rfl
@[simp] theorem setFirstWaiting_abandoned (f : Option BatchId) : (setFirstWaiting f s).abandoned = s.abandoned := rfl
@[simp] theorem setFirstWaiting_branchMap (f : Option BatchId) : (setFirstWaiting f s).branchMap = s.branchMap := rfl
@[simp] theorem setFirstWaiting_links (f : Option BatchId) : (setFirstWaiting f s).links = s.links := rfl
@[simp] theorem setFirstWaiting_profiles (f : Option BatchId) : (setFirstWaiting f s).profiles = s.profiles := rfl
@[simp] theorem setFirstWaiting_dueList (f : Option BatchId) : (setFirstWaiting f s).dueList = s.dueList := rfl
@[simp] theorem setFirstWaiting_records (f : Option BatchId) : (setFirstWaiting f s).records = s.records := rfl
@[simp] theorem setFirstWaiting_sendOrder (f : Option BatchId) : (setFirstWaiting f s).sendOrder = s.sendOrder := rfl
@[simp] theorem setFirstWaiting_queue (f : Option BatchId) : (setFirstWaiting f s).queue = s.queue := rfl
@[simp] theorem setFirstWaiting_device (f : Option BatchId) : (setFirstWaiting f s).device = s.device := rfl
@[simp] theorem setFirstWaiting_boardBase (f : Option BatchId) : (setFirstWaiting f s).boardBase = s.boardBase := rfl
@[simp] theorem setFirstWaiting_lastDraw (f : Option BatchId) : (setFirstWaiting f s).lastDraw = s.lastDraw := rfl
@[simp] theorem setFirstWaiting_phase (f : Option BatchId) : (setFirstWaiting f s).phase = s.phase := rfl
@[simp] theorem setFirstWaiting_walkPosition (f : Option BatchId) :
    (setFirstWaiting f s).walkPosition = s.walkPosition := rfl
@[simp] theorem setFirstWaiting_hostMem (f : Option BatchId) : (setFirstWaiting f s).hostMem = s.hostMem := rfl
@[simp] theorem setFirstWaiting_posted (f : Option BatchId) : (setFirstWaiting f s).posted = s.posted := rfl
@[simp] theorem setFirstWaiting_bus (f : Option BatchId) : (setFirstWaiting f s).bus = s.bus := rfl
@[simp] theorem setFirstWaiting_noise (f : Option BatchId) : (setFirstWaiting f s).noise = s.noise := rfl
@[simp] theorem setFirstWaiting_drawCount (f : Option BatchId) : (setFirstWaiting f s).drawCount = s.drawCount := rfl
@[simp] theorem setFirstWaiting_pending (f : Option BatchId) : (setFirstWaiting f s).pending = s.pending := rfl

/-! ## serveFromStart -/

@[simp] theorem serveFromStart_resetn : (serveFromStart s).resetn = s.resetn := rfl
@[simp] theorem serveFromStart_quiescePin : (serveFromStart s).quiescePin = s.quiescePin := rfl
@[simp] theorem serveFromStart_quiesce : (serveFromStart s).quiesce = s.quiesce := rfl
@[simp] theorem serveFromStart_settings : (serveFromStart s).settings = s.settings := rfl
@[simp] theorem serveFromStart_oneTimeStore : (serveFromStart s).oneTimeStore = s.oneTimeStore := rfl
@[simp] theorem serveFromStart_masterKey : (serveFromStart s).masterKey = s.masterKey := rfl
@[simp] theorem serveFromStart_mask : (serveFromStart s).mask = s.mask := rfl
@[simp] theorem serveFromStart_causes : (serveFromStart s).causes = s.causes := rfl
@[simp] theorem serveFromStart_clamped : (serveFromStart s).clamped = s.clamped := rfl
@[simp] theorem serveFromStart_run : (serveFromStart s).run = s.run := rfl
@[simp] theorem serveFromStart_workBase : (serveFromStart s).workBase = s.workBase := rfl
@[simp] theorem serveFromStart_batchA : (serveFromStart s).batchA = s.batchA := rfl
@[simp] theorem serveFromStart_batchB : (serveFromStart s).batchB = s.batchB := rfl
@[simp] theorem serveFromStart_engine : (serveFromStart s).engine = .serving := rfl
@[simp] theorem serveFromStart_firstWaiting : (serveFromStart s).firstWaiting = s.firstWaiting := rfl
@[simp] theorem serveFromStart_nextIndex : (serveFromStart s).nextIndex = 0 := rfl
@[simp] theorem serveFromStart_entriesDone : (serveFromStart s).entriesDone = 0 := rfl
@[simp] theorem serveFromStart_faultStop : (serveFromStart s).faultStop = s.faultStop := rfl
@[simp] theorem serveFromStart_abandoned : (serveFromStart s).abandoned = false := rfl
@[simp] theorem serveFromStart_branchMap : (serveFromStart s).branchMap = s.branchMap := rfl
@[simp] theorem serveFromStart_links : (serveFromStart s).links = s.links := rfl
@[simp] theorem serveFromStart_profiles : (serveFromStart s).profiles = s.profiles := rfl
@[simp] theorem serveFromStart_dueList : (serveFromStart s).dueList = s.dueList := rfl
@[simp] theorem serveFromStart_records : (serveFromStart s).records = s.records := rfl
@[simp] theorem serveFromStart_sendOrder : (serveFromStart s).sendOrder = s.sendOrder := rfl
@[simp] theorem serveFromStart_queue : (serveFromStart s).queue = s.queue := rfl
@[simp] theorem serveFromStart_device : (serveFromStart s).device = s.device := rfl
@[simp] theorem serveFromStart_boardBase : (serveFromStart s).boardBase = s.boardBase := rfl
@[simp] theorem serveFromStart_lastDraw : (serveFromStart s).lastDraw = s.lastDraw := rfl
@[simp] theorem serveFromStart_phase : (serveFromStart s).phase = s.phase := rfl
@[simp] theorem serveFromStart_walkPosition : (serveFromStart s).walkPosition = s.walkPosition := rfl
@[simp] theorem serveFromStart_hostMem : (serveFromStart s).hostMem = s.hostMem := rfl
@[simp] theorem serveFromStart_posted : (serveFromStart s).posted = s.posted := rfl
@[simp] theorem serveFromStart_bus : (serveFromStart s).bus = s.bus := rfl
@[simp] theorem serveFromStart_noise : (serveFromStart s).noise = s.noise := rfl
@[simp] theorem serveFromStart_drawCount : (serveFromStart s).drawCount = s.drawCount := rfl
@[simp] theorem serveFromStart_pending : (serveFromStart s).pending = s.pending := rfl

/-! ## setAbandoned -/

@[simp] theorem setAbandoned_resetn : (setAbandoned s).resetn = s.resetn := rfl
@[simp] theorem setAbandoned_quiescePin : (setAbandoned s).quiescePin = s.quiescePin := rfl
@[simp] theorem setAbandoned_quiesce : (setAbandoned s).quiesce = s.quiesce := rfl
@[simp] theorem setAbandoned_settings : (setAbandoned s).settings = s.settings := rfl
@[simp] theorem setAbandoned_oneTimeStore : (setAbandoned s).oneTimeStore = s.oneTimeStore := rfl
@[simp] theorem setAbandoned_masterKey : (setAbandoned s).masterKey = s.masterKey := rfl
@[simp] theorem setAbandoned_mask : (setAbandoned s).mask = s.mask := rfl
@[simp] theorem setAbandoned_causes : (setAbandoned s).causes = s.causes := rfl
@[simp] theorem setAbandoned_clamped : (setAbandoned s).clamped = s.clamped := rfl
@[simp] theorem setAbandoned_run : (setAbandoned s).run = s.run := rfl
@[simp] theorem setAbandoned_workBase : (setAbandoned s).workBase = s.workBase := rfl
@[simp] theorem setAbandoned_batchA : (setAbandoned s).batchA = s.batchA := rfl
@[simp] theorem setAbandoned_batchB : (setAbandoned s).batchB = s.batchB := rfl
@[simp] theorem setAbandoned_engine : (setAbandoned s).engine = s.engine := rfl
@[simp] theorem setAbandoned_firstWaiting : (setAbandoned s).firstWaiting = s.firstWaiting := rfl
@[simp] theorem setAbandoned_nextIndex : (setAbandoned s).nextIndex = s.nextIndex := rfl
@[simp] theorem setAbandoned_entriesDone : (setAbandoned s).entriesDone = s.entriesDone := rfl
@[simp] theorem setAbandoned_faultStop : (setAbandoned s).faultStop = s.faultStop := rfl
@[simp] theorem setAbandoned_abandoned : (setAbandoned s).abandoned = true := rfl
@[simp] theorem setAbandoned_branchMap : (setAbandoned s).branchMap = s.branchMap := rfl
@[simp] theorem setAbandoned_links : (setAbandoned s).links = s.links := rfl
@[simp] theorem setAbandoned_profiles : (setAbandoned s).profiles = s.profiles := rfl
@[simp] theorem setAbandoned_dueList : (setAbandoned s).dueList = s.dueList := rfl
@[simp] theorem setAbandoned_records : (setAbandoned s).records = s.records := rfl
@[simp] theorem setAbandoned_sendOrder : (setAbandoned s).sendOrder = s.sendOrder := rfl
@[simp] theorem setAbandoned_queue : (setAbandoned s).queue = s.queue := rfl
@[simp] theorem setAbandoned_device : (setAbandoned s).device = s.device := rfl
@[simp] theorem setAbandoned_boardBase : (setAbandoned s).boardBase = s.boardBase := rfl
@[simp] theorem setAbandoned_lastDraw : (setAbandoned s).lastDraw = s.lastDraw := rfl
@[simp] theorem setAbandoned_phase : (setAbandoned s).phase = s.phase := rfl
@[simp] theorem setAbandoned_walkPosition : (setAbandoned s).walkPosition = s.walkPosition := rfl
@[simp] theorem setAbandoned_hostMem : (setAbandoned s).hostMem = s.hostMem := rfl
@[simp] theorem setAbandoned_posted : (setAbandoned s).posted = s.posted := rfl
@[simp] theorem setAbandoned_bus : (setAbandoned s).bus = s.bus := rfl
@[simp] theorem setAbandoned_noise : (setAbandoned s).noise = s.noise := rfl
@[simp] theorem setAbandoned_drawCount : (setAbandoned s).drawCount = s.drawCount := rfl
@[simp] theorem setAbandoned_pending : (setAbandoned s).pending = s.pending := rfl

/-! ## setNextIndex -/

@[simp] theorem setNextIndex_resetn (n : Nat) : (setNextIndex n s).resetn = s.resetn := rfl
@[simp] theorem setNextIndex_quiescePin (n : Nat) : (setNextIndex n s).quiescePin = s.quiescePin := rfl
@[simp] theorem setNextIndex_quiesce (n : Nat) : (setNextIndex n s).quiesce = s.quiesce := rfl
@[simp] theorem setNextIndex_settings (n : Nat) : (setNextIndex n s).settings = s.settings := rfl
@[simp] theorem setNextIndex_oneTimeStore (n : Nat) : (setNextIndex n s).oneTimeStore = s.oneTimeStore := rfl
@[simp] theorem setNextIndex_masterKey (n : Nat) : (setNextIndex n s).masterKey = s.masterKey := rfl
@[simp] theorem setNextIndex_mask (n : Nat) : (setNextIndex n s).mask = s.mask := rfl
@[simp] theorem setNextIndex_causes (n : Nat) : (setNextIndex n s).causes = s.causes := rfl
@[simp] theorem setNextIndex_clamped (n : Nat) : (setNextIndex n s).clamped = s.clamped := rfl
@[simp] theorem setNextIndex_run (n : Nat) : (setNextIndex n s).run = s.run := rfl
@[simp] theorem setNextIndex_workBase (n : Nat) : (setNextIndex n s).workBase = s.workBase := rfl
@[simp] theorem setNextIndex_batchA (n : Nat) : (setNextIndex n s).batchA = s.batchA := rfl
@[simp] theorem setNextIndex_batchB (n : Nat) : (setNextIndex n s).batchB = s.batchB := rfl
@[simp] theorem setNextIndex_engine (n : Nat) : (setNextIndex n s).engine = s.engine := rfl
@[simp] theorem setNextIndex_firstWaiting (n : Nat) : (setNextIndex n s).firstWaiting = s.firstWaiting := rfl
@[simp] theorem setNextIndex_nextIndex (n : Nat) : (setNextIndex n s).nextIndex = n := rfl
@[simp] theorem setNextIndex_entriesDone (n : Nat) : (setNextIndex n s).entriesDone = s.entriesDone := rfl
@[simp] theorem setNextIndex_faultStop (n : Nat) : (setNextIndex n s).faultStop = s.faultStop := rfl
@[simp] theorem setNextIndex_abandoned (n : Nat) : (setNextIndex n s).abandoned = s.abandoned := rfl
@[simp] theorem setNextIndex_branchMap (n : Nat) : (setNextIndex n s).branchMap = s.branchMap := rfl
@[simp] theorem setNextIndex_links (n : Nat) : (setNextIndex n s).links = s.links := rfl
@[simp] theorem setNextIndex_profiles (n : Nat) : (setNextIndex n s).profiles = s.profiles := rfl
@[simp] theorem setNextIndex_dueList (n : Nat) : (setNextIndex n s).dueList = s.dueList := rfl
@[simp] theorem setNextIndex_records (n : Nat) : (setNextIndex n s).records = s.records := rfl
@[simp] theorem setNextIndex_sendOrder (n : Nat) : (setNextIndex n s).sendOrder = s.sendOrder := rfl
@[simp] theorem setNextIndex_queue (n : Nat) : (setNextIndex n s).queue = s.queue := rfl
@[simp] theorem setNextIndex_device (n : Nat) : (setNextIndex n s).device = s.device := rfl
@[simp] theorem setNextIndex_boardBase (n : Nat) : (setNextIndex n s).boardBase = s.boardBase := rfl
@[simp] theorem setNextIndex_lastDraw (n : Nat) : (setNextIndex n s).lastDraw = s.lastDraw := rfl
@[simp] theorem setNextIndex_phase (n : Nat) : (setNextIndex n s).phase = s.phase := rfl
@[simp] theorem setNextIndex_walkPosition (n : Nat) : (setNextIndex n s).walkPosition = s.walkPosition := rfl
@[simp] theorem setNextIndex_hostMem (n : Nat) : (setNextIndex n s).hostMem = s.hostMem := rfl
@[simp] theorem setNextIndex_posted (n : Nat) : (setNextIndex n s).posted = s.posted := rfl
@[simp] theorem setNextIndex_bus (n : Nat) : (setNextIndex n s).bus = s.bus := rfl
@[simp] theorem setNextIndex_noise (n : Nat) : (setNextIndex n s).noise = s.noise := rfl
@[simp] theorem setNextIndex_drawCount (n : Nat) : (setNextIndex n s).drawCount = s.drawCount := rfl
@[simp] theorem setNextIndex_pending (n : Nat) : (setNextIndex n s).pending = s.pending := rfl

/-! ## countEntry -/

@[simp] theorem countEntry_resetn : (countEntry s).resetn = s.resetn := rfl
@[simp] theorem countEntry_quiescePin : (countEntry s).quiescePin = s.quiescePin := rfl
@[simp] theorem countEntry_quiesce : (countEntry s).quiesce = s.quiesce := rfl
@[simp] theorem countEntry_settings : (countEntry s).settings = s.settings := rfl
@[simp] theorem countEntry_oneTimeStore : (countEntry s).oneTimeStore = s.oneTimeStore := rfl
@[simp] theorem countEntry_masterKey : (countEntry s).masterKey = s.masterKey := rfl
@[simp] theorem countEntry_mask : (countEntry s).mask = s.mask := rfl
@[simp] theorem countEntry_causes : (countEntry s).causes = s.causes := rfl
@[simp] theorem countEntry_clamped : (countEntry s).clamped = s.clamped := rfl
@[simp] theorem countEntry_run : (countEntry s).run = s.run := rfl
@[simp] theorem countEntry_workBase : (countEntry s).workBase = s.workBase := rfl
@[simp] theorem countEntry_batchA : (countEntry s).batchA = s.batchA := rfl
@[simp] theorem countEntry_batchB : (countEntry s).batchB = s.batchB := rfl
@[simp] theorem countEntry_engine : (countEntry s).engine = s.engine := rfl
@[simp] theorem countEntry_firstWaiting : (countEntry s).firstWaiting = s.firstWaiting := rfl
@[simp] theorem countEntry_nextIndex : (countEntry s).nextIndex = s.nextIndex + 1 := rfl
@[simp] theorem countEntry_entriesDone : (countEntry s).entriesDone = s.entriesDone + 1 := rfl
@[simp] theorem countEntry_faultStop : (countEntry s).faultStop = s.faultStop := rfl
@[simp] theorem countEntry_abandoned : (countEntry s).abandoned = s.abandoned := rfl
@[simp] theorem countEntry_branchMap : (countEntry s).branchMap = s.branchMap := rfl
@[simp] theorem countEntry_links : (countEntry s).links = s.links := rfl
@[simp] theorem countEntry_profiles : (countEntry s).profiles = s.profiles := rfl
@[simp] theorem countEntry_dueList : (countEntry s).dueList = s.dueList := rfl
@[simp] theorem countEntry_records : (countEntry s).records = s.records := rfl
@[simp] theorem countEntry_sendOrder : (countEntry s).sendOrder = s.sendOrder := rfl
@[simp] theorem countEntry_queue : (countEntry s).queue = s.queue := rfl
@[simp] theorem countEntry_device : (countEntry s).device = s.device := rfl
@[simp] theorem countEntry_boardBase : (countEntry s).boardBase = s.boardBase := rfl
@[simp] theorem countEntry_lastDraw : (countEntry s).lastDraw = s.lastDraw := rfl
@[simp] theorem countEntry_phase : (countEntry s).phase = s.phase := rfl
@[simp] theorem countEntry_walkPosition : (countEntry s).walkPosition = s.walkPosition := rfl
@[simp] theorem countEntry_hostMem : (countEntry s).hostMem = s.hostMem := rfl
@[simp] theorem countEntry_posted : (countEntry s).posted = s.posted := rfl
@[simp] theorem countEntry_bus : (countEntry s).bus = s.bus := rfl
@[simp] theorem countEntry_noise : (countEntry s).noise = s.noise := rfl
@[simp] theorem countEntry_drawCount : (countEntry s).drawCount = s.drawCount := rfl
@[simp] theorem countEntry_pending : (countEntry s).pending = s.pending := rfl

/-! ## setClamped -/

@[simp] theorem setClamped_resetn : (setClamped s).resetn = s.resetn := rfl
@[simp] theorem setClamped_quiescePin : (setClamped s).quiescePin = s.quiescePin := rfl
@[simp] theorem setClamped_quiesce : (setClamped s).quiesce = s.quiesce := rfl
@[simp] theorem setClamped_settings : (setClamped s).settings = s.settings := rfl
@[simp] theorem setClamped_oneTimeStore : (setClamped s).oneTimeStore = s.oneTimeStore := rfl
@[simp] theorem setClamped_masterKey : (setClamped s).masterKey = s.masterKey := rfl
@[simp] theorem setClamped_mask : (setClamped s).mask = s.mask := rfl
@[simp] theorem setClamped_causes : (setClamped s).causes = s.causes := rfl
@[simp] theorem setClamped_clamped : (setClamped s).clamped = true := rfl
@[simp] theorem setClamped_run : (setClamped s).run = s.run := rfl
@[simp] theorem setClamped_workBase : (setClamped s).workBase = s.workBase := rfl
@[simp] theorem setClamped_batchA : (setClamped s).batchA = s.batchA := rfl
@[simp] theorem setClamped_batchB : (setClamped s).batchB = s.batchB := rfl
@[simp] theorem setClamped_engine : (setClamped s).engine = s.engine := rfl
@[simp] theorem setClamped_firstWaiting : (setClamped s).firstWaiting = s.firstWaiting := rfl
@[simp] theorem setClamped_nextIndex : (setClamped s).nextIndex = s.nextIndex := rfl
@[simp] theorem setClamped_entriesDone : (setClamped s).entriesDone = s.entriesDone := rfl
@[simp] theorem setClamped_faultStop : (setClamped s).faultStop = s.faultStop := rfl
@[simp] theorem setClamped_abandoned : (setClamped s).abandoned = s.abandoned := rfl
@[simp] theorem setClamped_branchMap : (setClamped s).branchMap = s.branchMap := rfl
@[simp] theorem setClamped_links : (setClamped s).links = s.links := rfl
@[simp] theorem setClamped_profiles : (setClamped s).profiles = s.profiles := rfl
@[simp] theorem setClamped_dueList : (setClamped s).dueList = s.dueList := rfl
@[simp] theorem setClamped_records : (setClamped s).records = s.records := rfl
@[simp] theorem setClamped_sendOrder : (setClamped s).sendOrder = s.sendOrder := rfl
@[simp] theorem setClamped_queue : (setClamped s).queue = s.queue := rfl
@[simp] theorem setClamped_device : (setClamped s).device = s.device := rfl
@[simp] theorem setClamped_boardBase : (setClamped s).boardBase = s.boardBase := rfl
@[simp] theorem setClamped_lastDraw : (setClamped s).lastDraw = s.lastDraw := rfl
@[simp] theorem setClamped_phase : (setClamped s).phase = s.phase := rfl
@[simp] theorem setClamped_walkPosition : (setClamped s).walkPosition = s.walkPosition := rfl
@[simp] theorem setClamped_hostMem : (setClamped s).hostMem = s.hostMem := rfl
@[simp] theorem setClamped_posted : (setClamped s).posted = s.posted := rfl
@[simp] theorem setClamped_bus : (setClamped s).bus = s.bus := rfl
@[simp] theorem setClamped_noise : (setClamped s).noise = s.noise := rfl
@[simp] theorem setClamped_drawCount : (setClamped s).drawCount = s.drawCount := rfl
@[simp] theorem setClamped_pending : (setClamped s).pending = s.pending := rfl

/-! ## setRunBase -/

@[simp] theorem setRunBase_resetn : (setRunBase s).resetn = s.resetn := rfl
@[simp] theorem setRunBase_quiescePin : (setRunBase s).quiescePin = s.quiescePin := rfl
@[simp] theorem setRunBase_quiesce : (setRunBase s).quiesce = s.quiesce := rfl
@[simp] theorem setRunBase_settings : (setRunBase s).settings = s.settings := rfl
@[simp] theorem setRunBase_oneTimeStore : (setRunBase s).oneTimeStore = s.oneTimeStore := rfl
@[simp] theorem setRunBase_masterKey : (setRunBase s).masterKey = s.masterKey := rfl
@[simp] theorem setRunBase_mask : (setRunBase s).mask = s.mask := rfl
@[simp] theorem setRunBase_causes : (setRunBase s).causes = s.causes := rfl
@[simp] theorem setRunBase_clamped : (setRunBase s).clamped = s.clamped := rfl
@[simp] theorem setRunBase_run : (setRunBase s).run = true := rfl
@[simp] theorem setRunBase_workBase : (setRunBase s).workBase = s.workBase := rfl
@[simp] theorem setRunBase_batchA : (setRunBase s).batchA = s.batchA := rfl
@[simp] theorem setRunBase_batchB : (setRunBase s).batchB = s.batchB := rfl
@[simp] theorem setRunBase_engine : (setRunBase s).engine = s.engine := rfl
@[simp] theorem setRunBase_firstWaiting : (setRunBase s).firstWaiting = s.firstWaiting := rfl
@[simp] theorem setRunBase_nextIndex : (setRunBase s).nextIndex = s.nextIndex := rfl
@[simp] theorem setRunBase_entriesDone : (setRunBase s).entriesDone = s.entriesDone := rfl
@[simp] theorem setRunBase_faultStop : (setRunBase s).faultStop = s.faultStop := rfl
@[simp] theorem setRunBase_abandoned : (setRunBase s).abandoned = s.abandoned := rfl
@[simp] theorem setRunBase_branchMap : (setRunBase s).branchMap = s.branchMap := rfl
@[simp] theorem setRunBase_links : (setRunBase s).links = s.links := rfl
@[simp] theorem setRunBase_profiles : (setRunBase s).profiles = s.profiles := rfl
@[simp] theorem setRunBase_dueList : (setRunBase s).dueList = s.dueList := rfl
@[simp] theorem setRunBase_records : (setRunBase s).records = s.records := rfl
@[simp] theorem setRunBase_sendOrder : (setRunBase s).sendOrder = s.sendOrder := rfl
@[simp] theorem setRunBase_queue : (setRunBase s).queue = s.queue := rfl
@[simp] theorem setRunBase_device : (setRunBase s).device = s.device := rfl
@[simp] theorem setRunBase_boardBase : (setRunBase s).boardBase = some s.workBase := rfl
@[simp] theorem setRunBase_lastDraw : (setRunBase s).lastDraw = s.lastDraw := rfl
@[simp] theorem setRunBase_phase : (setRunBase s).phase = s.phase := rfl
@[simp] theorem setRunBase_walkPosition : (setRunBase s).walkPosition = s.walkPosition := rfl
@[simp] theorem setRunBase_hostMem : (setRunBase s).hostMem = s.hostMem := rfl
@[simp] theorem setRunBase_posted : (setRunBase s).posted = s.posted := rfl
@[simp] theorem setRunBase_bus : (setRunBase s).bus = s.bus := rfl
@[simp] theorem setRunBase_noise : (setRunBase s).noise = s.noise := rfl
@[simp] theorem setRunBase_drawCount : (setRunBase s).drawCount = s.drawCount := rfl
@[simp] theorem setRunBase_pending : (setRunBase s).pending = s.pending := rfl

/-! ## clearRunBit -/

@[simp] theorem clearRunBit_resetn : (clearRunBit s).resetn = s.resetn := rfl
@[simp] theorem clearRunBit_quiescePin : (clearRunBit s).quiescePin = s.quiescePin := rfl
@[simp] theorem clearRunBit_quiesce : (clearRunBit s).quiesce = s.quiesce := rfl
@[simp] theorem clearRunBit_settings : (clearRunBit s).settings = s.settings := rfl
@[simp] theorem clearRunBit_oneTimeStore : (clearRunBit s).oneTimeStore = s.oneTimeStore := rfl
@[simp] theorem clearRunBit_masterKey : (clearRunBit s).masterKey = s.masterKey := rfl
@[simp] theorem clearRunBit_mask : (clearRunBit s).mask = s.mask := rfl
@[simp] theorem clearRunBit_causes : (clearRunBit s).causes = s.causes := rfl
@[simp] theorem clearRunBit_clamped : (clearRunBit s).clamped = s.clamped := rfl
@[simp] theorem clearRunBit_run : (clearRunBit s).run = false := rfl
@[simp] theorem clearRunBit_workBase : (clearRunBit s).workBase = s.workBase := rfl
@[simp] theorem clearRunBit_batchA : (clearRunBit s).batchA = s.batchA := rfl
@[simp] theorem clearRunBit_batchB : (clearRunBit s).batchB = s.batchB := rfl
@[simp] theorem clearRunBit_engine : (clearRunBit s).engine = if s.engine = .idle then .stopped else s.engine := rfl
@[simp] theorem clearRunBit_firstWaiting : (clearRunBit s).firstWaiting = s.firstWaiting := rfl
@[simp] theorem clearRunBit_nextIndex : (clearRunBit s).nextIndex = s.nextIndex := rfl
@[simp] theorem clearRunBit_entriesDone : (clearRunBit s).entriesDone = s.entriesDone := rfl
@[simp] theorem clearRunBit_faultStop : (clearRunBit s).faultStop = s.faultStop := rfl
@[simp] theorem clearRunBit_abandoned : (clearRunBit s).abandoned = s.abandoned := rfl
@[simp] theorem clearRunBit_branchMap : (clearRunBit s).branchMap = s.branchMap := rfl
@[simp] theorem clearRunBit_links : (clearRunBit s).links = s.links := rfl
@[simp] theorem clearRunBit_profiles : (clearRunBit s).profiles = s.profiles := rfl
@[simp] theorem clearRunBit_dueList : (clearRunBit s).dueList = s.dueList := rfl
@[simp] theorem clearRunBit_records : (clearRunBit s).records = s.records := rfl
@[simp] theorem clearRunBit_sendOrder : (clearRunBit s).sendOrder = s.sendOrder := rfl
@[simp] theorem clearRunBit_queue : (clearRunBit s).queue = s.queue := rfl
@[simp] theorem clearRunBit_device : (clearRunBit s).device = s.device := rfl
@[simp] theorem clearRunBit_boardBase : (clearRunBit s).boardBase = s.boardBase := rfl
@[simp] theorem clearRunBit_lastDraw : (clearRunBit s).lastDraw = s.lastDraw := rfl
@[simp] theorem clearRunBit_phase : (clearRunBit s).phase = s.phase := rfl
@[simp] theorem clearRunBit_walkPosition : (clearRunBit s).walkPosition = s.walkPosition := rfl
@[simp] theorem clearRunBit_hostMem : (clearRunBit s).hostMem = s.hostMem := rfl
@[simp] theorem clearRunBit_posted : (clearRunBit s).posted = s.posted := rfl
@[simp] theorem clearRunBit_bus : (clearRunBit s).bus = s.bus := rfl
@[simp] theorem clearRunBit_noise : (clearRunBit s).noise = s.noise := rfl
@[simp] theorem clearRunBit_drawCount : (clearRunBit s).drawCount = s.drawCount := rfl
@[simp] theorem clearRunBit_pending : (clearRunBit s).pending = s.pending := rfl

/-! ## stopOnFault -/

@[simp] theorem stopOnFault_resetn : (stopOnFault s).resetn = s.resetn := rfl
@[simp] theorem stopOnFault_quiescePin : (stopOnFault s).quiescePin = s.quiescePin := rfl
@[simp] theorem stopOnFault_quiesce : (stopOnFault s).quiesce = s.quiesce := rfl
@[simp] theorem stopOnFault_settings : (stopOnFault s).settings = s.settings := rfl
@[simp] theorem stopOnFault_oneTimeStore : (stopOnFault s).oneTimeStore = s.oneTimeStore := rfl
@[simp] theorem stopOnFault_masterKey : (stopOnFault s).masterKey = s.masterKey := rfl
@[simp] theorem stopOnFault_mask : (stopOnFault s).mask = s.mask := rfl
@[simp] theorem stopOnFault_causes : (stopOnFault s).causes = s.causes := rfl
@[simp] theorem stopOnFault_clamped : (stopOnFault s).clamped = s.clamped := rfl
@[simp] theorem stopOnFault_run : (stopOnFault s).run = false := rfl
@[simp] theorem stopOnFault_workBase : (stopOnFault s).workBase = s.workBase := rfl
@[simp] theorem stopOnFault_batchA : (stopOnFault s).batchA = s.batchA := rfl
@[simp] theorem stopOnFault_batchB : (stopOnFault s).batchB = s.batchB := rfl
@[simp] theorem stopOnFault_engine : (stopOnFault s).engine = .stopped := rfl
@[simp] theorem stopOnFault_firstWaiting : (stopOnFault s).firstWaiting = s.firstWaiting := rfl
@[simp] theorem stopOnFault_nextIndex : (stopOnFault s).nextIndex = s.nextIndex := rfl
@[simp] theorem stopOnFault_entriesDone : (stopOnFault s).entriesDone = s.entriesDone := rfl
@[simp] theorem stopOnFault_faultStop : (stopOnFault s).faultStop = true := rfl
@[simp] theorem stopOnFault_abandoned : (stopOnFault s).abandoned = s.abandoned := rfl
@[simp] theorem stopOnFault_branchMap : (stopOnFault s).branchMap = s.branchMap := rfl
@[simp] theorem stopOnFault_links : (stopOnFault s).links = s.links := rfl
@[simp] theorem stopOnFault_profiles : (stopOnFault s).profiles = s.profiles := rfl
@[simp] theorem stopOnFault_dueList : (stopOnFault s).dueList = s.dueList := rfl
@[simp] theorem stopOnFault_records : (stopOnFault s).records = s.records := rfl
@[simp] theorem stopOnFault_sendOrder : (stopOnFault s).sendOrder = s.sendOrder := rfl
@[simp] theorem stopOnFault_queue : (stopOnFault s).queue = s.queue := rfl
@[simp] theorem stopOnFault_device : (stopOnFault s).device = s.device := rfl
@[simp] theorem stopOnFault_boardBase : (stopOnFault s).boardBase = s.boardBase := rfl
@[simp] theorem stopOnFault_lastDraw : (stopOnFault s).lastDraw = s.lastDraw := rfl
@[simp] theorem stopOnFault_phase : (stopOnFault s).phase = s.phase := rfl
@[simp] theorem stopOnFault_walkPosition : (stopOnFault s).walkPosition = s.walkPosition := rfl
@[simp] theorem stopOnFault_hostMem : (stopOnFault s).hostMem = s.hostMem := rfl
@[simp] theorem stopOnFault_posted : (stopOnFault s).posted = s.posted := rfl
@[simp] theorem stopOnFault_bus : (stopOnFault s).bus = s.bus := rfl
@[simp] theorem stopOnFault_noise : (stopOnFault s).noise = s.noise := rfl
@[simp] theorem stopOnFault_drawCount : (stopOnFault s).drawCount = s.drawCount := rfl
@[simp] theorem stopOnFault_pending : (stopOnFault s).pending = s.pending := rfl

/-! ## landBytes -/

@[simp] theorem landBytes_resetn (a : Address) (landed : Nat) (bytes : List Byte) :
    (landBytes a landed bytes s).resetn = s.resetn := rfl
@[simp] theorem landBytes_quiescePin (a : Address) (landed : Nat) (bytes : List Byte) :
    (landBytes a landed bytes s).quiescePin = s.quiescePin := rfl
@[simp] theorem landBytes_quiesce (a : Address) (landed : Nat) (bytes : List Byte) :
    (landBytes a landed bytes s).quiesce = s.quiesce := rfl
@[simp] theorem landBytes_settings (a : Address) (landed : Nat) (bytes : List Byte) :
    (landBytes a landed bytes s).settings = s.settings := rfl
@[simp] theorem landBytes_oneTimeStore (a : Address) (landed : Nat) (bytes : List Byte) :
    (landBytes a landed bytes s).oneTimeStore = s.oneTimeStore := rfl
@[simp] theorem landBytes_masterKey (a : Address) (landed : Nat) (bytes : List Byte) :
    (landBytes a landed bytes s).masterKey = s.masterKey := rfl
@[simp] theorem landBytes_mask (a : Address) (landed : Nat) (bytes : List Byte) :
    (landBytes a landed bytes s).mask = s.mask := rfl
@[simp] theorem landBytes_causes (a : Address) (landed : Nat) (bytes : List Byte) :
    (landBytes a landed bytes s).causes = s.causes := rfl
@[simp] theorem landBytes_clamped (a : Address) (landed : Nat) (bytes : List Byte) :
    (landBytes a landed bytes s).clamped = s.clamped := rfl
@[simp] theorem landBytes_run (a : Address) (landed : Nat) (bytes : List Byte) :
    (landBytes a landed bytes s).run = s.run := rfl
@[simp] theorem landBytes_workBase (a : Address) (landed : Nat) (bytes : List Byte) :
    (landBytes a landed bytes s).workBase = s.workBase := rfl
@[simp] theorem landBytes_batchA (a : Address) (landed : Nat) (bytes : List Byte) :
    (landBytes a landed bytes s).batchA = s.batchA := rfl
@[simp] theorem landBytes_batchB (a : Address) (landed : Nat) (bytes : List Byte) :
    (landBytes a landed bytes s).batchB = s.batchB := rfl
@[simp] theorem landBytes_engine (a : Address) (landed : Nat) (bytes : List Byte) :
    (landBytes a landed bytes s).engine = s.engine := rfl
@[simp] theorem landBytes_firstWaiting (a : Address) (landed : Nat) (bytes : List Byte) :
    (landBytes a landed bytes s).firstWaiting = s.firstWaiting := rfl
@[simp] theorem landBytes_nextIndex (a : Address) (landed : Nat) (bytes : List Byte) :
    (landBytes a landed bytes s).nextIndex = s.nextIndex := rfl
@[simp] theorem landBytes_entriesDone (a : Address) (landed : Nat) (bytes : List Byte) :
    (landBytes a landed bytes s).entriesDone = s.entriesDone := rfl
@[simp] theorem landBytes_faultStop (a : Address) (landed : Nat) (bytes : List Byte) :
    (landBytes a landed bytes s).faultStop = s.faultStop := rfl
@[simp] theorem landBytes_abandoned (a : Address) (landed : Nat) (bytes : List Byte) :
    (landBytes a landed bytes s).abandoned = s.abandoned := rfl
@[simp] theorem landBytes_branchMap (a : Address) (landed : Nat) (bytes : List Byte) :
    (landBytes a landed bytes s).branchMap = s.branchMap := rfl
@[simp] theorem landBytes_links (a : Address) (landed : Nat) (bytes : List Byte) :
    (landBytes a landed bytes s).links = s.links := rfl
@[simp] theorem landBytes_profiles (a : Address) (landed : Nat) (bytes : List Byte) :
    (landBytes a landed bytes s).profiles = s.profiles := rfl
@[simp] theorem landBytes_dueList (a : Address) (landed : Nat) (bytes : List Byte) :
    (landBytes a landed bytes s).dueList = s.dueList := rfl
@[simp] theorem landBytes_records (a : Address) (landed : Nat) (bytes : List Byte) :
    (landBytes a landed bytes s).records = s.records := rfl
@[simp] theorem landBytes_sendOrder (a : Address) (landed : Nat) (bytes : List Byte) :
    (landBytes a landed bytes s).sendOrder = s.sendOrder := rfl
@[simp] theorem landBytes_queue (a : Address) (landed : Nat) (bytes : List Byte) :
    (landBytes a landed bytes s).queue = s.queue := rfl
@[simp] theorem landBytes_device (a : Address) (landed : Nat) (bytes : List Byte) :
    (landBytes a landed bytes s).device = s.device := rfl
@[simp] theorem landBytes_boardBase (a : Address) (landed : Nat) (bytes : List Byte) :
    (landBytes a landed bytes s).boardBase = s.boardBase := rfl
@[simp] theorem landBytes_lastDraw (a : Address) (landed : Nat) (bytes : List Byte) :
    (landBytes a landed bytes s).lastDraw = s.lastDraw := rfl
@[simp] theorem landBytes_phase (a : Address) (landed : Nat) (bytes : List Byte) :
    (landBytes a landed bytes s).phase = s.phase := rfl
@[simp] theorem landBytes_walkPosition (a : Address) (landed : Nat) (bytes : List Byte) :
    (landBytes a landed bytes s).walkPosition = s.walkPosition := rfl
@[simp] theorem landBytes_hostMem (a : Address) (landed : Nat) (bytes : List Byte) :
    (landBytes a landed bytes s).hostMem = s.hostMem.writeLanded a landed bytes := rfl
@[simp] theorem landBytes_posted (a : Address) (landed : Nat) (bytes : List Byte) :
    (landBytes a landed bytes s).posted = s.posted := rfl
@[simp] theorem landBytes_bus (a : Address) (landed : Nat) (bytes : List Byte) :
    (landBytes a landed bytes s).bus = s.bus := rfl
@[simp] theorem landBytes_noise (a : Address) (landed : Nat) (bytes : List Byte) :
    (landBytes a landed bytes s).noise = s.noise := rfl
@[simp] theorem landBytes_drawCount (a : Address) (landed : Nat) (bytes : List Byte) :
    (landBytes a landed bytes s).drawCount = s.drawCount := rfl
@[simp] theorem landBytes_pending (a : Address) (landed : Nat) (bytes : List Byte) :
    (landBytes a landed bytes s).pending = s.pending := rfl

/-! ## setMask -/

@[simp] theorem setMask_resetn (m : BitVec 5) : (setMask m s).resetn = s.resetn := rfl
@[simp] theorem setMask_quiescePin (m : BitVec 5) : (setMask m s).quiescePin = s.quiescePin := rfl
@[simp] theorem setMask_quiesce (m : BitVec 5) : (setMask m s).quiesce = s.quiesce := rfl
@[simp] theorem setMask_settings (m : BitVec 5) : (setMask m s).settings = s.settings := rfl
@[simp] theorem setMask_oneTimeStore (m : BitVec 5) : (setMask m s).oneTimeStore = s.oneTimeStore := rfl
@[simp] theorem setMask_masterKey (m : BitVec 5) : (setMask m s).masterKey = s.masterKey := rfl
@[simp] theorem setMask_mask (m : BitVec 5) : (setMask m s).mask = m := rfl
@[simp] theorem setMask_causes (m : BitVec 5) : (setMask m s).causes = s.causes := rfl
@[simp] theorem setMask_clamped (m : BitVec 5) : (setMask m s).clamped = s.clamped := rfl
@[simp] theorem setMask_run (m : BitVec 5) : (setMask m s).run = s.run := rfl
@[simp] theorem setMask_workBase (m : BitVec 5) : (setMask m s).workBase = s.workBase := rfl
@[simp] theorem setMask_batchA (m : BitVec 5) : (setMask m s).batchA = s.batchA := rfl
@[simp] theorem setMask_batchB (m : BitVec 5) : (setMask m s).batchB = s.batchB := rfl
@[simp] theorem setMask_engine (m : BitVec 5) : (setMask m s).engine = s.engine := rfl
@[simp] theorem setMask_firstWaiting (m : BitVec 5) : (setMask m s).firstWaiting = s.firstWaiting := rfl
@[simp] theorem setMask_nextIndex (m : BitVec 5) : (setMask m s).nextIndex = s.nextIndex := rfl
@[simp] theorem setMask_entriesDone (m : BitVec 5) : (setMask m s).entriesDone = s.entriesDone := rfl
@[simp] theorem setMask_faultStop (m : BitVec 5) : (setMask m s).faultStop = s.faultStop := rfl
@[simp] theorem setMask_abandoned (m : BitVec 5) : (setMask m s).abandoned = s.abandoned := rfl
@[simp] theorem setMask_branchMap (m : BitVec 5) : (setMask m s).branchMap = s.branchMap := rfl
@[simp] theorem setMask_links (m : BitVec 5) : (setMask m s).links = s.links := rfl
@[simp] theorem setMask_profiles (m : BitVec 5) : (setMask m s).profiles = s.profiles := rfl
@[simp] theorem setMask_dueList (m : BitVec 5) : (setMask m s).dueList = s.dueList := rfl
@[simp] theorem setMask_records (m : BitVec 5) : (setMask m s).records = s.records := rfl
@[simp] theorem setMask_sendOrder (m : BitVec 5) : (setMask m s).sendOrder = s.sendOrder := rfl
@[simp] theorem setMask_queue (m : BitVec 5) : (setMask m s).queue = s.queue := rfl
@[simp] theorem setMask_device (m : BitVec 5) : (setMask m s).device = s.device := rfl
@[simp] theorem setMask_boardBase (m : BitVec 5) : (setMask m s).boardBase = s.boardBase := rfl
@[simp] theorem setMask_lastDraw (m : BitVec 5) : (setMask m s).lastDraw = s.lastDraw := rfl
@[simp] theorem setMask_phase (m : BitVec 5) : (setMask m s).phase = s.phase := rfl
@[simp] theorem setMask_walkPosition (m : BitVec 5) : (setMask m s).walkPosition = s.walkPosition := rfl
@[simp] theorem setMask_hostMem (m : BitVec 5) : (setMask m s).hostMem = s.hostMem := rfl
@[simp] theorem setMask_posted (m : BitVec 5) : (setMask m s).posted = s.posted := rfl
@[simp] theorem setMask_bus (m : BitVec 5) : (setMask m s).bus = s.bus := rfl
@[simp] theorem setMask_noise (m : BitVec 5) : (setMask m s).noise = s.noise := rfl
@[simp] theorem setMask_drawCount (m : BitVec 5) : (setMask m s).drawCount = s.drawCount := rfl
@[simp] theorem setMask_pending (m : BitVec 5) : (setMask m s).pending = s.pending := rfl

/-! ## walkTo -/

@[simp] theorem walkTo_resetn (k : Slot) : (walkTo k s).resetn = s.resetn := rfl
@[simp] theorem walkTo_quiescePin (k : Slot) : (walkTo k s).quiescePin = s.quiescePin := rfl
@[simp] theorem walkTo_quiesce (k : Slot) : (walkTo k s).quiesce = s.quiesce := rfl
@[simp] theorem walkTo_settings (k : Slot) : (walkTo k s).settings = s.settings := rfl
@[simp] theorem walkTo_oneTimeStore (k : Slot) : (walkTo k s).oneTimeStore = s.oneTimeStore := rfl
@[simp] theorem walkTo_masterKey (k : Slot) : (walkTo k s).masterKey = s.masterKey := rfl
@[simp] theorem walkTo_mask (k : Slot) : (walkTo k s).mask = s.mask := rfl
@[simp] theorem walkTo_causes (k : Slot) : (walkTo k s).causes = s.causes := rfl
@[simp] theorem walkTo_clamped (k : Slot) : (walkTo k s).clamped = s.clamped := rfl
@[simp] theorem walkTo_run (k : Slot) : (walkTo k s).run = s.run := rfl
@[simp] theorem walkTo_workBase (k : Slot) : (walkTo k s).workBase = s.workBase := rfl
@[simp] theorem walkTo_batchA (k : Slot) : (walkTo k s).batchA = s.batchA := rfl
@[simp] theorem walkTo_batchB (k : Slot) : (walkTo k s).batchB = s.batchB := rfl
@[simp] theorem walkTo_engine (k : Slot) : (walkTo k s).engine = s.engine := rfl
@[simp] theorem walkTo_firstWaiting (k : Slot) : (walkTo k s).firstWaiting = s.firstWaiting := rfl
@[simp] theorem walkTo_nextIndex (k : Slot) : (walkTo k s).nextIndex = s.nextIndex := rfl
@[simp] theorem walkTo_entriesDone (k : Slot) : (walkTo k s).entriesDone = s.entriesDone := rfl
@[simp] theorem walkTo_faultStop (k : Slot) : (walkTo k s).faultStop = s.faultStop := rfl
@[simp] theorem walkTo_abandoned (k : Slot) : (walkTo k s).abandoned = s.abandoned := rfl
@[simp] theorem walkTo_branchMap (k : Slot) : (walkTo k s).branchMap = s.branchMap := rfl
@[simp] theorem walkTo_links (k : Slot) : (walkTo k s).links = s.links := rfl
@[simp] theorem walkTo_profiles (k : Slot) : (walkTo k s).profiles = s.profiles := rfl
@[simp] theorem walkTo_dueList (k : Slot) : (walkTo k s).dueList = s.dueList := rfl
@[simp] theorem walkTo_records (k : Slot) : (walkTo k s).records = s.records := rfl
@[simp] theorem walkTo_sendOrder (k : Slot) : (walkTo k s).sendOrder = s.sendOrder := rfl
@[simp] theorem walkTo_queue (k : Slot) : (walkTo k s).queue = s.queue := rfl
@[simp] theorem walkTo_device (k : Slot) : (walkTo k s).device = s.device := rfl
@[simp] theorem walkTo_boardBase (k : Slot) : (walkTo k s).boardBase = s.boardBase := rfl
@[simp] theorem walkTo_lastDraw (k : Slot) : (walkTo k s).lastDraw = s.lastDraw := rfl
@[simp] theorem walkTo_phase (k : Slot) : (walkTo k s).phase = s.phase := rfl
@[simp] theorem walkTo_walkPosition (k : Slot) : (walkTo k s).walkPosition = k := rfl
@[simp] theorem walkTo_hostMem (k : Slot) : (walkTo k s).hostMem = s.hostMem := rfl
@[simp] theorem walkTo_posted (k : Slot) : (walkTo k s).posted = s.posted := rfl
@[simp] theorem walkTo_bus (k : Slot) : (walkTo k s).bus = s.bus := rfl
@[simp] theorem walkTo_noise (k : Slot) : (walkTo k s).noise = s.noise := rfl
@[simp] theorem walkTo_drawCount (k : Slot) : (walkTo k s).drawCount = s.drawCount := rfl
@[simp] theorem walkTo_pending (k : Slot) : (walkTo k s).pending = s.pending := rfl

/-! ## setPhase -/

@[simp] theorem setPhase_resetn (n : Nat) : (setPhase n s).resetn = s.resetn := rfl
@[simp] theorem setPhase_quiescePin (n : Nat) : (setPhase n s).quiescePin = s.quiescePin := rfl
@[simp] theorem setPhase_quiesce (n : Nat) : (setPhase n s).quiesce = s.quiesce := rfl
@[simp] theorem setPhase_settings (n : Nat) : (setPhase n s).settings = s.settings := rfl
@[simp] theorem setPhase_oneTimeStore (n : Nat) : (setPhase n s).oneTimeStore = s.oneTimeStore := rfl
@[simp] theorem setPhase_masterKey (n : Nat) : (setPhase n s).masterKey = s.masterKey := rfl
@[simp] theorem setPhase_mask (n : Nat) : (setPhase n s).mask = s.mask := rfl
@[simp] theorem setPhase_causes (n : Nat) : (setPhase n s).causes = s.causes := rfl
@[simp] theorem setPhase_clamped (n : Nat) : (setPhase n s).clamped = s.clamped := rfl
@[simp] theorem setPhase_run (n : Nat) : (setPhase n s).run = s.run := rfl
@[simp] theorem setPhase_workBase (n : Nat) : (setPhase n s).workBase = s.workBase := rfl
@[simp] theorem setPhase_batchA (n : Nat) : (setPhase n s).batchA = s.batchA := rfl
@[simp] theorem setPhase_batchB (n : Nat) : (setPhase n s).batchB = s.batchB := rfl
@[simp] theorem setPhase_engine (n : Nat) : (setPhase n s).engine = s.engine := rfl
@[simp] theorem setPhase_firstWaiting (n : Nat) : (setPhase n s).firstWaiting = s.firstWaiting := rfl
@[simp] theorem setPhase_nextIndex (n : Nat) : (setPhase n s).nextIndex = s.nextIndex := rfl
@[simp] theorem setPhase_entriesDone (n : Nat) : (setPhase n s).entriesDone = s.entriesDone := rfl
@[simp] theorem setPhase_faultStop (n : Nat) : (setPhase n s).faultStop = s.faultStop := rfl
@[simp] theorem setPhase_abandoned (n : Nat) : (setPhase n s).abandoned = s.abandoned := rfl
@[simp] theorem setPhase_branchMap (n : Nat) : (setPhase n s).branchMap = s.branchMap := rfl
@[simp] theorem setPhase_links (n : Nat) : (setPhase n s).links = s.links := rfl
@[simp] theorem setPhase_profiles (n : Nat) : (setPhase n s).profiles = s.profiles := rfl
@[simp] theorem setPhase_dueList (n : Nat) : (setPhase n s).dueList = s.dueList := rfl
@[simp] theorem setPhase_records (n : Nat) : (setPhase n s).records = s.records := rfl
@[simp] theorem setPhase_sendOrder (n : Nat) : (setPhase n s).sendOrder = s.sendOrder := rfl
@[simp] theorem setPhase_queue (n : Nat) : (setPhase n s).queue = s.queue := rfl
@[simp] theorem setPhase_device (n : Nat) : (setPhase n s).device = s.device := rfl
@[simp] theorem setPhase_boardBase (n : Nat) : (setPhase n s).boardBase = s.boardBase := rfl
@[simp] theorem setPhase_lastDraw (n : Nat) : (setPhase n s).lastDraw = s.lastDraw := rfl
@[simp] theorem setPhase_phase (n : Nat) : (setPhase n s).phase = n := rfl
@[simp] theorem setPhase_walkPosition (n : Nat) : (setPhase n s).walkPosition = s.walkPosition := rfl
@[simp] theorem setPhase_hostMem (n : Nat) : (setPhase n s).hostMem = s.hostMem := rfl
@[simp] theorem setPhase_posted (n : Nat) : (setPhase n s).posted = s.posted := rfl
@[simp] theorem setPhase_bus (n : Nat) : (setPhase n s).bus = s.bus := rfl
@[simp] theorem setPhase_noise (n : Nat) : (setPhase n s).noise = s.noise := rfl
@[simp] theorem setPhase_drawCount (n : Nat) : (setPhase n s).drawCount = s.drawCount := rfl
@[simp] theorem setPhase_pending (n : Nat) : (setPhase n s).pending = s.pending := rfl

/-! ## Accessors after updates -/

@[simp] theorem State.setBatch_batch (id : BatchId) (v : Batch) : (s.setBatch id v).batch id = v := by cases id <;> rfl
@[simp] theorem State.setBatch_batch_other (id : BatchId) (v : Batch) :
    (s.setBatch id v).batch (otherBatch id) = s.batch (otherBatch id) := by cases id <;> rfl
@[simp] theorem otherBatch_other (id : BatchId) : otherBatch (otherBatch id) = id := by cases id <;> rfl
@[simp] theorem otherBatch_ne (id : BatchId) : otherBatch id ≠ id := by cases id <;> decide

end Sys2Proof.Machine
end

