-- ==== Sys2Proof/Laws/Tables.lean ====
section
/-! SUPPORT. The laws of the sparse tables: reads after writes, and the canonical forms that every write keeps, for host memory and for the link records. -/

namespace Sys2Proof.Machine

variable {α : Type}

/-! ## Tables -/

@[simp] theorem tableGet_nil (k : Nat) : tableGet ([] : List (Nat × α)) k = none := rfl

theorem tableGet_cons (j k : Nat) (w : α) (t : List (Nat × α)) :
    tableGet ((j, w) :: t) k = if j = k then some w else tableGet t k := rfl

/-- Every number of the table is above `j`. -/
def tableAbove (j : Nat) (t : List (Nat × α)) : Prop := ∀ e ∈ t, j < e.1

theorem tableSorted_cons (j : Nat) (w : α) (t : List (Nat × α)) :
    tableSorted ((j, w) :: t) = true ↔ tableAbove j t ∧ tableSorted t = true := by
  induction t generalizing j w with
  | nil => simp [tableSorted, tableAbove]
  | cons e t ih =>
    obtain ⟨k, v⟩ := e
    simp only [tableSorted, Bool.and_eq_true, decide_eq_true_eq, ih k v, tableAbove, List.mem_cons, forall_eq_or_imp]
    constructor
    · rintro ⟨h, h1, h2⟩
      exact ⟨⟨h, fun e he => lt_trans h (h1 e he)⟩, h1, h2⟩
    · rintro ⟨⟨h, -⟩, h1, h2⟩
      exact ⟨h, h1, h2⟩

theorem tableGet_above {j : Nat} {t : List (Nat × α)} (h : tableAbove j t) : tableGet t j = none := by
  induction t with
  | nil => rfl
  | cons e t ih =>
    obtain ⟨k, v⟩ := e
    have hk : j < k := h (k, v) (by simp)
    rw [tableGet_cons, if_neg (by omega)]
    exact ih fun e he => h e (by simp [he])

/-- A read after a write of the same number. -/
theorem tableGet_put_same (t : List (Nat × α)) (k : Nat) (v : α) : tableGet (tablePut t k v) k = some v := by
  induction t with
  | nil => simp [tablePut, tableGet_cons]
  | cons e t ih =>
    obtain ⟨j, w⟩ := e
    simp only [tablePut]
    split
    · simp [tableGet_cons]
    · split
      · simp [tableGet_cons]
      · rw [tableGet_cons, if_neg (by omega), ih]

/-- A read after a write of another number. -/
theorem tableGet_put_ne (t : List (Nat × α)) {k i : Nat} (v : α) (h : i ≠ k) :
    tableGet (tablePut t k v) i = tableGet t i := by
  induction t with
  | nil => simp [tablePut, tableGet_cons, Ne.symm h]
  | cons e t ih =>
    obtain ⟨j, w⟩ := e
    simp only [tablePut]
    split
    · simp [tableGet_cons, Ne.symm h]
    · split
      · rename_i hj
        simp [tableGet_cons, hj.symm, Ne.symm h]
      · simp only [tableGet_cons, ih]

theorem tableErase_cons (j : Nat) (w : α) (t : List (Nat × α)) (k : Nat) :
    tableErase ((j, w) :: t) k = if j = k then tableErase t k else (j, w) :: tableErase t k := by
  by_cases h : j = k <;> simp [tableErase, h]

theorem tableGet_erase_same (t : List (Nat × α)) (k : Nat) : tableGet (tableErase t k) k = none := by
  induction t with
  | nil => rfl
  | cons e t ih =>
    obtain ⟨j, w⟩ := e
    rw [tableErase_cons]
    split
    · exact ih
    · rename_i hj
      rw [tableGet_cons, if_neg hj, ih]

theorem tableGet_erase_ne (t : List (Nat × α)) {k i : Nat} (h : i ≠ k) :
    tableGet (tableErase t k) i = tableGet t i := by
  induction t with
  | nil => rfl
  | cons e t ih =>
    obtain ⟨j, w⟩ := e
    rw [tableErase_cons]
    split
    · rename_i hj
      rw [tableGet_cons, if_neg (fun e => h (e.symm.trans hj)), ih]
    · simp only [tableGet_cons, ih]

theorem mem_tablePut {t : List (Nat × α)} {k : Nat} {v : α} {e : Nat × α} (h : e ∈ tablePut t k v) :
    e = (k, v) ∨ e ∈ t := by
  induction t with
  | nil => simpa [tablePut] using h
  | cons f t ih =>
    obtain ⟨j, w⟩ := f
    simp only [tablePut] at h
    split at h
    · simpa using h
    · split at h
      · simp only [List.mem_cons] at h ⊢
        tauto
      · simp only [List.mem_cons] at h ⊢
        rcases h with h | h
        · tauto
        · rcases ih h with h | h <;> tauto

/-- A write keeps a table's numbers rising. -/
theorem tableSorted_put {t : List (Nat × α)} (h : tableSorted t = true) (k : Nat) (v : α) :
    tableSorted (tablePut t k v) = true := by
  induction t with
  | nil => rfl
  | cons e t ih =>
    obtain ⟨j, w⟩ := e
    have hs := (tableSorted_cons j w t).1 h
    simp only [tablePut]
    split
    · rename_i hk
      rw [tableSorted_cons]
      refine ⟨fun e he => ?_, h⟩
      rcases List.mem_cons.1 he with rfl | he
      · exact hk
      · exact lt_trans hk (hs.1 e he)
    · split
      · rename_i hk
        subst hk
        rw [tableSorted_cons]
        exact hs
      · rw [tableSorted_cons]
        refine ⟨fun e he => ?_, ih hs.2⟩
        rcases mem_tablePut he with rfl | he
        · show j < k
          omega
        · exact hs.1 e he

/-- An erasure keeps a table's numbers rising. -/
theorem tableSorted_erase {t : List (Nat × α)} (h : tableSorted t = true) (k : Nat) :
    tableSorted (tableErase t k) = true := by
  induction t with
  | nil => rfl
  | cons e t ih =>
    obtain ⟨j, w⟩ := e
    have hs := (tableSorted_cons j w t).1 h
    rw [tableErase_cons]
    split
    · exact ih hs.2
    · rw [tableSorted_cons]
      exact ⟨fun e he => hs.1 e (List.mem_of_mem_filter he), ih hs.2⟩

/-- Two tables in canonical form that read alike are equal. -/
theorem table_ext {t u : List (Nat × α)} (ht : tableSorted t = true) (hu : tableSorted u = true)
    (h : ∀ k, tableGet t k = tableGet u k) : t = u := by
  induction t generalizing u with
  | nil =>
    cases u with
    | nil => rfl
    | cons e u =>
      obtain ⟨j, w⟩ := e
      have := h j
      simp [tableGet_cons] at this
  | cons e t ih =>
    obtain ⟨j, w⟩ := e
    cases u with
    | nil =>
      have := h j
      simp [tableGet_cons] at this
    | cons f u =>
      obtain ⟨i, v⟩ := f
      have ht' := (tableSorted_cons j w t).1 ht
      have hu' := (tableSorted_cons i v u).1 hu
      have hji : j = i := by
        rcases lt_trichotomy j i with hl | hl | hl
        · have h1 := h j
          rw [tableGet_cons, if_pos rfl, tableGet_cons, if_neg (by omega)] at h1
          have h2 : tableAbove j u := fun e he => lt_trans hl (hu'.1 e he)
          rw [tableGet_above h2] at h1
          simp at h1
        · exact hl
        · have h1 := h i
          rw [tableGet_cons, if_neg (by omega), tableGet_cons, if_pos rfl] at h1
          have h2 : tableAbove i t := fun e he => lt_trans hl (ht'.1 e he)
          rw [tableGet_above h2] at h1
          simp at h1
      subst hji
      have hv : w = v := by
        have := h j
        simpa [tableGet_cons] using this
      subst hv
      congr 1
      apply ih ht'.2 hu'.2
      intro k
      have := h k
      by_cases hk : j = k
      · subst hk
        rw [tableGet_above ht'.1, tableGet_above hu'.1]
      · simpa [tableGet_cons, hk] using this

/-! ## Host memory -/

/-- One byte read after it is written. -/
@[simp] theorem Memory.readByte_writeByte_same (m : Memory) (a : Nat) (v : Byte) :
    (m.writeByte a v).readByte a = some v := tableGet_put_same m a v

/-- One byte read after another is written. -/
theorem Memory.readByte_writeByte_ne (m : Memory) {a x : Nat} (v : Byte) (h : x ≠ a) :
    (m.writeByte a v).readByte x = m.readByte x := tableGet_put_ne m v h

theorem Memory.wf_writeByte {m : Memory} (h : m.wf = true) (a : Nat) (v : Byte) : (m.writeByte a v).wf = true :=
  tableSorted_put h a v

/-- Writing bytes keeps the canonical form. -/
theorem Memory.wf_writeBytes {m : Memory} (h : m.wf = true) (a : Address) (bs : List Byte) :
    (m.writeBytes a bs).wf = true := by
  induction bs generalizing m a with
  | nil => exact h
  | cons v bs ih => exact ih (Memory.wf_writeByte h _ v) _

/-- A failed write keeps the canonical form, whatever bytes of it have landed. -/
theorem Memory.wf_writeLanded {m : Memory} (h : m.wf = true) (a : Address) (landed : Nat) (bs : List Byte) :
    (m.writeLanded a landed bs).wf = true := by
  induction bs generalizing m a landed with
  | nil => exact h
  | cons v bs ih =>
    simp only [Memory.writeLanded]
    split
    · exact ih (Memory.wf_writeByte h _ v) _ _
    · exact ih h _ _

theorem address_succ (a : Address) (i : Nat) : a + BitVec.ofNat 64 (i + 1) = a + 1 + BitVec.ofNat 64 i := by
  apply BitVec.eq_of_toNat_eq
  have h1 : BitVec.toNat (1 : Address) = 1 := rfl
  simp only [BitVec.toNat_add, BitVec.toNat_ofNat, h1]
  omega

theorem inRange_succ {a : Address} {n x : Nat} : inRange a (n + 1) x ↔ x = a.toNat ∨ inRange (a + 1) n x := by
  constructor
  · rintro ⟨i, hi, rfl⟩
    cases i with
    | zero => left; simp
    | succ i =>
      right
      exact ⟨i, by omega, by rw [address_succ]⟩
  · rintro (rfl | ⟨i, hi, rfl⟩)
    · exact ⟨0, by omega, by simp⟩
    · exact ⟨i + 1, by omega, by rw [address_succ]⟩

/-- A write changes no byte outside it. -/
theorem Memory.readByte_writeBytes_outside (m : Memory) (a : Address) (bs : List Byte) {x : Nat}
    (h : ¬ inRange a bs.length x) : (m.writeBytes a bs).readByte x = m.readByte x := by
  induction bs generalizing m a with
  | nil => rfl
  | cons v bs ih =>
    rw [List.length_cons, inRange_succ] at h
    push Not at h
    simp only [Memory.writeBytes]
    rw [ih _ _ h.2, Memory.readByte_writeByte_ne _ _ h.1]

/-- A failed write changes no byte outside it. -/
theorem Memory.readByte_writeLanded_outside (m : Memory) (a : Address) (landed : Nat) (bs : List Byte) {x : Nat}
    (h : ¬ inRange a bs.length x) : (m.writeLanded a landed bs).readByte x = m.readByte x := by
  induction bs generalizing m a landed with
  | nil => rfl
  | cons v bs ih =>
    rw [List.length_cons, inRange_succ] at h
    push Not at h
    simp only [Memory.writeLanded]
    rw [ih _ _ _ h.2]
    split
    · exact Memory.readByte_writeByte_ne _ _ h.1
    · rfl

/-- The bytes of a write read back, for a write of at most 2^64 bytes. -/
theorem Memory.readByte_writeBytes_inside (m : Memory) (a : Address) (bs : List Byte) (hl : bs.length ≤ 2 ^ 64)
    {i : Nat} (hi : i < bs.length) :
    (m.writeBytes a bs).readByte (a + BitVec.ofNat 64 i).toNat = bs[i]? := by
  induction bs generalizing m a i with
  | nil => simp at hi
  | cons v bs ih =>
    simp only [Memory.writeBytes]
    rw [List.length_cons] at hl hi
    cases i with
    | zero =>
      rw [Memory.readByte_writeBytes_outside]
      · simp
      · rintro ⟨j, hj, e⟩
        have : (a + 1 + BitVec.ofNat 64 j) = a + BitVec.ofNat 64 0 := (BitVec.eq_of_toNat_eq e).symm
        have h2 : (1 + BitVec.ofNat 64 j : BitVec 64) = 0 := by
          rw [BitVec.add_assoc] at this
          simpa using this
        have h3 := congrArg BitVec.toNat h2
        simp at h3
        omega
    | succ i =>
      rw [address_succ, ih _ _ (by omega) (by omega)]
      rfl

/-! ## The link records -/

/-- The record of a slot that has been replaced. -/
@[simp] theorem State.link_setLink_same (s : State) (k : Slot) (l : Link) : (s.setLink k l).link k = l := by
  simp only [State.link, State.setLink_links]
  split
  · rename_i h
    rw [tableGet_erase_same, h]
    rfl
  · rw [tableGet_put_same]
    rfl

/-- The record of a slot after another has been replaced. -/
theorem State.link_setLink_ne (s : State) {k j : Slot} (l : Link) (h : j ≠ k) : (s.setLink k l).link j = s.link j := by
  have h' : j.val ≠ k.val := fun e => h (Fin.ext e)
  simp only [State.link, State.setLink_links]
  split
  · rw [tableGet_erase_ne _ h']
  · rw [tableGet_put_ne _ _ h']

theorem State.link_setLink (s : State) (k j : Slot) (l : Link) :
    (s.setLink k l).link j = if j = k then l else s.link j := by
  split
  · rename_i h
    rw [h, State.link_setLink_same]
  · rename_i h
    exact State.link_setLink_ne s l h

@[simp] theorem State.link_modLink_same (s : State) (k : Slot) (f : Link → Link) : (s.modLink k f).link k = f (s.link k) :=
  State.link_setLink_same s k _

theorem State.link_modLink_ne (s : State) {k j : Slot} (f : Link → Link) (h : j ≠ k) : (s.modLink k f).link j = s.link j :=
  State.link_setLink_ne s _ h

theorem State.link_modLink (s : State) (k j : Slot) (f : Link → Link) :
    (s.modLink k f).link j = if j = k then f (s.link k) else s.link j :=
  State.link_setLink s k j _

/-- Replacing a record keeps the canonical form of the link records. -/
theorem linksWf_setLink {s : State} (h : linksWf s.links = true) (k : Slot) (l : Link) :
    linksWf (s.setLink k l).links = true := by
  simp only [linksWf, Bool.and_eq_true, List.all_eq_true] at h ⊢
  rw [State.setLink_links]
  split
  · exact ⟨tableSorted_erase h.1 _, fun e he => h.2 e (List.mem_of_mem_filter he)⟩
  · rename_i hl
    refine ⟨tableSorted_put h.1 _ _, fun e he => ?_⟩
    rcases mem_tablePut he with rfl | he
    · simp [hl]
    · exact h.2 e he

theorem linksWf_modLink {s : State} (h : linksWf s.links = true) (k : Slot) (f : Link → Link) :
    linksWf (s.modLink k f).links = true := linksWf_setLink h k _

end Sys2Proof.Machine
end

