-- ==== Sys2Proof/Laws/Quiet.lean ====
section
/-! SUPPORT. What the shared operations that make no access of host memory can do, said once: they change the link records, the lists and tables of the exchange, the Origination Queue, the device fault record, the notice causes and the Random Source, and keep the canonical form of the link records, the limits of the queue and the agreement of every link's keys with its state. -/

namespace Sys2Proof.Machine

/-- The part of a state that the operations of this file never change. -/
def State.quietPart (s : State) : State :=
  { s with
    links := []
    dueList := ⟨[], []⟩
    records := .replicate 16 .free
    sendOrder := []
    queue := []
    device := ⟨0, false, false, false, false, false, false⟩
    causes := 0
    lastDraw := none
    noise := []
    drawCount := 0 }

/-- What every operation of this file can do. -/
structure Quiet (s t : State) : Prop where
  part : t.quietPart = s.quietPart
  links : linksWf s.links = true → linksWf t.links = true
  queue : queueOk s.queue → queueOk t.queue
  keys : s.keysAgree → t.keysAgree

namespace Quiet

theorem refl (s : State) : Quiet s s := ⟨rfl, id, id, id⟩

theorem trans {s t u : State} (h : Quiet s t) (g : Quiet t u) : Quiet s u :=
  ⟨g.part.trans h.part, g.links ∘ h.links, g.queue ∘ h.queue, g.keys ∘ h.keys⟩

theorem ite {s t u : State} {c : Prop} [Decidable c] (h : Quiet s t) (g : Quiet s u) : Quiet s (if c then t else u) := by
  split <;> assumption

/-- A fold of quiet steps is quiet. -/
theorem foldl {β : Type} {f : State → β → State} (h : ∀ s b, Quiet s (f s b)) (l : List β) (s : State) :
    Quiet s (l.foldl f s) := by
  induction l generalizing s with
  | nil => exact refl s
  | cons b l ih => exact (h s b).trans (ih _)

/-- A change outside the link records and the queue. -/
theorem of_same {s t : State} (part : t.quietPart = s.quietPart) (links : t.links = s.links) (queue : t.queue = s.queue) :
    Quiet s t := by
  refine ⟨part, fun h => links ▸ h, fun h => queue ▸ h, fun h k => ?_⟩
  have : t.link k = s.link k := by simp only [State.link, links]
  rw [this]
  exact h k

/-- A change of the queue alone. -/
theorem of_queue {s : State} {q : List Item} (h : queueOk s.queue → queueOk q) : Quiet s { s with queue := q } :=
  ⟨rfl, id, h, id⟩

/-! ## The parts that stay -/

variable {s t : State}

theorem resetn (h : Quiet s t) : t.resetn = s.resetn := by have e := congrArg State.resetn h.part; exact e
theorem quiescePin (h : Quiet s t) : t.quiescePin = s.quiescePin := by have e := congrArg State.quiescePin h.part; exact e
theorem quiesce (h : Quiet s t) : t.quiesce = s.quiesce := by have e := congrArg State.quiesce h.part; exact e
theorem settings (h : Quiet s t) : t.settings = s.settings := by have e := congrArg State.settings h.part; exact e
theorem oneTimeStore (h : Quiet s t) : t.oneTimeStore = s.oneTimeStore := by have e := congrArg State.oneTimeStore h.part; exact e
theorem masterKey (h : Quiet s t) : t.masterKey = s.masterKey := by have e := congrArg State.masterKey h.part; exact e
theorem mask (h : Quiet s t) : t.mask = s.mask := by have e := congrArg State.mask h.part; exact e
theorem clamped (h : Quiet s t) : t.clamped = s.clamped := by have e := congrArg State.clamped h.part; exact e
theorem run (h : Quiet s t) : t.run = s.run := by have e := congrArg State.run h.part; exact e
theorem workBase (h : Quiet s t) : t.workBase = s.workBase := by have e := congrArg State.workBase h.part; exact e
theorem batchA (h : Quiet s t) : t.batchA = s.batchA := by have e := congrArg State.batchA h.part; exact e
theorem batchB (h : Quiet s t) : t.batchB = s.batchB := by have e := congrArg State.batchB h.part; exact e
theorem engine (h : Quiet s t) : t.engine = s.engine := by have e := congrArg State.engine h.part; exact e
theorem firstWaiting (h : Quiet s t) : t.firstWaiting = s.firstWaiting := by have e := congrArg State.firstWaiting h.part; exact e
theorem nextIndex (h : Quiet s t) : t.nextIndex = s.nextIndex := by have e := congrArg State.nextIndex h.part; exact e
theorem entriesDone (h : Quiet s t) : t.entriesDone = s.entriesDone := by have e := congrArg State.entriesDone h.part; exact e
theorem faultStop (h : Quiet s t) : t.faultStop = s.faultStop := by have e := congrArg State.faultStop h.part; exact e
theorem abandoned (h : Quiet s t) : t.abandoned = s.abandoned := by have e := congrArg State.abandoned h.part; exact e
theorem branchMap (h : Quiet s t) : t.branchMap = s.branchMap := by have e := congrArg State.branchMap h.part; exact e
theorem profiles (h : Quiet s t) : t.profiles = s.profiles := by have e := congrArg State.profiles h.part; exact e
theorem boardBase (h : Quiet s t) : t.boardBase = s.boardBase := by have e := congrArg State.boardBase h.part; exact e
theorem phase (h : Quiet s t) : t.phase = s.phase := by have e := congrArg State.phase h.part; exact e
theorem walkPosition (h : Quiet s t) : t.walkPosition = s.walkPosition := by have e := congrArg State.walkPosition h.part; exact e
theorem hostMem (h : Quiet s t) : t.hostMem = s.hostMem := by have e := congrArg State.hostMem h.part; exact e
theorem posted (h : Quiet s t) : t.posted = s.posted := by have e := congrArg State.posted h.part; exact e
theorem bus (h : Quiet s t) : t.bus = s.bus := by have e := congrArg State.bus h.part; exact e
theorem pending (h : Quiet s t) : t.pending = s.pending := by have e := congrArg State.pending h.part; exact e
theorem batch (h : Quiet s t) (id : BatchId) : t.batch id = s.batch id := by
  cases id
  · exact h.batchA
  · exact h.batchB

end Quiet

/-! ## Single updates -/

theorem quiet_setCause (s : State) (c : Cause) : Quiet s (s.setCause c) := .of_same rfl rfl rfl

theorem quiet_setRecord (s : State) (n : RecordNumber) (r : RenewalRecord) : Quiet s (s.setRecord n r) :=
  .of_same rfl rfl rfl

theorem quiet_modDevice (s : State) (f : DeviceFaults → DeviceFaults) : Quiet s (s.modDevice f) := .of_same rfl rfl rfl

theorem quiet_setLastDraw (d : Draw) (s : State) : Quiet s (setLastDraw d s) := .of_same rfl rfl rfl

theorem quiet_joinSendOrder (n : RecordNumber) (s : State) : Quiet s (joinSendOrder n s) := .of_same rfl rfl rfl

theorem quiet_leaveSendOrder (n : RecordNumber) (s : State) : Quiet s (leaveSendOrder n s) := .of_same rfl rfl rfl

theorem quiet_appendDue (k : Slot) (sec : Section) (s : State) : Quiet s (appendDue k sec s) := .of_same rfl rfl rfl

theorem quiet_removeDue (k : Slot) (s : State) : Quiet s (removeDue k s) := .of_same rfl rfl rfl

theorem quiet_promoteDue (k : Slot) (s : State) : Quiet s (promoteDue k s) := .of_same rfl rfl rfl

theorem quiet_freeRecordAt (n : RecordNumber) (s : State) : Quiet s (freeRecordAt n s) := .of_same rfl rfl rfl

theorem quiet_freeRecordOf (k : Slot) (s : State) : Quiet s (freeRecordOf k s) := by
  unfold freeRecordOf
  split
  · exact quiet_freeRecordAt _ s
  · exact .refl s

theorem quiet_setLink {s : State} {k : Slot} {l : Link} (h : (s.link k).keysAgree → l.keysAgree) :
    Quiet s (s.setLink k l) := by
  refine ⟨rfl, fun hl => linksWf_setLink hl k l, id, fun hk j => ?_⟩
  rw [State.link_setLink]
  split
  · exact h (hk k)
  · exact hk j

/-- A link change that keeps the agreement of keys and state. -/
def KeepsKeys (f : Link → Link) : Prop := ∀ l : Link, l.keysAgree → (f l).keysAgree

theorem quiet_modLink {f : Link → Link} (h : KeepsKeys f) (k : Slot) (s : State) : Quiet s (s.modLink k f) :=
  quiet_setLink (h _)

/-- A change of a link's fields outside `Link.keysAgree` keeps it. -/
theorem Link.keysAgree_of_eq {l m : Link} (h : l.keysAgree) (h1 : m.state = l.state) (h2 : m.current = l.current)
    (h3 : m.nextSequence = l.nextSequence) (h4 : m.retiring = l.retiring) (h5 : m.retireTimer = l.retireTimer)
    (h6 : m.rootKey = l.rootKey) (h7 : m.rootSequence = l.rootSequence) : m.keysAgree := by
  unfold Link.keysAgree at *
  rw [h1, h2, h3, h4, h5, h6, h7]
  exact h

theorem keeps_withRenewal (r : RenewalState) (n : Nat) : KeepsKeys (Link.withRenewal r n) :=
  fun _ h => Link.keysAgree_of_eq h rfl rfl rfl rfl rfl rfl rfl

theorem keeps_clearedRecord (kind : LinkKind) : KeepsKeys (clearedRecord kind) :=
  fun _ h => Link.keysAgree_of_eq h rfl rfl rfl rfl rfl rfl rfl

theorem keeps_raisedRecord (kind : LinkKind) : KeepsKeys (raisedRecord kind) :=
  fun _ h => Link.keysAgree_of_eq h rfl rfl rfl rfl rfl rfl rfl

theorem keeps_supervisedRecord : KeepsKeys supervisedRecord :=
  fun _ h => Link.keysAgree_of_eq h rfl rfl rfl rfl rfl rfl rfl

theorem keeps_scoredRecord (r : RateKind) (w : Nat) : KeepsKeys (scoredRecord r w) :=
  fun _ h => Link.keysAgree_of_eq h rfl rfl rfl rfl rfl rfl rfl

theorem keeps_decayedRecord (r : RateKind) (d : Nat) : KeepsKeys (decayedRecord r d) :=
  fun _ h => Link.keysAgree_of_eq h rfl rfl rfl rfl rfl rfl rfl

theorem keeps_withSilence (n : Nat) : KeepsKeys (Link.withSilence n) :=
  fun _ h => Link.keysAgree_of_eq h rfl rfl rfl rfl rfl rfl rfl

theorem keeps_reportedRecord (es : List ShopCode) : KeepsKeys (reportedRecord es) :=
  fun _ h => Link.keysAgree_of_eq h rfl rfl rfl rfl rfl rfl rfl

theorem keeps_ratedRecord : KeepsKeys ratedRecord := fun _ h => Link.keysAgree_of_eq h rfl rfl rfl rfl rfl rfl rfl

theorem keeps_heldRecord : KeepsKeys heldRecord := fun _ h => Link.keysAgree_of_eq h rfl rfl rfl rfl rfl rfl rfl

theorem keeps_releasedRecord (a b : Bool) : KeepsKeys (releasedRecord a b) :=
  fun _ h => Link.keysAgree_of_eq h rfl rfl rfl rfl rfl rfl rfl

theorem keeps_clearedCounters : KeepsKeys clearedCounters :=
  fun _ h => Link.keysAgree_of_eq h rfl rfl rfl rfl rfl rfl rfl

theorem keeps_relinkedRecord (b : LinkBlock) (same : Bool) (p : ProfileNumber) : KeepsKeys (relinkedRecord b same p) := by
  intro l h
  unfold relinkedRecord
  split
  · exact h
  · exact Link.keysAgree_of_eq h rfl rfl rfl rfl rfl rfl rfl

theorem keeps_countedRest : KeepsKeys countedRest := by
  intro l h
  unfold countedRest
  split
  · split <;> exact Link.keysAgree_of_eq h rfl rfl rfl rfl rfl rfl rfl
  · exact h

theorem keeps_quarantinedRecord (m : List Triple) (k : Slot) : KeepsKeys (quarantinedRecord m k) :=
  fun _ _ => ⟨.inr ⟨rfl, rfl⟩, rfl, rfl, rfl, rfl, rfl⟩

theorem keeps_spentRecord : KeepsKeys spentRecord := fun _ h => ⟨h.1, rfl, rfl, rfl, rfl⟩

theorem keeps_erasedRecord : KeepsKeys erasedRecord := by
  intro l h
  obtain ⟨-, h⟩ := h
  refine ⟨.inr ⟨rfl, rfl⟩, ?_⟩
  show match l.state with
    | .vacant => _
    | .standby => _
    | .live => _
    | .stalled => _
    | .quarantined => _
  revert h
  cases l.state <;> intro h
  · exact ⟨h.1, h.2.1, rfl, h.2.2.2⟩
  · exact ⟨h.1, h.2.1, rfl⟩
  · exact h
  · exact h
  · exact ⟨h.1, h.2.1, rfl, h.2.2.2⟩

theorem keeps_installedRecord (p : Profile) (r : RenewalRecord) : KeepsKeys (installedRecord p r) := by
  intro l _
  refine ⟨?_, rfl⟩
  show (retiredSlot l).state = .inUse ∨ retiredSlot l = .empty ∧ (if l.current.state = .inUse then p.retireTime else 0) = 0
  unfold retiredSlot
  by_cases h : l.current.state = .inUse
  · simp [h]
  · simp [h]

/-- A link whose CURRENT slot is IN_USE is LIVE. -/
theorem Link.keysAgree_live {l : Link} (h : l.keysAgree) (hu : l.current.state = .inUse) : l.state = .live := by
  have := h.2
  revert this
  cases l.state <;> intro h
  · rw [h.1] at hu
    cases hu
  · rw [h.1] at hu
    cases hu
  · rfl
  · rw [h.1] at hu
    cases hu
  · rw [h.1] at hu
    cases hu

/-- A link whose RETIRING slot is IN_USE is LIVE or STALLED. -/
theorem Link.keysAgree_retiring {l : Link} (h : l.keysAgree) (hu : l.retiring.state = .inUse) :
    l.state = .live ∨ l.state = .stalled := by
  have := h.2
  revert this
  cases l.state <;> intro h
  · rw [h.2.2.1] at hu
    cases hu
  · rw [h.2.2] at hu
    cases hu
  · exact .inl rfl
  · exact .inr rfl
  · rw [h.2.2.1] at hu
    cases hu

/-- A change of the CURRENT slot that leaves it IN_USE. -/
theorem Link.keysAgree_current {l : Link} (h : l.keysAgree) (hu : l.current.state = .inUse) {m : Link}
    (h1 : m.state = l.state) (h2 : m.current.state = .inUse) (h4 : m.retiring = l.retiring)
    (h5 : m.retireTimer = l.retireTimer) : m.keysAgree := by
  have hl := Link.keysAgree_live h hu
  refine ⟨by rw [h4, h5]; exact h.1, ?_⟩
  rw [h1, hl]
  exact h2

/-- A change of the RETIRING slot that leaves it IN_USE. -/
theorem Link.keysAgree_retiring' {l : Link} (h : l.keysAgree) (hu : l.retiring.state = .inUse) {m : Link}
    (h1 : m.state = l.state) (h2 : m.current = l.current) (h4 : m.retiring.state = .inUse) : m.keysAgree := by
  refine ⟨.inl h4, ?_⟩
  have := h.2
  rw [h1, h2]
  rcases Link.keysAgree_retiring h hu with hl | hl <;> rw [hl] at this ⊢ <;> exact this

/-! ## The Origination Queue -/

theorem Item.foldInto_pair? (n : Notice) (it : Item) : (foldInto n it).pair? = it.pair? := by
  cases it with
  | offer k p => rfl
  | notice m =>
    simp only [foldInto]
    split <;> rfl

theorem Item.foldInto_isNotice (n : Notice) (it : Item) : (foldInto n it).isNotice = it.isNotice := by
  cases it with
  | offer k p => rfl
  | notice m =>
    simp only [foldInto]
    split <;> rfl

theorem Item.foldInto_offer? (n : Notice) (it : Item) : (foldInto n it).offer? = it.offer? := by
  cases it with
  | offer k p => rfl
  | notice m =>
    simp only [foldInto]
    split <;> rfl

/-- Folding a notice leaves the depth, the notice count, the pairs and the offers as they are (R170). -/
theorem map_foldInto (n : Notice) (q : List Item) :
    (q.map (foldInto n)).length = q.length ∧ noticeCount (q.map (foldInto n)) = noticeCount q ∧
      (q.map (foldInto n)).filterMap Item.pair? = q.filterMap Item.pair? ∧
      (q.map (foldInto n)).filterMap Item.offer? = q.filterMap Item.offer? := by
  refine ⟨by simp, ?_, ?_, ?_⟩
  · simp [noticeCount, List.countP_map, Function.comp_def, Item.foldInto_isNotice]
  · simp [List.filterMap_map, Item.foldInto_pair?]
  · simp [List.filterMap_map, Item.foldInto_offer?]

theorem queueOk_sublist {p q : List Item} (h : p.Sublist q) (hq : queueOk q) : queueOk p :=
  ⟨le_trans h.length_le hq.1, le_trans (h.countP_le) hq.2.1, hq.2.2.sublist (h.filterMap _)⟩

theorem queueOk_offer {q : List Item} (hq : queueOk q) (h : q.length < queueCapacity) (k : Slot) (p : List Byte) :
    queueOk (q ++ [.offer k p]) := by
  refine ⟨by simp; omega, ?_, ?_⟩
  · simpa [noticeCount, Item.isNotice] using hq.2.1
  · have : ([.offer k p] : List Item).filterMap Item.pair? = [] := rfl
    rw [List.filterMap_append, this, List.append_nil]
    exact hq.2.2

theorem pair_not_mem {n : Notice} {q : List Item} (h : q.any (samePair n) = false) :
    (n.link, n.kind) ∉ q.filterMap Item.pair? := by
  intro hm
  obtain ⟨it, hit, hp⟩ := List.mem_filterMap.1 hm
  have := List.any_eq_false.1 h it hit
  cases it with
  | offer k p => simp [Item.pair?] at hp
  | notice m =>
    simp only [Item.pair?, Option.some.injEq, Prod.mk.injEq] at hp
    simp [samePair, hp] at this

theorem queueOk_notice {q : List Item} (hq : queueOk q) {n : Notice} (h : q.any (samePair n) = false)
    (hc : noticeCount q < noticeLimit) (hl : q.length < queueCapacity) : queueOk (q ++ [.notice n]) := by
  refine ⟨by simp; omega, ?_, ?_⟩
  · simp only [noticeCount, List.countP_append] at hc ⊢
    simp [Item.isNotice]
    omega
  · rw [List.filterMap_append, List.nodup_append]
    refine ⟨hq.2.2, List.nodup_singleton (n.link, n.kind), ?_⟩
    intro a ha b hb e
    have : b = (n.link, n.kind) := List.mem_singleton.1 hb
    subst e this
    exact pair_not_mem h ha

theorem quiet_joinQueue {it : Item} {s : State} (h : queueOk s.queue → queueOk (s.queue ++ [it])) :
    Quiet s (joinQueue it s) := by
  have h1 : Quiet s (pushItem it s) := .of_queue h
  exact .ite (h1.trans (quiet_setCause _ _)) h1

/-- A notice handed to the queue. -/
theorem quiet_makeNotice (n : Notice) (s : State) : Quiet s (makeNotice n s) := by
  unfold makeNotice
  split
  · refine .of_queue fun h => ?_
    obtain ⟨h1, h2, h3, -⟩ := map_foldInto n s.queue
    exact ⟨h1 ▸ h.1, h2 ▸ h.2.1, h3 ▸ h.2.2⟩
  · split
    · rename_i h1 h2
      exact quiet_joinQueue fun h => queueOk_notice h (by simpa using h1) h2.1 h2.2
    · exact quiet_modDevice s _

theorem quiet_removeOffers (k : Slot) (s : State) : Quiet s (removeOffers k s) :=
  .of_queue (queueOk_sublist List.filter_sublist)

theorem quiet_removeItems (k : Slot) (s : State) : Quiet s (removeItems k s) :=
  .of_queue (queueOk_sublist List.filter_sublist)

theorem quiet_popItem (s : State) : Quiet s (popItem s) := .of_queue (queueOk_sublist (List.tail_sublist _))

/-! ## Device conditions -/

theorem quiet_raiseDevice (item : DeviceItem) (s : State) : Quiet s (raiseDevice item s) := by
  unfold raiseDevice
  exact .ite (.refl s) ((quiet_modDevice s _).trans ((quiet_makeNotice _ _).trans (quiet_setCause _ _)))

theorem quiet_countUnknownBranch (s : State) : Quiet s (countUnknownBranch s) :=
  (quiet_modDevice s _).trans ((quiet_makeNotice _ _).trans (quiet_setCause _ _))

/-! ## The Random Source -/

theorem quiet_nextNoise (s : State) : Quiet s (nextNoise s).2 := by
  unfold nextNoise
  split <;> exact .of_same rfl rfl rfl

theorem quiet_draw (s : State) : Quiet s (draw s).2 := by
  have h := quiet_nextNoise s
  unfold draw
  rcases hn : nextNoise s with ⟨d, t⟩
  rw [hn] at h
  show Quiet s (if _ then _ else _ : Option Draw × State).2
  split
  · exact h.trans ((quiet_setLastDraw d t).trans (quiet_raiseDevice _ _))
  · exact h.trans (quiet_setLastDraw d t)

theorem quiet_drawMany (n : Nat) (s : State) : Quiet s (drawMany n s).2 := by
  induction n generalizing s with
  | zero => exact .refl s
  | succ n ih =>
    have h := quiet_draw s
    unfold drawMany
    split
    · rename_i hd
      rw [hd] at h
      exact h
    · rename_i d t hd
      rw [hd] at h
      have h2 := ih t
      split <;> rename_i hm <;> rw [hm] at h2 <;> exact h.trans h2

theorem quiet_selfTest (s : State) : Quiet s (selfTest s) := (quiet_draw s).trans (quiet_draw _)

/-! ## Origination and admission -/

theorem quiet_originateOne {n : RecordNumber} {s : State} (h : canOriginate n s = true) :
    Quiet s (originateOne n s) := by
  simp only [canOriginate, Bool.and_eq_true, decide_eq_true_eq] at h
  have h1 : Quiet s (s.setLink s.records[n].slot
      { s.link s.records[n].slot with rootSequence := nextSequence (s.link s.records[n].slot).rootSequence }) := by
    refine quiet_setLink fun hk => ⟨hk.1, ?_⟩
    have h2 := hk.2
    show match (s.link s.records[n].slot).state with
      | .vacant => _
      | .standby => _
      | .live => _
      | .stalled => _
      | .quarantined => _
    revert h2
    cases (s.link s.records[n].slot).state <;> intro h2
    · exact absurd h2.2.2.2.2 h.2
    · exact h2
    · exact h2
    · exact h2
    · exact absurd h2.2.2.2.2 h.2
  refine Quiet.trans ?_ (quiet_leaveSendOrder n _)
  refine Quiet.trans ?_ (quiet_setRecord _ n _)
  refine Quiet.trans h1 (quiet_joinQueue fun hq => queueOk_offer hq ?_ _ _)
  exact h.1.1

theorem quiet_tryOriginate (s : State) : Quiet s (tryOriginate s) := by
  unfold tryOriginate
  refine .foldl (fun s n => ?_) _ _
  split
  · exact quiet_originateOne ‹_›
  · exact .refl s

theorem quiet_admitInto (n : RecordNumber) (k : Slot) (key : Key) (salt : Salt) (nonce : AttemptNonce) (s : State) :
    Quiet s (admitInto n k key salt nonce s) := by
  refine Quiet.trans ?_ (quiet_tryOriginate _)
  refine Quiet.trans ?_ (quiet_joinSendOrder n _)
  refine Quiet.trans ?_ (quiet_modLink (keeps_withRenewal _ _) k _)
  exact (quiet_removeDue k s).trans (quiet_setRecord _ _ _)

theorem quiet_admitUpTo (i : Nat) (s : State) : Quiet s (admitUpTo i s) := by
  induction i generalizing s with
  | zero => exact .refl s
  | succ i ih =>
    unfold admitUpTo
    split
    · have h := quiet_drawMany 6 s
      split
      · rename_i hd
        rw [hd] at h
        exact h.trans ((quiet_admitInto _ _ _ _ _ _).trans (ih _))
      · rename_i hd
        rw [hd] at h
        exact h
    · exact .refl s

theorem quiet_tryAdmit (s : State) : Quiet s (tryAdmit s) := quiet_admitUpTo 16 s

theorem quiet_joinDue (k : Slot) (sec : Section) (s : State) : Quiet s (joinDue k sec s) :=
  (quiet_appendDue k sec s).trans ((quiet_modLink (keeps_withRenewal _ _) k _).trans (quiet_tryAdmit _))

theorem quiet_forcedJoin (k : Slot) (sec : Section) (s : State) : Quiet s (forcedJoin k sec s).2 := by
  unfold forcedJoin
  split
  · exact quiet_joinDue _ _ _
  · exact quiet_joinDue _ _ _
  · split
    · exact quiet_promoteDue _ _
    · exact .refl s
  · exact .refl s

theorem quiet_dueCheck (k : Slot) (site : DueSite) (s : State) : Quiet s (dueCheck k site s) := by
  unfold dueCheck
  split
  · exact .refl s
  · split
    · exact .ite (quiet_joinDue _ _ _) (.refl s)
    · exact .ite (quiet_promoteDue _ _) (.refl s)
    · exact .refl s
    · exact .refl s

/-! ## Fault supervision -/

theorem quiet_linkNotice (k : Slot) (kind : LinkKind) (edge : Edge) (s : State) : Quiet s (linkNotice k kind edge s) :=
  quiet_makeNotice _ s

theorem quiet_clearKind (k : Slot) (kind : LinkKind) (s : State) : Quiet s (clearKind k kind s) :=
  (quiet_modLink (keeps_clearedRecord kind) k s).trans (quiet_linkNotice _ _ _ _)

theorem quiet_clearIfActive (k : Slot) (kind : LinkKind) (s : State) : Quiet s (clearIfActive k kind s) :=
  .ite (quiet_clearKind _ _ _) (.refl s)

theorem quiet_quarantineLink (k : Slot) (s : State) : Quiet s (quarantineLink k s) := by
  unfold quarantineLink
  split
  · exact .refl s
  · refine Quiet.trans ?_ (quiet_tryOriginate _)
    refine Quiet.trans ?_ (quiet_tryAdmit _)
    refine Quiet.trans ?_ (quiet_removeOffers k _)
    refine Quiet.trans ?_ (quiet_removeDue k _)
    refine Quiet.trans ?_ (quiet_freeRecordOf k _)
    refine Quiet.trans ?_ (quiet_clearIfActive k _ _)
    exact quiet_modLink (keeps_quarantinedRecord _ _) k s

theorem quiet_takeAction (k : Slot) (a : Action) (s : State) : Quiet s (takeAction k a s) := by
  cases a with
  | note => exact .refl s
  | hold => exact quiet_modLink keeps_supervisedRecord k s
  | renew =>
    show Quiet s (if _ then s else _)
    exact .ite (.refl s) (quiet_forcedJoin _ _ _)
  | quarantine => exact quiet_quarantineLink k s

theorem quiet_raiseKind (k : Slot) (kind : LinkKind) (s : State) : Quiet s (raiseKind k kind s) := by
  refine Quiet.trans ?_ (quiet_takeAction k _ _)
  refine Quiet.trans ?_ (quiet_setCause _ _)
  refine Quiet.trans ?_ (quiet_linkNotice k kind _ _)
  exact quiet_modLink (keeps_raisedRecord kind) k s

theorem quiet_raiseIfInactive (k : Slot) (kind : LinkKind) (s : State) : Quiet s (raiseIfInactive k kind s) :=
  .ite (.refl s) (quiet_raiseKind _ _ _)

theorem quiet_scoreKind (k : Slot) (r : RateKind) (s : State) : Quiet s (scoreKind k r s) :=
  (quiet_modLink (keeps_scoredRecord r _) k s).trans (.ite (quiet_raiseKind _ _ _) (.refl _))

theorem quiet_decayKind (k : Slot) (s : State) (r : RateKind) : Quiet s (decayKind k s r) :=
  (quiet_modLink (keeps_decayedRecord r _) k s).trans (.ite (quiet_clearKind _ _ _) (.refl _))

theorem quiet_decayKinds (k : Slot) (s : State) : Quiet s (decayKinds k s) := .foldl (quiet_decayKind k) _ s

theorem quiet_reexamineKind (k : Slot) (s : State) (r : RateKind) : Quiet s (reexamineKind k s r) := by
  unfold reexamineKind
  exact .ite (quiet_raiseKind _ _ _) (.ite (quiet_clearKind _ _ _) (.refl s))

theorem quiet_reexamine (k : Slot) (s : State) : Quiet s (reexamine k s) := .foldl (quiet_reexamineKind k) _ s

theorem quiet_countSilence (k : Slot) (s : State) : Quiet s (countSilence k s) := by
  unfold countSilence
  split
  · exact .refl s
  · exact .refl s
  · exact (quiet_modLink (keeps_withSilence _) k s).trans (.ite (quiet_raiseIfInactive _ _ _) (.refl _))

theorem quiet_endSilence (k : Slot) (s : State) : Quiet s (endSilence k s) :=
  (quiet_modLink (keeps_withSilence 0) k s).trans (quiet_clearIfActive _ _ _)

theorem quiet_spendCurrent (k : Slot) (s : State) : Quiet s (spendCurrent k s) :=
  (quiet_modLink keeps_spentRecord k s).trans (quiet_raiseIfInactive _ _ _)

theorem quiet_eraseRetiring (k : Slot) (s : State) : Quiet s (eraseRetiring k s) :=
  .ite (quiet_modLink keeps_erasedRecord k s) (.refl s)

theorem quiet_checkCurrent (k : Slot) (s : State) : Quiet s (checkCurrent k s) := by
  unfold checkCurrent
  exact .ite (quiet_spendCurrent _ _) (.refl s)

theorem quiet_checkRetiring (k : Slot) (s : State) : Quiet s (checkRetiring k s) := by
  unfold checkRetiring
  exact .ite (quiet_eraseRetiring _ _) (.refl s)

theorem quiet_takeReport (k : Slot) (entries : List ShopCode) (s : State) : Quiet s (takeReport k entries s) :=
  (quiet_modLink (keeps_reportedRecord entries) k s).trans
    (.ite (quiet_raiseIfInactive _ _ _) (quiet_clearIfActive _ _ _))

/-! ## The exchange -/

theorem quiet_install (n : RecordNumber) (s : State) : Quiet s (install n s) := by
  refine Quiet.trans ?_ (quiet_tryAdmit _)
  refine Quiet.trans ?_ (quiet_dueCheck _ _ _)
  refine Quiet.trans ?_ (quiet_clearIfActive _ _ _)
  refine Quiet.trans ?_ (quiet_clearIfActive _ _ _)
  refine Quiet.trans ?_ (quiet_freeRecordAt n _)
  exact quiet_modLink (keeps_installedRecord _ _) _ s

theorem quiet_failRenewal (n : RecordNumber) (s : State) : Quiet s (failRenewal n s) := by
  refine Quiet.trans ?_ (quiet_tryAdmit _)
  refine Quiet.trans ?_ (quiet_raiseIfInactive _ _ _)
  exact (quiet_freeRecordAt n s).trans (quiet_modLink (keeps_withRenewal _ _) _ _)

theorem quiet_retry (n : RecordNumber) (s : State) : Quiet s (retry n s) := by
  have h := quiet_draw s
  unfold retry
  split
  · rename_i hd
    rw [hd] at h
    exact h.trans (quiet_failRenewal _ _)
  · rename_i hd
    rw [hd] at h
    exact h.trans ((quiet_setRecord _ n _).trans ((quiet_joinSendOrder n _).trans (quiet_tryOriginate _)))

theorem quiet_endAttempt (n : RecordNumber) (s : State) : Quiet s (endAttempt n s) := by
  unfold endAttempt
  exact .ite (quiet_retry _ _) (quiet_failRenewal _ _)

theorem quiet_expireReply (n : RecordNumber) (s : State) : Quiet s (expireReply n s) :=
  (quiet_setRecord s n _).trans (quiet_endAttempt n _)

theorem quiet_markRecord (n : RecordNumber) (s : State) : Quiet s (markRecord n s) := by
  unfold markRecord
  exact .ite (.ite (quiet_expireReply _ _) (quiet_setRecord _ _ _)) (.refl s)

theorem quiet_takeAccept (k : Slot) (g : Nat) (nonce : AttemptNonce) (p : Proof) (s : State) :
    Quiet s (takeAccept k g nonce p s).2 := by
  unfold takeAccept
  split
  · exact .refl s
  · rename_i n _
    have h := quiet_install n s
    generalize install n s = s' at h ⊢
    dsimp only
    split
    · exact h
    · exact .refl s

theorem quiet_takeRefuse (k : Slot) (g : Nat) (nonce : AttemptNonce) (r : Refuse) (s : State) :
    Quiet s (takeRefuse k g nonce r s).2 := by
  unfold takeRefuse
  split
  · exact .refl s
  · rename_i n _
    have h : Quiet s (endAttempt n (s.setRecord n { s.records[n] with lastRefusal := r })) :=
      (quiet_setRecord _ n _).trans (quiet_endAttempt _ _)
    dsimp only
    split
    · exact h
    · exact .refl s

theorem quiet_deliverItem (it : Item) (s : State) : Quiet s (deliverItem it s) := by
  unfold deliverItem
  split
  · exact .refl s
  · split
    · exact .refl s
    · exact quiet_setRecord _ _ _

/-! ## After a charge -/

theorem quiet_afterCharge (k : Slot) (choice : KeyChoice) (s : State) : Quiet s (afterCharge k choice s) := by
  cases choice with
  | root => exact .refl s
  | current => exact (quiet_checkCurrent _ _).trans (quiet_dueCheck _ _ _)
  | retiring => exact quiet_checkRetiring _ _

/-! ## Marks, holds and timers -/

theorem quiet_onEnrolled {f : Link → Link} (h : KeepsKeys f) (s : State) : Quiet s (onEnrolled f s) :=
  .foldl (fun s k => quiet_modLink h k s) _ _

theorem quiet_renewOneOfAll (c : Nat × State) (k : Slot) : Quiet c.2 (renewOneOfAll c k).2 := by
  unfold renewOneOfAll
  split
  · exact .refl _
  · have h := quiet_forcedJoin k .ordinary c.2
    split <;> rename_i hf <;> rw [hf] at h <;> exact h

theorem quiet_renewAll (s : State) : Quiet s (renewAll s).2 := by
  suffices ∀ (l : List Slot) (c : Nat × State), Quiet c.2 (l.foldl renewOneOfAll c).2 from this _ (0, s)
  intro l
  induction l with
  | nil => exact fun c => .refl _
  | cons k l ih => exact fun c => (quiet_renewOneOfAll c k).trans (ih _)

theorem quiet_ageCurrent (k : Slot) (s : State) : Quiet s (ageCurrent k s) := by
  unfold ageCurrent
  split
  · rename_i hu
    exact (quiet_setLink (s := s) (k := k) (l := agedCurrent (s.link k)) fun h => Link.keysAgree_current h hu rfl hu rfl rfl).trans (quiet_checkCurrent _ _)
  · exact .refl s

theorem quiet_ageRetiring (k : Slot) (s : State) : Quiet s (ageRetiring k s) := by
  unfold ageRetiring
  split
  · rename_i hu
    exact (quiet_setLink (s := s) (k := k) (l := agedRetiring (s.link k)) fun h => Link.keysAgree_retiring' h hu rfl rfl hu).trans (quiet_checkRetiring _ _)
  · exact .refl s

theorem quiet_countRetireTimer (k : Slot) (s : State) : Quiet s (countRetireTimer k s) := by
  unfold countRetireTimer
  show Quiet s (if _ then if _ then _ else _ else _)
  split
  · rename_i hu
    exact .ite (quiet_eraseRetiring _ _) (quiet_setLink (s := s) (k := k) (l := retireTimerDown (s.link k)) fun h => Link.keysAgree_retiring' h hu rfl rfl hu)
  · exact .refl s

/-- A period mark at a link record. -/
theorem quiet_markLink (k : Slot) (s : State) : Quiet s (markLink k s) := by
  unfold markLink
  split
  · exact .refl s
  · refine Quiet.trans ?_ (quiet_countSilence k _)
    refine Quiet.trans ?_ (quiet_decayKinds k _)
    refine Quiet.trans ?_ (quiet_dueCheck k _ _)
    refine Quiet.trans ?_ (quiet_modLink keeps_ratedRecord k _)
    refine Quiet.trans ?_ (quiet_modLink keeps_countedRest k _)
    refine Quiet.trans ?_ (quiet_countRetireTimer k _)
    exact (quiet_ageCurrent k s).trans (quiet_ageRetiring k _)

theorem quiet_reachAgeLimit (k : Slot) (which : KeySlotName) (s : State) : Quiet s (reachAgeLimit k which s) := by
  unfold reachAgeLimit
  cases which
  · exact .ite (quiet_ageCurrent _ _) (.refl s)
  · exact .ite (quiet_ageRetiring _ _) (.refl s)

theorem quiet_reachRetireTime (k : Slot) (s : State) : Quiet s (reachRetireTime k s) := by
  unfold reachRetireTime
  exact .ite (quiet_countRetireTimer _ _) (.refl s)

theorem quiet_reachRestEnd (k : Slot) (s : State) : Quiet s (reachRestEnd k s) := by
  unfold reachRestEnd
  exact .ite ((quiet_modLink keeps_countedRest k s).trans (quiet_dueCheck _ _ _)) (.refl s)

theorem quiet_reachReplyExpiry (n : RecordNumber) (s : State) : Quiet s (reachReplyExpiry n s) := by
  unfold reachReplyExpiry
  exact .ite (quiet_expireReply _ _) (.refl s)

end Sys2Proof.Machine
end

