-- ==== Sys2Proof/Laws/Host.lean ====
section
/-! SUPPORT. What the operations that reach host memory can do, said once: under accesses that all succeed a read, a write, the board writes of an event, a full board write and the service of an entry change host memory by exactly the writes they post, and nothing else of the state. -/

namespace Sys2Proof.Machine

/-! ## Writes in order -/

theorem applyWrites_nil (m : Memory) : applyWrites m [] = m := rfl

theorem applyWrites_append (m : Memory) (a b : List HostWrite) :
    applyWrites m (a ++ b) = applyWrites (applyWrites m a) b := by
  simp [applyWrites]

/-- A byte that no write of a list covers reads as before. -/
theorem readByte_applyWrites_outside (m : Memory) (ws : List HostWrite) {x : Nat} (h : ∀ w ∈ ws, ¬ w.covers x) :
    (applyWrites m ws).readByte x = m.readByte x := by
  induction ws generalizing m with
  | nil => rfl
  | cons w ws ih =>
    show (applyWrites (m.writeBytes w.address w.bytes) ws).readByte x = _
    rw [ih _ fun v hv => h v (List.mem_cons_of_mem _ hv)]
    exact Memory.readByte_writeBytes_outside m w.address w.bytes (h w List.mem_cons_self)

/-- Writes keep the canonical form of host memory. -/
theorem Memory.wf_applyWrites {m : Memory} (h : m.wf = true) (ws : List HostWrite) : (applyWrites m ws).wf = true := by
  induction ws generalizing m with
  | nil => exact h
  | cons w ws ih => exact ih (Memory.wf_writeBytes h w.address w.bytes)

/-! ## States after accesses that succeed -/

/-- Every access still to come in the present event succeeds. -/
def State.busClean (s : State) : Prop := ∀ o ∈ s.bus, o = .done

theorem State.wrote_zero (s : State) : s.wrote 0 [] = s := by
  cases s
  simp [State.wrote, applyWrites]

theorem State.wrote_wrote (s : State) (m n : Nat) (a b : List HostWrite) :
    (s.wrote m a).wrote n b = s.wrote (m + n) (a ++ b) := by
  simp [State.wrote, applyWrites_append, List.drop_drop]

theorem State.busClean_wrote {s : State} (h : s.busClean) (n : Nat) (ws : List HostWrite) : (s.wrote n ws).busClean :=
  fun o ho => h o (List.mem_of_mem_drop ho)

theorem busClean_beginEvent {env : Env} (h : cleanEnv env) (s : State) : (beginEvent env s).busClean := h

@[simp] theorem State.wrote_resetn (s : State) (n : Nat) (ws : List HostWrite) : (s.wrote n ws).resetn = s.resetn := rfl
@[simp] theorem State.wrote_quiescePin (s : State) (n : Nat) (ws : List HostWrite) : (s.wrote n ws).quiescePin = s.quiescePin := rfl
@[simp] theorem State.wrote_quiesce (s : State) (n : Nat) (ws : List HostWrite) : (s.wrote n ws).quiesce = s.quiesce := rfl
@[simp] theorem State.wrote_settings (s : State) (n : Nat) (ws : List HostWrite) : (s.wrote n ws).settings = s.settings := rfl
@[simp] theorem State.wrote_oneTimeStore (s : State) (n : Nat) (ws : List HostWrite) : (s.wrote n ws).oneTimeStore = s.oneTimeStore := rfl
@[simp] theorem State.wrote_masterKey (s : State) (n : Nat) (ws : List HostWrite) : (s.wrote n ws).masterKey = s.masterKey := rfl
@[simp] theorem State.wrote_mask (s : State) (n : Nat) (ws : List HostWrite) : (s.wrote n ws).mask = s.mask := rfl
@[simp] theorem State.wrote_causes (s : State) (n : Nat) (ws : List HostWrite) : (s.wrote n ws).causes = s.causes := rfl
@[simp] theorem State.wrote_clamped (s : State) (n : Nat) (ws : List HostWrite) : (s.wrote n ws).clamped = s.clamped := rfl
@[simp] theorem State.wrote_run (s : State) (n : Nat) (ws : List HostWrite) : (s.wrote n ws).run = s.run := rfl
@[simp] theorem State.wrote_workBase (s : State) (n : Nat) (ws : List HostWrite) : (s.wrote n ws).workBase = s.workBase := rfl
@[simp] theorem State.wrote_batchA (s : State) (n : Nat) (ws : List HostWrite) : (s.wrote n ws).batchA = s.batchA := rfl
@[simp] theorem State.wrote_batchB (s : State) (n : Nat) (ws : List HostWrite) : (s.wrote n ws).batchB = s.batchB := rfl
@[simp] theorem State.wrote_engine (s : State) (n : Nat) (ws : List HostWrite) : (s.wrote n ws).engine = s.engine := rfl
@[simp] theorem State.wrote_firstWaiting (s : State) (n : Nat) (ws : List HostWrite) : (s.wrote n ws).firstWaiting = s.firstWaiting := rfl
@[simp] theorem State.wrote_nextIndex (s : State) (n : Nat) (ws : List HostWrite) : (s.wrote n ws).nextIndex = s.nextIndex := rfl
@[simp] theorem State.wrote_entriesDone (s : State) (n : Nat) (ws : List HostWrite) : (s.wrote n ws).entriesDone = s.entriesDone := rfl
@[simp] theorem State.wrote_faultStop (s : State) (n : Nat) (ws : List HostWrite) : (s.wrote n ws).faultStop = s.faultStop := rfl
@[simp] theorem State.wrote_abandoned (s : State) (n : Nat) (ws : List HostWrite) : (s.wrote n ws).abandoned = s.abandoned := rfl
@[simp] theorem State.wrote_branchMap (s : State) (n : Nat) (ws : List HostWrite) : (s.wrote n ws).branchMap = s.branchMap := rfl
@[simp] theorem State.wrote_links (s : State) (n : Nat) (ws : List HostWrite) : (s.wrote n ws).links = s.links := rfl
@[simp] theorem State.wrote_profiles (s : State) (n : Nat) (ws : List HostWrite) : (s.wrote n ws).profiles = s.profiles := rfl
@[simp] theorem State.wrote_dueList (s : State) (n : Nat) (ws : List HostWrite) : (s.wrote n ws).dueList = s.dueList := rfl
@[simp] theorem State.wrote_records (s : State) (n : Nat) (ws : List HostWrite) : (s.wrote n ws).records = s.records := rfl
@[simp] theorem State.wrote_sendOrder (s : State) (n : Nat) (ws : List HostWrite) : (s.wrote n ws).sendOrder = s.sendOrder := rfl
@[simp] theorem State.wrote_queue (s : State) (n : Nat) (ws : List HostWrite) : (s.wrote n ws).queue = s.queue := rfl
@[simp] theorem State.wrote_device (s : State) (n : Nat) (ws : List HostWrite) : (s.wrote n ws).device = s.device := rfl
@[simp] theorem State.wrote_boardBase (s : State) (n : Nat) (ws : List HostWrite) : (s.wrote n ws).boardBase = s.boardBase := rfl
@[simp] theorem State.wrote_lastDraw (s : State) (n : Nat) (ws : List HostWrite) : (s.wrote n ws).lastDraw = s.lastDraw := rfl
@[simp] theorem State.wrote_phase (s : State) (n : Nat) (ws : List HostWrite) : (s.wrote n ws).phase = s.phase := rfl
@[simp] theorem State.wrote_walkPosition (s : State) (n : Nat) (ws : List HostWrite) : (s.wrote n ws).walkPosition = s.walkPosition := rfl
@[simp] theorem State.wrote_noise (s : State) (n : Nat) (ws : List HostWrite) : (s.wrote n ws).noise = s.noise := rfl
@[simp] theorem State.wrote_drawCount (s : State) (n : Nat) (ws : List HostWrite) : (s.wrote n ws).drawCount = s.drawCount := rfl
@[simp] theorem State.wrote_pending (s : State) (n : Nat) (ws : List HostWrite) : (s.wrote n ws).pending = s.pending := rfl
@[simp] theorem State.wrote_posted (s : State) (n : Nat) (ws : List HostWrite) :
    (s.wrote n ws).posted = s.posted ++ ws := rfl
@[simp] theorem State.wrote_hostMem (s : State) (n : Nat) (ws : List HostWrite) :
    (s.wrote n ws).hostMem = applyWrites s.hostMem ws := rfl
@[simp] theorem State.wrote_bus (s : State) (n : Nat) (ws : List HostWrite) : (s.wrote n ws).bus = s.bus.drop n := rfl
@[simp] theorem State.wrote_inner (s : State) (n : Nat) (ws : List HostWrite) : (s.wrote n ws).inner = s.inner := rfl

/-- A read that succeeds uses up its outcome and changes nothing else. -/
theorem hostRead_clean {s : State} (h : s.busClean) : hostRead s = (true, s.wrote 1 []) := by
  unfold hostRead nextAccess
  cases hb : s.bus with
  | nil => simp [State.wrote, applyWrites, hb]; cases s; simp_all
  | cons o rest =>
    have := h o (by simp [hb])
    subst this
    simp [State.wrote, applyWrites, hb]

/-- A write that succeeds is posted and applied, and changes nothing else. -/
theorem hostWrite_clean {s : State} (h : s.busClean) (kind : WriteKind) (a : Address) (bytes : List Byte) :
    hostWrite kind a bytes s = (true, s.wrote 1 [⟨a, bytes⟩]) := by
  unfold hostWrite nextAccess
  cases hb : s.bus with
  | nil => simp [State.wrote, applyWrites, hb]
  | cons o rest =>
    have := h o (by simp [hb])
    subst this
    simp [State.wrote, applyWrites, hb]

/-- A read whose access ends in an error raises BUS_FAULT (R127). -/
theorem hostRead_error {s : State} {landed : Nat} {rest : List BusOutcome} (h : s.bus = .error landed :: rest) :
    hostRead s = (false, raiseDevice .busFault { s with bus := rest }) := by
  simp [hostRead, nextAccess, h]

/-- A read that a fall of RESETN meets is not made, and no later access is (R206). -/
theorem hostRead_fall {s : State} {landed : Nat} {rest : List BusOutcome} (h : s.bus = .fall landed :: rest) :
    hostRead s = (true, { s with resetn := false, bus := .fall 0 :: rest }) := by
  simp [hostRead, nextAccess, h]

/-- A write whose access ends in an error raises BUS_FAULT; of a tail item or an output some bytes may land (R127, R134,
R176). -/
theorem hostWrite_error {s : State} {landed : Nat} {rest : List BusOutcome} (h : s.bus = .error landed :: rest)
    (kind : WriteKind) (a : Address) (bytes : List Byte) :
    hostWrite kind a bytes s =
      (false, raiseDevice .busFault
        (if kind = .whole then { s with bus := rest } else landBytes a landed bytes { s with bus := rest })) := by
  cases kind <;> simp [hostWrite, nextAccess, h]

/-- A write that a fall of RESETN meets is not made; of an output some bytes may have been issued (R206). -/
theorem hostWrite_fall {s : State} {landed : Nat} {rest : List BusOutcome} (h : s.bus = .fall landed :: rest)
    (kind : WriteKind) (a : Address) (bytes : List Byte) :
    hostWrite kind a bytes s =
      (true,
        if kind = .output then landBytes a landed bytes { s with resetn := false, bus := .fall 0 :: rest }
        else { s with resetn := false, bus := .fall 0 :: rest }) := by
  cases kind <;> simp [hostWrite, nextAccess, h]

/-! ## What the board shows does not depend on host memory -/

/-- A link slot shows the link records and the renewal records alone. -/
theorem linkSlotBytes_congr {s t : State} (hl : t.links = s.links) (hr : t.records = s.records) (k : Slot) :
    linkSlotBytes t k = linkSlotBytes s k := by
  have h1 : t.link k = s.link k := by rw [State.link, State.link, hl]
  have h2 : t.recordOf k = s.recordOf k := by unfold State.recordOf; rw [hr]
  have h3 : t.attemptOf k = s.attemptOf k := by unfold State.attemptOf; rw [h2, hr]
  unfold linkSlotBytes
  rw [h1, h3]

/-- The device slot shows the device fault record, QUIESCE, the renewal records, the queue and the Due List alone. -/
theorem deviceSlotBytes_congr {s t : State} (hd : t.device = s.device) (hq : t.quiesce = s.quiesce)
    (hr : t.records = s.records) (hu : t.queue = s.queue) (hl : t.dueList = s.dueList) :
    deviceSlotBytes t = deviceSlotBytes s := by
  simp only [deviceSlotBytes, State.deviceFlags, State.recordsInUse, State.dueLength, hd, hq, hr, hu, hl]

theorem linkSlotBytes_wrote (s : State) (n : Nat) (ws : List HostWrite) (k : Slot) :
    linkSlotBytes (s.wrote n ws) k = linkSlotBytes s k := rfl

theorem deviceSlotBytes_wrote (s : State) (n : Nat) (ws : List HostWrite) :
    deviceSlotBytes (s.wrote n ws) = deviceSlotBytes s := rfl

/-! ## Board writes -/

theorem counterBytes_length (l : Link) : (counterBytes l).length = 18 := by
  have : ∀ v : List KindRecord, (v.flatMap fun k => leBytes 2 k.counter).length = 2 * v.length := by
    intro v
    induction v with
    | nil => rfl
    | cons a v ih => simp [ih, leBytes_length]; omega
  simp [counterBytes, this]

/-- A link slot is 32 bytes long (R147). -/
theorem linkSlotBytes_length (s : State) (k : Slot) : (linkSlotBytes s k).length = 32 := by
  unfold linkSlotBytes
  dsimp only
  split
  · simp [zeroBytes]
  · simp [leBytes_length, zeroBytes, counterBytes_length]

/-- The device slot is 32 bytes long (R147). -/
theorem deviceSlotBytes_length (s : State) : (deviceSlotBytes s).length = 32 := by
  simp [deviceSlotBytes, leBytes_length, zeroBytes]

theorem isBoardWrite_link {base : Address} (s : State) (k : Slot) :
    isBoardWrite (some base) ⟨boardSlotAddress base k.val, linkSlotBytes s k⟩ :=
  ⟨base, k.val, rfl, by omega, rfl, linkSlotBytes_length s k⟩

theorem isBoardWrite_device {base : Address} (s : State) :
    isBoardWrite (some base) ⟨boardSlotAddress base 512, deviceSlotBytes s⟩ :=
  ⟨base, 512, rfl, by omega, rfl, deviceSlotBytes_length s⟩

theorem boardWrites_isBoardWrite (s t : State) : ∀ w ∈ boardWrites s t, isBoardWrite t.boardBase w := by
  intro w hw
  unfold boardWrites at hw
  split at hw
  · simp at hw
  · rename_i base hb
    rw [hb]
    rcases List.mem_append.1 hw with hw | hw
    · obtain ⟨k, _, rfl⟩ := List.mem_map.1 hw
      exact isBoardWrite_link t k
    · split at hw
      · simp at hw
      · obtain rfl := List.mem_singleton.1 hw
        exact isBoardWrite_device t

theorem fullWrites_isBoardWrite (s : State) : ∀ w ∈ fullWrites s, isBoardWrite s.boardBase w := by
  intro w hw
  unfold fullWrites at hw
  split at hw
  · simp at hw
  · rename_i base hb
    rw [hb]
    rcases List.mem_append.1 hw with hw | hw
    · obtain ⟨k, _, rfl⟩ := List.mem_map.1 hw
      exact isBoardWrite_link s k
    · obtain rfl := List.mem_singleton.1 hw
      exact isBoardWrite_device s

/-- A board write stores to the board alone. -/
theorem not_covers_of_isBoardWrite {board : Option Address} {w : HostWrite} (h : isBoardWrite board w) {x : Nat}
    (hx : ¬ onBoard board x) : ¬ w.covers x := by
  obtain ⟨base, k, hb, hk, ha, hl⟩ := h
  intro hc
  refine hx ⟨base, k, hb, hk, ?_⟩
  rw [HostWrite.covers, ha, hl] at hc
  exact hc

theorem writeBoardSlot_clean {s : State} (h : s.busClean) (base : Address) (k : Nat) (bytes : List Byte) :
    writeBoardSlot base k bytes s = s.wrote 1 [⟨boardSlotAddress base k, bytes⟩] := by
  rw [writeBoardSlot, hostWrite_clean h]

theorem writeDeviceSlot_clean {s : State} (h : s.busClean) (base : Address) :
    writeDeviceSlot base s = s.wrote 1 [⟨boardSlotAddress base 512, deviceSlotBytes s⟩] := by
  unfold writeDeviceSlot
  dsimp only
  rw [writeBoardSlot_clean h, deviceSlotBytes_wrote, if_pos rfl]

/-- Link slots written one after another. -/
theorem writeLinkSlots_clean (s : State) (base : Address) (l : List Slot) {t : State} (h : t.busClean) :
    l.foldl (fun t k => writeBoardSlot base k.val (linkSlotBytes s k) t) t =
      t.wrote l.length (l.map fun k => ⟨boardSlotAddress base k.val, linkSlotBytes s k⟩) := by
  induction l generalizing t with
  | nil => exact (State.wrote_zero t).symm
  | cons k l ih =>
    rw [List.foldl_cons, writeBoardSlot_clean h, ih (State.busClean_wrote h _ _), State.wrote_wrote]
    simp [Nat.add_comm]

/-- The board writes of an event whose accesses all succeed. -/
theorem flushBoard_clean (before : State) {s : State} (h : s.busClean) :
    flushBoard before s = s.wrote (boardWrites before s).length (boardWrites before s) := by
  unfold flushBoard boardWrites
  cases hb : s.boardBase with
  | none => exact (State.wrote_zero s).symm
  | some base =>
    dsimp only
    rw [writeLinkSlots_clean s base _ h, deviceSlotBytes_wrote]
    split
    · simp
    · rw [writeDeviceSlot_clean (State.busClean_wrote h _ _), State.wrote_wrote, deviceSlotBytes_wrote]
      simp

/-- A full board write whose accesses all succeed. -/
theorem fullBoardWrite_clean {s : State} (h : s.busClean) :
    fullBoardWrite s = s.wrote (fullWrites s).length (fullWrites s) := by
  unfold fullBoardWrite fullWrites
  cases hb : s.boardBase with
  | none => exact (State.wrote_zero s).symm
  | some base =>
    dsimp only
    rw [writeLinkSlots_clean s base _ h, writeDeviceSlot_clean (State.busClean_wrote h _ _), State.wrote_wrote,
      deviceSlotBytes_wrote]
    simp

/-- An event leaves no slot to write when it shows what was shown before. -/
theorem boardWrites_same {s t : State} (hl : ∀ k, slotChanged s t k = false) (hd : deviceSlotBytes s = deviceSlotBytes t) :
    boardWrites s t = [] := by
  unfold boardWrites
  split
  · rfl
  · simp [hl, hd]

/-- An event that changes none of what the board shows leaves no slot to write. -/
theorem boardWrites_unshown {s t : State} (hl : t.links = s.links) (hr : t.records = s.records)
    (hd : t.device = s.device) (hq : t.quiesce = s.quiesce) (hu : t.queue = s.queue) (hdl : t.dueList = s.dueList) :
    boardWrites s t = [] :=
  boardWrites_same (fun k => by simp [slotChanged, linkSlotBytes_congr hl hr k])
    (deviceSlotBytes_congr hd hq hr hu hdl).symm

/-! ## Whole events -/

/-- A state within an event whose accesses have all succeeded so far, host memory being what the writes make of it. -/
structure Within (s t : State) (env : Env) : Prop where
  clean : t.busClean
  memory : t.hostMem = applyWrites s.hostMem t.posted

theorem Within.start {env : Env} (h : cleanEnv env) (s : State) : Within s (beginEvent env s) env := ⟨h, rfl⟩

theorem Within.wrote {s t : State} {env : Env} (h : Within s t env) (n : Nat) (ws : List HostWrite) :
    Within s (t.wrote n ws) env :=
  ⟨State.busClean_wrote h.clean n ws, by
    show applyWrites t.hostMem ws = applyWrites s.hostMem (t.posted ++ ws)
    rw [applyWrites_append, h.memory]⟩

theorem Within.accessed {env : Env} (h : cleanEnv env) (s : State) (n : Nat) (ws : List HostWrite) :
    Within s (s.accessed env n ws) env := (Within.start h s).wrote n ws

theorem Within.quiet {s t u : State} {env : Env} (h : Within s t env) (q : Quiet t u) : Within s u env :=
  ⟨by rw [State.busClean, q.bus]; exact h.clean, by rw [q.hostMem, q.posted]; exact h.memory⟩

@[simp] theorem accessed_posted (s : State) (env : Env) (n : Nat) (ws : List HostWrite) :
    (s.accessed env n ws).posted = ws := rfl

/-- What an event of the form `withBoard body` does, given what its body does. -/
theorem event_done {s : State} {env : Env} (hr : s.resetn = true) {body : State → State} {own : State}
    (hb : body (beginEvent env s) = own) (hw : Within s own env) :
    EventDone s (event env (withBoard body) s) own.posted own := by
  have e : event env (withBoard body) s = endEvent (own.wrote (boardWrites s own).length (boardWrites s own)) := by
    rw [event, if_pos hr, withBoard, hb, flushBoard_clean _ hw.clean]
    rfl
  rw [e]
  have hm : (own.wrote (boardWrites s own).length (boardWrites s own)).hostMem
      = applyWrites s.hostMem (own.posted ++ boardWrites s own) := (hw.wrote _ _).memory
  refine ⟨rfl, rfl, hm, fun x ho hx => ?_⟩
  show (own.wrote (boardWrites s own).length (boardWrites s own)).hostMem.readByte x = _
  rw [hm]
  refine readByte_applyWrites_outside _ _ fun w hw' => ?_
  rcases List.mem_append.1 hw' with h | h
  · exact ho w h
  · exact not_covers_of_isBoardWrite (boardWrites_isBoardWrite s own w h) hx

/-- A result that is no BUS_FAULT, written by an access that succeeds, counts the entry (R153). -/
theorem completeEntry_clean {t : State} (h : t.busClean) (id : BatchId) {r : EntryResult} (hs : r.status ≠ .busFault) :
    completeEntry id r t = countEntry (t.wrote 1 [resultWrite t id r]) := by
  unfold completeEntry
  rw [hostWrite_clean h]
  simp [hs, resultWrite]

theorem flushBoard_unshown {t u : State} (hu : u.busClean) (hn : boardWrites t u = []) : flushBoard t u = u := by
  rw [flushBoard_clean _ hu, hn, List.length_nil, State.wrote_zero]

theorem busClean_countEntry {t : State} (h : t.busClean) (w : HostWrite) : (countEntry (t.wrote 1 [w])).busClean :=
  State.busClean_wrote h 1 [w]

theorem boardWrites_countEntry (t : State) (w : HostWrite) : boardWrites t (countEntry (t.wrote 1 [w])) = [] :=
  boardWrites_unshown rfl rfl rfl rfl rfl rfl

/-- A result changes nothing that the board shows. -/
theorem flushBoard_completeEntry {t : State} (h : t.busClean) (id : BatchId) {r : EntryResult}
    (hs : r.status ≠ .busFault) : flushBoard t (completeEntry id r t) = countEntry (t.wrote 1 [resultWrite t id r]) := by
  rw [completeEntry_clean h id hs]
  exact flushBoard_unshown (busClean_countEntry h _) (boardWrites_countEntry _ _)

/-- The writes of an entry's own request, of the board and of the result, from the state `own` in which the request leaves
the device. -/
theorem serveEntryOf_clean {s own : State} {id : BatchId} {request : State → EntryResult × State} {r : EntryResult}
    (hb : s.busClean) (hreq : request (s.wrote 1 []) = (r, own)) (hs : r.status ≠ .busFault) (ho : own.busClean) :
    serveEntryOf id request s =
      countEntry ((own.wrote (boardWrites s own).length (boardWrites s own)).wrote 1 [resultWrite own id r]) := by
  have e : serveEntryOf id request s = flushBoard (flushBoard s own) (completeEntry id r (flushBoard s own)) := by
    unfold serveEntryOf
    rw [hostRead_clean hb]
    simp only [if_true, hreq]
  rw [e, flushBoard_clean _ ho, flushBoard_completeEntry (State.busClean_wrote ho _ _) id hs]
  rfl

/-- The entry at the next index of a batch, when its request's accesses all succeed (R153, R154). -/
theorem serveEntry_done {s : State} {env : Env} {id : BatchId} (hr : s.ready id) (hc : cleanEnv env)
    {request : State → EntryResult × State} {r : EntryResult} {own : State}
    (hreq : request (s.accessed env 1 []) = (r, own)) (hs : r.status ≠ .busFault) (hw : Within s own env)
    (hbase : own.workBase = s.workBase) (hnext : own.nextIndex = s.nextIndex) (hboard : own.boardBase = s.boardBase) :
    EntryDone id s (serveEntry request env s) r own.posted own := by
  have hv : (beginEvent env s).serving? = some id := hr.2
  have e : serveEntry request env s =
      endEvent (countEntry ((own.wrote (boardWrites s own).length (boardWrites s own)).wrote 1 [resultWrite s id r])) := by
    rw [serveEntry, event, if_pos hr.1, hv]
    dsimp only
    rw [serveEntryOf_clean (s := beginEvent env s) hc hreq hs hw.clean]
    have : resultWrite own id r = resultWrite s id r := by rw [resultWrite, resultWrite, hbase, hnext]
    rw [this]
    rfl
  rw [e]
  have hm := ((hw.wrote (boardWrites s own).length (boardWrites s own)).wrote 1 [resultWrite s id r]).memory
  have hp : ((own.wrote (boardWrites s own).length (boardWrites s own)).wrote 1 [resultWrite s id r]).posted =
      own.posted ++ boardWrites s own ++ [resultWrite s id r] := by rw [State.wrote_posted, State.wrote_posted]
  generalize hu : (own.wrote (boardWrites s own).length (boardWrites s own)).wrote 1 [resultWrite s id r] = u at hm hp
  have hi : u.inner = own.inner := by rw [← hu, State.wrote_inner, State.wrote_inner]
  refine ⟨?_, hp, hm, fun x h1 h2 h3 => ?_⟩
  · have := congrArg State.counted hi
    exact this
  · show u.hostMem.readByte x = _
    rw [hm, hp]
    refine readByte_applyWrites_outside _ _ fun w hw' => ?_
    rcases List.mem_append.1 hw' with h | h
    · rcases List.mem_append.1 h with h | h
      · exact h2 w h
      · refine not_covers_of_isBoardWrite (boardWrites_isBoardWrite s own w h) ?_
        rw [hboard]
        exact h3
    · obtain rfl := List.mem_singleton.1 h
      exact h1

end Sys2Proof.Machine
end

