-- ==== Sys2Proof/Tests/Slice0.lean ====
section
/-! SUPPORT. Tests: each check of WellFormed refusing an ill-formed command, the worked examples of the spec, and for every statement with hypotheses a concrete state and operands that meet them, clause by clause. -/

namespace Sys2Proof.Tests

set_option Elab.async false

open Sys2Proof Sys2Proof.Machine

/-! ## A state to test on -/

/-- A work entry. -/
def entry (slot : BitVec 16) (length room : BitVec 32) (flags : Byte := 0) : WorkEntry :=
  ⟨flags, slot, 0x20000, length, room, 0x30000⟩

/-- A parameter block that begins with the given bytes. -/
def block (bs : List Byte) : List Byte := bytesAt bs 0 64

/-- A profile with the terms of section 3.6 and the TAG_FAIL settings of section 12.9. -/
def terms : Profile where
  valid := true
  budget := 2000000
  ageLimit := 86400
  lead := 30
  replyWait := 12
  attempts := 3
  restTime := 300
  retireTime := 20
  silenceLimit := 0
  rates := #v[⟨60, 20, 240, 100, .renew⟩, ⟨1, 1, 500, 10, .note⟩, ⟨1, 1, 500, 10, .hold⟩, ⟨1, 1, 500, 10, .quarantine⟩]
  keySpentAction := .note
  renewalFailedAction := .note
  linkSilentAction := .note
  shopAlertAction := .note

/-- An IN_USE key of generation `g`. -/
def key (g use age : Nat) : KeySlot := ⟨.inUse, g, 5, 6, use, age, 2000000, 86400, .empty⟩

/-- A STANDBY link on the branches `b` to `b + 9`. -/
def standby (b : Nat) : Link :=
  { Link.vacant with state := .standby, first := b, last := b + 9, rootKey := 9, rootSequence := 1 }

/-- A LIVE link on the branches `b` to `b + 9`. -/
def live (b : Nat) : Link := { standby b with state := .live, current := key 4 0 0, nextSequence := 1, rate := 20000 }

/-- The test state: batch A is in service at its first entry of four, the board is absent, and slots 1 to 8 are
STANDBY (DUE, urgent), LIVE, STALLED (EXCHANGE, with record 0 waiting for its reply), QUARANTINED, LIVE with a RETIRING
key, LIVE and DUE in the ordinary section, LIVE in EXCHANGE with record 1 waiting to send, and LIVE in REST. -/
def bed : State :=
  { State.reset with
    run := true
    engine := .serving
    batchA := ⟨.inService, 4⟩
    workBase := 0x10000
    masterKey := 7
    profiles := (Vector.replicate 16 Profile.invalid).set 0 terms
    device := { State.reset.device with randomFault := true }
    dueList := ⟨[1], [6]⟩
    sendOrder := [1]
    records := ((Vector.replicate 16 RenewalRecord.free).set 0 ⟨.waitingReply, 3, 5, 8, 9, 10, 1, false, 3, .none⟩).set 1
      ⟨.waitingSend, 7, 5, 8, 9, 10, 1, false, 0, .none⟩
    branchMap := [⟨10, 19, 1⟩, ⟨20, 29, 2⟩, ⟨30, 39, 3⟩, ⟨40, 49, 4⟩, ⟨50, 59, 5⟩, ⟨60, 69, 6⟩, ⟨70, 79, 7⟩, ⟨80, 89, 8⟩]
    links :=
      [(1, Link.recodeFresh { standby 10 with renewal := .due }),
        (2, Link.recodeFresh (live 20)),
        (3, Link.recodeFresh { live 30 with
          state := .stalled, renewal := .exchange, current := ⟨.spent, 4, 0, 0, 1999950, 7, 2000000, 86400, .empty⟩ }),
        (4, Link.recodeFresh { Link.vacant with state := .quarantined, first := 40, last := 49 }),
        (5, Link.recodeFresh { live 50 with retiring := key 3 100 9, retireTimer := 2 }),
        (6, Link.recodeFresh { live 60 with renewal := .due, current := key 4 1962500 0 }),
        (7, Link.recodeFresh { live 70 with renewal := .exchange }),
        (8, Link.recodeFresh { live 80 with renewal := .rest, restTimer := 2 })] }

/-- The test state with one link changed. -/
def bedWith (k : Slot) (f : Link → Link) : State := bed.modLink k f

/-- Said of a command that answers a next state of which `p` holds. -/
def after (c : Instr) (s : State) (p : State → Bool) : Bool :=
  match exec c s with
  | .next t => p t
  | .fault _ => false
  | .refused _ => false

/-- The bytes of the last write that an event made. -/
def lastWrite (t : State) : List Byte := ((t.posted.getLast?).map HostWrite.bytes).getD []

/-! ## Ill-formed commands -/

/-- A settings memory that answers 63 bytes (R207). -/
theorem test_startUp_short_block : (Instr.startUp (zeroBytes 63) .plain).wellFormed = false := by decide
theorem test_startUp_block : (Instr.startUp (zeroBytes 64) .plain).wellFormed = true := by decide
/-- A plaintext buffer that holds fewer bytes than the input length names. -/
theorem test_outbound_short_input : (Instr.outbound (entry 20 3 64) [0, 0] .plain).wellFormed = false := by decide
theorem test_inbound_short_input : (Instr.inbound (entry 0 28 0) (zeroBytes 27) .plain).wellFormed = false := by decide
/-- A parameter block that is not of 64 bytes (R183). -/
theorem test_enrol_short_block : (Instr.enrol (entry 0 64 0) (zeroBytes 63) .plain).wellFormed = false := by decide
theorem test_setLink_short_block : (Instr.setLink (entry 0 64 0) (zeroBytes 63) .plain).wellFormed = false := by decide
theorem test_setProfile_short_block : (Instr.setProfile (entry 0 64 0) [] .plain).wellFormed = false := by decide
/-- Kinds 1 to 12 name requests (11.9), so an entry of such a kind is no BAD_REQUEST. -/
theorem test_badRequest_known_kind :
    (Instr.badRequest 1 (entry 0 0 0) .plain).wellFormed = false ∧
      (Instr.badRequest 12 (entry 0 0 0) .plain).wellFormed = false ∧
      (Instr.badRequest 0 (entry 0 0 0) .plain).wellFormed = true ∧
      (Instr.badRequest 13 (entry 0 0 0) .plain).wellFormed = true := by decide

/-! ## Worked examples of the spec -/

/-- The published check of the nine digits under the CRC of R135, and the check of an all-zero covered string, which is
not 0 (R135). -/
theorem test_check_function :
    crc32 [0x31, 0x32, 0x33, 0x34, 0x35, 0x36, 0x37, 0x38, 0x39] = 0xCBF43926 ∧ freshCode .vacant = 0x51A395C5 := by
  decide +kernel

/-- Section 2.3, "one window through eight packets". -/
theorem test_window_through_eight_packets :
    [3, 1, 3, 70, 5, 7, 6, 71, 7].foldl
        (fun (p : Window × List WindowTest) q =>
          (if windowTest p.1 q = .passes then windowAdvance p.1 q else p.1, p.2 ++ [windowTest p.1 q]))
        (.empty, [])
      = (⟨71, 0b11⟩, [.passes, .passes, .replayed, .passes, .tooOld, .passes, .tooOld, .passes, .tooOld]) := by
  decide +kernel

/-- Section 3.6: the estimate, the reserve and its saturation, and the costs. -/
theorem test_worked_arithmetic :
    nextRate 16000 3000 = 20000 ∧ reserve 20000 30 = 37500 ∧ nextRate 20000 12000 = 41500 ∧
      nextRate 41500 12000 = 60313 ∧ reserve 60313 30 = 113087 ∧ reserve 16777215 4096 = 4294967040 ∧
      reserve 16777215 4097 = 4294967295 ∧ cost 0 = 2 ∧ cost 1000 = 65 ∧ cost 1536 = 98 := by decide +kernel

/-- Section 3.6: each threshold holds at its value and not one below it. -/
theorem test_thresholds_of_one_key :
    let due (u a : Nat) := keyDue (key 1 u a) 37500 30
    let urgent (u a : Nat) := keyUrgent (key 1 u a) 37500 30
    let spent (u a : Nat) := limitReached (key 1 u a)
    due 1962500 0 = true ∧ due 1962499 86369 = false ∧ due 0 86370 = true ∧ urgent 1981250 0 = true ∧
      urgent 1981249 86384 = false ∧ urgent 0 86385 = true ∧ spent 1999903 0 = true ∧ spent 1999902 86399 = false ∧
      spent 0 86400 = true := by decide +kernel

/-- Section 1.6, "a range moved between two links": what the lookups find after the move. -/
theorem test_range_moved :
    let m := replaceTriple 7 100 179 (removeTriple 2 [⟨100, 149, 7⟩, ⟨150, 199, 2⟩, ⟨400, 420, 9⟩])
    m = [⟨100, 179, 7⟩, ⟨400, 420, 9⟩] ∧ lookupBranch m 185 = none ∧ lookupBranch m 160 = some 7 := by decide +kernel

/-- Section 5.3, "one report taken into the list". -/
theorem test_report_into_list :
    [⟨0x0200, 2⟩, ⟨0x8005, 1⟩, ⟨0x0200, 1⟩].foldl takeShopCode [⟨0x0101, 3⟩, ⟨0x0200, 1⟩]
      = [⟨0x0200, 4⟩, ⟨0x8005, 1⟩, ⟨0x0101, 3⟩] := by decide +kernel

/-- Section 8, "a close under pressure": a notice folded in place, its edge changed, sets the flicker mark. -/
theorem test_notice_folded :
    (makeNotice ⟨some 7, .link .tagFail, .cleared, 6, 80, false⟩
        { bed with queue := [.notice ⟨some 7, .link .tagFail, .raised, 6, 230, false⟩, .offer 18 []] }).queue
      = [.notice ⟨some 7, .link .tagFail, .cleared, 6, 80, true⟩, .offer 18 []] := by decide +kernel

/-- 11.2: the header in line order, most-significant byte first. -/
theorem test_header_bytes :
    headerBytes ⟨1, 1, 12, 0, 0x0102, 0x0304, 0x05060708⟩ = [1, 1, 12, 0, 1, 2, 3, 4, 5, 6, 7, 8] := by decide +kernel

/-- A good settings block, its check computed outside: P 60,001 and a tail room of 33 are clamped (R61, R208), and both
pin settings are taken. -/
theorem test_startUp_takes_block :
    after (.startUp ([0x61, 0xEA, 0, 0, 33, 1, 1] ++ zeroBytes 53 ++ [0xF1, 0x35, 0x84, 0x85]) ⟨[], [1, 2]⟩) State.reset
      (fun t => t.settings = ⟨60000, 32, .pushPull, .activeHigh, .block⟩ && t.engine = .stopped && t.queue = []
        && t.readRegister .status = 0x81) = true := by decide +kernel

/-- A blank settings memory gives the defaults, with SETTINGS_DEFAULTED's notice on the queue (R126, R208); two equal draws
add RANDOM_FAULT's (R129). -/
theorem test_startUp_blank_memory :
    after (.startUp (zeroBytes 64) ⟨[], [1, 1]⟩) State.reset
      (fun t => t.settings = .defaults && t.queue = [deviceNotice .settingsDefaulted, deviceNotice .randomFault]
        && t.readRegister .status = 0x01 && t.readRegister .notice = 0x14) = true := by decide +kernel

/-- Section 7.11: a handover to an IDLE engine goes straight into service, its header IN_SERVICE; 65 is taken as 64 and
sets CLAMPED (R150). -/
theorem test_handover_into_service :
    after (.handover .a 65 .plain) { bed with engine := .idle, batchA := ⟨.free, 0⟩ }
      (fun t => t.batchA = ⟨.inService, 64⟩ && t.engine = .serving && t.clamped && lastWrite t = [1, 0, 0, 0, 64, 0, 0, 0])
      = true := by decide +kernel

/-- R151: a handover of a batch in service sets CLASH and nothing else. -/
theorem test_handover_clash :
    after (.handover .a 1 .plain) bed (fun t => t = { bed with causes := 0b01000 }) = true := by decide +kernel

/-- R147: the low 12 bits of WORK_BASE_LO are ignored, and the write is taken while both batches are FREE. -/
theorem test_workBase_low_bits :
    after (.workBaseWrite .lo 0x12345FFF) { bed with batchA := ⟨.free, 0⟩, workBase := 0x7700000000 }
      (fun t => t.workBase = 0x7712345000) = true := by decide +kernel

/-- R202: one CONTROL write takes the mask, then ABANDON, then RUN; one with RESTART set takes neither mask nor RUN. -/
theorem test_control_write :
    after (.noticeEnableMaskWrite ⟨0xFFFF1501, .plain⟩) bed (fun t => t.mask = 0b10101 && t.readRegister .control = 0x1501) = true ∧
      after (.noticeEnableMaskWrite ⟨0x1F02, .plain⟩) { bed with quiesce := true }
        (fun t => t.mask = 0b11111 && !t.run && t.engine = .stopped && t.batchA = ⟨.free, 0⟩) = true ∧
      after (.noticeEnableMaskWrite ⟨0x1501, .plain⟩) { bed with run := false, engine := .stopped, batchA := ⟨.free, 0⟩ }
        (fun t => t.run && t.engine = .idle && t.boardBase = some 0x10000 && t.posted.length = 513) = true ∧
      after (.noticeEnableMaskWrite ⟨0x1505, ⟨[], [1, 2]⟩⟩) bed (fun t => t.mask = 0 && !t.run && t.engine = .stopped) = true := by
  decide +kernel

/-- R201: the eight registers stand at offsets 0x00 to 0x1C, and answer from the release of reset onward. -/
theorem test_register_offsets :
    ([0x00, 0x08, 0x18, 0x1C].map bed.readAt) = [some 0x05120100, some 0x0B, some 4, some 0] ∧ bed.readAt 0x20 = none ∧
      ({ bed with resetn := false } : State).readAt 0x00 = none := by decide +kernel

/-- R206: a fall of RESETN before the third access of a READ_LINK, the write of its result, leaves the record written and the
device in reset; one before the second access leaves nothing written but the bytes issued. -/
theorem test_fall_within_command :
    after (.readLink (entry 8 0 128) ⟨[.done, .done, .fall 0], []⟩) bed
      (fun t => !t.resetn && t.posted.length = 1 && t.hostMem.readByte 0x30000 = some 2) = true ∧
      after (.readLink (entry 8 0 128) ⟨[.done, .fall 0b10001], []⟩) bed
        (fun t => !t.resetn && t.posted = [] && t.hostMem.readByte 0x30000 = some 2 && t.hostMem.readByte 0x30004 = some 80
          && t.hostMem.readByte 0x30003 = none) = true := by decide +kernel

/-- 11.3, R211: the fields of an entry at their offsets, least-significant byte first, and the request its kind names. -/
theorem test_entry_bytes :
    let bs := [10, 1, 8, 0, 9, 9, 9, 9, 0, 0, 2, 0, 0, 0, 0, 1, 4, 3, 0, 0, 128, 0, 0, 0, 1, 2, 3, 4, 5, 6, 7, 8] ++ zeroBytes 32
    parseEntry bs = ⟨1, 8, 0x0100000000020000, 0x304, 128, 0x0807060504030201⟩ ∧
      entryCommand bs [] .plain = .readLink (parseEntry bs) .plain := by decide +kernel

/-- R89, R162: a close whose header write fails has freed entries of a full queue, so a waiting offer is queued. -/
theorem test_close_header_error_originates :
    after (.batchClose ⟨[.done, .error 0], []⟩)
      { bed with
        nextIndex := 4, entriesDone := 4, settings := { Settings.defaults with tailRoom := 1 }
        device := { bed.device with busFault := true }, queue := deviceNotice .busFault :: List.replicate 31 (.offer 9 []) }
      (fun t => t.engine = .stopped && t.faultStop && t.batchA.state = .inService && t.records[1].offerQueued
        && t.sendOrder = []) = true := by decide +kernel

/-- R203: each cause written as 1 is cleared. -/
theorem test_notice_clear :
    after (.noticeClear 0xFFFFFFE9) { bed with causes := 0b11111 } (fun t => t.causes = 0b10110) = true := by decide +kernel

/-- R206: after a reset every link is VACANT and the engine is STARTING; the pin levels stay. -/
theorem test_pinReset :
    after .pinReset { bed with resetn := false, quiescePin := true }
      (fun t => t = { State.reset with quiescePin := true }) = true := by decide +kernel

/-- R159: clearing RUN lets the batch in service finish, and stops an IDLE engine. -/
theorem test_runClear :
    after .runClear bed (fun t => !t.run && t.engine = .serving) = true ∧
      after .runClear { bed with engine := .idle, batchA := ⟨.free, 0⟩ } (fun t => t.engine = .stopped) = true := by
  decide +kernel

/-- R160, R175: ABANDON gives SKIPPED to the rest, counts none of them, and closes the batch ABANDONED with the tail. -/
theorem test_abandon :
    after (.abandon .plain) { bed with quiesce := true, nextIndex := 3, entriesDone := 3, queue := [deviceNotice .busFault] }
      (fun t => t.engine = .idle && t.batchA = ⟨.free, 0⟩ && t.queue = [] && lastWrite t = [3, 0, 0, 0, 4, 3, 1, 0]
        && (t.posted.head?).map HostWrite.bytes = some [8, 0, 0xFF, 0xFF, 0, 0, 0, 0, 0, 0, 0, 0, 0, 0, 0, 0]
        && t.readRegister .notice = 0x01) = true := by decide +kernel

/-- R90, R156, R175: a close at its tail room delivers the offer, whose record waits for its reply for W periods. -/
theorem test_close_delivers :
    after (.batchClose .plain)
      { bed with
        nextIndex := 4, entriesDone := 4, sendOrder := [], quiesce := true, settings := { Settings.defaults with tailRoom := 1 }
        records := bed.records.set 1 ⟨.waitingSend, 7, 5, 8, 9, 10, 1, true, 0, .none⟩
        queue := [.offer 7 (zeroBytes 86), deviceNotice .busFault] }
      (fun t => t.queue = [deviceNotice .busFault] && t.records[1].state = .waitingReply && t.records[1].replyTimer = 12
        && lastWrite t = [2, 0, 0, 0, 4, 4, 1, 0] && t.readRegister .notice = 0x05) = true := by decide +kernel

/-- Section 3.6: at U = 1,999,900 one 1,000-byte packet still leaves, and spends the key. -/
theorem test_outbound_last_use :
    after (.outbound (entry 29 1000 1028) [] .plain) (bedWith 2 fun l => { l with current := key 4 1999900 0 })
      (fun t => (t.link 2).state = .stalled && (t.link 2).current.use = 1999965 && (t.link 2).nextSequence = 2
        && lastWrite t = [0x00, 0x06, 2, 0, 4, 4, 0, 0, 4, 0, 0, 0, 1, 0, 0, 0]) = true := by decide +kernel

/-- R47: class DATA with generation 0 is a class mismatch, and scores EXCHANGE_FAULT by its weight. -/
theorem test_inbound_class_mismatch :
    after (.inbound (entry 0 28 0) ([1, 1, 0, 1, 0, 20, 0, 0, 0, 0, 0, 1] ++ zeroBytes 16) .plain) bed
      (fun t => (t.link 2).scores[3] = 1 && lastWrite t = [0x20, 0, 2, 0, 0, 0, 0, 0, 0, 0, 0, 0, 1, 0, 0, 0]) = true := by
  decide +kernel

/-- Section 12.7: a packet of a generation that no slot holds scores UNKNOWN_GEN. -/
theorem test_inbound_unknown_generation :
    after (.inbound (entry 0 28 0) ([1, 1, 40, 1, 0, 20, 0, 0, 0, 0, 0x23, 0x2A] ++ zeroBytes 16) .plain) bed
      (fun t => (t.link 2).scores[2] = 1 && (t.link 2).kinds[2].counter = 1
        && lastWrite t = [0x1C, 0, 2, 0, 0, 0, 0, 0, 40, 0, 0, 0, 0x2A, 0x23, 0, 0]) = true := by decide +kernel

/-- Section 9, entry 0: M 20 becomes 15, a clear level of 300 under a raise level of 250 becomes 249, and the result is
OK_CLAMPED with no link counted. -/
theorem test_setProfile_clamps :
    let b := block [5, 0, 4, 0, 0, 16, 0, 0, 0, 1, 0, 0, 0, 1, 0, 20, 1, 0, 0, 0, 1, 0, 0, 0, 0, 0, 1, 0, 250, 0, 0x2C, 1, 0]
    after (.setProfile (entry 0 64 0) b .plain) bed
      (fun t => t.profiles[5].attempts = 15 && t.profiles[5].rates[0].clearLevel = 249 && t.profiles[5].budget = 1024
        && (lastWrite t).take 4 = [1, 0, 0xFF, 0xFF]) = true := by decide +kernel

/-- Section 9, entries 3 and 4: SET_LINK without the host mark is NOT_HELD; HOLD 1023 reaches and counts every enrolled
link. -/
theorem test_setLink_not_held :
    after (.setLink (entry 2 64 0) (block [20, 0, 25, 0, 0]) .plain) bed
      (fun t => t.branchMap = bed.branchMap && (lastWrite t).take 4 = [0x2A, 0, 2, 0]) = true := by decide +kernel
theorem test_hold_all_links :
    after (.hold (entry 1023 0 0) .plain) bed
      (fun t => (t.link 4).hostHold && (t.link 8).hostHold && t.link 9 = .vacant
        && lastWrite t = [0, 0, 0xFF, 0x03, 0, 0, 0, 0, 0, 0, 0, 0, 8, 0, 0, 0]) = true := by decide +kernel

/-- R193: a RELEASE that names no mark is MALFORMED, detail FLAGS; one that names the host mark leaves the other. -/
theorem test_release :
    after (.release (entry 2 0 0) .plain) bed (fun t => (lastWrite t).take 4 = [0x11, 0x0D, 2, 0]) = true ∧
      after (.release (entry 2 0 0 1) .plain) (bedWith 2 fun l => { l with hostHold := true, supervisorHold := true })
        (fun t => !(t.link 2).hostHold && (t.link 2).supervisorHold && (lastWrite t).take 2 = [0, 0]) = true := by
  decide +kernel

/-- R187: a RETIRE frees the link's record, triple and list entries; one of a VACANT slot says WAS_VACANT. -/
theorem test_retire :
    after (.retire (entry 3 0 0) .plain) { bed with quiesce := true }
      (fun t => t.link 3 = .vacant && t.records[0] = .free && lookupBranch t.branchMap 35 = none) = true ∧
      after (.retire (entry 9 0 0) .plain) bed (fun t => (lastWrite t).take 4 = [0, 0x20, 9, 0]) = true := by decide +kernel

/-- R184: a range that shares branches with another link's is refused; a slot in use is refused before it. -/
theorem test_enrol_refusals :
    after (.enrol (entry 9 64 0) (block [75, 0, 95, 0, 0]) .plain) bed (fun t => (lastWrite t).take 4 = [0x22, 0, 9, 0]) = true ∧
      after (.enrol (entry 8 64 0) (block [75, 0, 95, 0, 0]) .plain) bed
        (fun t => (lastWrite t).take 4 = [0x21, 0, 8, 0]) = true := by decide +kernel

/-- R195: a forced join promotes a link of the ordinary section behind the urgent ones. -/
theorem test_renewNow_promotes :
    after (.renewNow (entry 6 0 0) .plain) bed
      (fun t => t.dueList = ⟨[1, 6], []⟩ && (lastWrite t).take 4 = [0, 0x24, 6, 0]) = true := by decide +kernel

/-- R197: the link summary begins with state, marks, profile, renewal state and the range. -/
theorem test_readLink :
    after (.readLink (entry 8 0 128) .plain) bed
      (fun t => (t.posted.head?).map (fun w => (w.bytes.length, w.bytes.take 12)) =
        some (128, [2, 0, 0, 3, 80, 0, 89, 0, 0, 0, 2, 0])) = true := by decide +kernel

/-- R119: READ_FAULTS with the clear option copies first, and then clears the counters and not the scores. -/
theorem test_readFaults_clears :
    after (.readFaults (entry 2 0 96 1) .plain)
      (bedWith 2 fun l => { l with kinds := l.kinds.set 0 ⟨true, 4, true⟩, scores := l.scores.set 0 260 })
      (fun t => (t.link 2).kinds[0] = ⟨true, 0, false⟩ && (t.link 2).scores[0] = 260
        && (t.posted.head?).map (fun w => (w.bytes.length, w.bytes.take 6)) = some (96, [1, 0, 1, 0, 4, 0])) = true := by
  decide +kernel

/-- R199: the device summary gives P, the tail room, the flags, and the counts of records and list entries. -/
theorem test_readDevice :
    after (.readDevice (entry 0 0 64) .plain) bed
      (fun t => (t.posted.head?).map (fun w => (w.bytes.length, w.bytes.take 18)) =
        some (64, [0xE8, 3, 0, 0, 16, 0, 0, 0, 0x84, 0, 0, 0, 2, 0, 2, 0, 1, 0])) = true := by decide +kernel

/-- R153: an entry of kind 13 gets BAD_REQUEST and is counted. -/
theorem test_badRequest :
    after (.badRequest 13 (entry 0 0 0) .plain) bed
      (fun t => t.nextIndex = 1 && t.entriesDone = 1
        && lastWrite t = [0x10, 0, 0xFF, 0xFF, 0, 0, 0, 0, 0, 0, 0, 0, 0, 0, 0, 0]) = true := by decide +kernel

/-- R138: a scrub step passes over VACANT and QUARANTINED slots and goes round past slot 511. -/
theorem test_scrub_goes_round :
    after (.scrubStep .plain) { bed with walkPosition := 4 } (fun t => t.walkPosition = 6 && t.links = bed.links) = true ∧
      after (.scrubStep .plain) { bed with walkPosition := 9 } (fun t => t.walkPosition = 2) = true := by decide +kernel

/-- R140: an altered record is quarantined by STORE_CORRUPT. -/
theorem test_scrub_mismatch :
    after (.scrubStep .plain) { (bedWith 2 fun l => { l with rootKey := 8 }) with walkPosition := 2, quiesce := true }
      (fun t => (t.link 2).state = .quarantined && (t.link 2).rootKey = 0 && (t.link 2).kinds[8].active
        && t.queue = [.notice ⟨some 2, .link .storeCorrupt, .raised, 1, 0, false⟩]) = true := by decide +kernel

/-- R62: the last millisecond of a period brings the phase back to 0. -/
theorem test_periodMark :
    after .periodMark { bed with phase := 999 } (fun t => t = { bed with phase := 0 }) = true := by decide +kernel

/-- Section 5.2, fifteenth mark: a score that falls to the clear level clears its kind with a notice. -/
theorem test_mark_decays_and_clears :
    after (.periodMarkAtLink 2 .plain)
      (bedWith 2 fun l => { l with kinds := l.kinds.set 0 ⟨true, 6, false⟩, scores := l.scores.set 0 120, periodCount := 3000 })
      (fun t => (t.link 2).kinds[0] = ⟨false, 6, false⟩ && (t.link 2).scores[0] = 100 && (t.link 2).rate = 23500
        && (t.link 2).current.age = 1
        && t.queue = [.notice ⟨some 2, .link .tagFail, .cleared, 6, 100, false⟩]) = true := by decide +kernel

/-- R64, R12: the mark that brings the age to A spends the CURRENT key. -/
theorem test_ageLimit :
    after (.ageLimitReached 2 .current .plain) (bedWith 2 fun l => { l with current := key 4 0 86399 })
      (fun t => (t.link 2).state = .stalled && (t.link 2).current = ⟨.spent, 4, 0, 0, 0, 86400, 2000000, 86400, .empty⟩
        && (t.link 2).kinds[4] = ⟨true, 1, false⟩ && (t.link 2).checkCode = freshCode (t.link 2)) = true := by decide +kernel

/-- R65: the retire timer's last period erases the old key, and its last but one does not. -/
theorem test_retireTimer :
    after (.retireTimerExpiry 5 .plain) (bedWith 5 fun l => { l with retireTimer := 1 })
      (fun t => (t.link 5).retiring = .empty && (t.link 5).retireTimer = 0) = true ∧
      after (.retireTimerExpiry 5 .plain) bed (fun t => t = bed) = true := by decide +kernel

/-- R66: a rest that ends leaves a LIVE link that is not due IDLE. -/
theorem test_restEnd :
    after (.restEnd 8 .plain) (bedWith 8 fun l => { l with restTimer := 1 })
      (fun t => (t.link 8).renewal = .idle && (t.link 8).restTimer = 0 && t.dueList = bed.dueList) = true := by decide +kernel

/-- Section 12.8, the mark first: a retry with a new nonce and the next attempt, back in the send order. -/
theorem test_reply_timer_retries :
    after (.replyTimerExpiry 0 ⟨[], [77]⟩)
      { bed with
        quiesce := true, device := State.reset.device
        records := bed.records.set 0 ⟨.waitingReply, 3, 78, 8, 9, 10, 2, false, 1, .none⟩ }
      (fun t => t.records[0] = ⟨.waitingSend, 3, 78, 8, 9, 77, 3, false, 0, .none⟩ && t.sendOrder = [1, 0]) = true := by
  decide +kernel

/-- R100: at the last attempt the renewal fails: REST for the profile's rest time, with RENEWAL_FAILED. -/
theorem test_mark_at_record_fails_renewal :
    after (.periodMarkAtRenewalRecord 0 .plain)
      { bed with records := bed.records.set 0 ⟨.waitingReply, 3, 78, 8, 9, 10, 3, false, 1, .none⟩ }
      (fun t => t.records[0] = .free && (t.link 3).renewal = .rest && (t.link 3).restTimer = 300
        && (t.link 3).kinds[5] = ⟨true, 1, false⟩) = true := by decide +kernel

/-- R86, R87: an admission takes the head of the urgent section, at generation 1 for a link that has had no key. -/
theorem test_admission :
    after (.admission ⟨[], [1, 2, 3, 4, 5, 6, 7]⟩)
      { bed with quiesce := true, device := State.reset.device, dueList := ⟨[1], []⟩ }
      (fun t => (t.link 1).renewal = .exchange && t.sendOrder = [1, 2]
        && t.records[2] = ⟨.waitingSend, 1, 1, 0x0000000000000004000000000000000300000000000000020000000000000001, 5, 6, 1,
          false, 0, .none⟩) = true := by decide +kernel

/-- R89: an origination takes the root sequence and queues the offer; QUIESCE stops it. -/
theorem test_origination :
    after (.origination .plain) bed
      (fun t => (t.link 7).rootSequence = 2 && t.sendOrder = [] && t.records[1].offerQueued && t.queue.length = 1) = true ∧
      after (.origination .plain) { bed with quiesce := true } (fun t => t = { bed with quiesce := true }) = true := by
  decide +kernel

/-- R161: an error on a result write stops the engine with the batch left IN_SERVICE. -/
theorem test_result_write_error :
    after (.badRequest 13 (entry 0 0 0) ⟨[.done, .error 0], []⟩) bed
      (fun t => t.engine = .stopped && !t.run && t.faultStop && t.batchA.state = .inService && t.nextIndex = 0
        && t.device.busFault) = true := by decide +kernel

/-- R152: first waiting starts once RUN is set. -/
theorem test_runSet_starts :
    after (.serviceStart .plain) { bed with batchA := ⟨.free, 0⟩, batchB := ⟨.waiting, 0⟩, engine := .idle, firstWaiting := some .b }
      (fun t => t.engine = .serving && t.batchB = ⟨.inService, 0⟩ && t.firstWaiting = none
        && lastWrite t = [1, 0, 0, 0, 0, 0, 0, 0]) = true := by decide +kernel

/-- R205: before start-up has ended an edge of QUIESCE is no event. -/
theorem test_quiesce_before_start :
    after (.quiesceAssert .plain) State.reset (fun t => t.quiescePin && !t.quiesce) = true ∧
      after (.quiesceAssert .plain) bed (fun t => t.quiescePin && t.quiesce) = true := by decide +kernel

/-! ## Packets and wrapped keys under the free cipher -/

/-- The packet that the far end makes of a text under a key of link `k`. -/
def packetFor (s : State) (k : Slot) (choice : KeyChoice) (h : Header) (text : List Byte) : List Byte :=
  sealPacket ((s.link k).keyOf choice).1 ((s.link k).keyOf choice).2 h text

/-- A packet without body whose tag belongs to another header. -/
def forgedFor (s : State) (k : Slot) (choice : KeyChoice) (h : Header) : List Byte :=
  headerBytes h ++ tagBytes
    (Config.cipher.encipher ((s.link k).keyOf choice).1
      (((s.link k).keyOf choice).2 ++ (h.flags &&& 1) ++ h.generation ++ h.sequence) { h with format := 2 } []).2

theorem parse_packetFor (s : State) (k : Slot) (choice : KeyChoice) (h : Header) (text : List Byte) :
    parseHeader (packetFor s k choice h text) = h := by
  simp only [packetFor, sealPacket, List.append_assoc, parseHeader_headerBytes]

theorem parse_forgedFor (s : State) (k : Slot) (choice : KeyChoice) (h : Header) :
    parseHeader (forgedFor s k choice h) = h := parseHeader_headerBytes h _

theorem tagBytes_length (t : Tag) : (tagBytes t).length = 16 := leBytes_length 16 _

theorem headerBytes_length (h : Header) : (headerBytes h).length = 12 := by simp [headerBytes]

/-- A packet put together of a header, a ciphertext of its length and a tag gives these parts back. -/
theorem packet_parts (h : Header) (body : List Byte) (tag : Tag) (hl : body.length = h.bodyLength.toNat) :
    let input := headerBytes h ++ (body ++ tagBytes tag)
    parseHeader input = h ∧ bytesAt input 12 (parseHeader input).bodyLength.toNat = body ∧
      BitVec.ofNat 128 (ofLe (bytesAt input (12 + (parseHeader input).bodyLength.toNat) 16)) = tag := by
  intro input
  have hp : parseHeader input = h := parseHeader_headerBytes h _
  refine ⟨hp, ?_, ?_⟩
  · rw [hp]
    exact bytesAt_part (headerBytes_length h) hl
  · have e : input = (headerBytes h ++ body) ++ (tagBytes tag ++ []) := by
      rw [List.append_nil, List.append_assoc]
    rw [hp, e, bytesAt_part (by rw [List.length_append, headerBytes_length, hl]) (tagBytes_length _), tag_read]

theorem text_packetFor (s : State) (k : Slot) (choice : KeyChoice) (h : Header) (text : List Byte)
    (hl : text.length = h.bodyLength.toNat) : inboundText s (packetFor s k choice h text) k choice = some text := by
  generalize hc : encipher ((s.link k).keyOf choice).1 ((s.link k).keyOf choice).2 h text = c
  have hlen : c.1.length = h.bodyLength.toNat := by
    rw [← hc, ← hl]
    exact Config.cipher.encipher_length _ _ _ _
  have hpk : packetFor s k choice h text = headerBytes h ++ (c.1 ++ tagBytes c.2) := by
    rw [← hc, ← List.append_assoc]
    rfl
  obtain ⟨hp, hb, ht⟩ := packet_parts h c.1 c.2 hlen
  rw [hpk]
  unfold inboundText
  simp only [hp] at hb ht ⊢
  rw [hb, ht]
  exact (Config.cipher.decipher_iff _ _ _ _ _ _).2 hc

theorem text_forgedFor (s : State) (k : Slot) (choice : KeyChoice) (h : Header) (hf : h.format = 1)
    (hb : h.bodyLength = 0) : inboundText s (forgedFor s k choice h) k choice = none := by
  generalize hc : Config.cipher.encipher ((s.link k).keyOf choice).1
    (((s.link k).keyOf choice).2 ++ (h.flags &&& 1) ++ h.generation ++ h.sequence) { h with format := 2 } [] = c
  have hnil : c.1 = [] := by
    apply List.eq_nil_of_length_eq_zero
    rw [← hc, Config.cipher.encipher_length]
    rfl
  have hpk : forgedFor s k choice h = headerBytes h ++ ([] ++ tagBytes c.2) := by
    rw [← hc]
    rfl
  obtain ⟨hp, hbody, ht⟩ := packet_parts h [] c.2 (by rw [hb]; rfl)
  rw [hpk]
  unfold inboundText
  simp only [hp] at hbody ht ⊢
  rw [hbody, ht]
  apply Option.eq_none_iff_forall_not_mem.2
  intro text hm
  have verified := (Config.cipher.decipher_iff _ _ _ _ _ _).1 hm
  have made : c = ([], c.2) := by rw [← hnil]
  have same := Config.cipher.encipher_binds_header _ _ _ _ _ _ _ (verified.trans (made.symm.trans hc.symm))
  have format := congrArg Header.format same
  rw [hf] at format
  exact absurd format (show ¬ (1 : Byte) = 2 by decide)

/-- An ENROL block for the branches 90 to 99 with the given profile and wrapped root key. -/
def enrolBlock (profile : Byte) (w : Wrapped) : List Byte :=
  [90, 0, 99, 0, profile, 0, 0, 0, 0, 0, 0, 0, 0, 0, 0, 0] ++ wrappedBytes w

theorem wrapped_enrolBlock (profile : Byte) (w : Wrapped) : (parseLinkBlock (enrolBlock profile w)).wrappedKey = w := by
  have h := bytesAt_part (a := [90, 0, 99, 0, profile, 0, 0, 0, 0, 0, 0, 0, 0, 0, 0, 0]) (b := wrappedBytes w) (c := [])
    (o := 16) (n := 48) rfl (leBytes_length 48 _)
  rw [List.append_nil] at h
  show BitVec.ofNat 384 (ofLe (bytesAt (enrolBlock profile w) 16 48)) = w
  rw [enrolBlock, h, wrapped_read]

theorem unwrap_wrap (m k : Key) (x : Salt) : Config.cipher.unwrap m (Config.cipher.wrap m k x) = some (k, x) :=
  (Config.cipher.unwrap_iff _ _ _ _).2 rfl

/-- A set of more bits does not go one to one into a pair of fewer. -/
theorem no_injection {a b c : Nat} (h : b + c < a) (g : Fin (2 ^ a) → Fin (2 ^ b) × Fin (2 ^ c)) :
    ¬ Function.Injective g := by
  intro hg
  have hc := Fintype.card_le_of_injective g hg
  rw [Fintype.card_prod, Fintype.card_fin, Fintype.card_fin, Fintype.card_fin, ← pow_add] at hc
  exact absurd ((Nat.pow_le_pow_iff_right (by decide)).1 hc) (by omega)

set_option exponentiation.threshold 400 in
/-- Some 48-byte form is the wrapped form of no key and salt: there are more forms than keys and salts. -/
theorem some_form_unwraps_to_none (m : Key) : ∃ w, Config.cipher.unwrap m w = none := by
  by_contra hn
  have hs : ∀ w, ∃ p, Config.cipher.unwrap m w = some p := fun w =>
    Option.ne_none_iff_exists'.1 fun h => hn ⟨w, h⟩
  choose f hf using hs
  apply no_injection (a := 384) (b := 256) (c := 64) (by decide) fun i =>
    ((f (BitVec.ofFin i)).1.toFin, (f (BitVec.ofFin i)).2.toFin)
  intro i j e
  have e1 : (f (BitVec.ofFin i)).1 = (f (BitVec.ofFin j)).1 := BitVec.toFin_inj.1 (congrArg Prod.fst e)
  have e2 : (f (BitVec.ofFin i)).2 = (f (BitVec.ofFin j)).2 := BitVec.toFin_inj.1 (congrArg Prod.snd e)
  have hi := (Config.cipher.unwrap_iff m _ _ _).1 (hf (BitVec.ofFin i))
  have hj := (Config.cipher.unwrap_iff m _ _ _).1 (hf (BitVec.ofFin j))
  rw [e1, e2] at hi
  exact congrArg BitVec.toFin (hi.symm.trans hj)

/-! ## Witnesses: states and operands that meet the hypotheses of each statement

One theorem for each statement that has hypotheses, named after it. Its parts are the hypotheses of the statement's
clauses in their order, at a boundary value where a clause has a range. -/

theorem bed_ready : bed.ready .a := by unfold State.ready; decide +kernel

theorem plain_clean : cleanEnv .plain := by unfold cleanEnv; decide

theorem witness_StepRunsFrontCommand :
    ({ bed with pending := [.runClear, .periodMark] } : State).pending = .runClear :: [.periodMark] := rfl

theorem witness_TheTimebasePasses :
    (State.reset.pending = [] ∧ State.reset.timebaseRuns = false) ∧
      (bed.pending = [] ∧ ({ bed with phase := 998 } : State).timebaseRuns = true ∧ 998 + 1 < bed.settings.period) ∧
      (({ bed with phase := 999 } : State).timebaseRuns = true ∧ bed.settings.period ≤ 999 + 1) ∧
      (bed.resetn = true ∧ bed.engine ≠ .starting ∧ State.reset.resetn = true ∧ State.reset.engine = .starting ∧
        isTimed (.scrubStep .plain) = true) := by decide +kernel

theorem witness_TheTimebasePasses_parts : (∀ o ∈ bed.bus, o = .done) ∧ bed.timebaseRuns = true := by decide +kernel

theorem witness_EveryCommandCompletes :
    (bed.bus = [] ∧ bed.noise = []) ∧
      ({ bed with resetn := false } : State).resetn = false ∧ actsInReset (.handover .a 64 .plain) = false := by
  decide +kernel

theorem witness_EachFieldHasItsWriters :
    isReset (.periodMarkAtLink 2 .plain) = false ∧ (∀ landed, .fall landed ∉ (envOf (.periodMarkAtLink 2 .plain)).bus) ∧
      ∃ t, exec (.periodMarkAtLink 2 .plain) bed = .next t := ⟨rfl, fun _ => List.not_mem_nil, _, rfl⟩

theorem witness_HostMemoryAndBoardKeepUp :
    let s := { bed with boardBase := some 0x10000 }
    (bed.resetn = true ∧ cleanEnv (envOf (.readDevice (entry 0 0 64) .plain)) ∧
      ∃ t, exec (.readDevice (entry 0 0 64) .plain) bed = .next t ∧ t.posted.length = 2) ∧
      (s.resetn = true ∧ cleanEnv (envOf (.hold (entry 2 0 0) .plain)) ∧
        ∃ t, exec (.hold (entry 2 0 0) .plain) s = .next t ∧ slotChanged s t 2 = true) ∧
      ((bed.link 0).state = .vacant ∧ (bed.link 2).state ≠ .vacant ∧ bed.recordOf 2 = none ∧ bed.recordOf 3 = some 0 ∧
        (bed.link 2).shopCodes = [] ∧
        ((bedWith 2 fun l => { l with shopCodes := [⟨0x8005, 1⟩] }).link 2).shopCodes.head? = some ⟨0x8005, 1⟩) := by
  refine ⟨⟨rfl, plain_clean, _, rfl, ?_⟩, ⟨rfl, plain_clean, _, rfl, ?_⟩, ?_⟩ <;> decide +kernel

/-- A write of two bytes round the end of the address space, and an address that it does not cover. -/
theorem witness_HostMemoryAndBoardKeepUp_bytes :
    let w : HostWrite := ⟨0xFFFFFFFFFFFFFFFF, [1, 2]⟩
    w.bytes.length ≤ 2 ^ 64 ∧ 1 < w.bytes.length ∧ ¬ w.covers 1 := by
  refine ⟨by decide, by decide, ?_⟩
  rintro ⟨i, hi, e⟩
  have : ∀ i, i < 2 → 1 ≠ ((0xFFFFFFFFFFFFFFFF : Address) + BitVec.ofNat 64 i).toNat := by decide
  exact this i hi e

theorem witness_ResetnFallEndsTheAccesses :
    bed.resetn = true ∧ cleanEnv (envOf (.readLink (entry 8 0 128) .plain)) ∧
      ∃ t, exec (.readLink (entry 8 0 128) .plain) bed = .next t ∧ t.posted.length = 2 := by
  refine ⟨rfl, plain_clean, _, rfl, ?_⟩
  decide +kernel

/-- The last part runs a window over the packets of section 2.3. -/
theorem witness_WindowsAcceptEachSequenceOnce :
    let w : Window := ⟨70, 1⟩
    w.high < 71 ∧ (70 ≤ w.high ∧ w.high < 70 + 64 ∧ w.marked 70) ∧ (7 ≤ w.high ∧ w.high < 7 + 64 ∧ ¬ w.marked 7) ∧
      6 + 64 ≤ w.high ∧ (Window.mk 63 1).high < 64 ∧ windowTest w 71 = .passes ∧ windowTest w 7 = .passes ∧
      acceptedBy .empty [3, 1, 3, 70, 5, 7, 6, 71, 7] = [3, 1, 70, 7, 71] := by
  simp only [Window.marked]
  decide +kernel

/-- The ciphertext of a packet, as its header gives its length. -/
def bodyOf (input : List Byte) : List Byte := bytesAt input 12 (parseHeader input).bodyLength.toNat

/-- The tag of a packet. -/
def tagOf (input : List Byte) : Tag := BitVec.ofNat 128 (ofLe (bytesAt input (12 + (parseHeader input).bodyLength.toNat) 16))

/-- For any header, ciphertext of its length and tag there is a packet of these parts. -/
theorem packet_of_parts (h : Header) (body : List Byte) (tag : Tag) (hl : body.length = h.bodyLength.toNat) :
    ∃ input, parseHeader input = h ∧ bodyOf input = body ∧ tagOf input = tag :=
  ⟨headerBytes h ++ (body ++ tagBytes tag), packet_parts h body tag hl⟩

/-- A packet without body that carries the tag which a key, a salt and a header give. -/
theorem empty_packet (key : Key) (salt : Salt) (g h : Header) (hl : h.bodyLength = 0) :
    ∃ input, parseHeader input = h ∧ encipher key salt g [] = (bodyOf input, tagOf input) := by
  obtain ⟨input, hh, hb, ht⟩ := packet_of_parts h [] (encipher key salt g []).2 (by rw [hl]; rfl)
  refine ⟨input, hh, Prod.ext ?_ ht.symm⟩
  rw [hb]
  exact List.eq_nil_of_length_eq_zero (Config.cipher.encipher_length _ _ _ _)

/-- The test state with one key and salt for the CURRENT slot of link 2, and another key for record 0. -/
def keyed (key : Key) (salt : Salt) : State :=
  { bedWith 2 fun l => { l with current := { l.current with key := key, salt := salt } } with
    records := bed.records.set 0 ⟨.waitingReply, 3, 5, key, 9, 10, 1, false, 3, .none⟩ }

theorem keyed_key (key : Key) (salt : Salt) : ((keyed key salt).link 2).keyOf .current = (key, salt) := rfl

theorem witness_CipherBindsKeyAndText :
    let key := ((bed.link 2).keyOf .current).1
    let salt := ((bed.link 2).keyOf .current).2
    (∃ input x g p, encipher key x g p = (bodyOf input, tagOf input) ∧ g ≠ parseHeader input) ∧
      (∃ input p t, encipher key salt (parseHeader input) p = (bodyOf input, t) ∧ tagOf input ≠ t) ∧
      (∃ input p c i b, encipher key salt (parseHeader input) p = (c, tagOf input) ∧ bodyOf input = c.set i b ∧
        bodyOf input ≠ c) ∧
      (∃ k k' : Key, k' ≠ k ∧ Config.cipher.keyInUse k ∧ Config.cipher.keyInUse k' ∧ Config.cipher.saltInUse 0 ∧
        ((keyed k 0).link 2).keyOf .current = (k, 0) ∧
        (∃ input, encipher k' 0 (parseHeader input) [] = (bodyOf input, tagOf input)) ∧
        (keyed k 0).recordOf 3 = some 0 ∧ (keyed k 0).records[0].key = k ∧ (11 : AttemptNonce) ≠ (keyed k 0).records[0].nonce ∧
        (6 : Byte) ≠ BitVec.ofNat 8 (keyed k 0).records[0].generation) ∧
      ∃ (k : Key) (x : Salt), x ≠ 0 ∧ Config.cipher.keyInUse k ∧ Config.cipher.saltInUse x ∧
        ((keyed k 0).link 2).keyOf .current = (k, 0) ∧
        ∃ input, encipher k x (parseHeader input) [] = (bodyOf input, tagOf input) := by
  obtain ⟨k, k', hne, hk, hk'⟩ := Config.cipher.keys_in_use
  obtain ⟨h0, x, hx, hxu⟩ := Config.cipher.salts_in_use
  let h : Header := ⟨1, 1, 4, 1, 20, 0, 1⟩
  let h1 : Header := ⟨1, 1, 4, 1, 20, 1, 1⟩
  refine ⟨?_, ?_, ?_, ⟨k, k', hne.symm, hk, hk', h0, keyed_key k 0, ?_, rfl, rfl, show (11 : AttemptNonce) ≠ 10 by decide,
    show (6 : Byte) ≠ BitVec.ofNat 8 5 by decide⟩, k, x, hx, hk, hxu, keyed_key k 0, ?_⟩
  · obtain ⟨input, hh, he⟩ := empty_packet ((bed.link 2).keyOf .current).1 0 ⟨2, 1, 4, 1, 20, 0, 1⟩ h rfl
    exact ⟨input, 0, _, [], he, by rw [hh]; decide⟩
  · generalize hc : encipher ((bed.link 2).keyOf .current).1 ((bed.link 2).keyOf .current).2 h [] = c
    have hl : c.1.length = h.bodyLength.toNat := by rw [← hc]; exact Config.cipher.encipher_length _ _ _ _
    obtain ⟨input, hh, hb, ht⟩ := packet_of_parts h c.1 (c.2 + 1) hl
    refine ⟨input, [], c.2, by rw [hh, hb, hc], ?_⟩
    rw [ht]
    intro e
    exact absurd (BitVec.add_right_eq_self.1 e) (by decide)
  · generalize hc : encipher ((bed.link 2).keyOf .current).1 ((bed.link 2).keyOf .current).2 h1 [0] = c
    have hl : c.1.length = 1 := by rw [← hc]; exact Config.cipher.encipher_length _ _ _ _
    obtain ⟨v, hv⟩ := List.length_eq_one_iff.1 hl
    obtain ⟨input, hh, hb, ht⟩ := packet_of_parts h1 (c.1.set 0 (v + 1)) c.2 (by rw [List.length_set, hl]; rfl)
    refine ⟨input, [0], c.1, 0, v + 1, by rw [hh, ht, hc], hb, ?_⟩
    rw [hb, hv]
    intro e
    exact absurd (BitVec.add_right_eq_self.1 (List.cons.inj e).1) (by decide)
  · obtain ⟨input, hh, he⟩ := empty_packet k' 0 h h rfl
    exact ⟨input, by rw [hh]; exact he⟩
  · obtain ⟨input, hh, he⟩ := empty_packet k x h h rfl
    exact ⟨input, by rw [hh]; exact he⟩

/-! ### Invariants -/

theorem witness_TablesStayCanonical : bed.tablesOk ∧ ∃ t, step bed = .next t := by
  unfold State.tablesOk
  exact ⟨by decide +kernel, _, rfl⟩

theorem witness_QueueKeepsItsLimits :
    queueOk [.offer 7 [], .notice ⟨some 7, .link .tagFail, .raised, 6, 230, false⟩, deviceNotice .busFault] ∧
      ∃ t, step { bed with
        queue := [.offer 7 [], .notice ⟨some 7, .link .tagFail, .raised, 6, 230, false⟩, deviceNotice .busFault] }
        = .next t := by
  unfold queueOk
  exact ⟨by decide +kernel, _, rfl⟩

theorem bed_engineOk : bed.engineOk := by
  unfold State.engineOk State.firstWaitingOk Batch.ok
  refine ⟨?_, ?_, ⟨fun id h => absurd h (by cases id <;> decide +kernel), ?_⟩, ?_, show bed.faultStop = false ∧ bed.inService? ≠ none from ?_⟩ <;>
    decide +kernel

theorem witness_EngineFollowsTheBatches : bed.engineOk ∧ bed.workBaseOk ∧ ∃ t, step bed = .next t :=
  ⟨bed_engineOk, rfl, _, rfl⟩

/-- Each slot of the test state that is not listed is VACANT. -/
theorem bed_unlisted (k : Slot) (h : ¬ (1 ≤ k.val ∧ k.val ≤ 8)) : bed.link k = .vacant := by
  have : ∀ k : Slot, ¬ (1 ≤ k.val ∧ k.val ≤ 8) → tableGet bed.links k.val = none := by decide +kernel
  unfold State.link
  rw [this k h]
  rfl

/-- What holds of the VACANT record and of the eight listed slots holds of every slot of the test state. -/
theorem bed_all (p : Link → Prop) (h0 : p .vacant)
    (h : ∀ k ∈ ([1, 2, 3, 4, 5, 6, 7, 8] : List Slot), p (bed.link k)) : ∀ k, p (bed.link k) := by
  intro k
  by_cases hk : 1 ≤ k.val ∧ k.val ≤ 8
  · have : ∀ k : Slot, 1 ≤ k.val ∧ k.val ≤ 8 → k ∈ ([1, 2, 3, 4, 5, 6, 7, 8] : List Slot) := by decide +kernel
    exact h k (this k hk)
  · rw [bed_unlisted k hk]
    exact h0

/-- `Link.keysAgree` as a Bool. -/
def keysAgreeB (l : Link) : Bool :=
  (l.retiring.state = .inUse || (l.retiring = .empty && l.retireTimer = 0)) &&
    match l.state with
    | .vacant => l.current = .empty && l.nextSequence = 0 && l.retiring = .empty && l.rootKey = 0 && l.rootSequence = 0
    | .standby => l.current = .empty && l.nextSequence = 0 && l.retiring = .empty
    | .live => l.current.state = .inUse
    | .stalled => l.current.state = .spent && l.current.key = 0 && l.current.salt = 0 && l.current.window = .empty
    | .quarantined =>
      l.current = .empty && l.nextSequence = 0 && l.retiring = .empty && l.rootKey = 0 && l.rootSequence = 0

theorem keysAgreeB_sound (l : Link) (h : keysAgreeB l = true) : l.keysAgree := by
  unfold keysAgreeB at h
  unfold Link.keysAgree
  cases hs : l.state <;> simp only [hs, Bool.and_eq_true, Bool.or_eq_true, decide_eq_true_eq] at h ⊢ <;> tauto

theorem bed_keysAgree : bed.keysAgree := by
  refine bed_all Link.keysAgree (keysAgreeB_sound _ (by decide +kernel)) fun k hk => keysAgreeB_sound _ ?_
  have : ∀ k ∈ ([1, 2, 3, 4, 5, 6, 7, 8] : List Slot), keysAgreeB (bed.link k) = true := by decide +kernel
  exact this k hk

theorem bed_turnoverOk : bed.TurnoverOk := by constructor <;> (try unfold State.inUse) <;> decide +kernel

theorem bed_mapOk : bed.MapOk := by constructor <;> decide +kernel

/-- The last state has KEY_SPENT active at slot 3, which is STALLED. -/
theorem witness_KeysAgreeWithLinkStates :
    (bed.keysAgree ∧ ∃ t, step bed = .next t) ∧ (bed.MapOk ∧ bed.rooted) ∧
      (let s := bedWith 3 fun l => { l with kinds := l.kinds.set 4 ⟨true, 1, false⟩ }
       s.keySpentOk ∧ ∃ t, step s = .next t) := by
  refine ⟨⟨bed_keysAgree, _, rfl⟩, ⟨bed_mapOk, ?_⟩, ?_, _, rfl⟩
  · unfold State.rooted
    decide +kernel
  · unfold State.keySpentOk
    decide +kernel

theorem witness_TurnoverStaysMirrored : bed.TurnoverOk ∧ ∃ t, step bed = .next t := ⟨bed_turnoverOk, _, rfl⟩

theorem terms_inRange : terms.inRange := by
  constructor
  case rates =>
    intro r
    cases r <;> constructor <;> decide
  all_goals decide

theorem witness_KeysStayBelowTheirLimits : bed.limitsOk ∧ ∃ t, step bed = .next t := by
  refine ⟨⟨?_, ?_⟩, _, rfl⟩
  · intro p hp
    have : ∀ p : ProfileNumber, bed.profiles[p].valid = true → p = 0 := by decide +kernel
    rw [this p hp]
    exact terms_inRange
  · unfold KeySlot.belowLimits
    exact bed_all (fun l => (l.current.state = .inUse → l.current.use + 97 < l.current.budget ∧ l.current.age < l.current.ageLimit) ∧
      (l.retiring.state = .inUse → l.retiring.use + 97 < l.retiring.budget ∧ l.retiring.age < l.retiring.ageLimit))
      (by decide +kernel) (by decide +kernel)

theorem witness_BranchMapMatchesTheRecords : bed.MapOk ∧ bed.keysAgree ∧ ∃ t, step bed = .next t :=
  ⟨bed_mapOk, bed_keysAgree, _, rfl⟩

theorem witness_CheckCodesStayTrue : bed.codesOk ∧ bed.keysAgree ∧ bed.MapOk ∧ ∃ t, step bed = .next t := by
  refine ⟨bed_all (fun l => l.state ≠ .vacant → l.checkCode = freshCode l) (fun h => absurd rfl h) ?_, bed_keysAgree, bed_mapOk,
    _, rfl⟩
  decide +kernel

/-- Two links whose covered strings differ in their last byte, the profile, and two that differ in 32 bits of the root
key. -/
theorem witness_CheckCodesStayTrue_burst :
    let l := bed.link 2
    let bits (l : Link) := crcInput (coveredString l)
    (let m := { l with profile := 15 }
     let old := (bits l).drop 944
     let new := (bits m).drop 944
     bits l = (bits l).take 944 ++ old ++ [] ∧ bits m = (bits l).take 944 ++ new ++ [] ∧ old.length = new.length ∧
       new.length ≤ 32 ∧ old ≠ new) ∧
      (let m := { l with rootKey := 0xFFFFFFF6 }
       let old := (bits l).take 32
       let new := (bits m).take 32
       bits l = [] ++ old ++ (bits l).drop 32 ∧ bits m = [] ++ new ++ (bits l).drop 32 ∧ old.length = new.length ∧
         new.length = 32 ∧ old ≠ new) := by decide +kernel

/-! ### Resets, start-up, pins and registers -/

theorem witness_StartUpEndsStopped :
    let s := State.reset
    let env : Env := ⟨[], [1, 1]⟩
    s.resetn = true ∧ s.engine = .starting ∧ s.bothFree = true ∧ s.boardBase = none ∧ s.queue = [] ∧
      s.device = ⟨0, false, false, false, false, false, false⟩ ∧ env.noise = 1 :: 1 :: [] := by decide +kernel

/-- The bytes of a settings block at the ends of their ranges and past them. -/
theorem witness_StartUpEndsStopped_settings :
    let field (block : List Byte) (offset size : Nat) := ofLe (bytesAt block offset size)
    let blank := zeroBytes 64
    let low : List Byte := [100, 0, 0, 0, 32, 1, 1]
    let high : List Byte := [0x60, 0xEA, 0, 0, 33, 2, 2]
    let past : List Byte := [0x61, 0xEA, 0, 0]
    (field blank 0 4 < 100 ∧ field blank 4 1 ≤ 32 ∧ field blank 5 1 ≠ 1 ∧ field blank 6 1 ≠ 1) ∧
      (field low 0 4 = 100 ∧ field low 4 1 = 32 ∧ field low 5 1 = 1 ∧ field low 6 1 = 1) ∧
      (field high 0 4 = 60000 ∧ 32 < field high 4 1 ∧ field high 5 1 ≠ 1 ∧ field high 6 1 ≠ 1) ∧
      60000 < field past 0 4 := by decide +kernel

theorem witness_RestartKeepsTheLinks :
    let env : Env := ⟨[], [1, 1]⟩
    bed.resetn = true ∧ cleanEnv env ∧ env.noise = 1 :: 1 :: [] ∧ bed.engine ≠ .starting ∧
      State.reset.resetn = true ∧ State.reset.engine = .starting := by
  unfold cleanEnv
  decide +kernel

theorem witness_QuiesceEdges :
    cleanEnv .plain ∧ (bed.resetn = true ∧ bed.engine ≠ .starting) ∧
      (State.reset.resetn = true ∧ State.reset.engine = .starting) ∧
      ({ bed with resetn := false } : State).resetn = false ∧ ({ bed with quiesce := true } : State).quiesce = true ∧
      bed.quiesce = false := by
  unfold cleanEnv
  decide +kernel

theorem witness_TheRegisterWindow :
    (bed.batchA.state ≠ .free ∧ bed.batchB.state = .free ∧ State.reset.batchA.state = .free ∧
      ({ bed with batchB := ⟨.waiting, 0⟩ } : State).batchB.state ≠ .free) ∧
      (({ bed with resetn := false } : State).resetn = false ∧ State.reset.engine = .starting ∧ bed.resetn = true ∧
        bed.engine ≠ .starting) ∧
      (∀ d p, ({ bed with settings := ⟨1000, 16, d, p, .block⟩ } : State).settings.drive = d ∧
        ({ bed with settings := ⟨1000, 16, d, p, .block⟩ } : State).settings.polarity = p) ∧
      bed.bothFree = false ∧ State.reset.resetn = true ∧ State.reset.bothFree = true :=
  ⟨by decide +kernel, by decide +kernel, fun _ _ => ⟨rfl, rfl⟩, rfl, rfl, rfl⟩

/-- The clauses of a CONTROL write: the bits of the value, and RUN as it stands once mask and ABANDON are taken. -/
theorem witness_TheRegisterWindow_control :
    let before (value : Word) (s : State) : State :=
      let masked := beginEvent .plain { s with mask := value.extractLsb' 8 5 }
      if value.getLsbD 1 then takeAbandon masked else masked
    let stopped := { bed with run := false, engine := .stopped, batchA := ⟨.free, 0⟩ }
    bed.resetn = true ∧ (4 : Word).getLsbD 2 = true ∧
      ((0x1F01 : Word).getLsbD 2 = false ∧ (0x1F01 : Word).getLsbD 1 = false ∧ (0x1F01 : Word).getLsbD 0 = bed.run) ∧
      ((3 : Word).getLsbD 2 = false ∧ (3 : Word).getLsbD 0 = (before 3 bed).run) ∧
      ((2 : Word).getLsbD 0 = false ∧ (before 2 bed).run = true ∧ (before 0 bed).run = true) ∧
      ((1 : Word).getLsbD 0 = true ∧ (before 1 State.reset).run = false ∧ (before 1 State.reset).engine = .starting ∧
        (before 1 { stopped with faultStop := true }).faultStop = true ∧
        (before 1 { stopped with faultStop := true }).run = false) ∧
      (before 1 stopped).run = false ∧ (before 1 stopped).engine ≠ .starting ∧ (before 1 stopped).faultStop = false := by
  decide +kernel

theorem witness_HandoverTakesTheBatch :
    bed.resetn = true ∧ cleanEnv .plain ∧ State.reset.engine = .starting ∧ (bed.batch .a).state ≠ .free ∧
      (bed.engine = .serving ∧ (bed.batch .b).state = .free) ∧
      (let s := { bed with engine := .stopped, run := false, batchA := ⟨.free, 0⟩ }
       s.engine = .stopped ∧ (s.batch .a).state = .free) ∧
      (let s := { bed with engine := .idle, batchA := ⟨.free, 0⟩ }
       s.engine = .idle ∧ (s.batch .a).state = .free) := by
  unfold cleanEnv
  decide +kernel

theorem witness_RunAndServiceStart :
    bed.resetn = true ∧ cleanEnv .plain ∧ bed.run = true ∧ (State.reset.run = false ∧ State.reset.engine = .starting) ∧
      (let s := { bed with run := false, faultStop := true, engine := .stopped }
       s.run = false ∧ s.faultStop = true) ∧
      (let s := { bed with run := false }
       s.run = false ∧ s.faultStop = false ∧ s.engine = .serving) ∧
      (let s := { bed with run := false, engine := .stopped, batchA := ⟨.free, 0⟩ }
       s.run = false ∧ s.faultStop = false ∧ s.engine = .stopped ∧ s.firstWaiting = none) ∧
      (let s := { bed with run := false, engine := .stopped, batchA := ⟨.waiting, 64⟩, firstWaiting := some .a }
       s.run = false ∧ s.faultStop = false ∧ s.engine = .stopped ∧ s.firstWaiting = some .a) ∧
      (let s := { bed with engine := .idle, batchA := ⟨.waiting, 64⟩, firstWaiting := some .a }
       s.resetn = true ∧ s.run = true ∧ s.faultStop = false ∧ s.inService? = none ∧ s.engine ≠ .starting ∧
         s.firstWaiting = some .a ∧ (s.batch .a).state = .waiting) ∧
      bed.startable? = none := by
  unfold cleanEnv
  decide +kernel

/-! ### The Batch Engine -/

theorem witness_BatchCloseDeliversAndFrees :
    (let s := { bed with nextIndex := 4, entriesDone := 4 }
     s.resetn = true ∧ s.closing? = some .a ∧ s.run = true ∧ (s.batch .b).state ≠ .waiting) ∧
      (let s := { bed with nextIndex := 4, entriesDone := 4, batchB := ⟨.waiting, 0⟩, quiesce := true }
       s.closing? = some .a ∧ s.run = true ∧ (s.batch .b).state = .waiting ∧ s.quiesce = true) ∧
      (let s := { bed with nextIndex := 4, entriesDone := 4, run := false }
       s.closing? = some .a ∧ s.run = false) ∧
      cleanEnv .plain := by
  unfold cleanEnv
  decide +kernel

/-- The items of the layout clauses, and the records that a delivery finds or does not. -/
theorem witness_BatchCloseDeliversAndFrees_items :
    (zeroBytes 86).length = 86 ∧ bed.recordOf 2 = none ∧ bed.recordOf 3 = some 0 ∧
      (let n : Notice := ⟨some 511, .link .storeCorrupt, .cleared, 65535, 65535, true⟩
       n.link = some 511 ∧ n.kind = .link .storeCorrupt ∧ n.edge = .cleared) ∧
      (let n : Notice := ⟨none, .device .busFault, .raised, 0, 0, false⟩
       n.link = none ∧ n.kind = .device .busFault ∧ n.edge = .raised) := by decide +kernel

/-- A close that leaves both batches FREE with an item on the queue, and the states that the end of a close finds. -/
theorem witness_BatchCloseDeliversAndFrees_collect :
    after (.batchClose .plain)
      { bed with
        nextIndex := 4, entriesDone := 4, quiesce := true, settings := { Settings.defaults with tailRoom := 1 }
        queue := [.offer 9 [], deviceNotice .busFault] }
      (fun t => t.bothFree && t.queue ≠ []) = true ∧
      (State.reset.bothFree = true ∧ State.reset.queue = [] ∧ State.reset.run = false ∧ bed.bothFree = false) ∧
      (let s := { State.reset with queue := [deviceNotice .busFault] }
       s.bothFree = true ∧ s.queue ≠ []) ∧
      (let s := { bed with batchB := ⟨.waiting, 64⟩ }
       s.run = true ∧ (s.batch (otherBatch .a)).state = .waiting ∧ ∀ o ∈ s.bus, o = .done) ∧
      (bed.batch (otherBatch .a)).state ≠ .waiting := by decide +kernel

theorem witness_AbandonSkipsAndCloses :
    bed.resetn = true ∧ bed.engine = .serving ∧ bed.inService? = some .a ∧ cleanEnv .plain ∧
      ({ bed with engine := .idle, batchA := ⟨.free, 0⟩ } : State).inService? = none := by
  unfold cleanEnv
  decide +kernel

theorem witness_EntriesByKind :
    (zeroBytes 4).length = 4 ∧ (kindNamesRequest 0 = false ∧ kindNamesRequest 13 = false) ∧
      (bed.ready .a ∧ cleanEnv .plain) ∧
      (State.reset.resetn = true ∧ isEntry (.badRequest 0 (entry 0 0 0) .plain) = true ∧ State.reset.serving? = none ∧
        bed.closing? = none) := by
  refine ⟨rfl, by decide, ⟨bed_ready, plain_clean⟩, ?_⟩
  decide +kernel

theorem witness_EntriesByKind_bytes : (0 : Nat) < 4 ∧ 3 < 4 := by decide

/-- Entries whose result is not written, and entries that are not read; and the SKIPPED results of the three entries after the
first, from the first of them to the last. -/
theorem witness_EntryErrorsStopOrAbandon :
    bed.ready .a ∧
      (let c : Instr := .hold (entry 2 0 0) .plain
       isEntry c = true ∧ cleanEnv (envOf c) ∧ ∃ t, exec c bed = .next t) ∧
      (let c : Instr := .retire (entry 2 0 0) ⟨[.error 0], []⟩
       isEntry c = true ∧ (envOf c).bus = [.error 0]) ∧
      (let own := raiseDevice .busFault (bed.begun .plain)
       0 < (skipWrites own.faulted .a).length ∧ 2 < (skipWrites own.faulted .a).length) := by
  refine ⟨bed_ready, ⟨rfl, plain_clean, _, rfl⟩, ⟨rfl, rfl⟩, ?_⟩
  decide +kernel

/-- Entries whose input buffer is not read: plaintexts of the shortest and the longest length, a header, and a parameter
block. -/
theorem witness_EntryErrorsStopOrAbandon_inputs :
    (Env.mk [.done, .error 5] []).bus = [.done, .error 5] ∧ (Env.mk [.done, .done, .error 5] []).bus = [.done, .done, .error 5] ∧
      (∀ n : BitVec 32, n = 1 ∨ n = 1536 →
        let e := entry 29 n (n + 28)
        1 ≤ e.inputLength.toNat ∧ e.inputLength.toNat ≤ 1536 ∧ e.inputLength.toNat + 28 ≤ e.outputRoom.toNat ∧
          lookupBranch bed.branchMap e.slotField.toNat = some 2 ∧ (bed.link 2).state = .live ∧
          (bed.link 2).hostHold = false ∧ (bed.link 2).supervisorHold = false ∧ bed.quiesce = false) ∧
      28 ≤ (entry 0 28 0).inputLength.toNat ∧ (entry 511 64 0).inputLength.toNat = 64 ∧
      (entry 511 64 0).slotField.toNat = (511 : Slot).val := by
  refine ⟨rfl, rfl, ?_, ?_⟩
  · intro n hn
    rcases hn with rfl | rfl <;> decide +kernel
  · decide +kernel

/-- Header writes that fail at the start of a service, and SKIPPED results that an ABANDON does not write, the first and the
last. -/
theorem witness_HeaderAndTailErrors_starts :
    (let s := { bed with engine := .idle, batchA := ⟨.free, 0⟩ }
     s.resetn = true ∧ s.engine = .idle ∧ (s.batch .a).state = .free ∧ (Env.mk [.error 0] []).bus = .error 0 :: []) ∧
      (let s := { bed with run := false, engine := .stopped, batchA := ⟨.waiting, 64⟩, firstWaiting := some .a }
       s.resetn = true ∧ s.run = false ∧ s.faultStop = false ∧ s.engine = .stopped ∧ s.firstWaiting = some .a) ∧
      (let s := { bed with engine := .idle, batchA := ⟨.waiting, 0⟩, firstWaiting := some .a }
       s.resetn = true ∧ s.startable? = some .a) ∧
      (bed.resetn = true ∧ bed.engine = .serving ∧ bed.inService? = some .a ∧ 0 < (skipWrites bed .a).length ∧
        3 < (skipWrites bed .a).length ∧
        (Env.mk [.done, .done, .done, .error 5] []).bus = List.replicate 3 .done ++ [.error 5]) := by decide +kernel

/-- A state that comes to the close of batch A by every command: one tail item short of the queue, with batch B waiting. -/
def closing : State :=
  { bed with
    nextIndex := 4, entriesDone := 4, quiesce := true, queue := [.offer 7 (zeroBytes 86), deviceNotice .busFault]
    batchB := ⟨.waiting, 0⟩, device := { bed.device with busFault := true } }

/-- The three ways to a close: each has tail items to fail at, the first and the last, and a waiting batch that it goes on
to. -/
theorem witness_HeaderAndTailErrors :
    let lasts (s u : State) := 0 < (tailItems u).length ∧ (tailItems u).length = 2 ∧ s.resetn = true ∧ s.run = true ∧
      (s.batch .b).state = .waiting ∧ s.quiesce = true ∧ u.device.busFault = true
    let serving := { closing with nextIndex := 0, entriesDone := 0 }
    (∃ c lead made shown u, c = .batchClose .plain ∧ ComesToClose .a closing c lead made shown u ∧ lasts closing u) ∧
      (∃ c lead made shown u, c = .abandon .plain ∧ ComesToClose .a serving c lead made shown u ∧ lasts serving u) ∧
      ∃ c lead made shown u, c = .hold (entry 2 0 0) .plain ∧ ComesToClose .a serving c lead made shown u ∧
        lasts serving u :=
  ⟨⟨_, _, _, _, _, rfl, .close .plain rfl, by decide +kernel⟩,
    ⟨_, _, _, _, _, rfl, .abandon .plain rfl rfl, by decide +kernel⟩,
    _, _, _, _, _, rfl, .entry _ 0 _ rfl rfl rfl, by decide +kernel⟩

/-! ### OUTBOUND and INBOUND -/

theorem witness_OutboundRefusals :
    bed.ready .a ∧ cleanEnv .plain ∧ 1536 < (entry 20 1537 9999).inputLength.toNat ∧
      ((entry 20 1536 1563).inputLength.toNat ≤ 1536 ∧ (entry 20 1536 1563).outputRoom.toNat < 1536 + 28) ∧
      (1536 + 28 ≤ (entry 20 1536 1564).outputRoom.toNat ∧ lookupBranch bed.branchMap 90 = none) ∧
      (lookupBranch bed.branchMap 40 = some 4 ∧ (bed.link 4).state = .quarantined) ∧
      (lookupBranch bed.branchMap 19 = some 1 ∧ (bed.link 1).state = .standby) ∧
      (let s := { bed with branchMap := [⟨90, 99, 9⟩] }
       lookupBranch s.branchMap 99 = some 9 ∧ (s.link 9).state = .vacant) ∧
      (lookupBranch bed.branchMap 30 = some 3 ∧ (bed.link 3).state = .stalled) ∧
      (lookupBranch bed.branchMap 29 = some 2 ∧ ∀ host supervisor,
        let l := (bedWith 2 fun l => { l with hostHold := host, supervisorHold := supervisor }).link 2
        l.state = .live ∧ l.hostHold = host ∧ l.supervisorHold = supervisor) ∧
      ({ bed with quiesce := true } : State).quiesce = true := by
  unfold State.ready cleanEnv
  decide +kernel

theorem witness_OutboundEnciphersAndCharges :
    bed.ready .a ∧ cleanEnv .plain ∧ (entry 20 1536 1564).inputLength.toNat = 1536 ∧
      1536 + 28 ≤ (entry 20 1536 1564).outputRoom.toNat ∧ lookupBranch bed.branchMap 20 = some 2 ∧
      (bed.link 2).state = .live ∧ (bed.link 2).current.state = .inUse ∧ (bed.link 2).hostHold = false ∧
      (bed.link 2).supervisorHold = false ∧ bed.quiesce = false := by
  unfold State.ready cleanEnv
  decide +kernel

/-- A header from the far end for branch `b`. -/
def header (class_ generation : Byte) (b : BitVec 16) (length : BitVec 16) (sequence : BitVec 32) : Header :=
  ⟨1, class_, generation, 1, b, length, sequence⟩

theorem witness_InboundRefusedBeforeTheRecord :
    bed.ready .a ∧ cleanEnv .plain ∧ (entry 0 27 0).inputLength.toNat < 28 ∧
      (28 ≤ (entry 0 28 0).inputLength.toNat ∧ (parseHeader [2]).format ≠ 1) ∧
      ((parseHeader [1, 3]).format = 1 ∧ ¬ ((parseHeader [1, 3]).class_ = 1 ∨ (parseHeader [1, 3]).class_ = 2)) ∧
      (let h := parseHeader [1, 1, 4, 1, 0, 20, 0, 1, 0, 0, 0, 1]
       h.format = 1 ∧ h.class_ = 1 ∧ (entry 0 28 0).inputLength.toNat ≠ 28 + h.bodyLength.toNat) ∧
      (let h := parseHeader [1, 2, 0, 3, 0, 20, 0, 0, 0, 0, 0, 1]
       h.format = 1 ∧ h.class_ = 2 ∧ 28 = 28 + h.bodyLength.toNat ∧ h.flags ≠ 1) ∧
      (let h := parseHeader [1, 1, 4, 1, 0, 20, 6, 1, 0, 0, 0, 1]
       (entry 0 1565 0).inputLength.toNat = 28 + h.bodyLength.toNat ∧ h.flags = 1 ∧ 1536 < h.bodyLength.toNat) ∧
      (let h := parseHeader [1, 1, 4, 1, 0, 20, 6, 0, 0, 0, 0, 0]
       (entry 0 1564 0).inputLength.toNat = 28 + h.bodyLength.toNat ∧ h.bodyLength.toNat ≤ 1536 ∧ h.sequence = 0) ∧
      (let h := parseHeader [1, 1, 4, 1, 0, 20, 6, 0, 0, 0, 0, 1]
       (entry 0 1564 1535).inputLength.toNat = 28 + h.bodyLength.toNat ∧ h.sequence ≠ 0 ∧
         (entry 0 1564 1535).outputRoom.toNat < h.bodyLength.toNat) ∧
      (let input := [1, 1, 4, 1, 0, 90, 6, 0, 0, 0, 0, 1]
       headerGood (parseHeader input) (entry 0 1564 1536) ∧
         lookupBranch bed.branchMap (parseHeader input).branch.toNat = none) ∧
      (let input := [1, 1, 4, 1, 0, 40, 0, 0, 0, 0, 0, 1]
       headerGood (parseHeader input) (entry 0 28 0) ∧
         lookupBranch bed.branchMap (parseHeader input).branch.toNat = some 4 ∧ (bed.link 4).state = .quarantined) := by
  unfold State.ready cleanEnv headerGood
  decide +kernel

/-- A packet without body that comes to the record of link `k`. -/
def good (s : State) (k : Slot) (h : Header) : Prop :=
  headerGood h (entry 0 28 0) ∧ lookupBranch s.branchMap h.branch.toNat = some k ∧ (s.link k).state ≠ .quarantined

/-- The test state with the root window and the CURRENT key's window of slot 5 replaced. -/
def used (w : Window) : State :=
  bedWith 5 fun l => { l with current := { l.current with window := w }, rootWindow := w }

theorem witness_InboundRefusedAtTheRecord :
    bed.ready .a ∧ cleanEnv .plain ∧ good bed 2 (header 2 4 20 0 1) ∧ good bed 2 (header 1 0 20 0 1) ∧
      (good bed 3 (header 1 4 30 0 1) ∧ selectKey (bed.link 3) 4 = .keySpent) ∧
      (good bed 2 (header 1 5 20 0 1) ∧ selectKey (bed.link 2) 5 = .unknownGen) ∧
      ((used ⟨64, 1⟩).ready .a ∧ good (used ⟨64, 1⟩) 5 (header 1 4 50 0 64) ∧
        selectKey ((used ⟨64, 1⟩).link 5) 4 = .key .current ∧
        windowTest (((used ⟨64, 1⟩).link 5).windowOf .current) 64 = .replayed) ∧
      (good (used ⟨65, 1⟩) 5 (header 2 0 50 0 1) ∧ selectKey ((used ⟨65, 1⟩).link 5) 0 = .key .root ∧
        windowTest (((used ⟨65, 1⟩).link 5).windowOf .root) 1 = .tooOld) := by
  unfold good headerGood
  refine ⟨bed_ready, plain_clean, ?_, ?_, ?_, ?_, ⟨⟨rfl, ?_⟩, ?_⟩, ?_⟩ <;> decide +kernel

/-- The headers of packets that come to the keys of the test state. -/
theorem atKey_bed (input : List Byte) (choice : KeyChoice)
    (h : (parseHeader input, choice) ∈ [(header 2 0 50 0 1, KeyChoice.root), (header 1 4 59 0 4294967295, .current),
      (header 1 3 50 0 1, .retiring)]) :
    InboundAtKey bed (entry 0 28 0) input 5 choice := by
  unfold InboundAtKey headerGood
  generalize parseHeader input = p at h ⊢
  revert p choice
  have : ∀ p ∈ [(header 2 0 50 0 1, KeyChoice.root), (header 1 4 59 0 4294967295, .current), (header 1 3 50 0 1, .retiring)],
      let h := p.1
      (h.format = 1 ∧ (h.class_ = 1 ∨ h.class_ = 2) ∧ (entry 0 28 0).inputLength.toNat = 28 + h.bodyLength.toNat ∧
        h.flags = 1 ∧ h.bodyLength.toNat ≤ 1536 ∧ h.sequence ≠ 0 ∧ h.bodyLength.toNat ≤ (entry 0 28 0).outputRoom.toNat) ∧
      lookupBranch bed.branchMap h.branch.toNat = some 5 ∧ (bed.link 5).state ≠ .quarantined ∧
        (h.class_ = 2 ↔ h.generation.toNat = 0) ∧ selectKey (bed.link 5) h.generation.toNat = .key p.2 ∧
        windowTest ((bed.link 5).windowOf p.2) h.sequence.toNat = .passes := by decide +kernel
  exact fun choice p h => this (p, choice) h

theorem witness_InboundTagFailure :
    bed.ready .a ∧ cleanEnv .plain ∧
      ∀ p ∈ [(header 2 0 50 0 1, KeyChoice.root), (header 1 4 59 0 4294967295, .current), (header 1 3 50 0 1, .retiring)],
        InboundAtKey bed (entry 0 28 0) (forgedFor bed 5 p.2 p.1) 5 p.2 ∧
          inboundText bed (forgedFor bed 5 p.2 p.1) 5 p.2 = none := by
  refine ⟨bed_ready, plain_clean, fun p hp => ⟨atKey_bed _ _ ?_, text_forgedFor _ _ _ _ ?_ ?_⟩⟩
  · rw [parse_forgedFor]
    exact hp
  · revert p
    decide
  · revert p
    decide

/-- A packet with a body that comes to the CURRENT key of slot 2, and one with the longest body. -/
theorem atKey_current (text : List Byte) (n : BitVec 16) (h : n = 1 ∨ n = 1536) :
    InboundAtKey bed (entry 0 (28 + n.setWidth 32) 1536) (packetFor bed 2 .current (header 1 4 20 n 1) text) 2 .current := by
  unfold InboundAtKey headerGood
  rw [parse_packetFor]
  rcases h with rfl | rfl <;> decide +kernel

theorem witness_InboundDataDelivered :
    bed.ready .a ∧ cleanEnv .plain ∧
      (let input := packetFor bed 5 .retiring (header 1 3 50 0 1) []
       InboundAtKey bed (entry 0 28 0) input 5 .retiring ∧ (parseHeader input).class_ = 1 ∧
         inboundText bed input 5 .retiring = some []) ∧
      ∀ text, text = [7] ∨ text = zeroBytes 1536 →
        let n := BitVec.ofNat 16 text.length
        let input := packetFor bed 2 .current (header 1 4 20 n 1) text
        InboundAtKey bed (entry 0 (28 + n.setWidth 32) 1536) input 2 .current ∧ (parseHeader input).class_ = 1 ∧
          inboundText bed input 2 .current = some text := by
  refine ⟨bed_ready, plain_clean, ⟨atKey_bed _ _ ?_, ?_, text_packetFor _ _ _ _ _ rfl⟩, ?_⟩
  · rw [parse_packetFor]
    decide
  · rw [parse_packetFor]
    rfl
  · intro text ht
    refine ⟨atKey_current _ _ ?_, ?_, text_packetFor _ _ _ _ _ ?_⟩
    · rcases ht with rfl | rfl <;> decide +kernel
    · rw [parse_packetFor]
      rfl
    · rcases ht with rfl | rfl <;> decide +kernel

/-- A TURN_ACCEPT body that answers record 0 of the test state and proves its key. -/
def acceptBody : List Byte :=
  [2, 5, 10, 0, 0, 0, 0, 0, 0, 0] ++ leBytes 16 (Config.cipher.proof 8 10 5).toNat

theorem parse_acceptBody : parseControl acceptBody = .accept 5 10 (Config.cipher.proof 8 10 5) := by
  have h : BitVec.ofNat 128 (ofLe (bytesAt acceptBody 10 16)) = Config.cipher.proof 8 10 5 := by
    have := bytesAt_part (a := [2, 5, 10, 0, 0, 0, 0, 0, 0, 0]) (b := tagBytes (Config.cipher.proof 8 10 5)) (c := [])
      (o := 10) (n := 16) rfl (tagBytes_length _)
    rw [List.append_nil] at this
    rw [show acceptBody = [2, 5, 10, 0, 0, 0, 0, 0, 0, 0] ++ tagBytes (Config.cipher.proof 8 10 5) from rfl, this, tag_read]
  unfold parseControl
  rw [h]
  rfl

/-- A CONTROL packet with the given body for slot 3, whose renewal record is record 0. -/
def controlInput (text : List Byte) : List Byte :=
  packetFor bed 3 .root (header 2 0 30 (BitVec.ofNat 16 text.length) 1) text

theorem atKey_control (text : List Byte) (h : text.length ≤ 66) :
    InboundAtKey bed (entry 0 (BitVec.ofNat 32 (28 + text.length)) 66) (controlInput text) 3 .root ∧
      (parseHeader (controlInput text)).class_ = 2 ∧ inboundText bed (controlInput text) 3 .root = some text := by
  have hb : (BitVec.ofNat 16 text.length).toNat = text.length := by
    rw [BitVec.toNat_ofNat]
    omega
  have hk : lookupBranch bed.branchMap 30 = some 3 ∧ (bed.link 3).state ≠ .quarantined ∧
      selectKey (bed.link 3) 0 = .key .root ∧ windowTest ((bed.link 3).windowOf .root) 1 = .passes := by decide +kernel
  refine ⟨?_, ?_, text_packetFor _ _ _ _ _ hb.symm⟩
  · unfold InboundAtKey headerGood
    rw [controlInput, parse_packetFor]
    refine ⟨⟨rfl, .inr rfl, ?_, rfl, ?_, show (1 : BitVec 32) ≠ 0 by decide, ?_⟩, hk.1, hk.2.1,
      show (2 : Byte) = 2 ↔ (0 : Byte).toNat = 0 by decide, hk.2.2.1, hk.2.2.2⟩
    · show (BitVec.ofNat 32 (28 + text.length)).toNat = 28 + (BitVec.ofNat 16 text.length).toNat
      rw [hb, BitVec.toNat_ofNat]
      omega
    · show (BitVec.ofNat 16 text.length).toNat ≤ 1536
      omega
    · show (BitVec.ofNat 16 text.length).toNat ≤ 66
      omega
  · rw [controlInput, parse_packetFor]
    rfl

theorem witness_InboundControlConsumed :
    bed.ready .a ∧ cleanEnv .plain ∧ bed.recordOf 3 = some 0 ∧
      (∀ text ∈ [acceptBody, [2, 6] ++ zeroBytes 24, [3, 5, 10, 0, 0, 0, 0, 0, 0, 0, 3], [3, 5] ++ zeroBytes 8 ++ [1],
          [4, 16] ++ (List.replicate 16 [0xFF, 0xFF, 0, 1]).flatten, [4, 1, 0, 1, 0, 2], []],
        InboundAtKey bed (entry 0 (BitVec.ofNat 32 (28 + text.length)) 66) (controlInput text) 3 .root ∧
          (parseHeader (controlInput text)).class_ = 2 ∧ inboundText bed (controlInput text) 3 .root = some text) ∧
      (parseControl acceptBody = .accept 5 10 (Config.cipher.proof 8 10 5) ∧
        AcceptMatches bed.records[0] 5 10 (Config.cipher.proof 8 10 5)) ∧
      (parseControl ([2, 6] ++ zeroBytes 24) = .accept 6 0 0 ∧ ¬ AcceptMatches bed.records[0] 6 0 0) ∧
      (parseControl [3, 5, 10, 0, 0, 0, 0, 0, 0, 0, 3] = .refuse 5 10 .badWrap ∧ ReplyMatches bed.records[0] 5 10) ∧
      (parseControl ([3, 5] ++ zeroBytes 8 ++ [1]) = .refuse 5 0 .busy ∧ ¬ ReplyMatches bed.records[0] 5 0) ∧
      (parseControl ([4, 16] ++ (List.replicate 16 [0xFF, 0xFF, 0, 1]).flatten) = .report (.replicate 16 ⟨0xFFFF, 1⟩) ∧
        parseControl [4, 1, 0, 1, 0, 2] = .report [⟨1, 2⟩]) ∧
      parseControl [] = .invalid .controlCode := by
  have hr : ∀ g n, ReplyMatches bed.records[0] g n ↔ (5 = g ∧ (10 : AttemptNonce) = n) := by
    intro g n
    unfold ReplyMatches
    have h : bed.records[0] = ⟨.waitingReply, 3, 5, 8, 9, 10, 1, false, 3, .none⟩ := by decide +kernel
    rw [h]
    simp
  refine ⟨bed_ready, plain_clean, by decide +kernel, fun text ht => atKey_control text ?_, ⟨parse_acceptBody, (hr _ _).2 ⟨rfl, rfl⟩, ?_⟩,
    ⟨by decide +kernel, fun h => absurd ((hr _ _).1 h.1) (by decide)⟩, ⟨by decide +kernel, (hr _ _).2 ⟨rfl, rfl⟩⟩,
    ⟨by decide +kernel, fun h => absurd ((hr _ _).1 h) (by decide)⟩, by decide +kernel, by decide +kernel⟩
  · rcases List.mem_cons.1 ht with rfl | ht
    · simp [acceptBody]
    · revert text
      decide +kernel
  · rfl

theorem witness_OutputAndBoardErrors_traffic :
    bed.ready .a ∧
      (∀ n : BitVec 32, n = 0 ∨ n = 1536 →
        let e := entry 20 n 1564
        let env : Env := ⟨List.replicate (if n = 0 then 1 else 2) .done ++ [.error 5], []⟩
        env.bus = List.replicate (if e.inputLength.toNat = 0 then 1 else 2) .done ++ [.error 5] ∧ e.inputLength.toNat ≤ 1536 ∧
          e.inputLength.toNat + 28 ≤ e.outputRoom.toNat ∧ lookupBranch bed.branchMap e.slotField.toNat = some 2 ∧
          (bed.link 2).state = .live ∧ (bed.link 2).current.state = .inUse ∧ (bed.link 2).hostHold = false ∧
          (bed.link 2).supervisorHold = false ∧ bed.quiesce = false) ∧
      (Env.mk [.done, .done, .done, .error 5] []).bus = [.done, .done, .done, .error 5] ∧
      (let input := packetFor bed 2 .current (header 1 4 20 1 1) [7]
       InboundAtKey bed (entry 0 29 1536) input 2 .current ∧ inboundText bed input 2 .current = some [7] ∧
         (parseHeader input).class_ = 1) ∧
      (let text : List Byte := [4, 1, 0, 1, 0, 2]
       InboundAtKey bed (entry 0 34 66) (controlInput text) 3 .root ∧ inboundText bed (controlInput text) 3 .root = some text ∧
         (parseHeader (controlInput text)).class_ = 2 ∧ parseControl text = .report [⟨1, 2⟩]) := by
  refine ⟨bed_ready, ?_, rfl, ⟨atKey_current _ _ (.inl rfl), text_packetFor _ _ _ _ _ rfl, ?_⟩, ?_⟩
  · intro n hn
    rcases hn with rfl | rfl <;> decide +kernel
  · rw [parse_packetFor]
    rfl
  · obtain ⟨reached, kind, text⟩ := atKey_control [4, 1, 0, 1, 0, 2] (by decide)
    exact ⟨reached, text, kind, by decide +kernel⟩

theorem witness_OutputAndBoardErrors_reads :
    let s := { bed with boardBase := some 0x10000 }
    (bed.ready .a ∧ (Env.mk [.done, .error 5] []).bus = [.done, .error 5]) ∧
      ((entry 2 0 128).slotField.toNat = (2 : Slot).val ∧ (bed.link 2).state ≠ .vacant ∧ 128 ≤ (entry 2 0 128).outputRoom.toNat ∧
        96 ≤ (entry 2 0 96).outputRoom.toNat ∧ 64 ≤ (entry 2 0 64).outputRoom.toNat) ∧
      (s.resetn = true ∧ s.engine ≠ .starting ∧ s.quiesce = false ∧ s.boardBase = some 0x10000 ∧ s.device.busFault = false ∧
        (Env.mk [.error 0] []).bus = [.error 0] ∧ (Env.mk [.error 0, .error 0] []).bus = [.error 0, .error 0]) ∧
      s.ready .a ∧ (entry 2 0 0).slotField.toNat = (2 : Slot).val ∧ (s.link 2).state ≠ .vacant ∧ (s.link 2).hostHold = false := by
  unfold State.ready
  decide +kernel

/-- Each case of key selection has a key of the test state; a list of one code, and a full list, meet the rest. -/
theorem witness_SelectionBodiesAndShopCodes :
    let l := bed.link 5
    let codes := (List.range 8).map fun i => (⟨i + 1, 1⟩ : ShopCode)
    (4 = l.current.generation ∧ l.current.state = .inUse) ∧
      ((bed.link 3).current.state = .spent ∧ 4 = (bed.link 3).current.generation) ∧
      (¬ (3 = l.current.generation ∧ l.current.state ≠ .empty) ∧ 3 = l.retiring.generation ∧ l.retiring.state = .inUse) ∧
      (¬ (5 = l.current.generation ∧ l.current.state ≠ .empty) ∧ ¬ (5 = l.retiring.generation ∧ l.retiring.state = .inUse)) ∧
      ((1 : Byte) ≠ 2 ∧ (1 : Byte) ≠ 3 ∧ (1 : Byte) ≠ 4 ∧ (0 : Byte) ≠ 1 ∧ (0 : Byte) ≠ 2 ∧ (0 : Byte) ≠ 3) ∧
      ((zeroBytes 24).length ≠ 25 ∧ (zeroBytes 9).length ≠ 10) ∧
      (∀ n ∈ [1, 16], let entries := List.replicate n (⟨65535, 65535⟩ : ShopCode)
        1 ≤ entries.length ∧ entries.length ≤ 16 ∧ (∀ e ∈ entries, e.code ≤ 65535 ∧ e.sum ≤ 65535) ∧ ∀ e ∈ entries, e.code ≠ 0) ∧
      (∃ e ∈ ([⟨0, 1⟩] : List ShopCode), e.code = 0) ∧
      ((0 : Byte).toNat = 0 ∧ 16 < (17 : Byte).toNat ∧ (zeroBytes 5).length ≠ 4 * (1 : Byte).toNat) ∧
      (∀ c ∈ codes, c.code ≠ 9) ∧ (∀ d ∈ codes.take 7 ++ [], d.code ≠ 8) ∧ codes = codes.take 7 ++ ⟨8, 1⟩ :: [] ∧
      codes.length ≤ 8 ∧ (codes.map ShopCode.code).Nodup := by
  decide +kernel

/-! ### Administrative requests -/

theorem witness_SlotAndBlockRefusals :
    (bed.ready .a ∧ cleanEnv .plain ∧ 512 ≤ (entry 512 0 0).slotField.toNat ∧ (entry 512 0 0).slotField ≠ 1023 ∧
      512 ≤ (entry 65535 0 0).slotField.toNat) ∧
      ((entry 511 63 0).slotField.toNat = (511 : Slot).val ∧ (entry 511 63 0).inputLength.toNat ≠ 64) ∧
      ((entry 8 64 0).inputLength.toNat = 64 ∧ (bed.link 8).state ≠ .vacant ∧ (bed.link 511).state = .vacant) ∧
      (let b := parseLinkBlock (block [100, 0, 99, 0, 0])
       b.last < b.first) ∧
      (let b := parseLinkBlock (block [90, 0, 0xFF, 0xFF, 0])
       b.first ≤ b.last ∧ b.last = 65535) ∧
      (let b := parseLinkBlock (block [89, 0, 89, 0, 0])
       b.first ≤ b.last ∧ b.last ≠ 65535 ∧ ∃ u ∈ bed.branchMap, b.first ≤ u.last ∧ u.first ≤ b.last) ∧
      (let b := parseLinkBlock (block [90, 0, 0xFE, 0xFF, 16])
       b.last ≠ 65535 ∧ (∀ u ∈ bed.branchMap, ¬ (b.first ≤ u.last ∧ u.first ≤ b.last)) ∧ 16 ≤ b.profile) ∧
      (let b := parseLinkBlock (block [0, 0, 9, 0, 15])
       (∀ u ∈ bed.branchMap, ¬ (b.first ≤ u.last ∧ u.first ≤ b.last)) ∧ b.profile = (15 : ProfileNumber).val ∧
         bed.profiles[15].valid = false) ∧
      (bed.profiles[0].valid = true ∧ ({ bed with device := ⟨0, false, false, true, false, false, false⟩ } : State).device.noMaster = true ∧
        bed.device.noMaster = false) ∧
      ((bed.link 511).state = .vacant ∧ (bed.link 4).state = .quarantined) ∧
      ((bed.link 2).state ≠ .vacant ∧ (bed.link 2).state ≠ .quarantined ∧ (bed.link 2).hostHold = false) ∧
      (let s := bedWith 2 fun l => { l with hostHold := true }
       (s.link 2).hostHold = true ∧
         (let b := parseLinkBlock (block [29, 0, 30, 0, 0])
          ∃ u ∈ s.branchMap, u.slot ≠ 2 ∧ b.first ≤ u.last ∧ u.first ≤ b.last) ∧
         (let b := parseLinkBlock (block [20, 0, 29, 0, 16])
          (∀ u ∈ s.branchMap, u.slot ≠ 2 → ¬ (b.first ≤ u.last ∧ u.first ≤ b.last)) ∧ 16 ≤ b.profile)) := by
  refine ⟨⟨bed_ready, plain_clean, ?_⟩, ?_, ?_, ?_, ?_, ?_, ?_, ?_, ?_, ?_, ?_, ?_⟩ <;> decide +kernel

/-- The last checks of ENROL: a form that does not unwrap, and a zero root key. -/
theorem witness_SlotAndBlockRefusals_wrap :
    (∃ w, Config.cipher.unwrap bed.masterKey (parseLinkBlock (enrolBlock 0 w)).wrappedKey = none) ∧
      Config.cipher.unwrap bed.masterKey (parseLinkBlock (enrolBlock 0 (Config.cipher.wrap 7 0 3))).wrappedKey
        = some (0, 3) := by
  refine ⟨?_, ?_⟩
  · obtain ⟨w, hw⟩ := some_form_unwraps_to_none bed.masterKey
    exact ⟨w, by rw [wrapped_enrolBlock]; exact hw⟩
  · rw [wrapped_enrolBlock]
    exact unwrap_wrap 7 0 3

theorem witness_EnrolMakesTheLink :
    let input := enrolBlock 0 (Config.cipher.wrap 7 5 6)
    let b := parseLinkBlock input
    bed.ready .a ∧ cleanEnv .plain ∧ (entry 511 64 0).slotField.toNat = (511 : Slot).val ∧
      (entry 511 64 0).inputLength.toNat = 64 ∧ (bed.link 511).state = .vacant ∧ b.first ≤ b.last ∧ b.last ≠ 65535 ∧
      (∀ u ∈ bed.branchMap, ¬ (b.first ≤ u.last ∧ u.first ≤ b.last)) ∧ b.profile = (0 : ProfileNumber).val ∧
      bed.profiles[(0 : ProfileNumber)].valid = true ∧ bed.device.noMaster = false ∧
      Config.cipher.unwrap bed.masterKey b.wrappedKey = some (5, 6) ∧ (5 : Key) ≠ 0 := by
  refine ⟨bed_ready, plain_clean, ?_⟩
  rw [wrapped_enrolBlock, show bed.masterKey = 7 from rfl, unwrap_wrap 7 5 6]
  decide +kernel

/-- The Branch Map of the test state, and triples before, after and at the edge of its ranges. -/
theorem witness_EnrolMakesTheLink_map :
    (bed.branchMap.Pairwise (fun u v => u.last < v.first) ∧ ∀ u ∈ bed.branchMap, u.first ≤ u.last) ∧
      ∀ t ∈ ([⟨0, 9, 0⟩, ⟨90, 65534, 9⟩] : List Triple),
        t.first ≤ t.last ∧ ∀ u ∈ bed.branchMap, ¬ (u.first ≤ t.last ∧ t.first ≤ u.last) := by decide +kernel

theorem witness_RetireLeavesNothing :
    bed.ready .a ∧ cleanEnv .plain ∧ (entry 0 0 0).slotField.toNat = (0 : Slot).val ∧ (bed.link 0).state = .vacant ∧
      (entry 3 0 0).slotField.toNat = (3 : Slot).val ∧ (bed.link 3).state ≠ .vacant := by
  refine ⟨bed_ready, plain_clean, ?_⟩
  decide +kernel

/-- The range as it stands, then one that differs; and the triple of the link. -/
theorem witness_SetLinkMovesTheRange :
    let s := bedWith 2 fun l => { l with hostHold := true }
    let b := parseLinkBlock (block [20, 0, 29, 0, 0])
    let c := parseLinkBlock (block [90, 0, 0xFE, 0xFF, 0])
    (s.ready .a ∧ cleanEnv .plain) ∧
      ((entry 2 64 0).slotField.toNat = (2 : Slot).val ∧ (entry 2 64 0).inputLength.toNat = 64 ∧
        (s.link 2).state ≠ .vacant ∧ (s.link 2).state ≠ .quarantined ∧ (s.link 2).hostHold = true) ∧
      (b.first ≤ b.last ∧ b.last ≠ 65535 ∧
        (∀ u ∈ s.branchMap, u.slot ≠ 2 → ¬ (b.first ≤ u.last ∧ u.first ≤ b.last)) ∧ b.profile = (0 : ProfileNumber).val ∧
        s.profiles[(0 : ProfileNumber)].valid = true ∧ s.rangeOf 2 = (b.first, b.last)) ∧
      (c.first ≤ c.last ∧ c.last ≠ 65535 ∧ s.rangeOf 2 ≠ (c.first, c.last) ∧
        (∀ u ∈ s.branchMap, u.slot ≠ 2 → ¬ (c.first ≤ u.last ∧ u.first ≤ c.last)) ∧ c.profile = (0 : ProfileNumber).val) ∧
      (s.branchMap.map Triple.slot).Nodup ∧ ∃ u ∈ s.branchMap, u.slot = 2 := by
  unfold State.ready
  refine ⟨⟨?_, plain_clean⟩, ?_, ?_, ?_, ?_, ?_⟩ <;> decide +kernel

/-- The bytes of `terms` as SET_PROFILE carries them for profile 0: every field inside its range. -/
def termsBlock : List Byte :=
  [0] ++ leBytes 4 2000000 ++ leBytes 4 86400 ++ leBytes 4 30 ++ leBytes 2 12 ++ [3] ++ leBytes 4 300 ++ leBytes 2 20
    ++ leBytes 4 0 ++ [60, 20, 240, 0, 100, 0, 2] ++ [1, 1, 0xF4, 1, 10, 0, 0] ++ [1, 1, 0xF4, 1, 10, 0, 1]
    ++ [1, 1, 0xF4, 1, 10, 0, 3] ++ zeroBytes 10

theorem test_parseProfile : parseProfile termsBlock = terms := by decide +kernel

theorem witness_SetProfileWritesOrInvalidates :
    let naming (p : ProfileNumber) := allSlots.filter fun k => bed.enrolled k && (bed.link k).profile = p
    (bed.ready .a ∧ cleanEnv .plain) ∧ (entry 0 65 0).inputLength.toNat ≠ 64 ∧
      ((entry 0 64 0).inputLength.toNat = 64 ∧ 16 ≤ ((block [16]).getD 0 0).toNat) ∧
      ((entry 0 64 0 1).flags.getLsbD 0 = true ∧ (termsBlock.getD 0 0).toNat = (0 : ProfileNumber).val ∧ naming 0 ≠ []) ∧
      (((block [15]).getD 0 0).toNat = (15 : ProfileNumber).val ∧ naming 15 = []) ∧
      (entry 0 64 0).flags.getLsbD 0 = false := by
  refine ⟨⟨bed_ready, plain_clean⟩, ?_, ?_, ?_, ?_, ?_⟩ <;> decide +kernel

theorem witness_SetProfileWritesOrInvalidates_named :
    bed.profiles[(bed.link 2).profile].valid = true ∧
      (let s := bedWith 2 fun l => { l with profile := 15 }
       s.profiles[(s.link 2).profile].valid = false) := by decide +kernel

theorem witness_HoldAndReleaseMoveMarks :
    let s := bedWith 2 fun l => { l with hostHold := true, supervisorHold := true }
    (bed.ready .a ∧ s.ready .a ∧ cleanEnv .plain) ∧ (entry 511 0 0).slotField.toNat = (511 : Slot).val ∧
      ((bed.link 511).state = .vacant ∧ (bed.link 2).state ≠ .vacant ∧ (bed.link 2).hostHold = false ∧
        (bed.link 2).supervisorHold = false ∧ (s.link 2).state ≠ .vacant ∧ (s.link 2).hostHold = true ∧
        (s.link 2).supervisorHold = true) ∧
      ((entry 2 0 0 0xFC).flags.getLsbD 0 = false ∧ (entry 2 0 0 0xFC).flags.getLsbD 1 = false) ∧
      ((entry 2 0 0 1).flags.getLsbD 0 = true ∧ (entry 2 0 0 2).flags.getLsbD 1 = true) ∧
      (entry 1023 0 0).slotField = 1023 := by
  unfold State.ready
  refine ⟨⟨?_, ?_, plain_clean⟩, ?_, ?_, ?_, ?_, ?_⟩ <;> decide +kernel

theorem witness_RenewNowForcesJoins :
    (bed.ready .a ∧ cleanEnv .plain) ∧ (entry 8 0 0).slotField.toNat = (8 : Slot).val ∧ (bed.link 0).state = .vacant ∧
      (bed.link 4).state = .quarantined ∧ ((bed.link 8).state = .live ∧ (bed.link 8).renewal = .rest) ∧
      (bed.link 2).renewal = .idle ∧ ((bed.link 6).renewal = .due ∧ 6 ∈ bed.dueList.ordinary) ∧
      ((bed.link 1).renewal = .due ∧ 1 ∉ bed.dueList.ordinary) ∧ (bed.link 7).renewal = .exchange ∧
      ((entry 1023 0 0).slotField = 1023 ∧ bed.device.randomFault = true) := by
  refine ⟨⟨bed_ready, plain_clean⟩, ?_⟩
  decide +kernel

theorem witness_ReadsWriteTheirRecords :
    (bed.ready .a ∧ cleanEnv .plain) ∧ (entry 2 0 127).slotField.toNat = (2 : Slot).val ∧
      ((entry 2 0 127).outputRoom.toNat < 128 ∧ 128 ≤ (entry 2 0 128).outputRoom.toNat) ∧
      ((entry 2 0 95).outputRoom.toNat < 96 ∧ 96 ≤ (entry 2 0 96).outputRoom.toNat) ∧
      ((entry 2 0 63).outputRoom.toNat < 64 ∧ 64 ≤ (entry 2 0 64).outputRoom.toNat) ∧
      ((bed.link 0).state = .vacant ∧ (bed.link 2).state ≠ .vacant) ∧
      (bed.recordOf 2 = none ∧ bed.recordOf 3 = some 0 ∧ (bed.link 2).shopCodes[7]? = none ∧
        (((bedWith 2 fun l => { l with shopCodes := [⟨1, 2⟩] }).link 2).shopCodes[0]? = some ⟨1, 2⟩)) := by
  refine ⟨⟨bed_ready, plain_clean⟩, ?_⟩
  decide +kernel

/-! ### Due checks, admission, origination and the exchange -/

theorem witness_DueCheckByTheReserve :
    let urgent := bedWith 6 fun l => { l with current := key 4 1981250 0 }
    ((bed.link 1).state = .standby ∧ (bed.link 3).state = .stalled ∧ (bed.link 4).state = .quarantined ∧
      (bed.link 0).state = .vacant) ∧
      ((bed.link 2).state = .live ∧ (bed.link 2).renewal = .idle ∧ bed.isDue 2 = false) ∧
      (let s := bedWith 2 fun l => { l with current := key 4 1962500 0 }
       s.isDue 2 = true ∧ s.isUrgent 2 = false ∧ (s.link 2).renewal = .idle) ∧
      (let s := bedWith 2 fun l => { l with current := key 4 0 86385 }
       s.isUrgent 2 = true) ∧
      (urgent.isUrgent 6 = true ∧ (urgent.link 6).renewal = .due ∧ 6 ∈ urgent.dueList.ordinary) ∧
      ((bed.link 6).renewal = .due ∧ bed.isUrgent 6 = false ∧ (bed.link 1).renewal = .due ∧ 1 ∉ bed.dueList.ordinary) ∧
      ((bed.link 7).renewal = .exchange ∧ (bed.link 8).renewal = .rest) ∧
      (bed.device.randomFault = true ∧
        ({ bed with records := .replicate 16 ⟨.waitingSend, 7, 5, 8, 9, 10, 1, false, 0, .none⟩ } : State).freeRecord = none) := by
  decide +kernel

/-- The renewal states that a forced join finds. -/
theorem witness_DueCheckByTheReserve_forced :
    ((bed.link 2).renewal = .idle ∧ (bed.link 8).renewal = .rest) ∧
      ((bed.link 6).renewal = .due ∧ 6 ∈ bed.dueList.ordinary) ∧
      ((bed.link 1).renewal = .due ∧ 1 ∉ bed.dueList.ordinary) ∧ (bed.link 7).renewal = .exchange := by decide +kernel

theorem witness_AdmissionTakesTheHead :
    let s := { bed with device := State.reset.device, lastDraw := some 1, noise := [2, 3, 4, 5, 6, 7, 8] }
    (s.resetn = true ∧ cleanEnv .plain) ∧
      (bed.device.randomFault = true ∧ State.reset.dueList.head? = none ∧
        ({ bed with records := .replicate 16 ⟨.waitingSend, 7, 5, 8, 9, 10, 1, false, 0, .none⟩ } : State).freeRecord = none) ∧
      (s.freeRecord = some 2 ∧ s.dueList.head? = some 1 ∧ { s with dueList := ⟨[], [6]⟩ }.dueList.head? = some 6 ∧
        s.device.randomFault = false) ∧
      (s.noise = 2 :: 3 :: 4 :: 5 :: 6 :: 7 :: [8] ∧ drawsPass s.lastDraw [2, 3, 4, 5, 6, 7]) ∧
      (let first := { s with noise := [1, 2] }
       first.noise = [] ++ 1 :: [2] ∧ drawsPass first.lastDraw [] ∧ (([] : List Draw).getLast?).or first.lastDraw = some 1) ∧
      (let sixth := { s with noise := [2, 3, 4, 5, 6, 6] }
       sixth.noise = [2, 3, 4, 5, 6] ++ 6 :: [] ∧ [2, 3, 4, 5, 6].length < 6 ∧ drawsPass sixth.lastDraw [2, 3, 4, 5, 6] ∧
         (([2, 3, 4, 5, 6] : List Draw).getLast?).or sixth.lastDraw = some 6) := by
  unfold cleanEnv
  simp only [drawsPass]
  decide +kernel

theorem witness_OriginationQueuesTheOffer :
    (bed.resetn = true ∧ cleanEnv .plain ∧ bed.sendOrder = [1] ∧ bed.quiesce = false) ∧
      (({ bed with quiesce := true } : State).quiesce = true ∧ State.reset.sendOrder = []) ∧
      32 ≤ ({ bed with queue := List.replicate 32 (.offer 7 []) } : State).queue.length := by
  refine ⟨⟨rfl, plain_clean, rfl, rfl⟩, ?_⟩
  decide +kernel

theorem witness_ReplyTimerEndsTheAttempt :
    let s := { bed with
      device := State.reset.device
      lastDraw := some 12
      records := (bed.records.set 0 ⟨.waitingReply, 3, 5, 8, 9, 10, 2, false, 1, .none⟩).set 2
        ⟨.waitingReply, 1, 1, 8, 9, 10, 3, false, 2, .none⟩ }
    (s.timebaseRuns = true ∧ cleanEnv (Env.mk [] [11])) ∧ s.records[1].state ≠ .waitingReply ∧
      (s.records[2].state = .waitingReply ∧ 2 ≤ s.records[2].replyTimer) ∧
      (s.records[0].state = .waitingReply ∧ s.records[0].replyTimer ≤ 1 ∧
        s.records[0].attempt < (s.profileOf s.records[0].slot).attempts ∧ s.device.randomFault = false ∧
        (Env.mk [] [11]).noise = 11 :: [] ∧ s.lastDraw ≠ some 11) ∧
      (cleanEnv (Env.mk [] [12]) ∧ (Env.mk [] [12]).noise = 12 :: [] ∧ s.lastDraw = some 12) ∧
      ((s.profileOf s.records[2].slot).attempts ≤ s.records[2].attempt ∧ bed.device.randomFault = true) := by
  unfold cleanEnv
  decide +kernel

/-- The attempts that a refuse ends: one with attempts left and a draw that passes or fails, and one without. -/
theorem witness_ReplyTimerEndsTheAttempt_end :
    let s := { bed with device := State.reset.device, lastDraw := some 12, noise := [11] }
    (s.records[0].attempt < (s.profileOf s.records[0].slot).attempts ∧ s.device.randomFault = false ∧ s.noise = 11 :: [] ∧
      s.lastDraw ≠ some 11) ∧
      ({ s with noise := [12] } : State).noise = 12 :: [] ∧ s.lastDraw = some 12 ∧ bed.device.randomFault = true ∧
      (let s := { s with records := s.records.set 0 ⟨.waitingReply, 3, 5, 8, 9, 10, 3, false, 3, .none⟩ }
       (s.profileOf s.records[0].slot).attempts ≤ s.records[0].attempt) := by decide +kernel

theorem witness_InstallationMovesTheKeys :
    ((bed.link bed.records[1].slot).current.state = .inUse ∧ (bed.link bed.records[0].slot).current.state ≠ .inUse) ∧
      (bed.link bed.records[1].slot).checkCode = freshCode (bed.link bed.records[1].slot) := by decide +kernel

/-! ### Fault supervision -/

/-- Notices of the first `n` slots. -/
def notices (n : Nat) : List Item :=
  (allSlots.take n).map fun k => .notice ⟨some k, .link .replay, .raised, 1, 0, false⟩

theorem no_pair {q : List Item} {n : Notice} (h : q.any (samePair n) = false) :
    ∀ m, .notice m ∈ q → ¬ (m.link = n.link ∧ m.kind = n.kind) := by
  intro m hm he
  have := List.any_eq_false.1 h _ hm
  simp [samePair, he.1, he.2] at this

/-- A notice folded in the midst of the queue, and one folded into a full queue of 24 notices. -/
theorem witness_NoticesFoldIntoTheirPair :
    let n : Notice := ⟨some 7, .link .tagFail, .cleared, 6, 80, false⟩
    let m : Notice := ⟨some 7, .link .tagFail, .raised, 6, 230, false⟩
    (m.link = n.link ∧ m.kind = n.kind) ∧
      ∀ q ∈ ([([.offer 7 []], [deviceNotice .busFault]), (notices 23, List.replicate 8 (.offer 7 []))] :
          List (List Item × List Item)),
        let s := { bed with queue := q.1 ++ Item.notice m :: q.2 }
        s.queue = q.1 ++ Item.notice m :: q.2 ∧ (s.queue.filterMap Item.pair?).Nodup := by decide +kernel

theorem witness_NoticesJoinOrDrop :
    let n : Notice := ⟨some 7, .link .tagFail, .cleared, 6, 80, false⟩
    (let q := notices 23 ++ List.replicate 8 (.offer 7 [])
     (∀ m, .notice m ∈ q → ¬ (m.link = n.link ∧ m.kind = n.kind)) ∧ noticeCount q < 24 ∧ q.length < 32) ∧
      (let q := notices 24
       (∀ m, .notice m ∈ q → ¬ (m.link = n.link ∧ m.kind = n.kind)) ∧ 24 ≤ noticeCount q) ∧
      (let q := notices 8 ++ List.replicate 24 (.offer 7 [])
       (∀ m, .notice m ∈ q → ¬ (m.link = n.link ∧ m.kind = n.kind)) ∧ 32 ≤ q.length) :=
  ⟨⟨no_pair (by decide +kernel), by decide +kernel⟩, ⟨no_pair (by decide +kernel), by decide +kernel⟩,
    no_pair (by decide +kernel), by decide +kernel⟩

theorem witness_RaiseNotifiesAndActs :
    ((bed.link 2).state ≠ .vacant ∧ (bed.link 4).state = .quarantined ∧ (bed.link 2).state ≠ .quarantined) ∧
      (bed.profileOf 2).actionOf .replay = .note ∧ (bed.profileOf 2).actionOf .unknownGen = .hold ∧
      (bed.profileOf 2).actionOf .tagFail = .renew ∧ (bed.profileOf 4).actionOf .tagFail = .renew ∧
      (bed.profileOf 2).actionOf .exchangeFault = .quarantine := by decide +kernel

theorem witness_RaiseNotifiesAndActs_device :
    (State.reset.device.settingsDefaulted = false ∧ State.reset.device.noMaster = false ∧
      State.reset.device.randomFault = false ∧ State.reset.device.busFault = false) ∧
      (let s := { bed with device := ⟨65535, false, true, true, true, true, false⟩ }
       s.device.settingsDefaulted = true ∧ s.device.noMaster = true ∧ s.device.randomFault = true ∧
         s.device.busFault = true) := by decide +kernel

theorem witness_ScoresRaiseAndDecaysClear :
    let s (active : Bool) (score : Nat) :=
      bedWith 2 fun l => { l with kinds := l.kinds.set 0 ⟨active, 65535, true⟩, scores := l.scores.set 0 score }
    let p := (bed.profileOf 2).rate .tagFail
    (∀ a x, x ∈ [180, 179, 120, 121] → ((s a x).link 2).state ≠ .vacant ∧ ((s a x).link 2).kinds[0].active = a) ∧
      p.raiseLevel ≤ min 65535 (((s false 180).link 2).scores[0] + p.weight) ∧
      min 65535 (((s false 179).link 2).scores[0] + p.weight) < p.raiseLevel ∧
      ((s true 120).link 2).scores[0] - p.decay ≤ p.clearLevel ∧
      p.clearLevel < ((s true 121).link 2).scores[0] - p.decay ∧
      (p.raiseLevel ≤ ((s false 240).link 2).scores[0] ∧ ((s true 100).link 2).scores[0] ≤ p.clearLevel ∧
        ((s false 239).link 2).scores[0] < p.raiseLevel ∧ p.clearLevel < ((s true 101).link 2).scores[0]) := by decide +kernel

/-- The silence clauses, with a limit of 1: at it, one below it, without a limit, and ended with LINK_SILENT active. -/
theorem witness_ScoresRaiseAndDecaysClear_silence :
    let limited (n : Nat) := { bed with profiles := bed.profiles.set 0 { terms with silenceLimit := n } }
    ((bed.link 1).state = .standby ∧ (bed.link 2).state = .live ∧ (bed.link 3).state = .stalled) ∧
      (((limited 1).profileOf 2).silenceLimit ≠ 0 ∧
        ((limited 1).profileOf 2).silenceLimit ≤ min 65535 ((bed.link 2).silence + 1) ∧
        ((bed.link 2).kinds[LinkKind.linkSilent.index]).active = false) ∧
      ((bed.profileOf 2).silenceLimit = 0 ∧ min 65535 ((bed.link 2).silence + 1) < ((limited 2).profileOf 2).silenceLimit) ∧
      ((bed.link 4).state = .quarantined ∧ (bed.link 0).state = .vacant) ∧
      (((bedWith 2 fun l => { l with kinds := l.kinds.set 6 ⟨true, 1, false⟩ }).link 2).kinds[LinkKind.linkSilent.index]).active
        = true := by decide +kernel

theorem witness_ShopAlertFollowsTheReport :
    let s := bedWith 2 fun l => { l with kinds := l.kinds.set 7 ⟨true, 1, false⟩ }
    (∃ e ∈ ([⟨0x7FFF, 1⟩, ⟨0x8000, 1⟩] : List ShopCode), 0x8000 ≤ e.code) ∧
      (¬ ∃ e ∈ ([⟨0x7FFF, 1⟩] : List ShopCode), 0x8000 ≤ e.code) ∧ ((bed.link 2).kind .shopAlert).active = false ∧
      ((s.link 2).kind .shopAlert).active = true := by decide +kernel

theorem witness_QuarantineErasesTheLink :
    ((bed.link 4).state = .quarantined ∧ (bed.link 0).state = .vacant) ∧
      ((bed.link 3).state ≠ .quarantined ∧ (bed.link 3).state ≠ .vacant) ∧ (bed.branchMap.map Triple.slot).Nodup ∧
      (∃ u ∈ bed.branchMap, u.slot = 3) ∧ bed.TurnoverOk :=
  ⟨by decide +kernel, by decide +kernel, bed_mapOk.slots, by decide +kernel, bed_turnoverOk⟩

theorem witness_QuarantineErasesTheLink_range :
    bed.branchMap.find? (fun u => u.slot = 3) = some ⟨30, 39, 3⟩ ∧ bed.branchMap.find? (fun u => u.slot = 9) = none := by
  decide +kernel

/-! ### The Renewal Clock and the Scrubber -/

theorem witness_ScrubStepVisitsTheNextRecord :
    (bed.timebaseRuns = true ∧ cleanEnv .plain) ∧
      (let s := { State.reset with engine := .stopped }
       s.timebaseRuns = true ∧ ∀ k, s.scrubbed k = false) ∧
      (let s := { bed with walkPosition := 4 }
       s.scrubbed 5 = true ∧ s.walkPosition ≤ 5 ∧ ∀ j, s.walkPosition ≤ j → j < 5 → s.scrubbed j = false) ∧
      (let s := { bed with walkPosition := 511 }
       s.scrubbed 1 = true ∧ 1 < s.walkPosition ∧ ∀ j, s.walkPosition ≤ j ∨ j < 1 → s.scrubbed j = false) ∧
      freshCode (bed.link 5) = (bed.link 5).checkCode ∧
      (let s := bedWith 5 fun l => { l with checkCode := l.checkCode ^^^ 1 }
       freshCode (s.link 5) ≠ (s.link 5).checkCode) := by
  refine ⟨⟨by decide +kernel, plain_clean⟩, ?_, ?_, ?_, ?_, ?_⟩ <;> decide +kernel

theorem witness_PeriodMarkAtLinkAgesAndRates :
    (bed.timebaseRuns = true ∧ cleanEnv .plain) ∧ (bed.link 0).state = .vacant ∧
      (let s := bedWith 2 fun l => { l with current := key 4 1999902 86398 }
       (s.link 2).state ≠ .vacant ∧ (s.link 2).current.state = .inUse ∧
         (s.link 2).current.use + 98 ≤ (s.link 2).current.budget ∧
         (s.link 2).current.age + 1 < (s.link 2).current.ageLimit ∧
         after (.periodMarkAtLink 2 .plain) s (fun t => (t.link 2).state ≠ .quarantined) = true) ∧
      (let s := bedWith 5 fun l => { l with retiring := key 3 1999902 86398 }
       (s.link 5).retiring.state = .inUse ∧ (s.link 5).retiring.use + 98 ≤ (s.link 5).retiring.budget ∧
         (s.link 5).retiring.age + 1 < (s.link 5).retiring.ageLimit ∧ 2 ≤ (s.link 5).retireTimer ∧
         after (.periodMarkAtLink 5 .plain) s (fun t => (t.link 5).state ≠ .quarantined) = true) ∧
      (let s := bedWith 5 fun l => { l with retireTimer := 1 }
       (s.link 5).retiring.state = .inUse ∧ (s.link 5).retireTimer ≤ 1 ∧
         after (.periodMarkAtLink 5 .plain) s (fun t => (t.link 5).state ≠ .quarantined) = true) ∧
      after (.periodMarkAtLink 8 .plain) bed (fun t => (t.link 8).renewal = .rest) = true := by
  refine ⟨⟨by decide +kernel, plain_clean⟩, ?_⟩
  decide +kernel

/-- The parts of a mark: a slot one period below its age limit, at it, and at its budget; timers at 1 and at 2. -/
theorem witness_PeriodMarkAtLinkAgesAndRates_parts :
    let reached (k : KeySlot) := k.budget < k.use + 98 ∨ k.ageLimit ≤ k.age
    let s := bedWith 5 fun l => { l with retireTimer := 1 }
    ((bed.link 5).current.state = .inUse ∧ (bed.link 5).retiring.state = .inUse ∧ reached (key 4 0 86400) ∧
      reached (key 4 1999903 0) ∧ ¬ reached (key 4 1999902 86399)) ∧
      ((bed.link 3).current.state ≠ .inUse ∧ (bed.link 2).retiring.state ≠ .inUse) ∧
      ((s.link 5).retireTimer ≤ 1 ∧ 2 ≤ (bed.link 5).retireTimer) ∧
      ((bed.link 8).renewal = .rest ∧ 2 ≤ (bed.link 8).restTimer ∧
        ((bedWith 8 fun l => { l with restTimer := 1 }).link 8).restTimer ≤ 1 ∧ (bed.link 2).renewal ≠ .rest) := by
  decide +kernel

theorem witness_LimitsAndTimersOfAMark :
    (bed.timebaseRuns = true ∧ cleanEnv .plain) ∧
      (let s := bedWith 5 fun l => { l with current := key 4 0 86399, retiring := key 3 0 86399, retireTimer := 1 }
       (s.link 5).state ≠ .vacant ∧ (s.link 5).current.state = .inUse ∧
         (s.link 5).current.ageLimit ≤ (s.link 5).current.age + 1 ∧ (s.link 5).retiring.state = .inUse ∧
         (s.link 5).retiring.ageLimit ≤ (s.link 5).retiring.age + 1 ∧ (s.link 5).retireTimer ≤ 1) ∧
      (let s := bedWith 5 fun l => { l with current := key 4 0 86398, retiring := key 3 0 86398 }
       (s.link 5).current.age + 1 < (s.link 5).current.ageLimit ∧
         (s.link 5).retiring.age + 1 < (s.link 5).retiring.ageLimit ∧ 2 ≤ (s.link 5).retireTimer) ∧
      ((bed.link 1).current.state ≠ .inUse ∧ (bed.link 2).retiring.state ≠ .inUse) ∧
      (let s := bedWith 8 fun l => { l with restTimer := 1 }
       (s.link 8).state ≠ .vacant ∧ (s.link 8).renewal = .rest ∧ (s.link 8).restTimer ≤ 1) ∧
      ((bed.link 2).renewal ≠ .rest ∧ 2 ≤ (bed.link 8).restTimer) := by
  refine ⟨⟨by decide +kernel, plain_clean⟩, ?_, ?_, ?_, ?_, ?_⟩ <;> decide +kernel

/-- The spent checks: keys at their budget and at their age limit, one below both, and slots that are not IN_USE. -/
theorem witness_LimitsAndTimersOfAMark_checks :
    let reached (k : KeySlot) := k.state = .inUse ∧ (k.budget < k.use + 98 ∨ k.ageLimit ≤ k.age)
    reached (key 4 1999903 0) ∧ reached (key 4 0 86400) ∧ ¬ reached (key 4 1999902 86399) ∧
      ¬ reached (bed.link 3).current ∧ ((bed.link 5).retiring.state = .inUse ∧ (bed.link 2).retiring.state ≠ .inUse) := by
  decide +kernel

end Sys2Proof.Tests
end

