-- ==== Sys2Proof/Proofs/ShopAlert.lean ====
section
/-! PROOFS. Edges taken only when they change something, and SHOP_ALERT after a report (R116, R120). -/

namespace Sys2Proof.Machine

/-! ## A kind raised or cleared only where its state changes (R120) -/

theorem raiseIfInactive_of_inactive {k : Slot} {kind : LinkKind} {s : State}
    (h : ((s.link k).kind kind).active = false) : raiseIfInactive k kind s = raiseKind k kind s :=
  if_neg (by simp [h])

theorem raiseIfInactive_of_active {k : Slot} {kind : LinkKind} {s : State}
    (h : ((s.link k).kind kind).active = true) : raiseIfInactive k kind s = s :=
  if_pos h

theorem clearIfActive_of_active {k : Slot} {kind : LinkKind} {s : State}
    (h : ((s.link k).kind kind).active = true) : clearIfActive k kind s = clearKind k kind s :=
  if_pos h

theorem clearIfActive_of_inactive {k : Slot} {kind : LinkKind} {s : State}
    (h : ((s.link k).kind kind).active = false) : clearIfActive k kind s = s :=
  if_neg (by simp [h])

/-! ## A report (R115, R116) -/

/-- Taking a report's entries into the list touches no kind of the fault record. -/
@[simp] theorem kind_reportedRecord (entries : List ShopCode) (l : Link) (kind : LinkKind) :
    (reportedRecord entries l).kind kind = l.kind kind := rfl

theorem any_isAlertCode_iff (entries : List ShopCode) :
    entries.any isAlertCode = true ↔ ∃ e ∈ entries, 0x8000 ≤ e.code := by
  simp [isAlertCode]

theorem takeReport_of_alert {k : Slot} {entries : List ShopCode} {s : State}
    (h : ∃ e ∈ entries, 0x8000 ≤ e.code) :
    takeReport k entries s = raiseIfInactive k .shopAlert (s.modLink k (reportedRecord entries)) :=
  if_pos ((any_isAlertCode_iff entries).2 h)

theorem takeReport_of_no_alert {k : Slot} {entries : List ShopCode} {s : State}
    (h : ¬ ∃ e ∈ entries, 0x8000 ≤ e.code) :
    takeReport k entries s = clearIfActive k .shopAlert (s.modLink k (reportedRecord entries)) :=
  if_neg (mt (any_isAlertCode_iff entries).1 h)

/-- Settles O56: the alert codes of the report choose between raise and clear, and whether SHOP_ALERT is active, which
the new list does not change, decides whether that edge is taken. -/
theorem shopAlertFollowsTheReport : Obligations.ShopAlertFollowsTheReport := by
  intro s k entries listed active alert
  have still_active : ((listed.link k).kind .shopAlert).active = active := by simp [listed, active]
  refine ⟨fun hAlert hActive => ?raised, fun hAlert hActive => ?staysActive,
    fun hAlert hActive => ?cleared, fun hAlert hActive => ?staysInactive⟩
  case raised =>
    exact (takeReport_of_alert hAlert).trans (raiseIfInactive_of_inactive (still_active.trans hActive))
  case staysActive =>
    exact (takeReport_of_alert hAlert).trans (raiseIfInactive_of_active (still_active.trans hActive))
  case cleared =>
    exact (takeReport_of_no_alert hAlert).trans (clearIfActive_of_active (still_active.trans hActive))
  case staysInactive =>
    exact (takeReport_of_no_alert hAlert).trans (clearIfActive_of_inactive (still_active.trans hActive))

end Sys2Proof.Machine
end

