-- ==== Sys2Proof/Proofs/NoticeFold.lean ====
section
/-! PROOFS. A notice folded into the one waiting notice of its pair (R167, R170). -/

namespace Sys2Proof.Machine

/-! ## Folding one item -/

theorem foldInto_of_pair {n m : Notice} (hlink : m.link = n.link) (hkind : m.kind = n.kind) :
    foldInto n (.notice m) =
      .notice ⟨m.link, m.kind, n.edge, n.counter, n.score, m.flicker || decide (n.edge ≠ m.edge)⟩ :=
  if_pos (by simp [samePair, hlink, hkind])

theorem foldInto_of_pair?_ne {n : Notice} {it : Item} (h : it.pair? ≠ some (n.link, n.kind)) : foldInto n it = it := by
  cases it with
  | offer k p => rfl
  | notice m => exact if_neg (by simpa [samePair, Item.pair?] using h)

/-! ## Folding along the queue -/

/-- Where no notice of the pair waits, folding changes nothing. -/
theorem map_foldInto_of_not_mem {n : Notice} {q : List Item} (h : (n.link, n.kind) ∉ q.filterMap Item.pair?) :
    q.map (foldInto n) = q := by
  have stays : ∀ it ∈ q, foldInto n it = it := fun it hit =>
    foldInto_of_pair?_ne fun hp => h (List.mem_filterMap.2 ⟨it, hit, hp⟩)
  exact (List.map_congr_left stays).trans q.map_id

/-- Where at most one notice waits for any pair, none beside a waiting notice waits for its pair (R167). -/
theorem pair_not_mem_beside {m : Notice} {before after : List Item}
    (h : ((before ++ .notice m :: after).filterMap Item.pair?).Nodup) :
    (m.link, m.kind) ∉ before.filterMap Item.pair? ∧ (m.link, m.kind) ∉ after.filterMap Item.pair? := by
  have pair_m : Item.pair? (.notice m) = some (m.link, m.kind) := rfl
  rw [List.filterMap_append, List.filterMap_cons_some pair_m, List.nodup_middle, List.nodup_cons,
    List.mem_append, not_or] at h
  exact h.1

/-- Folding changes the one waiting notice of the pair alone, in its place (R170). -/
theorem map_foldInto_at {n m : Notice} {before after : List Item} (hlink : m.link = n.link) (hkind : m.kind = n.kind)
    (h : ((before ++ .notice m :: after).filterMap Item.pair?).Nodup) :
    (before ++ .notice m :: after).map (foldInto n) =
      before ++ .notice ⟨m.link, m.kind, n.edge, n.counter, n.score, m.flicker || decide (n.edge ≠ m.edge)⟩ :: after := by
  obtain ⟨hBefore, hAfter⟩ := pair_not_mem_beside h
  rw [hlink, hkind] at hBefore hAfter
  rw [List.map_append, List.map_cons, foldInto_of_pair hlink hkind, map_foldInto_of_not_mem hBefore,
    map_foldInto_of_not_mem hAfter]

/-! ## The notice handed over -/

/-- A notice whose pair has a waiting notice is folded, whatever the depth and the notice count (R170). -/
theorem makeNotice_of_waiting {n m : Notice} {s : State} (hm : .notice m ∈ s.queue) (hlink : m.link = n.link)
    (hkind : m.kind = n.kind) : makeNotice n s = foldNotice n s :=
  if_pos (List.any_eq_true.2 ⟨.notice m, hm, by simp [samePair, hlink, hkind]⟩)

/-- Settles O52: the notice is folded, since one of its pair waits; the fold changes that item alone, since no other of
the pair waits; and no fold changes the depth or the notice count. -/
theorem noticesFoldIntoTheirPair : Obligations.NoticesFoldIntoTheirPair := by
  intro s n m before after hq hlink hkind hNodup
  have folded : makeNotice n s = foldNotice n s := makeNotice_of_waiting (by simp [hq]) hlink hkind
  obtain ⟨sameDepth, sameCount, -, -⟩ := map_foldInto n s.queue
  rw [folded, foldNotice_queue]
  refine ⟨?inPlace, sameDepth, sameCount⟩
  case inPlace =>
    rw [hq] at hNodup
    rw [foldNotice, hq, map_foldInto_at hlink hkind hNodup]

end Sys2Proof.Machine
end

