-- ==== Sys2Proof/Proofs/Changes.lean ====
section
/-! PROOFS. What the invariants read of a state, and the changes of it that the operations make, said once: every operation is a run of such changes. -/

namespace Sys2Proof.Machine

/-! ## What the invariants read -/

/-- The fields of a link that the invariants read; the marks, counts, scores and the root window are no part of it. -/
def Link.held (l : Link) : Link :=
  { l with
    rootWindow := .empty, rate := 0, periodCount := 0, hostHold := false, supervisorHold := false, silence := 0
    kinds := .replicate 9 .zero, scores := .replicate 4 0, shopCodes := [] }

/-- KEY_SPENT is active. -/
def Link.keySpentActive (l : Link) : Bool := (l.kind .keySpent).active

/-- The link `m` is `l` but for fields that no invariant reads. -/
structure Link.Alike (l m : Link) : Prop where
  held : m.held = l.held
  keySpent : m.keySpentActive = l.keySpentActive

theorem Link.Alike.refl (l : Link) : l.Alike l := ⟨rfl, rfl⟩

theorem Link.Alike.trans {l m n : Link} (h : l.Alike m) (g : m.Alike n) : l.Alike n :=
  ⟨g.held.trans h.held, g.keySpent.trans h.keySpent⟩

section
variable {l m : Link}
theorem Link.state_of_held (h : m.held = l.held) : m.state = l.state := by
  have e := congrArg Link.state h; exact e
theorem Link.first_of_held (h : m.held = l.held) : m.first = l.first := by
  have e := congrArg Link.first h; exact e
theorem Link.last_of_held (h : m.held = l.held) : m.last = l.last := by
  have e := congrArg Link.last h; exact e
theorem Link.profile_of_held (h : m.held = l.held) : m.profile = l.profile := by
  have e := congrArg Link.profile h; exact e
theorem Link.rootKey_of_held (h : m.held = l.held) : m.rootKey = l.rootKey := by
  have e := congrArg Link.rootKey h; exact e
theorem Link.rootSequence_of_held (h : m.held = l.held) : m.rootSequence = l.rootSequence := by
  have e := congrArg Link.rootSequence h; exact e
theorem Link.current_of_held (h : m.held = l.held) : m.current = l.current := by
  have e := congrArg Link.current h; exact e
theorem Link.nextSequence_of_held (h : m.held = l.held) : m.nextSequence = l.nextSequence := by
  have e := congrArg Link.nextSequence h; exact e
theorem Link.retiring_of_held (h : m.held = l.held) : m.retiring = l.retiring := by
  have e := congrArg Link.retiring h; exact e
theorem Link.retireTimer_of_held (h : m.held = l.held) : m.retireTimer = l.retireTimer := by
  have e := congrArg Link.retireTimer h; exact e
theorem Link.renewal_of_held (h : m.held = l.held) : m.renewal = l.renewal := by
  have e := congrArg Link.renewal h; exact e
theorem Link.restTimer_of_held (h : m.held = l.held) : m.restTimer = l.restTimer := by
  have e := congrArg Link.restTimer h; exact e
theorem Link.checkCode_of_held (h : m.held = l.held) : m.checkCode = l.checkCode := by
  have e := congrArg Link.checkCode h; exact e
end

/-- Two states agree in all that the invariants read, but for the notices on the queue. -/
structure Beside (s t : State) : Prop where
  links : t.links = s.links
  branchMap : t.branchMap = s.branchMap
  profiles : t.profiles = s.profiles
  dueList : t.dueList = s.dueList
  records : t.records = s.records
  sendOrder : t.sendOrder = s.sendOrder
  offers : t.queue.filterMap Item.offer? = s.queue.filterMap Item.offer?

theorem Beside.refl (s : State) : Beside s s := ⟨rfl, rfl, rfl, rfl, rfl, rfl, rfl⟩

theorem Beside.trans {s t u : State} (h : Beside s t) (g : Beside t u) : Beside s u :=
  ⟨g.links.trans h.links, g.branchMap.trans h.branchMap, g.profiles.trans h.profiles, g.dueList.trans h.dueList,
    g.records.trans h.records, g.sendOrder.trans h.sendOrder, g.offers.trans h.offers⟩

theorem Beside.ite {s t u : State} {c : Prop} [Decidable c] (h : Beside s t) (g : Beside s u) :
    Beside s (if c then t else u) := by
  split <;> assumption

theorem Beside.link {s t : State} (h : Beside s t) (k : Slot) : t.link k = s.link k := by
  simp only [State.link, h.links]

theorem Beside.of_queue {s t : State} (h : { t with queue := [] } = { s with queue := [] })
    (hq : t.queue.filterMap Item.offer? = s.queue.filterMap Item.offer?) : Beside s t :=
  ⟨by have e := congrArg State.links h; exact e, by have e := congrArg State.branchMap h; exact e,
    by have e := congrArg State.profiles h; exact e, by have e := congrArg State.dueList h; exact e,
    by have e := congrArg State.records h; exact e, by have e := congrArg State.sendOrder h; exact e, hq⟩

/-! ## Changes -/

/-- The link with another use, age and window of CURRENT, and another next sequence. -/
def Link.usedCurrent (use age : Nat) (window : Window) (next : Nat) (l : Link) : Link :=
  { l with current := { l.current with use := use, age := age, window := window }, nextSequence := next }

/-- The link with another use, age and window of RETIRING, and another retire timer. -/
def Link.usedRetiring (use age : Nat) (window : Window) (timer : Nat) (l : Link) : Link :=
  { l with retiring := { l.retiring with use := use, age := age, window := window }, retireTimer := timer }

/-- The changes that bear on the limits of a key: uses, ages, windows and timers of a slot that is IN_USE, and an
installation, which moves CURRENT to RETIRING. -/
inductive Touch (s : State) : State → Prop where
  | current (k : Slot) (m : Link) (use age : Nat) (window : Window) (next : Nat)
    (ready : (s.link k).current.state = .inUse ∨ (s.link k).state = .live)
    (alike : ((s.link k).usedCurrent use age window next).Alike m) :
    Touch s (s.setLink k m)
  | retiring (k : Slot) (m : Link) (use age : Nat) (window : Window) (timer : Nat)
    (ready : (s.link k).retiring.state = .inUse)
    (alike : ((s.link k).usedRetiring use age window timer).Alike m) :
    Touch s (s.setLink k m)
  | installed (n : RecordNumber) (m : Link) (waits : s.records[n].state = .waitingReply)
    (sound : (s.link s.records[n].slot).state ≠ .quarantined) (mapped : ∃ u ∈ s.branchMap, u.slot = s.records[n].slot)
    (held : m.held =
      (installedRecord (s.profileOf s.records[n].slot) s.records[n] (s.link s.records[n].slot)).held)
    (active : m.keySpentActive = false) : Touch s (freeRecordAt n (s.setLink s.records[n].slot m))

/-- The changes that operations make of what the invariants read, those of `Touch` apart. -/
inductive Change (s : State) : State → Prop where
  | none : Change s s
  | link (k : Slot) (m : Link) (alike : (s.link k).Alike m) : Change s (s.setLink k m)
  | spent (k : Slot) (m : Link) (inUse : (s.link k).current.state = .inUse)
    (held : m.held = (spentRecord (s.link k)).held) (active : m.keySpentActive = true) : Change s (s.setLink k m)
  | erased (k : Slot) (inUse : (s.link k).retiring.state = .inUse) : Change s (s.modLink k erasedRecord)
  | admitted (n : RecordNumber) (k : Slot) (key : Key) (salt : Salt) (nonce : AttemptNonce)
    (free : s.freeRecord = some n) (head : s.dueList.head? = some k) :
    Change s (joinSendOrder n
      (((removeDue k s).setRecord n (admittedRecord (s.link k) k key salt nonce)).modLink k (Link.withRenewal .exchange 0)))
  | originated : Change s (tryOriginate s)
  | joined (k : Slot) (sec : Section) (state : ¬ ((s.link k).state = .vacant ∨ (s.link k).state = .quarantined))
    (renewal : (s.link k).renewal = .idle ∨ (s.link k).renewal = .rest) :
    Change s ((appendDue k sec s).modLink k (Link.withRenewal .due 0))
  | promoted (k : Slot) (listed : k ∈ s.dueList.ordinary) : Change s (promoteDue k s)
  | failed (n : RecordNumber) (time : Nat) (waits : s.records[n].state = .waitingReply) :
    Change s ((freeRecordAt n s).modLink s.records[n].slot (Link.withRenewal .rest time))
  | retried (n : RecordNumber) (r : RenewalRecord) (waits : s.records[n].state = .waitingReply)
    (slot : r.slot = s.records[n].slot) (state : r.state = .waitingSend) (queued : r.offerQueued = false) :
    Change s (joinSendOrder n (s.setRecord n r))
  | noted (n : RecordNumber) (r : RenewalRecord) (slot : r.slot = s.records[n].slot)
    (state : r.state = s.records[n].state) (queued : r.offerQueued = s.records[n].offerQueued) :
    Change s (s.setRecord n r)
  | delivered (it : Item) (rest : List Item) (front : s.queue = it :: rest) : Change s (deliverItem it (popItem s))
  | rested (k : Slot) : Change s (s.modLink k countedRest)
  | quarantined (k : Slot) (m : Link) (state : ¬ ((s.link k).state = .quarantined ∨ (s.link k).state = .vacant))
    (held : m.held = (quarantinedRecord s.branchMap k (s.link k)).held) (active : m.keySpentActive = false) :
    Change s (removeOffers k (removeDue k (freeRecordOf k (s.setLink k m))))
  | retired (k : Slot) : Change s
      ((setBranchMap (removeTriple k s.branchMap) (removeItems k (removeDue k (freeRecordOf k s)))).setLink k .vacant)
  | enrolled (k : Slot) (b : LinkBlock) (p : ProfileNumber) (key : Key) (hold : Bool)
    (vacant : (s.link k).state = .vacant) (range : b.first ≤ b.last ∧ b.last < 65535)
    (clear : s.branchMap.any (rangesShare b.first b.last) = false) (root : key ≠ 0) :
    Change s (setBranchMap (insertTriple ⟨b.first, b.last, k⟩ s.branchMap) (s.setLink k (enrolledRecord b p key hold)))
  | relinked (k : Slot) (b : LinkBlock) (p : ProfileNumber) (state : (s.link k).state ≠ .vacant)
    (range : b.first ≤ b.last ∧ b.last < 65535)
    (clear : (removeTriple k s.branchMap).any (rangesShare b.first b.last) = false) (moves : ¬ s.rangeOf k = (b.first, b.last)) :
    Change s ((setBranchMap (replaceTriple k b.first b.last s.branchMap) s).modLink k (relinkedRecord b false p))
  | renamed (k : Slot) (b : LinkBlock) (p : ProfileNumber) : Change s (s.modLink k (relinkedRecord b true p))
  | profiled (p : ProfileNumber) (v : Profile) (valid : v.valid = true → v.inRange) : Change s (s.setProfile p v)
  | restarted : Change s (restartState s)
  | reset : Change s (resetDevice s)

/-- What a part of an operation keeps whatever else it does: the canonical forms, the limits of the queue and the
agreement of keys and states. -/
structure Sound (s t : State) : Prop where
  memory : s.hostMem.wf = true → t.hostMem.wf = true
  links : linksWf s.links = true → linksWf t.links = true
  queue : queueOk s.queue → queueOk t.queue
  keys : s.keysAgree → t.keysAgree

theorem Sound.trans {s t u : State} (h : Sound s t) (g : Sound t u) : Sound s u :=
  ⟨g.memory ∘ h.memory, g.links ∘ h.links, g.queue ∘ h.queue, g.keys ∘ h.keys⟩

theorem Quiet.sound {s t : State} (h : Quiet s t) : Sound s t := ⟨fun hm => h.hostMem ▸ hm, h.links, h.queue, h.keys⟩

/-- A part that leaves the link records and the queue alone. -/
theorem Sound.of_same {s t : State} (memory : s.hostMem.wf = true → t.hostMem.wf = true) (links : t.links = s.links)
    (queue : t.queue = s.queue) : Sound s t := by
  refine ⟨memory, fun h => links ▸ h, fun h => queue ▸ h, fun h k => ?_⟩
  have : t.link k = s.link k := by simp only [State.link, links]
  exact this ▸ h k

/-- One change, or one touch, with anything done beside what the invariants read. -/
structure Effect (s t : State) : Prop where
  tracked : ∃ u, (Change s u ∨ Touch s u) ∧ Beside u t
  sound : Sound s t

/-- Every valid profile is in range, and every IN_USE key slot but those of `E` is below its limits. -/
def State.limitsExcept (E : Slot → KeySlotName → Prop) (s : State) : Prop :=
  (∀ p : ProfileNumber, s.profiles[p].valid = true → s.profiles[p].inRange) ∧
    ∀ k, (¬ E k .current → (s.link k).current.belowLimits) ∧ (¬ E k .retiring → (s.link k).retiring.belowLimits)

/-- No key slot. -/
def noSlots : Slot → KeySlotName → Prop := fun _ _ => False

theorem State.limitsExcept_noSlots {s : State} : s.limitsExcept noSlots ↔ s.limitsOk := by
  simp [State.limitsExcept, noSlots, State.limitsOk]

/-- A run of effects that leaves the keys within their limits as far as they were, those of `E` apart. -/
structure Runs (E : Slot → KeySlotName → Prop) (s t : State) : Prop where
  effects : Relation.ReflTransGen Effect s t
  limits : s.limitsExcept E → t.limitsExcept E

namespace Runs

variable {E : Slot → KeySlotName → Prop} {s t u : State}

theorem refl (s : State) : Runs E s s := ⟨.refl, id⟩

theorem trans (h : Runs E s t) (g : Runs E t u) : Runs E s u := ⟨h.effects.trans g.effects, g.limits ∘ h.limits⟩

theorem ite {c : Prop} [Decidable c] (h : c → Runs E s t) (g : ¬ c → Runs E s u) : Runs E s (if c then t else u) := by
  split
  · exact h ‹_›
  · exact g ‹_›

/-- A fold of runs is a run. -/
theorem foldl {β : Type} {f : State → β → State} (h : ∀ s b, Runs E s (f s b)) (l : List β) (s : State) :
    Runs E s (l.foldl f s) := by
  induction l generalizing s with
  | nil => exact refl s
  | cons b l ih => exact (h s b).trans (ih _)

end Runs

theorem limitsExcept_beside {E : Slot → KeySlotName → Prop} {s t : State} (h : Beside s t) (hs : s.limitsExcept E) :
    t.limitsExcept E := by
  obtain ⟨hp, hl⟩ := hs
  refine ⟨fun p => by rw [h.profiles]; exact hp p, fun k => ?_⟩
  rw [h.link k]
  exact hl k

end Sys2Proof.Machine
end

