-- ==== Sys2Proof/Proofs/Runs.lean ====
section
/-! PROOFS. Every operation is a run of the changes that `Changes.lean` lists. -/

namespace Sys2Proof.Machine

variable {E : Slot → KeySlotName → Prop}

/-! ## Kinds of a fault record -/

@[simp] theorem Link.kind_setKind_same (l : Link) (kind : LinkKind) (v : KindRecord) : (l.setKind kind v).kind kind = v := by
  simp [Link.kind, Link.setKind]

theorem LinkKind.index_injective {a b : LinkKind} (h : a.index = b.index) : a = b := by
  cases a <;> cases b <;> first | rfl | exact absurd h (by decide)

theorem Link.kind_setKind_ne (l : Link) {kind other : LinkKind} (v : KindRecord) (h : other ≠ kind) :
    (l.setKind kind v).kind other = l.kind other := by
  have hne : (kind.index : Nat) ≠ other.index := fun e => h (LinkKind.index_injective (Fin.ext e.symm))
  simp [Link.kind, Link.setKind, Vector.getElem_set_ne, hne]

theorem Link.alike_setKind (l : Link) {kind : LinkKind} (v : KindRecord)
    (h : kind = .keySpent → v.active = l.keySpentActive) : l.Alike (l.setKind kind v) := by
  refine ⟨rfl, ?_⟩
  by_cases hk : kind = .keySpent
  · subst hk
    simp [Link.keySpentActive] at h ⊢
    exact h
  · exact congrArg KindRecord.active (Link.kind_setKind_ne l v fun e => hk e.symm)

/-! ## A record written twice -/

theorem tablePut_put {α : Type} (t : List (Nat × α)) (k : Nat) (v w : α) :
    tablePut (tablePut t k v) k w = tablePut t k w := by
  induction t with
  | nil => simp [tablePut]
  | cons e t ih =>
    obtain ⟨j, x⟩ := e
    rcases lt_trichotomy k j with h | h | h
    · simp [tablePut, h]
    · subst h
      simp [tablePut]
    · have h1 : ¬ k < j := by omega
      have h2 : ¬ k = j := by omega
      simp [tablePut, h1, h2, ih]

theorem tableErase_put {α : Type} (t : List (Nat × α)) (k : Nat) (v : α) :
    tableErase (tablePut t k v) k = tableErase t k := by
  induction t with
  | nil => simp [tablePut, tableErase]
  | cons e t ih =>
    obtain ⟨j, x⟩ := e
    rcases lt_trichotomy k j with h | h | h
    · simp [tablePut, h, tableErase_cons]
    · subst h
      simp [tablePut, tableErase_cons]
    · have h1 : ¬ k < j := by omega
      have h2 : ¬ k = j := by omega
      simp [tablePut, h1, h2, tableErase_cons, ih]

/-- Of two records written at one slot, the first of which is listed, the second stays. -/
theorem State.setLink_setLink (s : State) (k : Slot) {l : Link} (m : Link) (h : l ≠ .vacant) :
    (s.setLink k l).setLink k m = s.setLink k m := by
  simp only [State.setLink, h, if_false, tablePut_put, tableErase_put]

theorem State.modLink_setLink (s : State) (k : Slot) {l : Link} (f : Link → Link) (h : l ≠ .vacant) :
    (s.setLink k l).modLink k f = s.setLink k (f l) := by
  rw [State.modLink, State.link_setLink_same, State.setLink_setLink s k _ h]

theorem Link.ne_vacant {l : Link} (h : l.state ≠ .vacant) : l ≠ .vacant := fun e => h (e ▸ rfl)

/-! ## What is done beside the tracked state -/

theorem beside_setCause (s : State) (c : Cause) : Beside s (s.setCause c) := ⟨rfl, rfl, rfl, rfl, rfl, rfl, rfl⟩

theorem beside_modDevice (s : State) (f : DeviceFaults → DeviceFaults) : Beside s (s.modDevice f) :=
  ⟨rfl, rfl, rfl, rfl, rfl, rfl, rfl⟩

theorem beside_makeNotice (n : Notice) (s : State) : Beside s (makeNotice n s) := by
  have joined : (s.queue ++ [Item.notice n]).filterMap Item.offer? = s.queue.filterMap Item.offer? := by
    simp [Item.offer?]
  have pushed : Beside s (pushItem (.notice n) s) := .of_queue rfl joined
  unfold makeNotice
  refine .ite ?folded (.ite (.ite (pushed.trans (beside_setCause _ _)) pushed) (beside_modDevice _ _))
  case folded => exact .of_queue rfl (map_foldInto n s.queue).2.2.2

theorem beside_linkNotice (k : Slot) (kind : LinkKind) (edge : Edge) (s : State) : Beside s (linkNotice k kind edge s) :=
  beside_makeNotice _ s

theorem beside_raiseDevice (item : DeviceItem) (s : State) : Beside s (raiseDevice item s) := by
  unfold raiseDevice
  exact .ite (.refl s) ((beside_modDevice _ _).trans ((beside_makeNotice _ _).trans (beside_setCause _ _)))

theorem beside_countUnknownBranch (s : State) : Beside s (countUnknownBranch s) :=
  (beside_modDevice _ _).trans ((beside_makeNotice _ _).trans (beside_setCause _ _))

theorem beside_nextNoise (s : State) : Beside s (nextNoise s).2 := by
  unfold nextNoise
  split <;> exact ⟨rfl, rfl, rfl, rfl, rfl, rfl, rfl⟩

theorem beside_setLastDraw (d : Draw) (s : State) : Beside s (setLastDraw d s) := ⟨rfl, rfl, rfl, rfl, rfl, rfl, rfl⟩

theorem beside_draw (s : State) : Beside s (draw s).2 := by
  have h := beside_nextNoise s
  unfold draw
  rcases hn : nextNoise s with ⟨d, t⟩
  rw [hn] at h
  show Beside s (if _ then _ else _ : Option Draw × State).2
  split
  · exact h.trans ((beside_setLastDraw d t).trans (beside_raiseDevice _ _))
  · exact h.trans (beside_setLastDraw d t)

theorem beside_drawMany (n : Nat) (s : State) : Beside s (drawMany n s).2 := by
  induction n generalizing s with
  | zero => exact .refl s
  | succ n ih =>
    have h := beside_draw s
    unfold drawMany
    split <;> rename_i hd <;> rw [hd] at h
    · exact h
    · rename_i t
      have h2 := ih t
      split <;> rename_i hm <;> rw [hm] at h2 <;> exact h.trans h2

theorem beside_selfTest (s : State) : Beside s (selfTest s) := (beside_draw s).trans (beside_draw _)

/-! ## Limits under each change -/

theorem KeySlot.belowLimits_of_state {k : KeySlot} (h : k.state ≠ .inUse) : k.belowLimits := fun e => absurd e h

/-- Writing a record keeps the limits as far as the record's own key slots keep them. -/
theorem limitsExcept_setLink {s : State} {k : Slot} {m : Link} (hs : s.limitsExcept E)
    (hc : (¬ E k .current → (s.link k).current.belowLimits) → ¬ E k .current → m.current.belowLimits)
    (hr : (¬ E k .retiring → (s.link k).retiring.belowLimits) → ¬ E k .retiring → m.retiring.belowLimits) :
    (s.setLink k m).limitsExcept E := by
  obtain ⟨hp, hl⟩ := hs
  refine ⟨hp, fun j => ?_⟩
  rw [State.link_setLink]
  split
  · rename_i hj
    subst hj
    exact ⟨hc (hl _).1, hr (hl _).2⟩
  · exact hl j

/-- Two states with the same profiles, and with records at each slot whose key slots are the same. -/
theorem limitsExcept_of_slots {s t : State} (hp : t.profiles = s.profiles)
    (hc : ∀ k, (t.link k).current = (s.link k).current) (hr : ∀ k, (t.link k).retiring = (s.link k).retiring)
    (hs : s.limitsExcept E) : t.limitsExcept E := by
  obtain ⟨profiles, slots⟩ := hs
  refine ⟨by rw [hp]; exact profiles, fun k => ?_⟩
  rw [hc, hr]
  exact slots k

theorem limitsExcept_congr {s t : State} (hp : t.profiles = s.profiles) (hl : t.links = s.links)
    (hs : s.limitsExcept E) : t.limitsExcept E := by
  have same : ∀ k, t.link k = s.link k := fun k => by simp only [State.link, hl]
  exact limitsExcept_of_slots hp (fun k => by rw [same]) (fun k => by rw [same]) hs

theorem limitsExcept_modLink {s : State} {k : Slot} {f : Link → Link} (hs : s.limitsExcept E)
    (hc : ∀ l, (f l).current = l.current) (hr : ∀ l, (f l).retiring = l.retiring) : (s.modLink k f).limitsExcept E :=
  limitsExcept_setLink hs (by rw [hc]; exact id) (by rw [hr]; exact id)

/-- A try at origination takes root sequences of link records, and nothing else of them. -/
theorem tryOriginate_links (s : State) (k : Slot) :
    ∃ q, (tryOriginate s).link k = { s.link k with rootSequence := q } := by
  unfold tryOriginate
  generalize s.sendOrder = order
  induction order generalizing s with
  | nil => exact ⟨_, rfl⟩
  | cons n order ih =>
    rw [List.foldl_cons]
    have step : ∃ q, (if canOriginate n s = true then originateOne n s else s).link k =
        { s.link k with rootSequence := q } := by
      split
      · have h : (originateOne n s).link k = (s.setLink s.records[n].slot { s.link s.records[n].slot with
            rootSequence := nextSequence (s.link s.records[n].slot).rootSequence }).link k := by
          simp only [State.link]
          congr 2
          unfold originateOne joinQueue
          dsimp only
          split <;> rfl
        rw [h, State.link_setLink]
        split
        · rename_i e
          subst e
          exact ⟨_, rfl⟩
        · exact ⟨_, rfl⟩
      · exact ⟨_, rfl⟩
    obtain ⟨q, hq⟩ := step
    obtain ⟨q', hq'⟩ := ih (if canOriginate n s = true then originateOne n s else s)
    exact ⟨q', by rw [hq', hq]⟩

theorem freeRecordOf_links (k : Slot) (s : State) : (freeRecordOf k s).links = s.links := by
  unfold freeRecordOf; split <;> rfl

theorem freeRecordOf_profiles (k : Slot) (s : State) : (freeRecordOf k s).profiles = s.profiles :=
  (quiet_freeRecordOf k s).profiles

theorem deliverItem_links (it : Item) (s : State) : (deliverItem it s).links = s.links := by
  unfold deliverItem; split
  · rfl
  · split <;> rfl

/-- A walk over link records changes those it meets, by changes that may be made twice. -/
theorem onEnrolled_link {f : Link → Link} (hf : ∀ l, f (f l) = f l) (s : State) (k : Slot) :
    (onEnrolled f s).link k = if (s.link k).state = .vacant then s.link k else f (s.link k) := by
  have walk : ∀ (order : List Slot) (t : State),
      (order.foldl (fun t k => t.modLink k f) t).link k = if k ∈ order then f (t.link k) else t.link k := by
    intro order
    induction order with
    | nil => intro t; rfl
    | cons j order ih =>
      intro t
      rw [List.foldl_cons, ih]
      by_cases hj : k = j
      · subst hj
        simp [hf]
      · simp [hj, State.link_modLink_ne t f hj]
  have listed : k ∈ s.enrolledSlots ↔ (s.link k).state ≠ .vacant := by
    simp [State.enrolledSlots, allSlots, State.enrolled]
  rw [onEnrolled, walk]
  by_cases h : (s.link k).state = .vacant <;> simp [listed, h]

theorem restartState_link (s : State) (k : Slot) :
    (restartState s).link k = if (s.link k).state = .vacant then s.link k else restartedRecord (s.link k) := by
  have same : (restartState s).links = (onEnrolled restartedRecord s).links := by
    rw [restartState, clearForRestart]
  have link : (restartState s).link k = (onEnrolled restartedRecord s).link k := by simp only [State.link, same]
  have twice : ∀ l, restartedRecord (restartedRecord l) = restartedRecord l := fun l => rfl
  rw [link, onEnrolled_link twice]

theorem resetDevice_link (s : State) (k : Slot) : (resetDevice s).link k = .vacant := rfl

/-- Every change but those of `Touch` keeps the limits. -/
theorem Change.limits {s u : State} (c : Change s u) (hs : s.limitsExcept E) : u.limitsExcept E := by
  cases c with
  | none => exact hs
  | link k m alike =>
    refine limitsExcept_setLink hs ?_ ?_
    · rw [Link.current_of_held alike.held]; exact id
    · rw [Link.retiring_of_held alike.held]; exact id
  | spent k m inUse held active =>
    refine limitsExcept_setLink hs ?_ ?_
    · rw [Link.current_of_held held]
      exact fun _ _ => KeySlot.belowLimits_of_state (show SlotState.spent ≠ .inUse by decide)
    · rw [Link.retiring_of_held held]; exact id
  | erased k inUse =>
    exact limitsExcept_setLink hs id fun _ _ => KeySlot.belowLimits_of_state (show SlotState.empty ≠ .inUse by decide)
  | admitted n k key salt nonce free head =>
    have taken : (((removeDue k s).setRecord n (admittedRecord (s.link k) k key salt nonce))).limitsExcept E :=
      limitsExcept_congr (s := s) rfl rfl hs
    exact limitsExcept_congr rfl rfl
      (limitsExcept_modLink (k := k) (f := Link.withRenewal .exchange 0) taken (fun _ => rfl) (fun _ => rfl))
  | originated =>
    refine limitsExcept_of_slots (quiet_tryOriginate s).profiles (fun k => ?_) (fun k => ?_) hs
    · obtain ⟨q, h⟩ := tryOriginate_links s k; rw [h]
    · obtain ⟨q, h⟩ := tryOriginate_links s k; rw [h]
  | joined k sec state renewal =>
    have listed : (appendDue k sec s).limitsExcept E := limitsExcept_congr (s := s) rfl rfl hs
    exact limitsExcept_modLink listed (fun _ => rfl) (fun _ => rfl)
  | promoted k listed => exact hs
  | failed n time waits =>
    have freed : (freeRecordAt n s).limitsExcept E := limitsExcept_congr (s := s) rfl rfl hs
    exact limitsExcept_modLink freed (fun _ => rfl) (fun _ => rfl)
  | retried n r waits slot state queued => exact hs
  | noted n r slot state queued => exact hs
  | delivered it rest front =>
    exact limitsExcept_congr (quiet_deliverItem it _).profiles (deliverItem_links it _) hs
  | rested k =>
    refine limitsExcept_modLink hs (fun l => ?_) (fun l => ?_)
    all_goals
      unfold countedRest
      split
      · split <;> rfl
      · rfl
  | quarantined k m state held active =>
    have freed := limitsExcept_setLink (k := k) (m := m) hs
      (by rw [Link.current_of_held held]
          exact fun _ _ => KeySlot.belowLimits_of_state (show SlotState.empty ≠ .inUse by decide))
      (by rw [Link.retiring_of_held held]
          exact fun _ _ => KeySlot.belowLimits_of_state (show SlotState.empty ≠ .inUse by decide))
    exact limitsExcept_congr (s := s.setLink k m) (freeRecordOf_profiles k (s.setLink k m))
      (freeRecordOf_links k (s.setLink k m)) freed
  | retired k =>
    have freed : (freeRecordOf k s).limitsExcept E :=
      limitsExcept_congr (freeRecordOf_profiles k s) (freeRecordOf_links k s) hs
    generalize freeRecordOf k s = t at freed ⊢
    have left : (setBranchMap (removeTriple k s.branchMap) (removeItems k (removeDue k t))).limitsExcept E :=
      limitsExcept_congr (s := t) rfl rfl freed
    refine limitsExcept_setLink left ?_ ?_
    all_goals exact fun _ _ => KeySlot.belowLimits_of_state (show SlotState.empty ≠ .inUse by decide)
  | enrolled k b p key hold vacant range clear root =>
    have written : (s.setLink k (enrolledRecord b p key hold)).limitsExcept E := by
      refine limitsExcept_setLink hs ?_ ?_
      all_goals exact fun _ _ => KeySlot.belowLimits_of_state (show SlotState.empty ≠ .inUse by decide)
    exact limitsExcept_congr rfl rfl written
  | relinked k b p state range clear moves =>
    have mapped : (setBranchMap (replaceTriple k b.first b.last s.branchMap) s).limitsExcept E :=
      limitsExcept_congr (s := s) rfl rfl hs
    refine limitsExcept_modLink mapped (fun l => ?_) (fun l => ?_)
    all_goals unfold relinkedRecord; split <;> rfl
  | renamed k b p =>
    refine limitsExcept_modLink hs (fun l => ?_) (fun l => ?_)
    all_goals unfold relinkedRecord; split <;> rfl
  | profiled p v valid =>
    refine ⟨fun q hq => ?_, hs.2⟩
    have got : (s.setProfile p v).profiles[q] = if p = q then v else s.profiles[q] := by
      simp [State.setProfile, Vector.getElem_set, Fin.ext_iff]
    rw [got] at hq ⊢
    split at hq
    · rename_i h
      rw [if_pos h]
      exact valid hq
    · rename_i h
      rw [if_neg h]
      exact hs.1 q hq
  | restarted =>
    refine limitsExcept_of_slots (s := s) ?_ (fun k => ?_) (fun k => ?_) hs
    · have walked := (quiet_onEnrolled (f := restartedRecord) (keeps_withRenewal _ _) s).profiles
      rw [restartState]
      generalize onEnrolled restartedRecord s = t at walked ⊢
      exact walked
    all_goals
      rw [restartState_link]
      split <;> rfl
  | reset =>
    refine ⟨fun p hp => ?_, fun k => ?_⟩
    · have : (resetDevice s).profiles[p] = .invalid := by simp [resetDevice, State.reset]
      rw [this] at hp
      cases hp
    · rw [resetDevice_link]
      exact ⟨fun _ => KeySlot.belowLimits_of_state (show SlotState.empty ≠ .inUse by decide),
        fun _ => KeySlot.belowLimits_of_state (show SlotState.empty ≠ .inUse by decide)⟩

end Sys2Proof.Machine
end

