-- ==== Sys2Proof/Proofs/RunsOps.lean ====
section
/-! PROOFS. Every operation that makes no access of host memory is a run of changes. -/

namespace Sys2Proof.Machine

variable {E : Slot → KeySlotName → Prop}

/-! ## From changes to runs -/

theorem Effect.of_change {s u t : State} (c : Change s u) (b : Beside u t) (q : Sound s t) : Effect s t :=
  ⟨⟨u, .inl c, b⟩, q⟩

/-- A change with something done beside it. -/
theorem Runs.of_sound {s u t : State} (c : Change s u) (b : Beside u t) (q : Sound s t) : Runs E s t :=
  ⟨.single (.of_change c b q), fun h => limitsExcept_beside b (c.limits h)⟩

theorem Runs.of_change {s u t : State} (c : Change s u) (b : Beside u t) (q : Quiet s t) : Runs E s t :=
  .of_sound c b q.sound

theorem Runs.change {s t : State} (c : Change s t) (q : Quiet s t) : Runs E s t := .of_change c (.refl t) q

theorem Runs.beside {s t : State} (b : Beside s t) (q : Quiet s t) : Runs E s t := .of_change .none b q

/-- A touch, by what it leaves of the limits. -/
theorem Runs.touch {s u t : State} (c : Touch s u) (b : Beside u t) (q : Quiet s t)
    (h : s.limitsExcept E → u.limitsExcept E) : Runs E s t :=
  ⟨.single ⟨⟨u, .inr c, b⟩, q.sound⟩, fun hs => limitsExcept_beside b (h hs)⟩

/-- A change of a link's fields that no invariant reads. -/
theorem runs_modLink {f : Link → Link} (h : ∀ l : Link, l.Alike (f l)) (hk : KeepsKeys f) (k : Slot) (s : State) :
    Runs E s (s.modLink k f) :=
  .change (.link k _ (h _)) (quiet_modLink hk k s)

/-! ## Changes of a link that no invariant reads -/

theorem alike_supervisedRecord (l : Link) : l.Alike (supervisedRecord l) := ⟨rfl, rfl⟩
theorem alike_withSilence (n : Nat) (l : Link) : l.Alike (l.withSilence n) := ⟨rfl, rfl⟩
theorem alike_decayedRecord (r : RateKind) (d : Nat) (l : Link) : l.Alike (decayedRecord r d l) := ⟨rfl, rfl⟩
theorem alike_reportedRecord (es : List ShopCode) (l : Link) : l.Alike (reportedRecord es l) := ⟨rfl, rfl⟩
theorem alike_ratedRecord (l : Link) : l.Alike (ratedRecord l) := ⟨rfl, rfl⟩
theorem alike_heldRecord (l : Link) : l.Alike (heldRecord l) := ⟨rfl, rfl⟩
theorem alike_releasedRecord (a b : Bool) (l : Link) : l.Alike (releasedRecord a b l) := ⟨rfl, rfl⟩

theorem alike_clearedCounters (l : Link) : l.Alike (clearedCounters l) :=
  ⟨rfl, by simp [Link.keySpentActive, Link.kind, clearedCounters]⟩

theorem RateKind.kind_ne_keySpent (r : RateKind) : r.kind ≠ .keySpent := by cases r <;> decide

theorem alike_scoredRecord (r : RateKind) (w : Nat) (l : Link) : l.Alike (scoredRecord r w l) :=
  Link.Alike.trans (m := l.setScore r (min countMax (l.score r + w))) ⟨rfl, rfl⟩
    (Link.alike_setKind _ _ fun e => absurd e r.kind_ne_keySpent)

theorem alike_clearedRecord {kind : LinkKind} (h : kind ≠ .keySpent) (l : Link) : l.Alike (clearedRecord kind l) :=
  Link.alike_setKind l _ fun e => absurd e h

theorem alike_raisedRecord {kind : LinkKind} (h : kind ≠ .keySpent) (l : Link) : l.Alike (raisedRecord kind l) :=
  Link.alike_setKind l _ fun e => absurd e h

theorem held_raisedRecord (kind : LinkKind) (l : Link) : (raisedRecord kind l).held = l.held := rfl

theorem held_clearedRecord (kind : LinkKind) (l : Link) : (clearedRecord kind l).held = l.held := rfl

theorem active_raisedRecord (kind : LinkKind) (l : Link) : ((raisedRecord kind l).kind kind).active = true := by
  unfold raisedRecord
  rw [Link.kind_setKind_same]
  split <;> rfl

theorem active_clearedRecord (kind : LinkKind) (l : Link) : ((clearedRecord kind l).kind kind).active = false := by
  unfold clearedRecord
  rw [Link.kind_setKind_same]

/-! ## Origination, admission and joins -/

theorem recordOf_congr {s t : State} (h : t.records = s.records) (k : Slot) : t.recordOf k = s.recordOf k := by
  unfold State.recordOf; rw [h]

theorem freeRecord_congr {s t : State} (h : t.records = s.records) : t.freeRecord = s.freeRecord := by
  unfold State.freeRecord; rw [h]

theorem runs_tryOriginate (s : State) : Runs E s (tryOriginate s) := .change .originated (quiet_tryOriginate s)

theorem runs_admitInto {n : RecordNumber} {k : Slot} (key : Key) (salt : Salt) (nonce : AttemptNonce) {s : State}
    (free : s.freeRecord = some n) (head : s.dueList.head? = some k) : Runs E s (admitInto n k key salt nonce s) := by
  refine Runs.trans ?_ (runs_tryOriginate _)
  refine .change (.admitted n k key salt nonce free head) ?_
  refine Quiet.trans ?_ (quiet_joinSendOrder n _)
  refine Quiet.trans ?_ (quiet_modLink (keeps_withRenewal _ _) k _)
  exact (quiet_removeDue k s).trans (quiet_setRecord _ _ _)

theorem runs_admitUpTo (i : Nat) (s : State) : Runs E s (admitUpTo i s) := by
  induction i generalizing s with
  | zero => exact .refl s
  | succ i ih =>
    unfold admitUpTo
    split
    · rename_i n k free head _
      have drawn : Runs E s (drawMany 6 s).2 := .beside (beside_drawMany 6 s) (quiet_drawMany 6 s)
      have tables := beside_drawMany 6 s
      split
      · rename_i t hd
        rw [hd] at drawn tables
        have free' : t.freeRecord = some n := (freeRecord_congr tables.records).trans free
        have head' : t.dueList.head? = some k := by rw [← head, tables.dueList]
        exact drawn.trans ((runs_admitInto _ _ _ free' head').trans (ih _))
      · rename_i hd
        rw [hd] at drawn
        exact drawn
    · exact .refl s

theorem runs_tryAdmit (s : State) : Runs E s (tryAdmit s) := runs_admitUpTo 16 s

theorem runs_joinDue {k : Slot} (sec : Section) {s : State}
    (state : ¬ ((s.link k).state = .vacant ∨ (s.link k).state = .quarantined))
    (renewal : (s.link k).renewal = .idle ∨ (s.link k).renewal = .rest) : Runs E s (joinDue k sec s) :=
  Runs.trans (.change (.joined k sec state renewal)
    ((quiet_appendDue k sec s).trans (quiet_modLink (keeps_withRenewal _ _) k _))) (runs_tryAdmit _)

theorem runs_forcedJoin {k : Slot} (sec : Section) {s : State}
    (state : ¬ ((s.link k).state = .vacant ∨ (s.link k).state = .quarantined)) : Runs E s (forcedJoin k sec s).2 := by
  unfold forcedJoin
  split
  · exact runs_joinDue sec state (.inl ‹_›)
  · exact runs_joinDue sec state (.inr ‹_›)
  · split
    · rename_i h
      exact .change (.promoted k h.2) (quiet_promoteDue k s)
    · exact .refl s
  · exact .refl s

theorem runs_dueCheck (k : Slot) (site : DueSite) (s : State) : Runs E s (dueCheck k site s) := by
  unfold dueCheck
  split
  · exact .refl s
  · rename_i state
    split
    · exact .ite (fun _ => runs_joinDue _ state (.inl ‹_›)) (fun _ => .refl s)
    · exact .ite (fun h => .change (.promoted k h.2.2) (quiet_promoteDue k s)) (fun _ => .refl s)
    · exact .refl s
    · exact .refl s

/-! ## Edges of kinds -/

theorem runs_clearKind {kind : LinkKind} (h : kind ≠ .keySpent) (k : Slot) (s : State) : Runs E s (clearKind k kind s) :=
  .of_change (.link k _ (alike_clearedRecord h _)) (beside_linkNotice _ _ _ _) (quiet_clearKind k kind s)

theorem runs_clearIfActive {kind : LinkKind} (h : kind ≠ .keySpent) (k : Slot) (s : State) :
    Runs E s (clearIfActive k kind s) :=
  .ite (fun _ => runs_clearKind h k s) (fun _ => .refl s)

theorem setLink_ne {s : State} {k : Slot} {l : Link} {f : Link → Link} (h : l.state ≠ .vacant) :
    (s.setLink k l).modLink k f = s.setLink k (f l) := State.modLink_setLink s k f (Link.ne_vacant h)

/-- KEY_SPENT cleared at a link that has just been written: one record is written, with the kind not active. -/
theorem clearIfActive_setLink {k : Slot} {s : State} {l : Link} (kind : LinkKind) (h : l.state ≠ .vacant) :
    ∃ m : Link, m.held = l.held ∧ (m.kind kind).active = false ∧ (∀ other, other ≠ kind → m.kind other = l.kind other) ∧
      Beside (s.setLink k m) (clearIfActive k kind (s.setLink k l)) := by
  unfold clearIfActive
  rw [State.link_setLink_same]
  by_cases ha : (l.kind kind).active = true
  · refine ⟨clearedRecord kind l, held_clearedRecord kind l, active_clearedRecord kind l,
      fun other ho => Link.kind_setKind_ne l _ ho, ?_⟩
    rw [if_pos ha, clearKind, setLink_ne h]
    exact beside_linkNotice _ _ _ _
  · rw [if_neg ha]
    exact ⟨l, rfl, by simpa using ha, fun _ _ => rfl, .refl _⟩

/-- The queued offers that are left when those of a link are removed. -/
theorem filterMap_offer?_removeOffers (k : Slot) (q : List Item) :
    (q.filter fun it => !isOfferOf k it).filterMap Item.offer? = (q.filterMap Item.offer?).filter fun j => j ≠ k := by
  induction q with
  | nil => rfl
  | cons it q ih =>
    cases it with
    | notice n => exact ih
    | offer j p =>
      by_cases hj : j = k
      · subst hj
        simpa [List.filter_cons, isOfferOf, Item.offer?] using ih
      · simpa [List.filter_cons, isOfferOf, Item.offer?, hj] using ih

theorem beside_freeRecordAt (n : RecordNumber) {s t : State} (h : Beside s t) :
    Beside (freeRecordAt n s) (freeRecordAt n t) where
  links := h.links
  branchMap := h.branchMap
  profiles := h.profiles
  dueList := h.dueList
  records := by rw [freeRecordAt_records, freeRecordAt_records, h.records]
  sendOrder := by rw [freeRecordAt_sendOrder, freeRecordAt_sendOrder, h.sendOrder]
  offers := h.offers

/-- What is done beside the tracked state stays beside it when the link's record is freed, and it leaves the Due List and
the queued offers. -/
theorem beside_removal {s t : State} (k : Slot) (h : Beside s t) :
    Beside (removeOffers k (removeDue k (freeRecordOf k s))) (removeOffers k (removeDue k (freeRecordOf k t))) := by
  have freed : Beside (freeRecordOf k s) (freeRecordOf k t) := by
    unfold freeRecordOf
    rw [recordOf_congr h.records k]
    split
    · exact beside_freeRecordAt _ h
    · exact h
  generalize freeRecordOf k s = u at freed ⊢
  generalize freeRecordOf k t = v at freed ⊢
  refine ⟨freed.links, freed.branchMap, freed.profiles, ?_, freed.records, freed.sendOrder, ?_⟩
  · exact congrArg (DueList.remove · k) freed.dueList
  · show (v.queue.filter fun it => !isOfferOf k it).filterMap _ = (u.queue.filter fun it => !isOfferOf k it).filterMap _
    rw [filterMap_offer?_removeOffers, filterMap_offer?_removeOffers, freed.offers]

theorem runs_quarantineLink (k : Slot) (s : State) : Runs E s (quarantineLink k s) := by
  by_cases state : (s.link k).state = .quarantined ∨ (s.link k).state = .vacant
  · rw [quarantineLink, if_pos state]
    exact .refl s
  · rw [quarantineLink, if_neg state]
    refine Runs.trans ?_ (runs_tryOriginate _)
    refine Runs.trans ?_ (runs_tryAdmit _)
    obtain ⟨m, held, active, -, beside⟩ := clearIfActive_setLink (k := k) (s := s)
      (l := quarantinedRecord s.branchMap k (s.link k)) .keySpent (show LinkState.quarantined ≠ .vacant by decide)
    refine .of_change (.quarantined k m state held active) (beside_removal k beside) ?_
    refine Quiet.trans ?_ (quiet_removeOffers k _)
    refine Quiet.trans ?_ (quiet_removeDue k _)
    refine Quiet.trans ?_ (quiet_freeRecordOf k _)
    refine Quiet.trans ?_ (quiet_clearIfActive k _ _)
    exact quiet_modLink (keeps_quarantinedRecord _ _) k s

theorem runs_takeAction (k : Slot) (a : Action) (s : State) : Runs E s (takeAction k a s) := by
  cases a with
  | note => exact .refl s
  | hold => exact runs_modLink alike_supervisedRecord keeps_supervisedRecord k s
  | renew =>
    show Runs E s (if _ then s else _)
    exact .ite (fun _ => .refl s) (fun h => runs_forcedJoin _ fun g => h g.symm)
  | quarantine => exact runs_quarantineLink k s

theorem runs_raiseKind {kind : LinkKind} (h : kind ≠ .keySpent) (k : Slot) (s : State) : Runs E s (raiseKind k kind s) := by
  refine Runs.trans ?_ (runs_takeAction k _ _)
  refine .of_change (.link k _ (alike_raisedRecord h _)) ((beside_linkNotice _ _ _ _).trans (beside_setCause _ _)) ?_
  exact (quiet_modLink (keeps_raisedRecord kind) k s).trans ((quiet_linkNotice k kind _ _).trans (quiet_setCause _ _))

theorem runs_raiseIfInactive {kind : LinkKind} (h : kind ≠ .keySpent) (k : Slot) (s : State) :
    Runs E s (raiseIfInactive k kind s) :=
  .ite (fun _ => .refl s) (fun _ => runs_raiseKind h k s)

theorem runs_scoreKind (k : Slot) (r : RateKind) (s : State) : Runs E s (scoreKind k r s) :=
  (runs_modLink (alike_scoredRecord r _) (keeps_scoredRecord r _) k s).trans
    (.ite (fun _ => runs_raiseKind r.kind_ne_keySpent k _) (fun _ => .refl _))

theorem runs_decayKind (k : Slot) (s : State) (r : RateKind) : Runs E s (decayKind k s r) :=
  (runs_modLink (alike_decayedRecord r _) (keeps_decayedRecord r _) k s).trans
    (.ite (fun _ => runs_clearKind r.kind_ne_keySpent k _) (fun _ => .refl _))

theorem runs_decayKinds (k : Slot) (s : State) : Runs E s (decayKinds k s) := .foldl (runs_decayKind k) _ s

theorem runs_reexamineKind (k : Slot) (s : State) (r : RateKind) : Runs E s (reexamineKind k s r) := by
  unfold reexamineKind
  exact .ite (fun _ => runs_raiseKind r.kind_ne_keySpent k s)
    (fun _ => .ite (fun _ => runs_clearKind r.kind_ne_keySpent k s) (fun _ => .refl s))

theorem runs_reexamine (k : Slot) (s : State) : Runs E s (reexamine k s) := .foldl (runs_reexamineKind k) _ s

theorem runs_countSilence (k : Slot) (s : State) : Runs E s (countSilence k s) := by
  unfold countSilence
  split
  · exact .refl s
  · exact .refl s
  · exact (runs_modLink (alike_withSilence _) (keeps_withSilence _) k s).trans
      (.ite (fun _ => runs_raiseIfInactive (by decide) _ _) (fun _ => .refl _))

theorem runs_endSilence (k : Slot) (s : State) : Runs E s (endSilence k s) :=
  (runs_modLink (alike_withSilence 0) (keeps_withSilence 0) k s).trans (runs_clearIfActive (by decide) _ _)

theorem runs_takeReport (k : Slot) (entries : List ShopCode) (s : State) : Runs E s (takeReport k entries s) :=
  (runs_modLink (alike_reportedRecord entries) (keeps_reportedRecord entries) k s).trans
    (.ite (fun _ => runs_raiseIfInactive (by decide) _ _) (fun _ => runs_clearIfActive (by decide) _ _))

/-! ## Spending and erasing -/

/-- A spent key: the record is written with KEY_SPENT active, and the action of the raise, if one was made, follows. -/
theorem spendCurrent_parts (k : Slot) (s : State) :
    ∃ (m : Link) (t : State), m.held = (spentRecord (s.link k)).held ∧ m.keySpentActive = true ∧
      Beside (s.setLink k m) t ∧ Quiet s t ∧ (spendCurrent k s = t ∨ ∃ a, spendCurrent k s = takeAction k a t) := by
  have listed : (spentRecord (s.link k)).state ≠ .vacant := show LinkState.stalled ≠ .vacant by decide
  have quiet := quiet_modLink keeps_spentRecord k s
  unfold spendCurrent raiseIfInactive
  rw [State.link_modLink_same]
  by_cases active : ((spentRecord (s.link k)).kind .keySpent).active = true
  · rw [if_pos active]
    exact ⟨spentRecord (s.link k), _, rfl, active, .refl _, quiet, .inl rfl⟩
  · rw [if_neg active]
    have written : (s.modLink k spentRecord).modLink k (raisedRecord .keySpent) =
        s.setLink k (raisedRecord .keySpent (spentRecord (s.link k))) := setLink_ne listed
    refine ⟨raisedRecord .keySpent (spentRecord (s.link k)), _, rfl, active_raisedRecord _ _, ?_, ?_, .inr ⟨_, rfl⟩⟩
    · rw [← written]
      exact (beside_linkNotice _ _ _ _).trans (beside_setCause _ _)
    · exact quiet.trans ((quiet_modLink (keeps_raisedRecord _) k _).trans
        ((quiet_linkNotice k _ _ _).trans (quiet_setCause _ _)))

theorem runs_spendCurrent {k : Slot} {s : State} (inUse : (s.link k).current.state = .inUse) :
    Runs E s (spendCurrent k s) := by
  obtain ⟨m, t, held, active, beside, quiet, e⟩ := spendCurrent_parts k s
  have spent : Runs E s t := .of_change (.spent k m inUse held active) beside quiet
  rcases e with e | ⟨a, e⟩ <;> rw [e]
  · exact spent
  · exact spent.trans (runs_takeAction k a t)

theorem runs_eraseRetiring (k : Slot) (s : State) : Runs E s (eraseRetiring k s) :=
  .ite (fun h => .change (.erased k h) (quiet_modLink keeps_erasedRecord k s)) (fun _ => .refl s)

theorem runs_checkCurrent (k : Slot) (s : State) : Runs E s (checkCurrent k s) := by
  unfold checkCurrent
  exact .ite (fun h => runs_spendCurrent h.1) (fun _ => .refl s)

theorem runs_checkRetiring (k : Slot) (s : State) : Runs E s (checkRetiring k s) := by
  unfold checkRetiring
  exact .ite (fun _ => runs_eraseRetiring k s) (fun _ => .refl s)

/-! ## A key slot charged and then checked -/

/-- The key slots of `E`, and one more. -/
def withSlot (E : Slot → KeySlotName → Prop) (k : Slot) (which : KeySlotName) : Slot → KeySlotName → Prop :=
  fun j w => E j w ∨ j = k ∧ w = which

theorem limitsExcept_mono {E F : Slot → KeySlotName → Prop} (h : ∀ k w, E k w → F k w) {s : State}
    (hs : s.limitsExcept E) : s.limitsExcept F :=
  ⟨hs.1, fun k => ⟨fun hn => (hs.2 k).1 fun he => hn (h _ _ he), fun hn => (hs.2 k).2 fun he => hn (h _ _ he)⟩⟩

/-- A part during which one key slot may be beyond its limits, and a check of that slot after it. -/
theorem Runs.checked {s t u : State} {k : Slot} {which : KeySlotName} (h : Runs (withSlot E k which) s t)
    (g : Runs (withSlot E k which) t u) (settles : t.limitsExcept (withSlot E k which) → u.limitsExcept E) : Runs E s u :=
  ⟨h.effects.trans g.effects, fun hs => settles (h.limits (limitsExcept_mono (fun _ _ => .inl) hs))⟩

theorem limitReached_iff (k : KeySlot) : limitReached k = true ↔ k.budget < k.use + 98 ∨ k.ageLimit ≤ k.age := by
  rw [limitReached, Bool.or_eq_true, decide_eq_true_eq, decide_eq_true_eq]
  rfl

theorem KeySlot.belowLimits_of_not_reached {k : KeySlot} (h : ¬ (k.state = .inUse ∧ limitReached k = true)) :
    k.belowLimits := by
  intro inUse
  have : ¬ limitReached k = true := fun hl => h ⟨inUse, hl⟩
  rw [limitReached_iff] at this
  omega

/-- Where a slot is below its limits after all, it needs no exception. -/
theorem limitsExcept_current {s : State} {k : Slot} (h : (s.link k).current.belowLimits)
    (hs : s.limitsExcept (withSlot E k .current)) : s.limitsExcept E := by
  refine ⟨hs.1, fun j => ⟨fun hn => ?_, fun hn => (hs.2 j).2 ?_⟩⟩
  · by_cases hj : j = k
    · exact hj ▸ h
    · exact (hs.2 j).1 fun he => he.elim hn fun e => hj e.1
  · exact fun he => he.elim hn fun e => absurd e.2 (by decide)

theorem limitsExcept_retiring {s : State} {k : Slot} (h : (s.link k).retiring.belowLimits)
    (hs : s.limitsExcept (withSlot E k .retiring)) : s.limitsExcept E := by
  refine ⟨hs.1, fun j => ⟨fun hn => (hs.2 j).1 ?_, fun hn => ?_⟩⟩
  · exact fun he => he.elim hn fun e => absurd e.2 (by decide)
  · by_cases hj : j = k
    · exact hj ▸ h
    · exact (hs.2 j).2 fun he => he.elim hn fun e => hj e.1

theorem spendCurrent_limits {k : Slot} {s : State} (hs : s.limitsExcept (withSlot E k .current)) :
    (spendCurrent k s).limitsExcept E := by
  obtain ⟨m, t, held, -, beside, -, e⟩ := spendCurrent_parts k s
  have stalled : m.current.belowLimits := by
    rw [Link.current_of_held held]
    exact KeySlot.belowLimits_of_state (show SlotState.spent ≠ .inUse by decide)
  have spent : (s.setLink k m).limitsExcept E := by
    refine limitsExcept_current (k := k) (by rw [State.link_setLink_same]; exact stalled) (limitsExcept_setLink hs ?_ ?_)
    · exact fun _ _ => stalled
    · rw [Link.retiring_of_held held]; exact id
  have told : t.limitsExcept E := limitsExcept_beside beside spent
  rcases e with e | ⟨a, e⟩ <;> rw [e]
  · exact told
  · exact (runs_takeAction k a t).limits told

theorem checkCurrent_limits {k : Slot} {s : State} (hs : s.limitsExcept (withSlot E k .current)) :
    (checkCurrent k s).limitsExcept E := by
  unfold checkCurrent
  dsimp only
  split
  · exact spendCurrent_limits hs
  · exact limitsExcept_current (KeySlot.belowLimits_of_not_reached ‹_›) hs

theorem checkRetiring_limits {k : Slot} {s : State} (hs : s.limitsExcept (withSlot E k .retiring)) :
    (checkRetiring k s).limitsExcept E := by
  unfold checkRetiring eraseRetiring
  dsimp only
  split
  · rename_i reached
    rw [if_pos reached.1]
    have emptied : (erasedRecord (s.link k)).retiring.belowLimits :=
      KeySlot.belowLimits_of_state (show SlotState.empty ≠ .inUse by decide)
    refine limitsExcept_retiring (k := k) (by rw [State.link_modLink_same]; exact emptied) (limitsExcept_setLink hs id ?_)
    exact fun _ _ => emptied
  · exact limitsExcept_retiring (KeySlot.belowLimits_of_not_reached ‹_›) hs

/-- A change of CURRENT's use, age, window and next sequence. -/
theorem runs_touchCurrent {s : State} {k : Slot} {m : Link} (use age : Nat) (window : Window) (next : Nat)
    (ready : (s.link k).current.state = .inUse ∨ (s.link k).state = .live)
    (alike : ((s.link k).usedCurrent use age window next).Alike m) :
    Runs (withSlot E k .current) s (s.setLink k m) := by
  refine .touch (.current k m use age window next ready alike) (.refl _) (quiet_setLink fun hk => ?_) fun hs => ?_
  · have live : (s.link k).state = .live := ready.elim (Link.keysAgree_live hk) id
    have inUse : (s.link k).current.state = .inUse := by have := hk.2; rw [live] at this; exact this
    have state := Link.state_of_held alike.held
    have retiring := Link.retiring_of_held alike.held
    have timer := Link.retireTimer_of_held alike.held
    refine Link.keysAgree_current hk inUse state ?_ retiring timer
    rw [Link.current_of_held alike.held]
    exact inUse
  · exact limitsExcept_setLink hs (fun _ hn => absurd (.inr ⟨rfl, rfl⟩) hn)
      (by rw [Link.retiring_of_held alike.held]; exact id)

/-- A change of RETIRING's use, age and window, and of its timer. -/
theorem runs_touchRetiring {s : State} {k : Slot} {m : Link} (use age : Nat) (window : Window) (timer : Nat)
    (ready : (s.link k).retiring.state = .inUse)
    (alike : ((s.link k).usedRetiring use age window timer).Alike m) :
    Runs (withSlot E k .retiring) s (s.setLink k m) := by
  refine .touch (.retiring k m use age window timer ready alike) (.refl _) (quiet_setLink fun hk => ?_) fun hs => ?_
  · have state := Link.state_of_held alike.held
    have current := Link.current_of_held alike.held
    refine Link.keysAgree_retiring' hk ready state current ?_
    rw [Link.retiring_of_held alike.held]
    exact ready
  · exact limitsExcept_setLink hs (by rw [Link.current_of_held alike.held]; exact id)
      (fun _ hn => absurd (.inr ⟨rfl, rfl⟩) hn)

theorem runs_ageCurrent (k : Slot) (s : State) : Runs E s (ageCurrent k s) := by
  unfold ageCurrent
  refine .ite (fun inUse => ?_) (fun _ => .refl s)
  exact Runs.checked (runs_touchCurrent _ _ _ _ (.inl inUse) (.refl _)) (runs_checkCurrent k _) checkCurrent_limits

theorem runs_ageRetiring (k : Slot) (s : State) : Runs E s (ageRetiring k s) := by
  unfold ageRetiring
  refine .ite (fun inUse => ?_) (fun _ => .refl s)
  exact Runs.checked (runs_touchRetiring _ _ _ _ inUse (.refl _)) (runs_checkRetiring k _) checkRetiring_limits

theorem runs_countRetireTimer (k : Slot) (s : State) : Runs E s (countRetireTimer k s) := by
  unfold countRetireTimer
  dsimp only
  refine .ite (fun inUse => .ite (fun _ => runs_eraseRetiring k s) fun _ => ?_) (fun _ => .refl s)
  have counted : Runs (withSlot E k .retiring) s (s.modLink k retireTimerDown) :=
    runs_touchRetiring _ _ _ _ inUse (.refl _)
  exact ⟨counted.effects, fun hs => limitsExcept_setLink hs id id⟩

theorem runs_countedRest (k : Slot) (s : State) : Runs E s (s.modLink k countedRest) :=
  .change (.rested k) (quiet_modLink keeps_countedRest k s)

/-- A period mark at a link record. -/
theorem runs_markLink (k : Slot) (s : State) : Runs E s (markLink k s) := by
  unfold markLink
  refine .ite (fun _ => .refl s) fun _ => ?_
  refine Runs.trans ?_ (runs_countSilence k _)
  refine Runs.trans ?_ (runs_decayKinds k _)
  refine Runs.trans ?_ (runs_dueCheck k _ _)
  refine Runs.trans ?_ (runs_modLink alike_ratedRecord keeps_ratedRecord k _)
  refine Runs.trans ?_ (runs_countedRest k _)
  refine Runs.trans ?_ (runs_countRetireTimer k _)
  exact (runs_ageCurrent k s).trans (runs_ageRetiring k _)

theorem runs_reachAgeLimit (k : Slot) (which : KeySlotName) (s : State) : Runs E s (reachAgeLimit k which s) := by
  unfold reachAgeLimit
  cases which
  · exact .ite (fun _ => runs_ageCurrent k s) (fun _ => .refl s)
  · exact .ite (fun _ => runs_ageRetiring k s) (fun _ => .refl s)

theorem runs_reachRetireTime (k : Slot) (s : State) : Runs E s (reachRetireTime k s) :=
  .ite (fun _ => runs_countRetireTimer k s) (fun _ => .refl s)

theorem runs_reachRestEnd (k : Slot) (s : State) : Runs E s (reachRestEnd k s) :=
  .ite (fun _ => (runs_countedRest k s).trans (runs_dueCheck k _ _)) (fun _ => .refl s)

theorem runs_scrub (s : State) : Runs E s (scrub s) := by
  unfold scrub
  split
  · exact .refl s
  · have walked : ∀ k, Runs E s (walkTo k s) := fun k =>
      .of_sound .none ⟨rfl, rfl, rfl, rfl, rfl, rfl, rfl⟩ (.of_same id rfl rfl)
    exact .ite (fun _ => walked _) (fun _ => (walked _).trans (runs_raiseKind (by decide) _ _))

/-! ## The exchange -/

theorem beside_modLink {s t : State} (k : Slot) (f : Link → Link) (h : Beside s t) :
    Beside (s.modLink k f) (t.modLink k f) where
  links := by
    show (t.setLink k (f (t.link k))).links = (s.setLink k (f (s.link k))).links
    rw [State.setLink_links, State.setLink_links, h.links, h.link]
  branchMap := h.branchMap
  profiles := h.profiles
  dueList := h.dueList
  records := h.records
  sendOrder := h.sendOrder
  offers := h.offers

/-- A kind cleared at a link that has just been written, whatever was done beside it: one record is written, with the
kind not active. -/
theorem clearIfActive_beside {k : Slot} {s t : State} {l : Link} (kind : LinkKind) (h : l.state ≠ .vacant)
    (hb : Beside (s.setLink k l) t) :
    ∃ m : Link, m.held = l.held ∧ (m.kind kind).active = false ∧ Beside (s.setLink k m) (clearIfActive k kind t) := by
  have link : t.link k = l := (hb.link k).trans (State.link_setLink_same s k l)
  unfold clearIfActive
  rw [link]
  by_cases ha : (l.kind kind).active = true
  · refine ⟨clearedRecord kind l, rfl, active_clearedRecord kind l, ?_⟩
    rw [if_pos ha, clearKind]
    have cleared := beside_modLink k (clearedRecord kind) hb
    rw [setLink_ne h] at cleared
    exact cleared.trans (beside_linkNotice _ _ _ _)
  · rw [if_neg ha]
    exact ⟨l, rfl, by simpa using ha, hb⟩

/-- An installation on a link that is enrolled and not QUARANTINED. Where the limits of a CURRENT slot stand open, those of
its RETIRING slot do. -/
theorem runs_install {n : RecordNumber} {s : State} (hE : ∀ k, E k .current → E k .retiring)
    (waits : s.records[n].state = .waitingReply) (sound : (s.link s.records[n].slot).state ≠ .quarantined)
    (mapped : ∃ u ∈ s.branchMap, u.slot = s.records[n].slot) : Runs E s (install n s) := by
  refine Runs.trans ?_ (runs_tryAdmit _)
  refine Runs.trans ?_ (runs_dueCheck _ _ _)
  have live : (installedRecord (s.profileOf s.records[n].slot) s.records[n] (s.link s.records[n].slot)).state ≠ .vacant :=
    show LinkState.live ≠ .vacant by decide
  obtain ⟨m1, held1, -, beside1⟩ := clearIfActive_beside (s := freeRecordAt n s) .renewalFailed live (.refl _)
  obtain ⟨m, held, active, beside⟩ := clearIfActive_beside .keySpent
    (by rw [Link.state_of_held held1]; exact live) beside1
  have total := held.trans held1
  refine .touch (.installed n m waits sound mapped total active) beside ?_ fun hs => ?_
  · refine Quiet.trans ?_ (quiet_clearIfActive _ _ _)
    refine Quiet.trans ?_ (quiet_clearIfActive _ _ _)
    exact (quiet_modLink (keeps_installedRecord _ _) _ s).trans (quiet_freeRecordAt n _)
  · have written : (s.setLink s.records[n].slot m).limitsExcept E := by
      obtain ⟨profiles, slots⟩ := hs
      refine ⟨profiles, fun j => ?_⟩
      rw [State.link_setLink]
      split
      · rename_i hj
        subst hj
        rw [Link.current_of_held total, Link.retiring_of_held total]
        constructor
        · intro _ _
          show 0 + 97 < (s.profileOf s.records[n].slot).budget ∧ 0 < (s.profileOf s.records[n].slot).ageLimit
          unfold State.profileOf
          dsimp only
          split
          · rename_i valid
            obtain ⟨hb, ha, -⟩ := profiles _ valid
            omega
          · decide
        · intro hn
          show (retiredSlot (s.link s.records[n].slot)).belowLimits
          unfold retiredSlot
          split
          · exact (slots _).1 fun he => hn (hE _ he)
          · exact KeySlot.belowLimits_of_state (show SlotState.empty ≠ .inUse by decide)
      · exact slots j
    exact limitsExcept_congr (s := s.setLink s.records[n].slot m) rfl rfl written

theorem runs_failRenewal {n : RecordNumber} {s : State} (waits : s.records[n].state = .waitingReply) :
    Runs E s (failRenewal n s) := by
  refine Runs.trans ?_ (runs_tryAdmit _)
  refine Runs.trans ?_ (runs_raiseIfInactive (by decide) _ _)
  exact .change (.failed n _ waits) ((quiet_freeRecordAt n s).trans (quiet_modLink (keeps_withRenewal _ _) _ _))

theorem runs_retry {n : RecordNumber} {s : State} (waits : s.records[n].state = .waitingReply) :
    Runs E s (retry n s) := by
  have drawn : Runs E s (draw s).2 := .beside (beside_draw s) (quiet_draw s)
  have tables := (beside_draw s).records
  unfold retry
  split <;> rename_i t hd <;> rw [hd] at drawn tables
  · exact drawn.trans (runs_failRenewal (by rw [tables]; exact waits))
  · refine drawn.trans (Runs.trans ?_ (runs_tryOriginate _))
    exact .change (.retried n _ (by rw [tables]; exact waits) rfl rfl rfl)
      ((quiet_setRecord _ n _).trans (quiet_joinSendOrder n _))

theorem runs_endAttempt {n : RecordNumber} {s : State} (waits : s.records[n].state = .waitingReply) :
    Runs E s (endAttempt n s) :=
  .ite (fun _ => runs_retry waits) (fun _ => runs_failRenewal waits)

theorem records_setRecord_same (s : State) (n : RecordNumber) (r : RenewalRecord) : (s.setRecord n r).records[n] = r := by
  simp [State.setRecord]

theorem runs_noted {n : RecordNumber} {s : State} {r : RenewalRecord} (slot : r.slot = s.records[n].slot)
    (state : r.state = s.records[n].state) (queued : r.offerQueued = s.records[n].offerQueued) :
    Runs E s (s.setRecord n r) := .change (.noted n r slot state queued) (quiet_setRecord s n r)

theorem runs_expireReply {n : RecordNumber} {s : State} (waits : s.records[n].state = .waitingReply) :
    Runs E s (expireReply n s) := by
  have zeroed : Runs E s (s.setRecord n { s.records[n] with replyTimer := 0 }) := runs_noted rfl rfl rfl
  exact zeroed.trans (runs_endAttempt (by rw [records_setRecord_same]; exact waits))

theorem runs_markRecord (n : RecordNumber) (s : State) : Runs E s (markRecord n s) :=
  .ite (fun waits => .ite (fun _ => runs_expireReply waits) (fun _ => runs_noted rfl rfl rfl)) (fun _ => .refl s)

theorem runs_reachReplyExpiry (n : RecordNumber) (s : State) : Runs E s (reachReplyExpiry n s) :=
  .ite (fun h => runs_expireReply h.1) (fun _ => .refl s)

theorem replyMatches_iff {r : RenewalRecord} {g : Nat} {nonce : AttemptNonce} :
    replyMatches r g nonce = true ↔ ReplyMatches r g nonce := by
  simp [replyMatches, ReplyMatches, and_assoc]

theorem recordOf_slot {s : State} {k : Slot} {n : RecordNumber} (h : s.recordOf k = some n) :
    s.records[n].state ≠ .free ∧ s.records[n].slot = k := by
  have := List.find?_some h
  simpa using this

theorem runs_takeAccept {k : Slot} {s : State} (g : Nat) (nonce : AttemptNonce) (proof : Proof)
    (hE : ∀ k, E k .current → E k .retiring) (sound : (s.link k).state ≠ .quarantined)
    (mapped : ∃ u ∈ s.branchMap, u.slot = k) : Runs E s (takeAccept k g nonce proof s).2 := by
  unfold takeAccept
  split
  · exact .refl s
  · rename_i n found
    have slot := (recordOf_slot found).2
    have taken : s.records[n].state = .waitingReply → Runs E s (install n s) := fun waits =>
      runs_install hE waits (by rw [slot]; exact sound) (by rw [slot]; exact mapped)
    generalize install n s = t at taken ⊢
    dsimp only
    split
    · rename_i h
      exact taken (replyMatches_iff.1 h.1).1
    · exact .refl s

theorem runs_takeRefuse (k : Slot) (g : Nat) (nonce : AttemptNonce) (reason : Refuse) (s : State) :
    Runs E s (takeRefuse k g nonce reason s).2 := by
  unfold takeRefuse
  split
  · exact .refl s
  · rename_i n _
    have noted : Runs E s (s.setRecord n { s.records[n] with lastRefusal := reason }) := runs_noted rfl rfl rfl
    have taken : s.records[n].state = .waitingReply →
        Runs E s (endAttempt n (s.setRecord n { s.records[n] with lastRefusal := reason })) := fun waits =>
      noted.trans (runs_endAttempt (by rw [records_setRecord_same]; exact waits))
    dsimp only
    generalize endAttempt n (s.setRecord n { s.records[n] with lastRefusal := reason }) = t at taken ⊢
    split
    · rename_i h
      exact taken (replyMatches_iff.1 h).1
    · exact .refl s

end Sys2Proof.Machine
end

