-- ==== Sys2Proof/Proofs/RunsExec.lean ====
section
/-! PROOFS. Every command, and the step of an empty queue, is a run of changes. -/

namespace Sys2Proof.Machine

variable {E : Slot → KeySlotName → Prop}

/-! ## Accesses of host memory -/

/-- What leaves the tracked state and the queue's notices within their limits. -/
structure Apart (s t : State) : Prop where
  beside : Beside s t
  sound : Sound s t

theorem Apart.trans {s t u : State} (h : Apart s t) (g : Apart t u) : Apart s u :=
  ⟨h.beside.trans g.beside, h.sound.trans g.sound⟩

theorem Apart.runs {s t : State} (h : Apart s t) : Runs E s t := .of_sound .none h.beside h.sound

theorem apart_of_same {s t : State} (b : Beside s t) (memory : s.hostMem.wf = true → t.hostMem.wf = true)
    (queue : t.queue = s.queue) : Apart s t := ⟨b, .of_same memory b.links queue⟩

theorem Apart.refl (s : State) : Apart s s := apart_of_same (.refl s) id rfl

theorem apart_raiseDevice (item : DeviceItem) (s : State) : Apart s (raiseDevice item s) :=
  ⟨beside_raiseDevice item s, (quiet_raiseDevice item s).sound⟩

theorem apart_setCause (s : State) (c : Cause) : Apart s (s.setCause c) :=
  ⟨beside_setCause s c, (quiet_setCause s c).sound⟩

theorem apart_nextAccess (s : State) : Apart s (nextAccess s).2 := by
  unfold nextAccess
  split <;> exact apart_of_same ⟨rfl, rfl, rfl, rfl, rfl, rfl, rfl⟩ id rfl

theorem apart_hostRead (s : State) : Apart s (hostRead s).2 := by
  have access := apart_nextAccess s
  unfold hostRead
  split <;> rename_i h <;> rw [h] at access
  · exact access
  · exact access.trans (apart_raiseDevice _ _)
  · exact access

theorem apart_landBytes (a : Address) (landed : Nat) (bytes : List Byte) (s : State) : Apart s (landBytes a landed bytes s) :=
  apart_of_same ⟨rfl, rfl, rfl, rfl, rfl, rfl, rfl⟩ (fun h => Memory.wf_writeLanded h a landed bytes) rfl

theorem apart_hostWrite (kind : WriteKind) (a : Address) (bytes : List Byte) (s : State) :
    Apart s (hostWrite kind a bytes s).2 := by
  have access := apart_nextAccess s
  unfold hostWrite
  split <;> rename_i t h <;> rw [h] at access
  · exact access.trans
      (apart_of_same ⟨rfl, rfl, rfl, rfl, rfl, rfl, rfl⟩ (fun hm => Memory.wf_writeBytes hm a bytes) rfl)
  · refine access.trans (Apart.trans ?_ (apart_raiseDevice _ _))
    cases kind
    · exact .refl _
    · exact apart_landBytes _ _ _ _
    · exact apart_landBytes _ _ _ _
  · refine access.trans ?_
    cases kind
    · exact .refl _
    · exact .refl _
    · exact apart_landBytes _ _ _ _

/-- A write, whose answer is taken apart from the state after it. -/
theorem apart_of_hostWrite {kind : WriteKind} {a : Address} {bytes : List Byte} {s t : State} {ok : Bool}
    (h : hostWrite kind a bytes s = (ok, t)) : Apart s t := by
  have := apart_hostWrite kind a bytes s
  rwa [h] at this

theorem apart_of_hostRead {s t : State} {ok : Bool} (h : hostRead s = (ok, t)) : Apart s t := by
  have := apart_hostRead s
  rwa [h] at this

theorem runs_writeBoardSlot (base : Address) (k : Nat) (bytes : List Byte) (s : State) :
    Runs E s (writeBoardSlot base k bytes s) := (apart_hostWrite _ _ _ s).runs

theorem runs_writeDeviceSlot (base : Address) (s : State) : Runs E s (writeDeviceSlot base s) := by
  unfold writeDeviceSlot
  have first := runs_writeBoardSlot (E := E) base 512 (deviceSlotBytes s) s
  exact .ite (fun _ => first) (fun _ => first.trans (runs_writeBoardSlot _ _ _ _))

theorem runs_flushBoard (before s : State) : Runs E s (flushBoard before s) := by
  unfold flushBoard
  split
  · exact .refl s
  · rename_i base _
    have links : Runs E s ((allSlots.filter (slotChanged before s)).foldl
        (fun t k => writeBoardSlot base k.val (linkSlotBytes s k) t) s) :=
      .foldl (fun _ _ => runs_writeBoardSlot _ _ _ _) _ _
    exact .ite (fun _ => links) (fun _ => links.trans (runs_writeDeviceSlot _ _))

theorem runs_fullBoardWrite (s : State) : Runs E s (fullBoardWrite s) := by
  unfold fullBoardWrite
  split
  · exact .refl s
  · exact Runs.trans (.foldl (fun _ _ => runs_writeBoardSlot _ _ _ _) _ _) (runs_writeDeviceSlot _ _)

theorem runs_withBoard {body : State → State} {s : State} (h : Runs E s (body s)) : Runs E s (withBoard body s) :=
  h.trans (runs_flushBoard _ _)

theorem apart_beginEvent (env : Env) (s : State) : Apart s (beginEvent env s) :=
  apart_of_same ⟨rfl, rfl, rfl, rfl, rfl, rfl, rfl⟩ id rfl

theorem apart_endEvent (s : State) : Apart s (endEvent s) := apart_of_same ⟨rfl, rfl, rfl, rfl, rfl, rfl, rfl⟩ id rfl

theorem runs_event (env : Env) {body : State → State} (s : State) (h : ∀ s, Runs E s (body s)) :
    Runs E s (event env body s) :=
  .ite (fun _ => (apart_beginEvent env s).runs.trans ((h _).trans (apart_endEvent _).runs)) (fun _ => .refl s)

/-! ## OUTBOUND -/

/-- The use of CURRENT by an OUTBOUND entry: what is charged is spent where it has reached a limit. -/
theorem runs_outboundUse {k : Slot} (e : WorkEntry) (body : List Byte) {s : State} (live : (s.link k).state = .live) :
    Runs E s (outboundUse k e body s).2 := by
  unfold outboundUse
  dsimp only
  have sequenced : Runs (withSlot E k .current) s (s.modLink k sequencedRecord) :=
    runs_touchCurrent _ _ _ _ (.inr live) (.refl _)
  rcases hw : hostWrite .output e.outputAddress _ (s.modLink k sequencedRecord) with ⟨written, u⟩
  have wrote : Runs (withSlot E k .current) (s.modLink k sequencedRecord) u := (apart_of_hostWrite hw).runs
  have live_u : (u.link k).state = .live := by
    rw [(apart_of_hostWrite hw).beside.link, State.link_modLink_same]
    exact live
  have charged : Runs (withSlot E k .current) u (u.modLink k fun l => l.chargeCurrent (cost body.length)) :=
    runs_touchCurrent _ _ _ _ (.inr live_u) ⟨rfl, rfl⟩
  generalize u.modLink k (fun l => l.chargeCurrent (cost body.length)) = v at charged ⊢
  have settled : Runs E s (if outboundSpends (v.link k) = true then spendCurrent k v else v) := by
    refine Runs.checked (sequenced.trans (wrote.trans charged)) ?_ fun hs => ?_
    · exact .ite (fun h => runs_spendCurrent (by simp [outboundSpends] at h; exact h.1)) (fun _ => .refl v)
    · split
      · exact spendCurrent_limits hs
      · rename_i h
        refine limitsExcept_current (KeySlot.belowLimits_of_not_reached fun reached => h ?_) hs
        simp [outboundSpends, reached.1, reached.2]
  have checked := settled.trans (runs_dueCheck k .testsUrgency _)
  split <;> exact checked

theorem runs_serveOutbound (e : WorkEntry) (input : List Byte) (s : State) : Runs E s (serveOutbound e input s).2 := by
  unfold serveOutbound
  dsimp only
  split
  · exact .refl s
  split
  · exact .refl s
  split
  · exact .refl s
  rename_i k _
  split
  · exact .refl s
  · exact .refl s
  · exact .refl s
  · exact .refl s
  rename_i live
  split
  · exact .refl s
  rcases hr : (if e.inputLength.toNat = 0 then (true, s) else hostRead s) with ⟨read, t⟩
  have reading : Apart s t := by
    split at hr
    · cases hr; exact .refl s
    · exact apart_of_hostRead hr
  dsimp only
  split
  · exact reading.runs.trans (runs_outboundUse e _ (by rw [reading.beside.link]; exact live))
  · exact reading.runs

/-! ## INBOUND -/

/-- The key slots of `E`, and the one that a choice of key charges. -/
def chargedSlot (E : Slot → KeySlotName → Prop) (k : Slot) : KeyChoice → Slot → KeySlotName → Prop
  | .root => E
  | .current => withSlot E k .current
  | .retiring => withSlot E k .retiring

/-- The slot of a chosen key is IN_USE. -/
def Link.chosenInUse (l : Link) : KeyChoice → Prop
  | .root => True
  | .current => l.current.state = .inUse
  | .retiring => l.retiring.state = .inUse

theorem chosenInUse_of_selectKey {l : Link} {g : Nat} {choice : KeyChoice} (h : selectKey l g = .key choice) :
    l.chosenInUse choice := by
  unfold selectKey at h
  split at h
  · cases h; trivial
  split at h
  · rename_i c; cases h; exact c.2
  split at h
  · cases h
  split at h
  · rename_i c; cases h; exact c.2
  · cases h

theorem runs_charge {k : Slot} {choice : KeyChoice} {s : State} (c : Nat) (h : (s.link k).chosenInUse choice) :
    Runs (chargedSlot E k choice) s (s.modLink k fun l => l.charge c choice) := by
  cases choice with
  | root => exact runs_modLink (fun l => .refl l) (fun _ hk => hk) k s
  | current => exact runs_touchCurrent _ _ _ _ (.inl h) ⟨rfl, rfl⟩
  | retiring => exact runs_touchRetiring _ _ _ _ h ⟨rfl, rfl⟩

theorem runs_setWindow {k : Slot} {choice : KeyChoice} {s : State} (q : Nat) (h : (s.link k).chosenInUse choice) :
    Runs (chargedSlot E k choice) s
      (s.modLink k fun l => l.setWindow (windowAdvance (l.windowOf choice) q) choice) := by
  cases choice with
  | root =>
    exact runs_modLink (f := fun l => { l with rootWindow := windowAdvance l.rootWindow q }) (fun l => ⟨rfl, rfl⟩)
      (fun _ hk => Link.keysAgree_of_eq hk rfl rfl rfl rfl rfl rfl rfl) k s
  | current => exact runs_touchCurrent _ _ _ _ (.inl h) ⟨rfl, rfl⟩
  | retiring => exact runs_touchRetiring _ _ _ _ h ⟨rfl, rfl⟩

theorem runs_afterCharge (k : Slot) (choice : KeyChoice) (s : State) : Runs E s (afterCharge k choice s) := by
  cases choice with
  | root => exact .refl s
  | current => exact (runs_checkCurrent k s).trans (runs_dueCheck k _ _)
  | retiring => exact runs_checkRetiring k s

theorem afterCharge_limits {k : Slot} {choice : KeyChoice} {s : State} (hs : s.limitsExcept (chargedSlot E k choice)) :
    (afterCharge k choice s).limitsExcept E := by
  cases choice with
  | root => exact hs
  | current => exact (runs_dueCheck k _ _).limits (checkCurrent_limits hs)
  | retiring => exact checkRetiring_limits hs

/-- What charges a chosen key, and the checks after it. -/
theorem runs_chargedThen {k : Slot} {choice : KeyChoice} {s t : State} (h : Runs (chargedSlot E k choice) s t) :
    Runs E s (afterCharge k choice t) := by
  refine ⟨h.effects.trans (runs_afterCharge (E := E) k choice t).effects, fun hs => afterCharge_limits (h.limits ?_)⟩
  cases choice with
  | root => exact hs
  | current => exact limitsExcept_mono (fun _ _ => .inl) hs
  | retiring => exact limitsExcept_mono (fun _ _ => .inl) hs

/-- The link of a state whose kind has been cleared is as before but for its fault record. -/
theorem clearIfActive_held (k : Slot) (kind : LinkKind) (s : State) :
    ((clearIfActive k kind s).link k).held = (s.link k).held := by
  unfold clearIfActive
  split
  · rw [clearKind, (beside_linkNotice _ _ _ _).link, State.link_modLink_same]; rfl
  · rfl

theorem endSilence_held (k : Slot) (s : State) : ((endSilence k s).link k).held = (s.link k).held := by
  rw [endSilence, clearIfActive_held, State.link_modLink_same]; rfl

/-- Steps 1 to 4 of a tag pass, from the charge on. -/
theorem runs_tagPassed {k : Slot} {choice : KeyChoice} {s t : State} (q : Nat) (h : Runs (chargedSlot E k choice) s t)
    (ready : (t.link k).chosenInUse choice) : Runs E s (tagPassed k choice q t) := by
  unfold tagPassed
  dsimp only
  refine runs_chargedThen (h.trans ((runs_setWindow q ready).trans ((runs_endSilence k _).trans ?_)))
  exact .ite (fun _ => runs_eraseRetiring k _) (fun _ => .refl _)

theorem apart_writeOutput (e : WorkEntry) (body : List Byte) (s : State) : Apart s (writeOutput e body s).2 := by
  unfold writeOutput
  split
  · exact .refl s
  · exact apart_hostWrite _ _ _ s

theorem runs_deliverData (k : Slot) (e : WorkEntry) (h : Header) (choice : KeyChoice) (body : List Byte) (s : State) :
    Runs E s (deliverData k e h choice body s).2 := by
  have wrote := (apart_writeOutput e body s).runs (E := E)
  unfold deliverData
  generalize writeOutput e body s = written at wrote ⊢
  dsimp only
  split <;> exact wrote

theorem runs_consumeControl {k : Slot} (e : WorkEntry) (h : Header) (body : List Byte) {s : State}
    (hE : ∀ k, E k .current → E k .retiring) (sound : (s.link k).state ≠ .quarantined)
    (mapped : ∃ u ∈ s.branchMap, u.slot = k) : Runs E s (consumeControl k e h body s).2 := by
  unfold consumeControl
  split
  · exact runs_scoreKind k _ s
  · rename_i g nonce proof _
    have taken := runs_takeAccept g nonce proof hE sound mapped
    split <;> rename_i ht <;> rw [ht] at taken
    · exact taken
    · exact taken.trans (runs_scoreKind k _ _)
  · rename_i g nonce reason _
    have taken := runs_takeRefuse (E := E) k g nonce reason s
    split <;> rename_i ht <;> rw [ht] at taken
    · exact taken
    · exact taken.trans (runs_scoreKind k _ _)
  · rename_i entries _
    have taken := runs_takeReport (E := E) k entries s
    have wrote := (apart_writeOutput e body (takeReport k entries s)).runs (E := E)
    dsimp only
    generalize writeOutput e body (takeReport k entries s) = written at wrote ⊢
    split <;> exact taken.trans wrote

/-- A tag pass under the root key takes the sequence and ends the silence. -/
theorem tagPassed_root (k : Slot) (q : Nat) (s : State) :
    tagPassed k .root q s = endSilence k (s.modLink k fun l => { l with rootWindow := windowAdvance l.rootWindow q }) := by
  unfold tagPassed
  dsimp only
  rw [if_neg (by decide)]
  rfl

/-- An INBOUND packet that has passed its window test; a CONTROL packet comes under the root key. -/
theorem runs_decipherInbound {k : Slot} (e : WorkEntry) (input : List Byte) {h : Header} {choice : KeyChoice} {s : State}
    (hE : ∀ k, E k .current → E k .retiring) (ready : (s.link k).chosenInUse choice)
    (root : h.class_ ≠ classData → choice = .root) (sound : (s.link k).state ≠ .quarantined)
    (mapped : ∃ u ∈ s.branchMap, u.slot = k) : Runs E s (decipherInbound k e input h choice s).2 := by
  unfold decipherInbound
  dsimp only
  rcases hr : hostRead s with ⟨read, t⟩
  have reading := apart_of_hostRead hr
  have same : t.link k = s.link k := reading.beside.link k
  dsimp only
  split
  · exact reading.runs
  have charge : Runs (chargedSlot E k choice) s (t.modLink k fun l => l.charge (cost h.bodyLength.toNat) choice) :=
    reading.runs.trans (runs_charge _ (by rw [same]; exact ready))
  split
  · exact runs_chargedThen (charge.trans (runs_scoreKind k _ _))
  · rename_i text _
    have passed := runs_tagPassed (k := k) (choice := choice) h.sequence.toNat charge (by
      rw [State.link_modLink_same, same]
      cases choice <;> exact ready)
    split
    · exact passed.trans (runs_deliverData _ _ _ _ _ _)
    · rename_i control
      have := root control
      subst this
      refine passed.trans (runs_consumeControl e h text hE ?_ ?_)
      · rw [tagPassed_root, Link.state_of_held (endSilence_held k _), State.link_modLink_same, State.link_modLink_same,
          same]
        exact sound
      · rw [tagPassed_root, (quiet_endSilence k _).branchMap]
        exact reading.beside.branchMap ▸ mapped

theorem runs_inboundAtLink {k : Slot} (e : WorkEntry) (input : List Byte) (h : Header) {s : State}
    (hE : ∀ k, E k .current → E k .retiring) (class_ : h.class_ = classData ∨ h.class_ = classControl)
    (sound : (s.link k).state ≠ .quarantined) (mapped : ∃ u ∈ s.branchMap, u.slot = k) :
    Runs E s (inboundAtLink k e input h s).2 := by
  unfold inboundAtLink
  dsimp only
  split
  · exact runs_scoreKind k _ s
  rename_i agree
  split
  · exact .refl s
  · exact runs_scoreKind k _ s
  · rename_i choice selected
    split
    · exact runs_scoreKind k _ s
    · exact runs_scoreKind k _ s
    · refine runs_decipherInbound e input hE (chosenInUse_of_selectKey selected) (fun control => ?_) sound mapped
      have zero : h.generation.toNat = 0 := by
        rw [not_not] at agree; exact agree ▸ class_.resolve_left control
      rw [selectKey, if_pos zero] at selected; cases selected; rfl

/-- A header that passes its checks is of one of the two classes. -/
theorem class_of_headerRefusal {h : Header} {n room : Nat} (pass : headerRefusal h n room = none) :
    h.class_ = classData ∨ h.class_ = classControl := by
  by_contra c
  rw [not_or] at c
  unfold headerRefusal at pass
  dsimp only at pass
  rw [if_pos c] at pass
  split at pass <;> cases pass

theorem mapped_of_lookupBranch {m : List Triple} {b : Nat} {k : Slot} (h : lookupBranch m b = some k) :
    ∃ u ∈ m, u.slot = k := by
  obtain ⟨u, found, rfl⟩ := Option.map_eq_some_iff.1 h
  exact ⟨u, List.mem_of_find?_eq_some found, rfl⟩

theorem runs_serveInbound (e : WorkEntry) (input : List Byte) (s : State) (hE : ∀ k, E k .current → E k .retiring) :
    Runs E s (serveInbound e input s).2 := by
  unfold serveInbound
  split
  · exact .refl s
  rcases hr : hostRead s with ⟨read, t⟩
  have reading := apart_of_hostRead hr
  dsimp only
  split
  · exact reading.runs
  split
  · exact reading.runs
  rename_i pass
  split
  · exact reading.runs.trans (.beside (beside_countUnknownBranch t) (quiet_countUnknownBranch t))
  rename_i found
  split
  · exact reading.runs
  rename_i sound
  exact reading.runs.trans
    (runs_inboundAtLink e input _ hE (class_of_headerRefusal pass) sound (mapped_of_lookupBranch found))

end Sys2Proof.Machine
end

