-- ==== Sys2Proof/Proofs/RunsEngine.lean ====
section
/-! PROOFS. The Batch Engine, the administrative requests, start-up and the registers are runs of changes, and so is every command and the step of an empty queue. -/

namespace Sys2Proof.Machine

variable {E : Slot → KeySlotName → Prop}

/-! ## Parts of the state that no invariant of a link reads -/

theorem apart_setBatch (s : State) (id : BatchId) (v : Batch) : Apart s (s.setBatch id v) := by
  cases id <;> exact apart_of_same ⟨rfl, rfl, rfl, rfl, rfl, rfl, rfl⟩ id rfl

theorem apart_stopOnFault (s : State) : Apart s (stopOnFault s) := apart_of_same ⟨rfl, rfl, rfl, rfl, rfl, rfl, rfl⟩ id rfl

theorem apart_setEngine (e : EngineState) (s : State) : Apart s (setEngine e s) :=
  apart_of_same ⟨rfl, rfl, rfl, rfl, rfl, rfl, rfl⟩ id rfl

theorem apart_setFirstWaiting (f : Option BatchId) (s : State) : Apart s (setFirstWaiting f s) :=
  apart_of_same ⟨rfl, rfl, rfl, rfl, rfl, rfl, rfl⟩ id rfl

theorem apart_serveFromStart (s : State) : Apart s (serveFromStart s) :=
  apart_of_same ⟨rfl, rfl, rfl, rfl, rfl, rfl, rfl⟩ id rfl

theorem apart_setAbandoned (s : State) : Apart s (setAbandoned s) := apart_of_same ⟨rfl, rfl, rfl, rfl, rfl, rfl, rfl⟩ id rfl

theorem apart_setNextIndex (n : Nat) (s : State) : Apart s (setNextIndex n s) :=
  apart_of_same ⟨rfl, rfl, rfl, rfl, rfl, rfl, rfl⟩ id rfl

theorem apart_countEntry (s : State) : Apart s (countEntry s) := apart_of_same ⟨rfl, rfl, rfl, rfl, rfl, rfl, rfl⟩ id rfl

theorem apart_setClamped (s : State) : Apart s (setClamped s) := apart_of_same ⟨rfl, rfl, rfl, rfl, rfl, rfl, rfl⟩ id rfl

theorem apart_setRunBase (s : State) : Apart s (setRunBase s) := apart_of_same ⟨rfl, rfl, rfl, rfl, rfl, rfl, rfl⟩ id rfl

theorem apart_clearRunBit (s : State) : Apart s (clearRunBit s) := apart_of_same ⟨rfl, rfl, rfl, rfl, rfl, rfl, rfl⟩ id rfl

theorem apart_setPhase (n : Nat) (s : State) : Apart s (setPhase n s) := apart_of_same ⟨rfl, rfl, rfl, rfl, rfl, rfl, rfl⟩ id rfl

theorem apart_setMask (m : BitVec 5) (s : State) : Apart s (setMask m s) := apart_of_same ⟨rfl, rfl, rfl, rfl, rfl, rfl, rfl⟩ id rfl

theorem apart_startService (id : BatchId) (s : State) : Apart s (startService id s) := by
  unfold startService
  dsimp only
  have started := (apart_setBatch s id ⟨.inService, (s.batch id).taken⟩).trans
    ((apart_setFirstWaiting (waitingAfter id (s.setBatch id ⟨.inService, (s.batch id).taken⟩)) _).trans
      (apart_serveFromStart _))
  generalize serveFromStart (setFirstWaiting _ _) = u at started ⊢
  rcases hw : hostWrite .whole (headerAddress u.workBase id) _ u with ⟨written, t⟩
  have wrote := started.trans (apart_of_hostWrite hw)
  dsimp only
  split
  · exact wrote
  · exact wrote.trans (apart_stopOnFault t)

/-! ## The close and the abandoning of a batch -/

/-- A write that is not answered with an error leaves the queue alone. -/
theorem queue_of_hostWrite {kind : WriteKind} {a : Address} {bytes : List Byte} {s t : State}
    (h : hostWrite kind a bytes s = (true, t)) : t.queue = s.queue := by
  have access : (nextAccess s).2.queue = s.queue := by
    unfold nextAccess
    split <;> rfl
  unfold hostWrite at h
  split at h <;> rename_i u hu <;> rw [hu] at access <;> cases h
  · exact access
  · cases kind <;> exact access

theorem runs_fillTail (id : BatchId) (j n : Nat) (s : State) : Runs E s (fillTail id j n s).2 := by
  induction n generalizing j s with
  | zero => exact .refl s
  | succ n ih =>
    unfold fillTail
    split
    · exact .refl s
    rename_i it rest front
    split <;> rename_i t hw
    · have queue : t.queue = it :: rest := (queue_of_hostWrite hw).trans front
      exact (apart_of_hostWrite hw).runs.trans
        ((Runs.change (.delivered it rest queue) ((quiet_popItem t).trans (quiet_deliverItem it _))).trans (ih _ _))
    · exact (apart_of_hostWrite hw).runs

theorem apart_collectAfterClose (s : State) : Apart s (collectAfterClose s) := by
  unfold collectAfterClose
  split
  · exact apart_setCause s _
  · exact .refl s

theorem apart_afterClose (id : BatchId) (s : State) : Apart s (afterClose id s) := by
  unfold afterClose
  split
  · split
    · exact apart_startService _ s
    · exact apart_setEngine _ s
  · exact apart_setEngine _ s

theorem runs_closeBatch (id : BatchId) (s : State) : Runs E s (closeBatch id s) := by
  unfold closeBatch
  dsimp only
  have filled := runs_fillTail (E := E) id 0 (min s.settings.tailRoom s.queue.length) s
  generalize fillTail id 0 (min s.settings.tailRoom s.queue.length) s = tail at filled ⊢
  obtain ⟨tailCount, u⟩ := tail
  dsimp only at filled ⊢
  rcases hw : hostWrite .whole (headerAddress u.workBase id) _ u with ⟨written, t⟩
  have wrote := filled.trans (apart_of_hostWrite hw).runs
  dsimp only
  split
  · exact wrote.trans ((apart_stopOnFault t).runs.trans (runs_tryOriginate _))
  · exact wrote.trans ((apart_setBatch t id _).runs.trans ((apart_setCause _ _).runs.trans
      ((apart_afterClose id _).runs.trans ((runs_tryOriginate _).trans (apart_collectAfterClose _).runs))))

theorem apart_skipEntries (id : BatchId) (i n : Nat) (s : State) : Apart s (skipEntries id i n s).2 := by
  induction n generalizing i s with
  | zero => exact .refl s
  | succ n ih =>
    unfold skipEntries
    split <;> rename_i t hw
    · exact (apart_of_hostWrite hw).trans ((apart_setAbandoned t).trans (ih _ _))
    · exact apart_of_hostWrite hw

theorem runs_abandonRest (id : BatchId) (s : State) : Runs E s (abandonRest id s) := by
  unfold abandonRest
  dsimp only
  have skipped := apart_skipEntries id s.nextIndex ((s.batch id).taken - s.nextIndex) s
  split <;> rename_i t h <;> rw [h] at skipped
  · exact skipped.runs.trans ((apart_setNextIndex _ t).runs.trans (runs_closeBatch id _))
  · exact skipped.runs.trans (apart_stopOnFault t).runs

theorem runs_completeEntry (id : BatchId) (r : EntryResult) (s : State) : Runs E s (completeEntry id r s) := by
  unfold completeEntry
  rcases hw : hostWrite .whole (resultAddress s.workBase id s.nextIndex) (resultBytes r) s with ⟨written, t⟩
  have wrote := (apart_of_hostWrite hw).runs (E := E)
  dsimp only
  split
  · exact wrote.trans (apart_stopOnFault t).runs
  refine wrote.trans ((apart_countEntry t).runs.trans (.ite (fun _ => ?_) (fun _ => .refl _)))
  exact (apart_setAbandoned _).runs.trans (runs_abandonRest id _)

theorem runs_serveEntryOf {request : State → EntryResult × State} (h : ∀ s, Runs E s (request s).2) (id : BatchId)
    (s : State) : Runs E s (serveEntryOf id request s) := by
  unfold serveEntryOf
  rcases hr : hostRead s with ⟨read, t⟩
  have reading := (apart_of_hostRead hr).runs (E := E)
  dsimp only
  refine Runs.trans ?_ ((runs_completeEntry id _ _).trans (runs_flushBoard _ _))
  refine Runs.trans ?_ (runs_flushBoard s _)
  split
  · exact reading.trans (h t)
  · exact reading

theorem runs_serveEntry {request : State → EntryResult × State} (h : ∀ s, Runs E s (request s).2) (env : Env) (s : State) :
    Runs E s (serveEntry request env s) := by
  refine runs_event env s fun s => ?_
  split
  · exact runs_serveEntryOf h _ s
  · exact .refl s

/-! ## Handover, RUN and ABANDON -/

theorem runs_takeHandover (id : BatchId) (value : Word) (s : State) : Runs E s (takeHandover id value s) := by
  unfold takeHandover
  split
  · exact (apart_setCause s _).runs
  dsimp only
  have clamped : Apart s (if handoverCount value > 64 then setClamped s else s) := by
    split
    · exact apart_setClamped s
    · exact .refl s
  refine clamped.runs.trans (.ite (fun _ => ?_) (fun _ => ?_))
  · exact ((apart_setBatch _ id _).trans (apart_startService id _)).runs
  · exact ((apart_setBatch _ id _).trans (apart_setFirstWaiting _ _)).runs

theorem runs_takeRun (s : State) : Runs E s (takeRun s) := (apart_setRunBase s).runs.trans (runs_fullBoardWrite _)

theorem runs_setRun (s : State) : Runs E s (setRun s) := by
  unfold setRun
  refine .ite (fun _ => .refl s) fun _ => .ite (fun _ => (apart_setCause s _).runs) fun _ =>
    .ite (fun _ => runs_takeRun s) fun _ => (runs_takeRun s).trans (runs_withBoard ?_)
  split
  · exact (apart_startService _ _).runs
  · exact (apart_setEngine _ _).runs

theorem runs_clearRun (s : State) : Runs E s (clearRun s) := .ite (fun _ => (apart_clearRunBit s).runs) (fun _ => .refl s)

theorem runs_takeAbandon (s : State) : Runs E s (takeAbandon s) := by
  unfold takeAbandon
  split
  · exact runs_abandonRest _ s
  · exact .refl s

theorem runs_startWaiting (s : State) : Runs E s (startWaiting s) := by
  unfold startWaiting
  split
  · exact (apart_startService _ s).runs
  · exact .refl s

theorem runs_takeClose (s : State) : Runs E s (takeClose s) := by
  unfold takeClose
  split
  · exact runs_closeBatch _ s
  · exact .refl s

/-! ## Start-up, RESTART, the pins and the registers -/

theorem runs_startUp (block : List Byte) (s : State) : Runs E s (startUp block s) := by
  unfold startUp
  refine .ite (fun _ => ?_) (fun _ => .refl s)
  have settings : Apart s (loadSettings block s) := by
    unfold loadSettings
    have set (v : Settings) : Apart s (setSettings v s) := apart_of_same ⟨rfl, rfl, rfl, rfl, rfl, rfl, rfl⟩ id rfl
    split
    · exact set _
    · exact (set _).trans (apart_raiseDevice _ _)
  have master (s : State) : Apart s (readMasterKey s) := by
    have taken : Apart s (takeMasterKey s) := apart_of_same ⟨rfl, rfl, rfl, rfl, rfl, rfl, rfl⟩ id rfl
    unfold readMasterKey
    dsimp only
    split
    · exact taken.trans (apart_raiseDevice _ _)
    · exact taken
  have cleared (s : State) : Apart s (clearLastDraw s) := apart_of_same ⟨rfl, rfl, rfl, rfl, rfl, rfl, rfl⟩ id rfl
  have tested (s : State) : Apart s (selfTest s) := ⟨beside_selfTest s, (quiet_selfTest s).sound⟩
  have ended (s : State) : Apart s (endStartUp s) := apart_of_same ⟨rfl, rfl, rfl, rfl, rfl, rfl, rfl⟩ id rfl
  exact (settings.trans ((master _).trans ((cleared _).trans ((tested _).trans (ended _))))).runs

theorem sound_clearForRestart (s : State) : Sound s (clearForRestart s) :=
  ⟨id, id, fun _ => ⟨Nat.zero_le _, Nat.zero_le _, List.nodup_nil⟩, id⟩

theorem keeps_restartedRecord : KeepsKeys restartedRecord := keeps_withRenewal _ _

theorem runs_restart (s : State) : Runs E s (restart s) := by
  unfold restart
  refine .ite (fun _ => (apart_setCause s _).runs) fun _ => ?_
  have restarted : Runs E s (restartState s) :=
    .of_sound .restarted (.refl _) ((quiet_onEnrolled keeps_restartedRecord s).sound.trans (sound_clearForRestart _))
  exact restarted.trans ((Runs.beside (beside_selfTest _) (quiet_selfTest _)).trans (runs_fullBoardWrite _))

theorem runs_reset {s t : State} (h : Beside (resetDevice s) t) (q : Sound (resetDevice s) t) : Runs E s t := by
  refine .of_sound .reset h (Sound.trans ?_ q)
  refine ⟨id, fun _ => rfl, fun _ => ⟨Nat.zero_le _, Nat.zero_le _, List.nodup_nil⟩, fun _ k => ?_⟩
  rw [resetDevice_link]
  exact ⟨.inr ⟨rfl, rfl⟩, rfl, rfl, rfl, rfl, rfl⟩

theorem apart_writeWorkBase (half : BaseHalf) (value : Word) (s : State) : Apart s (writeWorkBase half value s) := by
  unfold writeWorkBase
  split
  · exact apart_of_same ⟨rfl, rfl, rfl, rfl, rfl, rfl, rfl⟩ id rfl
  · exact apart_setCause s _

theorem apart_clearCauses (value : Word) (s : State) : Apart s (clearCauses value s) :=
  apart_of_same ⟨rfl, rfl, rfl, rfl, rfl, rfl, rfl⟩ id rfl

theorem runs_maskAndAbandon (control : Word) (s : State) : Runs E s (maskAndAbandon control s) :=
  (apart_setMask _ s).runs.trans (.ite (fun _ => runs_takeAbandon _) (fun _ => .refl _))

theorem runs_writeControl (control : Word) (s : State) : Runs E s (writeControl control s) := by
  unfold writeControl
  refine .ite (fun _ => runs_restart s) fun _ => ?_
  have masked := runs_maskAndAbandon (E := E) control s
  dsimp only
  refine masked.trans (.ite (fun _ => runs_setRun _) fun _ => ?_)
  exact Runs.trans (.ite (fun _ => runs_setRun _) (fun _ => runs_clearRun _)) (runs_flushBoard _ _)

theorem apart_assertQuiesce (s : State) : Apart s (assertQuiesce s) := apart_of_same ⟨rfl, rfl, rfl, rfl, rfl, rfl, rfl⟩ id rfl

theorem runs_releaseQuiesce (s : State) : Runs E s (releaseQuiesce s) := by
  have released : Apart s { s with quiesce := false } := apart_of_same ⟨rfl, rfl, rfl, rfl, rfl, rfl, rfl⟩ id rfl
  exact released.runs.trans (runs_tryOriginate _)

end Sys2Proof.Machine
end

