-- ==== Sys2Proof/Proofs/RunsAdmin.lean ====
section
/-! PROOFS. The administrative requests are runs of changes, and so is every command and the step of an empty queue. -/

namespace Sys2Proof.Machine

variable {E : Slot → KeySlotName → Prop}

/-! ## Blocks and output records -/

theorem runs_withBlock {next : State → EntryResult × State} (h : ∀ s, Runs E s (next s).2) (slot : Nat) (e : WorkEntry)
    (s : State) : Runs E s (withBlock slot e s next).2 := by
  unfold withBlock
  split
  · exact .refl s
  rcases hr : hostRead s with ⟨read, t⟩
  have reading := (apart_of_hostRead hr).runs (E := E)
  dsimp only
  split
  · exact reading.trans (h t)
  · exact reading

theorem runs_withOutput {clear : State → State} (h : ∀ s, Runs E s (clear s)) (e : WorkEntry) (bytes : List Byte)
    (good failed : EntryResult) (s : State) : Runs E s (withOutput e bytes good failed clear s).2 := by
  unfold withOutput
  rcases hw : hostWrite .output e.outputAddress bytes s with ⟨written, t⟩
  have wrote := (apart_of_hostWrite hw).runs (E := E)
  dsimp only
  split
  · exact wrote.trans (h t)
  · exact wrote

/-! ## ENROL, RETIRE and SET_LINK -/

/-- Bytes hold a number below 256 for each of them. -/
theorem ofLe_lt (bs : List Byte) : ofLe bs < 256 ^ bs.length := by
  induction bs with
  | nil => simp [ofLe]
  | cons b bs ih =>
    have : b.toNat < 256 := b.isLt
    simp only [ofLe, List.length_cons, Nat.pow_succ]
    omega

theorem ofLe_bytesAt_lt (bs : List Byte) (o n : Nat) : ofLe (bytesAt bs o n) < 256 ^ n := by
  simpa using ofLe_lt (bytesAt bs o n)

theorem range_of_badRange {first last : Nat} (h : badRange first last = false) (hl : last < 65536) :
    first ≤ last ∧ last < 65535 := by
  simp only [badRange, Bool.or_eq_false_iff, decide_eq_false_iff_not, not_lt] at h
  omega

theorem sound_setBranchMap (m : List Triple) (s : State) : Sound s (setBranchMap m s) := .of_same id rfl rfl

@[simp] theorem link_setBranchMap (m : List Triple) (s : State) (k : Slot) : (setBranchMap m s).link k = s.link k := rfl

theorem runs_enrolLink {k : Slot} {b : LinkBlock} {p : ProfileNumber} {key : Key} (hold : Bool) {s : State}
    (vacant : (s.link k).state = .vacant) (range : b.first ≤ b.last ∧ b.last < 65535)
    (clear : s.branchMap.any (rangesShare b.first b.last) = false) (root : key ≠ 0) :
    Runs E s (enrolLink k b p key hold s) := by
  have agree : (enrolledRecord b p key hold).keysAgree := ⟨.inr ⟨rfl, rfl⟩, rfl, rfl, rfl⟩
  have enrolled : Runs E s
      (setBranchMap (insertTriple ⟨b.first, b.last, k⟩ s.branchMap) (s.setLink k (enrolledRecord b p key hold))) :=
    .of_sound (.enrolled k b p key hold vacant range clear root) (.refl _)
      ((quiet_setLink fun _ => agree).sound.trans (sound_setBranchMap _ _))
  have link : (setBranchMap (insertTriple ⟨b.first, b.last, k⟩ s.branchMap)
      (s.setLink k (enrolledRecord b p key hold))).link k = enrolledRecord b p key hold := by simp
  refine enrolled.trans (runs_joinDue .urgent ?_ ?_) <;> rw [link]
  · rintro (h | h) <;> cases h
  · exact .inl rfl

theorem runs_enrolChecked (k : Slot) (e : WorkEntry) {b : LinkBlock} (bound : b.last < 65536) (s : State) :
    Runs E s (enrolChecked k e b s).2 := by
  unfold enrolChecked
  split
  · exact .refl s
  rename_i vacant
  split
  · exact .refl s
  rename_i range
  split
  · exact .refl s
  rename_i clear
  split
  · exact .refl s
  split
  · exact .refl s
  split
  · exact .refl s
  split
  · exact .refl s
  split
  · exact .refl s
  rename_i root
  exact runs_enrolLink _ (not_not.1 vacant) (range_of_badRange (by simpa using range) bound) (by simpa using clear) root

theorem runs_serveEnrol (e : WorkEntry) (input : List Byte) (s : State) : Runs E s (serveEnrol e input s).2 := by
  unfold serveEnrol
  split
  · exact .refl s
  · exact runs_withBlock (runs_enrolChecked _ _ (ofLe_bytesAt_lt input 2 2)) _ _ _

theorem keysAgree_vacant : Link.vacant.keysAgree := ⟨.inr ⟨rfl, rfl⟩, rfl, rfl, rfl, rfl, rfl⟩

theorem runs_retireLink (k : Slot) (s : State) : Runs E s (retireLink k s) := by
  unfold retireLink
  dsimp only
  have map : (removeItems k (removeDue k (freeRecordOf k s))).branchMap = s.branchMap :=
    (quiet_freeRecordOf k s).branchMap
  rw [map]
  refine Runs.trans (.of_sound (.retired k) (.refl _) ?_) ((runs_tryAdmit _).trans (runs_tryOriginate _))
  have removed : Sound s (removeItems k (removeDue k (freeRecordOf k s))) :=
    ((quiet_freeRecordOf k s).trans ((quiet_removeDue k _).trans (quiet_removeItems k _))).sound
  exact removed.trans ((sound_setBranchMap _ _).trans (quiet_setLink fun _ => keysAgree_vacant).sound)

theorem runs_serveRetire (e : WorkEntry) (s : State) : Runs E s (serveRetire e s).2 := by
  unfold serveRetire
  split
  · exact .refl s
  split
  · exact .refl s
  · exact runs_retireLink _ s

theorem runs_relink {k : Slot} {b : LinkBlock} {p : ProfileNumber} {s : State} (state : (s.link k).state ≠ .vacant)
    (range : b.first ≤ b.last ∧ b.last < 65535)
    (clear : (removeTriple k s.branchMap).any (rangesShare b.first b.last) = false) : Runs E s (relink k b p s) := by
  unfold relink
  dsimp only
  refine Runs.trans (Runs.trans ?_ (.ite (fun _ => .refl _) (fun _ => runs_reexamine k _))) (runs_dueCheck k _ _)
  by_cases same : s.rangeOf k = (b.first, b.last)
  · simp only [same, decide_true, if_true]
    exact .change (.renamed k b p) (quiet_modLink (keeps_relinkedRecord b true p) k s)
  · simp only [same, decide_false, Bool.false_eq_true, if_false]
    exact .of_sound (.relinked k b p state range clear same) (.refl _)
      ((sound_setBranchMap _ s).trans (quiet_modLink (keeps_relinkedRecord b false p) k _).sound)

theorem runs_setLinkChecked (k : Slot) {b : LinkBlock} (bound : b.last < 65536) (s : State) :
    Runs E s (setLinkChecked k b s).2 := by
  unfold setLinkChecked
  split
  · exact .refl s
  rename_i state
  split
  · exact .refl s
  split
  · exact .refl s
  split
  · exact .refl s
  rename_i range
  split
  · exact .refl s
  rename_i clear
  split
  · exact .refl s
  split
  · exact .refl s
  exact runs_relink state (range_of_badRange (by simpa using range) bound) (by simpa using clear)

theorem runs_serveSetLink (e : WorkEntry) (input : List Byte) (s : State) : Runs E s (serveSetLink e input s).2 := by
  unfold serveSetLink
  split
  · exact .refl s
  · exact runs_withBlock (runs_setLinkChecked _ (ofLe_bytesAt_lt input 2 2)) _ _ _

/-! ## SET_PROFILE (R22, R23) -/

theorem clamp_inRange {low high : Nat} (h : low ≤ high) (v : Nat) : low ≤ clamp low high v ∧ clamp low high v ≤ high := by
  unfold clamp
  omega

theorem clampClear_lt {level : Nat} (h : 1 ≤ level) (v : Nat) : clampClear level v < level := by
  unfold clampClear
  split <;> omega

theorem rateOfFields_inRange (bs : List Byte) (i : Nat) : (rateOfFields (clampedRate bs i)).inRange := by
  have weight := ofLe_bytesAt_lt bs (26 + 7 * i) 1
  have decay := ofLe_bytesAt_lt bs (26 + 7 * i + 1) 1
  have level := ofLe_bytesAt_lt bs (26 + 7 * i + 2) 2
  refine ⟨?_, ?_, ?_, ?_⟩ <;>
    simp only [rateOfFields, clampedRate, List.getD_cons_zero, List.getD_cons_succ, clampRaise]
  · omega
  · omega
  · omega
  · exact clampClear_lt (by omega) _

theorem parseProfile_rate (bs : List Byte) (r : RateKind) :
    (parseProfile bs).rate r = rateOfFields (clampedRate bs r.index.val) := by
  cases r <;> rfl

/-- What SET_PROFILE writes is in range. -/
theorem parseProfile_inRange (bs : List Byte) : (parseProfile bs).inRange where
  budget := clamp_inRange (by decide) _
  ageLimit := clamp_inRange (by decide) _
  lead := clamp_inRange (by decide) _
  replyWait := clamp_inRange (by decide) _
  attempts := clamp_inRange (by decide) _
  restTime := clamp_inRange (by decide) _
  retireTime := clamp_inRange (by decide) _
  silenceLimit := (clamp_inRange (by decide) _).2
  rates r := by rw [parseProfile_rate]; exact rateOfFields_inRange bs _

theorem runs_setProfile {p : ProfileNumber} {v : Profile} (valid : v.valid = true → v.inRange) (s : State) :
    Runs E s (s.setProfile p v) := .of_sound (.profiled p v valid) (.refl _) (.of_same id rfl rfl)

theorem runs_writeProfile {p : ProfileNumber} {v : Profile} (valid : v.valid = true → v.inRange) (s : State) :
    Runs E s (writeProfile p v s) :=
  (runs_setProfile valid s).trans (.foldl (fun s k => runs_reexamine k s) _ _)

theorem runs_setProfileChecked (e : WorkEntry) (input : List Byte) (s : State) :
    Runs E s (setProfileChecked e input s).2 := by
  unfold setProfileChecked
  split
  · exact .refl s
  dsimp only
  split
  · split
    · exact .refl s
    · exact runs_setProfile (fun h => absurd h (by decide)) s
  · dsimp only
    exact runs_writeProfile (fun _ => parseProfile_inRange input) s

/-! ## HOLD, RELEASE, RENEW_NOW and the READ requests -/

theorem runs_onEnrolled {f : Link → Link} (h : ∀ l : Link, l.Alike (f l)) (hk : KeepsKeys f) (s : State) :
    Runs E s (onEnrolled f s) := .foldl (fun s k => runs_modLink h hk k s) _ s

theorem runs_markOne {f : Link → Link} (h : ∀ l : Link, l.Alike (f l)) (hk : KeepsKeys f) (k : Slot) (s : State) :
    Runs E s (markOne k f s).2 := by
  unfold markOne
  split
  · exact .refl s
  split
  · exact .refl s
  · exact runs_modLink h hk k s

theorem runs_serveHold (e : WorkEntry) (s : State) : Runs E s (serveHold e s).2 := by
  unfold serveHold
  split
  · dsimp only
    exact runs_onEnrolled alike_heldRecord keeps_heldRecord s
  split
  · exact .refl s
  · exact runs_markOne alike_heldRecord keeps_heldRecord _ s

theorem runs_serveRelease (e : WorkEntry) (s : State) : Runs E s (serveRelease e s).2 := by
  unfold serveRelease
  dsimp only
  split
  · split
    · dsimp only
      exact runs_onEnrolled (alike_releasedRecord _ _) (keeps_releasedRecord _ _) s
    · exact .refl s
  split
  · exact .refl s
  split
  · exact runs_markOne (alike_releasedRecord _ _) (keeps_releasedRecord _ _) _ s
  · exact .refl s

theorem runs_renewOneOfAll (c : Nat × State) (k : Slot) : Runs E c.2 (renewOneOfAll c k).2 := by
  unfold renewOneOfAll
  split
  · exact .refl _
  rename_i state
  have joined := runs_forcedJoin (E := E) .ordinary state
  split <;> rename_i h <;> rw [h] at joined <;> exact joined

theorem runs_renewAll (s : State) : Runs E s (renewAll s).2 := by
  suffices ∀ (l : List Slot) (c : Nat × State), Runs E c.2 (l.foldl renewOneOfAll c).2 from this _ (0, s)
  intro l
  induction l with
  | nil => exact fun c => .refl _
  | cons k l ih => exact fun c => (runs_renewOneOfAll c k).trans (ih _)

theorem runs_serveRenewNow (e : WorkEntry) (s : State) : Runs E s (serveRenewNow e s).2 := by
  unfold serveRenewNow
  split
  · dsimp only
    exact runs_renewAll s
  split
  · exact .refl s
  split
  · exact .refl s
  · exact .refl s
  · rename_i vacant quarantined
    exact runs_forcedJoin .urgent (not_or.2 ⟨vacant, quarantined⟩)

theorem runs_serveReadLink (e : WorkEntry) (s : State) : Runs E s (serveReadLink e s).2 := by
  unfold serveReadLink
  split
  · exact .refl s
  split
  · exact .refl s
  split
  · exact .refl s
  · exact runs_withOutput (fun s => .refl s) _ _ _ _ s

theorem runs_serveReadFaults (e : WorkEntry) (s : State) : Runs E s (serveReadFaults e s).2 := by
  unfold serveReadFaults
  split
  · exact .refl s
  split
  · exact .refl s
  split
  · exact .refl s
  · exact runs_withOutput
      (fun s => .ite (fun _ => runs_modLink alike_clearedCounters keeps_clearedCounters _ s) (fun _ => .refl s)) _ _ _ _ s

theorem runs_serveReadDevice (e : WorkEntry) (s : State) : Runs E s (serveReadDevice e s).2 := by
  unfold serveReadDevice
  split
  · exact .refl s
  · exact runs_withOutput
      (fun s => .ite (fun _ => .beside (beside_modDevice s _) (quiet_modDevice s _)) (fun _ => .refl s)) _ _ _ _ s

/-! ## Every command -/

theorem runs_timedEvent (env : Env) {body : State → State} (h : ∀ s, Runs E s (body s)) (s : State) :
    Runs E s (timedEvent env body s) := by
  refine runs_event env s fun s => ?_
  exact .ite (fun _ => runs_withBoard (h s)) (fun _ => .refl s)

theorem runs_boardEvent (env : Env) {body : State → State} (h : ∀ s, Runs E s (body s)) (s : State) :
    Runs E s (event env (withBoard body) s) := runs_event env s fun s => runs_withBoard (h s)

/-- The fall of RESETN between two operations, and a change of a pin. -/
theorem apart_pins (resetn quiescePin : Bool) (posted : List HostWrite) (s : State) :
    Apart s { s with resetn := resetn, quiescePin := quiescePin, posted := posted } :=
  apart_of_same ⟨rfl, rfl, rfl, rfl, rfl, rfl, rfl⟩ id rfl

/-- Every command is a run of changes. -/
theorem exec_runs (hE : ∀ k, E k .current → E k .retiring) {c : Instr} {s t : State} (h : exec c s = .next t) :
    Runs E s t := by
  cases c with
  | powerOnReset => cases h; exact runs_reset (.refl _) (.of_same id rfl rfl)
  | resetnFall => cases h; exact (apart_pins false s.quiescePin [] s).runs
  | pinReset => cases h; exact runs_reset (apart_pins true s.quiescePin [] _).beside (apart_pins true s.quiescePin [] _).sound
  | startUp block env => cases h; exact runs_boardEvent env (runs_startUp block) s
  | quiesceAssert env =>
    cases h
    refine (apart_pins s.resetn true s.posted s).runs.trans (runs_event env _ fun s => ?_)
    exact .ite (fun _ => runs_withBoard (apart_assertQuiesce s).runs) (fun _ => .refl s)
  | quiesceRelease env =>
    cases h
    refine (apart_pins s.resetn false s.posted s).runs.trans (runs_event env _ fun s => ?_)
    exact .ite (fun _ => runs_withBoard (runs_releaseQuiesce s)) (fun _ => .refl s)
  | handover id value env => cases h; exact runs_boardEvent env (runs_takeHandover id value) s
  | workBaseWrite half value => cases h; exact runs_event _ s fun s => (apart_writeWorkBase half value s).runs
  | runSet env => cases h; exact runs_event env s runs_setRun
  | runClear => cases h; exact runs_event _ s runs_clearRun
  | abandon env => cases h; exact runs_boardEvent env runs_takeAbandon s
  | restart env => cases h; exact runs_event env s runs_restart
  | noticeEnableMaskWrite control => cases h; exact runs_event _ s (runs_writeControl control.value)
  | noticeClear value => cases h; exact runs_event _ s fun s => (apart_clearCauses value s).runs
  | ignoredRegisterWrite reg value => cases h; exact runs_event _ s fun s => .refl s
  | serviceStart env => cases h; exact runs_boardEvent env runs_startWaiting s
  | outbound e input env => cases h; exact runs_serveEntry (runs_serveOutbound e input) env s
  | inbound e input env => cases h; exact runs_serveEntry (fun s => runs_serveInbound e input s hE) env s
  | enrol e input env => cases h; exact runs_serveEntry (runs_serveEnrol e input) env s
  | retire e env => cases h; exact runs_serveEntry (runs_serveRetire e) env s
  | setLink e input env => cases h; exact runs_serveEntry (runs_serveSetLink e input) env s
  | setProfile e input env =>
    cases h; exact runs_serveEntry (fun s => runs_withBlock (runs_setProfileChecked e input) _ e s) env s
  | hold e env => cases h; exact runs_serveEntry (runs_serveHold e) env s
  | release e env => cases h; exact runs_serveEntry (runs_serveRelease e) env s
  | renewNow e env => cases h; exact runs_serveEntry (runs_serveRenewNow e) env s
  | readLink e env => cases h; exact runs_serveEntry (runs_serveReadLink e) env s
  | readFaults e env => cases h; exact runs_serveEntry (runs_serveReadFaults e) env s
  | readDevice e env => cases h; exact runs_serveEntry (runs_serveReadDevice e) env s
  | badRequest kind e env => cases h; exact runs_serveEntry (fun s => .refl s) env s
  | batchClose env => cases h; exact runs_boardEvent env runs_takeClose s
  | scrubStep env => cases h; exact runs_timedEvent env runs_scrub s
  | periodMark => cases h; exact runs_timedEvent _ (fun s => (apart_setPhase 0 s).runs) s
  | periodMarkAtLink k env => cases h; exact runs_timedEvent env (runs_markLink k) s
  | ageLimitReached k which env => cases h; exact runs_timedEvent env (runs_reachAgeLimit k which) s
  | retireTimerExpiry k env => cases h; exact runs_timedEvent env (runs_reachRetireTime k) s
  | restEnd k env => cases h; exact runs_timedEvent env (runs_reachRestEnd k) s
  | periodMarkAtRenewalRecord n env => cases h; exact runs_timedEvent env (runs_markRecord n) s
  | replyTimerExpiry n env => cases h; exact runs_timedEvent env (runs_reachReplyExpiry n) s
  | admission env => cases h; exact runs_boardEvent env runs_tryAdmit s
  | origination env => cases h; exact runs_boardEvent env runs_tryOriginate s

theorem runs_markEverywhere (s : State) : Runs E s (markEverywhere s) := by
  refine Runs.trans (.foldl (fun s k => runs_withBoard (runs_markLink k s)) allSlots s) ?_
  exact .foldl (fun s n => runs_withBoard (runs_markRecord n s)) allRecordNumbers _

theorem runs_millisecond (s : State) : Runs E s (millisecond s) := by
  unfold millisecond
  dsimp only
  refine (runs_withBoard (runs_scrub s)).trans (.ite (fun _ => ?_) (fun _ => (apart_setPhase _ _).runs))
  exact (apart_setPhase 0 _).runs.trans (runs_markEverywhere _)

theorem runs_idleStep (s : State) : Runs E s (idleStep s) := by
  refine .ite (fun _ => ?_) (fun _ => .refl s)
  exact (apart_beginEvent _ s).runs.trans ((runs_millisecond _).trans (apart_endEvent _).runs)

/-- Every step is a run of changes. -/
theorem step_runs {s t : State} (h : step s = .next t) : Runs noSlots s t := by
  unfold step at h
  split at h
  · cases h; exact runs_idleStep s
  · rename_i c rest _
    have taken : Apart s { s with pending := rest } := apart_of_same ⟨rfl, rfl, rfl, rfl, rfl, rfl, rfl⟩ id rfl
    exact taken.runs.trans (exec_runs (fun _ h => h) h)

end Sys2Proof.Machine
end

