-- ==== Sys2Proof/Proofs/Moved.lean ====
section
/-! PROOFS. What one change makes of each link record and of the Branch Map, in the few forms that the invariants tell apart. -/

namespace Sys2Proof.Machine

/-! ## The part of a record that no turnover reaches -/

/-- The fields of a link that its keys, its code and its range are made of. -/
def Link.core (l : Link) : Link := { l.held with renewal := .idle, restTimer := 0, rootSequence := 0 }

theorem Link.core_of_held {l m : Link} (h : m.held = l.held) : m.core = l.core := by simp only [Link.core, h]

section
variable {l m : Link}
theorem Link.state_of_core (h : m.core = l.core) : m.state = l.state := by
  have e := congrArg Link.state h; exact e
theorem Link.first_of_core (h : m.core = l.core) : m.first = l.first := by
  have e := congrArg Link.first h; exact e
theorem Link.last_of_core (h : m.core = l.core) : m.last = l.last := by
  have e := congrArg Link.last h; exact e
theorem Link.profile_of_core (h : m.core = l.core) : m.profile = l.profile := by
  have e := congrArg Link.profile h; exact e
theorem Link.rootKey_of_core (h : m.core = l.core) : m.rootKey = l.rootKey := by
  have e := congrArg Link.rootKey h; exact e
theorem Link.current_of_core (h : m.core = l.core) : m.current = l.current := by
  have e := congrArg Link.current h; exact e
theorem Link.retiring_of_core (h : m.core = l.core) : m.retiring = l.retiring := by
  have e := congrArg Link.retiring h; exact e
theorem Link.checkCode_of_core (h : m.core = l.core) : m.checkCode = l.checkCode := by
  have e := congrArg Link.checkCode h; exact e
end

theorem link_congr {s t : State} (links : t.links = s.links) (k : Slot) : t.link k = s.link k := by
  simp only [State.link, links]

/-! ## One record -/

/-- What a change that leaves the Branch Map alone may make of the record at slot `k`. -/
inductive Moved (s : State) (k : Slot) (m : Link) : Prop where
  | kept (core : m.core = (s.link k).core) (active : m.keySpentActive = (s.link k).keySpentActive)
  | spent (inUse : (s.link k).current.state = .inUse) (core : m.core = (spentRecord (s.link k)).core)
    (active : m.keySpentActive = true)
  | erased (inUse : (s.link k).retiring.state = .inUse) (record : m = erasedRecord (s.link k))
  | quarantined (state : ¬ ((s.link k).state = .quarantined ∨ (s.link k).state = .vacant))
    (core : m.core = (quarantinedRecord s.branchMap k (s.link k)).core) (active : m.keySpentActive = false)
  | renamed (b : LinkBlock) (p : ProfileNumber) (record : m = relinkedRecord b true p (s.link k))
  | usedCurrent (use age : Nat) (window : Window) (next : Nat)
    (core : m.core = ((s.link k).usedCurrent use age window next).core)
    (active : m.keySpentActive = (s.link k).keySpentActive)
  | usedRetiring (use age : Nat) (window : Window) (timer : Nat)
    (core : m.core = ((s.link k).usedRetiring use age window timer).core)
    (active : m.keySpentActive = (s.link k).keySpentActive)
  | installed (p : Profile) (r : RenewalRecord) (sound : (s.link k).state ≠ .quarantined)
    (mapped : ∃ u ∈ s.branchMap, u.slot = k) (core : m.core = (installedRecord p r (s.link k)).core)
    (active : m.keySpentActive = false)

theorem Moved.same {s : State} {k : Slot} {m : Link} (h : m = s.link k) : Moved s k m := .kept (by rw [h]) (by rw [h])

/-- A change of one record, which leaves the others. -/
theorem moved_setLink {s : State} {k : Slot} {m : Link} (h : Moved s k m) (j : Slot) : Moved s j ((s.setLink k m).link j) := by
  rw [State.link_setLink]
  split
  · rename_i e; subst e; exact h
  · exact .same rfl

theorem moved_modLink {s : State} {k : Slot} {f : Link → Link} (h : Moved s k (f (s.link k))) (j : Slot) :
    Moved s j ((s.modLink k f).link j) := moved_setLink h j

/-- What reads the links of another state reads those of a state with the same links. -/
theorem Moved.congr {s : State} {k : Slot} {t u : State} (h : Moved s k (t.link k)) (links : u.links = t.links) :
    Moved s k (u.link k) := by
  have : u.link k = t.link k := by simp only [State.link, links]
  rwa [this]

/-! ## The changes of the Branch Map -/

/-- The changes that reach the Branch Map. -/
inductive Remapped (s u : State) : Prop where
  | retired (k : Slot) (map : u.branchMap = removeTriple k s.branchMap)
    (link : ∀ j, u.link j = if j = k then .vacant else s.link j)
  | enrolled (k : Slot) (b : LinkBlock) (p : ProfileNumber) (key : Key) (hold : Bool)
    (vacant : (s.link k).state = .vacant) (range : b.first ≤ b.last ∧ b.last < 65535)
    (clear : s.branchMap.any (rangesShare b.first b.last) = false) (root : key ≠ 0)
    (map : u.branchMap = insertTriple ⟨b.first, b.last, k⟩ s.branchMap)
    (link : ∀ j, u.link j = if j = k then enrolledRecord b p key hold else s.link j)
  | relinked (k : Slot) (b : LinkBlock) (p : ProfileNumber) (state : (s.link k).state ≠ .vacant)
    (range : b.first ≤ b.last ∧ b.last < 65535)
    (clear : (removeTriple k s.branchMap).any (rangesShare b.first b.last) = false)
    (map : u.branchMap = replaceTriple k b.first b.last s.branchMap)
    (link : ∀ j, u.link j = if j = k then relinkedRecord b false p (s.link k) else s.link j)
  | reset (map : u.branchMap = []) (link : ∀ j, u.link j = .vacant)

/-- What a change of a state makes of the link records and of the Branch Map. -/
def Recorded (s u : State) : Prop := (u.branchMap = s.branchMap ∧ ∀ k, Moved s k (u.link k)) ∨ Remapped s u

theorem Recorded.of_links {s u : State} (map : u.branchMap = s.branchMap) (links : u.links = s.links) : Recorded s u :=
  .inl ⟨map, fun k => .same (by simp only [State.link, links])⟩

/-- A change of one record within other changes that leave the links and the Branch Map. -/
theorem Recorded.of_setLink {s t u : State} {k : Slot} {m : Link} (h : Moved s k m)
    (before : t.links = s.links) (map : u.branchMap = s.branchMap) (after : u.links = (t.setLink k m).links) :
    Recorded s u := by
  refine .inl ⟨map, fun j => (moved_setLink h j).congr (t := s.setLink k m) ?_⟩
  simp only [after, State.setLink, before]

theorem Recorded.of_modLink {s t u : State} {k : Slot} {f : Link → Link} (h : Moved s k (f (s.link k)))
    (before : t.links = s.links) (map : u.branchMap = s.branchMap) (after : u.links = (t.modLink k f).links) :
    Recorded s u := by
  refine .of_setLink h before map ?_
  rw [after, State.modLink, link_congr before]

/-- The place of a link in the turnover is no part of its core. -/
theorem core_withRenewal (r : RenewalState) (n : Nat) (l : Link) : (l.withRenewal r n).core = l.core := rfl

theorem clearForRestart_branchMap (s : State) : (clearForRestart s).branchMap = s.branchMap := rfl

theorem restartState_branchMap (s : State) : (restartState s).branchMap = s.branchMap := by
  rw [restartState, clearForRestart_branchMap, (quiet_onEnrolled keeps_restartedRecord s).branchMap]

theorem Change.recorded {s u : State} (c : Change s u) : Recorded s u := by
  cases c with
  | none => exact .of_links rfl rfl
  | link k m alike => exact .of_setLink (t := s) (.kept (Link.core_of_held alike.held) alike.keySpent) rfl (by simp) (by simp)
  | spent k m inUse held active =>
    exact .of_setLink (t := s) (.spent inUse (Link.core_of_held held) active) rfl (by simp) (by simp)
  | erased k inUse => exact .of_setLink (t := s) (.erased inUse rfl) rfl (by simp) rfl
  | admitted n k key salt nonce free head =>
    exact .of_modLink (t := (removeDue k s).setRecord n (admittedRecord (s.link k) k key salt nonce)) (k := k)
      (f := Link.withRenewal .exchange 0) (.kept rfl rfl) (by simp) (by simp) (by simp)
  | originated =>
    refine .inl ⟨(quiet_tryOriginate s).branchMap, fun k => ?_⟩
    obtain ⟨q, link⟩ := tryOriginate_links s k
    rw [link]
    exact .kept rfl rfl
  | joined k sec state renewal =>
    exact .of_modLink (t := appendDue k sec s) (k := k) (f := Link.withRenewal .due 0) (.kept rfl rfl) (by simp)
      (by simp) rfl
  | promoted k listed => exact .of_links rfl rfl
  | failed n time waits =>
    exact .of_modLink (t := freeRecordAt n s) (k := s.records[n].slot) (f := Link.withRenewal .rest time)
      (.kept rfl rfl) (by simp) (by simp) rfl
  | retried n r waits slot state queued => exact .of_links (by simp) (by simp)
  | noted n r slot state queued => exact .of_links rfl rfl
  | delivered it rest front =>
    exact .of_links ((quiet_deliverItem it (popItem s)).branchMap.trans (popItem_branchMap s))
      ((deliverItem_links it (popItem s)).trans (popItem_links s))
  | rested k =>
    refine .of_setLink (t := s) (k := k) (m := countedRest (s.link k)) (.kept ?_ ?_) rfl rfl rfl <;>
      (unfold countedRest; split_ifs <;> rfl)
  | quarantined k m state held active =>
    refine .of_setLink (t := s) (k := k) (m := m) (.quarantined state (Link.core_of_held held) active) rfl ?_ ?_
    · rw [removeOffers_branchMap, removeDue_branchMap, (quiet_freeRecordOf k (s.setLink k m)).branchMap,
        State.setLink_branchMap]
    · rw [removeOffers_links, removeDue_links, freeRecordOf_links]
  | retired k =>
    refine .inr (.retired k (by simp) fun j => ?_)
    rw [State.link_setLink]
    refine ite_congr rfl (fun _ => rfl) fun _ => ?_
    exact link_congr (by simp [freeRecordOf_links]) j
  | enrolled k b p key hold vacant range clear root =>
    exact .inr (.enrolled k b p key hold vacant range clear root rfl fun j => by
      rw [link_setBranchMap, State.link_setLink])
  | relinked k b p state range clear moves =>
    exact .inr (.relinked k b p state range clear rfl fun j => by
      rw [State.link_modLink, link_setBranchMap, link_setBranchMap])
  | renamed k b p => exact .of_setLink (t := s) (.renamed b p rfl) rfl (by simp) rfl
  | profiled p v valid => exact .of_links rfl rfl
  | restarted =>
    refine .inl ⟨restartState_branchMap s, fun k => ?_⟩
    rw [restartState_link]
    split
    · exact .same rfl
    · exact .kept rfl rfl
  | reset => exact .inr (.reset rfl (resetDevice_link s))

theorem Touch.recorded {s u : State} (c : Touch s u) : Recorded s u := by
  cases c with
  | current k m use age window next ready alike =>
    exact .of_setLink (t := s) (.usedCurrent use age window next (Link.core_of_held alike.held) alike.keySpent) rfl (by simp) (by simp)
  | retiring k m use age window timer ready alike =>
    exact .of_setLink (t := s) (.usedRetiring use age window timer (Link.core_of_held alike.held) alike.keySpent) rfl (by simp) (by simp)
  | installed n m waits sound mapped held active =>
    exact .of_setLink (t := s) (.installed _ _ sound mapped (Link.core_of_held held) active) rfl (by simp) (by simp)

/-- What one effect makes of the link records and of the Branch Map. -/
theorem Effect.recorded {s t : State} (e : Effect s t) : Recorded s t := by
  obtain ⟨u, step, beside⟩ := e.tracked
  have recorded : Recorded s u := step.elim Change.recorded Touch.recorded
  rcases recorded with ⟨map, moved⟩ | remapped
  · exact .inl ⟨beside.branchMap.trans map, fun k => by rw [beside.link]; exact moved k⟩
  · right
    cases remapped with
    | retired k map link => exact .retired k (beside.branchMap.trans map) fun j => (beside.link j).trans (link j)
    | enrolled k b p key hold vacant range clear root map link =>
      exact .enrolled k b p key hold vacant range clear root (beside.branchMap.trans map)
        fun j => (beside.link j).trans (link j)
    | relinked k b p state range clear map link =>
      exact .relinked k b p state range clear (beside.branchMap.trans map) fun j => (beside.link j).trans (link j)
    | reset map link => exact .reset (beside.branchMap.trans map) fun j => (beside.link j).trans (link j)

end Sys2Proof.Machine
end

