-- ==== Sys2Proof/Proofs/Invariants.lean ====
section
/-! PROOFS. The invariants of the tables, the queue, the keys, the limits, the Branch Map and the check codes are kept by every step. -/

namespace Sys2Proof.Machine

/-! ## Runs -/

/-- What every effect keeps, every step keeps. -/
theorem step_keeps {P : State → Prop} (keeps : ∀ s t, Effect s t → P s → P t) {s t : State} (h : step s = .next t)
    (hs : P s) : P t := by
  have run := (step_runs h).effects
  clear h
  induction run with
  | refl => exact hs
  | tail _ e ih => exact keeps _ _ e ih

/-! ## The canonical forms, the queue and the limits -/

/-- Settles O10, by `step_runs`: each effect keeps both canonical forms. -/
theorem tablesStayCanonical : Obligations.TablesStayCanonical := by
  refine ⟨fun s t ok h => ?_, fun s k j l f => ⟨State.link_setLink s k j l, rfl, rfl⟩⟩
  exact step_keeps (P := State.tablesOk) (fun _ _ e ok => ⟨e.sound.memory ok.1, e.sound.links ok.2⟩) h ok

/-- Settles O11, by `step_runs`: each effect keeps the limits of the queue. -/
theorem queueKeepsItsLimits : Obligations.QueueKeepsItsLimits := fun _ _ ok h =>
  step_keeps (P := fun s => queueOk s.queue) (fun _ _ e => e.sound.queue) h ok

/-- Settles O15: the run of a step keeps the limits, since every charge and every period of age is followed by its spent
check. -/
theorem keysStayBelowTheirLimits : Obligations.KeysStayBelowTheirLimits := fun _ _ ok h =>
  State.limitsExcept_noSlots.1 ((step_runs h).limits (State.limitsExcept_noSlots.2 ok))

/-! ## Check codes -/

/-- The stored code of a record is the check of its covered fields. -/
def Link.coded (l : Link) : Prop := l.checkCode = freshCode l

theorem freshCode_of_core {l m : Link} (h : m.core = l.core) : freshCode m = freshCode l := by
  simp only [freshCode, coveredString, Link.rootKey_of_core h, Link.current_of_core h, Link.retiring_of_core h,
    Link.first_of_core h, Link.last_of_core h, Link.profile_of_core h]

theorem coded_of_core {l m : Link} (h : m.core = l.core) (hl : l.coded) : m.coded := by
  rw [Link.coded, Link.checkCode_of_core h, freshCode_of_core h]
  exact hl

/-- A code taken on by difference from a true one is true (R136). -/
theorem coded_recodeBy {old : Link} (m : Link) (h : old.coded) : (Link.recodeBy old m).coded := by
  have fresh : freshCode (Link.recodeBy old m) = freshCode m := rfl
  rw [Link.coded, fresh, Link.recodeBy, h, ← BitVec.xor_assoc, BitVec.xor_self, BitVec.zero_xor]

theorem coded_recodeFresh (m : Link) : m.recodeFresh.coded := rfl

theorem coded_relinkedRecord {l : Link} (b : LinkBlock) (same : Bool) (p : ProfileNumber) (h : l.coded) :
    (relinkedRecord b same p l).coded := by
  unfold relinkedRecord
  split
  · exact h
  · exact coded_recodeBy _ h

/-! ## One record -/

section
variable {s : State} {k : Slot} {m : Link}

/-- A link with an IN_USE key slot is not VACANT. -/
theorem Link.not_vacant_of_current {l : Link} (h : l.keysAgree) (inUse : l.current.state = .inUse) : l.state ≠ .vacant := by
  rw [Link.keysAgree_live h inUse]
  decide

theorem Link.not_vacant_of_retiring {l : Link} (h : l.keysAgree) (inUse : l.retiring.state = .inUse) : l.state ≠ .vacant := by
  rcases Link.keysAgree_retiring h inUse with e | e <;> rw [e] <;> decide

theorem relinkedRecord_state (b : LinkBlock) (same : Bool) (p : ProfileNumber) (l : Link) :
    (relinkedRecord b same p l).state = l.state := by
  unfold relinkedRecord
  split <;> rfl

theorem relinkedRecord_rootKey (b : LinkBlock) (same : Bool) (p : ProfileNumber) (l : Link) :
    (relinkedRecord b same p l).rootKey = l.rootKey := by
  unfold relinkedRecord
  split <;> rfl

theorem relinkedRecord_kinds (b : LinkBlock) (same : Bool) (p : ProfileNumber) (l : Link) :
    (relinkedRecord b same p l).kinds = l.kinds := by
  unfold relinkedRecord
  split <;> rfl

/-- A change that leaves the Branch Map enrols no link, and retires none. -/
theorem Moved.vacant_iff (h : Moved s k m) (keys : s.keysAgree) (map : s.MapOk) :
    m.state = .vacant ↔ (s.link k).state = .vacant := by
  have live (nonvacant : (s.link k).state ≠ .vacant) {st : LinkState} (state : m.state = st) (h : st ≠ .vacant) :
      m.state = .vacant ↔ (s.link k).state = .vacant := by
    rw [state]
    exact ⟨fun e => absurd e h, fun e => absurd e nonvacant⟩
  cases h with
  | kept core active => rw [Link.state_of_core core]
  | spent inUse core active =>
    exact live (Link.not_vacant_of_current (keys k) inUse) (Link.state_of_core core) (by decide : LinkState.stalled ≠ _)
  | erased inUse record => rw [record]; rfl
  | quarantined state core active =>
    exact live (not_or.1 state).2 (Link.state_of_core core) (by decide : LinkState.quarantined ≠ _)
  | renamed b p record => rw [record, relinkedRecord_state]
  | usedCurrent use age window next core active => rw [Link.state_of_core core]; rfl
  | usedRetiring use age window timer core active => rw [Link.state_of_core core]; rfl
  | installed p r sound mapped core active =>
    obtain ⟨u, mem, rfl⟩ := mapped
    exact live (map.agrees u mem).1 (Link.state_of_core core) (by decide : LinkState.live ≠ _)

/-- A true code stays true. -/
theorem Moved.coded (h : Moved s k m) (keys : s.keysAgree) (map : s.MapOk)
    (codes : (s.link k).state ≠ .vacant → (s.link k).coded) (state : m.state ≠ .vacant) : m.coded := by
  have old := codes (fun e => state ((h.vacant_iff keys map).2 e))
  cases h with
  | kept core active => exact coded_of_core core old
  | spent inUse core active => exact coded_of_core core (coded_recodeBy _ old)
  | erased inUse record => rw [record]; exact coded_recodeBy _ old
  | quarantined state core active => exact coded_of_core core (coded_recodeFresh _)
  | renamed b p record => rw [record]; exact coded_relinkedRecord b true p old
  | usedCurrent use age window next core active =>
    exact coded_of_core core (show ((s.link k).usedCurrent use age window next).coded from old)
  | usedRetiring use age window timer core active =>
    exact coded_of_core core (show ((s.link k).usedRetiring use age window timer).coded from old)
  | installed p r sound mapped core active => exact coded_of_core core (coded_recodeBy _ old)

/-- A link that holds a root key keeps it until it is quarantined. -/
theorem Moved.rooted (h : Moved s k m) (map : s.MapOk)
    (root : (s.link k).state = .standby ∨ (s.link k).state = .live ∨ (s.link k).state = .stalled → (s.link k).rootKey ≠ 0)
    (keys : s.keysAgree) (state : m.state = .standby ∨ m.state = .live ∨ m.state = .stalled) : m.rootKey ≠ 0 := by
  cases h with
  | kept core active =>
    rw [Link.rootKey_of_core core]; rw [Link.state_of_core core] at state
    exact root state
  | spent inUse core active =>
    rw [Link.rootKey_of_core core]
    exact root (.inr (.inl (Link.keysAgree_live (keys k) inUse)))
  | erased inUse record => subst record; exact root state
  | quarantined _ core active =>
    rw [Link.state_of_core core] at state
    rcases state with e | e | e <;> cases e
  | renamed b p record =>
    subst record
    rw [relinkedRecord_state] at state
    rw [relinkedRecord_rootKey]
    exact root state
  | usedCurrent use age window next core active =>
    rw [Link.rootKey_of_core core]; rw [Link.state_of_core core] at state
    exact root state
  | usedRetiring use age window timer core active =>
    rw [Link.rootKey_of_core core]; rw [Link.state_of_core core] at state
    exact root state
  | installed p r sound mapped core active =>
    rw [Link.rootKey_of_core core]
    obtain ⟨u, mem, rfl⟩ := mapped
    refine root ?_
    have enrolled := (map.agrees u mem).1
    revert enrolled sound
    cases (s.link u.slot).state <;> simp

/-- KEY_SPENT stays active exactly while the link is STALLED. -/
theorem Moved.keySpent (h : Moved s k m) (spent : (s.link k).keySpentActive = true ↔ (s.link k).state = .stalled) :
    m.keySpentActive = true ↔ m.state = .stalled := by
  cases h with
  | kept core active => rw [active, Link.state_of_core core]; exact spent
  | spent inUse core active =>
    rw [active, Link.state_of_core core]
    exact ⟨fun _ => rfl, fun _ => rfl⟩
  | erased inUse record => subst record; exact spent
  | quarantined _ core active =>
    rw [active, Link.state_of_core core]
    exact ⟨fun e => (nomatch e), fun e => (nomatch e)⟩
  | renamed b p record =>
    subst record
    rw [relinkedRecord_state, Link.keySpentActive, Link.kind, relinkedRecord_kinds]
    exact spent
  | usedCurrent use age window next core active => rw [active, Link.state_of_core core]; exact spent
  | usedRetiring use age window timer core active => rw [active, Link.state_of_core core]; exact spent
  | installed p r sound mapped core active =>
    rw [active, Link.state_of_core core]
    exact ⟨fun e => (nomatch e), fun e => (nomatch e)⟩

/-- The range of a link stays that of its triple. -/
theorem Moved.range (h : Moved s k m) (map : s.MapOk) : m.first = (s.link k).first ∧ m.last = (s.link k).last := by
  cases h with
  | kept core active => exact ⟨(Link.first_of_core core).trans rfl, (Link.last_of_core core).trans rfl⟩
  | spent inUse core active => exact ⟨(Link.first_of_core core).trans rfl, (Link.last_of_core core).trans rfl⟩
  | erased inUse record => rw [record]; exact ⟨rfl, rfl⟩
  | quarantined state core active =>
    rw [Link.first_of_core core, Link.last_of_core core]
    show (mapRange s.branchMap k (s.link k)).1 = _ ∧ (mapRange s.branchMap k (s.link k)).2 = _
    unfold mapRange
    split
    · rename_i u found
      have at_k : u.slot = k := by simpa using List.find?_some found
      have agrees := (map.agrees u (List.mem_of_find?_eq_some found)).2
      rw [at_k] at agrees
      exact ⟨agrees.1.symm, agrees.2.symm⟩
    · exact ⟨rfl, rfl⟩
  | renamed b p record =>
    rw [record, relinkedRecord]
    split <;> exact ⟨rfl, rfl⟩
  | usedCurrent use age window next core active => exact ⟨(Link.first_of_core core).trans rfl, (Link.last_of_core core).trans rfl⟩
  | usedRetiring use age window timer core active => exact ⟨(Link.first_of_core core).trans rfl, (Link.last_of_core core).trans rfl⟩
  | installed p r sound mapped core active => exact ⟨(Link.first_of_core core).trans rfl, (Link.last_of_core core).trans rfl⟩

end

/-! ## The Branch Map -/

/-- The triples rise and share no branch number (R26, R28). -/
def risingTriples (m : List Triple) : Prop :=
  m.Pairwise (fun t u => t.last < u.first) ∧ ∀ t ∈ m, t.first ≤ t.last

theorem insertTriple_perm (t : Triple) (m : List Triple) : (insertTriple t m).Perm (t :: m) := by
  induction m with
  | nil => exact .refl _
  | cons u rest ih =>
    unfold insertTriple
    split
    · exact .refl _
    · exact (ih.cons u).trans (.swap t u rest)

theorem mem_insertTriple {t u : Triple} {m : List Triple} : u ∈ insertTriple t m ↔ u = t ∨ u ∈ m := by
  rw [(insertTriple_perm t m).mem_iff, List.mem_cons]

/-- A triple that shares no branch number with a list takes its place among the others. -/
theorem pairwise_insertTriple {t : Triple} {m : List Triple} (rising : m.Pairwise fun t u => t.last < u.first)
    (ranges : ∀ u ∈ m, u.first ≤ u.last) (range : t.first ≤ t.last) (clear : m.any (rangesShare t.first t.last) = false) :
    (insertTriple t m).Pairwise fun t u => t.last < u.first := by
  induction m with
  | nil => exact List.pairwise_singleton _ _
  | cons u rest ih =>
    obtain ⟨above, rising⟩ := List.pairwise_cons.1 rising
    obtain ⟨head, tail⟩ := List.forall_mem_cons.1 ranges
    simp only [List.any_cons, Bool.or_eq_false_iff, rangesShare, Bool.and_eq_false_iff, decide_eq_false_iff_not,
      not_le] at clear
    obtain ⟨apart, clear⟩ := clear
    unfold insertTriple
    split
    · refine List.pairwise_cons.2 ⟨fun v mem => ?_, List.pairwise_cons.2 ⟨above, rising⟩⟩
      rcases List.mem_cons.1 mem with rfl | mem
      · omega
      · have := above v mem
        omega
    · refine List.pairwise_cons.2 ⟨fun v mem => ?_, ih rising tail (by
        simpa only [rangesShare, Bool.and_eq_false_iff, decide_eq_false_iff_not, not_le] using clear)⟩
      rcases mem_insertTriple.1 mem with rfl | mem
      · omega
      · exact above v mem

theorem mem_removeTriple {k : Slot} {u : Triple} {m : List Triple} : u ∈ removeTriple k m ↔ u ∈ m ∧ u.slot ≠ k := by
  simp [removeTriple]

theorem removeTriple_sublist (k : Slot) (m : List Triple) : (removeTriple k m).Sublist m := List.filter_sublist

/-- A map whose slots differ, without a link's triple, names the link no more. -/
theorem notMem_slots_removeTriple (k : Slot) (m : List Triple) : k ∉ (removeTriple k m).map Triple.slot := by
  intro mem
  obtain ⟨u, mem, rfl⟩ := List.mem_map.1 mem
  exact (mem_removeTriple.1 mem).2 rfl

/-- The links and the map keep their agreement when no link is enrolled, retired or moved to another range. -/
theorem mapOk_of_same {s t : State} (map : t.branchMap = s.branchMap)
    (vacant : ∀ k, (t.link k).state = .vacant ↔ (s.link k).state = .vacant)
    (range : ∀ k, (t.link k).first = (s.link k).first ∧ (t.link k).last = (s.link k).last) (ok : s.MapOk) : t.MapOk where
  slots := map ▸ ok.slots
  rising := map ▸ ok.rising
  ranges := map ▸ ok.ranges
  enrolled k h := by rw [map]; exact ok.enrolled k fun e => h ((vacant k).2 e)
  agrees u mem := by
    obtain ⟨state, first, last⟩ := ok.agrees u (map ▸ mem)
    exact ⟨fun e => state ((vacant _).1 e), (range _).1.trans first, (range _).2.trans last⟩

/-- The link of a slot without a triple, retired. -/
theorem mapOk_retired {s t : State} {k : Slot} (map : t.branchMap = removeTriple k s.branchMap)
    (link : ∀ j, t.link j = if j = k then .vacant else s.link j) (ok : s.MapOk) : t.MapOk where
  slots := map ▸ ok.slots.sublist ((removeTriple_sublist k _).map _)
  rising := map ▸ ok.rising.sublist (removeTriple_sublist k _)
  ranges u mem := ok.ranges u (mem_removeTriple.1 (map ▸ mem)).1
  enrolled j h := by
    rw [link] at h
    split at h
    · exact absurd rfl h
    · rename_i other
      obtain ⟨u, mem, rfl⟩ := ok.enrolled j h
      exact ⟨u, map ▸ mem_removeTriple.2 ⟨mem, other⟩, rfl⟩
  agrees u mem := by
    obtain ⟨mem, other⟩ := mem_removeTriple.1 (map ▸ mem)
    rw [link, if_neg other]
    exact ok.agrees u mem

/-- A link given a range that no other link shares, whose triple joins the others. -/
theorem mapOk_inserted {s t : State} {k : Slot} {first last : Nat} {m : List Triple} {l : Link}
    (map : t.branchMap = insertTriple ⟨first, last, k⟩ m) (link : ∀ j, t.link j = if j = k then l else s.link j)
    (within : m.Sublist s.branchMap) (without : k ∉ m.map Triple.slot)
    (others : ∀ j, j ≠ k → (s.link j).state ≠ .vacant → ∃ u ∈ m, u.slot = j) (range : first ≤ last ∧ last < 65535)
    (clear : m.any (rangesShare first last) = false) (state : l.state ≠ .vacant) (first_ : l.first = first)
    (last_ : l.last = last) (ok : s.MapOk) : t.MapOk where
  slots := by
    rw [map, ((insertTriple_perm _ m).map Triple.slot).nodup_iff]
    exact List.nodup_cons.2 ⟨without, ok.slots.sublist (within.map _)⟩
  rising := map ▸ pairwise_insertTriple (ok.rising.sublist within) (fun u mem => (ok.ranges u (within.subset mem)).1)
    range.1 clear
  ranges u mem := by
    rcases mem_insertTriple.1 (map ▸ mem) with rfl | mem
    · exact range
    · exact ok.ranges u (within.subset mem)
  enrolled j h := by
    by_cases e : j = k
    · exact ⟨_, map ▸ mem_insertTriple.2 (.inl rfl), e.symm⟩
    · rw [link, if_neg e] at h
      obtain ⟨u, mem, rfl⟩ := others j e h
      exact ⟨u, map ▸ mem_insertTriple.2 (.inr mem), rfl⟩
  agrees u mem := by
    rcases mem_insertTriple.1 (map ▸ mem) with rfl | mem
    · rw [link, if_pos rfl]
      exact ⟨state, first_, last_⟩
    · have other : u.slot ≠ k := fun e => without (e ▸ List.mem_map_of_mem mem)
      rw [link, if_neg other]
      exact ok.agrees u (within.subset mem)

end Sys2Proof.Machine
end

