-- ==== Sys2Proof/Proofs/Agreement.lean ====
section
/-! PROOFS. The agreement of keys, root keys and KEY_SPENT with the link states, of the Branch Map with the records, and of the codes with the covered fields, is kept by every step. -/

namespace Sys2Proof.Machine

/-- The Branch Map of a retired link's neighbours, and of one that has moved, is what `mapOk_retired` and
`mapOk_inserted` say. -/
theorem Effect.mapOk {s t : State} (e : Effect s t) (map : s.MapOk) (keys : s.keysAgree) : t.MapOk := by
  rcases e.recorded with ⟨same, moved⟩ | remapped
  · exact mapOk_of_same same (fun k => (moved k).vacant_iff keys map) (fun k => (moved k).range map) map
  cases remapped with
  | retired k gone link => exact mapOk_retired gone link map
  | enrolled k b p key hold vacant range clear root inserted link =>
    refine mapOk_inserted inserted link (.refl _) (fun mem => ?_) (fun j _ h => map.enrolled j h) range clear
      (by decide : LinkState.standby ≠ _) rfl rfl map
    obtain ⟨u, at_k, rfl⟩ := List.mem_map.1 mem
    exact (map.agrees u at_k).1 vacant
  | relinked k b p state range clear inserted link =>
    have record : relinkedRecord b false p (s.link k) = Link.recodeBy (s.link k)
        { s.link k with first := b.first, last := b.last, profile := p } := by
      rw [relinkedRecord, if_neg (fun c => absurd c.1 (by decide))]; rfl
    refine mapOk_inserted inserted link (removeTriple_sublist k _) (notMem_slots_removeTriple k _) (fun j other h => ?_)
      range clear (by rw [relinkedRecord_state]; exact state) (by rw [record]; rfl) (by rw [record]; rfl) map
    obtain ⟨u, mem, rfl⟩ := map.enrolled j h
    exact ⟨u, mem_removeTriple.2 ⟨mem, other⟩, rfl⟩
  | reset empty link =>
    refine ⟨by rw [empty]; exact .nil, by rw [empty]; exact .nil, fun u mem => ?_, fun k h => ?_, fun u mem => ?_⟩
    · rw [empty] at mem; cases mem
    · rw [link] at h; exact absurd rfl h
    · rw [empty] at mem; cases mem

theorem Effect.rooted {s t : State} (e : Effect s t) (map : s.MapOk) (keys : s.keysAgree) (root : s.rooted) : t.rooted := by
  rcases e.recorded with ⟨_, moved⟩ | remapped
  · exact fun k => (moved k).rooted map (root k) keys
  cases remapped with
  | retired k gone link =>
    intro j state
    rw [link] at state ⊢
    split at state
    · rcases state with e | e | e <;> cases e
    · rename_i other
      rw [if_neg other]
      exact root j state
  | enrolled k b p key hold vacant range clear nonzero inserted link =>
    intro j state
    rw [link] at state ⊢
    split at state
    · rename_i e
      rw [if_pos e]
      exact nonzero
    · rename_i other
      rw [if_neg other]
      exact root j state
  | relinked k b p _ range clear inserted link =>
    intro j state
    rw [link] at state ⊢
    split at state
    · rename_i e
      rw [if_pos e, relinkedRecord_rootKey]
      rw [relinkedRecord_state] at state
      exact root k state
    · rename_i other
      rw [if_neg other]
      exact root j state
  | reset empty link =>
    intro j state
    rw [link] at state
    rcases state with e | e | e <;> cases e

/-- A link whose KEY_SPENT is active exactly while it is STALLED. -/
def Link.spentAgrees (l : Link) : Prop := l.keySpentActive = true ↔ l.state = .stalled

theorem Effect.keySpent {s t : State} (e : Effect s t) (spent : ∀ k, (s.link k).spentAgrees) : ∀ k, (t.link k).spentAgrees := by
  have vacant : Link.vacant.spentAgrees := ⟨fun e => (nomatch e), fun e => (nomatch e)⟩
  rcases e.recorded with ⟨_, moved⟩ | remapped
  · exact fun k => (moved k).keySpent (spent k)
  cases remapped with
  | retired k gone link =>
    intro j
    rw [link]
    split
    · exact vacant
    · exact spent j
  | enrolled k b p key hold _ range clear nonzero inserted link =>
    intro j
    rw [link]
    split
    · exact ⟨fun e => (nomatch e), fun e => (nomatch e)⟩
    · exact spent j
  | relinked k b p _ range clear inserted link =>
    intro j
    rw [link]
    split
    · rw [Link.spentAgrees, relinkedRecord_state, Link.keySpentActive, Link.kind, relinkedRecord_kinds]
      exact spent k
    · exact spent j
  | reset empty link =>
    intro j
    rw [link]
    exact vacant

theorem Effect.codes {s t : State} (e : Effect s t) (map : s.MapOk) (keys : s.keysAgree) (codes : s.codesOk) :
    t.codesOk := by
  rcases e.recorded with ⟨_, moved⟩ | remapped
  · exact fun k state => (moved k).coded keys map (codes k) state
  cases remapped with
  | retired k gone link =>
    intro j state
    rw [link] at state ⊢
    split at state
    · exact absurd rfl state
    · rename_i other
      rw [if_neg other]
      exact codes j state
  | enrolled k b p key hold vacant range clear nonzero inserted link =>
    intro j state
    rw [link] at state ⊢
    split at state
    · rename_i e
      rw [if_pos e]
      exact coded_recodeFresh _
    · rename_i other
      rw [if_neg other]
      exact codes j state
  | relinked k b p enrolled range clear inserted link =>
    intro j state
    rw [link] at state ⊢
    split at state
    · rename_i e
      rw [if_pos e]
      exact coded_relinkedRecord b false p (codes k enrolled)
    · rename_i other
      rw [if_neg other]
      exact codes j state
  | reset empty link =>
    intro j state
    rw [link] at state
    exact absurd rfl state

/-- The keys and the Branch Map, kept together: each needs the other. -/
def State.mapped (s : State) : Prop := s.keysAgree ∧ s.MapOk

theorem Effect.mapped {s t : State} (e : Effect s t) (h : s.mapped) : t.mapped := ⟨e.sound.keys h.1, e.mapOk h.2 h.1⟩

/-- Settles O13, by the effects of a step: `Effect.sound`, `Effect.rooted` and `Effect.keySpent`. -/
theorem keysAgreeWithLinkStates : Obligations.KeysAgreeWithLinkStates := by
  refine ⟨fun s t keys h => step_keeps (fun _ _ e => e.sound.keys) h keys, fun s t keys map root h => ?_,
    fun s t spent h => step_keeps (P := fun s => ∀ k, (s.link k).spentAgrees) (fun _ _ e => e.keySpent) h spent⟩
  exact (step_keeps (P := fun s => s.mapped ∧ s.rooted)
    (fun _ _ e h => ⟨e.mapped h.1, e.rooted h.1.2 h.1.1 h.2⟩) h ⟨⟨keys, map⟩, root⟩).2

/-- Settles O16, by the effects of a step, with the agreement of keys and states kept along the way. -/
theorem branchMapMatchesTheRecords : Obligations.BranchMapMatchesTheRecords := fun _ _ map keys h =>
  (step_keeps (P := State.mapped) (fun _ _ e => e.mapped) h ⟨keys, map⟩).2

/-- The codes stay true from step to step, with the keys and the map kept along the way. -/
theorem step_codesOk {s t : State} (codes : s.codesOk) (keys : s.keysAgree) (map : s.MapOk) (h : step s = .next t) :
    t.codesOk :=
  (step_keeps (P := fun s => s.mapped ∧ s.codesOk)
    (fun _ _ e h => ⟨e.mapped h.1, e.codes h.1.2 h.1.1 h.2⟩) h ⟨⟨keys, map⟩, codes⟩).2

end Sys2Proof.Machine
end

