-- ==== Sys2Proof/Proofs/Layout.lean ====
section
/-! PROOFS. Byte layouts: fields of given sizes written one behind the other, each found at the sum of the sizes before it. -/

namespace Sys2Proof.Machine

/-- Fields written one behind the other, each as its size and its value, least-significant byte first. -/
def layout (fields : List (Nat × Nat)) : List Byte := fields.flatMap fun f => leBytes f.1 f.2

@[simp] theorem layout_nil : layout [] = [] := rfl

theorem layout_cons (f : Nat × Nat) (rest : List (Nat × Nat)) : layout (f :: rest) = leBytes f.1 f.2 ++ layout rest := rfl

theorem layout_append (a b : List (Nat × Nat)) : layout (a ++ b) = layout a ++ layout b := List.flatMap_append

@[simp] theorem layout_length (fields : List (Nat × Nat)) : (layout fields).length = (fields.map Prod.fst).sum := by
  induction fields with
  | nil => rfl
  | cons f rest ih => simp [layout_cons, ih]

/-- The field with number `i` stands behind those before it. -/
theorem bytesAt_layout {fields : List (Nat × Nat)} {o n v : Nat} (i : Nat) (field : fields[i]? = some (n, v))
    (offset : ((fields.take i).map Prod.fst).sum = o) : bytesAt (layout fields) o n = leBytes n v := by
  obtain ⟨h, e⟩ := List.getElem?_eq_some_iff.1 field
  have whole : layout fields = layout (fields.take i) ++ (leBytes n v ++ layout (fields.drop (i + 1))) := by
    conv_lhs => rw [← List.take_append_drop i fields, List.drop_eq_getElem_cons h, e]
    rw [layout_append, layout_cons]
  rw [whole]
  exact bytesAt_part (by simpa using offset) (by simp)

/-- Zero bytes are a field of value 0. -/
theorem zeroBytes_eq (n : Nat) : zeroBytes n = leBytes n 0 := by
  induction n with
  | zero => rfl
  | succ n ih => rw [leBytes, Nat.zero_div, ← ih]; rfl

theorem singleton_eq (b : Byte) : [b] = leBytes 1 b.toNat := by simp [leBytes]

theorem flagByte_eq (b : Bool) : [flagByte b] = leBytes 1 (if b then 1 else 0) := by cases b <;> rfl

end Sys2Proof.Machine
end

