-- ==== Sys2Proof/Proofs/Crc.lean ====
section
/-! PROOFS. The check function: it takes its bits one after the other, it is one-to-one in the register, and a change within 32 consecutive bits changes it. -/

namespace Sys2Proof.Machine

/-! ## The register -/

theorem forced_eq {α : Type} (r : BitVec 32) (f : BitVec 32 → α) : forced r f = f r := by
  unfold forced
  split
  · rename_i h
    rw [show r = 0 from BitVec.eq_of_toNat_eq h]
  · rename_i n h
    rw [show n + 1 = r.toNat from h.symm, BitVec.ofNat_toNat, BitVec.setWidth_eq]

theorem crcBits_cons (r : BitVec 32) (b : Bool) (bits : List Bool) : crcBits r (b :: bits) = crcBits (crcBit r b) bits :=
  forced_eq _ _

theorem crcBits_append (r : BitVec 32) (a b : List Bool) : crcBits r (a ++ b) = crcBits (crcBits r a) b := by
  induction a generalizing r with
  | nil => rfl
  | cons x a ih => rw [List.cons_append, crcBits_cons, crcBits_cons, ih]

/-! ## The bits of the register after one bit -/

/-- The bit that the register gives up, with the bit taken in: where it is set, the polynomial is added. -/
def crcFeedback (r : BitVec 32) (b : Bool) : Bool := r.getLsbD 31 != b

theorem crcBit_eq (r : BitVec 32) (b : Bool) : crcBit r b = (r <<< 1) ^^^ (if crcFeedback r b then crcPolynomial else 0) := by
  unfold crcBit crcFeedback
  rw [BitVec.msb_eq_getLsbD_last]
  split
  · rfl
  · exact BitVec.xor_zero.symm

theorem crcBit_lsb (r : BitVec 32) (b : Bool) : (crcBit r b).getLsbD 0 = crcFeedback r b := by
  rw [crcBit_eq, BitVec.getLsbD_xor]
  cases crcFeedback r b <;> simp [crcPolynomial]

/-- Registers that agree in their lowest `n + 1` bits after one bit agreed in their lowest `n` bits before it. -/
theorem crcBit_agree {r q : BitVec 32} {b c : Bool} {n : Nat} (hn : n < 32)
    (h : ∀ i, i ≤ n → (crcBit r b).getLsbD i = (crcBit q c).getLsbD i) : ∀ i, i < n → r.getLsbD i = q.getLsbD i := by
  have feedback : crcFeedback r b = crcFeedback q c := by
    have := h 0 (Nat.zero_le n)
    rwa [crcBit_lsb, crcBit_lsb] at this
  intro i hi
  have at_ := h (i + 1) hi
  rw [crcBit_eq, crcBit_eq, feedback, BitVec.getLsbD_xor, BitVec.getLsbD_xor] at at_
  have shifted := Bool.xor_left_inj.1 at_
  simpa only [BitVec.getLsbD_shiftLeft, show i + 1 < 32 by omega, decide_true, Nat.le_add_left, Nat.not_lt,
    decide_false, Bool.not_false, Bool.true_and, Nat.add_sub_cancel, show ¬ i + 1 < 1 by omega] using shifted

/-- One bit taken in is one-to-one in the register. -/
theorem crcBit_injective {r q : BitVec 32} {b : Bool} (h : crcBit r b = crcBit q b) : r = q := by
  have feedback : crcFeedback r b = crcFeedback q b := by rw [← crcBit_lsb, h, crcBit_lsb]
  have top : r.getLsbD 31 = q.getLsbD 31 := by
    unfold crcFeedback at feedback
    exact by simpa using feedback
  refine BitVec.eq_of_getLsbD_eq fun i hi => ?_
  rcases Nat.lt_succ_iff_lt_or_eq.1 hi with low | rfl
  · exact crcBit_agree (n := 31) (by decide) (fun i _ => by rw [h]) i low
  · exact top

theorem crcBits_injective {r q : BitVec 32} (bits : List Bool) (h : crcBits r bits = crcBits q bits) : r = q := by
  induction bits generalizing r q with
  | nil => exact h
  | cons b bits ih =>
    rw [crcBits_cons, crcBits_cons] at h
    exact crcBit_injective (ih h)

/-- Two runs of `n` bits, 32 at most, that end in the same register: the registers before them agreed in all but the
highest `n` bits, and where they were the same the runs are the same. -/
theorem crcBits_burst {r q : BitVec 32} {old new : List Bool} (length : old.length = new.length) (short : new.length ≤ 32)
    (h : crcBits r old = crcBits q new) :
    (∀ i, i < 32 - new.length → r.getLsbD i = q.getLsbD i) ∧ (r = q → old = new) := by
  induction old generalizing r q new with
  | nil =>
    obtain rfl := List.eq_nil_of_length_eq_zero length.symm
    exact ⟨fun i _ => by rw [show r = q from h], fun _ => rfl⟩
  | cons b old ih =>
    obtain _ | ⟨c, new⟩ := new
    · cases length
    rw [crcBits_cons, crcBits_cons] at h
    simp only [List.length_cons] at length short ⊢
    obtain ⟨agree, same⟩ := ih (by omega) (by omega) h
    refine ⟨crcBit_agree (by omega) fun i hi => agree i (by omega), fun e => ?_⟩
    subst e
    have lsb := agree 0 (by omega)
    rw [crcBit_lsb, crcBit_lsb, crcFeedback, crcFeedback] at lsb
    obtain rfl : b = c := by simpa using lsb
    rw [same rfl]

theorem crc32_injective {a b : List Byte} (h : crc32 a = crc32 b) :
    crcBits 0xFFFFFFFF (crcInput a) = crcBits 0xFFFFFFFF (crcInput b) := by
  have reversed := congrArg (fun v => (~~~v).reverse) h
  simpa [crc32] using reversed

/-- Two strings that differ in a run of at most 32 bits, in the order in which the check takes them, have different
checks. -/
theorem crc32_ne_of_burst {a b : List Byte} {before old new after : List Bool} (ha : crcInput a = before ++ old ++ after)
    (hb : crcInput b = before ++ new ++ after) (length : old.length = new.length) (short : new.length ≤ 32)
    (differ : old ≠ new) : crc32 a ≠ crc32 b := by
  intro same
  have h := crc32_injective same
  rw [ha, hb, crcBits_append, crcBits_append, crcBits_append, crcBits_append] at h
  exact differ ((crcBits_burst length short (crcBits_injective after h)).2 rfl)

/-! ## The covered string -/

theorem coveredString_length (l : Link) : (coveredString l).length = 119 := by simp [coveredString, keyBytes, saltBytes]

theorem coveredString_layout (l : Link) :
    coveredString l = layout [(32, l.rootKey.toNat), (1, l.current.generation), (32, l.current.key.toNat),
      (8, l.current.salt.toNat), (1, l.retiring.generation), (32, l.retiring.key.toNat), (8, l.retiring.salt.toNat),
      (2, l.first), (2, l.last), (1, l.profile.val)] := by
  simp [coveredString, keyBytes, saltBytes, layout_cons]

/-- Settles O17: codes taken afresh or by difference are true (`step_codesOk`), and the check tells a burst of 32 bits
(`crc32_ne_of_burst`). -/
theorem checkCodesStayTrue : Obligations.CheckCodesStayTrue := by
  refine ⟨fun s t codes keys map h => step_codesOk codes keys map h, ⟨crcBits 0xFFFFFFFF, rfl, fun bits b => ?_, fun bs => rfl⟩,
    fun l m before old new after hl hm length short differ => crc32_ne_of_burst hl hm length short differ, fun l => ?_,
    rfl, by decide +kernel⟩
  · rw [crcBits_append, crcBits_cons, crcBit]
    cases (crcBits 0xFFFFFFFF bits).msb <;> cases b <;> rfl
  · rw [coveredString_layout]
    exact ⟨by rw [← coveredString_layout]; rfl, by simp, bytesAt_layout 0 rfl rfl, bytesAt_layout 1 rfl rfl,
      bytesAt_layout 2 rfl rfl, bytesAt_layout 3 rfl rfl, bytesAt_layout 4 rfl rfl,
      bytesAt_layout 5 rfl rfl, bytesAt_layout 6 rfl rfl, bytesAt_layout 7 rfl rfl,
      bytesAt_layout 8 rfl rfl, bytesAt_layout 9 rfl rfl⟩

end Sys2Proof.Machine
end

