-- ==== Sys2Proof/Proofs/Turn.lean ====
section
/-! PROOFS. The turnover invariant over what it reads of a state, and the moves that keep it: a join, a promotion, an admission, an origination, a delivery, a retry, the end of an exchange, and a link's leaving. -/

namespace Sys2Proof.Machine

/-- What `State.TurnoverOk` reads of a state. -/
structure Turn where
  due : DueList
  renewal : Slot → RenewalState
  restTimer : Slot → Nat
  state : Slot → LinkState
  records : RecordNumber → RenewalRecord
  sendOrder : List RecordNumber
  offers : List Slot

/-- The turnover of a state. -/
def State.turn (s : State) : Turn where
  due := s.dueList
  renewal k := (s.link k).renewal
  restTimer k := (s.link k).restTimer
  state k := (s.link k).state
  records n := s.records[n]
  sendOrder := s.sendOrder
  offers := s.queue.filterMap Item.offer?

/-- The slots of the Due List, in its order. -/
def Turn.listed (v : Turn) : List Slot := v.due.urgent ++ v.due.ordinary

/-- A VACANT or QUARANTINED link. -/
def Turn.outside (v : Turn) (k : Slot) : Prop := v.state k = .vacant ∨ v.state k = .quarantined

/-- An in-use record. -/
def Turn.inUse (v : Turn) (n : RecordNumber) : Prop := (v.records n).state ≠ .free

/-- A record that waits to send, with no offer queued. -/
def Turn.sends (v : Turn) (n : RecordNumber) : Prop :=
  (v.records n).state = .waitingSend ∧ (v.records n).offerQueued = false

/-- `State.TurnoverOk`, of a turnover. -/
structure Turn.Ok (v : Turn) : Prop where
  dueNodup : v.listed.Nodup
  dueMirror : ∀ k, k ∈ v.listed ↔ v.renewal k = .due
  recordMirror : ∀ k, (∃ n, v.inUse n ∧ (v.records n).slot = k) ↔ v.renewal k = .exchange
  recordUnique : ∀ m n, v.inUse m → v.inUse n → (v.records m).slot = (v.records n).slot → m = n
  restTimer : ∀ k, v.renewal k ≠ .rest → v.restTimer k = 0
  outside : ∀ k, v.outside k → v.renewal k = .idle
  sendNodup : v.sendOrder.Nodup
  sendMirror : ∀ n, n ∈ v.sendOrder ↔ v.sends n
  queuedWaits : ∀ n, (v.records n).offerQueued = true → (v.records n).state = .waitingSend
  offerNodup : v.offers.Nodup
  offerMirror : ∀ k, k ∈ v.offers ↔ ∃ n, (v.records n).offerQueued = true ∧ (v.records n).slot = k

theorem turnoverOk_iff {s : State} : s.TurnoverOk ↔ s.turn.Ok :=
  ⟨fun h => ⟨h.dueNodup, h.dueMirror, h.recordMirror, h.recordUnique, h.restTimer, h.outside, h.sendNodup, h.sendMirror,
      h.queuedWaits, h.offerNodup, h.offerMirror⟩,
    fun h => ⟨h.dueNodup, h.dueMirror, h.recordMirror, h.recordUnique, h.restTimer, h.outside, h.sendNodup, h.sendMirror,
      h.queuedWaits, h.offerNodup, h.offerMirror⟩⟩

namespace Turn

/-- A link's renewal state and rest timer set. -/
def place (v : Turn) (k : Slot) (r : RenewalState) (timer : Nat) : Turn :=
  { v with renewal := Function.update v.renewal k r, restTimer := Function.update v.restTimer k timer }

/-- A record replaced. -/
def setRecord (v : Turn) (n : RecordNumber) (r : RenewalRecord) : Turn :=
  { v with records := Function.update v.records n r }

section
variable {v : Turn} {n : RecordNumber} {k : Slot}

/-! ## What the invariant says of a record -/

theorem Ok.inUse_of_queued (ok : v.Ok) (h : (v.records n).offerQueued = true) : v.inUse n := by
  rw [Turn.inUse, ok.queuedWaits n h]; decide

theorem Ok.exchange (ok : v.Ok) (h : v.inUse n) : v.renewal (v.records n).slot = .exchange :=
  (ok.recordMirror _).1 ⟨n, h, rfl⟩

theorem Ok.notListed (ok : v.Ok) (h : v.inUse n) : (v.records n).slot ∉ v.listed := by
  rw [ok.dueMirror, ok.exchange h]; decide

theorem Ok.notOutside (ok : v.Ok) (h : v.renewal k ≠ .idle) : ¬ v.outside k := fun out => h (ok.outside k out)

/-! ## Changes of the links alone -/

/-- Another place of some links within IDLE and REST. -/
theorem Ok.of_places {w : Turn} (ok : v.Ok) (due : w.due = v.due) (records : w.records = v.records)
    (sendOrder : w.sendOrder = v.sendOrder) (offers : w.offers = v.offers)
    (dues : ∀ k, w.renewal k = .due ↔ v.renewal k = .due)
    (exchanges : ∀ k, w.renewal k = .exchange ↔ v.renewal k = .exchange)
    (restTimer : ∀ k, w.renewal k ≠ .rest → w.restTimer k = 0) (outside : ∀ k, w.outside k → w.renewal k = .idle) :
    w.Ok where
  dueNodup := by rw [listed, due]; exact ok.dueNodup
  dueMirror k := by rw [dues, ← ok.dueMirror, listed, listed, due]
  recordMirror k := by rw [exchanges, ← ok.recordMirror]; simp only [Turn.inUse, records]
  recordUnique := by simp only [Turn.inUse, records]; exact ok.recordUnique
  restTimer := restTimer
  outside := outside
  sendNodup := by rw [sendOrder]; exact ok.sendNodup
  sendMirror := by simp only [sendOrder, sends, records]; exact ok.sendMirror
  queuedWaits := by rw [records]; exact ok.queuedWaits
  offerNodup := by rw [offers]; exact ok.offerNodup
  offerMirror := by rw [offers, records]; exact ok.offerMirror

/-! ## The Due List -/

theorem listed_append (d : DueList) (k : Slot) (sec : Section) :
    ((d.append k sec).urgent ++ (d.append k sec).ordinary).Perm (k :: (d.urgent ++ d.ordinary)) := by
  cases sec
  · simp only [DueList.append, List.append_assoc]
    exact List.perm_middle
  · simp only [DueList.append, ← List.append_assoc]
    exact List.perm_append_singleton k _

/-- A link of IDLE or REST joins the Due List (R80). -/
theorem Ok.joined (ok : v.Ok) (sec : Section) (renewal : v.renewal k = .idle ∨ v.renewal k = .rest)
    (inside : ¬ v.outside k) : ({ v with due := v.due.append k sec }.place k .due 0).Ok := by
  have perm := listed_append v.due k sec
  have absent : k ∉ v.listed := by
    rw [ok.dueMirror]; rcases renewal with e | e <;> rw [e] <;> decide
  refine ⟨perm.nodup_iff.2 (List.nodup_cons.2 ⟨absent, ok.dueNodup⟩), fun j => ?_, fun j => ?_, ok.recordUnique,
    fun j => ?_, fun j => ?_, ok.sendNodup, ok.sendMirror, ok.queuedWaits, ok.offerNodup, ok.offerMirror⟩
  · show j ∈ (v.due.append k sec).urgent ++ (v.due.append k sec).ordinary ↔ Function.update v.renewal k .due j = .due
    rw [perm.mem_iff, List.mem_cons, Function.update_apply]
    split
    · rename_i e; simp [e]
    · rename_i e
      rw [← ok.dueMirror j]
      exact or_iff_right e
  · show (∃ n, v.inUse n ∧ (v.records n).slot = j) ↔ Function.update v.renewal k .due j = .exchange
    rw [ok.recordMirror, Function.update_apply]
    split
    · rename_i e
      rw [e]
      rcases renewal with r | r <;> rw [r] <;> decide
    · rfl
  · show Function.update v.renewal k .due j ≠ .rest → Function.update v.restTimer k 0 j = 0
    rw [Function.update_apply, Function.update_apply]
    split
    · exact fun _ => rfl
    · exact ok.restTimer j
  · intro out
    have other : j ≠ k := fun e => inside (e ▸ out)
    show Function.update v.renewal k .due j = .idle
    rw [Function.update_of_ne other]
    exact ok.outside j out

/-- An entry of the ordinary section moves to the urgent section (R82). -/
theorem Ok.promoted (ok : v.Ok) (h : k ∈ v.due.ordinary) :
    { v with due := ⟨v.due.urgent ++ [k], v.due.ordinary.filter fun j => j ≠ k⟩ }.Ok := by
  have ordinary : v.due.ordinary.Nodup := (List.nodup_append.1 ok.dueNodup).2.1
  have perm : ((v.due.urgent ++ [k]) ++ v.due.ordinary.filter fun j => j ≠ k).Perm v.listed := by
    have erased : (v.due.ordinary.filter fun j => j ≠ k) = v.due.ordinary.erase k := by
      rw [ordinary.erase_eq_filter]
      exact List.filter_congr fun j _ => by by_cases e : j = k <;> simp [e]
    rw [erased, List.append_assoc]
    exact (List.perm_cons_erase h).symm.append_left _
  exact { ok with dueNodup := perm.nodup_iff.2 ok.dueNodup, dueMirror := fun j => perm.mem_iff.trans (ok.dueMirror j) }

/-- The Due List without a link, and the others in their order. -/
theorem mem_listed_remove {d : DueList} {j k : Slot} :
    j ∈ (d.remove k).urgent ++ (d.remove k).ordinary ↔ j ∈ d.urgent ++ d.ordinary ∧ j ≠ k := by
  simp only [DueList.remove, ← List.filter_append, List.mem_filter, decide_eq_true_eq]

theorem nodup_listed_remove {d : DueList} {k : Slot} (h : (d.urgent ++ d.ordinary).Nodup) :
    ((d.remove k).urgent ++ (d.remove k).ordinary).Nodup := by
  simp only [DueList.remove, ← List.filter_append]
  exact h.filter _

/-! ## The records -/

theorem setRecord_same (v : Turn) (n : RecordNumber) (r : RenewalRecord) : (v.setRecord n r).records n = r :=
  Function.update_self _ _ _

theorem setRecord_ne (v : Turn) {n m : RecordNumber} (r : RenewalRecord) (h : m ≠ n) :
    (v.setRecord n r).records m = v.records m := Function.update_of_ne h _ _

/-- An in-use record replaced by an in-use record of the same link. -/
theorem inUse_setRecord {r : RenewalRecord} (used : v.inUse n) (state : r.state ≠ .free) (m : RecordNumber) :
    (v.setRecord n r).inUse m ↔ v.inUse m := by
  by_cases e : m = n
  · subst e
    rw [Turn.inUse, setRecord_same]
    exact ⟨fun _ => used, fun _ => state⟩
  · rw [Turn.inUse, setRecord_ne _ _ e]; rfl

theorem slot_setRecord {r : RenewalRecord} (slot : r.slot = (v.records n).slot) (m : RecordNumber) :
    ((v.setRecord n r).records m).slot = (v.records m).slot := by
  by_cases e : m = n
  · subst e; rw [setRecord_same, slot]
  · rw [setRecord_ne _ _ e]

/-- An in-use record takes another state: what the send order and the offers have to say of it. -/
theorem Ok.replaced (ok : v.Ok) {r : RenewalRecord} {send : List RecordNumber} {offers : List Slot} (used : v.inUse n)
    (state : r.state ≠ .free) (slot : r.slot = (v.records n).slot) (waits : r.offerQueued = true → r.state = .waitingSend)
    (sendNodup : send.Nodup) (sendSame : ∀ m, m ≠ n → (m ∈ send ↔ m ∈ v.sendOrder))
    (sendThis : n ∈ send ↔ r.state = .waitingSend ∧ r.offerQueued = false)
    (offerNodup : offers.Nodup) (offerSame : ∀ k, k ≠ r.slot → (k ∈ offers ↔ k ∈ v.offers))
    (offerThis : r.slot ∈ offers ↔ r.offerQueued = true) :
    ({ v with sendOrder := send, offers := offers }.setRecord n r).Ok := by
  have inUse := inUse_setRecord (v := { v with sendOrder := send, offers := offers }) used state
  have slots := slot_setRecord (v := { v with sendOrder := send, offers := offers }) slot
  refine ⟨ok.dueNodup, ok.dueMirror, fun k => ?_, fun m n => ?_, ok.restTimer, ok.outside, sendNodup, fun m => ?_,
    fun m => ?_, offerNodup, fun k => ?_⟩
  · simp only [inUse, slots]; exact ok.recordMirror k
  · rw [inUse, inUse, slots, slots]; exact ok.recordUnique m n
  · by_cases e : m = n
    · subst e
      rw [sends, setRecord_same]; exact sendThis
    · rw [sends, setRecord_ne _ _ e]; exact (sendSame m e).trans (ok.sendMirror m)
  · by_cases e : m = n
    · subst e
      rw [setRecord_same]; exact waits
    · rw [setRecord_ne _ _ e]; exact ok.queuedWaits m
  · by_cases e : k = r.slot
    · subst e
      refine offerThis.trans ⟨fun q => ⟨n, by rwa [setRecord_same], by rw [setRecord_same]⟩, ?_⟩
      rintro ⟨m, queued, at_⟩
      by_cases e : m = n
      · subst e; rwa [setRecord_same] at queued
      · rw [setRecord_ne _ _ e] at queued at_
        exact absurd (ok.recordUnique m n (ok.inUse_of_queued queued) used (at_.trans slot)) e
    · refine (offerSame k e).trans ((ok.offerMirror k).trans ⟨?_, ?_⟩)
      · rintro ⟨m, queued, rfl⟩
        have other : m ≠ n := fun h => e (by rw [h, slot])
        exact ⟨m, by rwa [setRecord_ne _ _ other], by rw [setRecord_ne _ _ other]⟩
      · rintro ⟨m, queued, at_⟩
        have other : m ≠ n := fun h => e (by rw [← at_, h, setRecord_same])
        rw [setRecord_ne _ _ other] at queued at_
        exact ⟨m, queued, at_⟩

/-- The link of an in-use record has an offer queued exactly when the record says so. -/
theorem Ok.offered_iff (ok : v.Ok) (used : v.inUse n) : (v.records n).slot ∈ v.offers ↔ (v.records n).offerQueued = true := by
  rw [ok.offerMirror]
  refine ⟨?_, fun h => ⟨n, h, rfl⟩⟩
  rintro ⟨m, queued, at_⟩
  rw [← ok.recordUnique m n (ok.inUse_of_queued queued) used at_]
  exact queued

/-- A record of the send order is originated: its offer joins the queue (R88). -/
theorem Ok.originated (ok : v.Ok) (h : n ∈ v.sendOrder) :
    ({ v with sendOrder := v.sendOrder.filter fun m => m ≠ n, offers := v.offers ++ [(v.records n).slot] }.setRecord n
      { v.records n with offerQueued := true }).Ok := by
  obtain ⟨state, queued⟩ := (ok.sendMirror n).1 h
  have used : v.inUse n := by rw [Turn.inUse, state]; decide
  have absent : (v.records n).slot ∉ v.offers := by rw [ok.offered_iff used, queued]; decide
  refine ok.replaced used (by rw [state]; decide) rfl (fun _ => state) (ok.sendNodup.filter _)
    (fun m other => by simp [other]) (by simp) ?_ (fun k other => ?_) (by simp)
  · exact (List.perm_append_singleton _ _).nodup_iff.2 (List.nodup_cons.2 ⟨absent, ok.offerNodup⟩)
  · simp only [List.mem_append, List.mem_singleton]
    exact or_iff_left other

/-- The offer at the front of the queue is delivered: its record waits for the reply (R90). -/
theorem Ok.delivered (ok : v.Ok) {rest : List Slot} {r : RenewalRecord} (front : v.offers = (v.records n).slot :: rest)
    (used : v.inUse n) (state : r.state = .waitingReply) (slot : r.slot = (v.records n).slot)
    (queued : r.offerQueued = false) : ({ v with offers := rest }.setRecord n r).Ok := by
  have nodup := ok.offerNodup
  rw [front] at nodup
  obtain ⟨absent, nodup⟩ := List.nodup_cons.1 nodup
  have was : (v.records n).offerQueued = true := (ok.offered_iff used).1 (by rw [front]; exact List.mem_cons_self)
  refine ok.replaced used (by rw [state]; decide) slot (fun q => by rw [queued] at q; cases q) ok.sendNodup
    (fun _ _ => .rfl) ?_ nodup (fun k other => ?_) ?_
  · rw [ok.sendMirror, sends, was, state]; simp
  · rw [front, List.mem_cons]; exact (or_iff_right (slot ▸ other)).symm
  · rw [slot, queued]; simpa using absent

/-- An attempt ends and another is to be sent (R94). -/
theorem Ok.retried (ok : v.Ok) {r : RenewalRecord} (waits : (v.records n).state = .waitingReply)
    (slot : r.slot = (v.records n).slot) (state : r.state = .waitingSend) (queued : r.offerQueued = false) :
    ({ v with sendOrder := v.sendOrder ++ [n] }.setRecord n r).Ok := by
  have used : v.inUse n := by rw [Turn.inUse, waits]; decide
  have unqueued : (v.records n).slot ∉ v.offers := by
    rw [ok.offered_iff used]
    intro q
    rw [ok.queuedWaits n q] at waits
    cases waits
  have unsent : n ∉ v.sendOrder := by rw [ok.sendMirror, sends, waits]; simp
  refine ok.replaced used (by rw [state]; decide) slot (fun _ => state) ?_ (fun m other => by simp [other])
    (by simp [state, queued]) ok.offerNodup (fun _ _ => .rfl) (by rw [slot, queued]; simpa using unqueued)
  exact (List.perm_append_singleton _ _).nodup_iff.2 (List.nodup_cons.2 ⟨unsent, ok.sendNodup⟩)

/-- A record changed in nothing that the invariant reads. -/
theorem Ok.noted (ok : v.Ok) {r : RenewalRecord} (slot : r.slot = (v.records n).slot)
    (state : r.state = (v.records n).state) (queued : r.offerQueued = (v.records n).offerQueued) : (v.setRecord n r).Ok := by
  have slots := slot_setRecord (v := v) slot
  have states (m : RecordNumber) : ((v.setRecord n r).records m).state = (v.records m).state := by
    by_cases e : m = n
    · subst e; rw [setRecord_same, state]
    · rw [setRecord_ne _ _ e]
  have queueds (m : RecordNumber) : ((v.setRecord n r).records m).offerQueued = (v.records m).offerQueued := by
    by_cases e : m = n
    · subst e; rw [setRecord_same, queued]
    · rw [setRecord_ne _ _ e]
  refine ⟨ok.dueNodup, ok.dueMirror, ?_, ?_, ok.restTimer, ok.outside, ok.sendNodup, ?_, ?_, ok.offerNodup, ?_⟩
  all_goals simp only [Turn.inUse, sends, slots, states, queueds]
  · exact ok.recordMirror
  · exact ok.recordUnique
  · exact ok.sendMirror
  · exact ok.queuedWaits
  · exact ok.offerMirror

/-! ## Admission and leaving -/

/-- The head of the Due List is taken into a free record (R86). -/
theorem Ok.admitted (ok : v.Ok) {r : RenewalRecord} (free : (v.records n).state = .free) (listed : k ∈ v.listed)
    (slot : r.slot = k) (state : r.state = .waitingSend) (queued : r.offerQueued = false) :
    (({ v with due := v.due.remove k, sendOrder := v.sendOrder ++ [n] }.setRecord n r).place k .exchange 0).Ok := by
  have due : v.renewal k = .due := (ok.dueMirror k).1 listed
  have unused (m : RecordNumber) (used : v.inUse m) : (v.records m).slot ≠ k := fun e => by
    have := ok.exchange used
    rw [e, due] at this
    cases this
  have other (m : RecordNumber) (used : v.inUse m) : m ≠ n := fun e => used (e ▸ free)
  have inUse (m : RecordNumber) : (v.setRecord n r).inUse m ↔ m = n ∨ v.inUse m := by
    by_cases e : m = n
    · subst e; simp [Turn.inUse, setRecord_same, state]
    · rw [Turn.inUse, setRecord_ne _ _ e]; exact (or_iff_right e).symm
  have slots (m : RecordNumber) (used : v.inUse m) : ((v.setRecord n r).records m).slot = (v.records m).slot := by
    rw [setRecord_ne _ _ (other m used)]
  have this : ((v.setRecord n r).records n).slot = k := by rw [setRecord_same, slot]
  refine ⟨nodup_listed_remove ok.dueNodup, fun j => ?_, fun j => ?_, fun a b => ?_, fun j => ?_, fun j out => ?_, ?_,
    fun m => ?_, fun m => ?_, ok.offerNodup, fun j => ?_⟩
  · show j ∈ (v.due.remove k).urgent ++ (v.due.remove k).ordinary ↔ Function.update v.renewal k .exchange j = .due
    rw [mem_listed_remove, Function.update_apply]
    split
    · rename_i e; simp [e]
    · rename_i e
      rw [← ok.dueMirror j]
      exact and_iff_left e
  · show (∃ m, (v.setRecord n r).inUse m ∧ ((v.setRecord n r).records m).slot = j) ↔
      Function.update v.renewal k .exchange j = .exchange
    rw [Function.update_apply]
    split
    · rename_i e
      exact ⟨fun _ => rfl, fun _ => ⟨n, (inUse n).2 (.inl rfl), by rw [this, e]⟩⟩
    · rename_i e
      rw [← ok.recordMirror j]
      constructor
      · rintro ⟨m, used, rfl⟩
        rcases (inUse m).1 used with rfl | used
        · exact absurd this e
        · exact ⟨m, used, (slots m used).symm⟩
      · rintro ⟨m, used, rfl⟩
        exact ⟨m, (inUse m).2 (.inr used), slots m used⟩
  · show (v.setRecord n r).inUse a → (v.setRecord n r).inUse b →
      ((v.setRecord n r).records a).slot = ((v.setRecord n r).records b).slot → a = b
    intro ha hb same
    rcases (inUse a).1 ha with rfl | ua <;> rcases (inUse b).1 hb with rfl | ub
    · rfl
    · rw [this, slots b ub] at same; exact absurd same.symm (unused b ub)
    · rw [this, slots a ua] at same; exact absurd same (unused a ua)
    · rw [slots a ua, slots b ub] at same; exact ok.recordUnique a b ua ub same
  · show Function.update v.renewal k .exchange j ≠ .rest → Function.update v.restTimer k 0 j = 0
    rw [Function.update_apply, Function.update_apply]
    split
    · exact fun _ => rfl
    · exact ok.restTimer j
  · have other : j ≠ k := fun e => ok.notOutside (by rw [due]; decide) (e ▸ out)
    show Function.update v.renewal k .exchange j = .idle
    rw [Function.update_of_ne other]
    exact ok.outside j out
  · refine (List.perm_append_singleton _ _).nodup_iff.2 (List.nodup_cons.2 ⟨fun mem => ?_, ok.sendNodup⟩)
    have := ((ok.sendMirror _).1 mem).1
    rw [free] at this
    cases this
  · show m ∈ v.sendOrder ++ [n] ↔ (v.setRecord n r).sends m
    rw [List.mem_append, List.mem_singleton]
    by_cases e : m = n
    · subst e; simp [sends, setRecord_same, state, queued]
    · rw [sends, setRecord_ne _ _ e, or_iff_left e]; exact ok.sendMirror m
  · show ((v.setRecord n r).records m).offerQueued = true → _
    by_cases e : m = n
    · subst e; rw [setRecord_same]; intro q; rw [queued] at q; cases q
    · show _ → ((v.setRecord n r).records m).state = _
      rw [setRecord_ne _ _ e]; exact ok.queuedWaits m
  · show j ∈ v.offers ↔ ∃ m, ((v.setRecord n r).records m).offerQueued = true ∧ ((v.setRecord n r).records m).slot = j
    rw [ok.offerMirror]
    constructor
    · rintro ⟨m, q, rfl⟩
      have e := other m (ok.inUse_of_queued q)
      exact ⟨m, by rwa [setRecord_ne _ _ e], by rw [setRecord_ne _ _ e]⟩
    · rintro ⟨m, q, rfl⟩
      by_cases e : m = n
      · subst e; rw [setRecord_same, queued] at q; cases q
      · rw [setRecord_ne _ _ e] at q ⊢; exact ⟨m, q, rfl⟩

/-- The in-use record of a link. -/
def records_of (v : Turn) (k : Slot) (n : RecordNumber) : Prop := v.inUse n ∧ (v.records n).slot = k

/-- A link leaves the turnover: no entry on the Due List, no record, no offer, and a renewal state of IDLE or REST. -/
theorem Ok.left {w : Turn} (ok : v.Ok) (dueNodup : w.listed.Nodup) (due : ∀ j, j ∈ w.listed ↔ j ∈ v.listed ∧ j ≠ k)
    (freed : ∀ n, v.records_of k n → w.records n = .free) (kept : ∀ n, ¬ v.records_of k n → w.records n = v.records n)
    (sendNodup : w.sendOrder.Nodup) (send : ∀ n, n ∈ w.sendOrder ↔ n ∈ v.sendOrder ∧ ¬ v.records_of k n)
    (offerNodup : w.offers.Nodup) (offers : ∀ j, j ∈ w.offers ↔ j ∈ v.offers ∧ j ≠ k)
    (same : ∀ j, j ≠ k → w.renewal j = v.renewal j ∧ w.restTimer j = v.restTimer j ∧ w.state j = v.state j)
    (renewal : w.renewal k = .idle ∧ w.restTimer k = 0 ∨ w.renewal k = .rest ∧ ¬ w.outside k) : w.Ok := by
  have inUse (n : RecordNumber) : w.inUse n ↔ v.inUse n ∧ (v.records n).slot ≠ k := by
    by_cases h : v.records_of k n
    · rw [Turn.inUse, freed n h]
      exact ⟨fun c => absurd rfl c, fun c => absurd h.2 c.2⟩
    · rw [Turn.inUse, kept n h]
      exact ⟨fun used => ⟨used, fun e => h ⟨used, e⟩⟩, fun c => c.1⟩
  have slots (n : RecordNumber) (used : v.inUse n) (other : (v.records n).slot ≠ k) : w.records n = v.records n :=
    kept n fun h => other h.2
  have notThis : w.renewal k ≠ .due ∧ w.renewal k ≠ .exchange := by
    rcases renewal with ⟨e, -⟩ | ⟨e, -⟩ <;> rw [e] <;> decide
  refine ⟨dueNodup, fun j => ?_, fun j => ?_, fun a b ha hb e => ?_, fun j => ?_, fun j out => ?_, sendNodup, fun n => ?_,
    fun n => ?_, offerNodup, fun j => ?_⟩
  · rw [due]
    by_cases e : j = k
    · subst e; exact ⟨fun c => absurd rfl c.2, fun c => absurd c notThis.1⟩
    · rw [(same j e).1, ← ok.dueMirror]; exact and_iff_left e
  · by_cases e : j = k
    · subst e
      refine ⟨?_, fun c => absurd c notThis.2⟩
      rintro ⟨n, used, at_⟩
      obtain ⟨used, other⟩ := (inUse n).1 used
      rw [slots n used other] at at_
      exact absurd at_ other
    · rw [(same j e).1, ← ok.recordMirror]
      constructor
      · rintro ⟨n, used, rfl⟩
        obtain ⟨used, other⟩ := (inUse n).1 used
        exact ⟨n, used, by rw [slots n used other]⟩
      · rintro ⟨n, used, rfl⟩
        exact ⟨n, (inUse n).2 ⟨used, e⟩, by rw [slots n used e]⟩
  · obtain ⟨ua, oa⟩ := (inUse a).1 ha
    obtain ⟨ub, ob⟩ := (inUse b).1 hb
    rw [slots a ua oa, slots b ub ob] at e
    exact ok.recordUnique a b ua ub e
  · by_cases e : j = k
    · subst e
      rcases renewal with ⟨-, z⟩ | ⟨r, -⟩
      · exact fun _ => z
      · exact fun c => absurd r c
    · rw [(same j e).1, (same j e).2.1]; exact ok.restTimer j
  · by_cases e : j = k
    · subst e
      rcases renewal with ⟨i, -⟩ | ⟨-, inside⟩
      · exact i
      · exact absurd out inside
    · rw [(same j e).1]
      refine ok.outside j ?_
      rwa [Turn.outside, (same j e).2.2] at out
  · rw [send, ok.sendMirror]
    by_cases h : v.records_of k n
    · rw [sends, sends, freed n h]
      exact ⟨fun c => absurd h c.2, fun c => (nomatch c.1)⟩
    · rw [sends, sends, kept n h]; exact and_iff_left h
  · by_cases h : v.records_of k n
    · rw [freed n h]; exact fun c => (nomatch c)
    · rw [kept n h]; exact ok.queuedWaits n
  · rw [offers, ok.offerMirror]
    constructor
    · rintro ⟨⟨n, q, rfl⟩, e⟩
      have h : ¬ v.records_of k n := fun c => e c.2
      exact ⟨n, by rwa [kept n h], by rw [kept n h]⟩
    · rintro ⟨n, q, rfl⟩
      by_cases h : v.records_of k n
      · rw [freed n h] at q; cases q
      · rw [kept n h] at q ⊢
        exact ⟨⟨n, q, rfl⟩, fun c => h ⟨ok.inUse_of_queued q, c⟩⟩

end

end Turn

end Sys2Proof.Machine
end

