-- ==== Sys2Proof/Proofs/TurnSteps.lean ====
section
/-! PROOFS. Every change keeps the turnover invariant, and so does every step. -/

namespace Sys2Proof.Machine

/-! ## The turnover of a changed state -/

theorem turn_beside {s t : State} (h : Beside s t) : t.turn = s.turn := by
  simp only [State.turn, State.link, h.links, h.dueList, h.records, h.sendOrder, h.offers]

theorem turn_setLink (s : State) (k : Slot) (m : Link) :
    (s.setLink k m).turn = { s.turn.place k m.renewal m.restTimer with state := Function.update s.turn.state k m.state } := by
  simp only [State.turn, Turn.place, State.link_setLink, State.setLink_dueList, State.setLink_records,
    State.setLink_sendOrder, State.setLink_queue, Turn.mk.injEq, true_and, and_true]
  refine ⟨?_, ?_, ?_⟩ <;> funext j <;> rw [Function.update_apply] <;> split <;> rfl

section
variable {s : State} {v : Turn}

theorem turn_setRecord (h : s.turn = v) (n : RecordNumber) (r : RenewalRecord) : (s.setRecord n r).turn = v.setRecord n r := by
  have records : (fun m : RecordNumber => (s.setRecord n r).records[m]) = Function.update (fun m => s.records[m]) n r := by
    funext m
    rw [Function.update_apply]
    split
    · rename_i e; subst e; exact Vector.getElem_set_self _
    · rename_i e
      exact Vector.getElem_set_ne n.isLt m.isLt (fun h => e (Fin.ext h.symm))
  subst h
  simp only [State.turn, Turn.setRecord, records]
  rfl

theorem turn_joinQueue_offer (h : s.turn = v) (k : Slot) (p : List Byte) :
    (joinQueue (.offer k p) s).turn = { v with offers := v.offers ++ [k] } := by
  have offers : (s.queue ++ [Item.offer k p]).filterMap Item.offer? = s.queue.filterMap Item.offer? ++ [k] := by
    rw [List.filterMap_append]; rfl
  subst h
  unfold joinQueue
  split <;> simp only [State.turn, State.setCause_queue, pushItem_queue, offers] <;> rfl

theorem turn_leaveSendOrder (h : s.turn = v) (n : RecordNumber) :
    (leaveSendOrder n s).turn = { v with sendOrder := v.sendOrder.filter fun m => m ≠ n } := by subst h; rfl

theorem turn_joinSendOrder (h : s.turn = v) (n : RecordNumber) :
    (joinSendOrder n s).turn = { v with sendOrder := v.sendOrder ++ [n] } := by subst h; rfl

theorem turn_removeDue (h : s.turn = v) (k : Slot) : (removeDue k s).turn = { v with due := v.due.remove k } := by
  subst h; rfl

theorem turn_appendDue (h : s.turn = v) (k : Slot) (sec : Section) :
    (appendDue k sec s).turn = { v with due := v.due.append k sec } := by subst h; rfl

theorem turn_withRenewal (h : s.turn = v) (k : Slot) (r : RenewalState) (n : Nat) :
    (s.modLink k (Link.withRenewal r n)).turn = v.place k r n := by
  have state : Function.update s.turn.state k ((s.link k).withRenewal r n).state = s.turn.state :=
    Function.update_eq_self k s.turn.state
  rw [State.modLink, turn_setLink, state, h]
  rfl

end

theorem turn_setLink_same {s : State} {k : Slot} {m : Link} (renewal : m.renewal = (s.link k).renewal)
    (restTimer : m.restTimer = (s.link k).restTimer) (state : m.state = (s.link k).state) : (s.setLink k m).turn = s.turn := by
  have renewals : Function.update s.turn.renewal k m.renewal = s.turn.renewal := by
    rw [renewal]; exact Function.update_eq_self k s.turn.renewal
  have timers : Function.update s.turn.restTimer k m.restTimer = s.turn.restTimer := by
    rw [restTimer]; exact Function.update_eq_self k s.turn.restTimer
  have states : Function.update s.turn.state k m.state = s.turn.state := by
    rw [state]; exact Function.update_eq_self k s.turn.state
  rw [turn_setLink, Turn.place, renewals, timers, states]

theorem turn_setBranchMap (m : List Triple) (s : State) : (setBranchMap m s).turn = s.turn := rfl

/-! ## Links -/

/-- A link changed in nothing that the turnover reads, and not put out of it. -/
theorem turnover_setLink {s : State} {k : Slot} {m : Link} (ok : s.turn.Ok) (renewal : m.renewal = (s.link k).renewal)
    (restTimer : m.restTimer = (s.link k).restTimer)
    (inside : m.state = .vacant ∨ m.state = .quarantined → (s.link k).state = .vacant ∨ (s.link k).state = .quarantined) :
    (s.setLink k m).turn.Ok := by
  have renewals (j : Slot) : ((s.setLink k m).link j).renewal = (s.link j).renewal := by
    rw [State.link_setLink]
    split
    · rename_i e; rw [e, renewal]
    · rfl
  refine ok.of_places rfl rfl rfl rfl (fun j => ?_) (fun j => ?_) (fun j h => ?_) fun j out => ?_
  · show ((s.setLink k m).link j).renewal = .due ↔ (s.link j).renewal = .due
    rw [renewals]
  · show ((s.setLink k m).link j).renewal = .exchange ↔ (s.link j).renewal = .exchange
    rw [renewals]
  · have timer : ((s.setLink k m).link j).restTimer = (s.link j).restTimer := by
      rw [State.link_setLink]
      split
      · rename_i e; rw [e, restTimer]
      · rfl
    show ((s.setLink k m).link j).restTimer = 0
    rw [timer]
    refine ok.restTimer j ?_
    rwa [show (s.setLink k m).turn.renewal j = ((s.setLink k m).link j).renewal from rfl, renewals] at h
  · show ((s.setLink k m).link j).renewal = .idle
    rw [renewals]
    refine ok.outside j ?_
    have out : ((s.setLink k m).link j).state = .vacant ∨ ((s.setLink k m).link j).state = .quarantined := out
    rw [State.link_setLink] at out
    split at out
    · rename_i e; rw [e]; exact inside out
    · exact out

/-- A rest timer goes down, or the rest ends (R66). -/
theorem turnover_rested {s : State} {k : Slot} (ok : s.turn.Ok) : (s.modLink k countedRest).turn.Ok := by
  by_cases rest : (s.link k).renewal = .rest
  · have inside : ¬ s.turn.outside k := ok.notOutside (by rw [show s.turn.renewal k = .rest from rest]; decide)
    have counted : (countedRest (s.link k)).renewal = .idle ∧ (countedRest (s.link k)).restTimer = 0 ∨
        (countedRest (s.link k)).renewal = .rest := by
      unfold countedRest
      rw [if_pos rest]
      split
      · exact .inl ⟨rfl, rfl⟩
      · exact .inr rest
    have state : (countedRest (s.link k)).state = (s.link k).state := by
      unfold countedRest
      split_ifs <;> rfl
    have place (r : RenewalState) (h : r ≠ .idle) (h' : r ≠ .rest) (j : Slot) :
        ((s.modLink k countedRest).link j).renewal = r ↔ (s.link j).renewal = r := by
      rw [State.link_modLink]
      split
      · rename_i e
        rw [e, rest]
        rcases counted with ⟨c, -⟩ | c <;> rw [c]
        · exact ⟨fun e => absurd e.symm h, fun e => absurd e.symm h'⟩
      · rfl
    refine ok.of_places rfl rfl rfl rfl (place .due (by decide) (by decide)) (place .exchange (by decide) (by decide))
      (fun j => ?_) fun j out => ?_
    · show ((s.modLink k countedRest).link j).renewal ≠ .rest → ((s.modLink k countedRest).link j).restTimer = 0
      rw [State.link_modLink]
      split
      · rename_i e
        rcases counted with ⟨-, c⟩ | c
        · exact fun _ => c
        · exact fun h => absurd c h
      · exact ok.restTimer j
    · have out : ((s.modLink k countedRest).link j).state = .vacant ∨ ((s.modLink k countedRest).link j).state = .quarantined :=
        out
      show ((s.modLink k countedRest).link j).renewal = .idle
      rw [State.link_modLink] at out ⊢
      split at out
      · rename_i e
        rw [state] at out
        exact absurd out inside
      · rename_i e
        rw [if_neg e]
        exact ok.outside j out
  · have same : countedRest (s.link k) = s.link k := by rw [countedRest, if_neg rest]
    rw [State.modLink, same]
    exact turnover_setLink ok rfl rfl id

/-! ## Origination -/

/-- The turnover with the offer of a record queued. -/
def Turn.offered (v : Turn) (n : RecordNumber) : Turn :=
  { v with sendOrder := v.sendOrder.filter fun m => m ≠ n, offers := v.offers ++ [(v.records n).slot] }.setRecord n
    { v.records n with offerQueued := true }

theorem turn_originateOne (n : RecordNumber) (s : State) : (originateOne n s).turn = s.turn.offered n := by
  have linked : (s.setLink s.records[n].slot
      { s.link s.records[n].slot with rootSequence := nextSequence (s.link s.records[n].slot).rootSequence }).turn = s.turn :=
    turn_setLink_same rfl rfl rfl
  exact turn_leaveSendOrder (turn_setRecord (turn_joinQueue_offer linked _ _) n _) n

/-- A walk over records that are still to be sent keeps the invariant. -/
theorem turnover_originate {s : State} (ok : s.turn.Ok) : (tryOriginate s).turn.Ok := by
  suffices ∀ (walk : List RecordNumber) (s : State), walk.Nodup → (∀ n ∈ walk, n ∈ s.sendOrder) → s.turn.Ok →
      (walk.foldl (fun s n => if canOriginate n s then originateOne n s else s) s).turn.Ok from
    this s.sendOrder s ok.sendNodup (fun _ h => h) ok
  intro walk
  induction walk with
  | nil => exact fun s _ _ ok => ok
  | cons n walk ih =>
    intro s nodup sent ok
    obtain ⟨absent, nodup⟩ := List.nodup_cons.1 nodup
    obtain ⟨this, others⟩ := List.forall_mem_cons.1 sent
    rw [List.foldl_cons]
    split
    · refine ih _ nodup (fun m mem => ?_) (by rw [turn_originateOne]; exact ok.originated this)
      have order : (originateOne n s).sendOrder = s.sendOrder.filter fun m => m ≠ n := congrArg Turn.sendOrder (turn_originateOne n s)
      rw [order, List.mem_filter]
      refine ⟨others m mem, ?_⟩
      simp only [decide_eq_true_eq]
      rintro rfl
      exact absent mem
    · exact ih s nodup others ok

/-! ## Leaving -/

theorem recordOf_eq_none {s : State} {k : Slot} : s.recordOf k = none ↔ ∀ n, ¬ s.turn.records_of k n := by
  unfold State.recordOf
  rw [List.find?_eq_none]
  have held (n : RecordNumber) : (decide (s.records[n].state ≠ .free) && decide (s.records[n].slot = k)) = true ↔
      s.turn.records_of k n := by
    rw [Bool.and_eq_true, decide_eq_true_eq, decide_eq_true_eq]; rfl
  exact ⟨fun h n c => h n (List.mem_finRange n) ((held n).2 c), fun h n _ c => h n ((held n).1 c)⟩

/-- The record of a link, found by its slot. -/
theorem recordOf_eq_some {s : State} {k : Slot} {n : RecordNumber} (ok : s.turn.Ok) :
    s.recordOf k = some n ↔ s.turn.records_of k n := by
  refine ⟨recordOf_slot, fun h => ?_⟩
  rcases found : s.recordOf k with _ | m
  · exact absurd h (recordOf_eq_none.1 found n)
  · obtain ⟨used, slot⟩ := recordOf_slot found
    rw [ok.recordUnique m n used h.1 (slot.trans h.2.symm)]

/-- The turnover without the record of a link. -/
theorem freeRecordOf_turn {s : State} {k : Slot} (ok : s.turn.Ok) :
    (∀ n, s.turn.records_of k n → (freeRecordOf k s).turn.records n = .free) ∧
      (∀ n, ¬ s.turn.records_of k n → (freeRecordOf k s).turn.records n = s.turn.records n) ∧
      (freeRecordOf k s).sendOrder.Nodup ∧
      ∀ n, n ∈ (freeRecordOf k s).sendOrder ↔ n ∈ s.sendOrder ∧ ¬ s.turn.records_of k n := by
  unfold freeRecordOf
  split
  · rename_i n found
    have this := (recordOf_eq_some ok).1 found
    have only (m : RecordNumber) : s.turn.records_of k m ↔ m = n :=
      ⟨fun h => ok.recordUnique m n h.1 this.1 (h.2.trans this.2.symm), fun e => e ▸ this⟩
    have turn : (freeRecordAt n s).turn =
        { s.turn.setRecord n .free with sendOrder := s.turn.sendOrder.filter fun m => m ≠ n } :=
      turn_leaveSendOrder (turn_setRecord rfl n _) n
    refine ⟨fun m h => ?_, fun m h => ?_, ok.sendNodup.filter _, fun m => ?_⟩
    · rw [turn, (only m).1 h]; exact Turn.setRecord_same _ _ _
    · rw [turn]; exact Turn.setRecord_ne _ _ (fun e => h ((only m).2 e))
    · rw [only]
      show m ∈ s.sendOrder.filter (fun m => m ≠ n) ↔ _
      simp
  · rename_i found
    have nothing := recordOf_eq_none.1 found
    exact ⟨fun n h => absurd h (nothing n), fun n _ => rfl, ok.sendNodup, fun n => ⟨fun h => ⟨h, nothing n⟩, fun h => h.1⟩⟩

/-- A link is out of the turnover: its record freed, its entry and its offer removed, and its own state IDLE. -/
theorem turnover_departed {s t : State} {k : Slot} {m : Link} (ok : s.turn.Ok)
    (links : ∀ j, t.link j = if j = k then m else s.link j) (due : t.dueList = s.dueList.remove k)
    (records : t.records = (freeRecordOf k s).records) (sendOrder : t.sendOrder = (freeRecordOf k s).sendOrder)
    (offers : t.queue.filterMap Item.offer? = (s.queue.filterMap Item.offer?).filter fun j => j ≠ k)
    (renewal : m.renewal = .idle) (restTimer : m.restTimer = 0) : t.turn.Ok := by
  obtain ⟨freed, kept, nodup, send⟩ := freeRecordOf_turn (k := k) ok
  have record (n : RecordNumber) : t.turn.records n = (freeRecordOf k s).turn.records n := by
    show t.records[n] = (freeRecordOf k s).records[n]
    rw [records]
  have this : t.link k = m := by rw [links, if_pos rfl]
  have offers' : t.turn.offers = s.turn.offers.filter fun j => j ≠ k := offers
  refine ok.left (k := k) ?_ (fun j => ?_) (fun n h => (record n).trans (freed n h)) (fun n h => (record n).trans (kept n h)) ?_
    (fun n => ?_) ?_ (fun j => ?_) (fun j other => ?_) (.inl ⟨?_, ?_⟩)
  · show (t.dueList.urgent ++ t.dueList.ordinary).Nodup
    rw [due]; exact Turn.nodup_listed_remove ok.dueNodup
  · show j ∈ t.dueList.urgent ++ t.dueList.ordinary ↔ _
    rw [due]; exact Turn.mem_listed_remove
  · show t.sendOrder.Nodup
    rw [sendOrder]; exact nodup
  · show n ∈ t.sendOrder ↔ _
    rw [sendOrder]; exact send n
  · rw [offers']; exact ok.offerNodup.filter _
  · rw [offers']; simp
  · show (t.link j).renewal = (s.link j).renewal ∧ (t.link j).restTimer = (s.link j).restTimer ∧
      (t.link j).state = (s.link j).state
    rw [links, if_neg other]
    exact ⟨rfl, rfl, rfl⟩
  · show (t.link k).renewal = .idle
    rw [this, renewal]
  · show (t.link k).restTimer = 0
    rw [this, restTimer]

/-- An exchange at record `n` ends while the record waits for a reply: the record is freed, and its link is in IDLE or
REST. -/
theorem turnover_ended {s t : State} {n : RecordNumber} {m : Link} (ok : s.turn.Ok)
    (waits : s.records[n].state = .waitingReply) (links : ∀ j, t.link j = if j = s.records[n].slot then m else s.link j)
    (due : t.dueList = s.dueList) (records : t.records = (freeRecordAt n s).records)
    (sendOrder : t.sendOrder = (freeRecordAt n s).sendOrder)
    (offers : t.queue.filterMap Item.offer? = s.queue.filterMap Item.offer?)
    (renewal : m.renewal = .idle ∧ m.restTimer = 0 ∨
      m.renewal = .rest ∧ ¬ (m.state = .vacant ∨ m.state = .quarantined)) : t.turn.Ok := by
  have used : s.turn.inUse n := by
    show s.records[n].state ≠ .free
    rw [waits]; decide
  have freed : freeRecordOf s.records[n].slot s = freeRecordAt n s := by
    have found : s.recordOf s.records[n].slot = some n := (recordOf_eq_some ok).2 ⟨used, rfl⟩
    rw [freeRecordOf, found]
  obtain ⟨free, kept, nodup, send⟩ := freeRecordOf_turn (k := s.records[n].slot) ok
  rw [freed] at free kept nodup send
  have record (m : RecordNumber) : t.turn.records m = (freeRecordAt n s).turn.records m := by
    show t.records[m] = (freeRecordAt n s).records[m]
    rw [records]
  have unqueued : s.records[n].offerQueued ≠ true := fun q => by
    have := ok.queuedWaits n q
    rw [show (s.turn.records n).state = .waitingReply from waits] at this
    cases this
  have this : t.link s.records[n].slot = m := by rw [links, if_pos rfl]
  have offers' : t.turn.offers = s.turn.offers := offers
  have due' : t.turn.listed = s.turn.listed := by
    show t.dueList.urgent ++ t.dueList.ordinary = _
    rw [due]; rfl
  refine ok.left (k := s.records[n].slot) (by rw [due']; exact ok.dueNodup) (fun j => ?_)
    (fun n h => (record n).trans (free n h)) (fun n h => (record n).trans (kept n h)) ?_
    (fun n => ?_) (by rw [offers']; exact ok.offerNodup) (fun j => ?_) (fun j other => ?_) ?_
  · rw [due']
    exact ⟨fun h => ⟨h, fun e => ok.notListed used (e ▸ h)⟩, fun h => h.1⟩
  · show t.sendOrder.Nodup
    rw [sendOrder]; exact nodup
  · show n ∈ t.sendOrder ↔ _
    rw [sendOrder]; exact send n
  · rw [offers']
    exact ⟨fun h => ⟨h, fun e => unqueued ((ok.offered_iff used).1 (e ▸ h))⟩, fun h => h.1⟩
  · show (t.link j).renewal = (s.link j).renewal ∧ (t.link j).restTimer = (s.link j).restTimer ∧
      (t.link j).state = (s.link j).state
    rw [links, if_neg other]
    exact ⟨rfl, rfl, rfl⟩
  · show (t.link _).renewal = .idle ∧ (t.link _).restTimer = 0 ∨ (t.link _).renewal = .rest ∧
      ¬ ((t.link _).state = .vacant ∨ (t.link _).state = .quarantined)
    rw [this]
    exact renewal

/-- Nothing is on the way: every link is IDLE and the lists are empty. -/
theorem turnover_empty {t : State} (due : t.dueList = ⟨[], []⟩) (records : t.records = .replicate 16 .free)
    (sendOrder : t.sendOrder = []) (queue : t.queue = []) (idle : ∀ k, (t.link k).renewal = .idle)
    (timer : ∀ k, (t.link k).restTimer = 0) : t.turn.Ok := by
  have listed : t.turn.listed = [] := by
    show t.dueList.urgent ++ t.dueList.ordinary = _
    rw [due]; rfl
  have free (n : RecordNumber) : t.turn.records n = .free := by
    show t.records[n] = _
    rw [records]; exact Vector.getElem_replicate _
  have send : t.turn.sendOrder = [] := sendOrder
  have offers : t.turn.offers = [] := by
    show t.queue.filterMap _ = _
    rw [queue]; rfl
  have renewal (k : Slot) : t.turn.renewal k = .idle := idle k
  refine ⟨by rw [listed]; exact .nil, fun k => ?_, fun k => ?_, fun m n h => ?_, fun k _ => timer k, fun k _ => idle k,
    by rw [send]; exact .nil, fun n => ?_, fun n => ?_, by rw [offers]; exact .nil, fun k => ?_⟩
  · rw [listed, renewal]; simp
  · rw [renewal]
    exact ⟨fun ⟨n, h, _⟩ => absurd (by rw [free]; rfl) h, fun h => (nomatch h)⟩
  · exact absurd (by rw [free]; rfl) h
  · rw [send, Turn.sends, free]; simp [RenewalRecord.free]
  · rw [free]; exact fun h => (nomatch h)
  · rw [offers]
    exact ⟨fun h => (nomatch h), fun ⟨n, h, _⟩ => by rw [free] at h; cases h⟩

/-! ## Every change -/

theorem freeRecordOf_setLink (k j : Slot) (m : Link) (s : State) :
    freeRecordOf k (s.setLink j m) = (freeRecordOf k s).setLink j m := by
  unfold freeRecordOf
  rw [recordOf_congr (s := s) (t := s.setLink j m) rfl]
  split <;> rfl

theorem freeRecordOf_dueList (k : Slot) (s : State) : (freeRecordOf k s).dueList = s.dueList := by
  unfold freeRecordOf
  split <;> rfl

theorem freeRecordOf_queue (k : Slot) (s : State) : (freeRecordOf k s).queue = s.queue := by
  unfold freeRecordOf
  split <;> rfl

/-- The offers left when every item of a link is removed: a notice is none. -/
theorem filterMap_offer?_removeItems (k : Slot) (q : List Item) :
    (q.filter fun it => !isItemOf k it).filterMap Item.offer? = (q.filterMap Item.offer?).filter fun j => j ≠ k := by
  induction q with
  | nil => rfl
  | cons it q ih =>
    cases it with
    | notice n =>
      have offers : (Item.notice n :: q).filterMap Item.offer? = q.filterMap Item.offer? := rfl
      rw [offers, ← ih, List.filter_cons]
      split <;> rfl
    | offer j p =>
      have offers (q : List Item) : (Item.offer j p :: q).filterMap Item.offer? = j :: q.filterMap Item.offer? := rfl
      have this : isItemOf k (.offer j p) = decide (j = k) := rfl
      rw [offers, List.filter_cons, List.filter_cons, this]
      by_cases e : j = k
      · simpa [e] using ih
      · simpa [e, offers] using ih

theorem mem_listed_of_head {d : DueList} {k : Slot} (h : d.head? = some k) : k ∈ d.urgent ++ d.ordinary := by
  unfold DueList.head? at h
  split at h <;> rename_i urgent
  · cases h; rw [urgent]; exact List.mem_cons_self
  · exact List.mem_append.2 (.inr (List.mem_of_head? h))

theorem free_of_freeRecord {s : State} {n : RecordNumber} (h : s.freeRecord = some n) : s.records[n].state = .free := by
  simpa using List.find?_some h

theorem relinkedRecord_renewal (b : LinkBlock) (same : Bool) (p : ProfileNumber) (l : Link) :
    (relinkedRecord b same p l).renewal = l.renewal ∧ (relinkedRecord b same p l).restTimer = l.restTimer := by
  unfold relinkedRecord
  split <;> exact ⟨rfl, rfl⟩

/-- An item is delivered from the front of the queue (R90). -/
theorem turnover_delivered {s : State} {it : Item} {rest : List Item} (ok : s.turn.Ok) (front : s.queue = it :: rest) :
    (deliverItem it (popItem s)).turn.Ok := by
  have popped : (popItem s).turn = { s.turn with offers := rest.filterMap Item.offer? } := by
    simp only [State.turn, popItem_queue, front, List.tail_cons]; rfl
  cases it with
  | notice m =>
    have same : s.turn.offers = rest.filterMap Item.offer? := by
      show s.queue.filterMap _ = _
      rw [front]; rfl
    show (popItem s).turn.Ok
    rw [popped, ← same]
    exact ok
  | offer k p =>
    have offers : s.turn.offers = k :: rest.filterMap Item.offer? := by
      show s.queue.filterMap _ = _
      rw [front]; rfl
    obtain ⟨n, queued, at_⟩ := (ok.offerMirror k).1 (by rw [offers]; exact List.mem_cons_self)
    have used := ok.inUse_of_queued queued
    have found : (popItem s).recordOf k = some n := by
      rw [recordOf_congr (s := s) (t := popItem s) rfl]
      exact (recordOf_eq_some ok).2 ⟨used, at_⟩
    rw [deliverItem, found]
    show ((popItem s).setRecord n _).turn.Ok
    rw [turn_setRecord popped]
    exact ok.delivered (by rw [offers, at_]) used rfl rfl rfl

theorem turnover_restarted {s : State} (ok : s.turn.Ok) : (restartState s).turn.Ok := by
  have link (k : Slot) : ((restartState s).link k).renewal = .idle ∧ ((restartState s).link k).restTimer = 0 := by
    rw [restartState_link]
    split
    · rename_i vacant
      have idle : s.turn.renewal k = .idle := ok.outside k (.inl vacant)
      exact ⟨idle, ok.restTimer k (by rw [idle]; decide)⟩
    · exact ⟨rfl, rfl⟩
  exact turnover_empty rfl rfl rfl rfl (fun k => (link k).1) (fun k => (link k).2)

/-- Every change keeps the turnover invariant. -/
theorem Change.turnover {s u : State} (c : Change s u) (ok : s.turn.Ok) : u.turn.Ok := by
  cases c with
  | none => exact ok
  | link k m alike =>
    exact turnover_setLink ok (Link.renewal_of_held alike.held) (Link.restTimer_of_held alike.held)
      (fun out => by rwa [Link.state_of_held alike.held] at out)
  | spent k m inUse held active =>
    exact turnover_setLink ok ((Link.renewal_of_held held).trans rfl) ((Link.restTimer_of_held held).trans rfl)
      (fun out => by rw [Link.state_of_held held] at out; rcases out with e | e <;> cases e)
  | erased k inUse => exact turnover_setLink ok rfl rfl id
  | admitted n k key salt nonce free head =>
    rw [turn_joinSendOrder (turn_withRenewal (turn_setRecord (turn_removeDue rfl k) n _) k .exchange 0) n]
    exact ok.admitted (free_of_freeRecord free) (mem_listed_of_head head) rfl rfl rfl
  | originated => exact turnover_originate ok
  | joined k sec state renewal =>
    rw [turn_withRenewal (turn_appendDue rfl k sec)]
    exact ok.joined sec renewal state
  | promoted k listed => exact ok.promoted listed
  | failed n time waits =>
    have used : s.turn.inUse n := by
      show s.records[n].state ≠ .free
      rw [waits]; decide
    have inside : ¬ s.turn.outside s.records[n].slot :=
      ok.notOutside (by rw [show s.turn.renewal s.records[n].slot = .exchange from ok.exchange used]; decide)
    exact turnover_ended ok waits (fun j => State.link_modLink _ _ j _) (by simp) (by simp) (by simp) (by simp) (.inr ⟨rfl, inside⟩)
  | retried n r waits slot state queued =>
    rw [turn_joinSendOrder (turn_setRecord rfl n r) n]
    exact ok.retried waits slot state queued
  | noted n r slot state queued =>
    rw [turn_setRecord rfl n r]
    exact ok.noted slot state queued
  | delivered it rest front => exact turnover_delivered ok front
  | rested k => exact turnover_rested ok
  | quarantined k m state held active =>
    rw [freeRecordOf_setLink]
    refine turnover_departed (k := k) ok (fun j => ?_) ?_ ?_ ?_ ?_ (Link.renewal_of_held held) (Link.restTimer_of_held held)
    · rw [link_congr (s := (freeRecordOf k s).setLink k m) (by simp), State.link_setLink]
      exact ite_congr rfl (fun _ => rfl) fun _ => link_congr (freeRecordOf_links k s) j
    · simp [freeRecordOf_dueList]
    · simp
    · simp
    · rw [removeOffers_queue, filterMap_offer?_removeOffers, removeDue_queue, State.setLink_queue, freeRecordOf_queue]
  | retired k =>
    refine turnover_departed (k := k) (m := .vacant) ok (fun j => ?_) ?_ ?_ ?_ ?_ rfl rfl
    · rw [State.link_setLink]
      exact ite_congr rfl (fun _ => rfl) fun _ => link_congr (by simp [freeRecordOf_links]) j
    · simp [freeRecordOf_dueList]
    · simp
    · simp
    · rw [State.setLink_queue, setBranchMap_queue, removeItems_queue, filterMap_offer?_removeItems, removeDue_queue,
        freeRecordOf_queue]
  | enrolled k b p key hold vacant range clear root =>
    have idle : s.turn.renewal k = .idle := ok.outside k (.inl vacant)
    have timer : s.turn.restTimer k = 0 := ok.restTimer k (by rw [idle]; decide)
    exact turnover_setLink (m := enrolledRecord b p key hold) ok idle.symm timer.symm (fun _ => .inl vacant)
  | relinked k b p state range clear moves =>
    obtain ⟨renewal, restTimer⟩ := relinkedRecord_renewal b false p (s.link k)
    exact turnover_setLink ok renewal restTimer (fun out => by rwa [relinkedRecord_state] at out)
  | renamed k b p =>
    obtain ⟨renewal, restTimer⟩ := relinkedRecord_renewal b true p (s.link k)
    exact turnover_setLink ok renewal restTimer (fun out => by rwa [relinkedRecord_state] at out)
  | profiled p v valid => exact ok
  | restarted => exact turnover_restarted ok
  | reset => exact turnover_empty rfl rfl rfl rfl (fun _ => rfl) (fun _ => rfl)

theorem Touch.turnover {s u : State} (c : Touch s u) (ok : s.turn.Ok) : u.turn.Ok := by
  cases c with
  | current k m use age window next ready alike =>
    exact turnover_setLink ok ((Link.renewal_of_held alike.held).trans rfl)
      ((Link.restTimer_of_held alike.held).trans rfl)
      (fun out => by rwa [Link.state_of_held alike.held] at out)
  | retiring k m use age window timer ready alike =>
    exact turnover_setLink ok ((Link.renewal_of_held alike.held).trans rfl)
      ((Link.restTimer_of_held alike.held).trans rfl)
      (fun out => by rwa [Link.state_of_held alike.held] at out)
  | installed n m waits sound mapped held active =>
    exact turnover_ended ok waits (fun j => State.link_setLink s _ j m) (by simp) (by simp) (by simp) (by simp)
      (.inl ⟨Link.renewal_of_held held, Link.restTimer_of_held held⟩)

theorem Effect.turnover {s t : State} (e : Effect s t) (ok : s.TurnoverOk) : t.TurnoverOk := by
  obtain ⟨u, step, beside⟩ := e.tracked
  rw [turnoverOk_iff, turn_beside beside]
  exact step.elim (fun c => c.turnover (turnoverOk_iff.1 ok)) (fun c => c.turnover (turnoverOk_iff.1 ok))

/-- Settles O14, by the effects of a step: each join, admission, origination, delivery and end of an exchange keeps the
mirror (`Change.turnover`). -/
theorem turnoverStaysMirrored : Obligations.TurnoverStaysMirrored := fun _ _ ok h =>
  step_keeps (fun _ _ e => e.turnover) h ok

end Sys2Proof.Machine
end

