-- ==== Sys2Proof/Proofs/Served.lean ====
section
/-! PROOFS. What the operations that reach host memory leave alone, said once: the settings, registers and tables that they never write, the accesses they use up, and, of those that are no part of the engine, the engine's own state. -/

namespace Sys2Proof.Machine

/-! ## What stays -/

/-- The engine's own state. -/
structure EngineView where
  run : Bool
  batchA : Batch
  batchB : Batch
  engine : EngineState
  firstWaiting : Option BatchId
  nextIndex : Nat
  entriesDone : Nat
  faultStop : Bool
  abandoned : Bool

/-- The engine's own state, of a state. -/
def State.engineView (s : State) : EngineView :=
  ⟨s.run, s.batchA, s.batchB, s.engine, s.firstWaiting, s.nextIndex, s.entriesDone, s.faultStop, s.abandoned⟩

/-- The part of a state that no batch, entry, handover, mark or try reaches. -/
def State.fixedPart (s : State) : State :=
  { s.quietPart with
    resetn := true
    run := false
    batchA := ⟨.free, 0⟩
    batchB := ⟨.free, 0⟩
    engine := .starting
    firstWaiting := none
    nextIndex := 0
    entriesDone := 0
    faultStop := false
    abandoned := false
    branchMap := []
    profiles := .replicate 16 .invalid
    hostMem := []
    posted := []
    bus := [] }

/-- No access of the event that is still to come meets a fall of RESETN. -/
def State.noFall (s : State) : Prop := ∀ landed, BusOutcome.fall landed ∉ s.bus

/-- What every operation of a command does with its accesses: without a fall among them the level of RESETN stays, and
where all succeed host memory is what the writes posted make of it. -/
structure Flow (s t : State) : Prop where
  noFall : s.noFall → t.noFall ∧ t.resetn = s.resetn
  clean : s.busClean → t.busClean ∧ ∃ ws, t.posted = s.posted ++ ws ∧ t.hostMem = applyWrites s.hostMem ws

/-- What every operation of a command but a few can do to the parts that are not the engine's: `map` says that it leaves
the Branch Map, `profiles` that it leaves the profiles. -/
structure Hosted (map profiles : Prop) (s t : State) : Prop extends Flow s t where
  fixed : t.fixedPart = s.fixedPart
  branchMap : map → t.branchMap = s.branchMap
  profiles : profiles → t.profiles = s.profiles

/-- What an operation that is no part of the engine can do: it leaves the engine's own state too. -/
structure Served (map profiles : Prop) (s t : State) : Prop extends Hosted map profiles s t where
  engine : t.engineView = s.engineView

namespace Flow
variable {s t u : State}

theorem refl (s : State) : Flow s s := ⟨fun h => ⟨h, rfl⟩, fun h => ⟨h, [], by simp, rfl⟩⟩

theorem trans (h : Flow s t) (g : Flow t u) : Flow s u where
  noFall n := ⟨(g.noFall (h.noFall n).1).1, (g.noFall (h.noFall n).1).2.trans (h.noFall n).2⟩
  clean c := by
    obtain ⟨ct, ws, pt, mt⟩ := h.clean c
    obtain ⟨cu, vs, pu, mu⟩ := g.clean ct
    exact ⟨cu, ws ++ vs, by rw [pu, pt, List.append_assoc], by rw [mu, mt, applyWrites_append]⟩

theorem ite {c : Prop} [Decidable c] (h : c → Flow s t) (g : ¬ c → Flow s u) : Flow s (if c then t else u) := by
  split
  · exact h ‹_›
  · exact g ‹_›

/-- A fold of such operations is one. -/
theorem foldl {β : Type} {f : State → β → State} (h : ∀ s b, Flow s (f s b)) (l : List β) (s : State) :
    Flow s (l.foldl f s) := by
  induction l generalizing s with
  | nil => exact refl s
  | cons b l ih => exact (h s b).trans (ih _)

/-- An operation that makes no access. -/
theorem of_same (resetn : t.resetn = s.resetn) (bus : t.bus = s.bus) (posted : t.posted = s.posted)
    (hostMem : t.hostMem = s.hostMem) : Flow s t :=
  ⟨fun h => ⟨fun landed => bus ▸ h landed, resetn⟩, fun h => ⟨fun o ho => h o (bus ▸ ho), [], by simp [posted], hostMem⟩⟩

end Flow

namespace Hosted
variable {map profiles : Prop} {s t u : State}

theorem refl (s : State) : Hosted map profiles s s := ⟨.refl s, rfl, fun _ => rfl, fun _ => rfl⟩

theorem trans (h : Hosted map profiles s t) (g : Hosted map profiles t u) : Hosted map profiles s u :=
  ⟨h.toFlow.trans g.toFlow, g.fixed.trans h.fixed, fun m => (g.branchMap m).trans (h.branchMap m),
    fun p => (g.profiles p).trans (h.profiles p)⟩

theorem ite {c : Prop} [Decidable c] (h : c → Hosted map profiles s t) (g : ¬ c → Hosted map profiles s u) :
    Hosted map profiles s (if c then t else u) := by
  split
  · exact h ‹_›
  · exact g ‹_›

/-- A fold of such operations is one. -/
theorem foldl {β : Type} {f : State → β → State} (h : ∀ s b, Hosted map profiles s (f s b)) (l : List β) (s : State) :
    Hosted map profiles s (l.foldl f s) := by
  induction l generalizing s with
  | nil => exact refl s
  | cons b l ih => exact (h s b).trans (ih _)

/-- An operation that makes no access. -/
theorem of_same (fixed : t.fixedPart = s.fixedPart) (branchMap : map → t.branchMap = s.branchMap)
    (profiles_ : profiles → t.profiles = s.profiles) (resetn : t.resetn = s.resetn) (bus : t.bus = s.bus)
    (posted : t.posted = s.posted) (hostMem : t.hostMem = s.hostMem) : Hosted map profiles s t :=
  ⟨.of_same resetn bus posted hostMem, fixed, branchMap, profiles_⟩

/-! ## The parts that stay -/

theorem quiescePin (h : Hosted map profiles s t) : t.quiescePin = s.quiescePin := by
  have e := congrArg State.quiescePin h.fixed; exact e
theorem quiesce (h : Hosted map profiles s t) : t.quiesce = s.quiesce := by
  have e := congrArg State.quiesce h.fixed; exact e
theorem settings (h : Hosted map profiles s t) : t.settings = s.settings := by
  have e := congrArg State.settings h.fixed; exact e
theorem oneTimeStore (h : Hosted map profiles s t) : t.oneTimeStore = s.oneTimeStore := by
  have e := congrArg State.oneTimeStore h.fixed; exact e
theorem masterKey (h : Hosted map profiles s t) : t.masterKey = s.masterKey := by
  have e := congrArg State.masterKey h.fixed; exact e
theorem mask (h : Hosted map profiles s t) : t.mask = s.mask := by
  have e := congrArg State.mask h.fixed; exact e
theorem clamped (h : Hosted map profiles s t) : t.clamped = s.clamped := by
  have e := congrArg State.clamped h.fixed; exact e
theorem workBase (h : Hosted map profiles s t) : t.workBase = s.workBase := by
  have e := congrArg State.workBase h.fixed; exact e
theorem boardBase (h : Hosted map profiles s t) : t.boardBase = s.boardBase := by
  have e := congrArg State.boardBase h.fixed; exact e
theorem phase (h : Hosted map profiles s t) : t.phase = s.phase := by
  have e := congrArg State.phase h.fixed; exact e
theorem walkPosition (h : Hosted map profiles s t) : t.walkPosition = s.walkPosition := by
  have e := congrArg State.walkPosition h.fixed; exact e
theorem pending (h : Hosted map profiles s t) : t.pending = s.pending := by
  have e := congrArg State.pending h.fixed; exact e

end Hosted

namespace Served
variable {map profiles : Prop} {s t u : State}

theorem refl (s : State) : Served map profiles s s := ⟨.refl s, rfl⟩

theorem trans (h : Served map profiles s t) (g : Served map profiles t u) : Served map profiles s u :=
  ⟨h.toHosted.trans g.toHosted, g.engine.trans h.engine⟩

theorem ite {c : Prop} [Decidable c] (h : c → Served map profiles s t) (g : ¬ c → Served map profiles s u) :
    Served map profiles s (if c then t else u) := by
  split
  · exact h ‹_›
  · exact g ‹_›

theorem foldl {β : Type} {f : State → β → State} (h : ∀ s b, Served map profiles s (f s b)) (l : List β) (s : State) :
    Served map profiles s (l.foldl f s) := by
  induction l generalizing s with
  | nil => exact refl s
  | cons b l ih => exact (h s b).trans (ih _)

end Served

variable {map profiles : Prop} {s t u : State}

/-- What makes no access of host memory, and reaches neither the engine nor the tables. -/
theorem Quiet.served (h : Quiet s t) : Served map profiles s t where
  fixed := by
    have e := congrArg State.fixedPart h.part
    exact e
  branchMap _ := h.branchMap
  profiles _ := h.profiles
  noFall n := ⟨fun landed => h.bus ▸ n landed, h.resetn⟩
  clean c := ⟨fun o ho => c o (h.bus ▸ ho), [], by simp [h.posted], h.hostMem⟩
  engine := by
    simp only [State.engineView, h.run, h.batchA, h.batchB, h.engine, h.firstWaiting, h.nextIndex, h.entriesDone,
      h.faultStop, h.abandoned]

/-- A link record replaced, whatever its keys. -/
theorem served_setLink (s : State) (k : Slot) (l : Link) : Served map profiles s (s.setLink k l) :=
  ⟨.of_same rfl (fun _ => rfl) (fun _ => rfl) rfl rfl rfl rfl, rfl⟩

/-! ## Accesses of host memory -/

theorem hostRead_done {rest : List BusOutcome} (h : s.bus = .done :: rest) : hostRead s = (true, s.wrote 1 []) := by
  simp [hostRead, nextAccess, h, State.wrote, applyWrites]

theorem hostRead_nil (h : s.bus = []) : hostRead s = (true, s.wrote 1 []) :=
  hostRead_clean fun o ho => by rw [h] at ho; cases ho

theorem hostWrite_done {rest : List BusOutcome} (h : s.bus = .done :: rest) (kind : WriteKind) (a : Address)
    (bytes : List Byte) : hostWrite kind a bytes s = (true, s.wrote 1 [⟨a, bytes⟩]) := by
  simp [hostWrite, nextAccess, h, State.wrote, applyWrites]

theorem hostWrite_nil (h : s.bus = []) (kind : WriteKind) (a : Address) (bytes : List Byte) :
    hostWrite kind a bytes s = (true, s.wrote 1 [⟨a, bytes⟩]) :=
  hostWrite_clean (fun o ho => by rw [h] at ho; cases ho) kind a bytes

theorem served_wrote (s : State) (n : Nat) (ws : List HostWrite) : Served map profiles s (s.wrote n ws) where
  fixed := rfl
  branchMap _ := rfl
  profiles _ := rfl
  noFall h := ⟨fun landed mem => h landed (List.mem_of_mem_drop mem), rfl⟩
  clean h := ⟨State.busClean_wrote h n ws, ws, rfl, rfl⟩
  engine := rfl

/-- An access that meets an error: one outcome less, and of the write some bytes may have landed. -/
theorem served_errored {landed : Nat} {rest : List BusOutcome} (h : s.bus = .error landed :: rest) (m : Memory) :
    Served map profiles s { s with bus := rest, hostMem := m } where
  fixed := rfl
  branchMap _ := rfl
  profiles _ := rfl
  noFall n := ⟨fun l mem => n l (by rw [h]; exact List.mem_cons_of_mem _ mem), rfl⟩
  clean c := absurd (c (.error landed) (by rw [h]; exact List.mem_cons_self)) (by simp)
  engine := rfl

/-- An access that meets a fall of RESETN. -/
theorem served_fallen {landed : Nat} {rest : List BusOutcome} (h : s.bus = .fall landed :: rest) (m : Memory) :
    Served map profiles s { s with resetn := false, bus := .fall 0 :: rest, hostMem := m } where
  fixed := rfl
  branchMap _ := rfl
  profiles _ := rfl
  noFall n := absurd (by rw [h]; exact List.mem_cons_self) (n landed)
  clean c := absurd (c (.fall landed) (by rw [h]; exact List.mem_cons_self)) (by simp)
  engine := rfl

theorem served_hostRead (s : State) : Served map profiles s (hostRead s).2 := by
  rcases h : s.bus with _ | ⟨_ | landed | landed, rest⟩
  · rw [hostRead_nil h]; exact served_wrote s 1 []
  · rw [hostRead_done h]; exact served_wrote s 1 []
  · rw [hostRead_error h]; exact (served_errored h s.hostMem).trans (quiet_raiseDevice _ _).served
  · rw [hostRead_fall h]; exact served_fallen h s.hostMem

theorem served_hostWrite (kind : WriteKind) (a : Address) (bytes : List Byte) (s : State) :
    Served map profiles s (hostWrite kind a bytes s).2 := by
  rcases h : s.bus with _ | ⟨_ | landed | landed, rest⟩
  · rw [hostWrite_nil h]; exact served_wrote s 1 _
  · rw [hostWrite_done h]; exact served_wrote s 1 _
  · rw [hostWrite_error h]
    refine Served.trans ?_ (quiet_raiseDevice _ _).served
    exact .ite (fun _ => served_errored h s.hostMem) (fun _ => served_errored h _)
  · rw [hostWrite_fall h]
    exact .ite (fun _ => served_fallen h _) (fun _ => served_fallen h s.hostMem)

theorem served_of_hostRead {ok : Bool} (h : hostRead s = (ok, t)) : Served map profiles s t := by
  have := served_hostRead (map := map) (profiles := profiles) s
  rwa [h] at this

theorem served_of_hostWrite {kind : WriteKind} {a : Address} {bytes : List Byte} {ok : Bool}
    (h : hostWrite kind a bytes s = (ok, t)) : Served map profiles s t := by
  have := served_hostWrite (map := map) (profiles := profiles) kind a bytes s
  rwa [h] at this

/-! ## The board -/

theorem served_writeDeviceSlot (base : Address) (s : State) : Served map profiles s (writeDeviceSlot base s) := by
  unfold writeDeviceSlot
  exact .ite (fun _ => served_hostWrite _ _ _ s) (fun _ => (served_hostWrite _ _ _ s).trans (served_hostWrite _ _ _ _))

theorem served_flushBoard (before s : State) : Served map profiles s (flushBoard before s) := by
  unfold flushBoard
  split
  · exact .refl s
  · rename_i base _
    have links : Served map profiles s ((allSlots.filter (slotChanged before s)).foldl
        (fun t k => writeBoardSlot base k.val (linkSlotBytes s k) t) s) :=
      .foldl (fun _ _ => served_hostWrite _ _ _ _) _ _
    exact .ite (fun _ => links) (fun _ => links.trans (served_writeDeviceSlot _ _))

theorem served_fullBoardWrite (s : State) : Served map profiles s (fullBoardWrite s) := by
  unfold fullBoardWrite
  split
  · exact .refl s
  · exact Served.trans (.foldl (fun _ _ => served_hostWrite _ _ _ _) _ _) (served_writeDeviceSlot _ _)

/-! ## Traffic -/

theorem served_outboundUse (k : Slot) (e : WorkEntry) (body : List Byte) (s : State) :
    Served map profiles s (outboundUse k e body s).2 := by
  unfold outboundUse
  dsimp only
  have sequenced : Served map profiles s (s.modLink k sequencedRecord) := served_setLink s k _
  rcases hw : hostWrite .output e.outputAddress _ (s.modLink k sequencedRecord) with ⟨written, u⟩
  have charged : Served map profiles s (u.modLink k fun l => l.chargeCurrent (cost body.length)) :=
    sequenced.trans ((served_of_hostWrite hw).trans (served_setLink u k _))
  dsimp only
  generalize u.modLink k (fun l => l.chargeCurrent (cost body.length)) = v at charged ⊢
  have settled : Served map profiles s (if outboundSpends (v.link k) = true then spendCurrent k v else v) :=
    charged.trans (.ite (fun _ => (quiet_spendCurrent k v).served) (fun _ => .refl v))
  have checked := settled.trans (quiet_dueCheck k .testsUrgency _).served
  split <;> exact checked

theorem served_serveOutbound (e : WorkEntry) (input : List Byte) (s : State) :
    Served map profiles s (serveOutbound e input s).2 := by
  unfold serveOutbound
  dsimp only
  split
  · exact .refl s
  split
  · exact .refl s
  split
  · exact .refl s
  split
  · exact .refl s
  · exact .refl s
  · exact .refl s
  · exact .refl s
  split
  · exact .refl s
  rcases hr : (if e.inputLength.toNat = 0 then (true, s) else hostRead s) with ⟨read, t⟩
  have reading : Served map profiles s t := by
    split at hr
    · cases hr; exact .refl s
    · exact served_of_hostRead hr
  dsimp only
  split
  · exact reading.trans (served_outboundUse _ e _ t)
  · exact reading

theorem served_tagPassed (k : Slot) (choice : KeyChoice) (q : Nat) (s : State) :
    Served map profiles s (tagPassed k choice q s) := by
  unfold tagPassed
  dsimp only
  refine Served.trans ?_ (quiet_afterCharge k choice _).served
  have ended : Served map profiles s (endSilence k (s.modLink k fun l => l.setWindow (windowAdvance (l.windowOf choice) q) choice)) :=
    (served_setLink s k _).trans (quiet_endSilence k _).served
  exact ended.trans (.ite (fun _ => (quiet_eraseRetiring k _).served) (fun _ => .refl _))

theorem served_writeOutput (e : WorkEntry) (body : List Byte) (s : State) : Served map profiles s (writeOutput e body s).2 := by
  unfold writeOutput
  split
  · exact .refl s
  · exact served_hostWrite _ _ _ s

theorem served_deliverData (k : Slot) (e : WorkEntry) (h : Header) (choice : KeyChoice) (body : List Byte) (s : State) :
    Served map profiles s (deliverData k e h choice body s).2 := by
  have wrote := served_writeOutput (map := map) (profiles := profiles) e body s
  unfold deliverData
  generalize writeOutput e body s = written at wrote ⊢
  dsimp only
  split <;> exact wrote

theorem served_consumeControl (k : Slot) (e : WorkEntry) (h : Header) (body : List Byte) (s : State) :
    Served map profiles s (consumeControl k e h body s).2 := by
  unfold consumeControl
  split
  · exact (quiet_scoreKind k _ s).served
  · rename_i g nonce proof _
    have taken := (quiet_takeAccept k g nonce proof s).served (map := map) (profiles := profiles)
    split <;> rename_i ht <;> rw [ht] at taken
    · exact taken
    · exact taken.trans (quiet_scoreKind k _ _).served
  · rename_i g nonce reason _
    have taken := (quiet_takeRefuse k g nonce reason s).served (map := map) (profiles := profiles)
    split <;> rename_i ht <;> rw [ht] at taken
    · exact taken
    · exact taken.trans (quiet_scoreKind k _ _).served
  · rename_i entries _
    have taken := (quiet_takeReport k entries s).served (map := map) (profiles := profiles)
    have wrote := served_writeOutput (map := map) (profiles := profiles) e body (takeReport k entries s)
    dsimp only
    generalize writeOutput e body (takeReport k entries s) = written at wrote ⊢
    split <;> exact taken.trans wrote

theorem served_decipherInbound (k : Slot) (e : WorkEntry) (input : List Byte) (h : Header) (choice : KeyChoice) (s : State) :
    Served map profiles s (decipherInbound k e input h choice s).2 := by
  unfold decipherInbound
  dsimp only
  rcases hr : hostRead s with ⟨read, t⟩
  have reading := served_of_hostRead (map := map) (profiles := profiles) hr
  dsimp only
  split
  · exact reading
  have charge : Served map profiles s (t.modLink k fun l => l.charge (cost h.bodyLength.toNat) choice) :=
    reading.trans (served_setLink t k _)
  split
  · exact charge.trans ((quiet_scoreKind k _ _).trans (quiet_afterCharge k choice _)).served
  · have passed := charge.trans (served_tagPassed k choice h.sequence.toNat _)
    split
    · exact passed.trans (served_deliverData _ _ _ _ _ _)
    · exact passed.trans (served_consumeControl _ _ _ _ _)

theorem served_inboundAtLink (k : Slot) (e : WorkEntry) (input : List Byte) (h : Header) (s : State) :
    Served map profiles s (inboundAtLink k e input h s).2 := by
  unfold inboundAtLink
  dsimp only
  split
  · exact (quiet_scoreKind k _ s).served
  split
  · exact .refl s
  · exact (quiet_scoreKind k _ s).served
  split
  · exact (quiet_scoreKind k _ s).served
  · exact (quiet_scoreKind k _ s).served
  · exact served_decipherInbound k e input h _ s

theorem served_serveInbound (e : WorkEntry) (input : List Byte) (s : State) :
    Served map profiles s (serveInbound e input s).2 := by
  unfold serveInbound
  split
  · exact .refl s
  rcases hr : hostRead s with ⟨read, t⟩
  have reading := served_of_hostRead (map := map) (profiles := profiles) hr
  dsimp only
  split
  · exact reading
  split
  · exact reading
  split
  · exact reading.trans (quiet_countUnknownBranch t).served
  split
  · exact reading
  · exact reading.trans (served_inboundAtLink _ e input _ t)

/-! ## The administrative requests -/

theorem served_withBlock {next : State → EntryResult × State} (h : ∀ s, Served map profiles s (next s).2) (slot : Nat)
    (e : WorkEntry) (s : State) : Served map profiles s (withBlock slot e s next).2 := by
  unfold withBlock
  split
  · exact .refl s
  rcases hr : hostRead s with ⟨read, t⟩
  have reading := served_of_hostRead (map := map) (profiles := profiles) hr
  dsimp only
  split
  · exact reading.trans (h t)
  · exact reading

theorem served_withOutput {clear : State → State} (h : ∀ s, Served map profiles s (clear s)) (e : WorkEntry)
    (bytes : List Byte) (good failed : EntryResult) (s : State) :
    Served map profiles s (withOutput e bytes good failed clear s).2 := by
  unfold withOutput
  rcases hw : hostWrite .output e.outputAddress bytes s with ⟨written, t⟩
  have wrote := served_of_hostWrite (map := map) (profiles := profiles) hw
  dsimp only
  split
  · exact wrote.trans (h t)
  · exact wrote

theorem served_setBranchMap (m : List Triple) (s : State) : Served False profiles s (setBranchMap m s) :=
  ⟨.of_same rfl False.elim (fun _ => rfl) rfl rfl rfl rfl, rfl⟩

theorem served_enrolLink (k : Slot) (b : LinkBlock) (p : ProfileNumber) (key : Key) (hold : Bool) (s : State) :
    Served False profiles s (enrolLink k b p key hold s) :=
  (served_setLink s k _).trans ((served_setBranchMap _ _).trans (quiet_joinDue k .urgent _).served)

theorem served_serveEnrol (e : WorkEntry) (input : List Byte) (s : State) :
    Served False profiles s (serveEnrol e input s).2 := by
  unfold serveEnrol
  split
  · exact .refl s
  refine served_withBlock (fun s => ?_) _ _ _
  unfold enrolChecked
  split
  · exact .refl s
  split
  · exact .refl s
  split
  · exact .refl s
  split
  · exact .refl s
  split
  · exact .refl s
  split
  · exact .refl s
  split
  · exact .refl s
  split
  · exact .refl s
  exact served_enrolLink _ _ _ _ _ s

theorem served_retireLink (k : Slot) (s : State) : Served False profiles s (retireLink k s) := by
  have freed : Served False profiles s (freeRecordOf k s) := (quiet_freeRecordOf k s).served
  have removed (s : State) : Served False profiles s (removeItems k (removeDue k s)) :=
    ((quiet_removeDue k s).trans (quiet_removeItems k _)).served
  have vacated (s : State) : Served False profiles s (tryOriginate (tryAdmit (s.setLink k .vacant))) :=
    (served_setLink s k _).trans ((quiet_tryAdmit _).trans (quiet_tryOriginate _)).served
  exact freed.trans ((removed _).trans ((served_setBranchMap _ _).trans (vacated _)))

theorem served_serveRetire (e : WorkEntry) (s : State) : Served False profiles s (serveRetire e s).2 := by
  unfold serveRetire
  split
  · exact .refl s
  split
  · exact .refl s
  · exact served_retireLink _ s

theorem served_relink (k : Slot) (b : LinkBlock) (p : ProfileNumber) (s : State) :
    Served False profiles s (relink k b p s) := by
  unfold relink
  dsimp only
  refine Served.trans ?_ (quiet_dueCheck k _ _).served
  refine Served.trans ?_ (.ite (fun _ => .refl _) (fun _ => (quiet_reexamine k _).served))
  refine Served.trans ?_ (served_setLink _ k _)
  exact .ite (fun _ => .refl s) (fun _ => served_setBranchMap _ s)

theorem served_serveSetLink (e : WorkEntry) (input : List Byte) (s : State) :
    Served False profiles s (serveSetLink e input s).2 := by
  unfold serveSetLink
  split
  · exact .refl s
  refine served_withBlock (fun s => ?_) _ _ _
  unfold setLinkChecked
  split
  · exact .refl s
  split
  · exact .refl s
  split
  · exact .refl s
  split
  · exact .refl s
  split
  · exact .refl s
  split
  · exact .refl s
  split
  · exact .refl s
  exact served_relink _ _ _ s

theorem served_setProfile (p : ProfileNumber) (v : Profile) (s : State) : Served map False s (s.setProfile p v) :=
  ⟨.of_same rfl (fun _ => rfl) False.elim rfl rfl rfl rfl, rfl⟩

theorem served_writeProfile (p : ProfileNumber) (v : Profile) (s : State) : Served map False s (writeProfile p v s) :=
  (served_setProfile p v s).trans (.foldl (fun s k => (quiet_reexamine k s).served) _ _)

theorem served_setProfileChecked (e : WorkEntry) (input : List Byte) (s : State) :
    Served map False s (setProfileChecked e input s).2 := by
  unfold setProfileChecked
  split
  · exact .refl s
  dsimp only
  split
  · split
    · exact .refl s
    · exact served_setProfile _ _ s
  · dsimp only
    exact served_writeProfile _ _ s

theorem served_serveHold (e : WorkEntry) (s : State) : Served map profiles s (serveHold e s).2 := by
  unfold serveHold
  split
  · dsimp only
    exact (quiet_onEnrolled keeps_heldRecord s).served
  split
  · exact .refl s
  unfold markOne
  split
  · exact .refl s
  split
  · exact .refl s
  · exact served_setLink s _ _

theorem served_serveRelease (e : WorkEntry) (s : State) : Served map profiles s (serveRelease e s).2 := by
  unfold serveRelease
  dsimp only
  split
  · split
    · dsimp only
      exact (quiet_onEnrolled (keeps_releasedRecord _ _) s).served
    · exact .refl s
  split
  · exact .refl s
  split
  · unfold markOne
    split
    · exact .refl s
    split
    · exact .refl s
    · exact served_setLink s _ _
  · exact .refl s

theorem served_serveRenewNow (e : WorkEntry) (s : State) : Served map profiles s (serveRenewNow e s).2 := by
  unfold serveRenewNow
  split
  · dsimp only
    exact (quiet_renewAll s).served
  split
  · exact .refl s
  split
  · exact .refl s
  · exact .refl s
  · exact (quiet_forcedJoin _ .urgent s).served

theorem served_serveReadLink (e : WorkEntry) (s : State) : Served map profiles s (serveReadLink e s).2 := by
  unfold serveReadLink
  split
  · exact .refl s
  split
  · exact .refl s
  split
  · exact .refl s
  · exact served_withOutput (fun s => .refl s) _ _ _ _ s

theorem served_serveReadFaults (e : WorkEntry) (s : State) : Served map profiles s (serveReadFaults e s).2 := by
  unfold serveReadFaults
  split
  · exact .refl s
  split
  · exact .refl s
  split
  · exact .refl s
  · exact served_withOutput (fun s => .ite (fun _ => served_setLink s _ _) (fun _ => .refl s)) _ _ _ _ s

theorem served_serveReadDevice (e : WorkEntry) (s : State) : Served map profiles s (serveReadDevice e s).2 := by
  unfold serveReadDevice
  split
  · exact .refl s
  · exact served_withOutput (fun s => .ite (fun _ => (quiet_modDevice s _).served) (fun _ => .refl s)) _ _ _ _ s

end Sys2Proof.Machine
end

