-- ==== Sys2Proof/Proofs/EngineSteps.lean ====
section
/-! PROOFS. The Batch Engine: what its operations leave alone, and that they keep its state following the batches, RUN and the fault stop. -/

namespace Sys2Proof.Machine

variable {map profiles : Prop} {s t u : State}

/-! ## Single updates -/

theorem hosted_setBatch (s : State) (id : BatchId) (v : Batch) : Hosted map profiles s (s.setBatch id v) := by
  cases id <;> exact .of_same rfl (fun _ => rfl) (fun _ => rfl) rfl rfl rfl rfl

theorem hosted_stopOnFault (s : State) : Hosted map profiles s (stopOnFault s) :=
  .of_same rfl (fun _ => rfl) (fun _ => rfl) rfl rfl rfl rfl

theorem hosted_setEngine (e : EngineState) (s : State) : Hosted map profiles s (setEngine e s) :=
  .of_same rfl (fun _ => rfl) (fun _ => rfl) rfl rfl rfl rfl

theorem hosted_setFirstWaiting (f : Option BatchId) (s : State) : Hosted map profiles s (setFirstWaiting f s) :=
  .of_same rfl (fun _ => rfl) (fun _ => rfl) rfl rfl rfl rfl

theorem hosted_serveFromStart (s : State) : Hosted map profiles s (serveFromStart s) :=
  .of_same rfl (fun _ => rfl) (fun _ => rfl) rfl rfl rfl rfl

theorem hosted_setAbandoned (s : State) : Hosted map profiles s (setAbandoned s) :=
  .of_same rfl (fun _ => rfl) (fun _ => rfl) rfl rfl rfl rfl

theorem hosted_setNextIndex (n : Nat) (s : State) : Hosted map profiles s (setNextIndex n s) :=
  .of_same rfl (fun _ => rfl) (fun _ => rfl) rfl rfl rfl rfl

theorem hosted_countEntry (s : State) : Hosted map profiles s (countEntry s) :=
  .of_same rfl (fun _ => rfl) (fun _ => rfl) rfl rfl rfl rfl

theorem hosted_clearRunBit (s : State) : Hosted map profiles s (clearRunBit s) :=
  .of_same rfl (fun _ => rfl) (fun _ => rfl) rfl rfl rfl rfl

/-! ## The start of service, the close and the abandoning of a batch -/

/-- A batch as its service starts, before its header is written. -/
def startedService (id : BatchId) (s : State) : State :=
  serveFromStart (setFirstWaiting (waitingAfter id (s.setBatch id ⟨.inService, (s.batch id).taken⟩))
    (s.setBatch id ⟨.inService, (s.batch id).taken⟩))

theorem startService_eq (id : BatchId) (s : State) :
    startService id s =
      if (hostWrite .whole (headerAddress s.workBase id) (headerBlock .inService (s.batch id).taken 0 0)
          (startedService id s)).1 then
        (hostWrite .whole (headerAddress s.workBase id) (headerBlock .inService (s.batch id).taken 0 0)
          (startedService id s)).2
      else
        stopOnFault (hostWrite .whole (headerAddress s.workBase id) (headerBlock .inService (s.batch id).taken 0 0)
          (startedService id s)).2 := by
  have base : (startedService id s).workBase = s.workBase := by cases id <;> rfl
  rw [← base]
  rfl

theorem hosted_startedService (id : BatchId) (s : State) : Hosted map profiles s (startedService id s) :=
  (hosted_setBatch s id _).trans ((hosted_setFirstWaiting _ _).trans (hosted_serveFromStart _))

theorem hosted_startService (id : BatchId) (s : State) : Hosted map profiles s (startService id s) := by
  rw [startService_eq]
  have wrote := (hosted_startedService (map := map) (profiles := profiles) id s).trans (served_hostWrite .whole
    (headerAddress s.workBase id) (headerBlock .inService (s.batch id).taken 0 0) (startedService id s)).toHosted
  exact .ite (fun _ => wrote) (fun _ => wrote.trans (hosted_stopOnFault _))

theorem served_fillTail (id : BatchId) (j n : Nat) (s : State) : Served map profiles s (fillTail id j n s).2 := by
  induction n generalizing j s with
  | zero => exact .refl s
  | succ n ih =>
    unfold fillTail
    split
    · exact .refl s
    split <;> rename_i t hw
    · exact (served_of_hostWrite hw).trans
        (((quiet_popItem t).trans (quiet_deliverItem _ _)).served.trans (ih _ _))
    · exact served_of_hostWrite hw

theorem hosted_afterClose (id : BatchId) (s : State) : Hosted map profiles s (afterClose id s) := by
  unfold afterClose
  exact .ite (fun _ => .ite (fun _ => hosted_startService _ s) (fun _ => hosted_setEngine _ s))
    (fun _ => hosted_setEngine _ s)

theorem served_collectAfterClose (s : State) : Served map profiles s (collectAfterClose s) := by
  unfold collectAfterClose
  exact .ite (fun _ => (quiet_setCause s _).served) (fun _ => .refl s)

/-- The state once the batch of a close is FREE and its cause is set. -/
def freedBatch (id : BatchId) (s : State) : State := (s.setBatch id ⟨.free, 0⟩).setCause (closedCause id)

/-- A close, its tail being written and its header yet to be. -/
def closeTailed (id : BatchId) (tail : Nat × State) : State :=
  let header := headerBlock (if tail.2.abandoned then .abandoned else .complete) (tail.2.batch id).taken
    tail.2.entriesDone tail.1
  let written := hostWrite .whole (headerAddress tail.2.workBase id) header tail.2
  if written.1 then collectAfterClose (tryOriginate (afterClose id (freedBatch id written.2)))
  else tryOriginate (stopOnFault written.2)

theorem closeBatch_eq (id : BatchId) (s : State) :
    closeBatch id s = closeTailed id (fillTail id 0 (min s.settings.tailRoom s.queue.length) s) := by
  unfold closeBatch closeTailed
  dsimp only
  generalize fillTail id 0 (min s.settings.tailRoom s.queue.length) s = tail
  generalize hostWrite .whole _ _ tail.2 = written
  obtain ⟨written, t⟩ := written
  cases written <;> rfl

theorem hosted_freedBatch (id : BatchId) (s : State) : Hosted map profiles s (freedBatch id s) :=
  (hosted_setBatch s id _).trans (quiet_setCause _ _).served.toHosted

theorem hosted_closeBatch (id : BatchId) (s : State) : Hosted map profiles s (closeBatch id s) := by
  rw [closeBatch_eq]
  have filled := (served_fillTail (map := map) (profiles := profiles) id 0 (min s.settings.tailRoom s.queue.length) s).toHosted
  generalize fillTail id 0 (min s.settings.tailRoom s.queue.length) s = tail at filled ⊢
  unfold closeTailed
  dsimp only
  generalize headerBlock _ _ _ _ = bytes
  have wrote := filled.trans
    (served_hostWrite (map := map) (profiles := profiles) .whole (headerAddress tail.2.workBase id) bytes tail.2).toHosted
  generalize hostWrite .whole (headerAddress tail.2.workBase id) bytes tail.2 = written at wrote ⊢
  refine wrote.trans (.ite (fun _ => ?_) (fun _ => ?_))
  · exact (hosted_freedBatch id _).trans ((hosted_afterClose id _).trans
      ((quiet_tryOriginate _).served.trans (served_collectAfterClose _)).toHosted)
  · exact (hosted_stopOnFault _).trans (quiet_tryOriginate _).served.toHosted

theorem hosted_skipEntries (id : BatchId) (i n : Nat) (s : State) : Hosted map profiles s (skipEntries id i n s).2 := by
  induction n generalizing i s with
  | zero => exact .refl s
  | succ n ih =>
    unfold skipEntries
    split <;> rename_i t hw
    · exact (served_of_hostWrite hw).toHosted.trans ((hosted_setAbandoned t).trans (ih _ _))
    · exact (served_of_hostWrite hw).toHosted

theorem hosted_abandonRest (id : BatchId) (s : State) : Hosted map profiles s (abandonRest id s) := by
  unfold abandonRest
  dsimp only
  have skipped := hosted_skipEntries (map := map) (profiles := profiles) id s.nextIndex ((s.batch id).taken - s.nextIndex) s
  split <;> rename_i t h <;> rw [h] at skipped
  · exact skipped.trans ((hosted_setNextIndex _ t).trans (hosted_closeBatch id _))
  · exact skipped.trans (hosted_stopOnFault t)

theorem hosted_completeEntry (id : BatchId) (r : EntryResult) (s : State) : Hosted map profiles s (completeEntry id r s) := by
  unfold completeEntry
  rcases hw : hostWrite .whole (resultAddress s.workBase id s.nextIndex) (resultBytes r) s with ⟨written, t⟩
  have wrote := (served_of_hostWrite (map := map) (profiles := profiles) hw).toHosted
  dsimp only
  refine .ite (fun _ => wrote.trans (hosted_stopOnFault t)) fun _ => wrote.trans ?_
  exact (hosted_countEntry t).trans (.ite (fun _ => (hosted_setAbandoned _).trans (hosted_abandonRest id _)) (fun _ => .refl _))

/-- The part of an entry that is its request's: the read of the entry, the request, and the slots it has changed. -/
def requested (request : State → EntryResult × State) (s : State) : EntryResult × State :=
  if (hostRead s).1 then request (hostRead s).2 else (unreadResult, (hostRead s).2)

theorem serveEntryOf_eq (id : BatchId) (request : State → EntryResult × State) (s : State) :
    serveEntryOf id request s =
      flushBoard (flushBoard s (requested request s).2)
        (completeEntry id (requested request s).1 (flushBoard s (requested request s).2)) := rfl

theorem served_requested {request : State → EntryResult × State} (h : ∀ s, Served map profiles s (request s).2) (s : State) :
    Served map profiles s (requested request s).2 := by
  unfold requested
  split
  · exact (served_hostRead s).trans (h _)
  · exact served_hostRead s

theorem hosted_serveEntryOf {request : State → EntryResult × State} (h : ∀ s, Served map profiles s (request s).2)
    (id : BatchId) (s : State) : Hosted map profiles s (serveEntryOf id request s) := by
  rw [serveEntryOf_eq]
  exact ((served_requested h s).trans (served_flushBoard s _)).toHosted.trans
    ((hosted_completeEntry id _ _).trans (served_flushBoard _ _).toHosted)

/-! ## The engine's invariant -/

/-- The batches agree with first waiting, whatever the engine's state. -/
def State.batchesOk (s : State) : Prop :=
  s.batchA.ok ∧ s.batchB.ok ∧ s.firstWaitingOk ∧ ¬ (s.batchA.state = .inService ∧ s.batchB.state = .inService)

/-- The engine's state agrees with the batches, RUN and the fault stop. -/
def State.engineAgrees (s : State) : Prop :=
  match s.engine with
  | .starting => s.run = false ∧ s.faultStop = false ∧ s.bothFree = true
  | .stopped => s.run = false ∧ (s.faultStop = true ∨ s.inService? = none)
  | .idle => s.run = true ∧ s.faultStop = false ∧ s.bothFree = true
  | .serving => s.faultStop = false ∧ s.inService? ≠ none

theorem engineOk_iff : s.engineOk ↔ s.batchesOk ∧ s.engineAgrees :=
  ⟨fun ⟨a, b, f, n, m⟩ => ⟨⟨a, b, f, n⟩, m⟩, fun ⟨⟨a, b, f, n⟩, m⟩ => ⟨a, b, f, n, m⟩⟩

theorem batch_of_view (h : t.engineView = s.engineView) (id : BatchId) : t.batch id = s.batch id := by
  cases id
  · exact congrArg EngineView.batchA h
  · exact congrArg EngineView.batchB h

theorem engineOk_of_view (h : t.engineView = s.engineView) (ok : s.engineOk) : t.engineOk := by
  have batchA : t.batchA = s.batchA := congrArg EngineView.batchA h
  have batchB : t.batchB = s.batchB := congrArg EngineView.batchB h
  have engine : t.engine = s.engine := congrArg EngineView.engine h
  have run : t.run = s.run := congrArg EngineView.run h
  have faultStop : t.faultStop = s.faultStop := congrArg EngineView.faultStop h
  have firstWaiting : t.firstWaiting = s.firstWaiting := congrArg EngineView.firstWaiting h
  simp only [State.engineOk, State.firstWaitingOk, batch_of_view h, State.bothFree, State.inService?, batchA, batchB,
    engine, run, faultStop, firstWaiting] at ok ⊢
  exact ok

/-- A batch by its name, and the other one: the invariant of the batches said of them. -/
theorem batchesOk_iff (id : BatchId) : s.batchesOk ↔
    (s.batch id).ok ∧ (s.batch (otherBatch id)).ok ∧ s.firstWaitingOk ∧
      ¬ ((s.batch id).state = .inService ∧ (s.batch (otherBatch id)).state = .inService) := by
  cases id
  · exact .rfl
  · constructor
    · rintro ⟨a, b, f, n⟩
      exact ⟨b, a, f, fun h => n h.symm⟩
    · rintro ⟨b, a, f, n⟩
      exact ⟨a, b, f, fun h => n h.symm⟩

theorem firstWaitingOk_iff (id : BatchId) : s.firstWaitingOk ↔
    (∀ i, s.firstWaiting = some i → (s.batch i).state = .waiting) ∧
      (s.firstWaiting = none → (s.batch id).state ≠ .waiting ∧ (s.batch (otherBatch id)).state ≠ .waiting) := by
  cases id
  · exact .rfl
  · exact and_congr_right fun _ => imp_congr_right fun _ => and_comm

theorem bothFree_iff (id : BatchId) : s.bothFree = true ↔
    (s.batch id).state = .free ∧ (s.batch (otherBatch id)).state = .free := by
  cases id
  · simp [State.bothFree, State.batch, otherBatch]
  · simp [State.bothFree, State.batch, otherBatch, and_comm]

theorem inService?_none_iff (id : BatchId) : s.inService? = none ↔
    (s.batch id).state ≠ .inService ∧ (s.batch (otherBatch id)).state ≠ .inService := by
  unfold State.inService?
  cases id
  · show _ ↔ s.batchA.state ≠ .inService ∧ s.batchB.state ≠ .inService
    split_ifs <;> simp_all
  · show _ ↔ s.batchB.state ≠ .inService ∧ s.batchA.state ≠ .inService
    split_ifs <;> simp_all

theorem batch_of_inService? {id : BatchId} (h : s.inService? = some id) : (s.batch id).state = .inService := by
  unfold State.inService? at h
  split_ifs at h with a b <;> cases h
  · exact a
  · exact b

theorem eq_or_other (id i : BatchId) : i = id ∨ i = otherBatch id := by cases id <;> cases i <;> decide

/-- Stopped by a fault, the batches stay as they are. -/
theorem engineOk_stopOnFault (ok : s.batchesOk) : (stopOnFault s).engineOk :=
  engineOk_iff.2 ⟨ok, rfl, .inl rfl⟩

theorem startedService_ok {id : BatchId} (taken : (s.batch id).taken ≤ 64) (other : (s.batch (otherBatch id)).ok)
    (alone : (s.batch (otherBatch id)).state ≠ .inService) (fault : s.faultStop = false) : (startedService id s).engineOk := by
  have this : (startedService id s).batch id = ⟨.inService, (s.batch id).taken⟩ := by cases id <;> rfl
  have rest : (startedService id s).batch (otherBatch id) = s.batch (otherBatch id) := by cases id <;> rfl
  have first : (startedService id s).firstWaiting =
      if (s.batch (otherBatch id)).state = .waiting then some (otherBatch id) else none := by cases id <;> rfl
  refine engineOk_iff.2 ⟨(batchesOk_iff id).2 ⟨?_, ?_, (firstWaitingOk_iff id).2 ⟨fun i h => ?_, fun h => ?_⟩, fun h => ?_⟩, ?_⟩
  · rw [this]; exact ⟨taken, fun h => (nomatch h)⟩
  · rw [rest]; exact other
  · rw [first] at h
    split at h
    · cases h; rwa [rest]
    · cases h
  · rw [first] at h
    split at h
    · cases h
    · rename_i idle
      rw [this, rest]
      exact ⟨fun h => (nomatch h), idle⟩
  · rw [rest] at h; exact alone h.2
  · show (startedService id s).faultStop = false ∧ (startedService id s).inService? ≠ none
    refine ⟨by rw [← fault]; cases id <;> rfl, fun h => ?_⟩
    exact ((inService?_none_iff id).1 h).1 (by rw [this])

theorem batchesOk_of_view (h : t.engineView = s.engineView) (ok : s.batchesOk) : t.batchesOk := by
  have firstWaiting : t.firstWaiting = s.firstWaiting := congrArg EngineView.firstWaiting h
  have batchA : t.batchA = s.batchA := congrArg EngineView.batchA h
  have batchB : t.batchB = s.batchB := congrArg EngineView.batchB h
  simp only [State.batchesOk, State.firstWaitingOk, batch_of_view h, batchA, batchB, firstWaiting] at ok ⊢
  exact ok

/-- A batch's service starts while the other's is not in service (R152). -/
theorem startService_ok {id : BatchId} (taken : (s.batch id).taken ≤ 64) (other : (s.batch (otherBatch id)).ok)
    (alone : (s.batch (otherBatch id)).state ≠ .inService) (fault : s.faultStop = false) : (startService id s).engineOk := by
  have started := startedService_ok taken other alone fault
  rw [startService_eq]
  have wrote := (served_hostWrite (map := True) (profiles := True) .whole (headerAddress s.workBase id)
    (headerBlock .inService (s.batch id).taken 0 0) (startedService id s)).engine
  split
  · exact engineOk_of_view wrote started
  · exact engineOk_stopOnFault (batchesOk_of_view wrote (engineOk_iff.1 started).1)

theorem inService?_setBatch {id : BatchId} {v : Batch} (h : (s.batch id).state ≠ .inService) (hv : v.state ≠ .inService) :
    (s.setBatch id v).inService? = s.inService? := by
  cases id
  · have h : s.batchA.state ≠ .inService := h
    show (if v.state = .inService then _ else _) = if s.batchA.state = .inService then _ else _
    rw [if_neg hv, if_neg h]
    rfl
  · have h : s.batchB.state ≠ .inService := h
    simp [State.inService?, State.setBatch, h, hv]

/-- Step 5 of a close (R156): the closed batch FREE, the other one's service starts, or the engine is IDLE or STOPPED. -/
theorem afterClose_ok {id : BatchId} (free : s.batch id = ⟨.free, 0⟩) (other : (s.batch (otherBatch id)).ok)
    (alone : (s.batch (otherBatch id)).state ≠ .inService) (first : s.firstWaitingOk) (fault : s.faultStop = false) :
    (afterClose id s).engineOk := by
  have ok : s.batchesOk := (batchesOk_iff id).2
    ⟨by rw [free]; exact ⟨by decide, fun _ => rfl⟩, other, first, fun h => alone h.2⟩
  unfold afterClose
  split
  · rename_i run
    split
    · have same : otherBatch (otherBatch id) = id := by cases id <;> rfl
      refine startService_ok other.1 ?_ ?_ fault <;> rw [same, free]
      · exact ⟨by decide, fun _ => rfl⟩
      · decide
    · rename_i idle
      refine engineOk_iff.2 ⟨ok, run, fault, (bothFree_iff id).2 ⟨?_, ?_⟩⟩
      · show (s.batch id).state = .free
        rw [free]
      · show (s.batch (otherBatch id)).state = .free
        revert idle alone
        cases (s.batch (otherBatch id)).state <;> simp
  · rename_i run
    refine engineOk_iff.2 ⟨ok, by simpa using run, .inr ((inService?_none_iff id).2 ⟨?_, alone⟩)⟩
    show (s.batch id).state ≠ .inService
    rw [free]; decide

theorem freedBatch_first {id : BatchId} (inService : (s.batch id).state = .inService) (ok : s.firstWaitingOk) :
    (freedBatch id s).firstWaitingOk := by
  obtain ⟨names, nothing⟩ := (firstWaitingOk_iff id).1 ok
  have this : (freedBatch id s).batch id = ⟨.free, 0⟩ := by cases id <;> rfl
  have rest : (freedBatch id s).batch (otherBatch id) = s.batch (otherBatch id) := by cases id <;> rfl
  have first : (freedBatch id s).firstWaiting = s.firstWaiting := by cases id <;> rfl
  refine (firstWaitingOk_iff id).2 ⟨fun i h => ?_, fun h => ?_⟩
  · rw [first] at h
    rcases eq_or_other id i with rfl | rfl
    · have := names _ h
      rw [inService] at this
      cases this
    · rw [rest]; exact names _ h
  · rw [first] at h
    rw [this, rest]
    exact ⟨by decide, (nothing h).2⟩

/-- The close of a batch in service (R156, R161). -/
theorem closeBatch_ok {id : BatchId} (ok : s.engineOk) (serving : s.engine = .serving)
    (inService : (s.batch id).state = .inService) : (closeBatch id s).engineOk := by
  rw [closeBatch_eq]
  have filled := (served_fillTail (map := True) (profiles := True) id 0 (min s.settings.tailRoom s.queue.length) s).engine
  generalize fillTail id 0 (min s.settings.tailRoom s.queue.length) s = tail at filled ⊢
  unfold closeTailed
  dsimp only
  have wrote (bytes : List Byte) : (hostWrite .whole (headerAddress tail.2.workBase id) bytes tail.2).2.engineView =
      s.engineView := ((served_hostWrite (map := True) (profiles := True) _ _ _ _).engine).trans filled
  generalize headerBlock _ _ _ _ = bytes
  have wrote := wrote bytes
  generalize (hostWrite .whole (headerAddress tail.2.workBase id) bytes tail.2) = written at wrote ⊢
  split
  · refine engineOk_of_view ((quiet_tryOriginate _).served (map := True) (profiles := True)
      |>.trans (served_collectAfterClose _)).engine ?_
    have view := batch_of_view wrote
    have batches := batchesOk_of_view wrote (engineOk_iff.1 ok).1
    obtain ⟨_, other, first, alone⟩ := (batchesOk_iff id).1 batches
    have this : (written.2.batch id).state = .inService := by rw [view]; exact inService
    have rest : (freedBatch id written.2).batch (otherBatch id) = written.2.batch (otherBatch id) := by cases id <;> rfl
    have fault : (freedBatch id written.2).faultStop = false := by
      have stays : (freedBatch id written.2).faultStop = s.faultStop := by
        rw [← show written.2.faultStop = s.faultStop from congrArg EngineView.faultStop wrote]
        cases id <;> rfl
      have agrees := (engineOk_iff.1 ok).2
      rw [State.engineAgrees, serving] at agrees
      rw [stays]; exact agrees.1
    refine afterClose_ok (by cases id <;> rfl) (by rw [rest]; exact other) (by rw [rest]; exact fun h => alone ⟨this, h⟩)
      (freedBatch_first this first) fault
  · exact engineOk_of_view ((quiet_tryOriginate _).served (map := True) (profiles := True)).engine
      (engineOk_stopOnFault (batchesOk_of_view wrote (engineOk_iff.1 ok).1))

end Sys2Proof.Machine
end

