-- ==== Sys2Proof/Proofs/EngineOk.lean ====
section
/-! PROOFS. Every command, and the step of an empty queue, keeps the engine's invariant and the alignment of the work base. -/

namespace Sys2Proof.Machine

variable {map profiles : Prop} {s t u : State}

theorem faultStop_of_view (h : t.engineView = s.engineView) : t.faultStop = s.faultStop := congrArg EngineView.faultStop h

theorem run_of_view (h : t.engineView = s.engineView) : t.run = s.run := congrArg EngineView.run h

/-- A state that the engine's invariant reads alike: what no part of the engine does to a state. -/
theorem Served.engineOk (h : Served map profiles s t) (ok : s.engineOk) : t.engineOk := engineOk_of_view h.engine ok

theorem Quiet.engineOk (h : Quiet s t) (ok : s.engineOk) : t.engineOk :=
  (h.served (map := True) (profiles := True)).engineOk ok

/-! ## The abandoning of a batch and the end of an entry -/

theorem engineOk_setAbandoned (ok : s.engineOk) : (setAbandoned s).engineOk := ok

theorem engineOk_setNextIndex (n : Nat) (ok : s.engineOk) : (setNextIndex n s).engineOk := ok

theorem engineOk_countEntry (ok : s.engineOk) : (countEntry s).engineOk := ok

/-- The parts of the engine's state that the results of entries leave. -/
theorem skipEntries_engine (id : BatchId) (i n : Nat) (s : State) :
    (s.engineOk → (skipEntries id i n s).2.engineOk) ∧ (skipEntries id i n s).2.engine = s.engine ∧
      ∀ j, (skipEntries id i n s).2.batch j = s.batch j := by
  induction n generalizing i s with
  | zero => exact ⟨fun h => h, rfl, fun _ => rfl⟩
  | succ n ih =>
    unfold skipEntries
    split <;> rename_i t hw
    · have wrote := served_of_hostWrite (map := True) (profiles := True) hw
      obtain ⟨ok, engine, batch⟩ := ih (i + 1) (setAbandoned t)
      refine ⟨fun h => ok (engineOk_setAbandoned (wrote.engineOk h)),
        engine.trans (congrArg EngineView.engine wrote.engine), fun j => (batch j).trans ?_⟩
      exact (show (setAbandoned t).batch j = t.batch j by cases j <;> rfl).trans (batch_of_view wrote.engine j)
    · have wrote := served_of_hostWrite (map := True) (profiles := True) hw
      exact ⟨wrote.engineOk, congrArg EngineView.engine wrote.engine, batch_of_view wrote.engine⟩

theorem abandonRest_ok {id : BatchId} (ok : s.engineOk) (serving : s.engine = .serving)
    (inService : (s.batch id).state = .inService) : (abandonRest id s).engineOk := by
  unfold abandonRest
  dsimp only
  obtain ⟨kept, engine, batch⟩ := skipEntries_engine id s.nextIndex ((s.batch id).taken - s.nextIndex) s
  split <;> rename_i t h <;> rw [h] at kept engine batch
  · refine closeBatch_ok (engineOk_setNextIndex _ (kept ok)) (engine.trans serving) ?_
    rw [show (setNextIndex (s.batch id).taken t).batch id = t.batch id by cases id <;> rfl, batch]
    exact inService
  · exact engineOk_stopOnFault (engineOk_iff.1 (kept ok)).1

theorem completeEntry_ok {id : BatchId} (r : EntryResult) (ok : s.engineOk) (serving : s.engine = .serving)
    (inService : (s.batch id).state = .inService) : (completeEntry id r s).engineOk := by
  unfold completeEntry
  rcases hw : hostWrite .whole (resultAddress s.workBase id s.nextIndex) (resultBytes r) s with ⟨written, t⟩
  have wrote := served_of_hostWrite (map := True) (profiles := True) hw
  dsimp only
  split
  · exact engineOk_stopOnFault (engineOk_iff.1 (wrote.engineOk ok)).1
  split
  · refine abandonRest_ok (engineOk_setAbandoned (engineOk_countEntry (wrote.engineOk ok)))
      ((congrArg EngineView.engine wrote.engine).trans serving) ?_
    rw [show (setAbandoned (countEntry t)).batch id = t.batch id by cases id <;> rfl, batch_of_view wrote.engine]
    exact inService
  · exact engineOk_countEntry (wrote.engineOk ok)

/-! ## Entries and the events of the engine -/

theorem serving_of_serving? {id : BatchId} (h : s.serving? = some id) :
    s.engine = .serving ∧ s.inService? = some id ∧ s.nextIndex < (s.batch id).taken := by
  unfold State.serving? at h
  split at h
  · split at h
    · cases h
      exact ⟨by assumption, by assumption, by assumption⟩
    · cases h
  · cases h

theorem closing_of_closing? {id : BatchId} (h : s.closing? = some id) :
    s.engine = .serving ∧ s.inService? = some id ∧ ¬ s.nextIndex < (s.batch id).taken := by
  unfold State.closing? at h
  split at h
  · split at h
    · cases h
    · cases h
      exact ⟨by assumption, by assumption, by assumption⟩
  · cases h

theorem serveEntryOf_ok {request : State → EntryResult × State} (h : ∀ s, Served map profiles s (request s).2) {id : BatchId}
    (serving : s.serving? = some id) (ok : s.engineOk) : (serveEntryOf id request s).engineOk := by
  obtain ⟨engine, inService, _⟩ := serving_of_serving? serving
  rw [serveEntryOf_eq]
  have request := (served_requested h s).trans (served_flushBoard s _)
  refine (served_flushBoard (map := True) (profiles := True) _ _).engineOk (completeEntry_ok _ (request.engineOk ok) ?_ ?_)
  · exact (congrArg EngineView.engine request.engine).trans engine
  · rw [batch_of_view request.engine]; exact batch_of_inService? inService

theorem takeClose_ok (ok : s.engineOk) : (takeClose s).engineOk := by
  unfold takeClose
  split
  · rename_i id h
    obtain ⟨engine, inService, _⟩ := closing_of_closing? h
    exact closeBatch_ok ok engine (batch_of_inService? inService)
  · exact ok

theorem takeAbandon_ok (ok : s.engineOk) : (takeAbandon s).engineOk := by
  unfold takeAbandon
  split
  · exact abandonRest_ok ok (by assumption) (batch_of_inService? (by assumption))
  · exact ok

/-- A WAITING batch can be put in service when none is. -/
theorem startService_waiting_ok {id : BatchId} (ok : s.engineOk) (idle : s.inService? = none) (fault : s.faultStop = false) :
    (startService id s).engineOk := by
  obtain ⟨this, other, _, _⟩ := (batchesOk_iff id).1 (engineOk_iff.1 ok).1
  exact startService_ok this.1 other ((inService?_none_iff id).1 idle).2 fault

theorem startWaiting_ok (ok : s.engineOk) : (startWaiting s).engineOk := by
  unfold startWaiting
  split
  · rename_i id h
    unfold State.startable? at h
    split at h
    · rename_i c
      exact startService_waiting_ok ok c.2.2.1 c.2.1
    · cases h
  · exact ok

/-! ## Handover and RUN -/

/-- A batch that is handed over while the engine does not start it: it is WAITING, and first waiting names one (R151). -/
theorem waiting_ok {id : BatchId} {taken : Nat} (ok : s.engineOk) (free : (s.batch id).state = .free) (h : taken ≤ 64)
    (engine : s.engine ≠ .idle) (started : s.engine ≠ .starting) :
    (setFirstWaiting (if (s.batch (otherBatch id)).state = .waiting then s.firstWaiting else some id)
      (s.setBatch id ⟨.waiting, taken⟩)).engineOk := by
  obtain ⟨batches, agrees⟩ := engineOk_iff.1 ok
  obtain ⟨_, other, first, alone⟩ := (batchesOk_iff id).1 batches
  obtain ⟨names, nothing⟩ := (firstWaitingOk_iff id).1 first
  set f := if (s.batch (otherBatch id)).state = .waiting then s.firstWaiting else some id with hf
  have this : (setFirstWaiting f (s.setBatch id ⟨.waiting, taken⟩)).batch id = ⟨.waiting, taken⟩ := by cases id <;> rfl
  have rest : (setFirstWaiting f (s.setBatch id ⟨.waiting, taken⟩)).batch (otherBatch id) = s.batch (otherBatch id) := by
    cases id <;> rfl
  have inService : (setFirstWaiting f (s.setBatch id ⟨.waiting, taken⟩)).inService? = s.inService? := by
    rw [← inService?_setBatch (s := s) (id := id) (v := ⟨.waiting, taken⟩) (by rw [free]; decide)
      (fun h => (nomatch h))]
    rfl
  refine engineOk_iff.2 ⟨(batchesOk_iff id).2 ⟨?_, ?_, (firstWaitingOk_iff id).2 ⟨fun i hi => ?_, fun hn => ?_⟩, ?_⟩, ?_⟩
  · rw [this]; exact ⟨h, fun h => (nomatch h)⟩
  · rw [rest]; exact other
  · have hi : f = some i := hi
    rw [hf] at hi
    split at hi
    · rename_i waits
      rcases eq_or_other id i with rfl | rfl
      · rw [this]
      · rw [rest]; exact waits
    · cases hi; rw [this]
  · have hn : f = none := hn
    rw [hf] at hn
    split at hn
    · rename_i waits
      exact absurd waits (nothing hn).2
    · cases hn
  · rw [this]; exact fun c => (nomatch c.1)
  · unfold State.engineAgrees at agrees ⊢
    have e : (setFirstWaiting f (s.setBatch id ⟨.waiting, taken⟩)).engine = s.engine := by cases id <;> rfl
    have r : (setFirstWaiting f (s.setBatch id ⟨.waiting, taken⟩)).run = s.run := by cases id <;> rfl
    have fs : (setFirstWaiting f (s.setBatch id ⟨.waiting, taken⟩)).faultStop = s.faultStop := by cases id <;> rfl
    rw [e, r, fs, inService]
    revert agrees engine started
    cases s.engine <;> simp

theorem takeHandover_ok (id : BatchId) (value : Word) (ok : s.engineOk) : (takeHandover id value s).engineOk := by
  unfold takeHandover
  split
  · exact (quiet_setCause s _).engineOk ok
  rename_i c
  obtain ⟨started, free⟩ := not_or.1 c
  have free := not_not.1 free
  dsimp only
  have clamped : (if handoverCount value > 64 then setClamped s else s).engineView = s.engineView := by split <;> rfl
  generalize (if handoverCount value > 64 then setClamped s else s) = v at clamped ⊢
  have ok := engineOk_of_view clamped ok
  have free : (v.batch id).state = .free := by rw [batch_of_view clamped]; exact free
  have started : v.engine ≠ .starting := by
    rw [show v.engine = s.engine from congrArg EngineView.engine clamped]; exact started
  have taken : min (handoverCount value) 64 ≤ 64 := min_le_right _ _
  split
  · rename_i idle
    have agrees := (engineOk_iff.1 ok).2
    rw [State.engineAgrees, idle] at agrees
    obtain ⟨_, fault, bothFree⟩ := agrees
    have other := ((bothFree_iff id).1 bothFree).2
    have this : (v.setBatch id ⟨.waiting, min (handoverCount value) 64⟩).batch id =
        ⟨.waiting, min (handoverCount value) 64⟩ := by cases id <;> rfl
    have rest : (v.setBatch id ⟨.waiting, min (handoverCount value) 64⟩).batch (otherBatch id) = v.batch (otherBatch id) := by
      cases id <;> rfl
    have fault : (v.setBatch id ⟨.waiting, min (handoverCount value) 64⟩).faultStop = false := by
      rw [← fault]; cases id <;> rfl
    refine startService_ok (by rw [this]; exact taken) ?_ (by rw [rest, other]; decide) fault
    rw [rest]
    exact ((batchesOk_iff id).1 (engineOk_iff.1 ok).1).2.1
  · rename_i engine
    exact waiting_ok ok free taken engine started

/-- RUN is set without a start of service: a SERVING engine goes on. -/
theorem setRunBase_ok (ok : s.engineOk) (serving : s.engine = .serving) : (setRunBase s).engineOk := by
  obtain ⟨batches, agrees⟩ := engineOk_iff.1 ok
  rw [State.engineAgrees, serving] at agrees
  refine engineOk_iff.2 ⟨batches, ?_⟩
  show match s.engine with | _ => _
  unfold State.engineAgrees
  have e : (setRunBase s).engine = .serving := serving
  rw [e]
  exact agrees

theorem setRun_ok (ok : s.engineOk) : (setRun s).engineOk := by
  unfold setRun
  split
  · exact ok
  rename_i run
  split
  · exact (quiet_setCause s _).engineOk ok
  rename_i c
  obtain ⟨started, fault⟩ := not_or.1 c
  have fault : s.faultStop = false := by simpa using fault
  split
  · rename_i serving
    exact (served_fullBoardWrite (map := True) (profiles := True) _).engineOk (setRunBase_ok ok serving)
  rename_i serving
  obtain ⟨batches, agrees⟩ := engineOk_iff.1 ok
  have idle : s.inService? = none := by
    unfold State.engineAgrees at agrees
    split at agrees
    · exact absurd (by assumption) started
    · exact agrees.2.resolve_left (by rw [fault]; decide)
    · exact absurd agrees.1 run
    · exact absurd (by assumption) serving
  have view := (served_fullBoardWrite (map := True) (profiles := True) (setRunBase s)).engine
  have batch := batch_of_view view
  have set (id : BatchId) : (setRunBase s).batch id = s.batch id := by cases id <;> rfl
  have batches : (takeRun s).batchesOk := by
    rw [takeRun]
    exact batchesOk_of_view view batches
  have fault : (takeRun s).faultStop = false := by
    rw [takeRun, faultStop_of_view view]
    exact fault
  have run : (takeRun s).run = true := by
    rw [takeRun, run_of_view view, setRunBase_run]
  have idle (id : BatchId) : ((takeRun s).batch id).state ≠ .inService := by
    rw [takeRun, batch, set]
    rcases eq_or_other .a id with rfl | rfl
    · exact ((inService?_none_iff .a).1 idle).1
    · exact ((inService?_none_iff .a).1 idle).2
  refine (served_flushBoard (map := True) (profiles := True) _ _).engineOk ?_
  generalize takeRun s = v at batches fault run idle
  beta_reduce
  split
  · rename_i id waits
    obtain ⟨this, other, _, _⟩ := (batchesOk_iff id).1 batches
    exact startService_ok this.1 other (idle _) fault
  · rename_i none
    have waits := batches.2.2.1.2 none
    refine engineOk_iff.2 ⟨batches, run, fault, (bothFree_iff .a).2 ⟨?_, ?_⟩⟩
    · have a := waits.1
      have i := idle .a
      show v.batchA.state = .free
      revert a i
      show v.batchA.state ≠ .waiting → v.batchA.state ≠ .inService → v.batchA.state = .free
      cases v.batchA.state <;> simp
    · have a := waits.2
      have i := idle .b
      show v.batchB.state = .free
      revert a i
      show v.batchB.state ≠ .waiting → v.batchB.state ≠ .inService → v.batchB.state = .free
      cases v.batchB.state <;> simp

theorem clearRun_ok (ok : s.engineOk) : (clearRun s).engineOk := by
  unfold clearRun
  split
  · rename_i run
    obtain ⟨batches, agrees⟩ := engineOk_iff.1 ok
    refine engineOk_iff.2 ⟨batches, ?_⟩
    unfold State.engineAgrees at agrees ⊢
    have e : (clearRunBit s).engine = if s.engine = .idle then .stopped else s.engine := rfl
    rw [e]
    split at agrees <;> rename_i h <;> rw [h]
    · rw [run] at agrees; exact absurd agrees.1 (by decide)
    · exact ⟨rfl, agrees.2⟩
    · refine ⟨rfl, .inr ((inService?_none_iff (s := clearRunBit s) .a).2 ?_)⟩
      obtain ⟨a, b⟩ := (bothFree_iff .a).1 agrees.2.2
      exact ⟨by rw [show ((clearRunBit s).batch .a).state = (s.batch .a).state from rfl, a]; decide,
        by rw [show ((clearRunBit s).batch (otherBatch .a)).state = (s.batch (otherBatch .a)).state from rfl, b]; decide⟩
    · exact agrees
  · exact ok

/-! ## Start-up, RESTART and the registers -/

theorem startUp_ok (block : List Byte) (ok : s.engineOk) : (startUp block s).engineOk := by
  unfold startUp
  split
  · rename_i starting
    have settings : (loadSettings block s).engineView = s.engineView := by
      unfold loadSettings
      split
      · rfl
      · exact ((quiet_raiseDevice _ _).served (map := True) (profiles := True)).engine
    have master (s : State) : (readMasterKey s).engineView = s.engineView := by
      unfold readMasterKey
      dsimp only
      split
      · exact ((quiet_raiseDevice _ _).served (map := True) (profiles := True)).engine
      · rfl
    have tested (s : State) : (selfTest (clearLastDraw s)).engineView = s.engineView :=
      ((quiet_selfTest _).served (map := True) (profiles := True)).engine
    have view := (tested _).trans ((master _).trans settings)
    generalize selfTest (clearLastDraw (readMasterKey (loadSettings block s))) = v at view ⊢
    have ok := engineOk_of_view view ok
    have starting : v.engine = .starting := (congrArg EngineView.engine view).trans starting
    obtain ⟨batches, agrees⟩ := engineOk_iff.1 ok
    rw [State.engineAgrees, starting] at agrees
    refine engineOk_iff.2 ⟨batches, agrees.1, .inr ((inService?_none_iff (s := endStartUp v) .a).2 ?_)⟩
    obtain ⟨a, b⟩ := (bothFree_iff .a).1 agrees.2.2
    exact ⟨by rw [show ((endStartUp v).batch .a).state = (v.batch .a).state from rfl, a]; decide,
      by rw [show ((endStartUp v).batch (otherBatch .a)).state = (v.batch (otherBatch .a)).state from rfl, b]; decide⟩
  · exact ok

/-- No batch is held, and RUN is clear. -/
theorem engineOk_of_freed (a : s.batchA = ⟨.free, 0⟩) (b : s.batchB = ⟨.free, 0⟩) (first : s.firstWaiting = none)
    (run : s.run = false) (fault : s.faultStop = false) (engine : s.engine = .starting ∨ s.engine = .stopped) :
    s.engineOk := by
  have ok : (⟨.free, 0⟩ : Batch).ok := ⟨Nat.zero_le _, fun _ => rfl⟩
  refine engineOk_iff.2 ⟨⟨a ▸ ok, b ▸ ok, ⟨fun i h => ?_, fun _ => ?_⟩, fun h => ?_⟩, ?_⟩
  · rw [first] at h; cases h
  · rw [a, b]; exact ⟨fun h => (nomatch h), fun h => (nomatch h)⟩
  · rw [a] at h; exact nomatch h.1
  · unfold State.engineAgrees
    rcases engine with e | e <;> rw [e]
    · exact ⟨run, fault, (bothFree_iff .a).2 ⟨congrArg Batch.state a, congrArg Batch.state b⟩⟩
    · refine ⟨run, .inr ((inService?_none_iff .a).2 ⟨fun h => ?_, fun h => ?_⟩)⟩
      · have h : s.batchA.state = .inService := h
        rw [a] at h; cases h
      · have h : s.batchB.state = .inService := h
        rw [b] at h; cases h

theorem restart_ok (ok : s.engineOk) : (restart s).engineOk := by
  unfold restart
  split
  · exact (quiet_setCause s _).engineOk ok
  · refine (served_fullBoardWrite (map := True) (profiles := True) _).engineOk ((quiet_selfTest _).engineOk ?_)
    rw [restartState]
    exact engineOk_of_freed rfl rfl rfl rfl rfl (.inr rfl)

theorem writeControl_ok (control : Word) (ok : s.engineOk) : (writeControl control s).engineOk := by
  unfold writeControl
  split
  · exact restart_ok ok
  dsimp only
  have masked : (maskAndAbandon control s).engineOk := by
    unfold maskAndAbandon
    dsimp only
    have set : (setMask (controlMask control) s).engineOk := engineOk_of_view rfl ok
    split
    · exact takeAbandon_ok set
    · exact set
  split
  · exact setRun_ok masked
  · refine (served_flushBoard (map := True) (profiles := True) _ _).engineOk ?_
    split
    · exact setRun_ok masked
    · exact clearRun_ok masked

/-! ## The work base -/

theorem extract_append_low {n m : Nat} (x : BitVec n) (y : BitVec m) {len : Nat} (h : len ≤ m) :
    (x ++ y).extractLsb' 0 len = y.extractLsb' 0 len := by
  refine BitVec.eq_of_getLsbD_eq fun i hi => ?_
  simp [BitVec.getLsbD_append, hi, show i < m by omega]

theorem writtenBase_aligned {base : Address} (half : BaseHalf) (value : Word) (h : base.extractLsb' 0 12 = 0) :
    (writtenBase base half value).extractLsb' 0 12 = 0 := by
  cases half
  · rw [writtenBase, extract_append_low _ _ (by decide), extract_append_low _ _ (by decide)]
    decide
  · rw [writtenBase, extract_append_low _ _ (by decide), ← h]
    refine BitVec.eq_of_getLsbD_eq fun i hi => ?_
    simp [hi]

theorem writeWorkBase_ok (half : BaseHalf) (value : Word) (base : s.workBaseOk) :
    (writeWorkBase half value s).workBaseOk := by
  unfold writeWorkBase
  split
  · exact writtenBase_aligned half value base
  · exact base

/-- A work base that an operation leaves stays aligned. -/
theorem Hosted.workBaseOk (h : Hosted map profiles s t) (base : s.workBaseOk) : t.workBaseOk := by
  rw [State.workBaseOk, h.workBase]; exact base

end Sys2Proof.Machine
end

