-- ==== Sys2Proof/Proofs/Commands.lean ====
section
/-! PROOFS. Each command that is no reset is one event: what it does within the event, said as a function of the command, and which settings, registers and tables that can reach. -/

namespace Sys2Proof.Machine
variable {map profiles : Prop} {s t u : State}

/-! ## A command as an event -/

/-- The request of an entry command. -/
def requestOf : Instr → State → EntryResult × State
  | .outbound e input _ => serveOutbound e input
  | .inbound e input _ => serveInbound e input
  | .enrol e input _ => serveEnrol e input
  | .retire e _ => serveRetire e
  | .setLink e input _ => serveSetLink e input
  | .setProfile e input _ => serveSetProfile e input
  | .hold e _ => serveHold e
  | .release e _ => serveRelease e
  | .renewNow e _ => serveRenewNow e
  | .readLink e _ => serveReadLink e
  | .readFaults e _ => serveReadFaults e
  | .readDevice e _ => serveReadDevice e
  | _ => serveBadRequest

/-- What a timed command does at the records. -/
def timedPart : Instr → State → State
  | .scrubStep _ => scrub
  | .periodMark => setPhase 0
  | .periodMarkAtLink k _ => markLink k
  | .ageLimitReached k which _ => reachAgeLimit k which
  | .retireTimerExpiry k _ => reachRetireTime k
  | .restEnd k _ => reachRestEnd k
  | .periodMarkAtRenewalRecord n _ => markRecord n
  | .replyTimerExpiry n _ => reachReplyExpiry n
  | _ => id

/-- An entry served when one is due. -/
def entryBody (request : State → EntryResult × State) (s : State) : State :=
  match s.serving? with
  | some id => serveEntryOf id request s
  | none => s

/-- A timed part, taken while the timebase runs. -/
def timedBody (part : State → State) (s : State) : State := if s.timebaseRuns then withBoard part s else s

/-- What a command that is no reset does within its event. -/
def bodyOf (c : Instr) : State → State :=
  if isEntry c then entryBody (requestOf c)
  else if isTimed c then timedBody (timedPart c)
  else
    match c with
    | .startUp block _ => withBoard (startUp block)
    | .quiesceAssert _ => fun s => if s.takesEdges then withBoard assertQuiesce s else s
    | .quiesceRelease _ => fun s => if s.takesEdges ∧ s.quiesce then withBoard releaseQuiesce s else s
    | .handover id value _ => withBoard (takeHandover id value)
    | .workBaseWrite half value => writeWorkBase half value
    | .runSet _ => setRun
    | .runClear => clearRun
    | .abandon _ => withBoard takeAbandon
    | .restart _ => restart
    | .noticeEnableMaskWrite control => writeControl control.value
    | .noticeClear value => clearCauses value
    | .serviceStart _ => withBoard startWaiting
    | .batchClose _ => withBoard takeClose
    | .admission _ => withBoard tryAdmit
    | .origination _ => withBoard tryOriginate
    | _ => id

/-- The state in which a command's event begins: with the level of QUIESCE that the command brings. -/
def pinned (c : Instr) (s : State) : State :=
  match c with
  | .quiesceAssert _ => { s with quiescePin := true }
  | .quiesceRelease _ => { s with quiescePin := false }
  | _ => s

/-- A command that is neither a reset nor a fall of RESETN is one event. -/
theorem exec_eq_event (c : Instr) (s : State) (reset : isReset c = false) (fall : c ≠ .resetnFall) :
    exec c s = .next (event (envOf c) (bodyOf c) (pinned c s)) := by
  cases c with
  | powerOnReset => cases reset
  | pinReset => cases reset
  | resetnFall => exact absurd rfl fall
  | _ => rfl

/-! ## Which settings, registers and tables a command can reach -/

/-- A setting, register, base or table that few commands write. -/
inductive FixedItem where
  | settings | masterKey | quiesce | mask | workBase | boardBase | walkPosition | phase | profiles | branchMap | clamped
  deriving DecidableEq

/-- Two states hold the same in an item. -/
def FixedItem.same (s t : State) : FixedItem → Prop
  | .settings => t.settings = s.settings
  | .masterKey => t.masterKey = s.masterKey
  | .quiesce => t.quiesce = s.quiesce
  | .mask => t.mask = s.mask
  | .workBase => t.workBase = s.workBase
  | .boardBase => t.boardBase = s.boardBase
  | .walkPosition => t.walkPosition = s.walkPosition
  | .phase => t.phase = s.phase
  | .profiles => t.profiles = s.profiles
  | .branchMap => t.branchMap = s.branchMap
  | .clamped => t.clamped = s.clamped

/-- What a command that writes no item but those listed does. -/
structure Kept (items : List FixedItem) (s t : State) : Prop extends Flow s t where
  oneTimeStore : t.oneTimeStore = s.oneTimeStore
  quiescePin : t.quiescePin = s.quiescePin
  pending : t.pending = s.pending
  same : ∀ i, i ∉ items → i.same s t

namespace Kept
variable {items : List FixedItem}

theorem refl (s : State) : Kept items s s := ⟨.refl s, rfl, rfl, rfl, fun i _ => by cases i <;> rfl⟩

theorem trans (h : Kept items s t) (g : Kept items t u) : Kept items s u where
  toFlow := h.toFlow.trans g.toFlow
  oneTimeStore := g.oneTimeStore.trans h.oneTimeStore
  quiescePin := g.quiescePin.trans h.quiescePin
  pending := g.pending.trans h.pending
  same i out := by
    have first := h.same i out
    have second := g.same i out
    cases i <;> exact Eq.trans second first

theorem ite {c : Prop} [Decidable c] (h : c → Kept items s t) (g : ¬ c → Kept items s u) :
    Kept items s (if c then t else u) := by
  split
  · exact h ‹_›
  · exact g ‹_›

/-- What writes fewer items. -/
theorem mono {few : List FixedItem} (h : Kept few s t) (sub : few ⊆ items) : Kept items s t :=
  { h with same := fun i out => h.same i fun mem => out (sub mem) }

end Kept

/-- What an operation of the engine writes: the Branch Map and the profiles at most. -/
theorem Hosted.kept {items : List FixedItem} (h : Hosted map profiles s t) (hm : .branchMap ∈ items ∨ map := by simp)
    (hp : .profiles ∈ items ∨ profiles := by simp) : Kept items s t where
  toFlow := h.toFlow
  oneTimeStore := h.oneTimeStore
  quiescePin := h.quiescePin
  pending := h.pending
  same i out := by
    cases i with
    | settings => exact h.settings
    | masterKey => exact h.masterKey
    | quiesce => exact h.quiesce
    | mask => exact h.mask
    | workBase => exact h.workBase
    | boardBase => exact h.boardBase
    | walkPosition => exact h.walkPosition
    | phase => exact h.phase
    | clamped => exact h.clamped
    | profiles => exact h.profiles (hp.resolve_left out)
    | branchMap => exact h.branchMap (hm.resolve_left out)

theorem Quiet.kept {items : List FixedItem} (h : Quiet s t) : Kept items s t :=
  (h.served (map := True) (profiles := True)).toHosted.kept

/-- An update that makes no access and leaves what no command writes. -/
theorem kept_of_same {items : List FixedItem} (flow : Flow s t) (oneTimeStore : t.oneTimeStore = s.oneTimeStore)
    (quiescePin : t.quiescePin = s.quiescePin) (pending : t.pending = s.pending)
    (same : ∀ i, i ∉ items → i.same s t) : Kept items s t :=
  ⟨flow, oneTimeStore, quiescePin, pending, same⟩

section
variable {items : List FixedItem}

theorem kept_flushBoard (before s : State) : Kept items s (flushBoard before s) :=
  (served_flushBoard (map := True) (profiles := True) before s).toHosted.kept

theorem kept_withBoard {body : State → State} (h : ∀ s, Kept items s (body s)) (s : State) :
    Kept items s (withBoard body s) :=
  (h s).trans (kept_flushBoard s _)

theorem kept_fullBoardWrite (s : State) : Kept items s (fullBoardWrite s) :=
  (served_fullBoardWrite (map := True) (profiles := True) s).toHosted.kept

end

/-! ## The operations that write an item -/

theorem kept_setClamped (s : State) : Kept [.clamped] s (setClamped s) :=
  ⟨.of_same rfl rfl rfl rfl, rfl, rfl, rfl, fun i out => by cases i <;> simp_all [FixedItem.same, setClamped]⟩

theorem kept_setRunBase (s : State) : Kept [.boardBase] s (setRunBase s) :=
  ⟨.of_same rfl rfl rfl rfl, rfl, rfl, rfl, fun i out => by cases i <;> simp_all [FixedItem.same, setRunBase]⟩

theorem kept_setMask (mask : BitVec 5) (s : State) : Kept [.mask] s (setMask mask s) :=
  ⟨.of_same rfl rfl rfl rfl, rfl, rfl, rfl, fun i out => by cases i <;> simp_all [FixedItem.same, setMask]⟩

theorem kept_setSettings (v : Settings) (s : State) : Kept [.settings] s (setSettings v s) :=
  ⟨.of_same rfl rfl rfl rfl, rfl, rfl, rfl, fun i out => by cases i <;> simp_all [FixedItem.same, setSettings]⟩

theorem kept_takeMasterKey (s : State) : Kept [.masterKey] s (takeMasterKey s) :=
  ⟨.of_same rfl rfl rfl rfl, rfl, rfl, rfl, fun i out => by cases i <;> simp_all [FixedItem.same, takeMasterKey]⟩

theorem kept_clearLastDraw (s : State) : Kept [] s (clearLastDraw s) :=
  ⟨.of_same rfl rfl rfl rfl, rfl, rfl, rfl, fun i out => by cases i <;> simp_all [FixedItem.same, clearLastDraw]⟩

theorem kept_endStartUp (s : State) : Kept [.phase, .quiesce] s (endStartUp s) :=
  ⟨.of_same rfl rfl rfl rfl, rfl, rfl, rfl, fun i out => by cases i <;> simp_all [FixedItem.same, endStartUp]⟩

theorem kept_clearForRestart (s : State) : Kept [.phase, .clamped] s (clearForRestart s) :=
  ⟨.of_same rfl rfl rfl rfl, rfl, rfl, rfl, fun i out => by cases i <;> simp_all [FixedItem.same, clearForRestart]⟩

theorem kept_walkTo (k : Slot) (s : State) : Kept [.walkPosition] s (walkTo k s) :=
  ⟨.of_same rfl rfl rfl rfl, rfl, rfl, rfl, fun i out => by cases i <;> simp_all [FixedItem.same, walkTo]⟩

theorem kept_setPhase (n : Nat) (s : State) : Kept [.phase] s (setPhase n s) :=
  ⟨.of_same rfl rfl rfl rfl, rfl, rfl, rfl, fun i out => by cases i <;> simp_all [FixedItem.same, setPhase]⟩

theorem kept_setQuiesce (level : Bool) (s : State) : Kept [.quiesce] s { s with quiesce := level } :=
  ⟨.of_same rfl rfl rfl rfl, rfl, rfl, rfl, fun i out => by cases i <;> simp_all [FixedItem.same]⟩

theorem kept_clearCauses (value : Word) (s : State) : Kept [] s (clearCauses value s) :=
  ⟨.of_same rfl rfl rfl rfl, rfl, rfl, rfl, fun i out => by cases i <;> simp_all [FixedItem.same, clearCauses]⟩

theorem kept_writeWorkBase (half : BaseHalf) (value : Word) (s : State) : Kept [.workBase] s (writeWorkBase half value s) := by
  unfold writeWorkBase
  split
  · exact ⟨.of_same rfl rfl rfl rfl, rfl, rfl, rfl, fun i out => by cases i <;> simp_all [FixedItem.same]⟩
  · exact (quiet_setCause s _).kept

/-! ## The engine, start-up, RESTART and the registers -/

theorem kept_takeRun (s : State) : Kept [.boardBase] s (takeRun s) := (kept_setRunBase s).trans (kept_fullBoardWrite _)

theorem kept_setRun (s : State) : Kept [.boardBase] s (setRun s) := by
  unfold setRun
  refine .ite (fun _ => .refl s) fun _ => .ite (fun _ => (quiet_setCause s _).kept) fun _ => .ite (fun _ => kept_takeRun s) fun _ => ?_
  refine (kept_takeRun s).trans (kept_withBoard (fun s => ?_) _)
  split
  · exact (hosted_startService (map := True) (profiles := True) _ s).kept
  · exact (hosted_setEngine (map := True) (profiles := True) _ s).kept

theorem kept_clearRun (s : State) : Kept [] s (clearRun s) :=
  .ite (fun _ => (hosted_clearRunBit (map := True) (profiles := True) s).kept) (fun _ => .refl s)

theorem kept_takeAbandon (s : State) : Kept [] s (takeAbandon s) := by
  unfold takeAbandon
  split
  · exact (hosted_abandonRest (map := True) (profiles := True) _ s).kept
  · exact .refl s

theorem kept_startWaiting (s : State) : Kept [] s (startWaiting s) := by
  unfold startWaiting
  split
  · exact (hosted_startService (map := True) (profiles := True) _ s).kept
  · exact .refl s

theorem kept_takeClose (s : State) : Kept [] s (takeClose s) := by
  unfold takeClose
  split
  · exact (hosted_closeBatch (map := True) (profiles := True) _ s).kept
  · exact .refl s

theorem kept_takeHandover (id : BatchId) (value : Word) (s : State) : Kept [.clamped] s (takeHandover id value s) := by
  unfold takeHandover
  refine .ite (fun _ => (quiet_setCause s _).kept) fun _ => ?_
  dsimp only
  have marked : Kept [.clamped] s (if handoverCount value > 64 then setClamped s else s) :=
    .ite (fun _ => kept_setClamped s) (fun _ => .refl s)
  generalize (if handoverCount value > 64 then setClamped s else s) = v at marked ⊢
  refine marked.trans (.ite (fun _ => ?_) (fun _ => ?_))
  · exact ((hosted_setBatch (map := True) (profiles := True) v id _).trans (hosted_startService id _)).kept
  · exact ((hosted_setBatch (map := True) (profiles := True) v id _).trans (hosted_setFirstWaiting _ _)).kept

theorem kept_startUp (block : List Byte) (s : State) :
    Kept [.settings, .masterKey, .phase, .quiesce] s (startUp block s) := by
  unfold startUp
  refine .ite (fun _ => ?_) (fun _ => .refl s)
  have settings : Kept [.settings] s (loadSettings block s) :=
    .ite (fun _ => kept_setSettings _ s) (fun _ => (kept_setSettings _ s).trans (quiet_raiseDevice _ _).kept)
  have master (s : State) : Kept [.masterKey] s (readMasterKey s) :=
    .ite (fun _ => (kept_takeMasterKey s).trans (quiet_raiseDevice _ _).kept) (fun _ => kept_takeMasterKey s)
  exact (settings.mono (by simp)).trans (((master _).mono (by simp)).trans (((kept_clearLastDraw _).mono (by simp)).trans
    ((quiet_selfTest _).kept.trans ((kept_endStartUp _).mono (by simp)))))

theorem kept_restart (s : State) : Kept [.phase, .clamped] s (restart s) := by
  unfold restart
  refine .ite (fun _ => (quiet_setCause s _).kept) fun _ => ?_
  exact ((quiet_onEnrolled keeps_restartedRecord s).kept.trans (kept_clearForRestart _)).trans ((quiet_selfTest _).kept.trans (kept_fullBoardWrite _))

theorem kept_writeControl (control : Word) (s : State) :
    Kept [.mask, .boardBase, .phase, .clamped] s (writeControl control s) := by
  unfold writeControl
  refine .ite (fun _ => (kept_restart s).mono (by simp)) fun _ => ?_
  dsimp only
  have masked : Kept [.mask, .boardBase, .phase, .clamped] s (maskAndAbandon control s) :=
    .ite (fun _ => ((kept_setMask _ s).mono (by simp)).trans ((kept_takeAbandon _).mono (by simp)))
      (fun _ => (kept_setMask _ s).mono (by simp))
  generalize maskAndAbandon control s = v at masked ⊢
  have ran : Kept [.mask, .boardBase, .phase, .clamped] v (setRun v) := (kept_setRun v).mono (by simp)
  exact .ite (fun _ => masked.trans ran) fun _ =>
    masked.trans (Kept.trans (.ite (fun _ => ran) (fun _ => (kept_clearRun v).mono (by simp))) (kept_flushBoard s _))

/-! ## Every command -/

/-- The items that a command within its event writes. -/
def itemsOf (c : Instr) : List FixedItem :=
  match c with
  | .startUp .. => [.settings, .masterKey, .phase, .quiesce]
  | .quiesceAssert .. => [.quiesce]
  | .quiesceRelease .. => [.quiesce]
  | .noticeEnableMaskWrite .. => [.mask, .boardBase, .phase, .clamped]
  | .workBaseWrite .. => [.workBase]
  | .runSet .. => [.boardBase]
  | .restart .. => [.phase, .clamped]
  | .handover .. => [.clamped]
  | .scrubStep .. => [.walkPosition]
  | .periodMark => [.phase]
  | .setProfile .. => [.profiles]
  | .enrol .. => [.branchMap]
  | .retire .. => [.branchMap]
  | .setLink .. => [.branchMap]
  | _ => []

theorem Served.mono {map' profiles' : Prop} (h : Served map profiles s t) (hm : map' → map) (hp : profiles' → profiles) :
    Served map' profiles' s t :=
  { h with branchMap := fun m => h.branchMap (hm m), profiles := fun p => h.profiles (hp p) }

/-- What the request of an entry does: ENROL, RETIRE and SET_LINK alone reach the Branch Map, SET_PROFILE alone the
profiles. -/
theorem served_requestOf (c : Instr) (s : State) :
    Served (.branchMap ∉ itemsOf c) (.profiles ∉ itemsOf c) s (requestOf c s).2 := by
  cases c with
  | outbound e input _ => exact served_serveOutbound e input s
  | inbound e input _ => exact served_serveInbound e input s
  | enrol e input _ => exact (served_serveEnrol e input s).mono (fun h => h (by simp [itemsOf])) id
  | retire e _ => exact (served_serveRetire e s).mono (fun h => h (by simp [itemsOf])) id
  | setLink e input _ => exact (served_serveSetLink e input s).mono (fun h => h (by simp [itemsOf])) id
  | setProfile e input _ =>
    exact (served_withBlock (served_setProfileChecked e input) _ e s).mono id (fun h => h (by simp [itemsOf]))
  | hold e _ => exact served_serveHold e s
  | release e _ => exact served_serveRelease e s
  | renewNow e _ => exact served_serveRenewNow e s
  | readLink e _ => exact served_serveReadLink e s
  | readFaults e _ => exact served_serveReadFaults e s
  | readDevice e _ => exact served_serveReadDevice e s
  | _ => exact .refl s

theorem hosted_entryBody (c : Instr) (s : State) :
    Hosted (.branchMap ∉ itemsOf c) (.profiles ∉ itemsOf c) s (entryBody (requestOf c) s) := by
  unfold entryBody
  split
  · exact hosted_serveEntryOf (served_requestOf c) _ s
  · exact .refl s

theorem kept_timedBody {items : List FixedItem} {part : State → State} (h : ∀ s, Kept items s (part s)) (s : State) :
    Kept items s (timedBody part s) := .ite (fun _ => kept_withBoard h s) (fun _ => .refl s)

theorem kept_scrub (s : State) : Kept [.walkPosition] s (scrub s) := by
  unfold scrub
  split
  · exact .refl s
  · exact .ite (fun _ => kept_walkTo _ s) (fun _ => (kept_walkTo _ s).trans (quiet_raiseKind _ _ _).kept)

theorem kept_timedPart (c : Instr) (s : State) : Kept (itemsOf c) s (timedPart c s) := by
  cases c with
  | scrubStep _ => exact kept_scrub s
  | periodMark => exact kept_setPhase 0 s
  | periodMarkAtLink k _ => exact (quiet_markLink k s).kept
  | ageLimitReached k which _ => exact (quiet_reachAgeLimit k which s).kept
  | retireTimerExpiry k _ => exact (quiet_reachRetireTime k s).kept
  | restEnd k _ => exact (quiet_reachRestEnd k s).kept
  | periodMarkAtRenewalRecord n _ => exact (quiet_markRecord n s).kept
  | replyTimerExpiry n _ => exact (quiet_reachReplyExpiry n s).kept
  | _ => exact .refl s

/-- What a command can reach within its event. -/
theorem kept_bodyOf (c : Instr) (s : State) : Kept (itemsOf c) s (bodyOf c s) := by
  unfold bodyOf
  split
  · exact (hosted_entryBody c s).kept (Decidable.em _) (Decidable.em _)
  split
  · exact kept_timedBody (kept_timedPart c) s
  split
  · exact kept_withBoard (kept_startUp _) s
  · exact .ite (fun _ => kept_withBoard (kept_setQuiesce true) s) (fun _ => .refl s)
  · exact .ite (fun _ => kept_withBoard (fun s => (kept_setQuiesce false s).trans (quiet_tryOriginate _).kept) s) (fun _ => .refl s)
  · exact kept_withBoard (kept_takeHandover _ _) s
  · exact kept_writeWorkBase _ _ s
  · exact kept_setRun s
  · exact kept_clearRun s
  · exact kept_withBoard kept_takeAbandon s
  · exact kept_restart s
  · exact kept_writeControl _ s
  · exact kept_clearCauses _ s
  · exact kept_withBoard kept_startWaiting s
  · exact kept_withBoard kept_takeClose s
  · exact kept_withBoard (fun s => (quiet_tryAdmit s).kept) s
  · exact kept_withBoard (fun s => (quiet_tryOriginate s).kept) s
  · exact .refl s

/-! ## The engine's invariant within an event -/

theorem ok_withBoard {body : State → State} (h : ∀ s : State, s.engineOk → (body s).engineOk) (ok : s.engineOk) :
    (withBoard body s).engineOk :=
  (served_flushBoard (map := True) (profiles := True) s _).engineOk (h s ok)

theorem ok_setPhase (n : Nat) (ok : s.engineOk) : (setPhase n s).engineOk := ok

theorem ok_beginEvent (env : Env) (ok : s.engineOk) : (beginEvent env s).engineOk := ok

theorem base_endEvent (base : s.workBaseOk) : (endEvent s).workBaseOk := base

theorem ok_endEvent (ok : s.engineOk) : (endEvent s).engineOk := ok

theorem ok_scrub (ok : s.engineOk) : (scrub s).engineOk := by
  unfold scrub
  split
  · exact ok
  · dsimp only
    have walked : ∀ k, (walkTo k s).engineOk := fun k => engineOk_of_view rfl ok
    split
    · exact walked _
    · exact (quiet_raiseKind _ _ _).engineOk (walked _)

theorem ok_timedPart (c : Instr) (ok : s.engineOk) : (timedPart c s).engineOk := by
  cases c <;> simp only [timedPart]
  case scrubStep => exact ok_scrub ok
  case periodMark => exact ok_setPhase 0 ok
  case periodMarkAtLink k _ => exact (quiet_markLink k s).engineOk ok
  case ageLimitReached k which _ => exact (quiet_reachAgeLimit k which s).engineOk ok
  case retireTimerExpiry k _ => exact (quiet_reachRetireTime k s).engineOk ok
  case restEnd k _ => exact (quiet_reachRestEnd k s).engineOk ok
  case periodMarkAtRenewalRecord n _ => exact (quiet_markRecord n s).engineOk ok
  case replyTimerExpiry n _ => exact (quiet_reachReplyExpiry n s).engineOk ok
  all_goals exact ok

theorem ok_entryBody (c : Instr) (ok : s.engineOk) : (entryBody (requestOf c) s).engineOk := by
  unfold entryBody
  split
  · rename_i id due
    exact serveEntryOf_ok (served_requestOf c) due ok
  · exact ok

/-- A command's event keeps the engine in agreement with the batches. -/
theorem ok_bodyOf (c : Instr) (ok : s.engineOk) : (bodyOf c s).engineOk := by
  unfold bodyOf
  split
  · exact ok_entryBody c ok
  split
  · unfold timedBody
    split
    · exact ok_withBoard (fun s => ok_timedPart c) ok
    · exact ok
  split
  · exact ok_withBoard (fun s => startUp_ok _) ok
  · split
    · exact ok_withBoard (fun s ok => engineOk_of_view rfl ok) ok
    · exact ok
  · split
    · exact ok_withBoard (fun s ok => (quiet_tryOriginate _).engineOk (engineOk_of_view rfl ok)) ok
    · exact ok
  · exact ok_withBoard (fun s => takeHandover_ok _ _) ok
  · unfold writeWorkBase
    split
    · exact engineOk_of_view rfl ok
    · exact engineOk_of_view rfl ok
  · exact setRun_ok ok
  · exact clearRun_ok ok
  · exact ok_withBoard (fun s => takeAbandon_ok) ok
  · exact restart_ok ok
  · exact writeControl_ok _ ok
  · exact engineOk_of_view rfl ok
  · exact ok_withBoard (fun s => startWaiting_ok) ok
  · exact ok_withBoard (fun s => takeClose_ok) ok
  · exact ok_withBoard (fun s => (quiet_tryAdmit s).engineOk) ok
  · exact ok_withBoard (fun s => (quiet_tryOriginate s).engineOk) ok
  · exact ok

/-- The work base stays aligned. -/
theorem base_bodyOf (c : Instr) (base : s.workBaseOk) : (bodyOf c s).workBaseOk := by
  by_cases write : FixedItem.workBase ∈ itemsOf c
  · cases c <;> simp [itemsOf] at write
    exact writeWorkBase_ok _ _ base
  · have same : (bodyOf c s).workBase = s.workBase := (kept_bodyOf c s).same .workBase write
    rw [State.workBaseOk, same]
    exact base

/-! ## The engine follows the batches -/

theorem reset_engineOk (resetn quiescePin : Bool) (store : Key) (m : Memory) (n : Nat) (pending : List Instr) :
    State.engineOk { State.reset with
      resetn := resetn, quiescePin := quiescePin, oneTimeStore := store, hostMem := m, drawCount := n, pending := pending } :=
  engineOk_of_freed rfl rfl rfl rfl rfl (.inl rfl)

theorem reset_aligned : State.reset.workBaseOk := by
  rw [State.workBaseOk]
  decide

theorem engineOk_exec {c : Instr} (ok : s.engineOk) (base : s.workBaseOk) (h : exec c s = .next t) :
    t.engineOk ∧ t.workBaseOk := by
  by_cases reset : isReset c = false ∧ c ≠ .resetnFall
  · rw [exec_eq_event c s reset.1 reset.2] at h
    have ok : (pinned c s).engineOk := by
      unfold pinned
      split <;> exact engineOk_of_view rfl ok
    have base : (pinned c s).workBaseOk := by
      unfold pinned
      split <;> exact base
    cases h
    generalize pinned c s = s at ok base
    unfold event
    split
    · exact ⟨ok_endEvent (ok_bodyOf c (ok_beginEvent _ ok)), base_bodyOf c (s := beginEvent (envOf c) s) base⟩
    · exact ⟨ok, base⟩
  · cases c with
    | powerOnReset =>
      cases h
      exact ⟨reset_engineOk _ _ _ _ _ _, reset_aligned⟩
    | pinReset =>
      cases h
      exact ⟨reset_engineOk _ _ _ _ _ _, reset_aligned⟩
    | resetnFall => cases h; exact ⟨engineOk_of_view rfl ok, base⟩
    | _ => exact absurd ⟨rfl, by simp⟩ reset

theorem ok_markEverywhere (ok : s.engineOk) : (markEverywhere s).engineOk := by
  have walk {β : Type} {f : State → β → State} (h : ∀ s b, Served True True s (f s b)) (l : List β) (s : State)
      (ok : s.engineOk) : (l.foldl f s).engineOk := (Served.foldl h l s).engineOk ok
  exact walk (fun s n => (quiet_markRecord n s).served.trans (served_flushBoard s _)) _ _
    (walk (fun s k => (quiet_markLink k s).served.trans (served_flushBoard s _)) _ _ ok)

theorem kept_markEverywhere (s : State) : Kept [] s (markEverywhere s) := by
  have walk {β : Type} {f : State → β → State} (h : ∀ s b, Hosted True True s (f s b)) (l : List β) (s : State) :
      Hosted True True s (l.foldl f s) := .foldl h l s
  exact ((walk (fun s k => ((quiet_markLink k s).served.trans (served_flushBoard s _)).toHosted) allSlots s).trans
    (walk (fun s n => ((quiet_markRecord n s).served.trans (served_flushBoard s _)).toHosted) allRecordNumbers _)).kept

theorem kept_millisecond (s : State) : Kept [.phase, .walkPosition] s (millisecond s) := by
  unfold millisecond
  dsimp only
  refine (kept_withBoard (fun s => (kept_scrub s).mono (by simp)) s).trans (.ite (fun _ => ?_) (fun _ => ?_))
  · exact ((kept_setPhase 0 _).mono (by simp)).trans ((kept_markEverywhere _).mono (by simp))
  · exact (kept_setPhase _ _).mono (by simp)

theorem ok_millisecond (ok : s.engineOk) : (millisecond s).engineOk := by
  unfold millisecond
  dsimp only
  have scrubbed := ok_withBoard (fun s => ok_scrub) ok
  generalize withBoard scrub s = v at scrubbed ⊢
  split
  · exact ok_markEverywhere (engineOk_of_view rfl scrubbed)
  · exact engineOk_of_view rfl scrubbed

theorem engineOk_idleStep (ok : s.engineOk) (base : s.workBaseOk) : (idleStep s).engineOk ∧ (idleStep s).workBaseOk := by
  unfold idleStep
  split
  · refine ⟨ok_endEvent (ok_millisecond (ok_beginEvent _ ok)), ?_⟩
    have same : (millisecond (beginEvent .plain s)).workBase = s.workBase :=
      (kept_millisecond (beginEvent .plain s)).same .workBase (by decide)
    refine base_endEvent ?_
    rw [State.workBaseOk, same]
    exact base
  · exact ⟨ok, base⟩

/-- Settles O12: each command's event keeps the engine's state in agreement with the batches, and so does a millisecond
of the timebase. -/
theorem engineFollowsTheBatches : Obligations.EngineFollowsTheBatches := by
  intro s t ok base h
  unfold step at h
  split at h
  · cases h; exact engineOk_idleStep ok base
  · rename_i rest _
    exact engineOk_exec (s := { s with pending := rest }) (engineOk_of_view rfl ok) base h

end Sys2Proof.Machine
end

