-- ==== Sys2Proof/Proofs/Writers.lean ====
section
/-! PROOFS. Every command completes, and the settings, registers, bases and tables that each command leaves alone. -/

namespace Sys2Proof.Machine
variable {s t : State}

/-! ## Every command completes -/

theorem pinned_pending (c : Instr) (s : State) : (pinned c s).pending = s.pending := by
  unfold pinned
  split <;> rfl

theorem event_of_low {env : Env} {body : State → State} (low : s.resetn = false) : event env body s = s := by
  rw [event, if_neg (by rw [low]; decide)]

theorem event_of_high {env : Env} {body : State → State} (high : s.resetn = true) :
    event env body s = endEvent (body (beginEvent env s)) := if_pos high

/-- A command's event leaves the queue of commands, and no outcome or draw of its own. -/
theorem event_completes (c : Instr) (s : State) :
    (event (envOf c) (bodyOf c) s).pending = s.pending ∧
      (s.bus = [] → s.noise = [] → (event (envOf c) (bodyOf c) s).bus = [] ∧ (event (envOf c) (bodyOf c) s).noise = []) := by
  by_cases high : s.resetn = true
  · rw [event_of_high high]
    exact ⟨(kept_bodyOf c (beginEvent (envOf c) s)).pending, fun _ _ => ⟨rfl, rfl⟩⟩
  · rw [event_of_low (by simpa using high)]
    exact ⟨rfl, fun bus noise => ⟨bus, noise⟩⟩

theorem pinned_eq {c : Instr} (h : actsInReset c = false) (s : State) : pinned c s = s := by
  unfold pinned
  split
  · cases h
  · cases h
  · rfl

theorem bus_pinned (c : Instr) (s : State) : (pinned c s).bus = s.bus ∧ (pinned c s).noise = s.noise := by
  unfold pinned
  split <;> exact ⟨rfl, rfl⟩

/-- Settles O3: a command is a reset, a fall of RESETN, or one event, and none of these has another outcome than a next
state. -/
theorem everyCommandCompletes : Obligations.EveryCommandCompletes := by
  refine ⟨fun c s => ?_, fun c s low acts => ?_⟩
  · by_cases single : isReset c = false ∧ c ≠ .resetnFall
    · refine ⟨_, exec_eq_event c s single.1 single.2, ?_⟩
      obtain ⟨pending, quiet⟩ := event_completes c (pinned c s)
      rw [pinned_pending] at pending
      rw [(bus_pinned c s).1, (bus_pinned c s).2] at quiet
      exact ⟨pending, quiet⟩
    · cases c with
      | powerOnReset => exact ⟨_, rfl, rfl, fun _ _ => ⟨rfl, rfl⟩⟩
      | pinReset => exact ⟨_, rfl, rfl, fun _ _ => ⟨rfl, rfl⟩⟩
      | resetnFall => exact ⟨_, rfl, rfl, fun bus noise => ⟨bus, noise⟩⟩
      | _ => exact absurd ⟨rfl, by simp⟩ single
  · have reset : isReset c = false := by cases c <;> simp_all [isReset, actsInReset]
    have fall : c ≠ .resetnFall := by rintro rfl; cases acts
    rw [exec_eq_event c s reset fall, pinned_eq acts, event_of_low low]

/-! ## What each command leaves alone -/

/-- What a command that is neither a reset nor a fall of RESETN leaves alone. -/
theorem exec_frame {c : Instr} (reset : isReset c = false) (fall : c ≠ .resetnFall) (h : exec c s = .next t) :
    t.oneTimeStore = s.oneTimeStore ∧ t.quiescePin = (pinned c s).quiescePin ∧
      ((∀ landed, .fall landed ∉ (envOf c).bus) → t.resetn = s.resetn) ∧ ∀ i, i ∉ itemsOf c → i.same s t := by
  rw [exec_eq_event c s reset fall] at h
  cases h
  have pin : (pinned c s).oneTimeStore = s.oneTimeStore ∧ (pinned c s).resetn = s.resetn ∧
      ∀ i : FixedItem, i.same s (pinned c s) := by
    unfold pinned
    split <;> exact ⟨rfl, rfl, fun i => by cases i <;> rfl⟩
  obtain ⟨store, resetn, items⟩ := pin
  by_cases high : (pinned c s).resetn = true
  · rw [event_of_high high]
    have kept := kept_bodyOf c (beginEvent (envOf c) (pinned c s))
    refine ⟨kept.oneTimeStore.trans store, kept.quiescePin, fun none => (kept.noFall none).2.trans resetn, fun i out => ?_⟩
    have one := items i
    have two := kept.same i out
    cases i <;> exact Eq.trans two one
  · rw [event_of_low (by simpa using high)]
    exact ⟨store, rfl, fun _ => resetn, fun i _ => items i⟩

/-! ## The writers of each item -/

theorem not_writes_settings {c : Instr} (other : !(c matches .startUp ..)) : FixedItem.settings ∉ itemsOf c := by
  unfold itemsOf
  split <;> simp_all

theorem not_writes_masterKey {c : Instr} (other : !(c matches .startUp ..)) : FixedItem.masterKey ∉ itemsOf c := by
  unfold itemsOf
  split <;> simp_all

theorem not_writes_quiesce {c : Instr} (other : !(c matches .startUp .. | .quiesceAssert .. | .quiesceRelease ..)) : FixedItem.quiesce ∉ itemsOf c := by
  unfold itemsOf
  split <;> simp_all

theorem not_writes_mask {c : Instr} (other : !(c matches .noticeEnableMaskWrite ..)) : FixedItem.mask ∉ itemsOf c := by
  unfold itemsOf
  split <;> simp_all

theorem not_writes_workBase {c : Instr} (other : !(c matches .workBaseWrite ..)) : FixedItem.workBase ∉ itemsOf c := by
  unfold itemsOf
  split <;> simp_all

theorem not_writes_boardBase {c : Instr} (other : !(c matches .runSet .. | .noticeEnableMaskWrite ..)) : FixedItem.boardBase ∉ itemsOf c := by
  unfold itemsOf
  split <;> simp_all

theorem not_writes_walkPosition {c : Instr} (other : !(c matches .scrubStep ..)) : FixedItem.walkPosition ∉ itemsOf c := by
  unfold itemsOf
  split <;> simp_all

theorem not_writes_phase {c : Instr} (other : !(c matches .startUp .. | .periodMark | .restart .. | .noticeEnableMaskWrite ..)) : FixedItem.phase ∉ itemsOf c := by
  unfold itemsOf
  split <;> simp_all

theorem not_writes_profiles {c : Instr} (other : !(c matches .setProfile ..)) : FixedItem.profiles ∉ itemsOf c := by
  unfold itemsOf
  split <;> simp_all

theorem not_writes_branchMap {c : Instr} (other : !(c matches .enrol .. | .retire .. | .setLink ..)) : FixedItem.branchMap ∉ itemsOf c := by
  unfold itemsOf
  split <;> simp_all

theorem not_writes_clamped {c : Instr} (other : !(c matches .handover .. | .restart .. | .noticeEnableMaskWrite ..)) : FixedItem.clamped ∉ itemsOf c := by
  unfold itemsOf
  split <;> simp_all

/-- Settles O4: an event reaches the items of its own command alone (`kept_bodyOf`). -/
theorem eachFieldHasItsWriters : Obligations.EachFieldHasItsWriters := by
  intro c s t h
  by_cases single : isReset c = false ∧ c ≠ .resetnFall
  · obtain ⟨store, pin, resetn, same⟩ := exec_frame single.1 single.2 h
    refine ⟨store, fun _ => resetn, fun still => ?_, fun _ => ⟨?_, ?_, ?_, ?_, ?_, ?_, ?_, ?_, ?_, ?_⟩⟩
    · rw [pin]
      unfold pinned
      split
      · cases still
      · cases still
      · rfl
    · exact fun other => ⟨same .settings (not_writes_settings other), same .masterKey (not_writes_masterKey other)⟩
    · exact fun other => same .quiesce (not_writes_quiesce other)
    · exact fun other => same .mask (not_writes_mask other)
    · exact fun other => same .workBase (not_writes_workBase other)
    · exact fun other => same .boardBase (not_writes_boardBase other)
    · exact fun other => same .walkPosition (not_writes_walkPosition other)
    · exact fun other => same .phase (not_writes_phase other)
    · exact fun other => same .profiles (not_writes_profiles other)
    · exact fun other => same .branchMap (not_writes_branchMap other)
    · exact fun other => same .clamped (not_writes_clamped other)
  · cases c with
    | powerOnReset =>
      cases h
      exact ⟨rfl, fun _ _ => rfl, fun _ => rfl, fun no => (by cases no)⟩
    | pinReset =>
      cases h
      exact ⟨rfl, fun no => (by cases no), fun _ => rfl, fun no => (by cases no)⟩
    | resetnFall =>
      cases h
      exact ⟨rfl, fun no => (by cases no), fun _ => rfl, fun _ => ⟨fun _ => ⟨rfl, rfl⟩, fun _ => rfl, fun _ => rfl, fun _ => rfl,
        fun _ => rfl, fun _ => rfl, fun _ => rfl, fun _ => rfl, fun _ => rfl, fun _ => rfl⟩⟩
    | _ => exact absurd ⟨rfl, by simp⟩ single

end Sys2Proof.Machine
end

