-- ==== Sys2Proof/Proofs/Board.lean ====
section
/-! PROOFS. The fault board: the layout of a link slot and of the device slot, and that every command shows on the board what it has changed there. -/

namespace Sys2Proof.Machine
variable {s t u : State}

/-! ## Bits packed into bytes -/

theorem testBit_ofBits (bits : List Bool) (i : Nat) : (ofBits bits).testBit i = bits.getD i false := by
  induction bits generalizing i with
  | nil => simp [ofBits]
  | cons b rest ih =>
    have e : ofBits (b :: rest) = (if b then 1 else 0) + 2 * ofBits rest := rfl
    cases i with
    | zero => cases b <;> simp [e, Nat.testBit_zero]
    | succ i =>
      have half : ofBits (b :: rest) / 2 = ofBits rest := by rw [e]; cases b <;> (simp <;> omega)
      rw [Nat.testBit_succ, half, ih, List.getD_cons_succ]

theorem ofBits_lt (bits : List Bool) : ofBits bits < 2 ^ bits.length := by
  induction bits with
  | nil => simp [ofBits]
  | cons b rest ih =>
    rw [ofBits, List.length_cons, Nat.pow_succ]
    cases b <;> (simp; omega)

/-- The bits of a field that holds packed bits. -/
theorem testBit_field {bits : List Bool} {n : Nat} (h : bits.length ≤ 8 * n) (i : Nat) :
    (ofLe (leBytes n (ofBits bits))).testBit i = bits.getD i false := by
  have small : ofBits bits < 256 ^ n := by
    rw [show 256 = 2 ^ 8 from rfl, ← Nat.pow_mul]
    exact (ofBits_lt bits).trans_le (Nat.pow_le_pow_right (by decide) h)
  rw [ofLe_leBytes, Nat.mod_eq_of_lt small, testBit_ofBits]

theorem toList_nine {α : Type} (v : Vector α 9) : v.toList = [v[0], v[1], v[2], v[3], v[4], v[5], v[6], v[7], v[8]] := by
  refine List.ext_getElem (by simp) fun i h _ => ?_
  have h : i < 9 := by simpa using h
  interval_cases i <;> rfl

theorem getD_kinds (l : Link) (f : KindRecord → Bool) (i : Fin 9) : (l.kinds.toList.map f).getD i false = f l.kinds[i] := by
  have h : (i : Nat) < (l.kinds.toList.map f).length := by simp
  rw [List.getD_eq_getElem?_getD, List.getElem?_eq_getElem h]
  simp

/-! ## What the slots show -/

/-- The fields of an enrolled link's board slot, in order. -/
def linkSlotFields (s : State) (k : Slot) : List (Nat × Nat) :=
  let l := s.link k
  [(1, l.state.code), (1, holdMarks l), (1, l.renewal.code), (1, s.attemptOf k), (1, l.current.generation),
    (1, l.retiring.generation), (1, l.profile.val), (1, 0), (2, activeStates l), (2, overflowMarks l),
    (2, recentShopCode l), (2, l.kinds[0].counter), (2, l.kinds[1].counter), (2, l.kinds[2].counter),
    (2, l.kinds[3].counter), (2, l.kinds[4].counter), (2, l.kinds[5].counter), (2, l.kinds[6].counter),
    (2, l.kinds[7].counter), (2, l.kinds[8].counter)]

theorem linkSlotBytes_eq_layout {k : Slot} (h : (s.link k).state ≠ .vacant) :
    linkSlotBytes s k = layout (linkSlotFields s k) := by
  rw [linkSlotBytes, if_neg h]
  simp only [counterBytes, toList_nine, zeroBytes_eq, linkSlotFields, layout, List.flatMap_cons, List.flatMap_nil,
    List.append_nil, List.append_assoc]

theorem linkSlotBytes_vacant {k : Slot} (h : (s.link k).state = .vacant) : linkSlotBytes s k = List.replicate 32 0 := by
  rw [linkSlotBytes, if_pos h, zeroBytes]

/-- The fields of the device slot, in order. -/
def deviceSlotFields (s : State) : List (Nat × Nat) :=
  [(1, s.deviceFlags), (1, 0), (1, s.recordsInUse), (1, s.queue.length), (2, s.dueLength),
    (2, s.device.unknownBranchCount), (24, 0)]

theorem deviceSlotBytes_eq_layout (s : State) : deviceSlotBytes s = layout (deviceSlotFields s) := by
  simp only [deviceSlotBytes, zeroBytes_eq, deviceSlotFields, layout, List.flatMap_cons, List.flatMap_nil,
    List.append_nil, List.append_assoc]

theorem linkSlotFields_sizes (s : State) (k : Slot) :
    (linkSlotFields s k).map Prod.fst = [1, 1, 1, 1, 1, 1, 1, 1, 2, 2, 2, 2, 2, 2, 2, 2, 2, 2, 2, 2] := rfl

theorem deviceSlotFields_sizes (s : State) : (deviceSlotFields s).map Prod.fst = [1, 1, 1, 1, 2, 2, 24] := rfl

/-- A field found by the sizes of those before it. -/
theorem bytesAt_sized {fields : List (Nat × Nat)} {sizes : List Nat} {o n v : Nat} (i : Nat)
    (field : fields[i]? = some (n, v)) (sized : fields.map Prod.fst = sizes) (offset : (sizes.take i).sum = o) :
    bytesAt (layout fields) o n = leBytes n v :=
  bytesAt_layout i field (by rw [List.map_take, sized]; exact offset)

/-- The slot of the counter of a kind. -/
theorem counter_field (s : State) (k : Slot) (i : Fin 9) :
    bytesAt (layout (linkSlotFields s k)) (14 + 2 * i) 2 = leBytes 2 (s.link k).kinds[i].counter := by
  obtain ⟨i, hi⟩ := i
  interval_cases i
  · show bytesAt (layout (linkSlotFields s k)) 14 2 = leBytes 2 (s.link k).kinds[0].counter
    exact bytesAt_sized 11 rfl (linkSlotFields_sizes s k) rfl
  · show bytesAt (layout (linkSlotFields s k)) 16 2 = leBytes 2 (s.link k).kinds[1].counter
    exact bytesAt_sized 12 rfl (linkSlotFields_sizes s k) rfl
  · show bytesAt (layout (linkSlotFields s k)) 18 2 = leBytes 2 (s.link k).kinds[2].counter
    exact bytesAt_sized 13 rfl (linkSlotFields_sizes s k) rfl
  · show bytesAt (layout (linkSlotFields s k)) 20 2 = leBytes 2 (s.link k).kinds[3].counter
    exact bytesAt_sized 14 rfl (linkSlotFields_sizes s k) rfl
  · show bytesAt (layout (linkSlotFields s k)) 22 2 = leBytes 2 (s.link k).kinds[4].counter
    exact bytesAt_sized 15 rfl (linkSlotFields_sizes s k) rfl
  · show bytesAt (layout (linkSlotFields s k)) 24 2 = leBytes 2 (s.link k).kinds[5].counter
    exact bytesAt_sized 16 rfl (linkSlotFields_sizes s k) rfl
  · show bytesAt (layout (linkSlotFields s k)) 26 2 = leBytes 2 (s.link k).kinds[6].counter
    exact bytesAt_sized 17 rfl (linkSlotFields_sizes s k) rfl
  · show bytesAt (layout (linkSlotFields s k)) 28 2 = leBytes 2 (s.link k).kinds[7].counter
    exact bytesAt_sized 18 rfl (linkSlotFields_sizes s k) rfl
  · show bytesAt (layout (linkSlotFields s k)) 30 2 = leBytes 2 (s.link k).kinds[8].counter
    exact bytesAt_sized 19 rfl (linkSlotFields_sizes s k) rfl

theorem holdMarks_eq (l : Link) :
    holdMarks l = (if l.hostHold then 1 else 0) + (if l.supervisorHold then 2 else 0) := by
  unfold holdMarks ofBits ofBits ofBits
  cases l.hostHold <;> cases l.supervisorHold <;> rfl

/-! ## What is written is what is shown -/

theorem slotChanged_iff {k : Slot} : slotChanged s t k = true ↔ linkSlotBytes s k ≠ linkSlotBytes t k := by
  unfold slotChanged
  split
  · rename_i h
    simp [linkSlotBytes, h.1, h.2]
  · simp

/-- Every slot that shows other bytes after an operation is among the writes posted, with those bytes; no write posted
before is lost, and every access that is left succeeds. -/
structure Shown (s t : State) : Prop where
  clean : t.busClean
  posted : s.posted ⊆ t.posted
  shown : boardShown s t

namespace Shown

theorem refl (h : s.busClean) : Shown s s :=
  ⟨h, fun _ hw => hw, fun _ _ => ⟨fun _ c => absurd rfl (slotChanged_iff.1 c), fun c => absurd rfl c⟩⟩

theorem trans (h : Shown s t) (g : Shown t u) (base : u.boardBase = t.boardBase) : Shown s u where
  clean := g.clean
  posted := fun _ hw => g.posted (h.posted hw)
  shown b hb := by
    obtain ⟨links, device⟩ := h.shown b (base ▸ hb)
    obtain ⟨links', device'⟩ := g.shown b hb
    refine ⟨fun k changed => ?_, fun changed => ?_⟩
    · by_cases same : linkSlotBytes t k = linkSlotBytes u k
      · have before : linkSlotBytes s k ≠ linkSlotBytes t k := by rw [same]; exact slotChanged_iff.1 changed
        rw [← same]
        exact g.posted (links k (slotChanged_iff.2 before))
      · exact links' k (slotChanged_iff.2 same)
    · by_cases same : deviceSlotBytes t = deviceSlotBytes u
      · rw [← same]
        exact g.posted (device (by rw [same]; exact changed))
      · exact device' same

end Shown

theorem mem_boardWrites {base : Address} (h : t.boardBase = some base) {w : HostWrite} : w ∈ boardWrites s t ↔
    (∃ k, slotChanged s t k = true ∧ w = ⟨boardSlotAddress base k.val, linkSlotBytes t k⟩) ∨
      deviceSlotBytes s ≠ deviceSlotBytes t ∧ w = ⟨boardSlotAddress base 512, deviceSlotBytes t⟩ := by
  unfold boardWrites
  rw [h]
  dsimp only
  rw [List.mem_append]
  refine or_congr ?_ ?_
  · simp only [List.mem_map, List.mem_filter, allSlots, List.mem_finRange, true_and]
    exact ⟨fun ⟨k, c, e⟩ => ⟨k, c, e.symm⟩, fun ⟨k, c, e⟩ => ⟨k, c, e.symm⟩⟩
  · split <;> simp_all

/-- The board writes of an event show all that it has changed. -/
theorem shown_flushBoard (h : Flow s t) (clean : s.busClean) : Shown s (flushBoard s t) := by
  obtain ⟨tclean, ws, posted, _⟩ := h.clean clean
  rw [flushBoard_clean s tclean]
  refine ⟨State.busClean_wrote tclean _ _, ?_, fun base hb => ⟨fun k changed => ?_, fun changed => ?_⟩⟩
  · rw [State.wrote_posted, posted]
    exact fun w hw => List.mem_append_left _ (List.mem_append_left _ hw)
  · exact List.mem_append_right _ ((mem_boardWrites hb).2 (.inl ⟨k, changed, rfl⟩))
  · exact List.mem_append_right _ ((mem_boardWrites hb).2 (.inr ⟨changed, rfl⟩))

theorem shown_withBoard {body : State → State} (h : Flow s (body s)) (clean : s.busClean) : Shown s (withBoard body s) :=
  shown_flushBoard h clean

/-- A full board write shows every slot. -/
theorem shown_fullBoardWrite (h : Flow s t) (clean : s.busClean) : Shown s (fullBoardWrite t) := by
  obtain ⟨tclean, ws, posted, _⟩ := h.clean clean
  rw [fullBoardWrite_clean tclean]
  refine ⟨State.busClean_wrote tclean _ _, ?_, fun base hb => ?_⟩
  · rw [State.wrote_posted, posted]
    exact fun w hw => List.mem_append_left _ (List.mem_append_left _ hw)
  · have hb : t.boardBase = some base := hb
    have all : (t.wrote (fullWrites t).length (fullWrites t)).posted = t.posted ++
        (allSlots.map (fun k => ⟨boardSlotAddress base k.val, linkSlotBytes t k⟩) ++
          [⟨boardSlotAddress base 512, deviceSlotBytes t⟩]) := by
      rw [State.wrote_posted, fullWrites, hb]
    rw [all]
    refine ⟨fun k _ => ?_, fun _ => ?_⟩
    · exact List.mem_append_right _ (List.mem_append_left _ (List.mem_map.2 ⟨k, List.mem_finRange k, rfl⟩))
    · exact List.mem_append_right _ (List.mem_append_right _ (List.mem_singleton.2 rfl))

/-- What reaches nothing that the board shows. -/
theorem shown_of_same (h : Flow s t) (clean : s.busClean) (links : t.links = s.links) (records : t.records = s.records)
    (device : t.device = s.device) (quiesce : t.quiesce = s.quiesce) (queue : t.queue = s.queue)
    (dueList : t.dueList = s.dueList) : Shown s t := by
  obtain ⟨tclean, ws, posted, _⟩ := h.clean clean
  refine ⟨tclean, by rw [posted]; exact List.subset_append_left _ _, fun base _ => ⟨fun k changed => ?_, fun changed => ?_⟩⟩
  · exact absurd (linkSlotBytes_congr links records k).symm (slotChanged_iff.1 changed)
  · exact absurd (deviceSlotBytes_congr device quiesce records queue dueList).symm changed

theorem shown_setCause (cause : Cause) (clean : s.busClean) : Shown s (s.setCause cause) :=
  shown_of_same (Flow.of_same rfl rfl rfl rfl) clean rfl rfl rfl rfl rfl rfl

/-! ## Each command -/

theorem shown_serveEntryOf (c : Instr) (id : BatchId) (clean : s.busClean) : Shown s (serveEntryOf id (requestOf c) s) := by
  rw [serveEntryOf_eq]
  have request := served_requested (served_requestOf c) s
  have first : Shown s (flushBoard s (requested (requestOf c) s).2) := shown_flushBoard request.toFlow clean
  generalize hv : flushBoard s (requested (requestOf c) s).2 = v at first
  have base : (flushBoard v (completeEntry id (requested (requestOf c) s).1 v)).boardBase = v.boardBase :=
    ((hosted_completeEntry (map := True) (profiles := True) id _ v).trans (served_flushBoard v _).toHosted).boardBase
  exact first.trans (shown_flushBoard (hosted_completeEntry (map := True) (profiles := True) id _ v).toFlow first.clean) base

theorem shown_setRun (h : Flow s t) (clean : s.busClean) (takes : t.takesRun = true) : Shown s (setRun t) := by
  have run : t.run = false ∧ t.engine ≠ .starting ∧ t.faultStop = false := by
    simpa [State.takesRun, and_assoc] using takes
  have full : Shown s (takeRun t) := shown_fullBoardWrite (h.trans (Flow.of_same rfl rfl rfl rfl)) clean
  unfold setRun
  rw [if_neg (by simp [run.1]), if_neg (by simp [run.2.1, run.2.2])]
  split
  · exact full
  · have flow (s : State) : Hosted True True s (match s.firstWaiting with
        | some id => startService id s
        | none => setEngine .idle s) := by
      split
      · exact hosted_startService _ s
      · exact hosted_setEngine _ s
    dsimp only
    generalize takeRun t = v at full ⊢
    exact full.trans (shown_withBoard (flow v).toFlow full.clean) ((flow v).trans (served_flushBoard v _).toHosted).boardBase

theorem shown_setRun_alone (clean : s.busClean) : Shown s (setRun s) := by
  by_cases takes : s.takesRun = true
  · exact shown_setRun (.refl s) clean takes
  · unfold setRun
    split
    · exact .refl clean
    · rename_i run
      have blocked : s.engine = .starting ∨ s.faultStop = true := by
        by_contra c
        rw [not_or] at c
        exact takes (by simpa [State.takesRun, run] using c)
      rw [if_pos blocked]
      exact shown_setCause _ clean

theorem shown_restart (clean : s.busClean) : Shown s (restart s) := by
  unfold restart
  split
  · exact shown_setCause _ clean
  · refine shown_fullBoardWrite ?_ clean
    exact (((quiet_onEnrolled keeps_restartedRecord s).kept (items := [.phase, .clamped])).trans (kept_clearForRestart _)).toFlow.trans
      ((quiet_selfTest _).kept (items := [])).toFlow

theorem shown_writeControl (control : Word) (clean : s.busClean) : Shown s (writeControl control s) := by
  unfold writeControl
  split
  · exact shown_restart clean
  dsimp only
  have masked : Kept [.mask] s (maskAndAbandon control s) :=
    .ite (fun _ => (kept_setMask _ s).trans ((kept_takeAbandon _).mono (by simp))) (fun _ => kept_setMask _ s)
  generalize maskAndAbandon control s = v at masked ⊢
  split
  · rename_i takes
    exact shown_setRun masked.toFlow clean (by simpa using (Bool.and_eq_true_iff.1 takes).2)
  · refine shown_flushBoard (masked.toFlow.trans ?_) clean
    split
    · exact (kept_setRun v).toFlow
    · exact (kept_clearRun v).toFlow

theorem shown_bodyOf (c : Instr) (clean : s.busClean) : Shown s (bodyOf c s) := by
  have flow := (kept_bodyOf c s).toFlow
  unfold bodyOf at flow ⊢
  split
  · unfold entryBody
    split
    · exact shown_serveEntryOf c _ clean
    · exact .refl clean
  split
  · unfold timedBody
    split
    · exact shown_withBoard (kept_timedPart c s).toFlow clean
    · exact .refl clean
  split
  · exact shown_withBoard (kept_startUp _ s).toFlow clean
  · split
    · exact shown_withBoard (kept_setQuiesce true s).toFlow clean
    · exact .refl clean
  · split
    · exact shown_withBoard ((kept_setQuiesce false s).trans (quiet_tryOriginate _).kept).toFlow clean
    · exact .refl clean
  · exact shown_withBoard (kept_takeHandover _ _ s).toFlow clean
  · refine shown_of_same (kept_writeWorkBase _ _ s).toFlow clean ?_ ?_ ?_ ?_ ?_ ?_ <;> (unfold writeWorkBase; split <;> rfl)
  · exact shown_setRun_alone clean
  · refine shown_of_same (kept_clearRun s).toFlow clean ?_ ?_ ?_ ?_ ?_ ?_ <;> (unfold clearRun; split <;> rfl)
  · exact shown_withBoard (kept_takeAbandon s).toFlow clean
  · exact shown_restart clean
  · exact shown_writeControl _ clean
  · exact shown_of_same (kept_clearCauses _ s).toFlow clean rfl rfl rfl rfl rfl rfl
  · exact shown_withBoard (kept_startWaiting s).toFlow clean
  · exact shown_withBoard (kept_takeClose s).toFlow clean
  · exact shown_withBoard ((quiet_tryAdmit s).kept (items := [])).toFlow clean
  · exact shown_withBoard ((quiet_tryOriginate s).kept (items := [])).toFlow clean
  · exact .refl clean

/-! ## The board after a command -/

/-- A command whose accesses succeed: host memory is what its writes make of it, and the board shows its changes. -/
theorem exec_shown {c : Instr} (high : s.resetn = true) (clean : cleanEnv (envOf c)) (h : exec c s = .next t) :
    t.hostMem = applyWrites s.hostMem t.posted ∧ boardShown s t := by
  by_cases single : isReset c = false ∧ c ≠ .resetnFall
  · rw [exec_eq_event c s single.1 single.2] at h
    cases h
    have pin : (pinned c s).resetn = true ∧ (pinned c s).hostMem = s.hostMem ∧
        (∀ k, linkSlotBytes (pinned c s) k = linkSlotBytes s k) ∧ deviceSlotBytes (pinned c s) = deviceSlotBytes s := by
      unfold pinned
      split <;> exact ⟨high, rfl, fun _ => rfl, rfl⟩
    obtain ⟨high, memory, links, device⟩ := pin
    rw [event_of_high high]
    generalize pinned c s = v at memory links device
    obtain ⟨_, ws, posted, mem⟩ := (kept_bodyOf c (beginEvent (envOf c) v)).clean clean
    have shown := (shown_bodyOf c (s := beginEvent (envOf c) v) clean).shown
    refine ⟨?_, fun base hb => ?_⟩
    · have posted : (endEvent (bodyOf c (beginEvent (envOf c) v))).posted = ws := posted
      rw [posted, ← memory]
      exact mem
    · obtain ⟨linkShown, deviceShown⟩ := shown base hb
      refine ⟨fun k changed => linkShown k (slotChanged_iff.2 ?_), fun changed => deviceShown ?_⟩
      · have before : linkSlotBytes (beginEvent (envOf c) v) k = linkSlotBytes s k := links k
        rw [before]
        exact slotChanged_iff.1 changed
      · have before : deviceSlotBytes (beginEvent (envOf c) v) = deviceSlotBytes s := device
        rw [before]
        exact changed
  · cases c with
    | powerOnReset => cases h; exact ⟨rfl, fun base hb => by cases hb⟩
    | pinReset => cases h; exact ⟨rfl, fun base hb => by cases hb⟩
    | resetnFall =>
      cases h
      exact ⟨rfl, fun base _ => ⟨fun k changed => absurd rfl (slotChanged_iff.1 changed), fun changed => absurd rfl changed⟩⟩
    | _ => exact absurd ⟨rfl, by simp⟩ single

theorem applyWrites_snoc (m : Memory) (ws : List HostWrite) (w : HostWrite) :
    applyWrites m (ws ++ [w]) = (applyWrites m ws).writeBytes w.address w.bytes := applyWrites_append m ws [w]

theorem attemptOf_none {k : Slot} (h : s.recordOf k = none) : s.attemptOf k = 0 := by rw [State.attemptOf, h]

theorem attemptOf_some {k : Slot} {n : RecordNumber} (h : s.recordOf k = some n) :
    s.attemptOf k = s.records[n].attempt := by rw [State.attemptOf, h]

theorem recentShopCode_of_head {l : Link} {c : ShopCode} (h : l.shopCodes.head? = some c) : recentShopCode l = c.code := by
  unfold recentShopCode
  cases e : l.shopCodes with
  | nil => rw [e] at h; cases h
  | cons d rest => rw [e] at h; cases h; rfl

/-- The bits of the device slot's first byte. -/
def deviceBits (s : State) : List Bool :=
  [s.device.settingsDefaulted, s.device.noMaster, s.device.randomFault, s.device.busFault, s.device.noticesDropped,
    s.device.unknownBranchOverflow, s.quiesce, s.device.randomFault]

theorem deviceFlags_eq (s : State) : s.deviceFlags = ofBits (deviceBits s) := rfl

/-- Settles O5: every access is a posted write or a read, every event ends with the writes of the slots it has changed,
and each slot is a layout of its fields. -/
theorem hostMemoryAndBoardKeepUp : Obligations.HostMemoryAndBoardKeepUp := by
  refine ⟨fun m ws w => ⟨fun long i inside => ?_, fun x outside => ?_⟩, fun c s t high clean h => ?_, fun _ _ => rfl,
    fun s k => ⟨linkSlotBytes_vacant, fun enrolled => ?_⟩, fun s => ?_⟩
  · rw [applyWrites_snoc]
    exact Memory.readByte_writeBytes_inside _ _ _ long inside
  · rw [applyWrites_snoc]
    exact Memory.readByte_writeBytes_outside _ _ _ outside
  · obtain ⟨memory, shown⟩ := exec_shown high clean h
    exact ⟨⟨memory, fun x outside => by rw [memory]; exact readByte_applyWrites_outside _ _ outside⟩, shown⟩
  · have bytes := linkSlotBytes_eq_layout enrolled
    have field {o n v : Nat} (i : Nat) (f : (linkSlotFields s k)[i]? = some (n, v))
        (offset : ((([1, 1, 1, 1, 1, 1, 1, 1, 2, 2, 2, 2, 2, 2, 2, 2, 2, 2, 2, 2] : List Nat)).take i).sum = o) :
        bytesAt (linkSlotBytes s k) o n = leBytes n v := by
      rw [bytes]; exact bytesAt_sized i f (linkSlotFields_sizes s k) offset
    have active (i : Nat) : (ofLe (bytesAt (linkSlotBytes s k) 8 2)).testBit i =
        ((s.link k).kinds.toList.map KindRecord.active).getD i false := by
      rw [field (o := 8) 8 rfl rfl, activeStates]
      exact testBit_field (by simp) i
    have overflow (i : Nat) : (ofLe (bytesAt (linkSlotBytes s k) 10 2)).testBit i =
        ((s.link k).kinds.toList.map KindRecord.overflow).getD i false := by
      rw [field (o := 10) 9 rfl rfl, overflowMarks]
      exact testBit_field (by simp) i
    refine ⟨linkSlotBytes_length s k, field 0 rfl rfl, ?_, field 2 rfl rfl, fun none => ?_, fun n some => ?_,
      field 4 rfl rfl, field 5 rfl rfl, field 6 rfl rfl, field 7 rfl rfl, fun i => ⟨?_, ?_, ?_⟩, fun i high => ⟨?_, ?_⟩,
      fun none => ?_, fun c head => ?_⟩
    · rw [← holdMarks_eq]; exact field 1 rfl rfl
    · rw [← attemptOf_none none]; exact field 3 rfl rfl
    · rw [← attemptOf_some some]; exact field 3 rfl rfl
    · exact (active i).trans (getD_kinds (s.link k) KindRecord.active i)
    · exact (overflow i).trans (getD_kinds (s.link k) KindRecord.overflow i)
    · rw [bytes]; exact counter_field s k i
    · exact (active i).trans (List.getD_eq_default _ _ (by simpa using high))
    · exact (overflow i).trans (List.getD_eq_default _ _ (by simpa using high))
    · rw [show (0 : Nat) = recentShopCode (s.link k) by rw [recentShopCode, none]]; exact field 10 rfl rfl
    · rw [← recentShopCode_of_head head]; exact field 10 rfl rfl
  · have field {o n v : Nat} (i : Nat) (f : (deviceSlotFields s)[i]? = some (n, v))
        (offset : ((([1, 1, 1, 1, 2, 2, 24] : List Nat)).take i).sum = o) :
        bytesAt (deviceSlotBytes s) o n = leBytes n v := by
      rw [deviceSlotBytes_eq_layout]; exact bytesAt_sized i f (deviceSlotFields_sizes s) offset
    have flags (i : Nat) : (ofLe (bytesAt (deviceSlotBytes s) 0 1)).testBit i = (deviceBits s).getD i false := by
      rw [field (o := 0) 0 rfl rfl, deviceFlags_eq]
      exact testBit_field (by simp [deviceBits]) i
    exact ⟨deviceSlotBytes_length s, field 0 rfl rfl, flags 0, flags 1, flags 2, flags 3, flags 4, flags 5, flags 6, flags 7,
      field 1 rfl rfl, field 2 rfl rfl, field 3 rfl rfl, field 4 rfl rfl, field 5 rfl rfl, field 6 rfl rfl⟩

end Sys2Proof.Machine
end

