-- ==== Sys2Proof/Proofs/Windows.lean ====
section
/-! PROOFS. The replay window: which sequences pass, what an accepted one marks, and that none is accepted twice. -/

namespace Sys2Proof.Machine
variable {w : Window} {q x : Nat}

/-! ## The test -/

theorem windowTest_above (h : w.high < q) : windowTest w q = .passes := if_pos h

theorem windowTest_below (h : q + 64 ≤ w.high) : windowTest w q = .tooOld := by
  rw [windowTest, if_neg (by omega), if_pos h]

theorem windowTest_within (low : q ≤ w.high) (high : w.high < q + 64) :
    windowTest w q = if w.map.getLsbD (w.high - q) then .replayed else .passes := by
  rw [windowTest, if_neg (by omega), if_neg (by omega)]

/-- A sequence passes unless it is marked, or too far below H. -/
theorem windowTest_passes_iff : windowTest w q = .passes ↔ w.high < q + 64 ∧ ¬ w.marked q := by
  unfold Window.marked
  rcases Nat.lt_or_ge w.high q with above | low
  · simp only [windowTest_above above, true_iff]
    exact ⟨by omega, fun h => by omega⟩
  rcases Nat.lt_or_ge w.high (q + 64) with high | below
  · rw [windowTest_within low high]
    simp [low, high]
  · rw [windowTest_below below]
    simp [Nat.not_lt.2 below]

/-! ## An accepted sequence -/

theorem high_windowAdvance (w : Window) (q : Nat) : (windowAdvance w q).high = max w.high q := by
  unfold windowAdvance
  split
  · show q = max w.high q
    omega
  · show w.high = max w.high q
    omega

theorem getLsbD_one (i : Nat) : (1 : BitVec 64).getLsbD i = decide (i = 0) := by
  simp [BitVec.getLsbD_one]

/-- What is marked after a sequence that passed: that sequence, and what was marked and is still covered. -/
theorem marked_windowAdvance (pass : windowTest w q = .passes) :
    (windowAdvance w q).marked x ↔ x = q ∨ (w.marked x ∧ max w.high q < x + 64) := by
  have near := (windowTest_passes_iff.1 pass).1
  unfold windowAdvance Window.marked
  split
  · rename_i above
    simp only [BitVec.getLsbD_or, BitVec.getLsbD_shiftLeft, getLsbD_one, Bool.or_eq_true, Bool.and_eq_true,
      decide_eq_true_eq, Bool.not_eq_true', decide_eq_false_iff_not]
    constructor
    · rintro ⟨low, high, bit⟩
      rcases bit with ⟨⟨_, far⟩, bit⟩ | last
      · have e : q - x - (q - w.high) = w.high - x := by omega
        exact .inr ⟨⟨by omega, by omega, e ▸ bit⟩, by omega⟩
      · exact .inl (by omega)
    · rintro (rfl | ⟨⟨low, high, bit⟩, covered⟩)
      · exact ⟨by omega, by omega, .inr (by omega)⟩
      · have e : q - x - (q - w.high) = w.high - x := by omega
        exact ⟨by omega, by omega, .inl ⟨⟨by omega, by omega⟩, e ▸ bit⟩⟩
  · rename_i low
    simp only [BitVec.getLsbD_or, BitVec.getLsbD_shiftLeft, getLsbD_one, Bool.or_eq_true, Bool.and_eq_true,
      decide_eq_true_eq, Bool.not_eq_true', decide_eq_false_iff_not]
    constructor
    · rintro ⟨below, covered, bit | ⟨⟨_, far⟩, same⟩⟩
      · exact .inr ⟨⟨below, covered, bit⟩, by omega⟩
      · exact .inl (by omega)
    · rintro (rfl | ⟨⟨below, covered, bit⟩, _⟩)
      · exact ⟨by omega, near, .inr ⟨⟨by omega, by omega⟩, by omega⟩⟩
      · exact ⟨below, covered, .inl bit⟩

/-- What passes after an accepted sequence passed before it, and is another. -/
theorem passes_of_windowAdvance (pass : windowTest w q = .passes) (h : windowTest (windowAdvance w q) x = .passes) :
    windowTest w x = .passes ∧ x ≠ q := by
  obtain ⟨near, free⟩ := windowTest_passes_iff.1 h
  rw [high_windowAdvance] at near
  rw [marked_windowAdvance pass] at free
  exact ⟨windowTest_passes_iff.2 ⟨by omega, fun m => free (.inr ⟨m, near⟩)⟩, fun e => free (.inl e)⟩

/-! ## A run of packets -/

theorem acceptedBy_passes {qs : List Nat} (h : q ∈ acceptedBy w qs) : q ∈ qs ∧ windowTest w q = .passes := by
  induction qs generalizing w with
  | nil => cases h
  | cons p rest ih =>
    unfold acceptedBy at h
    split at h
    · rename_i pass
      rcases List.mem_cons.1 h with rfl | later
      · exact ⟨List.mem_cons_self, pass⟩
      · obtain ⟨mem, passes⟩ := ih later
        exact ⟨List.mem_cons_of_mem _ mem, (passes_of_windowAdvance pass passes).1⟩
    · exact ⟨List.mem_cons_of_mem _ (ih h).1, (ih h).2⟩
    · exact ⟨List.mem_cons_of_mem _ (ih h).1, (ih h).2⟩

theorem acceptedBy_nodup (w : Window) (qs : List Nat) : (acceptedBy w qs).Nodup := by
  induction qs generalizing w with
  | nil => exact .nil
  | cons p rest ih =>
    unfold acceptedBy
    split
    · rename_i pass
      exact List.nodup_cons.2 ⟨fun again => (passes_of_windowAdvance pass (acceptedBy_passes again).2).2 rfl, ih _⟩
    · exact ih w
    · exact ih w

/-- Settles O7: an accepted sequence is marked, and what is marked or has fallen below the map never passes again. -/
theorem windowsAcceptEachSequenceOnce : Obligations.WindowsAcceptEachSequenceOnce := by
  refine ⟨fun w q => ⟨windowTest_above, fun low high marked => ?_, fun low high unmarked => ?_, windowTest_below,
    fun start positive => ?_, fun pass => ⟨high_windowAdvance w q, fun x => marked_windowAdvance pass⟩⟩,
    fun w qs => ⟨acceptedBy_nodup w qs, fun q => acceptedBy_passes⟩⟩
  · rw [windowTest_within low high, if_pos marked.2.2]
  · exact windowTest_passes_iff.2 ⟨high, unmarked⟩
  · rcases Nat.lt_or_ge w.high q with above | low
    · rw [windowTest_above above]; decide
    · rw [windowTest_within low (by omega)]
      split <;> decide

end Sys2Proof.Machine
end

