-- ==== Sys2Proof/Proofs/Resets.lean ====
section
/-! PROOFS. A step runs the command at the front of the queue, and what a reset leaves. -/

namespace Sys2Proof.Machine

/-- Settles O1: by the equation of a step. -/
theorem stepRunsFrontCommand : Obligations.StepRunsFrontCommand := by
  intro c rest s waiting
  rw [step, waiting]

/-! ## The reset state -/

theorem reset_link (k : Slot) : State.reset.link k = .vacant := rfl

theorem reset_profile (p : ProfileNumber) : State.reset.profiles[p] = .invalid := Vector.getElem_replicate _

theorem reset_record (n : RecordNumber) : State.reset.records[n] = .free := Vector.getElem_replicate _

/-- Settles O18: a reset's next state is the reset state but for what it keeps. -/
theorem resetsGiveResetValues : Obligations.ResetsGiveResetValues := by
  refine ⟨fun s => ⟨rfl, rfl, rfl⟩, reset_link, reset_profile, reset_record, rfl, rfl, rfl, rfl, rfl, rfl, rfl, rfl, rfl,
    by decide, rfl, by decide, by decide, by decide, by decide, by decide, by decide, by decide, by decide, by decide⟩

/-- Nothing is anywhere in the turnover of the reset state. -/
theorem reset_turnoverOk : State.reset.TurnoverOk where
  dueNodup := .nil
  dueMirror k := ⟨fun h => (nomatch h), fun h => (nomatch h)⟩
  recordMirror k := by
    refine ⟨fun ⟨n, used, _⟩ => absurd (by rw [reset_record n]; rfl) used, fun h => nomatch h⟩
  recordUnique m n used := absurd (by rw [reset_record m]; rfl) used
  restTimer k _ := rfl
  outside k _ := rfl
  sendNodup := .nil
  sendMirror n := by
    rw [reset_record n]
    exact ⟨fun h => (nomatch h), fun h => (nomatch h.1)⟩
  queuedWaits n h := by rw [reset_record n] at h; exact nomatch h
  offerNodup := .nil
  offerMirror k := by
    refine ⟨fun h => (nomatch h), fun ⟨n, queued, _⟩ => ?_⟩
    rw [reset_record n] at queued
    exact nomatch queued

theorem reset_mapOk : State.reset.MapOk where
  slots := .nil
  rising := .nil
  ranges _ h := nomatch h
  enrolled _ h := absurd rfl h
  agrees _ h := nomatch h

/-- Settles O9: every link is VACANT, every table empty, and the engine STARTING with both batches FREE. -/
theorem resetMeetsTheInvariants : Obligations.ResetMeetsTheInvariants := by
  refine ⟨⟨rfl, rfl⟩, ⟨by decide, by decide, .nil⟩, reset_aligned, engineOk_of_freed rfl rfl rfl rfl rfl (.inl rfl), fun k => ?_, fun k h => ?_,
    fun k => ?_, reset_turnoverOk, ⟨fun p valid => ?_, fun k => ⟨fun used => ?_, fun used => ?_⟩⟩, reset_mapOk, fun k h => ?_⟩
  · rw [reset_link]; exact ⟨.inr ⟨rfl, rfl⟩, rfl, rfl, rfl, rfl, rfl⟩
  · rw [reset_link] at h; rcases h with h | h | h <;> cases h
  · rw [reset_link]; exact ⟨fun h => (by cases h), fun h => nomatch h⟩
  · rw [reset_profile] at valid; cases valid
  · rw [reset_link] at used; cases used
  · rw [reset_link] at used; cases used
  · exact absurd (by rw [reset_link]; rfl) h

end Sys2Proof.Machine
end

