-- ==== Sys2Proof/Proofs/Bodies.lean ====
section
/-! PROOFS. Key selection by generation, the control bodies, and the list of shop codes. -/

namespace Sys2Proof.Machine

/-! ## Key selection -/

section
variable {l : Link} {g : Nat}

theorem selectKey_root : selectKey l 0 = .key .root := if_pos rfl

theorem selectKey_current (h : g ≠ 0) (number : g = l.current.generation) (use : l.current.state = .inUse) :
    selectKey l g = .key .current := by
  rw [selectKey, if_neg h, if_pos ⟨number, use⟩]

theorem selectKey_spent (h : g ≠ 0) (number : g = l.current.generation) (spent : l.current.state = .spent) :
    selectKey l g = .keySpent := by
  rw [selectKey, if_neg h, if_neg (by simp [spent]), if_pos ⟨number, spent⟩]

theorem selectKey_not_current (h : g ≠ 0) (other : ¬ (g = l.current.generation ∧ l.current.state ≠ .empty)) :
    selectKey l g = if g = l.retiring.generation ∧ l.retiring.state = .inUse then .key .retiring else .unknownGen := by
  rw [selectKey, if_neg h, if_neg fun c => other ⟨c.1, by simp [c.2]⟩, if_neg fun c => other ⟨c.1, by simp [c.2]⟩]

end

/-! ## Control bodies -/

theorem parseControl_code {code : Byte} (rest : List Byte) (offer : code ≠ 2) (refuse : code ≠ 3) (report : code ≠ 4) :
    parseControl (code :: rest) = .invalid .controlCode := by
  have first : (code :: rest).getD 0 0 = code := rfl
  rw [parseControl, first, if_neg (by simp), if_neg offer, if_neg refuse, if_neg report]

theorem parseControl_accept_length {rest : List Byte} (h : rest.length ≠ 25) :
    parseControl (2 :: rest) = .invalid .controlLength := by
  simp [parseControl, h]

theorem parseControl_refuse_length {rest : List Byte} (h : rest.length ≠ 10) :
    parseControl (3 :: rest) = .invalid .controlLength := by
  simp [parseControl, h]

theorem bodyNonce_read (a b : Byte) (nonce : AttemptNonce) (rest : List Byte) :
    bodyNonce (a :: b :: (leBytes 8 nonce.toNat ++ rest)) = nonce := by
  have part : bytesAt ([a, b] ++ (leBytes 8 nonce.toNat ++ rest)) 2 8 = leBytes 8 nonce.toNat :=
    bytesAt_part rfl (by simp)
  have whole : nonce.toNat % 256 ^ 8 = nonce.toNat := Nat.mod_eq_of_lt (by have := nonce.isLt; omega)
  rw [bodyNonce, show a :: b :: (leBytes 8 nonce.toNat ++ rest) = [a, b] ++ (leBytes 8 nonce.toNat ++ rest) from rfl, part,
    ofLe_leBytes, whole, BitVec.ofNat_toNat, BitVec.setWidth_eq]

theorem parseControl_accept (g : Byte) (nonce : AttemptNonce) (proof : Proof) :
    parseControl ([2, g] ++ leBytes 8 nonce.toNat ++ leBytes 16 proof.toNat) = .accept g.toNat nonce proof := by
  have part : bytesAt (([2, g] ++ leBytes 8 nonce.toNat) ++ (leBytes 16 proof.toNat ++ [])) 10 16 = leBytes 16 proof.toNat :=
    bytesAt_part (by simp) (by simp)
  have whole : proof.toNat % 256 ^ 16 = proof.toNat := Nat.mod_eq_of_lt (by have := proof.isLt; omega)
  have read : (BitVec.ofNat 128 (ofLe (bytesAt ([2, g] ++ leBytes 8 nonce.toNat ++ leBytes 16 proof.toNat) 10 16)) : Proof)
      = proof := by
    rw [List.append_nil] at part
    rw [part, ofLe_leBytes, whole, BitVec.ofNat_toNat, BitVec.setWidth_eq]
  have nonceRead := bodyNonce_read 2 g nonce (leBytes 16 proof.toNat)
  unfold parseControl
  rw [read]
  simpa using nonceRead

theorem parseControl_refuse (g reason : Byte) (nonce : AttemptNonce) :
    parseControl ([3, g] ++ leBytes 8 nonce.toNat ++ [reason]) =
      match reasonOf reason with
      | some r => .refuse g.toNat nonce r
      | none => .invalid .controlField := by
  unfold parseControl
  simp [bodyNonce_read] <;> rfl

/-! ### Reports -/

/-- The four bytes of a report's entry. -/
def entryBytes (e : ShopCode) : List Byte := beBytes 2 e.code ++ beBytes 2 e.sum

theorem entryBytes_flatMap_length (entries : List ShopCode) : (entries.flatMap entryBytes).length = 4 * entries.length := by
  induction entries with
  | nil => rfl
  | cons e rest ih => simp [entryBytes] at ih ⊢; omega

theorem ofBe_two {v : Nat} (h : v ≤ 65535) : ofBe (beBytes 2 v) = v := by
  rw [ofBe_beBytes]; exact Nat.mod_eq_of_lt (by omega)

/-- The entries of a report are read back. -/
theorem reportEntries_read {entries : List ShopCode} (h : ∀ e ∈ entries, e.code ≤ 65535 ∧ e.sum ≤ 65535) (a b : Byte) :
    reportEntries ([a, b] ++ entries.flatMap entryBytes) entries.length = entries := by
  refine List.ext_getElem (by simp [reportEntries]) fun i _ inside => ?_
  obtain ⟨code, sum⟩ := h _ (List.getElem_mem inside)
  have split : [a, b] ++ entries.flatMap entryBytes =
      ([a, b] ++ (entries.take i).flatMap entryBytes) ++
        (beBytes 2 entries[i].code ++ (beBytes 2 entries[i].sum ++ (entries.drop (i + 1)).flatMap entryBytes)) := by
    conv_lhs => rw [← List.take_append_drop i entries, List.drop_eq_getElem_cons inside, List.flatMap_append,
      List.flatMap_cons, entryBytes]
    simp only [List.append_assoc]
  have before : ([a, b] ++ (entries.take i).flatMap entryBytes).length = 2 + 4 * i := by
    rw [List.length_append, entryBytes_flatMap_length, List.length_take, Nat.min_eq_left (by omega)]
    rfl
  have codeRead : bytesAt ([a, b] ++ entries.flatMap entryBytes) (2 + 4 * i) 2 = beBytes 2 entries[i].code := by
    rw [split]; exact bytesAt_part before (by simp)
  have sumRead : bytesAt ([a, b] ++ entries.flatMap entryBytes) (4 + 4 * i) 2 = beBytes 2 entries[i].sum := by
    rw [split, ← List.append_assoc _ (beBytes 2 entries[i].code)]
    exact bytesAt_part (by rw [List.length_append, before, beBytes_length]; omega) (by simp)
  have entry : (reportEntries ([a, b] ++ entries.flatMap entryBytes) entries.length)[i] =
      ⟨ofBe (bytesAt ([a, b] ++ entries.flatMap entryBytes) (2 + 4 * i) 2),
        ofBe (bytesAt ([a, b] ++ entries.flatMap entryBytes) (4 + 4 * i) 2)⟩ := by
    simp only [reportEntries, List.getElem_map, List.getElem_range]
  rw [entry, codeRead, sumRead, ofBe_two code, ofBe_two sum]

theorem parseControl_report {entries : List ShopCode} (least : 1 ≤ entries.length) (most : entries.length ≤ 16)
    (h : ∀ e ∈ entries, e.code ≤ 65535 ∧ e.sum ≤ 65535) :
    parseControl ([4, BitVec.ofNat 8 entries.length] ++ entries.flatMap entryBytes) =
      if entries.any (fun e => e.code = 0) then .invalid .controlField else .report entries := by
  have count : (BitVec.ofNat 8 entries.length).toNat = entries.length := by
    rw [BitVec.toNat_ofNat]; exact Nat.mod_eq_of_lt (by omega)
  have read := reportEntries_read h 4 (BitVec.ofNat 8 entries.length)
  have length : ([4, BitVec.ofNat 8 entries.length] ++ entries.flatMap entryBytes).length = 2 + 4 * entries.length := by
    rw [List.length_append, entryBytes_flatMap_length]; rfl
  have second : ([4, BitVec.ofNat 8 entries.length] ++ entries.flatMap entryBytes).getD 1 0 = BitVec.ofNat 8 entries.length := rfl
  have first : ([4, BitVec.ofNat 8 entries.length] ++ entries.flatMap entryBytes).getD 0 0 = 4 := rfl
  unfold parseControl
  dsimp only
  rw [first, second, count, length, if_neg (by omega), if_neg (by decide), if_neg (by decide), if_pos rfl,
    if_pos ⟨least, most, rfl⟩, read]

theorem parseControl_report_length {n : Byte} {rest : List Byte}
    (h : n.toNat = 0 ∨ 16 < n.toNat ∨ rest.length ≠ 4 * n.toNat) : parseControl (4 :: n :: rest) = .invalid .controlLength := by
  have bad : ¬ (1 ≤ n.toNat ∧ n.toNat ≤ 16 ∧ (4 :: n :: rest).length = 2 + 4 * n.toNat) := by
    rw [List.length_cons, List.length_cons]; omega
  unfold parseControl
  dsimp only
  rw [if_neg (by simp)]
  exact if_neg bad

/-! ## Shop codes -/

theorem takeShopCode_new {codes : List ShopCode} {e : ShopCode} (h : ∀ c ∈ codes, c.code ≠ e.code) :
    takeShopCode codes e = e :: codes.take 7 := by
  rw [takeShopCode, List.find?_eq_none.2 (by simpa using h)]

theorem takeShopCode_listed {before after : List ShopCode} {c e : ShopCode} (same : c.code = e.code)
    (h : ∀ d ∈ before ++ after, d.code ≠ e.code) :
    takeShopCode (before ++ c :: after) e = ⟨e.code, min 65535 (c.sum + e.sum)⟩ :: (before ++ after) := by
  have found : (before ++ c :: after).find? (fun d => d.code = e.code) = some c := by
    rw [List.find?_append, List.find?_eq_none.2 (by simpa using fun d hd => h d (List.mem_append_left _ hd)),
      List.find?_cons_of_pos (by simpa using same)]
    rfl
  have others : (before ++ c :: after).filter (fun d => d.code ≠ e.code) = before ++ after := by
    rw [List.filter_append, List.filter_cons_of_neg (by simp [same]), ← List.filter_append]
    exact List.filter_eq_self.2 fun d hd => by simpa using h d hd
  rw [takeShopCode, found]
  dsimp only
  rw [others, same]
  rfl

/-- A list of at most eight distinct codes. -/
def shopCodesOk (codes : List ShopCode) : Prop := codes.length ≤ 8 ∧ (codes.map ShopCode.code).Nodup

theorem takeShopCode_ok {codes : List ShopCode} (h : shopCodesOk codes) (e : ShopCode) : shopCodesOk (takeShopCode codes e) := by
  obtain ⟨length, nodup⟩ := h
  unfold takeShopCode
  split
  · rename_i c found
    have listed := List.mem_of_find?_eq_some found
    have same : c.code = e.code := by simpa using List.find?_some found
    refine ⟨?_, List.nodup_cons.2 ⟨?_, nodup.sublist (List.filter_sublist.map _)⟩⟩
    · have fewer : (codes.filter fun d => d.code ≠ e.code).length < codes.length :=
        List.length_filter_lt_length_iff_exists.2 ⟨c, listed, by simp [same]⟩
      rw [List.length_cons]; omega
    · rw [List.mem_map]
      rintro ⟨d, other, equal⟩
      exact absurd (equal.trans same) (by simpa using (List.mem_filter.1 other).2)
  · rename_i none
    refine ⟨?_, List.nodup_cons.2 ⟨?_, nodup.sublist ((List.take_sublist 7 codes).map _)⟩⟩
    · rw [List.length_cons, List.length_take]; omega
    · rw [List.mem_map]
      rintro ⟨d, other, same⟩
      exact absurd same (by simpa using List.find?_eq_none.1 none d (List.mem_of_mem_take other))

theorem foldl_takeShopCode_ok {codes : List ShopCode} (h : shopCodesOk codes) (entries : List ShopCode) :
    shopCodesOk (entries.foldl takeShopCode codes) := by
  induction entries generalizing codes with
  | nil => exact h
  | cons e rest ih => exact ih (takeShopCode_ok h e)

/-- Settles O35: the cases of key selection, of a control body by its code and length, and of a shop code by whether its
code is listed. -/
theorem selectionBodiesAndShopCodes : Obligations.SelectionBodiesAndShopCodes := by
  refine ⟨fun l g => ⟨?_, selectKey_current, selectKey_spent, fun h other retiring => ?_, fun h other free => ?_⟩,
    ⟨rfl, rfl, fun code rest => parseControl_code rest, parseControl_accept, fun g reason nonce => ?_,
      fun rest => ⟨parseControl_accept_length, parseControl_refuse_length⟩, fun entries least most h => ?_,
      fun n rest => parseControl_report_length⟩,
    fun codes e => takeShopCode_new, fun before after c e => takeShopCode_listed, fun l entries length nodup => ?_⟩
  · rintro rfl; exact selectKey_root
  · rw [selectKey_not_current h other, if_pos retiring]
  · rw [selectKey_not_current h other, if_neg free]
  · dsimp only
    rw [parseControl_refuse]
    refine ⟨?_, ?_, ?_, fun busy noRoom badWrap => by rw [reasonOf, if_neg busy, if_neg noRoom, if_neg badWrap]⟩ <;> rintro rfl <;> rfl
  · have read := parseControl_report least most h
    refine ⟨fun named => ?_, fun ⟨e, listed, zero⟩ => ?_⟩
    · exact read.trans (if_neg (by simpa using named))
    · exact read.trans (if_pos (by simpa using ⟨e, listed, zero⟩))
  · exact ⟨rfl, foldl_takeShopCode_ok ⟨length, nodup⟩ entries⟩

end Sys2Proof.Machine
end

