-- ==== Sys2Proof/Proofs/Edges.lean ====
section
/-! PROOFS. Notices, raises and clears, the device conditions, scores, decays and silence, each as an equation. -/

namespace Sys2Proof.Machine
variable {s : State} {k : Slot} {kind : LinkKind}

/-! ## A notice that joins or is dropped -/

theorem not_samePair {n : Notice} {q : List Item} (h : ∀ m, .notice m ∈ q → ¬ (m.link = n.link ∧ m.kind = n.kind)) :
    q.any (samePair n) = false := by
  rw [List.any_eq_false]
  intro it mem
  cases it with
  | offer k p => simp [samePair]
  | notice m => simpa [samePair] using h m mem

theorem makeNotice_joins {n : Notice} (pair : s.queue.any (samePair n) = false) (count : noticeCount s.queue < 24)
    (depth : s.queue.length < 32) : makeNotice n s = joinQueue (.notice n) s := by
  rw [makeNotice, if_neg (by simp [pair]), if_pos ⟨count, depth⟩]

theorem makeNotice_drops {n : Notice} (pair : s.queue.any (samePair n) = false)
    (full : 24 ≤ noticeCount s.queue ∨ 32 ≤ s.queue.length) : makeNotice n s = dropNotice s := by
  rw [makeNotice, if_neg (by simp [pair]), if_neg]
  exact fun h => by
    have count : noticeCount s.queue < 24 := h.1
    have depth : s.queue.length < 32 := h.2
    omega

theorem joinQueue_eq (it : Item) (s : State) :
    joinQueue it s = { s with
      queue := s.queue ++ [it]
      causes := if s.bothFree then s.causes ||| Cause.collect.bit else s.causes } := by
  unfold joinQueue
  split <;> rfl

/-- Settles O53: the pair does not wait, so the notice joins or is dropped by the two limits. -/
theorem noticesJoinOrDrop : Obligations.NoticesJoinOrDrop := by
  refine ⟨fun q n k packet => ⟨rfl, List.countP_cons_of_pos rfl, List.countP_cons_of_neg (by simp [Item.isNotice])⟩,
    fun s n alone => ⟨fun count depth => ?_, fun full => ?_⟩⟩
  · rw [makeNotice_joins (not_samePair alone) count depth, joinQueue_eq]
  · exact makeNotice_drops (not_samePair alone) full

/-! ## What a notice leaves -/

@[simp] theorem link_makeNotice (n : Notice) (s : State) (k : Slot) : (makeNotice n s).link k = s.link k :=
  (beside_makeNotice n s).link k

@[simp] theorem link_setCause (c : Cause) (s : State) (k : Slot) : (s.setCause c).link k = s.link k := rfl

theorem profileOf_congr {s t : State} (profiles : t.profiles = s.profiles) (named : (t.link k).profile = (s.link k).profile) :
    t.profileOf k = s.profileOf k := by
  simp only [State.profileOf, profiles, named]

theorem profileOf_modLink {f : Link → Link} (named : (f (s.link k)).profile = (s.link k).profile) :
    (s.modLink k f).profileOf k = s.profileOf k :=
  profileOf_congr rfl (by rw [State.link_modLink_same, named])

/-! ## Kinds of a link -/

theorem kind_setKind (l : Link) (v : KindRecord) : (l.setKind kind v).kind kind = v := by
  simp [Link.kind, Link.setKind]

theorem noticeScore_eq (l : Link) : l.noticeScore kind =
    match kind.rate? with
    | some r => l.scores[r.index]
    | none => 0 := rfl

theorem countUp_eq (n : Nat) (o : Bool) : countUp n o = if 65535 ≤ n then (65535, true) else (n + 1, o) := by
  unfold countUp countMax
  by_cases h : 65535 ≤ n
  · rw [if_pos h, if_pos (by omega)]
  · rw [if_neg h, if_neg (by omega)]

theorem count_eq (v : KindRecord) : v.count =
    if 65535 ≤ v.counter then ⟨v.active, 65535, true⟩ else ⟨v.active, v.counter + 1, v.overflow⟩ := by
  unfold KindRecord.count
  dsimp only
  rw [countUp_eq]
  split <;> rfl

/-- A count and its mark after one more, with the two written apart. -/
theorem countUp_parts (n : Nat) (o : Bool) : countUp n o = (min 65535 (n + 1), o || decide (65535 ≤ n)) := by
  rw [countUp_eq]
  split
  · rename_i h
    rw [Nat.min_eq_left (by omega)]; simp [h]
  · rename_i h
    rw [Nat.min_eq_right (by omega)]; simp [h]

/-! ## Clears and raises -/

/-- What the notice of an edge is made of. -/
theorem linkNotice_eq (k : Slot) (kind : LinkKind) (edge : Edge) (s : State) :
    linkNotice k kind edge s =
      makeNotice ⟨some k, .link kind, edge, ((s.link k).kind kind).counter, (s.link k).noticeScore kind, false⟩ s := rfl

theorem clearKind_eq (k : Slot) (kind : LinkKind) (s : State) : clearKind k kind s =
    makeNotice ⟨some k, .link kind, .cleared, ((s.link k).kind kind).counter, (s.link k).noticeScore kind, false⟩
      (s.modLink k (clearedRecord kind)) := by
  rw [clearKind, linkNotice_eq, State.link_modLink_same, clearedRecord, kind_setKind]
  rfl

/-- A kind as a raise leaves it. -/
def raisedKind (kind : LinkKind) (v : KindRecord) : KindRecord :=
  if kind.rate?.isSome then { v with active := true } else { v with active := true }.count

theorem raisedRecord_eq (kind : LinkKind) (l : Link) : raisedRecord kind l = l.setKind kind (raisedKind kind (l.kind kind)) := rfl

/-- A raise with its notice and cause, before its action. -/
def toldRaise (k : Slot) (kind : LinkKind) (s : State) : State :=
  (makeNotice ⟨some k, .link kind, .raised, (raisedKind kind ((s.link k).kind kind)).counter, (s.link k).noticeScore kind, false⟩
    (s.modLink k (raisedRecord kind))).setCause .faultRaised

theorem link_toldRaise (k : Slot) (kind : LinkKind) (s : State) :
    (toldRaise k kind s).link k = raisedRecord kind (s.link k) := by
  rw [toldRaise, link_setCause, link_makeNotice, State.link_modLink_same]

theorem raiseKind_eq (k : Slot) (kind : LinkKind) (s : State) :
    raiseKind k kind s = takeAction k ((s.profileOf k).actionOf kind) (toldRaise k kind s) := by
  have profiles : (toldRaise k kind s).profiles = s.profiles := by
    rw [toldRaise, State.setCause_profiles, (quiet_makeNotice _ _).profiles, State.modLink_profiles]
  have named : (toldRaise k kind s).profileOf k = s.profileOf k :=
    profileOf_congr profiles (by rw [link_toldRaise]; rfl)
  have told : (linkNotice k kind .raised (s.modLink k (raisedRecord kind))).setCause .faultRaised = toldRaise k kind s := by
    rw [linkNotice_eq, State.link_modLink_same, raisedRecord_eq, kind_setKind]
    rfl
  rw [raiseKind]
  rw [told, named]

theorem raiseDevice_of_inactive {item : DeviceItem} (h : s.device.isActive item = false) :
    raiseDevice item s =
      (makeNotice ⟨none, .device item, .raised, 0, 0, false⟩ { s with device := s.device.activate item }).setCause .faultRaised :=
  if_neg (by simp [h])

theorem raiseDevice_of_active {item : DeviceItem} (h : s.device.isActive item = true) : raiseDevice item s = s := if_pos h

theorem countUnknownBranch_eq (s : State) : countUnknownBranch s =
    (makeNotice ⟨none, .device .unknownBranch, .raised, min 65535 (s.device.unknownBranchCount + 1), 0, false⟩
      { s with device := { s.device with
          unknownBranchCount := min 65535 (s.device.unknownBranchCount + 1)
          unknownBranchOverflow := s.device.unknownBranchOverflow || decide (65535 ≤ s.device.unknownBranchCount) } }).setCause
      .faultRaised := by
  unfold countUnknownBranch
  rw [countUp_parts]
  rfl

theorem raisedKind_eq (kind : LinkKind) (v : KindRecord) :
    raisedKind kind v =
      ⟨true, (if kind.rate?.isSome then (v.counter, v.overflow)
        else if 65535 ≤ v.counter then (65535, true) else (v.counter + 1, v.overflow)).1,
        (if kind.rate?.isSome then (v.counter, v.overflow)
        else if 65535 ≤ v.counter then (65535, true) else (v.counter + 1, v.overflow)).2⟩ := by
  unfold raisedKind
  rw [count_eq]
  split
  · rfl
  · dsimp only
    split <;> rfl

/-- Settles O54: a raise is its notice and cause and then its action, a clear its notice. -/
theorem raiseNotifiesAndActs : Obligations.RaiseNotifiesAndActs := by
  refine ⟨fun p l r kind => ⟨rfl, by cases r <;> rfl, by cases r <;> rfl, fun h => ?_, rfl, rfl, rfl, rfl, rfl, rfl⟩,
    fun s k kind => ?_, fun s => ?_, fun s k kind => ?_⟩
  · cases kind <;> cases h <;> rfl
  · exact clearKind_eq k kind s
  · have edge (item : DeviceItem) := And.intro (raiseDevice_of_inactive (s := s) (item := item)) (raiseDevice_of_active (s := s) (item := item))
    exact ⟨edge .settingsDefaulted, edge .noMaster, edge .randomFault, edge .busFault, countUnknownBranch_eq s⟩
  · intro l v count raised score told action enrolled
    have same : toldRaise k kind s = told := by
      rw [toldRaise, raisedKind_eq, State.modLink, raisedRecord_eq, raisedKind_eq]
      rfl
    have state : ((toldRaise k kind s).link k).state = l.state := by rw [link_toldRaise]; rfl
    rw [raiseKind_eq, ← same]
    refine ⟨fun a => ?_, fun a => ?_, fun a free => ?_, fun a held => ?_, fun a => ?_, ?_⟩
    · rw [show (s.profileOf k).actionOf kind = _ from a]; rfl
    · rw [show (s.profileOf k).actionOf kind = _ from a]; rfl
    · rw [show (s.profileOf k).actionOf kind = _ from a, takeAction, state, if_neg (not_or.2 ⟨free, enrolled⟩)]
    · rw [show (s.profileOf k).actionOf kind = _ from a, takeAction, state, if_pos (.inl held)]
    · rw [show (s.profileOf k).actionOf kind = _ from a]; rfl
    · rintro rfl; rfl

/-! ## Scores, decays and silence -/

theorem kind_scoredRecord (r : RateKind) (w : Nat) (l : Link) : (scoredRecord r w l).kind r.kind = (l.kind r.kind).count :=
  kind_setKind _ _

theorem score_setScore (l : Link) (r : RateKind) (v : Nat) : (l.setScore r v).score r = v := by
  simp [Link.score, Link.setScore]

theorem score_scoredRecord (r : RateKind) (w : Nat) (l : Link) :
    (scoredRecord r w l).score r = min 65535 (l.score r + w) := score_setScore l r _

theorem active_count (v : KindRecord) : v.count.active = v.active := rfl

/-- The state with a scoring event's weight and count, before the raise it may make. -/
def scoredState (k : Slot) (r : RateKind) (s : State) : State :=
  s.modLink k (scoredRecord r ((s.profileOf k).rate r).weight)

theorem scoreKind_eq (k : Slot) (r : RateKind) (s : State) : scoreKind k r s =
    if ((s.link k).kind r.kind).active = false ∧
        ((s.profileOf k).rate r).raiseLevel ≤ min 65535 ((s.link k).score r + ((s.profileOf k).rate r).weight)
    then raiseKind k r.kind (scoredState k r s) else scoredState k r s := by
  have named : (scoredState k r s).profileOf k = s.profileOf k := profileOf_modLink rfl
  have link : (scoredState k r s).link k = scoredRecord r ((s.profileOf k).rate r).weight (s.link k) :=
    State.link_modLink_same _ _ _
  rw [scoreKind]
  rw [show s.modLink k (scoredRecord r ((s.profileOf k).rate r).weight) = scoredState k r s from rfl, named, link,
    kind_scoredRecord, score_scoredRecord, active_count]

/-- The state with a rate kind's decay taken off, before the clear it may make. -/
def decayedState (k : Slot) (r : RateKind) (s : State) : State :=
  s.modLink k (decayedRecord r ((s.profileOf k).rate r).decay)

theorem decayKind_eq (k : Slot) (r : RateKind) (s : State) : decayKind k s r =
    if ((s.link k).kind r.kind).active = true ∧
        (s.link k).score r - ((s.profileOf k).rate r).decay ≤ ((s.profileOf k).rate r).clearLevel
    then clearKind k r.kind (decayedState k r s) else decayedState k r s := by
  have named : (decayedState k r s).profileOf k = s.profileOf k := profileOf_modLink rfl
  have link : (decayedState k r s).link k = decayedRecord r ((s.profileOf k).rate r).decay (s.link k) :=
    State.link_modLink_same _ _ _
  have score : (decayedRecord r ((s.profileOf k).rate r).decay (s.link k)).score r =
      (s.link k).score r - ((s.profileOf k).rate r).decay := score_setScore _ r _
  rw [decayKind]
  rw [show s.modLink k (decayedRecord r ((s.profileOf k).rate r).decay) = decayedState k r s from rfl, named, link, score]
  rfl

theorem countSilence_eq (h : (s.link k).state = .standby ∨ (s.link k).state = .live ∨ (s.link k).state = .stalled) :
    countSilence k s =
      if (s.profileOf k).silenceLimit ≠ 0 ∧ (s.profileOf k).silenceLimit ≤ min 65535 ((s.link k).silence + 1) then
        raiseIfInactive k .linkSilent (s.modLink k (Link.withSilence (min 65535 ((s.link k).silence + 1))))
      else s.modLink k (Link.withSilence (min 65535 ((s.link k).silence + 1))) := by
  have named : (s.modLink k (Link.withSilence (min 65535 ((s.link k).silence + 1)))).profileOf k = s.profileOf k :=
    profileOf_modLink rfl
  have max : countMax = 65535 := rfl
  have body : countSilence k s =
      if ((s.modLink k (Link.withSilence (min 65535 ((s.link k).silence + 1)))).profileOf k).silenceLimit ≠ 0 ∧
          ((s.modLink k (Link.withSilence (min 65535 ((s.link k).silence + 1)))).profileOf k).silenceLimit ≤
            ((s.modLink k (Link.withSilence (min 65535 ((s.link k).silence + 1)))).link k).silence then
        raiseIfInactive k .linkSilent (s.modLink k (Link.withSilence (min 65535 ((s.link k).silence + 1))))
      else s.modLink k (Link.withSilence (min 65535 ((s.link k).silence + 1))) := by
    rcases h with h | h | h <;> rw [countSilence, h] <;> rfl
  rw [body, named, State.link_modLink_same]
  rfl

theorem countSilence_of_outside (h : (s.link k).state = .quarantined ∨ (s.link k).state = .vacant) : countSilence k s = s := by
  rcases h with h | h <;> rw [countSilence, h]

/-- The activity of a kind does not hang on the silence. -/
theorem kind_withSilence (n : Nat) (l : Link) : (l.withSilence n).kind kind = l.kind kind := rfl

theorem foldl_rateKinds (f : State → RateKind → State) (s : State) :
    rateKinds.foldl f s = f (f (f (f s .tagFail) .replay) .unknownGen) .exchangeFault := rfl

/-- Settles O55: by the comparison of each score with its level, and of the silence with its limit. -/
theorem scoresRaiseAndDecaysClear : Obligations.ScoresRaiseAndDecaysClear := by
  refine ⟨fun s k r enrolled => ?_, fun s k => ⟨foldl_rateKinds _ s, foldl_rateKinds _ s⟩, fun s k => ?_⟩
  · intro l p v score up down counted scored decayed
    have scored_eq : scoredState k r s = scored := by
      rw [scoredState, State.modLink, scoredRecord, count_eq]
      rfl
    have decayed_eq : decayedState k r s = decayed := rfl
    rw [scoreKind_eq, decayKind_eq, scored_eq, decayed_eq]
    refine ⟨fun inactive level => if_pos ⟨inactive, level⟩, fun none => if_neg fun c => ?_,
      fun active level => if_pos ⟨active, level⟩, fun none => if_neg fun c => ?_,
      fun inactive level => if_pos ⟨inactive, level⟩, fun active level => ?_, fun none => ?_⟩
    · rcases none with active | below
      · exact absurd (show v.active = false from c.1) (by simp [active])
      · exact absurd (show p.raiseLevel ≤ up from c.2) (by omega)
    · rcases none with inactive | above
      · exact absurd (show v.active = true from c.1) (by simp [inactive])
      · exact absurd (show down ≤ p.clearLevel from c.2) (by omega)
    · rw [reexamineKind]
      exact (if_neg fun c => absurd (show v.active = false from c.1) (by simp [active])).trans (if_pos ⟨active, level⟩)
    · rw [reexamineKind]
      refine (if_neg fun c => ?_).trans (if_neg fun c => ?_)
      · have inactive : v.active = false := c.1
        have level : p.raiseLevel ≤ score := c.2
        rcases none with ⟨_, below⟩ | ⟨active, _⟩
        · omega
        · simp [inactive] at active
      · have active : v.active = true := c.1
        have level : score ≤ p.clearLevel := c.2
        rcases none with ⟨inactive, _⟩ | ⟨_, above⟩
        · simp [active] at inactive
        · omega
  · intro l active limit count counted heard
    have still : ((counted.link k).kind .linkSilent).active = active := by
      rw [show counted = s.modLink k (Link.withSilence count) from rfl, State.link_modLink_same]; rfl
    have ended : ((heard.link k).kind .linkSilent).active = active := by
      rw [show heard = s.modLink k (Link.withSilence 0) from rfl, State.link_modLink_same]; rfl
    refine ⟨fun member => ⟨fun set reached inactive => ?_, fun none => ?_⟩, countSilence_of_outside, fun h => ?_, fun h => ?_⟩
    · rw [countSilence_eq member, if_pos ⟨set, reached⟩]
      exact raiseIfInactive_of_inactive (still.trans inactive)
    · rw [countSilence_eq member]
      split
      · rename_i c
        have reached : limit ≤ count := c.2
        have set : limit ≠ 0 := c.1
        refine raiseIfInactive_of_active (still.trans ?_)
        rcases none with none | below | active
        · exact absurd none set
        · omega
        · exact active
      · rfl
    · exact clearIfActive_of_active (ended.trans h)
    · exact clearIfActive_of_inactive (ended.trans h)

end Sys2Proof.Machine
end

