-- ==== Sys2Proof/Proofs/Blind.lean ====
section
/-! PROOFS. What the outside holds of a state, the level of RESETN, host memory, the writes posted and the outcomes and draws to come, and that no operation but an access of host memory looks at it: each gives the same whatever stands there. -/

namespace Sys2Proof.Machine

/-- What stands outside the device's own state: what the accesses of host memory read and leave, or the draws to come. -/
inductive Outside where
  | host (resetn : Bool) (hostMem : Memory) (posted : List HostWrite) (bus : List BusOutcome)
  | noise (draws : List Draw)

/-- A state with something else outside. -/
def State.outside (o : Outside) (s : State) : State :=
  match o with
  | .host resetn hostMem posted bus => { s with resetn := resetn, hostMem := hostMem, posted := posted, bus := bus }
  | .noise draws => { s with noise := draws }

variable (o : Outside) (s : State) {resetn : Bool} {hostMem : Memory} {posted : List HostWrite} {bus : List BusOutcome}
  {draws : List Draw}

/-! ## The device's own state -/

@[simp] theorem outside_quiescePin : (s.outside o).quiescePin = s.quiescePin := by cases o <;> rfl
@[simp] theorem outside_quiesce : (s.outside o).quiesce = s.quiesce := by cases o <;> rfl
@[simp] theorem outside_settings : (s.outside o).settings = s.settings := by cases o <;> rfl
@[simp] theorem outside_oneTimeStore : (s.outside o).oneTimeStore = s.oneTimeStore := by cases o <;> rfl
@[simp] theorem outside_masterKey : (s.outside o).masterKey = s.masterKey := by cases o <;> rfl
@[simp] theorem outside_mask : (s.outside o).mask = s.mask := by cases o <;> rfl
@[simp] theorem outside_causes : (s.outside o).causes = s.causes := by cases o <;> rfl
@[simp] theorem outside_clamped : (s.outside o).clamped = s.clamped := by cases o <;> rfl
@[simp] theorem outside_run : (s.outside o).run = s.run := by cases o <;> rfl
@[simp] theorem outside_workBase : (s.outside o).workBase = s.workBase := by cases o <;> rfl
@[simp] theorem outside_batchA : (s.outside o).batchA = s.batchA := by cases o <;> rfl
@[simp] theorem outside_batchB : (s.outside o).batchB = s.batchB := by cases o <;> rfl
@[simp] theorem outside_engine : (s.outside o).engine = s.engine := by cases o <;> rfl
@[simp] theorem outside_firstWaiting : (s.outside o).firstWaiting = s.firstWaiting := by cases o <;> rfl
@[simp] theorem outside_nextIndex : (s.outside o).nextIndex = s.nextIndex := by cases o <;> rfl
@[simp] theorem outside_entriesDone : (s.outside o).entriesDone = s.entriesDone := by cases o <;> rfl
@[simp] theorem outside_faultStop : (s.outside o).faultStop = s.faultStop := by cases o <;> rfl
@[simp] theorem outside_abandoned : (s.outside o).abandoned = s.abandoned := by cases o <;> rfl
@[simp] theorem outside_branchMap : (s.outside o).branchMap = s.branchMap := by cases o <;> rfl
@[simp] theorem outside_links : (s.outside o).links = s.links := by cases o <;> rfl
@[simp] theorem outside_profiles : (s.outside o).profiles = s.profiles := by cases o <;> rfl
@[simp] theorem outside_dueList : (s.outside o).dueList = s.dueList := by cases o <;> rfl
@[simp] theorem outside_records : (s.outside o).records = s.records := by cases o <;> rfl
@[simp] theorem outside_sendOrder : (s.outside o).sendOrder = s.sendOrder := by cases o <;> rfl
@[simp] theorem outside_queue : (s.outside o).queue = s.queue := by cases o <;> rfl
@[simp] theorem outside_device : (s.outside o).device = s.device := by cases o <;> rfl
@[simp] theorem outside_boardBase : (s.outside o).boardBase = s.boardBase := by cases o <;> rfl
@[simp] theorem outside_lastDraw : (s.outside o).lastDraw = s.lastDraw := by cases o <;> rfl
@[simp] theorem outside_phase : (s.outside o).phase = s.phase := by cases o <;> rfl
@[simp] theorem outside_walkPosition : (s.outside o).walkPosition = s.walkPosition := by cases o <;> rfl
@[simp] theorem outside_drawCount : (s.outside o).drawCount = s.drawCount := by cases o <;> rfl
@[simp] theorem outside_pending : (s.outside o).pending = s.pending := by cases o <;> rfl
@[simp] theorem host_resetn : (s.outside (.host resetn hostMem posted bus)).resetn = resetn := rfl
@[simp] theorem host_hostMem : (s.outside (.host resetn hostMem posted bus)).hostMem = hostMem := rfl
@[simp] theorem host_posted : (s.outside (.host resetn hostMem posted bus)).posted = posted := rfl
@[simp] theorem host_bus : (s.outside (.host resetn hostMem posted bus)).bus = bus := rfl
@[simp] theorem host_noise : (s.outside (.host resetn hostMem posted bus)).noise = s.noise := rfl
@[simp] theorem noise_noise : (s.outside (.noise draws)).noise = draws := rfl
@[simp] theorem noise_bus : (s.outside (.noise draws)).bus = s.bus := rfl
@[simp] theorem noise_posted : (s.outside (.noise draws)).posted = s.posted := rfl
@[simp] theorem noise_hostMem : (s.outside (.noise draws)).hostMem = s.hostMem := rfl
@[simp] theorem noise_resetn : (s.outside (.noise draws)).resetn = s.resetn := rfl
@[simp] theorem noise_inner : (s.outside (.noise draws)).inner = s.inner := rfl
@[simp] theorem host_inner : (s.outside (.host s.resetn hostMem posted bus)).inner = s.inner := rfl

/-- An event begins with the draws and outcomes of its environment outside. -/
theorem beginEvent_eq (env : Env) (s : State) :
    beginEvent env s = (s.outside (.noise env.noise)).outside (.host s.resetn s.hostMem [] env.bus) := rfl

/-- The accesses made within an event stand outside. -/
theorem accessed_eq (env : Env) (s : State) (n : Nat) (ws : List HostWrite) :
    s.accessed env n ws = (beginEvent env s).outside (.host s.resetn (applyWrites s.hostMem ws) ws (env.bus.drop n)) := rfl

theorem wrote_eq (s : State) (n : Nat) (ws : List HostWrite) :
    s.wrote n ws = s.outside (.host s.resetn (applyWrites s.hostMem ws) (s.posted ++ ws) (s.bus.drop n)) := rfl

/-! ## What is read of it -/

@[simp] theorem outside_link (k : Slot) : (s.outside o).link k = s.link k := by rw [State.link, outside_links]; rfl
@[simp] theorem outside_profileOf (k : Slot) : (s.outside o).profileOf k = s.profileOf k := by simp [State.profileOf]
@[simp] theorem outside_recordOf (k : Slot) : (s.outside o).recordOf k = s.recordOf k := by simp [State.recordOf]
@[simp] theorem outside_freeRecord : (s.outside o).freeRecord = s.freeRecord := by simp [State.freeRecord]
@[simp] theorem outside_rangeOf (k : Slot) : (s.outside o).rangeOf k = s.rangeOf k := by simp [State.rangeOf]
@[simp] theorem outside_isDue (k : Slot) : (s.outside o).isDue k = s.isDue k := by simp [State.isDue]
@[simp] theorem outside_isUrgent (k : Slot) : (s.outside o).isUrgent k = s.isUrgent k := by simp [State.isUrgent]
@[simp] theorem outside_batch (id : BatchId) : (s.outside o).batch id = s.batch id := by cases id <;> simp [State.batch]
@[simp] theorem outside_bothFree : (s.outside o).bothFree = s.bothFree := by simp [State.bothFree]
@[simp] theorem outside_inService? : (s.outside o).inService? = s.inService? := by simp [State.inService?]
@[simp] theorem outside_serving? : (s.outside o).serving? = s.serving? := by simp [State.serving?]
@[simp] theorem outside_closing? : (s.outside o).closing? = s.closing? := by simp [State.closing?]
@[simp] theorem outside_enrolled (k : Slot) : (s.outside o).enrolled k = s.enrolled k := by simp [State.enrolled]
@[simp] theorem outside_enrolledSlots : (s.outside o).enrolledSlots = s.enrolledSlots := by
  simp only [State.enrolledSlots, show (s.outside o).enrolled = s.enrolled from funext fun k => outside_enrolled o s k]
@[simp] theorem outside_attemptOf (k : Slot) : (s.outside o).attemptOf k = s.attemptOf k := by simp [State.attemptOf]
@[simp] theorem outside_canOriginate (n : RecordNumber) : canOriginate n (s.outside o) = canOriginate n s := by simp [canOriginate]

/-! ## The board -/

@[simp] theorem outside_linkSlotBytes (k : Slot) : linkSlotBytes (s.outside o) k = linkSlotBytes s k :=
  linkSlotBytes_congr (outside_links o s) (outside_records o s) k
@[simp] theorem outside_deviceSlotBytes : deviceSlotBytes (s.outside o) = deviceSlotBytes s :=
  deviceSlotBytes_congr (outside_device o s) (outside_quiesce o s) (outside_records o s) (outside_queue o s) (outside_dueList o s)
theorem slotChanged_outside_left (t : State) (k : Slot) : slotChanged (s.outside o) t k = slotChanged s t k := by
  simp [slotChanged]
theorem slotChanged_outside_right (t : State) (k : Slot) : slotChanged t (s.outside o) k = slotChanged t s k := by
  simp [slotChanged]
@[simp] theorem boardWrites_outside_left (t : State) : boardWrites (s.outside o) t = boardWrites s t := by
  simp only [boardWrites, outside_deviceSlotBytes,
    show slotChanged (s.outside o) t = slotChanged s t from funext fun k => slotChanged_outside_left o s t k]
@[simp] theorem boardWrites_outside_right (t : State) : boardWrites t (s.outside o) = boardWrites t s := by
  simp only [boardWrites, outside_deviceSlotBytes, outside_linkSlotBytes, outside_boardBase,
    show slotChanged t (s.outside o) = slotChanged t s from funext fun k => slotChanged_outside_right o s t k]

/-! ## Single updates -/

@[simp] theorem outside_setLink (k : Slot) (l : Link) : (s.outside o).setLink k l = (s.setLink k l).outside o := by cases o <;> rfl
@[simp] theorem outside_modLink (k : Slot) (f : Link → Link) : (s.outside o).modLink k f = (s.modLink k f).outside o := by cases o <;> rfl
@[simp] theorem outside_setRecord (n : RecordNumber) (r : RenewalRecord) : (s.outside o).setRecord n r = (s.setRecord n r).outside o := by cases o <;> rfl
@[simp] theorem outside_modDevice (f : DeviceFaults → DeviceFaults) : (s.outside o).modDevice f = (s.modDevice f).outside o := by cases o <;> rfl
@[simp] theorem outside_setCause (c : Cause) : (s.outside o).setCause c = (s.setCause c).outside o := by cases o <;> rfl
@[simp] theorem outside_setProfile (p : ProfileNumber) (v : Profile) : (s.outside o).setProfile p v = (s.setProfile p v).outside o := by cases o <;> rfl
@[simp] theorem outside_setBatch (id : BatchId) (b : Batch) : (s.outside o).setBatch id b = (s.setBatch id b).outside o := by cases o <;> cases id <;> rfl
@[simp] theorem outside_pushItem (it : Item) : pushItem it (s.outside o) = (pushItem it s).outside o := by cases o <;> rfl
@[simp] theorem outside_foldNotice (n : Notice) : foldNotice n (s.outside o) = (foldNotice n s).outside o := by cases o <;> rfl
@[simp] theorem outside_dropNotice : dropNotice (s.outside o) = (dropNotice s).outside o := by cases o <;> rfl
@[simp] theorem outside_removeOffers (k : Slot) : removeOffers k (s.outside o) = (removeOffers k s).outside o := by cases o <;> rfl
@[simp] theorem outside_removeItems (k : Slot) : removeItems k (s.outside o) = (removeItems k s).outside o := by cases o <;> rfl
@[simp] theorem outside_setLastDraw (d : Draw) : setLastDraw d (s.outside o) = (setLastDraw d s).outside o := by cases o <;> rfl
@[simp] theorem outside_joinSendOrder (n : RecordNumber) : joinSendOrder n (s.outside o) = (joinSendOrder n s).outside o := by cases o <;> rfl
@[simp] theorem outside_leaveSendOrder (n : RecordNumber) : leaveSendOrder n (s.outside o) = (leaveSendOrder n s).outside o := by cases o <;> rfl
@[simp] theorem outside_setBranchMap (m : List Triple) : setBranchMap m (s.outside o) = (setBranchMap m s).outside o := by cases o <;> rfl
@[simp] theorem outside_removeDue (k : Slot) : removeDue k (s.outside o) = (removeDue k s).outside o := by cases o <;> rfl
@[simp] theorem outside_appendDue (k : Slot) (sec : Section) : appendDue k sec (s.outside o) = (appendDue k sec s).outside o := by cases o <;> rfl
@[simp] theorem outside_promoteDue (k : Slot) : promoteDue k (s.outside o) = (promoteDue k s).outside o := by cases o <;> rfl
@[simp] theorem outside_freeRecordAt (n : RecordNumber) : freeRecordAt n (s.outside o) = (freeRecordAt n s).outside o := by cases o <;> rfl
@[simp] theorem outside_popItem : popItem (s.outside o) = (popItem s).outside o := by cases o <;> rfl
@[simp] theorem outside_setEngine (e : EngineState) : setEngine e (s.outside o) = (setEngine e s).outside o := by cases o <;> rfl
@[simp] theorem outside_setFirstWaiting (f : Option BatchId) : setFirstWaiting f (s.outside o) = (setFirstWaiting f s).outside o := by cases o <;> rfl
@[simp] theorem outside_serveFromStart : serveFromStart (s.outside o) = (serveFromStart s).outside o := by cases o <;> rfl
@[simp] theorem outside_setAbandoned : setAbandoned (s.outside o) = (setAbandoned s).outside o := by cases o <;> rfl
@[simp] theorem outside_setNextIndex (n : Nat) : setNextIndex n (s.outside o) = (setNextIndex n s).outside o := by cases o <;> rfl
@[simp] theorem outside_countEntry : countEntry (s.outside o) = (countEntry s).outside o := by cases o <;> rfl
@[simp] theorem outside_setClamped : setClamped (s.outside o) = (setClamped s).outside o := by cases o <;> rfl
@[simp] theorem outside_setRunBase : setRunBase (s.outside o) = (setRunBase s).outside o := by cases o <;> rfl
@[simp] theorem outside_clearRunBit : clearRunBit (s.outside o) = (clearRunBit s).outside o := by cases o <;> rfl
@[simp] theorem outside_stopOnFault : stopOnFault (s.outside o) = (stopOnFault s).outside o := by cases o <;> rfl
@[simp] theorem outside_setSettings (v : Settings) : setSettings v (s.outside o) = (setSettings v s).outside o := by cases o <;> rfl
@[simp] theorem outside_takeMasterKey : takeMasterKey (s.outside o) = (takeMasterKey s).outside o := by cases o <;> rfl
@[simp] theorem outside_clearLastDraw : clearLastDraw (s.outside o) = (clearLastDraw s).outside o := by cases o <;> rfl
@[simp] theorem outside_endStartUp : endStartUp (s.outside o) = (endStartUp s).outside o := by cases o <;> rfl
@[simp] theorem outside_clearForRestart : clearForRestart (s.outside o) = (clearForRestart s).outside o := by cases o <;> rfl
@[simp] theorem outside_assertQuiesce : assertQuiesce (s.outside o) = (assertQuiesce s).outside o := by cases o <;> rfl
@[simp] theorem outside_walkTo (k : Slot) : walkTo k (s.outside o) = (walkTo k s).outside o := by cases o <;> rfl
@[simp] theorem outside_setPhase (n : Nat) : setPhase n (s.outside o) = (setPhase n s).outside o := by cases o <;> rfl
@[simp] theorem outside_setMask (m : BitVec 5) : setMask m (s.outside o) = (setMask m s).outside o := by cases o <;> rfl
@[simp] theorem outside_clearCauses (v : Word) : clearCauses v (s.outside o) = (clearCauses v s).outside o := by cases o <;> rfl

/-! ## Operations that draw nothing -/

@[simp] theorem outside_joinQueue (it : Item) : joinQueue it (s.outside o) = (joinQueue it s).outside o := by
  simp only [joinQueue, outside_bothFree, outside_pushItem, outside_setCause]
  split <;> rfl

@[simp] theorem outside_makeNotice (n : Notice) : makeNotice n (s.outside o) = (makeNotice n s).outside o := by
  simp only [makeNotice, outside_queue, outside_foldNotice, outside_joinQueue, outside_dropNotice]
  split
  · rfl
  · split <;> rfl

@[simp] theorem outside_raiseDevice (item : DeviceItem) : raiseDevice item (s.outside o) = (raiseDevice item s).outside o := by
  simp only [raiseDevice, outside_device, outside_modDevice, outside_makeNotice, outside_setCause]
  split <;> rfl

@[simp] theorem outside_countUnknownBranch : countUnknownBranch (s.outside o) = (countUnknownBranch s).outside o := by
  simp only [countUnknownBranch, outside_device, outside_modDevice, outside_makeNotice, outside_setCause]

@[simp] theorem outside_freeRecordOf (k : Slot) : freeRecordOf k (s.outside o) = (freeRecordOf k s).outside o := by
  simp only [freeRecordOf, outside_recordOf, outside_freeRecordAt]
  split <;> rfl

@[simp] theorem outside_originateOne (n : RecordNumber) : originateOne n (s.outside o) = (originateOne n s).outside o := by
  simp only [originateOne, outside_records, outside_link, outside_rangeOf, outside_setLink, outside_joinQueue,
    outside_setRecord, outside_leaveSendOrder]

/-- A fold of operations that look at nothing outside is one. -/
theorem outside_foldl {β : Type} {f : State → β → State} (h : ∀ s b, f (s.outside o) b = (f s b).outside o) (l : List β) :
    l.foldl f (s.outside o) = (l.foldl f s).outside o := by
  induction l generalizing s with
  | nil => rfl
  | cons b rest ih => rw [List.foldl_cons, List.foldl_cons, h, ih]

@[simp] theorem outside_tryOriginate : tryOriginate (s.outside o) = (tryOriginate s).outside o := by
  rw [tryOriginate, outside_sendOrder]
  refine outside_foldl o s (fun s n => ?_) _
  simp only [outside_canOriginate, outside_originateOne]
  split <;> rfl

@[simp] theorem outside_linkNotice (k : Slot) (kind : LinkKind) (edge : Edge) :
    linkNotice k kind edge (s.outside o) = (linkNotice k kind edge s).outside o := by
  simp only [linkNotice, outside_link, outside_makeNotice]

@[simp] theorem outside_clearKind (k : Slot) (kind : LinkKind) : clearKind k kind (s.outside o) = (clearKind k kind s).outside o := by
  simp only [clearKind, outside_modLink, outside_linkNotice]

@[simp] theorem outside_clearIfActive (k : Slot) (kind : LinkKind) :
    clearIfActive k kind (s.outside o) = (clearIfActive k kind s).outside o := by
  simp only [clearIfActive, outside_link, outside_clearKind]
  split <;> rfl

@[simp] theorem outside_decayKind (k : Slot) (r : RateKind) : decayKind k (s.outside o) r = (decayKind k s r).outside o := by
  simp only [decayKind, outside_profileOf, outside_modLink, outside_link, outside_clearKind]
  split <;> rfl

@[simp] theorem outside_decayKinds (k : Slot) : decayKinds k (s.outside o) = (decayKinds k s).outside o :=
  outside_foldl o s (fun s r => outside_decayKind o s k r) rateKinds

@[simp] theorem outside_endSilence (k : Slot) : endSilence k (s.outside o) = (endSilence k s).outside o := by
  simp only [endSilence, outside_modLink, outside_clearIfActive]

@[simp] theorem outside_eraseRetiring (k : Slot) : eraseRetiring k (s.outside o) = (eraseRetiring k s).outside o := by
  simp only [eraseRetiring, outside_link, outside_modLink]
  split <;> rfl

@[simp] theorem outside_checkRetiring (k : Slot) : checkRetiring k (s.outside o) = (checkRetiring k s).outside o := by
  simp only [checkRetiring, outside_link, outside_eraseRetiring]
  split <;> rfl

@[simp] theorem outside_deliverItem (it : Item) : deliverItem it (s.outside o) = (deliverItem it s).outside o := by
  cases it with
  | notice n => rfl
  | offer k packet =>
    simp only [deliverItem, outside_recordOf, outside_records, outside_profileOf, outside_setRecord]
    split <;> rfl

@[simp] theorem outside_collectAfterClose : collectAfterClose (s.outside o) = (collectAfterClose s).outside o := by
  simp only [collectAfterClose, outside_bothFree, outside_queue, outside_setCause]
  split <;> rfl

@[simp] theorem outside_onEnrolled (f : Link → Link) : onEnrolled f (s.outside o) = (onEnrolled f s).outside o := by
  rw [onEnrolled, outside_enrolledSlots]
  exact outside_foldl o s (fun s k => outside_modLink o s k f) _

@[simp] theorem outside_admitInto (n : RecordNumber) (k : Slot) (key : Key) (salt : Salt) (nonce : AttemptNonce) :
    admitInto n k key salt nonce (s.outside o) = (admitInto n k key salt nonce s).outside o := by
  simp only [admitInto, outside_removeDue, outside_link, outside_setRecord, outside_modLink, outside_joinSendOrder,
    outside_tryOriginate]

/-! ## Operations that draw -/

variable (r : Bool) (m : Memory) (p : List HostWrite) (b : List BusOutcome)

@[simp] theorem host_nextNoise :
    nextNoise (s.outside (.host r m p b)) = ((nextNoise s).1, (nextNoise s).2.outside (.host r m p b)) := by
  unfold nextNoise
  rw [host_noise]
  split <;> rfl

@[simp] theorem host_draw : draw (s.outside (.host r m p b)) = ((draw s).1, (draw s).2.outside (.host r m p b)) := by
  simp only [draw, host_nextNoise, outside_lastDraw, outside_setLastDraw, outside_raiseDevice]
  split <;> rfl

@[simp] theorem host_drawMany (n : Nat) :
    drawMany n (s.outside (.host r m p b)) = ((drawMany n s).1, (drawMany n s).2.outside (.host r m p b)) := by
  induction n generalizing s with
  | zero => rfl
  | succ n ih =>
    unfold drawMany
    rw [host_draw]
    rcases draw s with ⟨_ | d, t⟩
    · rfl
    · dsimp only
      rw [ih]
      rcases drawMany n t with ⟨_ | ds, u⟩ <;> rfl

@[simp] theorem host_selfTest : selfTest (s.outside (.host r m p b)) = (selfTest s).outside (.host r m p b) := by
  simp only [selfTest, host_draw]

@[simp] theorem host_admitUpTo (i : Nat) : admitUpTo i (s.outside (.host r m p b)) = (admitUpTo i s).outside (.host r m p b) := by
  induction i generalizing s with
  | zero => rfl
  | succ i ih =>
    unfold admitUpTo
    simp only [outside_freeRecord, outside_dueList, outside_device, host_drawMany]
    split
    · rename_i n k _ _ _
      rcases drawMany 6 s with ⟨drawn, t⟩
      dsimp only
      split
      · rename_i d0 d1 d2 d3 d4 d5 u e
        cases e
        dsimp only
        rw [outside_admitInto, ih]
      · rename_i notSix e
        cases e
        split
        · rename_i e
          cases e
          exact absurd rfl (notSix _ _ _ _ _ _)
        · rename_i e
          cases e
          rfl
    · rfl

@[simp] theorem host_tryAdmit : tryAdmit (s.outside (.host r m p b)) = (tryAdmit s).outside (.host r m p b) :=
  host_admitUpTo s r m p b 16

@[simp] theorem host_joinDue (k : Slot) (sec : Section) :
    joinDue k sec (s.outside (.host r m p b)) = (joinDue k sec s).outside (.host r m p b) := by
  simp only [joinDue, outside_appendDue, outside_modLink, host_tryAdmit]

@[simp] theorem host_forcedJoin (k : Slot) (sec : Section) :
    forcedJoin k sec (s.outside (.host r m p b)) = ((forcedJoin k sec s).1, (forcedJoin k sec s).2.outside (.host r m p b)) := by
  simp only [forcedJoin, outside_link, outside_dueList, outside_promoteDue, host_joinDue]
  split
  · rfl
  · rfl
  · split <;> rfl
  · rfl

@[simp] theorem host_dueCheck (k : Slot) (site : DueSite) :
    dueCheck k site (s.outside (.host r m p b)) = (dueCheck k site s).outside (.host r m p b) := by
  simp only [dueCheck, outside_link, outside_isDue, outside_isUrgent, outside_dueList, outside_promoteDue, host_joinDue]
  split
  · rfl
  · split
    · split <;> rfl
    · split <;> rfl
    · rfl
    · rfl

@[simp] theorem host_quarantineLink (k : Slot) :
    quarantineLink k (s.outside (.host r m p b)) = (quarantineLink k s).outside (.host r m p b) := by
  simp only [quarantineLink, outside_link, outside_branchMap, outside_modLink, outside_clearIfActive, outside_freeRecordOf,
    outside_removeDue, outside_removeOffers, host_tryAdmit, outside_tryOriginate]
  split <;> rfl

@[simp] theorem host_takeAction (k : Slot) (a : Action) :
    takeAction k a (s.outside (.host r m p b)) = (takeAction k a s).outside (.host r m p b) := by
  cases a with
  | note => rfl
  | hold => exact outside_modLink _ _ _ _
  | renew =>
    simp only [takeAction, outside_link, host_forcedJoin]
    split <;> rfl
  | quarantine => exact host_quarantineLink _ _ _ _ _ _

@[simp] theorem host_raiseKind (k : Slot) (kind : LinkKind) :
    raiseKind k kind (s.outside (.host r m p b)) = (raiseKind k kind s).outside (.host r m p b) := by
  simp only [raiseKind, outside_modLink, outside_linkNotice, outside_setCause, outside_profileOf, host_takeAction]

@[simp] theorem host_raiseIfInactive (k : Slot) (kind : LinkKind) :
    raiseIfInactive k kind (s.outside (.host r m p b)) = (raiseIfInactive k kind s).outside (.host r m p b) := by
  simp only [raiseIfInactive, outside_link, host_raiseKind]
  split <;> rfl

@[simp] theorem host_scoreKind (k : Slot) (q : RateKind) :
    scoreKind k q (s.outside (.host r m p b)) = (scoreKind k q s).outside (.host r m p b) := by
  simp only [scoreKind, outside_profileOf, outside_modLink, outside_link, host_raiseKind]
  split <;> rfl

@[simp] theorem host_reexamineKind (k : Slot) (q : RateKind) :
    reexamineKind k (s.outside (.host r m p b)) q = (reexamineKind k s q).outside (.host r m p b) := by
  simp only [reexamineKind, outside_profileOf, outside_link, host_raiseKind, outside_clearKind]
  split
  · rfl
  · split <;> rfl

@[simp] theorem host_reexamine (k : Slot) :
    reexamine k (s.outside (.host r m p b)) = (reexamine k s).outside (.host r m p b) :=
  outside_foldl _ s (fun s q => host_reexamineKind s r m p b k q) rateKinds

@[simp] theorem host_countSilence (k : Slot) :
    countSilence k (s.outside (.host r m p b)) = (countSilence k s).outside (.host r m p b) := by
  simp only [countSilence, outside_link, outside_modLink, outside_profileOf, host_raiseIfInactive]
  split
  · rfl
  · rfl
  · split <;> rfl

@[simp] theorem host_spendCurrent (k : Slot) :
    spendCurrent k (s.outside (.host r m p b)) = (spendCurrent k s).outside (.host r m p b) := by
  simp only [spendCurrent, outside_modLink, host_raiseIfInactive]

@[simp] theorem host_checkCurrent (k : Slot) :
    checkCurrent k (s.outside (.host r m p b)) = (checkCurrent k s).outside (.host r m p b) := by
  simp only [checkCurrent, outside_link, host_spendCurrent]
  split <;> rfl

@[simp] theorem host_takeReport (k : Slot) (entries : List ShopCode) :
    takeReport k entries (s.outside (.host r m p b)) = (takeReport k entries s).outside (.host r m p b) := by
  simp only [takeReport, outside_modLink, host_raiseIfInactive, outside_clearIfActive]
  split <;> rfl

/-! ## The exchange -/

@[simp] theorem host_install (n : RecordNumber) :
    install n (s.outside (.host r m p b)) = (install n s).outside (.host r m p b) := by
  simp only [install, outside_records, outside_profileOf, outside_modLink, outside_freeRecordAt, outside_clearIfActive,
    host_dueCheck, host_tryAdmit]

@[simp] theorem host_failRenewal (n : RecordNumber) :
    failRenewal n (s.outside (.host r m p b)) = (failRenewal n s).outside (.host r m p b) := by
  simp only [failRenewal, outside_records, outside_profileOf, outside_modLink, outside_freeRecordAt, host_raiseIfInactive,
    host_tryAdmit]

@[simp] theorem host_retry (n : RecordNumber) : retry n (s.outside (.host r m p b)) = (retry n s).outside (.host r m p b) := by
  simp only [retry, host_draw]
  rcases draw s with ⟨_ | nonce, t⟩
  · exact host_failRenewal t r m p b n
  · simp only [outside_records, outside_setRecord, outside_joinSendOrder, outside_tryOriginate]

@[simp] theorem host_endAttempt (n : RecordNumber) :
    endAttempt n (s.outside (.host r m p b)) = (endAttempt n s).outside (.host r m p b) := by
  simp only [endAttempt, outside_records, outside_profileOf, outside_device, host_retry, host_failRenewal]
  split <;> rfl

@[simp] theorem host_expireReply (n : RecordNumber) :
    expireReply n (s.outside (.host r m p b)) = (expireReply n s).outside (.host r m p b) := by
  simp only [expireReply, outside_records, outside_setRecord, host_endAttempt]

@[simp] theorem host_markRecord (n : RecordNumber) :
    markRecord n (s.outside (.host r m p b)) = (markRecord n s).outside (.host r m p b) := by
  simp only [markRecord, outside_records, outside_setRecord, host_expireReply]
  split
  · split <;> rfl
  · rfl

/-- An answer that goes with one of two states. -/
theorem outside_answer {c : Prop} [Decidable c] (t u : State) :
    (if c then (true, t.outside o) else (false, u.outside o)) =
      ((if c then (true, t) else (false, u)).1, (if c then (true, t) else (false, u)).2.outside o) := by
  split <;> rfl

@[simp] theorem host_takeAccept (k : Slot) (g : Nat) (nonce : AttemptNonce) (proof : Proof) :
    takeAccept k g nonce proof (s.outside (.host r m p b)) =
      ((takeAccept k g nonce proof s).1, (takeAccept k g nonce proof s).2.outside (.host r m p b)) := by
  simp only [takeAccept, outside_recordOf, outside_records, host_install]
  cases s.recordOf k with
  | none => rfl
  | some n => exact outside_answer _ _ _

@[simp] theorem host_takeRefuse (k : Slot) (g : Nat) (nonce : AttemptNonce) (reason : Refuse) :
    takeRefuse k g nonce reason (s.outside (.host r m p b)) =
      ((takeRefuse k g nonce reason s).1, (takeRefuse k g nonce reason s).2.outside (.host r m p b)) := by
  simp only [takeRefuse, outside_recordOf, outside_records, outside_setRecord, host_endAttempt]
  cases s.recordOf k with
  | none => rfl
  | some n => exact outside_answer _ _ _

/-! ## Traffic -/

@[simp] theorem host_afterCharge (k : Slot) (choice : KeyChoice) :
    afterCharge k choice (s.outside (.host r m p b)) = (afterCharge k choice s).outside (.host r m p b) := by
  cases choice with
  | root => rfl
  | current => simp only [afterCharge, host_checkCurrent, host_dueCheck]
  | retiring => exact outside_checkRetiring _ s k

@[simp] theorem host_tagPassed (k : Slot) (choice : KeyChoice) (q : Nat) :
    tagPassed k choice q (s.outside (.host r m p b)) = (tagPassed k choice q s).outside (.host r m p b) := by
  simp only [tagPassed, outside_modLink, outside_endSilence, outside_eraseRetiring]
  split <;> exact host_afterCharge _ r m p b k choice

/-! ## Administration -/

@[simp] theorem host_enrolLink (k : Slot) (block : LinkBlock) (profile : ProfileNumber) (key : Key) (hold : Bool) :
    enrolLink k block profile key hold (s.outside (.host r m p b)) =
      (enrolLink k block profile key hold s).outside (.host r m p b) := by
  simp only [enrolLink, outside_setLink, outside_branchMap, outside_setBranchMap, host_joinDue]

@[simp] theorem host_retireLink (k : Slot) : retireLink k (s.outside (.host r m p b)) = (retireLink k s).outside (.host r m p b) := by
  simp only [retireLink, outside_freeRecordOf, outside_removeDue, outside_removeItems, outside_branchMap,
    outside_setBranchMap, outside_setLink, host_tryAdmit, outside_tryOriginate]

@[simp] theorem host_relink (k : Slot) (block : LinkBlock) (profile : ProfileNumber) :
    relink k block profile (s.outside (.host r m p b)) = (relink k block profile s).outside (.host r m p b) := by
  simp only [relink, outside_link, outside_rangeOf, outside_branchMap, outside_setBranchMap]
  split <;> split <;> simp only [outside_modLink, host_reexamine, host_dueCheck]

@[simp] theorem outside_namingLinks (q : ProfileNumber) : (s.outside o).namingLinks q = s.namingLinks q := by
  simp [State.namingLinks]

@[simp] theorem host_writeProfile (q : ProfileNumber) (v : Profile) :
    writeProfile q v (s.outside (.host r m p b)) = (writeProfile q v s).outside (.host r m p b) := by
  simp only [writeProfile, outside_namingLinks, outside_setProfile]
  exact outside_foldl (f := fun s k => reexamine k s) _ _ (fun s k => host_reexamine s r m p b k) _

theorem host_renewOneOfAll (n : Nat) (k : Slot) :
    renewOneOfAll (n, s.outside (.host r m p b)) k =
      ((renewOneOfAll (n, s) k).1, (renewOneOfAll (n, s) k).2.outside (.host r m p b)) := by
  simp only [renewOneOfAll, outside_link, host_forcedJoin]
  split
  · rfl
  · rcases forcedJoin k .ordinary s with ⟨did, t⟩
    cases did <;> rfl

@[simp] theorem host_renewAll :
    renewAll (s.outside (.host r m p b)) = ((renewAll s).1, (renewAll s).2.outside (.host r m p b)) := by
  rw [renewAll, renewAll, outside_enrolledSlots]
  generalize s.enrolledSlots = l, 0 = n
  induction l generalizing n s with
  | nil => rfl
  | cons k rest ih =>
    rw [List.foldl_cons, List.foldl_cons, host_renewOneOfAll]
    exact ih _ _

/-! ## The clock -/

@[simp] theorem host_ageCurrent (k : Slot) : ageCurrent k (s.outside (.host r m p b)) = (ageCurrent k s).outside (.host r m p b) := by
  simp only [ageCurrent, outside_link, outside_modLink, host_checkCurrent]
  split <;> rfl

@[simp] theorem outside_ageRetiring (k : Slot) : ageRetiring k (s.outside o) = (ageRetiring k s).outside o := by
  simp only [ageRetiring, outside_link, outside_modLink, outside_checkRetiring]
  split <;> rfl

@[simp] theorem outside_countRetireTimer (k : Slot) : countRetireTimer k (s.outside o) = (countRetireTimer k s).outside o := by
  simp only [countRetireTimer, outside_link, outside_modLink, outside_eraseRetiring]
  split
  · split <;> rfl
  · rfl

@[simp] theorem host_markLink (k : Slot) : markLink k (s.outside (.host r m p b)) = (markLink k s).outside (.host r m p b) := by
  simp only [markLink, outside_link, host_ageCurrent, outside_ageRetiring, outside_countRetireTimer, outside_modLink,
    host_dueCheck, outside_decayKinds, host_countSilence]
  split <;> rfl

@[simp] theorem host_reachAgeLimit (k : Slot) (which : KeySlotName) :
    reachAgeLimit k which (s.outside (.host r m p b)) = (reachAgeLimit k which s).outside (.host r m p b) := by
  cases which <;> simp only [reachAgeLimit, outside_link, host_ageCurrent, outside_ageRetiring] <;> split <;> rfl

@[simp] theorem outside_reachRetireTime (k : Slot) : reachRetireTime k (s.outside o) = (reachRetireTime k s).outside o := by
  simp only [reachRetireTime, outside_link, outside_countRetireTimer]
  split <;> rfl

@[simp] theorem host_reachRestEnd (k : Slot) :
    reachRestEnd k (s.outside (.host r m p b)) = (reachRestEnd k s).outside (.host r m p b) := by
  simp only [reachRestEnd, outside_link, outside_modLink, host_dueCheck]
  split <;> rfl

@[simp] theorem host_reachReplyExpiry (n : RecordNumber) :
    reachReplyExpiry n (s.outside (.host r m p b)) = (reachReplyExpiry n s).outside (.host r m p b) := by
  simp only [reachReplyExpiry, outside_records, host_expireReply]
  split <;> rfl

/-- The first slot visited from a position on, and else the first at all. -/
def firstFrom (w : Slot) (visited : Slot → Bool) : Option Slot :=
  match allSlots.find? fun k => w ≤ k && visited k with
  | some k => some k
  | none => allSlots.find? visited

theorem scrubSelect_eq : s.scrubSelect = firstFrom s.walkPosition s.scrubbed := by
  unfold State.scrubSelect firstFrom
  cases allSlots.find? fun k => s.walkPosition ≤ k && s.scrubbed k <;> rfl

@[simp] theorem outside_scrubSelect : (s.outside o).scrubSelect = s.scrubSelect := by
  have scrubbed : (s.outside o).scrubbed = s.scrubbed := by
    funext k
    simp only [State.scrubbed, outside_link]
  rw [scrubSelect_eq, scrubSelect_eq, outside_walkPosition, scrubbed]

@[simp] theorem host_scrub : scrub (s.outside (.host r m p b)) = (scrub s).outside (.host r m p b) := by
  unfold scrub
  rw [outside_scrubSelect]
  cases s.scrubSelect with
  | none => rfl
  | some k =>
    dsimp only
    rw [outside_link, outside_walkTo, host_raiseKind]
    split <;> rfl

/-! ## Start-up, RESTART and the pins -/

@[simp] theorem outside_loadSettings (block : List Byte) : loadSettings block (s.outside o) = (loadSettings block s).outside o := by
  simp only [loadSettings, outside_setSettings, outside_raiseDevice]
  split <;> rfl

@[simp] theorem outside_readMasterKey : readMasterKey (s.outside o) = (readMasterKey s).outside o := by
  simp only [readMasterKey, outside_takeMasterKey, outside_masterKey, outside_raiseDevice]
  split <;> rfl

@[simp] theorem host_startUp (block : List Byte) :
    startUp block (s.outside (.host r m p b)) = (startUp block s).outside (.host r m p b) := by
  simp only [startUp, outside_engine, outside_loadSettings, outside_readMasterKey, outside_clearLastDraw, host_selfTest,
    outside_endStartUp]
  split <;> rfl

@[simp] theorem outside_restartState : restartState (s.outside o) = (restartState s).outside o := by
  simp only [restartState, outside_onEnrolled, outside_clearForRestart]

@[simp] theorem outside_releaseQuiesce : releaseQuiesce (s.outside o) = (releaseQuiesce s).outside o := by
  have level : ({ s.outside o with quiesce := false } : State) = ({ s with quiesce := false } : State).outside o := by
    cases o <;> rfl
  rw [releaseQuiesce, level, outside_tryOriginate, releaseQuiesce]

end Sys2Proof.Machine
end

