-- ==== Sys2Proof/Proofs/Admission.lean ====
section
/-! PROOFS. The due tests and the due check, a join, an admission, and the origination of an offer. -/

namespace Sys2Proof.Machine
variable {s : State} {k : Slot} {n : RecordNumber}

/-! ## The lowest of a list of numbers -/

/-- The first number of which a test holds. -/
theorem find?_finRange_eq_some {m : Nat} {p : Fin m → Bool} {i : Fin m} :
    (List.finRange m).find? p = some i ↔ p i = true ∧ ∀ j, j < i → p j = false := by
  rw [List.find?_eq_some_iff_append]
  constructor
  · rintro ⟨hit, before, after, split, none⟩
    refine ⟨hit, fun j low => ?_⟩
    have sorted : (before ++ i :: after).Pairwise (· < ·) := split ▸ List.pairwise_lt_finRange m
    have mem : j ∈ before ++ i :: after := split ▸ List.mem_finRange j
    rcases List.mem_append.1 mem with front | rest
    · simpa using none j front
    · rcases List.mem_cons.1 rest with rfl | back
      · exact absurd low (lt_irrefl _)
      · have above := (List.pairwise_cons.1 (List.pairwise_append.1 sorted).2.1).1 j back
        exact absurd (low.trans above) (lt_irrefl _)
  · rintro ⟨hit, none⟩
    obtain ⟨before, after, split⟩ := List.append_of_mem (List.mem_finRange i)
    refine ⟨hit, before, after, split, fun j front => ?_⟩
    have sorted : (before ++ i :: after).Pairwise (· < ·) := split ▸ List.pairwise_lt_finRange m
    have low : j < i := (List.pairwise_append.1 sorted).2.2 j front i List.mem_cons_self
    simp [none j low]

theorem freeRecord_eq_none : s.freeRecord = none ↔ ∀ n : RecordNumber, ¬ s.records[n].state = .free := by
  rw [State.freeRecord, List.find?_eq_none]
  exact ⟨fun h n => by simpa using h n (List.mem_finRange n), fun h n _ => by simpa using h n⟩

theorem freeRecord_eq_some : s.freeRecord = some n ↔
    s.records[n].state = .free ∧ ∀ m : RecordNumber, m < n → ¬ s.records[m].state = .free := by
  rw [State.freeRecord, allRecordNumbers, find?_finRange_eq_some]
  simp

theorem dueHead_eq (d : DueList) : d.head? = (d.urgent ++ d.ordinary).head? := by
  unfold DueList.head?
  cases d.urgent <;> rfl

/-! ## Due and urgent -/

theorem isDue_live (h : (s.link k).state = .live) :
    s.isDue k = keyDue (s.link k).current (reserve (s.link k).rate (s.profileOf k).lead) (s.profileOf k).lead := by
  rw [State.isDue, h]

theorem isUrgent_live (h : (s.link k).state = .live) :
    s.isUrgent k = keyUrgent (s.link k).current (reserve (s.link k).rate (s.profileOf k).lead) (s.profileOf k).lead := by
  rw [State.isUrgent, h]

theorem keyDue_iff {slot : KeySlot} {r lead : Nat} :
    keyDue slot r lead = true ↔ slot.budget ≤ slot.use + r ∨ slot.ageLimit ≤ slot.age + lead := by simp [keyDue]

theorem keyUrgent_iff {slot : KeySlot} {r lead : Nat} :
    keyUrgent slot r lead = true ↔ slot.budget - slot.use ≤ r / 2 ∨ slot.ageLimit - slot.age ≤ lead / 2 := by
  simp [keyUrgent]

/-- An urgent key is due. -/
theorem keyDue_of_keyUrgent {slot : KeySlot} {r lead : Nat} (h : keyUrgent slot r lead = true) : keyDue slot r lead = true := by
  rw [keyUrgent_iff] at h
  rw [keyDue_iff]
  omega

theorem isDue_of_waiting (h : (s.link k).state = .standby ∨ (s.link k).state = .stalled) :
    s.isDue k = true ∧ s.isUrgent k = true := by
  rw [State.isDue, State.isUrgent]
  rcases h with h | h <;> rw [h] <;> exact ⟨rfl, rfl⟩

theorem isDue_quarantined (h : (s.link k).state = .quarantined) : s.isDue k = false ∧ s.isUrgent k = false := by
  rw [State.isDue, State.isUrgent, h]
  exact ⟨rfl, rfl⟩

/-! ## The due check -/

theorem dueCheck_outside (h : (s.link k).state = .vacant ∨ (s.link k).state = .quarantined) (site : DueSite) :
    dueCheck k site s = s := if_pos h

section
variable (enrolled : (s.link k).state ≠ .vacant) (free : (s.link k).state ≠ .quarantined) (site : DueSite)
include enrolled free

theorem dueCheck_idle (renewal : (s.link k).renewal = .idle) : dueCheck k site s =
    if s.isDue k then joinDue k (if s.isUrgent k then .urgent else .ordinary) s else s := by
  rw [dueCheck, if_neg (not_or.2 ⟨enrolled, free⟩), renewal]

theorem dueCheck_due (renewal : (s.link k).renewal = .due) : dueCheck k site s =
    if site = .testsUrgency ∧ s.isUrgent k ∧ k ∈ s.dueList.ordinary then promoteDue k s else s := by
  rw [dueCheck, if_neg (not_or.2 ⟨enrolled, free⟩), renewal]

theorem dueCheck_busy (renewal : (s.link k).renewal = .exchange ∨ (s.link k).renewal = .rest) : dueCheck k site s = s := by
  rw [dueCheck, if_neg (not_or.2 ⟨enrolled, free⟩)]
  rcases renewal with h | h <;> rw [h]

end

/-! ## Admissions -/

/-- No admission is possible. -/
def State.admitsNone (s : State) : Prop := s.freeRecord = none ∨ s.dueList.head? = none ∨ s.device.randomFault = true

theorem admitUpTo_none (h : s.admitsNone) (i : Nat) : admitUpTo i s = s := by
  cases i with
  | zero => rfl
  | succ i =>
    rw [admitUpTo]
    rcases h with h | h | h <;> rw [h]
    · cases s.freeRecord <;> rfl
    · cases s.freeRecord <;> cases s.dueList.head? <;> rfl

/-- One admission, when its six draws pass. -/
theorem admitUpTo_drawn {t : State} {d0 d1 d2 d3 d4 d5 : Draw} (i : Nat) (free : s.freeRecord = some n)
    (head : s.dueList.head? = some k) (sound : s.device.randomFault = false)
    (drawn : drawMany 6 s = (some [d0, d1, d2, d3, d4, d5], t)) :
    admitUpTo (i + 1) s = admitUpTo i (admitInto n k (keyOfDraws d0 d1 d2 d3) d4 d5 t) := by
  rw [admitUpTo, free, head, sound]
  dsimp only
  rw [drawn]

theorem admitUpTo_failed {t : State} (i : Nat) (free : s.freeRecord = some n) (head : s.dueList.head? = some k)
    (sound : s.device.randomFault = false) (failed : drawMany 6 s = (none, t)) : admitUpTo (i + 1) s = t := by
  rw [admitUpTo, free, head, sound]
  dsimp only
  rw [failed]

/-! ### Draws -/

theorem draw_passes {d : Draw} {rest : List Draw} (noise : s.noise = d :: rest) (other : s.lastDraw ≠ some d) :
    draw s = (some d, { s with noise := rest, lastDraw := some d }) := by
  rw [draw, nextNoise, noise]
  dsimp only
  rw [if_neg other]
  rfl

theorem draw_fails {d : Draw} {rest : List Draw} (noise : s.noise = d :: rest) (same : s.lastDraw = some d) :
    draw s = (none, raiseDevice .randomFault { s with noise := rest, lastDraw := some d }) := by
  rw [draw, nextNoise, noise]
  dsimp only
  rw [if_pos same]
  rfl

/-- Draws that all pass. -/
theorem drawMany_passes {ds rest : List Draw} (noise : s.noise = ds ++ rest) (pass : drawsPass s.lastDraw ds) :
    drawMany ds.length s = (some ds, { s with noise := rest, lastDraw := ds.getLast?.or s.lastDraw }) := by
  induction ds generalizing s with
  | nil =>
    have : s.noise = rest := noise
    subst this
    rfl
  | cons d ds ih =>
    obtain ⟨other, later⟩ := pass
    have first : s.noise = d :: (ds ++ rest) := noise
    rw [List.length_cons, drawMany, draw_passes first other]
    dsimp only
    rw [ih (s := { s with noise := ds ++ rest, lastDraw := some d }) rfl later]
    have last : (d :: ds).getLast?.or s.lastDraw = ds.getLast?.or (some d) := by
      cases ds with
      | nil => rfl
      | cons e es => simp [List.getLast?_cons]
    rw [last]

/-- Draws of which one fails. -/
theorem drawMany_fails {passed rest : List Draw} {d : Draw} (noise : s.noise = passed ++ d :: rest)
    (pass : drawsPass s.lastDraw passed) (same : passed.getLast?.or s.lastDraw = some d) (more : Nat) :
    drawMany (passed.length + 1 + more) s = (none, raiseDevice .randomFault { s with noise := rest, lastDraw := some d }) := by
  induction passed generalizing s with
  | nil =>
    rw [List.length_nil, Nat.zero_add, Nat.add_comm, drawMany, draw_fails noise same]
  | cons e passed ih =>
    obtain ⟨other, later⟩ := pass
    have first : s.noise = e :: (passed ++ d :: rest) := noise
    rw [List.length_cons, show passed.length + 1 + 1 + more = (passed.length + 1 + more) + 1 by omega, drawMany,
      draw_passes first other]
    dsimp only
    have last : passed.getLast?.or (some e) = some d := by
      rw [← same]
      cases passed with
      | nil => rfl
      | cons f fs => simp [List.getLast?_cons]
    rw [ih (s := { s with noise := passed ++ d :: rest, lastDraw := some e }) rfl later last]

theorem raiseDevice_randomFault (s : State) : (raiseDevice .randomFault s).device.randomFault = true := by
  unfold raiseDevice
  split
  · assumption
  · rw [State.setCause_device]
    have kept (n : Notice) (t : State) : (makeNotice n t).device.randomFault = t.device.randomFault := by
      unfold makeNotice
      split
      · rfl
      · split
        · unfold joinQueue; split <;> rfl
        · rfl
    rw [kept]
    rfl

/-- Draws that end in none have raised RANDOM_FAULT. -/
theorem randomFault_of_draw_none {t : State} (h : draw s = (none, t)) : t.device.randomFault = true := by
  unfold draw at h
  dsimp only at h
  split at h
  · cases h; exact raiseDevice_randomFault _
  · cases h

theorem randomFault_of_drawMany_none {m : Nat} {t : State} (h : drawMany m s = (none, t)) : t.device.randomFault = true := by
  induction m generalizing s with
  | zero => cases h
  | succ m ih =>
    unfold drawMany at h
    split at h
    · rename_i failed
      cases h
      exact randomFault_of_draw_none failed
    · split at h
      · rename_i failed
        cases h
        exact ih failed
      · cases h

theorem length_of_drawMany {m : Nat} {ds : List Draw} {t : State} (h : drawMany m s = (some ds, t)) : ds.length = m := by
  induction m generalizing s ds t with
  | zero => cases h; rfl
  | succ m ih =>
    unfold drawMany at h
    split at h
    · cases h
    · split at h
      · cases h
      · rename_i e
        cases h
        rw [List.length_cons, ih e]

/-! ### The end of the admissions -/

/-- The free renewal records. -/
def State.freeRecords (s : State) : Finset RecordNumber := Finset.univ.filter fun n => s.records[n].state = .free

theorem records_setRecord (s : State) (n m : RecordNumber) (r : RenewalRecord) :
    (s.setRecord n r).records[m] = if m = n then r else s.records[m] := by
  split
  · rename_i e; subst e; exact Vector.getElem_set_self _
  · rename_i e
    exact Vector.getElem_set_ne n.isLt m.isLt fun h => e (Fin.ext h.symm)

theorem records_originateOne (s : State) (n : RecordNumber) :
    (originateOne n s).records = (s.setRecord n { s.records[n] with offerQueued := true }).records := by
  unfold originateOne joinQueue
  dsimp only
  split <;> rfl

/-- A try at origination leaves the state of each renewal record. -/
theorem recordState_tryOriginate (s : State) (m : RecordNumber) :
    (tryOriginate s).records[m].state = s.records[m].state := by
  have one (s : State) (n : RecordNumber) : (originateOne n s).records[m].state = s.records[m].state := by
    rw [records_originateOne, records_setRecord]
    split
    · rename_i e; rw [e]
    · rfl
  unfold tryOriginate
  generalize s.sendOrder = l
  induction l generalizing s with
  | nil => rfl
  | cons n rest ih =>
    rw [List.foldl_cons, ih]
    split
    · exact one s n
    · rfl

theorem recordState_admitInto (n m : RecordNumber) (k : Slot) (key : Key) (salt : Salt) (nonce : AttemptNonce) (s : State) :
    (admitInto n k key salt nonce s).records[m].state = if m = n then .waitingSend else s.records[m].state := by
  rw [admitInto, recordState_tryOriginate]
  have set := records_setRecord (removeDue k s) n m (admittedRecord ((removeDue k s).link k) k key salt nonce)
  have kept : (joinSendOrder n (((removeDue k s).setRecord n
      (admittedRecord ((removeDue k s).link k) k key salt nonce)).modLink k (Link.withRenewal .exchange 0))).records =
      ((removeDue k s).setRecord n (admittedRecord ((removeDue k s).link k) k key salt nonce)).records := rfl
  rw [kept, set]
  split <;> rfl

/-- What a try at admission leaves lets no other follow, when it makes as many as there are free records. -/
theorem admitUpTo_ends (i : Nat) (enough : s.freeRecords.card ≤ i) : (admitUpTo i s).admitsNone := by
  induction i generalizing s with
  | zero =>
    refine .inl (freeRecord_eq_none.2 fun n free => ?_)
    have mem : n ∈ s.freeRecords := Finset.mem_filter.2 ⟨Finset.mem_univ n, free⟩
    rw [Finset.card_eq_zero.1 (Nat.le_zero.1 enough)] at mem
    exact absurd mem (Finset.notMem_empty n)
  | succ i ih =>
    by_cases none : s.admitsNone
    · rw [admitUpTo_none none]; exact none
    obtain ⟨hasFree, hasHead, sound⟩ : s.freeRecord ≠ Option.none ∧ s.dueList.head? ≠ Option.none ∧ ¬ s.device.randomFault = true := by
      simpa [State.admitsNone, not_or] using none
    obtain ⟨n, free⟩ := Option.ne_none_iff_exists'.1 hasFree
    obtain ⟨k, head⟩ := Option.ne_none_iff_exists'.1 hasHead
    have sound : s.device.randomFault = false := by simpa using sound
    rcases drawn : drawMany 6 s with ⟨_ | ds, t⟩
    · rw [admitUpTo_failed i free head sound drawn]
      exact .inr (.inr (randomFault_of_drawMany_none drawn))
    · have six := length_of_drawMany drawn
      match ds, six with
      | [d0, d1, d2, d3, d4, d5], _ =>
        rw [admitUpTo_drawn i free head sound drawn]
        refine ih ?_
        have records : t.records = s.records := by
          have beside := (beside_drawMany 6 s).records
          rw [drawn] at beside
          exact beside
        have fewer : (admitInto n k (keyOfDraws d0 d1 d2 d3) d4 d5 t).freeRecords ⊂ s.freeRecords := by
          refine Finset.ssubset_iff_of_subset (fun m hm => ?_) |>.2 ⟨n, ?_, fun hn => ?_⟩
          · have state := (Finset.mem_filter.1 hm).2
            rw [recordState_admitInto, records] at state
            split at state
            · cases state
            · exact Finset.mem_filter.2 ⟨Finset.mem_univ m, state⟩
          · exact Finset.mem_filter.2 ⟨Finset.mem_univ n, (freeRecord_eq_some.1 free).1⟩
          · have state := (Finset.mem_filter.1 hn).2
            rw [recordState_admitInto, if_pos rfl] at state
            cases state
        have := Finset.card_lt_card fewer
        omega

theorem tryAdmit_ends (s : State) : (tryAdmit s).admitsNone :=
  admitUpTo_ends 16 ((Finset.card_le_univ _).trans (by simp))

end Sys2Proof.Machine
end

