-- ==== Sys2Proof/Proofs/Turnovers.lean ====
section
/-! PROOFS. Events that no entry makes, and those of the turnover: the due check, an admission, an origination. -/

namespace Sys2Proof.Machine
variable {s t own : State} {env : Env} {k : Slot} {n : RecordNumber}

/-! ## Events -/

/-- An event whose body makes no access of host memory. -/
theorem quietEvent_done (high : s.resetn = true) (clean : cleanEnv env) {body : State → State}
    (quiet : Quiet (beginEvent env s) (body (beginEvent env s))) :
    EventDone s (event env (withBoard body) s) [] (body (beginEvent env s)) := by
  have done := event_done high (body := body) rfl ((Within.start clean s).quiet quiet)
  rw [quiet.posted] at done
  exact done

/-- The device's own state may be given with something else outside. -/
theorem EventDone.of_outside {output : List HostWrite} {o : Outside} (done : EventDone s t output (own.outside o))
    (inner : (own.outside o).inner = own.inner) : EventDone s t output own where
  inner := done.inner.trans inner
  posted := by rw [done.posted, boardWrites_outside_right]
  memory := done.memory
  frame := done.frame

/-- The body of an event may be given as what it does to the state before the event, when it draws nothing. -/
theorem EventDone.of_begin {output : List HostWrite} {f : State → State}
    (blind : ∀ (s : State) (o : Outside), f (s.outside o) = (f s).outside o) (level : (f s).resetn = s.resetn)
    (done : EventDone s t output (f (beginEvent env s))) : EventDone s t output (f s) := by
  rw [beginEvent_eq, blind, blind] at done
  refine (done.of_outside (o := .host _ _ _ _) ?_).of_outside rfl
  rw [← level]
  rfl

/-- An event that shows nothing on the board makes no write. -/
theorem EventDone.silent (done : EventDone s t [] own) (unshown : boardWrites s own = []) : SilentDone s t own where
  inner := done.inner
  posted := by rw [done.posted, unshown]; rfl
  memory := by rw [done.memory, done.posted, unshown]; rfl

theorem boardWrites_self (s : State) : boardWrites s s = [] := boardWrites_unshown rfl rfl rfl rfl rfl rfl

theorem boardWrites_beginEvent (env : Env) (s : State) : boardWrites s (beginEvent env s) = [] :=
  boardWrites_unshown rfl rfl rfl rfl rfl rfl

/-- An event that changes nothing. -/
theorem idleEvent_done (high : s.resetn = true) (clean : cleanEnv env) {body : State → State}
    (same : body (beginEvent env s) = beginEvent env s) : SilentDone s (event env (withBoard body) s) s := by
  have done := event_done high same (Within.start clean s)
  have silent := EventDone.silent done (boardWrites_beginEvent env s)
  exact ⟨silent.inner, silent.posted, silent.memory⟩

/-! ## Joins -/

theorem joinDue_urgent (k : Slot) (s : State) : joinDue k .urgent s =
    tryAdmit (({ s with dueList := ⟨s.dueList.urgent ++ [k], s.dueList.ordinary⟩ }).setLink k
      { s.link k with renewal := .due, restTimer := 0 }) := rfl

theorem joinDue_ordinary (k : Slot) (s : State) : joinDue k .ordinary s =
    tryAdmit (({ s with dueList := ⟨s.dueList.urgent, s.dueList.ordinary ++ [k]⟩ }).setLink k
      { s.link k with renewal := .due, restTimer := 0 }) := rfl

theorem forcedJoin_joins (h : (s.link k).renewal = .idle ∨ (s.link k).renewal = .rest) (sec : Section) :
    forcedJoin k sec s = (.joined, joinDue k sec s) := by
  rw [forcedJoin]
  rcases h with h | h <;> rw [h]

theorem forcedJoin_due (h : (s.link k).renewal = .due) (sec : Section) : forcedJoin k sec s =
    if sec = .urgent ∧ k ∈ s.dueList.ordinary then (.promoted, promoteDue k s) else (.unchanged, s) := by
  rw [forcedJoin, h]

theorem forcedJoin_exchange (h : (s.link k).renewal = .exchange) (sec : Section) : forcedJoin k sec s = (.unchanged, s) := by
  rw [forcedJoin, h]

/-- Settles O47: by the link state, and by the renewal state. -/
theorem dueCheckByTheReserve : Obligations.DueCheckByTheReserve := by
  refine ⟨fun s k => ⟨isDue_of_waiting, fun h => ⟨(isDue_quarantined h).1, (isDue_quarantined h).2, dueCheck_outside (.inr h)⟩,
    fun h => dueCheck_outside (.inl h)⟩, fun s k => ?_, fun s k => ?_, fun s k => ?_⟩
  · intro l lead r
    refine ⟨fun live => ⟨?_, ?_, ?_⟩, fun enrolled free => ⟨fun idle no site => ?_, fun idle yes site => ?_,
      fun due urgent listed => ⟨?_, ?_⟩, fun due no site => ?_, fun busy site => dueCheck_busy enrolled free site busy⟩⟩
    · rw [isDue_live live]; exact keyDue_iff
    · rw [isUrgent_live live]; exact keyUrgent_iff
    · rw [isDue_live live, isUrgent_live live]; exact keyDue_of_keyUrgent
    · rw [dueCheck_idle enrolled free site idle, if_neg (by simp [no])]
    · rw [dueCheck_idle enrolled free site idle, if_pos yes]
    · rw [dueCheck_due enrolled free _ due, if_pos ⟨rfl, urgent, listed⟩]; rfl
    · rw [dueCheck_due enrolled free _ due, if_neg fun c => by cases c.1]
    · rw [dueCheck_due enrolled free site due, if_neg fun c => ?_]
      rcases no with no | no
      · rw [no] at c; cases c.2.1
      · exact no c.2.2
  · intro due urgent ordinary
    refine ⟨joinDue_urgent k s, joinDue_ordinary k s, fun blocked => ?_⟩
    rw [joinDue_urgent, joinDue_ordinary]
    have none : s.freeRecord = none ∨ s.device.randomFault = true → urgent.admitsNone ∧ ordinary.admitsNone := by
      rintro (h | h)
      · exact ⟨.inl h, .inl h⟩
      · exact ⟨.inr (.inr h), .inr (.inr h)⟩
    exact ⟨admitUpTo_none (none blocked).1 16, admitUpTo_none (none blocked).2 16⟩
  · intro l
    refine ⟨fun h sec => by rw [forcedJoin_joins h], fun due listed => ⟨?_, ?_⟩, fun due absent sec => ?_, fun h sec => ?_⟩
    · rw [forcedJoin_due due, if_pos ⟨rfl, listed⟩]; rfl
    · rw [forcedJoin_due due, if_neg fun c => by cases c.1]
    · rw [forcedJoin_due due, if_neg fun c => absent c.2]
    · rw [forcedJoin_exchange h]

/-! ## One admission, spelled out -/

/-- The head taken into the lowest free record, from the state after its draws. -/
theorem admitInto_eq (n : RecordNumber) (k : Slot) (key : Key) (salt : Salt) (nonce : AttemptNonce) (s : State) :
    admitInto n k key salt nonce s =
      tryOriginate (({ s with
        dueList := ⟨s.dueList.urgent.filter fun j => j ≠ k, s.dueList.ordinary.filter fun j => j ≠ k⟩
        records := s.records.set n.val (admittedRecord (s.link k) k key salt nonce)
        sendOrder := s.sendOrder ++ [n] }).setLink k { s.link k with renewal := .exchange, restTimer := 0 }) := rfl

theorem admitsNone_of_inner (h : t.inner = own.inner) (none : own.admitsNone) : t.admitsNone := by
  have records : t.records = own.records := by have e := congrArg State.records h; exact e
  have dueList : t.dueList = own.dueList := by have e := congrArg State.dueList h; exact e
  have device : t.device = own.device := by have e := congrArg State.device h; exact e
  rw [State.admitsNone, State.freeRecord, records, dueList, device]
  exact none

/-- Settles O48: the draws of an admission pass or fail, and each admission takes a free record. -/
theorem admissionTakesTheHead : Obligations.AdmissionTakesTheHead := by
  refine ⟨fun s => ⟨freeRecord_eq_none, fun n => freeRecord_eq_some, dueHead_eq _⟩, fun s => ⟨rfl, tryAdmit_ends s⟩,
    fun env s high clean => ⟨⟨_, rfl, ?_, ?_⟩, fun none => ⟨_, rfl, ?_⟩⟩, fun s i none => admitUpTo_none none i,
    fun s i n k free head sound => ⟨fun d0 d1 d2 d3 d4 d5 rest noise pass => ?_, fun passed d rest noise short pass same => ?_⟩⟩
  · exact quietEvent_done high clean (quiet_tryAdmit _)
  · have done := quietEvent_done high clean (quiet_tryAdmit (beginEvent env s))
    exact admitsNone_of_inner done.inner (tryAdmit_ends _)
  · exact idleEvent_done high clean (admitUpTo_none (s := beginEvent env s) none 16)
  · intro l generation given
    have drawn := drawMany_passes (s := s) (ds := [d0, d1, d2, d3, d4, d5]) noise pass
    rw [admitUpTo_drawn i free head sound drawn, admitInto_eq]
    rfl
  · obtain ⟨more, length⟩ : ∃ more, 6 = passed.length + 1 + more := ⟨6 - (passed.length + 1), by omega⟩
    have failed := drawMany_fails noise pass same more
    rw [← length] at failed
    exact admitUpTo_failed i free head sound failed

/-! ## Origination -/

theorem headerBytes_length (h : Header) : (headerBytes h).length = 12 := by simp [headerBytes]

theorem tagBytes_length (t : Tag) : (tagBytes t).length = 16 := leBytes_length 16 _

theorem sealPacket_length (key : Key) (salt : Salt) (h : Header) (body : List Byte) :
    (sealPacket key salt h body).length = 28 + body.length := by
  have cipher : (encipher key salt h body).1.length = body.length := Config.cipher.encipher_length _ _ _ _
  rw [sealPacket, List.length_append, List.length_append, headerBytes_length, cipher, tagBytes_length]
  omega

/-- The offer of a record, as the state stands. -/
def offerOf (s : State) (n : RecordNumber) : List Byte :=
  offerPacket (s.rangeOf s.records[n].slot).1 (s.link s.records[n].slot) s.records[n]

/-- The offer byte for byte. -/
theorem offerOf_eq (s : State) (n : RecordNumber) : offerOf s n =
    let r := s.records[n]
    let l := s.link r.slot
    let header : Header := ⟨1, 2, 0, 0, BitVec.ofNat 16 (s.rangeOf r.slot).1, 58, BitVec.ofNat 32 l.rootSequence⟩
    let body := [(1 : Byte)] ++ leBytes 1 r.generation ++ leBytes 8 r.nonce.toNat
      ++ leBytes 48 (Config.cipher.wrap l.rootKey r.key r.salt).toNat
    let nonce := (0 : Salt) ++ (0 : Byte) ++ (0 : Byte) ++ header.sequence
    let sealed := Config.cipher.encipher l.rootKey nonce header body
    headerBytes header ++ sealed.1 ++ tagBytes sealed.2 := by
  have nonce (h : Header) (flags : h.flags = 0) (generation : h.generation = 0) :
      packetNonce 0 h = (0 : Salt) ++ (0 : Byte) ++ (0 : Byte) ++ h.sequence := by
    rw [packetNonce, direction, flags, generation]
    rfl
  rw [offerOf, offerPacket, sealPacket, encipher, nonce _ rfl rfl]
  rfl

theorem offerOf_length (s : State) (n : RecordNumber) : (offerOf s n).length = 86 := by
  rw [offerOf, offerPacket, sealPacket_length]
  simp [offerBody, nonceBytes, wrappedBytes]

theorem canOriginate_iff : canOriginate n s = true ↔
    s.queue.length < 32 ∧ s.quiesce = false ∧ (s.link s.records[n].slot).rootSequence ≠ 0 := by
  have capacity : queueCapacity = 32 := rfl
  rw [canOriginate, Bool.and_eq_true, Bool.and_eq_true, decide_eq_true_eq, decide_eq_true_eq, Bool.not_eq_true', capacity, and_assoc]

theorem originateOne_eq (n : RecordNumber) (s : State) : originateOne n s =
    { s with
      records := s.records.set n.val { s.records[n] with offerQueued := true }
      sendOrder := s.sendOrder.filter fun m => m ≠ n
      queue := s.queue ++ [Item.offer s.records[n].slot (offerOf s n)]
      causes := if s.bothFree then s.causes ||| Cause.collect.bit else s.causes }.setLink s.records[n].slot
      { s.link s.records[n].slot with rootSequence := nextSequence (s.link s.records[n].slot).rootSequence } := by
  rw [originateOne]
  dsimp only
  rw [joinQueue_eq]
  rfl

/-- A record of the send order taken by a try at origination. -/
def originateIf (s : State) (n : RecordNumber) : State := if canOriginate n s then originateOne n s else s

/-- A walk in which every record is passed over. -/
theorem tryOriginate_none (h : s.quiesce = true ∨ 32 ≤ s.queue.length ∨ s.sendOrder = []) : tryOriginate s = s := by
  rcases h with h | h | h
  · exact List.foldl_fixed' (fun n => if_neg fun c => by rw [(canOriginate_iff.1 c).2.1] at h; cases h) _
  · exact List.foldl_fixed' (fun n => if_neg fun c => absurd (canOriginate_iff.1 c).1 (Nat.not_lt.2 h)) _
  · rw [tryOriginate, h]; rfl

/-- Settles O49: a record of the walk that can be originated is, and any other is passed over. -/
theorem originationQueuesTheOffer : Obligations.OriginationQueuesTheOffer := by
  unfold Obligations.OriginationQueuesTheOffer
  intro packet originated
  have one (s : State) (n : RecordNumber) : originateIf s n = originated s n := by
    by_cases can : canOriginate n s = true
    · obtain ⟨room, released, sequence⟩ := canOriginate_iff.1 can
      have open_ : ¬ (32 ≤ s.queue.length ∨ s.quiesce = true ∨ (s.link s.records[n].slot).rootSequence = 0) := by
        rw [released]
        simpa [not_or] using ⟨room, sequence⟩
      rw [originateIf, if_pos can, originateOne_eq, offerOf_eq]
      exact (if_neg open_).symm
    · rw [originateIf, if_neg can]
      refine (if_pos ?_).symm
      by_contra open_
      obtain ⟨room, released, sequence⟩ : s.queue.length < 32 ∧ s.quiesce = false ∧ (s.link s.records[n].slot).rootSequence ≠ 0 := by
        simpa [not_or] using open_
      exact can (canOriginate_iff.2 ⟨room, released, sequence⟩)
  have walk (s : State) : tryOriginate s = s.sendOrder.foldl originated s := by
    rw [← show originateIf = originated from funext fun s => funext fun n => one s n]
    rfl
  refine ⟨fun s n => by rw [show packet s n = offerOf s n from (offerOf_eq s n).symm]; exact offerOf_length s n, walk, fun env s high clean => ⟨⟨_, rfl, ?_⟩, fun none => ⟨_, rfl, ?_⟩⟩⟩
  · rw [← walk]
    exact (quietEvent_done high clean (quiet_tryOriginate _)).of_begin (fun s o => outside_tryOriginate o s)
      (quiet_tryOriginate s).resetn
  · exact idleEvent_done high clean (tryOriginate_none (s := beginEvent env s) none)

end Sys2Proof.Machine
end

