-- ==== Sys2Proof/Proofs/Ciphers.lean ====
section
/-! PROOFS. What binds a packet, a wrapped form and a proof, for the free functions of the Cipher Unit. -/

namespace Sys2Proof.Machine

/-- What a packet deciphers to under a key: the text of which it is the encipherment. -/
theorem encipher_of_inboundText {s : State} {input : List Byte} {k : Slot} {choice : KeyChoice} {text : List Byte}
    (h : inboundText s input k choice = some text) :
    encipher ((s.link k).keyOf choice).1 ((s.link k).keyOf choice).2 (parseHeader input) text =
      (bytesAt input 12 (parseHeader input).bodyLength.toNat,
        BitVec.ofNat 128 (ofLe (bytesAt input (12 + (parseHeader input).bodyLength.toNat) 16))) :=
  (Config.cipher.decipher_iff _ _ _ _ _ _).1 h

section
variable {key key' : Key} {salt x : Salt} {h g : Header} {p text c body : List Byte} {tag t : Tag}

theorem header_of_encipher (made : encipher key x g p = (body, tag)) (reads : encipher key salt h text = (body, tag)) : g = h :=
  Config.cipher.encipher_binds_header _ _ _ _ _ _ _ (made.trans reads.symm)

theorem tag_of_encipher (made : encipher key salt h p = (body, t)) (reads : encipher key salt h text = (body, tag)) : tag = t := by
  have same : p = text := Config.cipher.encipher_binds_tag _ _ _ _ _ ((congrArg Prod.fst made).trans (congrArg Prod.fst reads).symm)
  rw [same] at made
  exact congrArg Prod.snd (reads.symm.trans made)

theorem body_of_encipher {i : Nat} {b : Byte} (made : encipher key salt h p = (c, tag))
    (reads : encipher key salt h text = (c.set i b, tag)) : c.set i b = c := by
  have same : text = p := Config.cipher.encipher_binds_byte key (packetNonce salt h) h p text i b (by
    have first : (Config.cipher.encipher key (packetNonce salt h) h p).1 = c := congrArg Prod.fst made
    have second : (Config.cipher.encipher key (packetNonce salt h) h p).2 = tag := congrArg Prod.snd made
    rw [first, second]
    exact reads)
  rw [same] at reads
  exact congrArg Prod.fst (reads.symm.trans made)

theorem key_of_encipher (keys : Config.cipher.keyInUse key ∧ Config.cipher.keyInUse key')
    (salts : Config.cipher.saltInUse salt ∧ Config.cipher.saltInUse x) (made : encipher key' x g p = (body, tag))
    (reads : encipher key salt h text = (body, tag)) : key' = key ∧ x = salt := by
  have both := made.trans reads.symm
  rw [encipher, encipher, packetNonce_split, packetNonce_split] at both
  exact Config.cipher.encipher_binds_key _ _ _ _ _ _ _ _ _ _ keys.2 keys.1 salts.2 salts.1 both

end

/-- An accept whose proof is not that of its record is not taken. -/
theorem takeAccept_unproved {s : State} {k : Slot} {n : RecordNumber} {g : Nat} {named : AttemptNonce} {proof : Proof}
    (record : s.recordOf k = some n)
    (other : Config.cipher.proof s.records[n].key s.records[n].nonce (BitVec.ofNat 8 s.records[n].generation) ≠ proof) :
    takeAccept k g named proof s = (false, s) := by
  rw [takeAccept, record]
  exact if_neg fun c => other c.2

/-- Settles O8: each fails by contradiction with a law of the Cipher Unit, since what deciphers is the encipherment of what
it deciphers to. -/
theorem cipherBindsKeyAndText : Obligations.CipherBindsKeyAndText := by
  refine ⟨fun _ _ _ _ => rfl, fun s input k choice => ?_, fun w k x => ⟨(Config.cipher.unwrap_iff _ _ _ _).2 rfl,
    fun w' other use use' => ?_⟩, fun s k n key nonce g named made record => ?_⟩
  · intro h key salt body tag fails
    have fail (absurd_ : ∀ text, encipher key salt h text = (body, tag) → False) : fails :=
      Option.eq_none_iff_forall_ne_some.2 fun text reads => absurd_ text (encipher_of_inboundText reads)
    refine ⟨fun x g p made other => fail fun text reads => other (header_of_encipher made reads),
      fun p t made other => fail fun text reads => other (tag_of_encipher made reads),
      fun p c i b made changed other => fail fun text reads => other ?_,
      fun key' x g p use use' saltUse saltUse' made other => fail fun text reads => ?_⟩
    · rw [changed] at reads
      exact changed.trans (body_of_encipher made reads)
    · obtain ⟨sameKey, sameSalt⟩ := key_of_encipher ⟨use, use'⟩ ⟨saltUse, saltUse'⟩ made reads
      rcases other with h | h
      · exact h sameKey
      · exact h sameSalt
  · refine Option.eq_none_iff_forall_ne_some.2 fun ⟨key, salt⟩ unwrapped => other ?_
    exact Config.cipher.wrap_binds_key _ _ _ _ _ _ use' use ((Config.cipher.unwrap_iff _ _ _ _).1 unwrapped)
  · intro r other
    refine takeAccept_unproved record fun same => ?_
    rcases other with ⟨sameKey, differs⟩ | ⟨otherKey, use, use'⟩
    · rw [sameKey] at same
      obtain ⟨sameNonce, sameGeneration⟩ := Config.cipher.proof_binds_attempt _ _ _ _ _ same
      rcases differs with h | h
      · exact h sameNonce.symm
      · exact h sameGeneration.symm
    · exact otherKey (Config.cipher.proof_binds_key _ _ _ _ _ _ use' use same).symm

end Sys2Proof.Machine
end

