-- ==== Sys2Proof/Proofs/Timebase.lean ====
section
/-! PROOFS. A millisecond of the timebase, the issue of a mark, and the timed events while the engine is STARTING. -/

namespace Sys2Proof.Machine
variable {s t own : State} {env : Env}

/-! ## Events that make no access -/

/-- An event whose body makes no access and shows nothing on the board, and so writes nothing. -/
theorem silentEvent (high : s.resetn = true) {body : State → State} (inner : (body (beginEvent env s)).inner = own.inner)
    (posted : (body (beginEvent env s)).posted = []) (memory : (body (beginEvent env s)).hostMem = s.hostMem) :
    SilentDone s (event env body s) own := by
  rw [event_of_high high]
  exact ⟨inner, posted, memory⟩

theorem flushBoard_same (before s : State) (links : ∀ k, slotChanged before s k = false)
    (device : deviceSlotBytes before = deviceSlotBytes s) : flushBoard before s = s := by
  unfold flushBoard
  split
  · rfl
  · have none : allSlots.filter (slotChanged before s) = [] := List.filter_eq_nil_iff.2 fun k _ => by simp [links k]
    rw [none]
    exact if_pos device

/-- The board writes of an event that changes nothing the board shows, whatever its accesses would meet. -/
theorem flushBoard_of_same (before s : State) (links : s.links = before.links) (records : s.records = before.records)
    (device : s.device = before.device) (quiesce : s.quiesce = before.quiesce) (queue : s.queue = before.queue)
    (dueList : s.dueList = before.dueList) : flushBoard before s = s :=
  flushBoard_same before s (fun k => by simp [slotChanged, linkSlotBytes_congr links records k])
    (deviceSlotBytes_congr device quiesce records queue dueList).symm

/-! ## Timed events -/

theorem timebaseRuns_iff : s.timebaseRuns = true ↔ s.resetn = true ∧ s.engine ≠ .starting := by
  simp [State.timebaseRuns]

theorem timedEvent_running (runs : s.timebaseRuns = true) (body : State → State) :
    timedEvent env body s = endEvent (flushBoard (beginEvent env s) (body (beginEvent env s))) := by
  rw [timedEvent, event_of_high (timebaseRuns_iff.1 runs).1]
  have runs : (beginEvent env s).timebaseRuns = true := runs
  rw [if_pos runs]
  rfl

/-- While the engine is STARTING a timed event changes nothing. -/
theorem timedEvent_starting (high : s.resetn = true) (starting : s.engine = .starting) (body : State → State) :
    SilentDone s (timedEvent env body s) s := by
  have stopped : ¬ (beginEvent env s).timebaseRuns = true := fun runs => (timebaseRuns_iff.1 runs).2 starting
  have same : (if (beginEvent env s).timebaseRuns then withBoard body (beginEvent env s) else beginEvent env s) =
      beginEvent env s := if_neg stopped
  exact silentEvent high (by rw [same]; rfl) (by rw [same]; rfl) (by rw [same]; rfl)

theorem exec_timed_starting {c : Instr} (high : s.resetn = true) (starting : s.engine = .starting) (timed : isTimed c = true) :
    ∃ t, exec c s = .next t ∧ SilentDone s t s := by
  have one (env : Env) (body : State → State) : ∃ t, (Host.Outcome.next (timedEvent env body s) : Host.Outcome State Fault Refusal) = .next t ∧
      SilentDone s t s := ⟨_, rfl, timedEvent_starting high starting body⟩
  cases c with
  | scrubStep env => exact one _ _
  | periodMark => exact one _ _
  | periodMarkAtLink k env => exact one _ _
  | ageLimitReached k which env => exact one _ _
  | retireTimerExpiry k env => exact one _ _
  | restEnd k env => exact one _ _
  | periodMarkAtRenewalRecord n env => exact one _ _
  | replyTimerExpiry n env => exact one _ _
  | _ => cases timed

/-! ## A millisecond -/

theorem step_idle (h : s.pending = []) : step s = .next (idleStep s) := by rw [step, h]

theorem idleStep_stopped (h : s.timebaseRuns = false) : idleStep s = s := if_neg (by simp [h])

theorem idleStep_running (h : s.timebaseRuns = true) : idleStep s = endEvent (millisecond (beginEvent .plain s)) := if_pos h

theorem millisecond_within (h : s.phase + 1 < s.settings.period) :
    millisecond s = setPhase (s.phase + 1) (withBoard scrub s) := by
  have kept := kept_withBoard kept_scrub s
  have settings : (withBoard scrub s).settings = s.settings := kept.same .settings (by decide)
  have phase : (withBoard scrub s).phase = s.phase := kept.same .phase (by decide)
  rw [millisecond]
  rw [settings, phase, if_neg (by omega)]

theorem millisecond_at_period (h : s.settings.period ≤ s.phase + 1) :
    millisecond s = markEverywhere (setPhase 0 (withBoard scrub s)) := by
  have kept := kept_withBoard kept_scrub s
  have settings : (withBoard scrub s).settings = s.settings := kept.same .settings (by decide)
  have phase : (withBoard scrub s).phase = s.phase := kept.same .phase (by decide)
  rw [millisecond]
  rw [settings, phase, if_pos h]

/-- The board writes read what the board shows and the board base. -/
theorem boardWrites_right (before : State) {s t : State} (board : t.boardBase = s.boardBase) (links : t.links = s.links)
    (records : t.records = s.records) (device : t.device = s.device) (quiesce : t.quiesce = s.quiesce)
    (queue : t.queue = s.queue) (dueList : t.dueList = s.dueList) : boardWrites before t = boardWrites before s := by
  have slot := linkSlotBytes_congr links records
  have changed : slotChanged before t = slotChanged before s :=
    funext fun k => by rw [slotChanged, slotChanged, slot k, link_congr links k]
  rw [boardWrites, boardWrites, board, changed, deviceSlotBytes_congr device quiesce records queue dueList, funext slot]

theorem boardWrites_setPhase (before t : State) (n : Nat) : boardWrites before (setPhase n t) = boardWrites before t :=
  boardWrites_right before rfl rfl rfl rfl rfl rfl rfl

/-- The phase of the timebase, set once the board shows an event's changes. -/
theorem setPhase_done (within : Within s own env) (n : Nat) :
    EventDone s (endEvent (setPhase n (flushBoard (beginEvent env s) own))) own.posted (setPhase n own) := by
  rw [flushBoard_clean _ within.clean]
  have memory := (within.wrote (boardWrites s own).length (boardWrites s own)).memory
  have posted : own.posted ++ boardWrites s own = own.posted ++ boardWrites s (setPhase n own) := by
    rw [boardWrites_setPhase]
  refine ⟨rfl, posted, memory, fun x apart off => ?_⟩
  show (own.wrote (boardWrites s own).length (boardWrites s own)).hostMem.readByte x = _
  rw [memory]
  refine readByte_applyWrites_outside _ _ fun w made => ?_
  rcases List.mem_append.1 made with output | board
  · exact apart w output
  · exact not_covers_of_isBoardWrite (boardWrites_isBoardWrite s own w board) off

/-- A scrub step makes no access of host memory. -/
theorem within_scrub (within : Within s t env) : Within s (scrub t) env ∧ (scrub t).posted = t.posted := by
  have walked (k : Slot) : Within s (walkTo k t) env := ⟨within.clean, within.memory⟩
  unfold scrub
  split
  · exact ⟨within, rfl⟩
  · dsimp only
    split
    · exact ⟨walked _, rfl⟩
    · exact ⟨(walked _).quiet (quiet_raiseKind _ _ _), (quiet_raiseKind _ _ _).posted⟩

/-! ## The statement -/

theorem step_within (idle : s.pending = []) (runs : s.timebaseRuns = true) (room : s.phase + 1 < s.settings.period) :
    ∃ t, step s = .next t ∧ EventDone s t [] (setPhase (s.phase + 1) (scrub (beginEvent .plain s))) := by
  have start : Within s (beginEvent .plain s) .plain := .start (by simp [cleanEnv, Env.plain]) s
  obtain ⟨within, posted⟩ := within_scrub start
  have done := setPhase_done within (s.phase + 1)
  rw [posted] at done
  refine ⟨_, ?_, done⟩
  rw [step_idle idle, idleStep_running runs, millisecond_within (s := beginEvent .plain s) room]
  rfl

theorem phase_of_kept (kept : Kept [] s t) : (endEvent t).phase = s.phase := kept.same .phase (by decide)

theorem step_at_period (idle : s.pending = []) (runs : s.timebaseRuns = true) (full : s.settings.period ≤ s.phase + 1) :
    ∃ t, step s = .next t ∧ t.phase = 0 ∧
      t = endEvent (markEverywhere (setPhase 0 (withBoard scrub (beginEvent .plain s)))) := by
  have event : step s = .next (endEvent (markEverywhere (setPhase 0 (withBoard scrub (beginEvent .plain s))))) := by
    rw [step_idle idle, idleStep_running runs, millisecond_at_period (s := beginEvent .plain s) full]
  exact ⟨_, event, phase_of_kept (kept_markEverywhere _), rfl⟩

theorem exec_periodMark (high : s.resetn = true) (started : s.engine ≠ .starting) :
    ∃ t, exec .periodMark s = .next t ∧ SilentDone s t { s with phase := 0 } := by
  have runs := timebaseRuns_iff.2 ⟨high, started⟩
  have shown : flushBoard (beginEvent .plain s) (setPhase 0 (beginEvent .plain s)) = setPhase 0 (beginEvent .plain s) :=
    flushBoard_of_same _ _ rfl rfl rfl rfl rfl rfl
  refine ⟨_, rfl, ?_⟩
  show SilentDone s (timedEvent .plain (setPhase 0) s) _
  rw [timedEvent_running runs, shown]
  exact ⟨rfl, rfl, rfl⟩

/-- Settles O2: a millisecond, the issue of a mark, and the arrivals of a mark as the events they are. -/
theorem theTimebasePasses : Obligations.TheTimebasePasses := by
  refine ⟨fun s idle => ⟨fun still => ?_, step_within idle, step_at_period idle⟩,
    fun s high => ⟨exec_periodMark high, fun starting c timed => exec_timed_starting high starting timed⟩,
    fun env s t => ⟨timebaseRuns_iff, rfl, rfl, fun _ => rfl, fun _ => rfl, flushBoard_clean s⟩, fun s => rfl,
    fun env s k n runs => ⟨?_, ?_, ?_⟩⟩
  · rw [step_idle idle, idleStep_stopped still]
  · exact congrArg Host.Outcome.next (timedEvent_running runs scrub)
  · exact congrArg Host.Outcome.next (timedEvent_running runs (markLink k))
  · exact congrArg Host.Outcome.next (timedEvent_running runs (markRecord n))

end Sys2Proof.Machine
end

