-- ==== Sys2Proof/Proofs/StartUps.lean ====
section
/-! PROOFS. The edges of QUIESCE, RESTART and start-up. -/

namespace Sys2Proof.Machine
variable {s t own : State} {env : Env}

/-! ## Edges of QUIESCE -/

theorem boardWrites_left {s before : State} (t : State) (links : before.links = s.links) (records : before.records = s.records)
    (device : before.device = s.device) (quiesce : before.quiesce = s.quiesce) (queue : before.queue = s.queue)
    (dueList : before.dueList = s.dueList) : boardWrites before t = boardWrites s t := by
  have changed : slotChanged before t = slotChanged s t :=
    funext fun k => by rw [slotChanged, slotChanged, linkSlotBytes_congr links records k, link_congr links k]
  rw [boardWrites, boardWrites, changed, deviceSlotBytes_congr device quiesce records queue dueList]

/-- The board does not show the level of the QUIESCE pin. -/
theorem EventDone.of_pin {level : Bool} {output : List HostWrite} (done : EventDone { s with quiescePin := level } t output own) :
    EventDone s t output own where
  inner := done.inner
  posted := by
    have before : boardWrites { s with quiescePin := level } own = boardWrites s own := boardWrites_left own rfl rfl rfl rfl rfl rfl
    rw [← before]
    exact done.posted
  memory := done.memory
  frame := done.frame

theorem takesEdges_iff : s.takesEdges = true ↔ s.resetn = true ∧ s.engine ≠ .starting := by simp [State.takesEdges]

/-- An event of which nothing but the pin's level is taken. -/
theorem pinEvent_silent (high : s.resetn = true) (level : Bool) {body : State → State}
    (same : body (beginEvent env { s with quiescePin := level }) = beginEvent env { s with quiescePin := level }) :
    SilentDone s (event env body { s with quiescePin := level }) { s with quiescePin := level } := by
  rw [event_of_high (s := { s with quiescePin := level }) high, same]
  exact ⟨rfl, rfl, rfl⟩

/-- An edge that is taken. -/
theorem pinEvent_done (high : s.resetn = true) (level : Bool) {body part : State → State}
    (quiet : Within s (part (beginEvent env { s with quiescePin := level })) env)
    (posted : (part (beginEvent env { s with quiescePin := level })).posted = [])
    (same : body (beginEvent env { s with quiescePin := level }) = withBoard part (beginEvent env { s with quiescePin := level })) :
    EventDone s (event env body { s with quiescePin := level }) [] (part (beginEvent env { s with quiescePin := level })) := by
  have taken : event env body { s with quiescePin := level } = event env (withBoard part) { s with quiescePin := level } := by
    rw [event_of_high (s := { s with quiescePin := level }) high, event_of_high (s := { s with quiescePin := level }) high, same]
  have done := event_done (s := { s with quiescePin := level }) high (body := part) rfl ⟨quiet.clean, quiet.memory⟩
  rw [posted] at done
  rw [taken]
  exact done.of_pin

/-- Settles O21: by whether the edge is taken. -/
theorem quiesceEdges : Obligations.QuiesceEdges := by
  refine ⟨fun env s => ⟨fun high started clean => ⟨_, rfl, ?_⟩, fun high starting => ⟨_, rfl, pinEvent_silent high true ?_⟩,
    fun low => ?_⟩, fun env s => ⟨fun high started level clean => ⟨_, rfl, ?_⟩,
    fun high passed => ⟨_, rfl, pinEvent_silent high false ?_⟩, fun low => ?_⟩⟩
  · have done := pinEvent_done high true (body := fun s => if s.takesEdges then withBoard assertQuiesce s else s)
      (part := assertQuiesce) ⟨clean, rfl⟩ rfl (if_pos (takesEdges_iff.2 ⟨high, started⟩))
    exact ⟨done.inner, done.posted, done.memory, done.frame⟩
  · exact if_neg fun taken => (takesEdges_iff.1 taken).2 starting
  · exact congrArg Host.Outcome.next (event_of_low (s := { s with quiescePin := true }) low)
  · have quiet := quiet_tryOriginate { beginEvent env s with quiescePin := false, quiesce := false }
    have released : Within s { beginEvent env s with quiescePin := false, quiesce := false } env := ⟨clean, rfl⟩
    exact pinEvent_done high false (part := releaseQuiesce) (released.quiet quiet) quiet.posted
      (if_pos ⟨takesEdges_iff.2 ⟨high, started⟩, level⟩)
  · refine if_neg fun ⟨taken, level⟩ => ?_
    rcases passed with starting | low
    · exact (takesEdges_iff.1 taken).2 starting
    · exact Bool.false_ne_true (low.symm.trans level)
  · exact congrArg Host.Outcome.next (event_of_low (s := { s with quiescePin := false }) low)

/-! ## The self-test -/

/-- An operation or none. -/
def when (b : Bool) (f : State → State) (s : State) : State := if b then f s else s

/-- Two draws after none: the second fails when it is the first. -/
theorem selfTest_eq {d0 d1 : Draw} {rest : List Draw} (noise : s.noise = d0 :: d1 :: rest) (fresh : s.lastDraw = none) :
    selfTest s = when (decide (d0 = d1)) (raiseDevice .randomFault) { s with noise := rest, lastDraw := some d1 } := by
  have first := draw_passes noise (by simp [fresh])
  rw [selfTest, first]
  by_cases same : d0 = d1
  · rw [draw_fails (s := { s with noise := d1 :: rest, lastDraw := some d0 }) rfl (congrArg some same)]
    simp [when, same]
  · rw [draw_passes (s := { s with noise := d1 :: rest, lastDraw := some d0 }) rfl (by simpa using same)]
    simp [when, same]

/-- A device condition raised while the queue holds device notices of other conditions alone. -/
theorem raiseDevice_listed {item : DeviceItem} {items : List DeviceItem} (quiet : s.device.isActive item = false)
    (free : s.bothFree = true) (queue : s.queue = items.map deviceNotice) (new : item ∉ items) (room : items.length < 24) :
    raiseDevice item s = { s with
      device := s.device.activate item
      queue := s.queue ++ [deviceNotice item]
      causes := s.causes ||| Cause.collect.bit ||| Cause.faultRaised.bit } := by
  have alone : s.queue.any (samePair ⟨none, .device item, .raised, 0, 0, false⟩) = false := by
    refine not_samePair fun m mem pair => ?_
    rw [queue] at mem
    obtain ⟨other, listed, eq⟩ := List.mem_map.1 mem
    cases eq
    have same : other = item := by simpa using pair.2
    exact new (same ▸ listed)
  have count : noticeCount s.queue ≤ items.length := by
    rw [queue]
    exact (List.countP_le_length).trans (by simp)
  have length : s.queue.length = items.length := by rw [queue, List.length_map]
  rw [raiseDevice_of_inactive quiet, makeNotice_joins (s := { s with device := s.device.activate item }) alone
    (by show noticeCount s.queue < 24; omega) (by show s.queue.length < 32; omega), joinQueue_eq]
  have free : State.bothFree { s with device := s.device.activate item } = true := free
  rw [if_pos free]
  rfl

/-! ## RESTART -/

theorem onEnrolled_eq (f : Link → Link) (s : State) : onEnrolled f s = { s with links := (onEnrolled f s).links } := by
  have walk (order : List Slot) (t : State) (same : t = { s with links := t.links }) :
      order.foldl (fun t k => t.modLink k f) t = { s with links := (order.foldl (fun t k => t.modLink k f) t).links } := by
    induction order generalizing t with
    | nil => exact same
    | cons k order ih =>
      refine ih _ ?_
      rw [same]
      rfl
  exact walk _ s rfl

theorem restartState_eq (s : State) :
    restartState s = clearForRestart { s with links := (onEnrolled restartedRecord s).links } := by
  rw [restartState, onEnrolled_eq]

/-- The self-test after two draws, with nothing queued and no cause set. -/
theorem selfTest_restarted {d0 d1 : Draw} {rest : List Draw} (noise : s.noise = d0 :: d1 :: rest) (fresh : s.lastDraw = none)
    (sound : s.device.randomFault = false) (free : s.bothFree = true) (queue : s.queue = []) (causes : s.causes = 0) :
    selfTest s = { s with
      noise := rest
      lastDraw := some d1
      queue := if d0 = d1 then [deviceNotice .randomFault] else []
      causes := if d0 = d1 then Cause.collect.bit ||| Cause.faultRaised.bit else 0
      device := { s.device with randomFault := d0 = d1 } } := by
  rw [selfTest_eq noise fresh]
  by_cases same : d0 = d1
  · have raised := raiseDevice_listed (s := { s with noise := rest, lastDraw := some d1 }) (item := .randomFault) (items := [])
      sound free queue (by simp) (by simp)
    have both : s.causes ||| Cause.collect.bit ||| Cause.faultRaised.bit = Cause.collect.bit ||| Cause.faultRaised.bit := by
      rw [causes]
      rfl
    dsimp only at raised
    rw [when, decide_eq_true same, if_pos rfl, raised, both, queue, if_pos same, if_pos same]
    rfl
  · rw [when, decide_eq_false same, if_neg (by simp), if_neg same, if_neg same, ← queue, ← causes, ← sound]

/-- What RESTART leaves before its self-test. -/
theorem inner_restartState (s : State) : (restartState s).inner = { s.inner with
    links := (restartState s).links
    queue := []
    causes := 0
    batchA := ⟨.free, 0⟩
    batchB := ⟨.free, 0⟩
    firstWaiting := none
    nextIndex := 0
    entriesDone := 0
    faultStop := false
    abandoned := false
    run := false
    engine := .stopped
    clamped := false
    dueList := ⟨[], []⟩
    records := .replicate 16 .free
    sendOrder := []
    phase := 0
    device := { s.device with randomFault := false, busFault := false }
    lastDraw := none } := by
  rw [restartState_eq]
  rfl

theorem fullWrites_congr {s t : State} (board : t.boardBase = s.boardBase) (links : t.links = s.links)
    (records : t.records = s.records) (device : t.device = s.device) (quiesce : t.quiesce = s.quiesce)
    (queue : t.queue = s.queue) (dueList : t.dueList = s.dueList) : fullWrites t = fullWrites s := by
  rw [fullWrites, fullWrites, board, deviceSlotBytes_congr device quiesce records queue dueList,
    funext (linkSlotBytes_congr links records)]

theorem restart_clash (high : s.resetn = true) (starting : s.engine = .starting) :
    SilentDone s (event env restart s) (s.setCause .clash) := by
  have clash : restart (beginEvent env s) = (beginEvent env s).setCause .clash := if_pos starting
  rw [event_of_high high, clash]
  exact ⟨rfl, rfl, rfl⟩

/-- A full board write as the last of an event. -/
theorem fullBoardWrite_done (clean : own.busClean) (posted : own.posted = []) :
    (endEvent (fullBoardWrite own)).inner = own.inner ∧ (endEvent (fullBoardWrite own)).links = own.links ∧
      (endEvent (fullBoardWrite own)).posted = fullWrites (endEvent (fullBoardWrite own)) ∧
      (endEvent (fullBoardWrite own)).hostMem = applyWrites own.hostMem (endEvent (fullBoardWrite own)).posted := by
  rw [fullBoardWrite_clean clean]
  have made : (endEvent (own.wrote (fullWrites own).length (fullWrites own))).posted = fullWrites own := by
    show own.posted ++ fullWrites own = _
    rw [posted, List.nil_append]
  refine ⟨rfl, rfl, made.trans ?_, ?_⟩
  · exact (fullWrites_congr rfl rfl rfl rfl rfl rfl rfl).symm
  · rw [made]
    rfl

/-- The body of RESTART outside STARTING. -/
theorem restart_started (started : s.engine ≠ .starting) : restart s = fullBoardWrite (selfTest (restartState s)) :=
  if_neg started

/-- Settles O20: the clash, or what RESTART clears, the self-test and the full board write. -/
theorem restartKeepsTheLinks : Obligations.RestartKeepsTheLinks := by
  refine fun d0 d1 rest env s high clean noise => ⟨fun starting => ⟨_, rfl, restart_clash high starting⟩,
    fun started => ⟨_, rfl, ?_⟩⟩
  rw [event_of_high high, restart_started (s := beginEvent env s) started]
  have link := restartState_link (beginEvent env s)
  have inner := inner_restartState (beginEvent env s)
  have within : Within s (restartState (beginEvent env s)) env := by
    rw [restartState_eq]
    exact ⟨clean, rfl⟩
  have none : (restartState (beginEvent env s)).posted = [] := by rw [restartState_eq]; rfl
  have drawn : (restartState (beginEvent env s)).noise = d0 :: d1 :: rest := by rw [restartState_eq]; exact noise
  generalize restartState (beginEvent env s) = v at link inner within none drawn ⊢
  have tested := quiet_selfTest v
  obtain ⟨kept, links, posted, memory⟩ := fullBoardWrite_done (within.quiet tested).clean (tested.posted.trans none)
  generalize endEvent (fullBoardWrite (selfTest v)) = t at kept links posted memory ⊢
  rw [selfTest_restarted drawn (by have e := congrArg State.lastDraw inner; exact e)
    (by have e := congrArg (·.device.randomFault) inner; exact e) (by have e := congrArg State.bothFree inner; exact e)
    (by have e := congrArg State.queue inner; exact e) (by have e := congrArg State.causes inner; exact e)] at kept links memory
  refine ⟨fun k => (link_congr links k).trans (link k), ?_, posted, memory.trans ?_⟩
  · have device : v.device = { s.device with randomFault := false, busFault := false } := by
      have e := congrArg State.device inner
      exact e
    have final : t.inner = { v.inner with
        lastDraw := some d1
        queue := if d0 = d1 then [deviceNotice .randomFault] else []
        causes := if d0 = d1 then Cause.collect.bit ||| Cause.faultRaised.bit else 0
        device := { v.device with randomFault := d0 = d1 } } := kept
    rw [final, inner, device, links]
    rfl
  · rw [within.memory, none]
    rfl

/-! ## The settings block -/

theorem ofLe_byte (bs : List Byte) (i : Nat) : ofLe (bytesAt bs i 1) = (bs.getD i 0).toNat := by
  simp [bytesAt, ofLe]

theorem ofLe_byte_eq_one (bs : List Byte) (i : Nat) : ofLe (bytesAt bs i 1) = 1 ↔ bs.getD i 0 = 1 := by
  rw [ofLe_byte]
  exact ⟨fun h => BitVec.eq_of_toNat_eq h, fun h => by rw [h]; rfl⟩

theorem settingsGood_iff (block : List Byte) :
    settingsGood block = true ↔
      ofLe (bytesAt block 60 4) = (crc32 (bytesAt block 0 60)).toNat ∧ ofLe (bytesAt block 60 4) ≠ 0x00000000 ∧
        ofLe (bytesAt block 60 4) ≠ 0xFFFFFFFF := by
  have code : (settingsCode block).toNat = ofLe (bytesAt block 60 4) := by
    have below := ofLe_bytesAt_lt block 60 4
    rw [settingsCode, BitVec.toNat_ofNat]
    omega
  simp only [settingsGood, Bool.and_eq_true, decide_eq_true_eq, ne_eq, ← BitVec.toNat_inj, code]
  tauto

theorem settingsOf_fields (block : List Byte) :
    let field (offset size : Nat) := ofLe (bytesAt block offset size)
    let v := settingsOf block
    (field 0 4 < 100 → v.period = 100) ∧ (60000 < field 0 4 → v.period = 60000) ∧
      (100 ≤ field 0 4 → field 0 4 ≤ 60000 → v.period = field 0 4) ∧
      (field 4 1 ≤ 32 → v.tailRoom = field 4 1) ∧ (32 < field 4 1 → v.tailRoom = 32) ∧
      (field 5 1 = 1 → v.drive = .pushPull) ∧ (field 5 1 ≠ 1 → v.drive = .openDrain) ∧
      (field 6 1 = 1 → v.polarity = .activeHigh) ∧ (field 6 1 ≠ 1 → v.polarity = .activeLow) := by
  intro field v
  have period : v.period = max 100 (min 60000 (field 0 4)) := rfl
  have tailRoom : v.tailRoom = min 32 (field 4 1) := by
    show min 32 (block.getD 4 0).toNat = _
    rw [← ofLe_byte]
  refine ⟨fun h => by omega, fun h => by omega, fun h g => by omega, fun h => by omega, fun h => by omega,
    fun h => if_pos ((ofLe_byte_eq_one block 5).1 h), fun h => if_neg fun c => h ((ofLe_byte_eq_one block 5).2 c),
    fun h => if_pos ((ofLe_byte_eq_one block 6).1 h), fun h => if_neg fun c => h ((ofLe_byte_eq_one block 6).2 c)⟩

/-! ## Start-up -/

theorem loadSettings_eq (block : List Byte) (s : State) :
    loadSettings block s = when (!settingsGood block) (raiseDevice .settingsDefaulted)
      (setSettings (if settingsGood block then settingsOf block else .defaults) s) := by
  unfold loadSettings
  cases settingsGood block <;> rfl

theorem readMasterKey_eq (s : State) :
    readMasterKey s = when (decide (s.oneTimeStore = 0)) (raiseDevice .noMaster) { s with masterKey := s.oneTimeStore } := by
  rw [readMasterKey]
  by_cases blank : s.oneTimeStore = 0
  · rw [when, decide_eq_true blank, if_pos rfl]
    exact if_pos blank
  · rw [when, decide_eq_false blank]
    exact if_neg blank

/-- The causes that the first condition raised sets; a later one sets the same. -/
def raisedCauses (causes : BitVec 5) : BitVec 5 := causes ||| Cause.collect.bit ||| Cause.faultRaised.bit

theorem raisedCauses_twice (causes : BitVec 5) : raisedCauses (raisedCauses causes) = raisedCauses causes := by
  unfold raisedCauses
  ext i
  simp only [BitVec.getElem_or]
  cases causes[i] <;> cases Cause.collect.bit[i] <;> cases Cause.faultRaised.bit[i] <;> rfl

/-- A condition raised or not, while the queue holds device notices of other conditions alone. -/
theorem when_raiseDevice_listed {item : DeviceItem} {items : List DeviceItem} (b : Bool) (quiet : s.device.isActive item = false)
    (free : s.bothFree = true) (queue : s.queue = items.map deviceNotice) (new : item ∉ items) (room : items.length < 24) :
    when b (raiseDevice item) s = { s with
      device := if b then s.device.activate item else s.device
      queue := (if b then items ++ [item] else items).map deviceNotice
      causes := if b then raisedCauses s.causes else s.causes } := by
  cases b with
  | true =>
    have listed : (items ++ [item]).map deviceNotice = s.queue ++ [deviceNotice item] := by rw [queue, List.map_append]; rfl
    rw [when, if_pos rfl, if_pos rfl, if_pos rfl, if_pos rfl, raiseDevice_listed quiet free queue new room, listed]
    rfl
  | false => rw [when, if_neg (by simp), if_neg (by simp), if_neg (by simp), if_neg (by simp), ← queue]

/-- The settings, and SETTINGS_DEFAULTED for a block that is not good. -/
theorem loadSettings_raised (block : List Byte) (free : s.bothFree = true) (queue : s.queue = [])
    (quiet : s.device.settingsDefaulted = false) :
    loadSettings block s = { s with
      settings := if settingsGood block then settingsOf block else .defaults
      device := if !settingsGood block then s.device.activate .settingsDefaulted else s.device
      queue := (if !settingsGood block then [DeviceItem.settingsDefaulted] else []).map deviceNotice
      causes := if !settingsGood block then raisedCauses s.causes else s.causes } := by
  rw [loadSettings_eq]
  exact when_raiseDevice_listed (s := setSettings _ s) (item := .settingsDefaulted) (items := []) _ quiet free queue (by simp)
    (by simp)

/-- The master key, and NO_MASTER for a blank store. -/
theorem readMasterKey_raised {items : List DeviceItem} (free : s.bothFree = true) (queue : s.queue = items.map deviceNotice)
    (new : .noMaster ∉ items) (room : items.length < 24) (quiet : s.device.noMaster = false) :
    readMasterKey s = { s with
      masterKey := s.oneTimeStore
      device := if decide (s.oneTimeStore = 0) then s.device.activate .noMaster else s.device
      queue := (if decide (s.oneTimeStore = 0) then items ++ [.noMaster] else items).map deviceNotice
      causes := if decide (s.oneTimeStore = 0) then raisedCauses s.causes else s.causes } := by
  rw [readMasterKey_eq]
  exact when_raiseDevice_listed (s := { s with masterKey := s.oneTimeStore }) (item := .noMaster) _ quiet free queue new room

/-- The self-test, and RANDOM_FAULT where it fails. -/
theorem selfTest_raised {items : List DeviceItem} {d0 d1 : Draw} {rest : List Draw} (noise : s.noise = d0 :: d1 :: rest)
    (fresh : s.lastDraw = none) (free : s.bothFree = true) (queue : s.queue = items.map deviceNotice)
    (new : .randomFault ∉ items) (room : items.length < 24) (quiet : s.device.randomFault = false) :
    selfTest s = { s with
      noise := rest
      lastDraw := some d1
      device := if decide (d0 = d1) then s.device.activate .randomFault else s.device
      queue := (if decide (d0 = d1) then items ++ [.randomFault] else items).map deviceNotice
      causes := if decide (d0 = d1) then raisedCauses s.causes else s.causes } := by
  rw [selfTest_eq noise fresh]
  exact when_raiseDevice_listed (s := { s with noise := rest, lastDraw := some d1 }) (item := .randomFault) _ quiet free queue new
    room

/-- The conditions of a start-up whose block is good or not, whose store is blank or not, and whose test fails or not. -/
theorem conditions_raised (good blank failed : Bool) (causes : BitVec 5) :
    (let first := if !good then DeviceFaults.activate ⟨0, false, false, false, false, false, false⟩ .settingsDefaulted
        else ⟨0, false, false, false, false, false, false⟩
      let second := if blank then first.activate .noMaster else first
      (if failed then second.activate .randomFault else second) = ⟨0, false, !good, blank, failed, false, false⟩) ∧
    (let first := if !good then [DeviceItem.settingsDefaulted] else []
      let second := if blank then first ++ [.noMaster] else first
      (if failed then second ++ [.randomFault] else second).map deviceNotice =
        (if good then [] else [deviceNotice .settingsDefaulted]) ++ (if blank then [deviceNotice .noMaster] else []) ++
          if failed then [deviceNotice .randomFault] else []) ∧
    (let first := if !good then raisedCauses causes else causes
      let second := if blank then raisedCauses first else first
      (if failed then raisedCauses second else second) = if !good || blank || failed then raisedCauses causes else causes) := by
  cases good <;> cases blank <;> cases failed <;> simp [raisedCauses_twice, DeviceFaults.activate]

/-- Start-up from a state as a reset leaves it. -/
theorem startUp_eq (block : List Byte) {d0 d1 : Draw} {rest : List Draw} (starting : s.engine = .starting)
    (free : s.bothFree = true) (queue : s.queue = []) (device : s.device = ⟨0, false, false, false, false, false, false⟩)
    (noise : s.noise = d0 :: d1 :: rest) :
    startUp block s = { s with
      noise := rest
      settings := if settingsGood block then settingsOf block else .defaults
      masterKey := s.oneTimeStore
      engine := .stopped
      phase := 0
      quiesce := s.quiescePin
      lastDraw := some d1
      device := ⟨0, false, !settingsGood block, decide (s.oneTimeStore = 0), decide (d0 = d1), false, false⟩
      queue := (if settingsGood block then [] else [deviceNotice .settingsDefaulted])
        ++ (if decide (s.oneTimeStore = 0) then [deviceNotice .noMaster] else [])
        ++ (if decide (d0 = d1) then [deviceNotice .randomFault] else [])
      causes := if !settingsGood block || decide (s.oneTimeStore = 0) || decide (d0 = d1) then raisedCauses s.causes
        else s.causes } := by
  have loaded := loadSettings_raised block free queue (by rw [device])
  have run : startUp block s = endStartUp (selfTest (clearLastDraw (readMasterKey (loadSettings block s)))) := if_pos starting
  obtain ⟨conditions, notices, causes⟩ :=
    conditions_raised (settingsGood block) (decide (s.oneTimeStore = 0)) (decide (d0 = d1)) s.causes
  rw [run, ← conditions, ← notices, ← causes, ← device]
  generalize settingsGood block = good at loaded
  have read := readMasterKey_raised (s := loadSettings block s) (items := if !good then [DeviceItem.settingsDefaulted] else [])
    (by rw [loaded]; exact free) (by rw [loaded]) (by cases good <;> simp) (by cases good <;> simp)
    (by rw [loaded, device]; cases good <;> rfl)
  have store : (loadSettings block s).oneTimeStore = s.oneTimeStore := by rw [loaded]
  rw [store] at read
  generalize decide (s.oneTimeStore = 0) = blank at read
  have tested := selfTest_raised (s := clearLastDraw (readMasterKey (loadSettings block s)))
    (items := if blank then (if !good then [DeviceItem.settingsDefaulted] else []) ++ [.noMaster]
      else if !good then [DeviceItem.settingsDefaulted] else [])
    (by rw [read, loaded]; exact noise) rfl (by rw [read, loaded]; exact free) (by rw [read]; rfl)
    (by cases good <;> cases blank <;> simp) (by cases good <;> cases blank <;> simp)
    (by rw [read, loaded, device]; cases good <;> cases blank <;> rfl)
  rw [tested, read, loaded]
  rfl

/-- Settles O19: the settings block field by field, and the conditions that start-up raises. -/
theorem startUpEndsStopped : Obligations.StartUpEndsStopped := by
  refine ⟨fun block => ?_, fun block d0 d1 rest env s high starting free board queue device noise => ⟨_, rfl, ?_⟩⟩
  · obtain ⟨low, high, inside, room, full, drive, other, polarity, another⟩ := settingsOf_fields block
    exact ⟨settingsGood_iff block, low, high, inside, room, full, drive, other, polarity, another, rfl, rfl⟩
  · have started := startUp_eq (s := beginEvent env s) block starting free queue device noise
    have quiet : flushBoard (beginEvent env s) (startUp block (beginEvent env s)) = startUp block (beginEvent env s) := by
      have base : (startUp block (beginEvent env s)).boardBase = none := by rw [started]; exact board
      rw [flushBoard, base]
    rw [event_of_high high, withBoard, quiet, started]
    exact ⟨rfl, rfl, rfl⟩

end Sys2Proof.Machine
end

