-- ==== Sys2Proof/Proofs/Registers.lean ====
section
/-! PROOFS. The register window: what each register reads as, the NOTICE pin, and what each register write does. -/

namespace Sys2Proof.Machine
variable {s t own : State} {env : Env} {value : Word}

/-! ## Fields of a register -/

/-- A field of a word made from a number, as the field's own number. -/
theorem extractLsb'_ofNat (n i w : Nat) (room : i + w ≤ 32) :
    (BitVec.ofNat 32 n).extractLsb' i w = BitVec.ofNat w (n / 2 ^ i) := by
  refine BitVec.eq_of_getLsbD_eq fun j below => ?_
  rw [BitVec.getLsbD_extractLsb', BitVec.getLsbD_ofNat, BitVec.getLsbD_ofNat, Nat.testBit_div_two_pow, Nat.add_comm i j]
  have inside : j + i < 32 := by omega
  simp [below, inside]

theorem getLsbD_ofNat_iff (n i : Nat) (room : i < 32) : (BitVec.ofNat 32 n).getLsbD i = decide (n / 2 ^ i % 2 = 1) := by
  rw [BitVec.getLsbD_ofNat, Nat.testBit_eq_decide_div_mod_eq]
  simp [room]

theorem ofNat_eq_of_mod {w a b : Nat} (h : a % 2 ^ w = b % 2 ^ w) : BitVec.ofNat w a = BitVec.ofNat w b :=
  BitVec.eq_of_toNat_eq h

theorem control_fields (s : State) :
    (s.readRegister .control).getLsbD 0 = s.run ∧ (s.readRegister .control).extractLsb' 8 5 = s.mask ∧
      (s.readRegister .control).extractLsb' 1 7 = 0 ∧ (s.readRegister .control).extractLsb' 13 19 = 0 := by
  have run : (if s.run then 1 else 0 : Nat) ≤ 1 := by split <;> decide
  have mask := s.mask.isLt
  have bit : s.run = decide ((if s.run then 1 else 0 : Nat) = 1) := by cases s.run <;> rfl
  have whole : s.mask = BitVec.ofNat 5 s.mask.toNat := by rw [BitVec.ofNat_toNat, BitVec.setWidth_eq]
  simp only [State.readRegister]
  generalize (if s.run then 1 else 0 : Nat) = r at run bit
  refine ⟨?_, ?_, ?_, ?_⟩
  · rw [getLsbD_ofNat_iff _ _ (by omega), bit]
    exact decide_eq_decide.2 (by omega)
  · rw [extractLsb'_ofNat _ _ _ (by omega), whole]
    exact ofNat_eq_of_mod (by rw [BitVec.toNat_ofNat]; omega)
  · rw [extractLsb'_ofNat _ _ _ (by omega)]
    exact ofNat_eq_of_mod (b := 0) (by omega)
  · rw [extractLsb'_ofNat _ _ _ (by omega)]
    exact ofNat_eq_of_mod (b := 0) (by omega)

theorem status_fields (s : State) :
    (s.readRegister .status).extractLsb' 0 2 = BitVec.ofNat 2 s.engine.code ∧
      (s.readRegister .status).extractLsb' 2 2 = BitVec.ofNat 2 s.batchA.state.code ∧
      (s.readRegister .status).extractLsb' 4 2 = BitVec.ofNat 2 s.batchB.state.code ∧
      (s.readRegister .status).getLsbD 6 = s.clamped ∧
      (s.readRegister .status).getLsbD 7 = decide (s.settings.source = .block) ∧
      (s.readRegister .status).extractLsb' 8 24 = 0 := by
  have batch (b : BatchState) : b.code ≤ 2 := by cases b <;> decide
  have engine : s.engine.code ≤ 3 := by cases s.engine <;> decide
  have a := batch s.batchA.state
  have b := batch s.batchB.state
  have clamped : s.clamped = decide ((if s.clamped then 1 else 0 : Nat) = 1) := by cases s.clamped <;> rfl
  have below : (if s.clamped then 1 else 0 : Nat) ≤ 1 := by split <;> decide
  have source : decide (s.settings.source = .block) = decide ((if s.settings.source = .block then 1 else 0 : Nat) = 1) := by
    cases s.settings.source <;> rfl
  have one : (if s.settings.source = .block then 1 else 0 : Nat) ≤ 1 := by split <;> decide
  simp only [State.readRegister]
  generalize (if s.clamped then 1 else 0 : Nat) = c at clamped below
  rw [source]
  generalize (if s.settings.source = .block then 1 else 0 : Nat) = d at one
  generalize s.engine.code = e at engine
  generalize s.batchA.state.code = m at a
  generalize s.batchB.state.code = n at b
  refine ⟨?_, ?_, ?_, ?_, ?_, ?_⟩
  · rw [extractLsb'_ofNat _ _ _ (by omega)]
    exact ofNat_eq_of_mod (by omega)
  · rw [extractLsb'_ofNat _ _ _ (by omega)]
    exact ofNat_eq_of_mod (by omega)
  · rw [extractLsb'_ofNat _ _ _ (by omega)]
    exact ofNat_eq_of_mod (by omega)
  · rw [getLsbD_ofNat_iff _ _ (by omega), clamped]
    exact decide_eq_decide.2 (by omega)
  · rw [getLsbD_ofNat_iff _ _ (by omega)]
    exact decide_eq_decide.2 (by omega)
  · rw [extractLsb'_ofNat _ _ _ (by omega)]
    exact ofNat_eq_of_mod (b := 0) (by omega)

theorem notice_fields (s : State) :
    (s.readRegister .notice).extractLsb' 0 5 = s.causes ∧ (s.readRegister .notice).extractLsb' 5 27 = 0 := by
  have below := s.causes.isLt
  have whole : s.causes = BitVec.ofNat 5 s.causes.toNat := by rw [BitVec.ofNat_toNat, BitVec.setWidth_eq]
  simp only [State.readRegister]
  refine ⟨?_, ?_⟩
  · rw [extractLsb'_ofNat _ _ _ (by omega), Nat.pow_zero, Nat.div_one, ← whole]
  · rw [extractLsb'_ofNat _ _ _ (by omega)]
    exact ofNat_eq_of_mod (b := 0) (by omega)

theorem halves_of_address (a : Address) : a.extractLsb' 32 32 ++ a.extractLsb' 0 32 = a := by
  refine BitVec.eq_of_getLsbD_eq fun i below => ?_
  rw [BitVec.getLsbD_append, BitVec.getLsbD_extractLsb', BitVec.getLsbD_extractLsb']
  by_cases low : i < 32
  · simp [low]
  · have rest : i - 32 < 32 := by omega
    have back : 32 + (i - 32) = i := by omega
    simp [low, rest, back]

theorem hand_fields (b : Batch) :
    (b.state = .free → BitVec.ofNat 32 b.handRead = 0) ∧
      (b.state ≠ .free → BitVec.ofNat 32 b.handRead = BitVec.ofNat 32 b.taken) :=
  ⟨fun free => by rw [Batch.handRead, if_pos free]; rfl, fun busy => by rw [Batch.handRead, if_neg busy]⟩

/-! ## Causes and the NOTICE pin -/

theorem hasCause_iff (s : State) (c : Cause) : s.hasCause c = true ↔ s.causes &&& c.bit ≠ 0 := by simp [State.hasCause]

theorem noticePin_released (held : s.resetn = false ∨ s.engine = .starting) : s.noticePin = .released :=
  if_pos (by rcases held with low | starting <;> simp [*])

/-- The NOTICE pin while it follows the causes. -/
theorem noticePin_followed (high : s.resetn = true) (started : s.engine ≠ .starting) :
    (s.settings.drive = .openDrain → s.settings.polarity = .activeLow →
      s.noticePin = if s.causes &&& s.mask = 0 then .released else .low) ∧
    (s.settings.drive = .openDrain → s.settings.polarity = .activeHigh →
      s.noticePin = if s.causes &&& s.mask = 0 then .low else .released) ∧
    (s.settings.drive = .pushPull → s.settings.polarity = .activeLow →
      s.noticePin = if s.causes &&& s.mask = 0 then .high else .low) ∧
    (s.settings.drive = .pushPull → s.settings.polarity = .activeHigh →
      s.noticePin = if s.causes &&& s.mask = 0 then .low else .high) := by
  have follows : ¬ (!s.resetn || decide (s.engine = .starting)) = true := by simp [high, started]
  have active : s.noticeActive = !decide (s.causes &&& s.mask = 0) := by simp [State.noticeActive]
  unfold State.noticePin
  rw [if_neg follows, active]
  refine ⟨?_, ?_, ?_, ?_⟩
  all_goals
    intro drive polarity
    rw [drive, polarity]
    by_cases quiet : s.causes &&& s.mask = 0
    · rw [decide_eq_true quiet, if_pos quiet]
      rfl
    · rw [decide_eq_false quiet, if_neg quiet]
      rfl

theorem readAt_low (low : s.resetn = false) (offset : Nat) : s.readAt offset = none := if_neg (by simp [low])

theorem readAt_high (high : s.resetn = true) (offset : Nat) : s.readAt offset = (Register.ofOffset offset).map s.readRegister :=
  if_pos high

/-! ## A CONTROL write -/

/-- The mask and the abandon, within the event. -/
theorem maskAndAbandon_eq (value : Word) (env : Env) (s : State) : maskAndAbandon value (beginEvent env s) =
    if value.getLsbD 1 then takeAbandon (beginEvent env { s with mask := value.extractLsb' 8 5 })
    else beginEvent env { s with mask := value.extractLsb' 8 5 } := rfl

theorem writeControl_restart (part : value.getLsbD 2 = true) (s : State) : writeControl value s = restart s := if_pos part

theorem writeControl_kept (part : value.getLsbD 2 = false) (s : State) :
    writeControl value s =
      if controlRun value && (maskAndAbandon value s).takesRun then setRun (maskAndAbandon value s)
      else flushBoard s (if controlRun value then setRun (maskAndAbandon value s) else clearRun (maskAndAbandon value s)) :=
  if_neg fun h => Bool.false_ne_true (part.symm.trans h)

/-- RUN written as it stands. -/
theorem writeControl_same (part : value.getLsbD 2 = false) (same : value.getLsbD 0 = (maskAndAbandon value s).run) :
    writeControl value s = flushBoard s (maskAndAbandon value s) := by
  have run : controlRun value = (maskAndAbandon value s).run := same
  rw [writeControl_kept part, run]
  generalize maskAndAbandon value s = t
  cases set : t.run with
  | true => simp [State.takesRun, setRun, set]
  | false => simp [clearRun, set]

/-- RUN written as 0 where it stands set. -/
theorem writeControl_clears (part : value.getLsbD 2 = false) (clear : value.getLsbD 0 = false)
    (set : (maskAndAbandon value s).run = true) :
    writeControl value s = flushBoard s (clearRunBit (maskAndAbandon value s)) := by
  have run : controlRun value = false := clear
  rw [writeControl_kept part, run]
  simp [clearRun, set]

/-- RUN written as 1 where it stands clear. -/
theorem writeControl_sets (part : value.getLsbD 2 = false) (one : value.getLsbD 0 = true)
    (clear : (maskAndAbandon value s).run = false) :
    writeControl value s =
      if (maskAndAbandon value s).engine = .starting ∨ (maskAndAbandon value s).faultStop = true then
        flushBoard s ((maskAndAbandon value s).setCause .clash)
      else setRun (maskAndAbandon value s) := by
  have run : controlRun value = true := one
  rw [writeControl_kept part, run]
  generalize maskAndAbandon value s = t at clear
  by_cases barred : t.engine = .starting ∨ t.faultStop = true
  · have refused : t.takesRun = false := by rcases barred with h | h <;> simp [State.takesRun, h]
    have clash : setRun t = t.setCause .clash := by simp [setRun, clear, barred]
    simp [refused, clash, barred]
  · have taken : t.takesRun = true := by simpa [State.takesRun, clear] using barred
    simp [taken, barred]

/-- A CONTROL write that touches the mask alone. -/
theorem maskWrite_silent (high : s.resetn = true) (part : value.getLsbD 2 = false) (keeps : value.getLsbD 1 = false)
    (same : value.getLsbD 0 = s.run) :
    SilentDone s (event env (writeControl value) s) { s with mask := value.extractLsb' 8 5 } := by
  have masked : maskAndAbandon value (beginEvent env s) = beginEvent env { s with mask := value.extractLsb' 8 5 } := by
    rw [maskAndAbandon_eq, if_neg (fun h => Bool.false_ne_true (keeps.symm.trans h))]
  have shown : flushBoard (beginEvent env s) (beginEvent env { s with mask := value.extractLsb' 8 5 }) =
      beginEvent env { s with mask := value.extractLsb' 8 5 } := flushBoard_of_same _ _ rfl rfl rfl rfl rfl rfl
  rw [event_of_high high, writeControl_same part (by rw [masked]; exact same), masked, shown]
  exact ⟨rfl, rfl, rfl⟩

/-! ## The other register writes -/

theorem clearCauses_bit (value : Word) (s : State) (i : Nat) :
    (clearCauses value s).causes.getLsbD i = (s.causes.getLsbD i && !value.getLsbD i) := by
  have cleared : (clearCauses value s).causes = s.causes &&& ~~~(value.extractLsb' 0 5) := rfl
  rw [cleared, BitVec.getLsbD_and, BitVec.getLsbD_not, BitVec.getLsbD_extractLsb', Nat.zero_add]
  by_cases inside : i < 5
  · simp [inside]
  · rw [BitVec.getLsbD_of_ge s.causes i (by omega), Bool.false_and, Bool.false_and]

/-- The low 12 bits of WORK_BASE_LO are ignored. -/
theorem writtenBase_lo (base : Address) (value : Word) :
    writtenBase base .lo value = base.extractLsb' 32 32 ++ (value &&& 0xFFFFF000) := by
  have mask : ∀ i : Fin 32, (0xFFFFF000 : Word).getLsbD i = decide (12 ≤ i.val) := by decide
  have low : value.extractLsb' 12 20 ++ (0 : BitVec 12) = value &&& 0xFFFFF000 := by
    refine BitVec.eq_of_getLsbD_eq fun i below => ?_
    rw [BitVec.getLsbD_and, mask ⟨i, below⟩, BitVec.getLsbD_append, BitVec.getLsbD_extractLsb']
    by_cases ignored : i < 12
    · simp [ignored]
    · have rest : i - 12 < 20 := by omega
      have back : 12 + (i - 12) = i := by omega
      simp [ignored, rest, back]
      omega
  exact congrArg (base.extractLsb' 32 32 ++ ·) low

theorem writeWorkBase_free (free : s.bothFree = true) (half : BaseHalf) (value : Word) :
    writeWorkBase half value s = { s with workBase := writtenBase s.workBase half value } := if_pos free

theorem writeWorkBase_busy (busy : s.bothFree = false) (half : BaseHalf) (value : Word) :
    writeWorkBase half value s = s.setCause .clash := if_neg (by simp [busy])

/-- Settles O22: the registers field by field, the NOTICE pin, and the register writes case by case. -/
theorem theRegisterWindow : Obligations.TheRegisterWindow := by
  refine ⟨fun env s high => ?_, fun s => ?_, fun s c => ⟨rfl, rfl, hasCause_iff s c⟩,
    fun s => ⟨noticePin_released, noticePin_followed⟩, fun s => ⟨readAt_low, fun high => ?_⟩, fun value env s high => ?_,
    fun value register s high => ?_, fun value s high => ?_⟩
  · exact ⟨congrArg Host.Outcome.next (event_of_high high), congrArg Host.Outcome.next (event_of_high high)⟩
  · obtain ⟨run, mask, low, rest⟩ := control_fields s
    obtain ⟨engine, a, b, clamped, source, above⟩ := status_fields s
    obtain ⟨causes, unused⟩ := notice_fields s
    exact ⟨rfl, run, mask, low, rest, engine, a, b, clamped, source, above, causes, unused, halves_of_address s.workBase,
      (hand_fields s.batchA).1, (hand_fields s.batchB).1, (hand_fields s.batchA).2, (hand_fields s.batchB).2⟩
  · refine ⟨?_, ?_, ?_, ?_, ?_, ?_, ?_, ?_⟩
    all_goals exact readAt_high high _
  · intro write masked begun abandoned done
    have written : write = .next (endEvent (writeControl value begun)) := congrArg Host.Outcome.next (event_of_high high)
    have reached : maskAndAbandon value begun = abandoned := maskAndAbandon_eq value env s
    refine ⟨fun part => ?_, fun part => ⟨fun keeps same => ⟨_, rfl, maskWrite_silent high part keeps same⟩, fun same => ?_,
      fun clear set => ?_, fun one clear => ⟨fun barred => ?_, fun started unstopped => ?_⟩⟩⟩
    · rw [written, writeControl_restart part]
      exact (congrArg Host.Outcome.next (event_of_high high)).symm
    · show write = _
      rw [written, writeControl_same part (by rw [reached]; exact same), reached]
    · show write = _
      rw [written, writeControl_clears part clear (by rw [reached]; exact set), reached]
      rfl
    · show write = _
      rw [written, writeControl_sets part one (by rw [reached]; exact clear), reached, if_pos barred]
    · show write = _
      rw [written, writeControl_sets part one (by rw [reached]; exact clear), reached,
        if_neg fun barred => barred.elim started fun stopped => Bool.false_ne_true (unstopped.symm.trans stopped)]
  · refine ⟨⟨_, rfl, fun i => ?_, ?_⟩, ⟨_, rfl, ?_⟩⟩
    · rw [event_of_high high]
      exact clearCauses_bit value (beginEvent .plain s) i
    · exact silentEvent high (by rw [event_of_high high]; rfl) rfl rfl
    · exact silentEvent high rfl rfl rfl
  · refine ⟨fun free => ⟨⟨_, rfl, ?_⟩, ⟨_, rfl, ?_⟩⟩, fun busy half => ⟨_, rfl, ?_⟩⟩
    · have taken := writeWorkBase_free (s := beginEvent .plain s) free .lo value
      rw [writtenBase_lo] at taken
      exact silentEvent high (by rw [taken]; rfl) (by rw [taken]; rfl) (by rw [taken]; rfl)
    · have taken := writeWorkBase_free (s := beginEvent .plain s) free .hi value
      exact silentEvent high (by rw [taken]; rfl) (by rw [taken]; rfl) (by rw [taken]; rfl)
    · have clash := writeWorkBase_busy (s := beginEvent .plain s) busy half value
      exact silentEvent high (by rw [clash]; rfl) (by rw [clash]; rfl) (by rw [clash]; rfl)

end Sys2Proof.Machine
end

