-- ==== Sys2Proof/Proofs/Later.lean ====
section
/-! PROOFS. What a link keeps through the turnover, and through raises, clears and their actions. -/

namespace Sys2Proof.Machine
variable {s t u : State} {k : Slot} {R : Link → Link → Prop}

/-! ## Relations between a link and what it becomes -/

/-- Every link is related to what it was. -/
def Every (R : Link → Link → Prop) (s t : State) : Prop := ∀ j, R (s.link j) (t.link j)

/-- A relation that the turnover keeps: a link that joins the Due List or is admitted, and one whose offer takes a root
sequence. -/
structure Turning (R : Link → Link → Prop) : Prop where
  refl : ∀ l, R l l
  trans : ∀ {l m n}, R l m → R m n → R l n
  renewal : ∀ l r timer, r ≠ .rest → R l { l with renewal := r, restTimer := timer }
  sequence : ∀ l q, R l { l with rootSequence := q }

namespace Turning

theorem of_links (turning : Turning R) (links : t.links = s.links) : Every R s t := fun j => by
  rw [link_congr links]
  exact turning.refl _

theorem every_refl (turning : Turning R) (s : State) : Every R s s := turning.of_links rfl

theorem every_trans (turning : Turning R) (h : Every R s t) (g : Every R t u) : Every R s u :=
  fun j => turning.trans (h j) (g j)

theorem ite (_ : Turning R) {c : Prop} [Decidable c] (h : Every R s t) (g : Every R s u) : Every R s (if c then t else u) := by
  split <;> assumption

/-- One link changed. -/
theorem setLink (turning : Turning R) {v : Link} (h : R (s.link k) v) : Every R s (s.setLink k v) := fun j => by
  rw [State.link_setLink]
  split
  · rename_i same
    rw [same]
    exact h
  · exact turning.refl _

theorem modLink (turning : Turning R) (f : Link → Link) (h : R (s.link k) (f (s.link k))) : Every R s (s.modLink k f) :=
  turning.setLink h

theorem tryOriginate (turning : Turning R) (s : State) : Every R s (tryOriginate s) := fun j => by
  obtain ⟨q, taken⟩ := tryOriginate_links s j
  rw [taken]
  exact turning.sequence _ q

theorem admitInto (turning : Turning R) (n : RecordNumber) (k : Slot) (key : Key) (salt : Salt) (nonce : AttemptNonce)
    (s : State) : Every R s (admitInto n k key salt nonce s) := by
  unfold Machine.admitInto
  dsimp only
  have recorded : Every R s ((removeDue k s).setRecord n (admittedRecord (s.link k) k key salt nonce)) := turning.of_links rfl
  refine turning.every_trans recorded (turning.every_trans ?_ (turning.tryOriginate _))
  have exchanging : Every R ((removeDue k s).setRecord n (admittedRecord (s.link k) k key salt nonce))
      (((removeDue k s).setRecord n (admittedRecord (s.link k) k key salt nonce)).modLink k (Link.withRenewal .exchange 0)) :=
    turning.modLink _ (turning.renewal _ .exchange 0 (by decide))
  exact turning.every_trans exchanging (turning.of_links rfl)

theorem admitUpTo (turning : Turning R) (i : Nat) (s : State) : Every R s (admitUpTo i s) := by
  induction i generalizing s with
  | zero => exact turning.every_refl s
  | succ i ih =>
    have drawn := turning.of_links (beside_drawMany 6 s).links
    unfold Machine.admitUpTo
    split
    · split
      · rename_i eq
        rw [eq] at drawn
        exact turning.every_trans drawn (turning.every_trans (turning.admitInto _ _ _ _ _ _) (ih _))
      · rename_i eq
        rw [eq] at drawn
        exact drawn
    · exact turning.every_refl s

theorem tryAdmit (turning : Turning R) (s : State) : Every R s (tryAdmit s) := turning.admitUpTo 16 s

theorem joinDue (turning : Turning R) (k : Slot) (sec : Section) (s : State) : Every R s (joinDue k sec s) :=
  turning.every_trans (turning.modLink (s := appendDue k sec s) _ (turning.renewal _ .due 0 (by decide))) (turning.tryAdmit _)

theorem promoteDue (turning : Turning R) (k : Slot) (s : State) : Every R s (promoteDue k s) := turning.of_links rfl

theorem forcedJoin (turning : Turning R) (k : Slot) (sec : Section) (s : State) : Every R s (forcedJoin k sec s).2 := by
  unfold Machine.forcedJoin
  split
  · exact turning.joinDue k sec s
  · exact turning.joinDue k sec s
  · split
    · exact turning.promoteDue k s
    · exact turning.every_refl s
  · exact turning.every_refl s

theorem dueCheck (turning : Turning R) (k : Slot) (site : DueSite) (s : State) : Every R s (dueCheck k site s) := by
  unfold Machine.dueCheck
  refine turning.ite (turning.every_refl s) ?_
  split
  · exact turning.ite (turning.joinDue k _ s) (turning.every_refl s)
  · exact turning.ite (turning.promoteDue k s) (turning.every_refl s)
  · exact turning.every_refl s
  · exact turning.every_refl s

end Turning

/-! ## What the turnover leaves of a link -/

/-- A link without its renewal state, rest timer and root sequence. -/
def Link.fixed (l : Link) : Link := { l with renewal := .idle, restTimer := 0, rootSequence := 0 }

/-- A link that the turnover alone has changed. -/
def Link.Turned (l m : Link) : Prop := m.fixed = l.fixed

theorem turning_turned : Turning Link.Turned where
  refl _ := rfl
  trans h g := Eq.trans g h
  renewal _ _ _ _ := rfl
  sequence _ _ := rfl

/-! ## What raises, clears and decays leave of a link -/

/-- The keys of a link and its state, as a raise leaves them unless it quarantines the link. -/
def Link.keyed (l : Link) : LinkState × KeySlot × Nat × KeySlot × Nat :=
  (l.state, l.current, l.nextSequence, l.retiring, l.retireTimer)

/-- What due checks, raises, clears, decays and their actions leave of a link: its rate and period count, its keys and state
unless it is QUARANTINED, and its rest timer while it is still in REST. -/
structure Link.Later (l m : Link) : Prop where
  rate : m.rate = l.rate
  periodCount : m.periodCount = l.periodCount
  keyed : m.state = .quarantined ∨ m.keyed = l.keyed
  rest : m.renewal = .rest → l.renewal = .rest ∧ m.restTimer = l.restTimer

theorem Link.Later.state {l m : Link} (h : l.Later m) : m.state = .quarantined ∨ m.state = l.state :=
  h.keyed.imp_right fun e => congrArg Prod.fst e

theorem Link.Later.trans {l m n : Link} (h : l.Later m) (g : m.Later n) : l.Later n where
  rate := g.rate.trans h.rate
  periodCount := g.periodCount.trans h.periodCount
  keyed := by
    rcases g.keyed with erased | kept
    · exact .inl erased
    · rcases h.keyed with erased | before
      · exact .inl ((congrArg Prod.fst kept).trans erased)
      · exact .inr (kept.trans before)
  rest now := by
    obtain ⟨then_, timer⟩ := g.rest now
    obtain ⟨first, start⟩ := h.rest then_
    exact ⟨first, timer.trans start⟩

/-- A change that leaves rate, keys, renewal and rest timer. -/
theorem Link.Later.of_same {l m : Link} (rate : m.rate = l.rate) (periodCount : m.periodCount = l.periodCount)
    (keyed : m.keyed = l.keyed) (renewal : m.renewal = l.renewal) (restTimer : m.restTimer = l.restTimer) : l.Later m :=
  ⟨rate, periodCount, .inr keyed, fun now => ⟨renewal ▸ now, restTimer⟩⟩

theorem turning_later : Turning Link.Later where
  refl _ := .of_same rfl rfl rfl rfl rfl
  trans h g := h.trans g
  renewal _ _ _ other := ⟨rfl, rfl, .inr rfl, fun now => absurd now other⟩
  sequence _ _ := .of_same rfl rfl rfl rfl rfl

theorem later_quarantined (m : List Triple) (k : Slot) (l : Link) : l.Later (quarantinedRecord m k l) :=
  ⟨rfl, rfl, .inl rfl, fun now => nomatch now⟩

theorem later_linkNotice (k : Slot) (kind : LinkKind) (edge : Edge) (s : State) : Every Link.Later s (linkNotice k kind edge s) :=
  turning_later.of_links (beside_linkNotice k kind edge s).links

theorem later_clearKind (k : Slot) (kind : LinkKind) (s : State) : Every Link.Later s (clearKind k kind s) :=
  turning_later.every_trans (turning_later.modLink _ (.of_same rfl rfl rfl rfl rfl)) (later_linkNotice k kind .cleared _)

theorem later_clearIfActive (k : Slot) (kind : LinkKind) (s : State) : Every Link.Later s (clearIfActive k kind s) :=
  turning_later.ite (later_clearKind k kind s) (turning_later.every_refl s)

theorem later_quarantineLink (k : Slot) (s : State) : Every Link.Later s (quarantineLink k s) := by
  unfold quarantineLink
  refine turning_later.ite (turning_later.every_refl s) ?_
  dsimp only
  refine turning_later.every_trans (turning_later.modLink (k := k) _ (later_quarantined s.branchMap k _)) ?_
  refine turning_later.every_trans (later_clearIfActive k .keySpent _) ?_
  refine turning_later.every_trans (turning_later.of_links (freeRecordOf_links k _)) ?_
  generalize freeRecordOf k _ = freed
  have removed : Every Link.Later freed (removeOffers k (removeDue k freed)) := turning_later.of_links rfl
  refine turning_later.every_trans removed ?_
  exact turning_later.every_trans (turning_later.tryAdmit _) (turning_later.tryOriginate _)

theorem later_takeAction (k : Slot) (a : Action) (s : State) : Every Link.Later s (takeAction k a s) := by
  cases a with
  | note => exact turning_later.every_refl s
  | hold => exact turning_later.modLink _ (.of_same rfl rfl rfl rfl rfl)
  | renew => exact turning_later.ite (turning_later.every_refl s) (turning_later.forcedJoin k .urgent s)
  | quarantine => exact later_quarantineLink k s

theorem later_toldRaise (k : Slot) (kind : LinkKind) (s : State) : Every Link.Later s (toldRaise k kind s) :=
  turning_later.every_trans (turning_later.modLink _ (.of_same rfl rfl rfl rfl rfl))
    (turning_later.of_links (beside_makeNotice _ _).links)

theorem later_raiseKind (k : Slot) (kind : LinkKind) (s : State) : Every Link.Later s (raiseKind k kind s) := by
  rw [raiseKind_eq]
  exact turning_later.every_trans (later_toldRaise k kind s) (later_takeAction k _ _)

theorem later_raiseIfInactive (k : Slot) (kind : LinkKind) (s : State) : Every Link.Later s (raiseIfInactive k kind s) :=
  turning_later.ite (turning_later.every_refl s) (later_raiseKind k kind s)

theorem later_decayKind (k : Slot) (s : State) (r : RateKind) : Every Link.Later s (decayKind k s r) := by
  have decayed : Every Link.Later s (s.modLink k (decayedRecord r ((s.profileOf k).rate r).decay)) :=
    turning_later.modLink _ (.of_same rfl rfl rfl rfl rfl)
  refine turning_later.every_trans decayed ?_
  exact turning_later.ite (later_clearKind k r.kind _) (turning_later.every_refl _)

theorem later_decayKinds (k : Slot) (s : State) : Every Link.Later s (decayKinds k s) := by
  unfold decayKinds
  generalize rateKinds = order
  induction order generalizing s with
  | nil => exact turning_later.every_refl s
  | cons r order ih => exact turning_later.every_trans (later_decayKind k s r) (ih _)

theorem later_countSilence (k : Slot) (s : State) : Every Link.Later s (countSilence k s) := by
  unfold countSilence
  split
  · exact turning_later.every_refl s
  · exact turning_later.every_refl s
  · have counted : Every Link.Later s (s.modLink k (Link.withSilence (min countMax ((s.link k).silence + 1)))) :=
      turning_later.modLink _ (.of_same rfl rfl rfl rfl rfl)
    refine turning_later.every_trans counted ?_
    exact turning_later.ite (later_raiseIfInactive k .linkSilent _) (turning_later.every_refl _)

end Sys2Proof.Machine
end

