-- ==== Sys2Proof/Proofs/Exchange.lean ====
section
/-! PROOFS. The exchange at a renewal record: an installation, and the end of an attempt. -/

namespace Sys2Proof.Machine
variable {s t own : State} {env : Env} {k : Slot} {n : RecordNumber}

/-! ## Clears -/

theorem Link.setKind_self (l : Link) (kind : LinkKind) : l.setKind kind (l.kind kind) = l := by
  have same : l.kinds.set kind.index (l.kind kind) = l.kinds := Vector.set_getElem_self _
  rw [Link.setKind, same]

/-- A clear of a kind that is not active changes nothing of the link. -/
theorem clearedRecord_of_inactive {l : Link} {kind : LinkKind} (h : (l.kind kind).active = false) : clearedRecord kind l = l := by
  have same : { l.kind kind with active := false } = l.kind kind := by rw [← h]
  rw [clearedRecord, same, Link.setKind_self]

theorem link_clearKind (k : Slot) (kind : LinkKind) (s : State) (j : Slot) :
    (clearKind k kind s).link j = if j = k then clearedRecord kind (s.link k) else s.link j := by
  rw [clearKind_eq, link_makeNotice, State.link_modLink]

theorem link_clearIfActive (k : Slot) (kind : LinkKind) (s : State) (j : Slot) :
    (clearIfActive k kind s).link j = if j = k then clearedRecord kind (s.link k) else s.link j := by
  cases active : ((s.link k).kind kind).active with
  | true => rw [clearIfActive_of_active active, link_clearKind]
  | false =>
    rw [clearIfActive_of_inactive active, clearedRecord_of_inactive active]
    split
    · rename_i same; rw [same]
    · rfl

theorem kind_clearedRecord_same (kind : LinkKind) (l : Link) : ((clearedRecord kind l).kind kind).active = false := by
  rw [clearedRecord, Link.kind_setKind_same]

theorem kind_clearedRecord_ne {kind other : LinkKind} (l : Link) (ne : other ≠ kind) : (clearedRecord kind l).kind other = l.kind other :=
  Link.kind_setKind_ne l _ ne

/-! ## Installation -/

theorem freshCode_of_turned {l m : Link} (h : l.Turned m) : freshCode m = freshCode l := by
  have fixed (v : Link) : freshCode v.fixed = freshCode v := rfl
  rw [← fixed m, ← fixed l, show m.fixed = l.fixed from h]

theorem freshCode_clearedRecord (kind : LinkKind) (l : Link) : freshCode (clearedRecord kind l) = freshCode l := rfl

/-- The link as an installation has written it, before the record is freed. -/
theorem install_eq (n : RecordNumber) (s : State) :
    install n s = tryAdmit (dueCheck s.records[n].slot .joinsOnly (clearIfActive s.records[n].slot .keySpent
      (clearIfActive s.records[n].slot .renewalFailed
        (freeRecordAt n (s.modLink s.records[n].slot
          (installedRecord (s.profileOf s.records[n].slot) s.records[n])))))) := rfl

/-- The link after an installation: what no later step touches. -/
theorem link_install (n : RecordNumber) (s : State) :
    Link.Turned (clearedRecord .keySpent (clearedRecord .renewalFailed
      (installedRecord (s.profileOf s.records[n].slot) s.records[n] (s.link s.records[n].slot))))
      ((install n s).link s.records[n].slot) := by
  have turned (u : State) : Every Link.Turned u (tryAdmit (dueCheck s.records[n].slot .joinsOnly u)) :=
    turning_turned.every_trans (turning_turned.dueCheck _ _ _) (turning_turned.tryAdmit _)
  have cleared := turned (clearIfActive s.records[n].slot .keySpent (clearIfActive s.records[n].slot .renewalFailed
    (freeRecordAt n (s.modLink s.records[n].slot (installedRecord (s.profileOf s.records[n].slot) s.records[n]))))) s.records[n].slot
  have freed (u : State) (j : Slot) : (freeRecordAt n u).link j = u.link j := rfl
  rw [link_clearIfActive, if_pos rfl, link_clearIfActive, if_pos rfl, freed, State.link_modLink_same] at cleared
  rw [install_eq]
  exact cleared

/-- What an installed link keeps through its clears, a due check and an admission. -/
theorem installed_of_turned {p : Profile} {r : RenewalRecord} {l m : Link}
    (turned : Link.Turned (clearedRecord .keySpent (clearedRecord .renewalFailed (installedRecord p r l))) m) :
    m.state = .live ∧ m.current = installedSlot p r ∧ m.nextSequence = 1 ∧ m.rootKey = l.rootKey ∧ m.rootWindow = l.rootWindow ∧
      m.rate = l.rate ∧ m.periodCount = l.periodCount ∧ m.retiring = retiredSlot l ∧
      m.retireTimer = (if l.current.state = .inUse then p.retireTime else 0) ∧ (m.kind .renewalFailed).active = false ∧
      (m.kind .keySpent).active = false ∧ (l.checkCode = freshCode l → m.checkCode = freshCode m) := by
  have code : m.checkCode = (installedRecord p r l).checkCode := by have e := congrArg Link.checkCode turned; exact e
  have fresh : freshCode m = freshCode (installedRecord p r l) :=
    (freshCode_of_turned turned).trans ((freshCode_clearedRecord _ _).trans (freshCode_clearedRecord _ _))
  have kinds : m.kinds = (clearedRecord .keySpent (clearedRecord .renewalFailed (installedRecord p r l))).kinds := by
    have e := congrArg Link.kinds turned; exact e
  have kind (which : LinkKind) :
      m.kind which = (clearedRecord .keySpent (clearedRecord .renewalFailed (installedRecord p r l))).kind which := by
    rw [Link.kind, kinds]; rfl
  refine ⟨?_, ?_, ?_, ?_, ?_, ?_, ?_, ?_, ?_, ?_, ?_, fun true_ => ?_⟩
  · have e := congrArg Link.state turned; exact e
  · have e := congrArg Link.current turned; exact e
  · have e := congrArg Link.nextSequence turned; exact e
  · have e := congrArg Link.rootKey turned; exact e
  · have e := congrArg Link.rootWindow turned; exact e
  · have e := congrArg Link.rate turned; exact e
  · have e := congrArg Link.periodCount turned; exact e
  · have e := congrArg Link.retiring turned; exact e
  · have e := congrArg Link.retireTimer turned; exact e
  · rw [kind, kind_clearedRecord_ne _ (by decide), kind_clearedRecord_same]
  · rw [kind, kind_clearedRecord_same]
  · rw [code, fresh]
    exact coded_recodeBy _ true_

/-- Settles O51: the steps of an installation, and the link that they leave. -/
theorem installationMovesTheKeys : Obligations.InstallationMovesTheKeys := by
  unfold Obligations.InstallationMovesTheKeys
  exact fun s n => ⟨install_eq n s, installed_of_turned (link_install n s)⟩

/-! ## The end of an attempt -/

/-- A timed event while the timebase runs is an event of its body. -/
theorem timedEvent_eq (runs : s.timebaseRuns = true) (body : State → State) :
    timedEvent env body s = event env (withBoard body) s := by
  rw [timedEvent_running runs, event_of_high (timebaseRuns_iff.1 runs).1]
  rfl

/-- A timed event whose body makes no access. -/
theorem timedEvent_done (runs : s.timebaseRuns = true) (clean : cleanEnv env) {body : State → State}
    (quiet : Quiet (beginEvent env s) (body (beginEvent env s))) :
    EventDone s (timedEvent env body s) [] (body (beginEvent env s)) := by
  rw [timedEvent_eq runs]
  exact quietEvent_done (timebaseRuns_iff.1 runs).1 clean quiet

/-- The device's own state may be given by another with the same inner state. -/
theorem EventDone.of_inner {other : State} {output : List HostWrite} (done : EventDone s t output other)
    (inner : other.inner = own.inner) : EventDone s t output own where
  inner := done.inner.trans inner
  posted := by
    have field {α : Type} (f : State → α) (blind : ∀ s, f s.inner = f s) : own.inner = other.inner → f own = f other :=
      fun e => (blind own).symm.trans ((congrArg f e).trans (blind other))
    have same := inner.symm
    rw [done.posted, boardWrites_right s (field State.boardBase (fun _ => rfl) same) (field State.links (fun _ => rfl) same)
      (field State.records (fun _ => rfl) same) (field State.device (fun _ => rfl) same)
      (field State.quiesce (fun _ => rfl) same) (field State.queue (fun _ => rfl) same)
      (field State.dueList (fun _ => rfl) same)]
  memory := done.memory
  frame := done.frame

theorem endAttempt_fails (h : (s.profileOf s.records[n].slot).attempts ≤ s.records[n].attempt ∨ s.device.randomFault = true) :
    endAttempt n s = failRenewal n s := by
  unfold endAttempt
  refine if_neg fun retries => ?_
  rcases h with none | fault
  · exact absurd retries.1 (by omega)
  · exact Bool.false_ne_true (retries.2.symm.trans fault)

theorem endAttempt_retries (room : s.records[n].attempt < (s.profileOf s.records[n].slot).attempts)
    (sound : s.device.randomFault = false) : endAttempt n s = retry n s := if_pos ⟨room, sound⟩

theorem retry_passes {d : Draw} {rest : List Draw} (noise : s.noise = d :: rest) (other : s.lastDraw ≠ some d) :
    retry n s = tryOriginate { s with
      noise := rest
      lastDraw := some d
      records := s.records.set n.val
        { s.records[n] with
          state := .waitingSend, nonce := d, attempt := s.records[n].attempt + 1, replyTimer := 0, offerQueued := false }
      sendOrder := s.sendOrder ++ [n] } := by
  rw [retry, draw_passes noise other]
  rfl

theorem retry_fails {d : Draw} {rest : List Draw} (noise : s.noise = d :: rest) (same : s.lastDraw = some d) :
    retry n s = failRenewal n (raiseDevice .randomFault { s with noise := rest, lastDraw := some d }) := by
  rw [retry, draw_fails noise same]

/-- The link of record `n` in REST, and the record freed. -/
def restedState (n : RecordNumber) (s : State) : State :=
  ({ s with records := s.records.set n.val .free, sendOrder := s.sendOrder.filter fun m => m ≠ n }).setLink s.records[n].slot
    { s.link s.records[n].slot with renewal := .rest, restTimer := (s.profileOf s.records[n].slot).restTime }

theorem failRenewal_eq (n : RecordNumber) (s : State) :
    failRenewal n s = tryAdmit (if ((s.link s.records[n].slot).kind .renewalFailed).active then restedState n s
      else raiseKind s.records[n].slot .renewalFailed (restedState n s)) := by
  have rested : failRenewal n s = tryAdmit (raiseIfInactive s.records[n].slot .renewalFailed (restedState n s)) := rfl
  have kinds : ((restedState n s).link s.records[n].slot).kind .renewalFailed = (s.link s.records[n].slot).kind .renewalFailed := by
    rw [restedState, State.link_setLink_same]
    rfl
  rw [rested, raiseIfInactive, kinds]

theorem markRecord_idle (h : s.records[n].state ≠ .waitingReply) : markRecord n s = s := if_neg h

theorem markRecord_counts (waits : s.records[n].state = .waitingReply) (more : 2 ≤ s.records[n].replyTimer) :
    markRecord n s = s.setRecord n { s.records[n] with replyTimer := s.records[n].replyTimer - 1 } := by
  rw [markRecord, if_pos waits, if_neg (by omega)]

theorem markRecord_expires (waits : s.records[n].state = .waitingReply) (last : s.records[n].replyTimer ≤ 1) :
    markRecord n s = expireReply n s := by
  rw [markRecord, if_pos waits, if_pos last]

theorem reachReplyExpiry_expires (waits : s.records[n].state = .waitingReply) (last : s.records[n].replyTimer ≤ 1) :
    reachReplyExpiry n s = expireReply n s := if_pos ⟨waits, last⟩

theorem reachReplyExpiry_idle (h : ¬ (s.records[n].state = .waitingReply ∧ s.records[n].replyTimer ≤ 1)) :
    reachReplyExpiry n s = s := if_neg h

/-- The end of an attempt with a draw given, by whether it passes. -/
theorem endAttempt_draws {d : Draw} {rest : List Draw} (room : s.records[n].attempt < (s.profileOf s.records[n].slot).attempts)
    (sound : s.device.randomFault = false) (noise : s.noise = d :: rest) :
    (s.lastDraw ≠ some d → endAttempt n s = tryOriginate { s with
      noise := rest
      lastDraw := some d
      records := s.records.set n.val
        { s.records[n] with
          state := .waitingSend, nonce := d, attempt := s.records[n].attempt + 1, replyTimer := 0, offerQueued := false }
      sendOrder := s.sendOrder ++ [n] }) ∧
    (s.lastDraw = some d →
      endAttempt n s = failRenewal n (raiseDevice .randomFault { s with noise := rest, lastDraw := some d })) := by
  rw [endAttempt_retries room sound]
  exact ⟨fun other => retry_passes noise other, fun same => retry_fails noise same⟩

/-- A mark and the expiry that the table lists apart. -/
theorem renewalMark_done (runs : s.timebaseRuns = true) (clean : cleanEnv env)
    (mark : markRecord n (beginEvent env s) = own) : ∃ t, exec (.periodMarkAtRenewalRecord n env) s = .next t ∧ EventDone s t [] own := by
  have done := timedEvent_done runs clean (quiet_markRecord n (beginEvent env s))
  rw [mark] at done
  exact ⟨_, rfl, done⟩

theorem replyExpiry_done (runs : s.timebaseRuns = true) (clean : cleanEnv env)
    (expiry : reachReplyExpiry n (beginEvent env s) = own) : ∃ t, exec (.replyTimerExpiry n env) s = .next t ∧ EventDone s t [] own := by
  have done := timedEvent_done runs clean (quiet_reachReplyExpiry n (beginEvent env s))
  rw [expiry] at done
  exact ⟨_, rfl, done⟩

/-- A mark of a record that does not wait, or still has periods to wait. -/
theorem renewalMark_waits (runs : s.timebaseRuns = true) (clean : cleanEnv env) :
    let r := s.records[n]
    let mark (own : State) := ∃ t, exec (.periodMarkAtRenewalRecord n env) s = .next t ∧ EventDone s t [] own
    let expiry (own : State) := ∃ t, exec (.replyTimerExpiry n env) s = .next t ∧ EventDone s t [] own
    (r.state ≠ .waitingReply → mark s ∧ expiry s) ∧
      (r.state = .waitingReply → 2 ≤ r.replyTimer →
        mark { s with records := s.records.set n.val { r with replyTimer := r.replyTimer - 1 } } ∧ expiry s) := by
  intro r mark expiry
  have expired (idle : reachReplyExpiry n (beginEvent env s) = beginEvent env s) : expiry s := by
    obtain ⟨t, next, done⟩ := replyExpiry_done runs clean idle
    exact ⟨t, next, done.of_inner rfl⟩
  have marked {own other : State} (does : markRecord n (beginEvent env s) = other) (inner : other.inner = own.inner) : mark own := by
    obtain ⟨t, next, done⟩ := renewalMark_done runs clean does
    exact ⟨t, next, done.of_inner inner⟩
  refine ⟨fun idle => ⟨marked (markRecord_idle (s := beginEvent env s) idle) rfl,
    expired (reachReplyExpiry_idle (s := beginEvent env s) fun h => idle h.1)⟩, fun waits more => ⟨?_, ?_⟩⟩
  · exact marked (markRecord_counts (s := beginEvent env s) waits more) rfl
  · exact expired (reachReplyExpiry_idle (s := beginEvent env s) fun h => absurd h.2 (by show ¬ r.replyTimer ≤ 1; omega))

/-- A mark that brings the reply timer to 0. -/
theorem renewalMark_expires (runs : s.timebaseRuns = true) (clean : cleanEnv env) (waits : s.records[n].state = .waitingReply)
    (last : s.records[n].replyTimer ≤ 1)
    (ends : endAttempt n ((beginEvent env s).setRecord n { s.records[n] with replyTimer := 0 }) = own) :
    (∃ t, exec (.periodMarkAtRenewalRecord n env) s = .next t ∧ EventDone s t [] own) ∧
      ∃ t, exec (.replyTimerExpiry n env) s = .next t ∧ EventDone s t [] own :=
  ⟨renewalMark_done runs clean ((markRecord_expires (s := beginEvent env s) waits last).trans ends),
    replyExpiry_done runs clean ((reachReplyExpiry_expires (s := beginEvent env s) waits last).trans ends)⟩

/-- The record whose timer has come to 0. -/
theorem records_zeroed (n : RecordNumber) (v : RenewalRecord) (s : State) : (s.setRecord n v).records[n] = v :=
  Vector.getElem_set_self _

/-- Settles O50: by the record's state, its timer and attempts, and the draw. -/
theorem replyTimerEndsTheAttempt : Obligations.ReplyTimerEndsTheAttempt := by
  unfold Obligations.ReplyTimerEndsTheAttempt
  refine ⟨fun s n => ⟨fun _ => rfl, endAttempt_fails, fun d rest room sound noise => endAttempt_draws room sound noise⟩,
    fun env s n runs clean => ⟨(renewalMark_waits runs clean).1, (renewalMark_waits runs clean).2, fun waits last => ?_⟩,
    fun s n => failRenewal_eq n s⟩
  have zeroed := records_zeroed n { s.records[n] with replyTimer := 0 } (beginEvent env s)
  refine ⟨fun ended => renewalMark_expires runs clean waits last (endAttempt_fails ?_), fun d rest room sound noise => ?_⟩
  · rw [zeroed]
    exact ended
  · obtain ⟨passes, fails⟩ := endAttempt_draws (s := (beginEvent env s).setRecord n { s.records[n] with replyTimer := 0 }) (n := n)
      (by rw [zeroed]; exact room) sound noise
    refine ⟨fun other => renewalMark_expires runs clean waits last ((passes other).trans ?_),
      fun same => renewalMark_expires runs clean waits last (fails same)⟩
    have written : ((beginEvent env s).setRecord n { s.records[n] with replyTimer := 0 }).records =
        s.records.set n.val { s.records[n] with replyTimer := 0 } := rfl
    rw [zeroed, written, Vector.set_set]
    rfl

end Sys2Proof.Machine
end

