-- ==== Sys2Proof/Proofs/Quarantine.lean ====
section
/-! PROOFS. A quarantine, part by part, and what it leaves of the link. -/

namespace Sys2Proof.Machine
variable {s t : State} {k : Slot} {v : Link}

/-! ## A link that is on no list -/

/-- Slot `k` holds `v`, stands on no section of the Due List, and has no offer on the queue. -/
structure State.Apart (s : State) (k : Slot) (v : Link) : Prop where
  link : s.link k = v
  due : k ∉ s.dueList.urgent ++ s.dueList.ordinary
  offers : k ∉ s.queue.filterMap Item.offer?

/-- What the invariants do not read leaves a link apart. -/
theorem State.Apart.beside (h : s.Apart k v) (g : Beside s t) : t.Apart k v :=
  ⟨(g.link k).trans h.link, g.dueList ▸ h.due, g.offers ▸ h.offers⟩

/-- With its root channel exhausted the link is passed over. -/
theorem State.Apart.originateOne (h : s.Apart k v) {n : RecordNumber} (other : s.records[n].slot ≠ k) :
    (originateOne n s).Apart k v := by
  rw [originateOne_eq]
  refine ⟨?_, h.due, ?_⟩
  · exact (State.link_setLink_ne s _ (Ne.symm other)).trans h.link
  · show k ∉ (s.queue ++ [Item.offer s.records[n].slot (offerOf s n)]).filterMap Item.offer?
    rw [List.filterMap_append, List.mem_append]
    rintro (queued | new)
    · exact h.offers queued
    · exact other (List.mem_singleton.1 new).symm

/-- A link whose root channel is exhausted is no part of an origination. -/
theorem State.Apart.tryOriginate (h : s.Apart k v) (exhausted : v.rootSequence = 0) : (tryOriginate s).Apart k v := by
  unfold Machine.tryOriginate
  generalize s.sendOrder = order
  induction order generalizing s with
  | nil => exact h
  | cons n order ih =>
    refine ih (s := if canOriginate n s then Machine.originateOne n s else s) ?_
    split
    · rename_i can
      refine h.originateOne fun same => ?_
      rw [canOriginate, same, h.link, exhausted] at can
      simp at can
    · exact h

theorem mem_of_head? {d : DueList} {j : Slot} (h : d.head? = some j) : j ∈ d.urgent ++ d.ordinary := by
  unfold DueList.head? at h
  split at h
  · rename_i eq
    cases h
    simp [eq]
  · exact List.mem_append_right _ (List.mem_of_head? h)

/-- A link on no section is not admitted. -/
theorem State.Apart.admitInto (h : s.Apart k v) (exhausted : v.rootSequence = 0) (n : RecordNumber) {j : Slot} (other : j ≠ k)
    (key : Key) (salt : Salt) (nonce : AttemptNonce) : (admitInto n j key salt nonce s).Apart k v := by
  rw [admitInto_eq]
  refine State.Apart.tryOriginate ⟨?_, ?_, h.offers⟩ exhausted
  · exact (State.link_setLink_ne _ _ (Ne.symm other)).trans h.link
  · have due := h.due
    show k ∉ s.dueList.urgent.filter (fun i => i ≠ j) ++ s.dueList.ordinary.filter (fun i => i ≠ j)
    rw [← List.filter_append]
    exact fun mem => due (List.mem_of_mem_filter mem)

theorem State.Apart.admitUpTo (h : s.Apart k v) (exhausted : v.rootSequence = 0) (i : Nat) : (admitUpTo i s).Apart k v := by
  induction i generalizing s with
  | zero => exact h
  | succ i ih =>
    have drawn := h.beside (beside_drawMany 6 s)
    unfold Machine.admitUpTo
    split
    · rename_i head _
      have other : _ ≠ k := fun same => h.due (same ▸ mem_of_head? head)
      split
      · rename_i eq
        rw [eq] at drawn
        exact ih (drawn.admitInto exhausted _ other _ _ _)
      · rename_i eq
        rw [eq] at drawn
        exact drawn
    · exact h

/-- Neither an admission nor an origination reaches a link that is apart, with its root channel exhausted. -/
theorem State.Apart.tries (h : s.Apart k v) (exhausted : v.rootSequence = 0) : (Machine.tryOriginate (tryAdmit s)).Apart k v :=
  (h.admitUpTo exhausted 16).tryOriginate exhausted

/-! ## The parts of a quarantine -/

theorem isOfferOf_iff (k : Slot) (it : Item) : isOfferOf k it = true ↔ ∃ packet, it = .offer k packet := by
  cases it with
  | notice n => simp [isOfferOf]
  | offer j packet => simp [isOfferOf, eq_comm]

theorem rangeOf_found {u : Triple} (h : s.branchMap.find? (fun u => u.slot = k) = some u) : s.rangeOf k = (u.first, u.last) := by
  rw [State.rangeOf, mapRange, h]

theorem rangeOf_missing (h : s.branchMap.find? (fun u => u.slot = k) = none) :
    s.rangeOf k = ((s.link k).first, (s.link k).last) := by
  rw [State.rangeOf, mapRange, h]

/-- The record erased, and KEY_SPENT cleared where it is active. -/
def erasedState (k : Slot) (s : State) : State := clearIfActive k .keySpent (s.modLink k (quarantinedRecord s.branchMap k))

/-- A quarantine before its tries at admission and origination. -/
def leftState (k : Slot) (s : State) : State := removeOffers k (removeDue k (freeRecordOf k (erasedState k s)))

theorem quarantineLink_eq (enrolled : (s.link k).state ≠ .vacant) (free : (s.link k).state ≠ .quarantined) :
    quarantineLink k s = tryOriginate (tryAdmit (leftState k s)) := if_neg fun h => h.elim free enrolled

theorem quarantineLink_outside (h : (s.link k).state = .quarantined ∨ (s.link k).state = .vacant) : quarantineLink k s = s :=
  if_pos h

theorem link_leftState (k : Slot) (s : State) (j : Slot) : (leftState k s).link j =
    if j = k then clearedRecord .keySpent (quarantinedRecord s.branchMap k (s.link k)) else s.link j := by
  have removed (u : State) : (removeOffers k (removeDue k u)).links = u.links := rfl
  have links : (leftState k s).links = (erasedState k s).links := by rw [leftState, removed, freeRecordOf_links]
  rw [link_congr links, erasedState, link_clearIfActive, State.link_modLink_same, State.link_modLink]
  split
  · rfl
  · rfl

/-- The link is apart once its entry and its offers are gone. -/
theorem leftState_apart (k : Slot) (s : State) :
    (leftState k s).Apart k (clearedRecord .keySpent (quarantinedRecord s.branchMap k (s.link k))) := by
  refine ⟨(link_leftState k s k).trans (if_pos rfl), ?_, ?_⟩
  · generalize hu : freeRecordOf k (erasedState k s) = u
    have due : (leftState k s).dueList = u.dueList.remove k := by rw [leftState, hu]; rfl
    rw [due]
    simp [DueList.remove]
  · generalize hu : removeDue k (freeRecordOf k (erasedState k s)) = u
    have queue : (leftState k s).queue.filterMap Item.offer? = (u.queue.filterMap Item.offer?).filter fun j => j ≠ k := by
      rw [leftState, hu, ← filterMap_offer?_removeOffers]
      rfl
    rw [queue]
    simp

theorem quarantineLink_apart (enrolled : (s.link k).state ≠ .vacant) (free : (s.link k).state ≠ .quarantined) :
    (quarantineLink k s).Apart k (clearedRecord .keySpent (quarantinedRecord s.branchMap k (s.link k))) := by
  rw [quarantineLink_eq enrolled free]
  exact (leftState_apart k s).tries rfl

theorem erasedState_eq (k : Slot) (s : State) : erasedState k s =
    if ((s.link k).kind .keySpent).active then clearKind k .keySpent (s.modLink k (quarantinedRecord s.branchMap k))
    else s.modLink k (quarantinedRecord s.branchMap k) := by
  rw [erasedState, clearIfActive, State.link_modLink_same]
  rfl

/-- What the erasure of the record leaves as it was. -/
theorem erasedState_beside (k : Slot) (s : State) : Beside s { erasedState k s with links := s.links } := by
  have written : Beside s { s.modLink k (quarantinedRecord s.branchMap k) with links := s.links } := .refl s
  rw [erasedState_eq]
  split
  · rw [clearKind_eq]
    have told (n : Notice) (u : State) : Beside { u with links := s.links } { makeNotice n u with links := s.links } := by
      have notice := beside_makeNotice n u
      exact ⟨rfl, notice.branchMap, notice.profiles, notice.dueList, notice.records, notice.sendOrder, notice.offers⟩
    exact told _ ((s.modLink k (quarantinedRecord s.branchMap k)).modLink k (clearedRecord .keySpent))
  · exact written

theorem removal_eq {u : State} (due : u.dueList = s.dueList) : removeOffers k (removeDue k u) = { u with
    dueList := ⟨s.dueList.urgent.filter fun j => j ≠ k, s.dueList.ordinary.filter fun j => j ≠ k⟩
    queue := u.queue.filter fun it => isOfferOf k it = false } := by
  have keeps : (fun it => !isOfferOf k it) = fun it => decide (isOfferOf k it = false) :=
    funext fun it => by cases isOfferOf k it <;> rfl
  rw [removeOffers, keeps, removeDue, DueList.remove, due]

theorem leftState_free (none : s.recordOf k = none) : leftState k s = { erasedState k s with
    dueList := ⟨s.dueList.urgent.filter fun j => j ≠ k, s.dueList.ordinary.filter fun j => j ≠ k⟩
    queue := (erasedState k s).queue.filter fun it => isOfferOf k it = false } := by
  have beside := erasedState_beside k s
  have absent : (erasedState k s).recordOf k = Option.none := (recordOf_congr beside.records k).trans none
  rw [leftState, freeRecordOf, absent]
  exact removal_eq beside.dueList

theorem leftState_freed {n : RecordNumber} (some : s.recordOf k = some n) : leftState k s = { erasedState k s with
    records := s.records.set n.val .free
    sendOrder := s.sendOrder.filter fun m => m ≠ n
    dueList := ⟨s.dueList.urgent.filter fun j => j ≠ k, s.dueList.ordinary.filter fun j => j ≠ k⟩
    queue := (erasedState k s).queue.filter fun it => isOfferOf k it = false } := by
  have beside := erasedState_beside k s
  have present : (erasedState k s).recordOf k = Option.some n := (recordOf_congr beside.records k).trans some
  rw [leftState]
  generalize erasedState k s = erased at beside present ⊢
  have records : erased.records = s.records := beside.records
  have order : erased.sendOrder = s.sendOrder := beside.sendOrder
  rw [freeRecordOf, present, ← records, ← order]
  exact removal_eq (u := freeRecordAt n erased) beside.dueList

/-! ## What a quarantine leaves -/

theorem Runs.turnoverOk {E : Slot → KeySlotName → Prop} (runs : Runs E s t) (ok : s.TurnoverOk) : t.TurnoverOk := by
  have effects := runs.effects
  clear runs
  induction effects with
  | refl => exact ok
  | tail _ effect ih => exact effect.turnover ih

theorem recordOf_none_of_idle (ok : s.TurnoverOk) (idle : (s.link k).renewal = .idle) : s.recordOf k = none := by
  refine List.find?_eq_none.2 fun n _ found => ?_
  have used : s.inUse n ∧ s.records[n].slot = k := by simpa [State.inUse] using found
  have exchange := (ok.recordMirror k).1 ⟨n, used⟩
  rw [idle] at exchange
  cases exchange

theorem mapRange_of_nodup {m : List Triple} (nodup : (m.map Triple.slot).Nodup) {u : Triple} (mem : u ∈ m) (slot : u.slot = k)
    (l : Link) : mapRange m k l = (u.first, u.last) := by
  have found : m.find? (fun t => t.slot = k) = some u := by
    induction m with
    | nil => cases mem
    | cons t m ih =>
      rw [List.find?_cons]
      rw [List.map_cons, List.nodup_cons] at nodup
      rcases List.mem_cons.1 mem with rfl | later
      · simp [slot]
      · have other : t.slot ≠ k := fun same =>
          nodup.1 (List.mem_map.2 ⟨u, later, slot.trans same.symm⟩)
        rw [decide_eq_false other]
        exact ih nodup.2 later
  rw [mapRange, found]

/-- Settles O57: a quarantine as its parts, and the link, which is apart after them. -/
theorem quarantineErasesTheLink : Obligations.QuarantineErasesTheLink := by
  unfold Obligations.QuarantineErasesTheLink
  refine ⟨fun s k => ⟨isOfferOf_iff k, fun u => rangeOf_found, rangeOf_missing⟩, fun s k => ?_, fun s k => ?_⟩
  · intro l erased written cleared freed left free enrolled
    have same : left = leftState k s := by
      have part : cleared = erasedState k s := (erasedState_eq k s).symm
      cases record : s.recordOf k with
      | none => 
        rw [leftState_free record, ← part]
        simp only [left, freed, record]
      | some n =>
        rw [leftState_freed record, ← part]
        simp only [left, freed, record]
    rw [same]
    exact ⟨quarantineLink_eq enrolled free, fun j other => (link_leftState k s j).trans (if_neg other)⟩
  · intro l t m
    refine ⟨quarantineLink_outside, fun free enrolled => ?_⟩
    have apart : t.Apart k (clearedRecord .keySpent (quarantinedRecord s.branchMap k l)) := quarantineLink_apart enrolled free
    have map : t.branchMap = s.branchMap := ((quiet_quarantineLink k s).served (map := True) (profiles := True)).branchMap trivial
    have listed : s.TurnoverOk → t.TurnoverOk := (runs_quarantineLink (E := noSlots) k s).turnoverOk
    have link : m = clearedRecord .keySpent (quarantinedRecord s.branchMap k l) := apart.link
    have idle : m.renewal = .idle := by rw [link]; rfl
    have offers (it : Item) (mem : it ∈ t.queue) : isOfferOf k it = false := by
      refine Bool.eq_false_iff.2 fun offer => ?_
      obtain ⟨packet, rfl⟩ := (isOfferOf_iff k it).1 offer
      exact apart.offers (List.mem_filterMap.2 ⟨_, mem, rfl⟩)
    have range : (s.branchMap.map Triple.slot).Nodup → ∀ u ∈ s.branchMap, u.slot = k → m.first = u.first ∧ m.last = u.last := by
      intro nodup u mem slot
      have found := mapRange_of_nodup nodup mem slot l
      rw [link]
      exact ⟨congrArg Prod.fst found, congrArg Prod.snd found⟩
    have alone (ok : s.TurnoverOk) : t.recordOf k = none := recordOf_none_of_idle (listed ok) idle
    clear_value m
    subst link
    exact ⟨rfl, rfl, rfl, rfl, rfl, rfl, rfl, rfl, rfl, rfl, rfl, rfl, rfl, rfl, rfl, rfl, rfl, rfl, rfl,
      kind_clearedRecord_same _ _, fun _ ne => kind_clearedRecord_ne _ ne, range, apart.due, offers, alone, map⟩

end Sys2Proof.Machine
end

