-- ==== Sys2Proof/Proofs/Marks.lean ====
section
/-! PROOFS. The scrub step, and the parts of a period mark at a link. -/

namespace Sys2Proof.Machine
variable {s t own : State} {env : Env} {k : Slot}

/-! ## The scrub step -/

theorem scrubbed_iff : s.scrubbed k = true ↔
    (s.link k).state = .standby ∨ (s.link k).state = .live ∨ (s.link k).state = .stalled := by
  unfold State.scrubbed
  cases (s.link k).state <;> simp

theorem scrubSelect_or (s : State) :
    s.scrubSelect = (allSlots.find? fun k => s.walkPosition ≤ k && s.scrubbed k).or (allSlots.find? s.scrubbed) := by
  unfold State.scrubSelect
  generalize allSlots.find? s.scrubbed = low
  generalize (allSlots.find? fun k => s.walkPosition ≤ k && s.scrubbed k) = high
  cases high <;> rfl

theorem scrubSelect_none (idle : ∀ k, s.scrubbed k = false) : s.scrubSelect = none := by
  have missing (p : Slot → Bool) (h : ∀ k, p k = false) : allSlots.find? p = none :=
    List.find?_eq_none.2 fun k _ => by simp [h k]
  have ahead : (allSlots.find? fun k => s.walkPosition ≤ k && s.scrubbed k) = none := missing _ fun k => by rw [idle k, Bool.and_false]
  rw [scrubSelect_or, ahead, Option.none_or]
  exact missing _ idle

theorem scrubSelect_from (visited : s.scrubbed k = true) (reached : s.walkPosition ≤ k)
    (first : ∀ j, s.walkPosition ≤ j → j < k → s.scrubbed j = false) : s.scrubSelect = some k := by
  have found : (allSlots.find? fun k => s.walkPosition ≤ k && s.scrubbed k) = some k := by
    refine find?_finRange_eq_some.2 ⟨by simp [visited, reached], fun j before => ?_⟩
    by_cases past : s.walkPosition ≤ j
    · simp [first j past before]
    · simp [past]
  rw [scrubSelect_or, found, Option.some_or]

theorem scrubSelect_round (visited : s.scrubbed k = true)
    (first : ∀ j, s.walkPosition ≤ j ∨ j < k → s.scrubbed j = false) : s.scrubSelect = some k := by
  have missing : (allSlots.find? fun k => s.walkPosition ≤ k && s.scrubbed k) = none :=
    List.find?_eq_none.2 fun j _ => by
      by_cases past : s.walkPosition ≤ j
      · simp [first j (.inl past)]
      · simp [past]
  have found : allSlots.find? s.scrubbed = some k :=
    find?_finRange_eq_some.2 ⟨visited, fun j low => first j (.inr low)⟩
  rw [scrubSelect_or, missing, found, Option.none_or]

theorem scrub_none (none : s.scrubSelect = none) : scrub s = s := by
  unfold scrub
  generalize s.scrubSelect = visit at none ⊢
  subst none
  rfl

theorem scrub_agrees (visit : s.scrubSelect = some k) (true_ : freshCode (s.link k) = (s.link k).checkCode) :
    scrub s = walkTo (nextWalk k) s := by
  unfold scrub
  generalize s.scrubSelect = selected at visit ⊢
  subst visit
  exact if_pos true_

theorem scrub_differs (visit : s.scrubSelect = some k) (false_ : freshCode (s.link k) ≠ (s.link k).checkCode) :
    scrub s = raiseKind k .storeCorrupt (walkTo (nextWalk k) s) := by
  unfold scrub
  generalize s.scrubSelect = selected at visit ⊢
  subst visit
  exact if_neg false_

theorem nextWalk_eq (k : Slot) : nextWalk k = if h : k.val + 1 < 512 then ⟨k.val + 1, h⟩ else 0 := by
  refine Fin.ext ?_
  rw [nextWalk, Fin.val_add]
  have below := k.isLt
  by_cases room : k.val + 1 < 512
  · rw [dif_pos room]
    exact Nat.mod_eq_of_lt room
  · rw [dif_neg room]
    have last : k.val = 511 := by omega
    rw [last]
    rfl

/-- STORE_CORRUPT quarantines an enrolled link. -/
theorem raise_storeCorrupt (enrolled : (s.link k).state ≠ .vacant) : ((raiseKind k .storeCorrupt s).link k).state = .quarantined := by
  have told : ((toldRaise k .storeCorrupt s).link k).state = (s.link k).state := by
    rw [link_toldRaise]
    rfl
  have action : takeAction k ((s.profileOf k).actionOf .storeCorrupt) (toldRaise k .storeCorrupt s) =
      quarantineLink k (toldRaise k .storeCorrupt s) := rfl
  rw [raiseKind_eq, action]
  by_cases already : ((toldRaise k .storeCorrupt s).link k).state = .quarantined
  · rw [quarantineLink_outside (.inl already)]
    exact already
  · rw [(quarantineLink_apart (told ▸ enrolled) already).link]
    rfl

/-- A scrub step, as an event. -/
theorem scrubStep_done (runs : s.timebaseRuns = true) (clean : cleanEnv env) (does : scrub (beginEvent env s) = own) :
    ∃ t, exec (.scrubStep env) s = .next t ∧ EventDone s t [] own := by
  have start : Within s (beginEvent env s) env := .start clean s
  obtain ⟨within, posted⟩ := within_scrub start
  have done := event_done (timebaseRuns_iff.1 runs).1 (body := scrub) rfl within
  rw [posted, does] at done
  exact ⟨_, rfl, by rw [timedEvent_eq runs]; exact done⟩

/-- A scrub step that changes nothing the board shows. -/
theorem scrubStep_silent (runs : s.timebaseRuns = true) (clean : cleanEnv env) {next : Slot}
    (does : scrub (beginEvent env s) = walkTo next (beginEvent env s)) :
    ∃ t, exec (.scrubStep env) s = .next t ∧ SilentDone s t { s with walkPosition := next } := by
  obtain ⟨t, taken, done⟩ := scrubStep_done runs clean does
  have walked : EventDone s t [] { s with walkPosition := next } := done.of_inner rfl
  exact ⟨t, taken, walked.silent (boardWrites_unshown rfl rfl rfl rfl rfl rfl)⟩

/-- Settles O58: the record visited, and whether its code agrees. -/
theorem scrubStepVisitsTheNextRecord : Obligations.ScrubStepVisitsTheNextRecord := by
  unfold Obligations.ScrubStepVisitsTheNextRecord
  refine ⟨fun s k => scrubbed_iff, fun env s runs clean => ⟨fun none => ?_, fun k visited place => ?_⟩⟩
  · exact scrubStep_silent runs clean (next := s.walkPosition) (scrub_none (s := beginEvent env s) (scrubSelect_none none))
  · have visit : (beginEvent env s).scrubSelect = some k := by
      rcases place with ⟨reached, first⟩ | ⟨_, first⟩
      · exact scrubSelect_from (s := beginEvent env s) visited reached first
      · exact scrubSelect_round (s := beginEvent env s) visited first
    rw [← nextWalk_eq]
    refine ⟨fun agrees => scrubStep_silent runs clean (scrub_agrees visit agrees), fun differs => ?_⟩
    obtain ⟨t, taken, done⟩ := scrubStep_done runs clean (scrub_differs visit differs)
    have enrolled : ((walkTo (nextWalk k) (beginEvent env s)).link k).state ≠ .vacant := by
      have state := scrubbed_iff.1 visited
      intro vacant
      have vacant : (s.link k).state = .vacant := vacant
      simp [vacant] at state
    have links : t.links = (raiseKind k .storeCorrupt (walkTo (nextWalk k) (beginEvent env s))).links := by
      have e := congrArg State.links done.inner; exact e
    have walk : t.walkPosition = (raiseKind k .storeCorrupt (walkTo (nextWalk k) (beginEvent env s))).walkPosition := by
      have e := congrArg State.walkPosition done.inner; exact e
    have kept := (quiet_raiseKind k .storeCorrupt (walkTo (nextWalk k) (beginEvent env s))).kept (items := [])
    refine ⟨t, taken, ?_, ?_, done⟩
    · rw [link_congr links]
      exact raise_storeCorrupt enrolled
    · rw [walk]
      exact kept.same .walkPosition (by decide)

end Sys2Proof.Machine
end

