-- ==== Sys2Proof/Proofs/Ages.lean ====
section
/-! PROOFS. Spending and erasing key slots, and the parts of a mark that the table lists as events of their own. -/

namespace Sys2Proof.Machine
variable {s t own : State} {env : Env} {k : Slot}

/-! ## Spending and erasing -/

theorem spendCurrent_eq (k : Slot) (s : State) : spendCurrent k s =
    if ((s.link k).kind .keySpent).active then s.setLink k (spentRecord (s.link k))
    else raiseKind k .keySpent (s.setLink k (spentRecord (s.link k))) := by
  rw [spendCurrent, raiseIfInactive, State.link_modLink_same]
  rfl

theorem eraseRetiring_inUse (used : (s.link k).retiring.state = .inUse) :
    eraseRetiring k s = s.setLink k (erasedRecord (s.link k)) := if_pos used

theorem eraseRetiring_none (other : (s.link k).retiring.state ≠ .inUse) : eraseRetiring k s = s := if_neg other

theorem checkCurrent_reached (h : (s.link k).current.state = .inUse ∧
      ((s.link k).current.budget < (s.link k).current.use + 98 ∨ (s.link k).current.ageLimit ≤ (s.link k).current.age)) :
    checkCurrent k s = spendCurrent k s := if_pos ⟨h.1, (limitReached_iff _).2 h.2⟩

theorem checkCurrent_below (h : ¬ ((s.link k).current.state = .inUse ∧
      ((s.link k).current.budget < (s.link k).current.use + 98 ∨ (s.link k).current.ageLimit ≤ (s.link k).current.age))) :
    checkCurrent k s = s := if_neg fun reached => h ⟨reached.1, (limitReached_iff _).1 reached.2⟩

theorem checkRetiring_reached (h : (s.link k).retiring.state = .inUse ∧
      ((s.link k).retiring.budget < (s.link k).retiring.use + 98 ∨ (s.link k).retiring.ageLimit ≤ (s.link k).retiring.age)) :
    checkRetiring k s = eraseRetiring k s := if_pos ⟨h.1, (limitReached_iff _).2 h.2⟩

theorem checkRetiring_below (h : ¬ ((s.link k).retiring.state = .inUse ∧
      ((s.link k).retiring.budget < (s.link k).retiring.use + 98 ∨ (s.link k).retiring.ageLimit ≤ (s.link k).retiring.age))) :
    checkRetiring k s = s := if_neg fun reached => h ⟨reached.1, (limitReached_iff _).1 reached.2⟩

/-! ## Aging -/

theorem ageCurrent_none (other : (s.link k).current.state ≠ .inUse) : ageCurrent k s = s := if_neg other

theorem ageCurrent_reached (used : (s.link k).current.state = .inUse)
    (limit : (s.link k).current.budget < (s.link k).current.use + 98 ∨ (s.link k).current.ageLimit ≤ (s.link k).current.age + 1) :
    ageCurrent k s = spendCurrent k (s.setLink k (agedCurrent (s.link k))) := by
  have older : ((s.modLink k agedCurrent).link k) = agedCurrent (s.link k) := State.link_modLink_same s k _
  have aged : ageCurrent k s = checkCurrent k (s.modLink k agedCurrent) := if_pos used
  rw [aged, checkCurrent_reached (by rw [older]; exact ⟨used, limit⟩)]
  rfl

theorem ageCurrent_below (used : (s.link k).current.state = .inUse)
    (below : ¬ ((s.link k).current.budget < (s.link k).current.use + 98 ∨ (s.link k).current.ageLimit ≤ (s.link k).current.age + 1)) :
    ageCurrent k s = s.setLink k (agedCurrent (s.link k)) := by
  have older : ((s.modLink k agedCurrent).link k) = agedCurrent (s.link k) := State.link_modLink_same s k _
  have aged : ageCurrent k s = checkCurrent k (s.modLink k agedCurrent) := if_pos used
  rw [aged, checkCurrent_below (by rw [older]; exact fun reached => below reached.2)]
  rfl

theorem ageRetiring_none (other : (s.link k).retiring.state ≠ .inUse) : ageRetiring k s = s := if_neg other

theorem ageRetiring_reached (used : (s.link k).retiring.state = .inUse)
    (limit : (s.link k).retiring.budget < (s.link k).retiring.use + 98 ∨ (s.link k).retiring.ageLimit ≤ (s.link k).retiring.age + 1) :
    ageRetiring k s = eraseRetiring k (s.setLink k (agedRetiring (s.link k))) := by
  have older : ((s.modLink k agedRetiring).link k) = agedRetiring (s.link k) := State.link_modLink_same s k _
  have aged : ageRetiring k s = checkRetiring k (s.modLink k agedRetiring) := if_pos used
  rw [aged, checkRetiring_reached (by rw [older]; exact ⟨used, limit⟩)]
  rfl

theorem ageRetiring_below (used : (s.link k).retiring.state = .inUse)
    (below : ¬ ((s.link k).retiring.budget < (s.link k).retiring.use + 98 ∨
      (s.link k).retiring.ageLimit ≤ (s.link k).retiring.age + 1)) :
    ageRetiring k s = s.setLink k (agedRetiring (s.link k)) := by
  have older : ((s.modLink k agedRetiring).link k) = agedRetiring (s.link k) := State.link_modLink_same s k _
  have aged : ageRetiring k s = checkRetiring k (s.modLink k agedRetiring) := if_pos used
  rw [aged, checkRetiring_below (by rw [older]; exact fun reached => below reached.2)]
  rfl

theorem countRetireTimer_none (other : (s.link k).retiring.state ≠ .inUse) : countRetireTimer k s = s := if_neg other

theorem countRetireTimer_last (used : (s.link k).retiring.state = .inUse) (last : (s.link k).retireTimer ≤ 1) :
    countRetireTimer k s = eraseRetiring k s := by
  unfold countRetireTimer
  rw [if_pos used, if_pos last]

theorem countRetireTimer_more (used : (s.link k).retiring.state = .inUse) (more : 2 ≤ (s.link k).retireTimer) :
    countRetireTimer k s = s.setLink k { s.link k with retireTimer := (s.link k).retireTimer - 1 } := by
  unfold countRetireTimer
  rw [if_pos used, if_neg (by omega)]
  rfl

theorem countedRest_last {l : Link} (resting : l.renewal = .rest) (last : l.restTimer ≤ 1) :
    countedRest l = { l with renewal := .idle, restTimer := 0 } := by
  rw [countedRest, if_pos resting, if_pos last]

theorem countedRest_more {l : Link} (resting : l.renewal = .rest) (more : 2 ≤ l.restTimer) :
    countedRest l = { l with restTimer := l.restTimer - 1 } := by
  rw [countedRest, if_pos resting, if_neg (by omega)]

theorem countedRest_other {l : Link} (other : l.renewal ≠ .rest) : countedRest l = l := if_neg other

/-! ## Timed events of one part of a mark -/

/-- A timed event that finds nothing to do. -/
theorem timedEvent_idle (runs : s.timebaseRuns = true) (clean : cleanEnv env) {body : State → State}
    (same : body (beginEvent env s) = beginEvent env s) : SilentDone s (timedEvent env body s) s := by
  rw [timedEvent_eq runs]
  exact idleEvent_done (timebaseRuns_iff.1 runs).1 clean same

theorem ageLimit_idle (runs : s.timebaseRuns = true) (clean : cleanEnv env) (which : KeySlotName)
    (same : reachAgeLimit k which (beginEvent env s) = beginEvent env s) :
    ∃ t, exec (.ageLimitReached k which env) s = .next t ∧ SilentDone s t s := ⟨_, rfl, timedEvent_idle runs clean same⟩

/-- The state of the link after its CURRENT key has reached its age limit. -/
theorem spent_or_quarantined (s : State) (k : Slot) :
    ((spendCurrent k s).link k).state = .stalled ∨ ((spendCurrent k s).link k).state = .quarantined := by
  have raised := (later_raiseIfInactive k .keySpent (s.modLink k spentRecord) k).state
  rw [State.link_modLink_same] at raised
  exact raised.symm

/-- The age limit of CURRENT. -/
theorem currentLimit_done (runs : s.timebaseRuns = true) (clean : cleanEnv env) (used : (s.link k).current.state = .inUse)
    (limit : (s.link k).current.ageLimit ≤ (s.link k).current.age + 1) (enrolled : (s.link k).state ≠ .vacant) :
    ∃ t, exec (.ageLimitReached k .current env) s = .next t ∧
      EventDone s t [] (if ((s.link k).kind .keySpent).active then
          (beginEvent env s).setLink k (spentRecord (agedCurrent (s.link k)))
        else raiseKind k .keySpent ((beginEvent env s).setLink k (spentRecord (agedCurrent (s.link k))))) ∧
      ((t.link k).state = .stalled ∨ (t.link k).state = .quarantined) := by
  have reaches : reachAgeLimit k .current (beginEvent env s) =
      spendCurrent k ((beginEvent env s).setLink k (agedCurrent (s.link k))) :=
    (if_pos ⟨used, limit⟩ : _ = ageCurrent k (beginEvent env s)).trans
      (ageCurrent_reached (s := beginEvent env s) used (.inr limit))
  have done := timedEvent_done runs clean (quiet_reachAgeLimit k .current (beginEvent env s))
  have state := spent_or_quarantined ((beginEvent env s).setLink k (agedCurrent (s.link k))) k
  have links : (timedEvent env (reachAgeLimit k .current) s).links = (reachAgeLimit k .current (beginEvent env s)).links := by
    have e := congrArg State.links done.inner; exact e
  rw [← reaches, ← link_congr links] at state
  refine ⟨_, rfl, ?_, state⟩
  have listed : agedCurrent (s.link k) ≠ .vacant := Link.ne_vacant enrolled
  rw [reaches, spendCurrent_eq, State.link_setLink_same, State.setLink_setLink _ _ _ listed] at done
  exact done

/-- The age limit of RETIRING. -/
theorem retiringLimit_done (runs : s.timebaseRuns = true) (clean : cleanEnv env) (used : (s.link k).retiring.state = .inUse)
    (limit : (s.link k).retiring.ageLimit ≤ (s.link k).retiring.age + 1) (enrolled : (s.link k).state ≠ .vacant) :
    ∃ t, exec (.ageLimitReached k .retiring env) s = .next t ∧
      EventDone s t [] (s.setLink k (erasedRecord (agedRetiring (s.link k)))) := by
  have reaches : reachAgeLimit k .retiring (beginEvent env s) =
      eraseRetiring k ((beginEvent env s).setLink k (agedRetiring (s.link k))) :=
    (if_pos ⟨used, limit⟩ : _ = ageRetiring k (beginEvent env s)).trans
      (ageRetiring_reached (s := beginEvent env s) used (.inr limit))
  have done := timedEvent_done runs clean (quiet_reachAgeLimit k .retiring (beginEvent env s))
  have listed : agedRetiring (s.link k) ≠ .vacant := Link.ne_vacant enrolled
  rw [reaches, eraseRetiring_inUse (by rw [State.link_setLink_same]; exact used), State.link_setLink_same,
    State.setLink_setLink _ _ _ listed] at done
  exact ⟨_, rfl, done.of_inner rfl⟩

/-- The end of a rest. -/
theorem restEnd_done (runs : s.timebaseRuns = true) (clean : cleanEnv env) (resting : (s.link k).renewal = .rest)
    (last : (s.link k).restTimer ≤ 1) :
    ∃ t, exec (.restEnd k env) s = .next t ∧
      EventDone s t [] (dueCheck k .joinsOnly ((beginEvent env s).setLink k { s.link k with renewal := .idle, restTimer := 0 })) := by
  have reaches : reachRestEnd k (beginEvent env s) =
      dueCheck k .joinsOnly ((beginEvent env s).setLink k (countedRest (s.link k))) := if_pos ⟨resting, last⟩
  have done := timedEvent_done runs clean (quiet_reachRestEnd k (beginEvent env s))
  rw [reaches, countedRest_last resting last] at done
  exact ⟨_, rfl, done⟩

/-- The end of a retire time. -/
theorem retireExpiry_done (runs : s.timebaseRuns = true) (clean : cleanEnv env) (used : (s.link k).retiring.state = .inUse)
    (last : (s.link k).retireTimer ≤ 1) :
    ∃ t, exec (.retireTimerExpiry k env) s = .next t ∧ EventDone s t [] (s.setLink k (erasedRecord (s.link k))) := by
  have reaches : reachRetireTime k (beginEvent env s) = eraseRetiring k (beginEvent env s) :=
    (if_pos ⟨used, last⟩ : _ = countRetireTimer k (beginEvent env s)).trans
      (countRetireTimer_last (s := beginEvent env s) used last)
  have done := timedEvent_done runs clean (quiet_reachRetireTime k (beginEvent env s))
  rw [reaches, eraseRetiring_inUse (s := beginEvent env s) used] at done
  exact ⟨_, rfl, done.of_inner rfl⟩

/-- Settles O60: spending, erasing and the spent checks, and the three events by whether their limit is reached. -/
theorem limitsAndTimersOfAMark : Obligations.LimitsAndTimersOfAMark := by
  unfold Obligations.LimitsAndTimersOfAMark
  refine ⟨fun s k => ⟨spendCurrent_eq k s, eraseRetiring_inUse, eraseRetiring_none, checkCurrent_reached, checkCurrent_below,
    checkRetiring_reached, checkRetiring_below⟩, fun env s k runs clean => ⟨?_, ?_, ?_, ?_⟩,
    fun env s k runs clean enrolled => ⟨?_, ?_, ?_, ?_⟩⟩
  · exact fun used limit enrolled => currentLimit_done runs clean used limit enrolled
  · exact fun used limit enrolled => retiringLimit_done runs clean used limit enrolled
  · exact fun far => ageLimit_idle runs clean .current (if_neg fun reached => far.elim (fun none => none reached.1) fun below => Nat.not_le.2 below reached.2)
  · exact fun far => ageLimit_idle runs clean .retiring (if_neg fun reached => far.elim (fun none => none reached.1) fun below => Nat.not_le.2 below reached.2)
  · exact fun used last => retireExpiry_done runs clean used last
  · exact fun far => ⟨_, rfl, timedEvent_idle runs clean (if_neg fun reached =>
      far.elim (fun none => none reached.1) fun more => absurd reached.2 (Nat.not_le.2 more))⟩
  · exact fun resting last => restEnd_done runs clean resting last
  · exact fun far => ⟨_, rfl, timedEvent_idle runs clean (if_neg fun reached =>
      far.elim (fun none => none reached.1) fun more => absurd reached.2 (Nat.not_le.2 more))⟩

end Sys2Proof.Machine
end

