-- ==== Sys2Proof/Proofs/Periods.lean ====
section
/-! PROOFS. A period mark at a link record, whole. -/

namespace Sys2Proof.Machine
variable {s t own : State} {env : Env} {k : Slot}

/-! ## What each part of a mark leaves of the link -/

/-- What the aging of CURRENT leaves of a link. -/
structure Link.CurrentAged (l m : Link) : Prop where
  rate : m.rate = l.rate
  periodCount : m.periodCount = l.periodCount
  retiring : m.state = .quarantined ∨ m.retiring = l.retiring ∧ m.retireTimer = l.retireTimer
  rest : m.renewal = .rest → l.renewal = .rest ∧ m.restTimer = l.restTimer

theorem Link.CurrentAged.refl (l : Link) : l.CurrentAged l := ⟨rfl, rfl, .inr ⟨rfl, rfl⟩, fun now => ⟨now, rfl⟩⟩

/-- A change of the CURRENT key and the state, with any raise after it. -/
theorem Link.CurrentAged.later {l m n : Link} (h : l.CurrentAged m) (g : m.Later n) : l.CurrentAged n where
  rate := g.rate.trans h.rate
  periodCount := g.periodCount.trans h.periodCount
  retiring := by
    rcases g.keyed with erased | kept
    · exact .inl erased
    · have state : n.state = m.state := congrArg Prod.fst kept
      have slot : n.retiring = m.retiring := congrArg (·.2.2.2.1) kept
      have timer : n.retireTimer = m.retireTimer := congrArg (·.2.2.2.2) kept
      exact h.retiring.imp (fun erased => state.trans erased) fun ⟨same, count⟩ => ⟨slot.trans same, timer.trans count⟩
  rest now := by
    obtain ⟨middle, timer⟩ := g.rest now
    obtain ⟨first, start⟩ := h.rest middle
    exact ⟨first, timer.trans start⟩

theorem currentAged_ageCurrent (k : Slot) (s : State) : (s.link k).CurrentAged ((ageCurrent k s).link k) := by
  by_cases used : (s.link k).current.state = .inUse
  · have aged : (s.link k).CurrentAged (agedCurrent (s.link k)) := ⟨rfl, rfl, .inr ⟨rfl, rfl⟩, fun now => ⟨now, rfl⟩⟩
    by_cases limit : (s.link k).current.budget < (s.link k).current.use + 98 ∨
        (s.link k).current.ageLimit ≤ (s.link k).current.age + 1
    · have raised := later_raiseIfInactive k .keySpent ((s.setLink k (agedCurrent (s.link k))).modLink k spentRecord) k
      rw [State.link_modLink_same, State.link_setLink_same] at raised
      have spent : (s.link k).CurrentAged (spentRecord (agedCurrent (s.link k))) :=
        ⟨rfl, rfl, .inr ⟨rfl, rfl⟩, fun now => ⟨now, rfl⟩⟩
      rw [ageCurrent_reached used limit]
      exact spent.later raised
    · rw [ageCurrent_below used limit, State.link_setLink_same]
      exact aged
  · rw [ageCurrent_none used]
    exact .refl _

/-- What the aging of RETIRING and its retire timer leave of a link. -/
structure Link.RetiringAged (l m : Link) : Prop where
  rate : m.rate = l.rate
  periodCount : m.periodCount = l.periodCount
  state : m.state = l.state
  current : m.current = l.current
  renewal : m.renewal = l.renewal
  restTimer : m.restTimer = l.restTimer

theorem Link.RetiringAged.refl (l : Link) : l.RetiringAged l := ⟨rfl, rfl, rfl, rfl, rfl, rfl⟩

theorem Link.RetiringAged.trans {l m n : Link} (h : l.RetiringAged m) (g : m.RetiringAged n) : l.RetiringAged n :=
  ⟨g.rate.trans h.rate, g.periodCount.trans h.periodCount, g.state.trans h.state, g.current.trans h.current,
    g.renewal.trans h.renewal, g.restTimer.trans h.restTimer⟩

theorem retiringAged_modLink {f : Link → Link} (h : (s.link k).RetiringAged (f (s.link k))) :
    (s.link k).RetiringAged ((s.modLink k f).link k) := by
  rw [State.link_modLink_same]
  exact h

theorem retiringAged_eraseRetiring (k : Slot) (s : State) : (s.link k).RetiringAged ((eraseRetiring k s).link k) := by
  unfold eraseRetiring
  split
  · exact retiringAged_modLink ⟨rfl, rfl, rfl, rfl, rfl, rfl⟩
  · exact .refl _

theorem retiringAged_ageRetiring (k : Slot) (s : State) : (s.link k).RetiringAged ((ageRetiring k s).link k) := by
  have aged : (s.link k).RetiringAged ((s.modLink k agedRetiring).link k) := retiringAged_modLink ⟨rfl, rfl, rfl, rfl, rfl, rfl⟩
  unfold ageRetiring
  split
  · unfold checkRetiring
    dsimp only
    split
    · exact aged.trans (retiringAged_eraseRetiring k _)
    · exact aged
  · exact .refl _

theorem retiringAged_countRetireTimer (k : Slot) (s : State) : (s.link k).RetiringAged ((countRetireTimer k s).link k) := by
  unfold countRetireTimer
  dsimp only
  split
  · split
    · exact retiringAged_eraseRetiring k s
    · exact retiringAged_modLink ⟨rfl, rfl, rfl, rfl, rfl, rfl⟩
  · exact .refl _

/-! ## RETIRING through the two parts -/

/-- A RETIRING key below its limits, with periods left, is one period older and its timer one lower. -/
theorem retiring_counted (used : (s.link k).retiring.state = .inUse)
    (below : ¬ ((s.link k).retiring.budget < (s.link k).retiring.use + 98 ∨ (s.link k).retiring.ageLimit ≤ (s.link k).retiring.age + 1))
    (more : 2 ≤ (s.link k).retireTimer) :
    ((countRetireTimer k (ageRetiring k s)).link k).retiring = { (s.link k).retiring with age := (s.link k).retiring.age + 1 } ∧
      ((countRetireTimer k (ageRetiring k s)).link k).retireTimer = (s.link k).retireTimer - 1 := by
  have aged : (s.setLink k (agedRetiring (s.link k))).link k = agedRetiring (s.link k) := State.link_setLink_same s k _
  rw [ageRetiring_below used below, countRetireTimer_more (by rw [aged]; exact used) (by rw [aged]; exact more),
    State.link_setLink_same, aged]
  exact ⟨rfl, rfl⟩

theorem erasedRetiring (used : (s.link k).retiring.state = .inUse) : ((eraseRetiring k s).link k).retiring = .empty := by
  rw [eraseRetiring_inUse used, State.link_setLink_same]
  rfl

/-- At its last period RETIRING is erased, by its limit or by its timer. -/
theorem retiring_erased (used : (s.link k).retiring.state = .inUse) (last : (s.link k).retireTimer ≤ 1) :
    ((countRetireTimer k (ageRetiring k s)).link k).retiring = .empty := by
  have aged : (s.setLink k (agedRetiring (s.link k))).link k = agedRetiring (s.link k) := State.link_setLink_same s k _
  by_cases limit : (s.link k).retiring.budget < (s.link k).retiring.use + 98 ∨
      (s.link k).retiring.ageLimit ≤ (s.link k).retiring.age + 1
  · have gone := erasedRetiring (s := s.setLink k (agedRetiring (s.link k))) (k := k) (by rw [aged]; exact used)
    have empty : ((eraseRetiring k (s.setLink k (agedRetiring (s.link k)))).link k).retiring.state ≠ .inUse := by
      rw [gone]; decide
    rw [ageRetiring_reached used limit, countRetireTimer_none empty, gone]
  · rw [ageRetiring_below used limit, countRetireTimer_last (by rw [aged]; exact used) (by rw [aged]; exact last)]
    exact erasedRetiring (by rw [aged]; exact used)

/-- A link still in REST after the count of its timer. -/
theorem rest_of_countedRest {l : Link} (now : (countedRest l).renewal = .rest) :
    l.renewal = .rest ∧ 2 ≤ l.restTimer ∧ (countedRest l).restTimer = l.restTimer - 1 := by
  by_cases resting : l.renewal = .rest
  · by_cases last : l.restTimer ≤ 1
    · rw [countedRest_last resting last] at now
      cases now
    · have more : 2 ≤ l.restTimer := by omega
      exact ⟨resting, more, by rw [countedRest_more resting more]⟩
  · rw [countedRest_other resting] at now
    exact absurd now resting

theorem countedRest_same (l : Link) : (countedRest l).rate = l.rate ∧ (countedRest l).periodCount = l.periodCount ∧
    (countedRest l).state = l.state ∧ (countedRest l).current = l.current ∧ (countedRest l).retiring = l.retiring ∧
    (countedRest l).retireTimer = l.retireTimer := by
  unfold countedRest
  split
  · split <;> exact ⟨rfl, rfl, rfl, rfl, rfl, rfl⟩
  · exact ⟨rfl, rfl, rfl, rfl, rfl, rfl⟩

/-! ## The mark -/

/-- The link once its timers are counted. -/
def countedLink (k : Slot) (s : State) : Link := (countRetireTimer k (ageRetiring k (ageCurrent k s))).link k

/-- The state once the rest timer is counted. -/
def restedMark (k : Slot) (s : State) : State :=
  (countRetireTimer k (ageRetiring k (ageCurrent k s))).setLink k
    (countedRest ((countRetireTimer k (ageRetiring k (ageCurrent k s))).link k))

theorem link_restedMark (k : Slot) (s : State) : (restedMark k s).link k = countedRest (countedLink k s) :=
  State.link_setLink_same _ k _

/-- The link once its rate is taken. -/
def ratedLink (k : Slot) (s : State) : Link :=
  { (restedMark k s).link k with
    rate := min 16777215 ((s.link k).rate - (s.link k).rate / 8 + 2 * (s.link k).periodCount), periodCount := 0 }

/-- The state at the due check of a mark. -/
def ratedState (k : Slot) (s : State) : State := (restedMark k s).setLink k (ratedLink k s)

theorem ratedLink_same (k : Slot) (s : State) :
    (ratedLink k s).state = (countedLink k s).state ∧ (ratedLink k s).current = (countedLink k s).current ∧
      (ratedLink k s).retiring = (countedLink k s).retiring ∧ (ratedLink k s).retireTimer = (countedLink k s).retireTimer ∧
      (ratedLink k s).renewal = (countedRest (countedLink k s)).renewal ∧
      (ratedLink k s).restTimer = (countedRest (countedLink k s)).restTimer := by
  obtain ⟨-, -, state, current, retiring, timer⟩ := countedRest_same (countedLink k s)
  unfold ratedLink
  rw [link_restedMark]
  generalize countedRest (countedLink k s) = counted at state current retiring timer ⊢
  exact ⟨state, current, retiring, timer, rfl, rfl⟩

theorem countedLink_aged (k : Slot) (s : State) :
    Link.RetiringAged ((ageCurrent k s).link k) (countedLink k s) :=
  (retiringAged_ageRetiring k _).trans (retiringAged_countRetireTimer k _)

theorem countedLink_rate (k : Slot) (s : State) :
    (countedRest (countedLink k s)).rate = (s.link k).rate ∧ (countedRest (countedLink k s)).periodCount = (s.link k).periodCount := by
  obtain ⟨rate, count, -⟩ := countedRest_same (countedLink k s)
  have aged := countedLink_aged k s
  have current := currentAged_ageCurrent k s
  exact ⟨rate.trans (aged.rate.trans current.rate), count.trans (aged.periodCount.trans current.periodCount)⟩

theorem markLink_eq (enrolled : (s.link k).state ≠ .vacant) :
    markLink k s = countSilence k (decayKinds k (dueCheck k .testsUrgency (ratedState k s))) := by
  obtain ⟨rate, count⟩ := countedLink_rate k s
  have rated : ratedRecord ((restedMark k s).link k) = ratedLink k s := by
    rw [← link_restedMark] at rate count
    rw [ratedRecord, rate, count]
    rfl
  have whole : markLink k s = countSilence k (decayKinds k (dueCheck k .testsUrgency
      ((restedMark k s).modLink k ratedRecord))) := if_neg enrolled
  rw [whole, State.modLink, rated, ratedState]

theorem Link.Later.keys {l m : Link} (h : l.Later m) (kept : m.state ≠ .quarantined) :
    m.state = l.state ∧ m.current = l.current ∧ m.retiring = l.retiring ∧ m.retireTimer = l.retireTimer := by
  have keyed := h.keyed.resolve_left kept
  exact ⟨congrArg Prod.fst keyed, congrArg (·.2.1) keyed, congrArg (·.2.2.2.1) keyed, congrArg (·.2.2.2.2) keyed⟩

/-- What the mark leaves of the link. -/
theorem markLink_later (enrolled : (s.link k).state ≠ .vacant) : (ratedLink k s).Later ((markLink k s).link k) := by
  have due := turning_later.dueCheck k .testsUrgency (ratedState k s)
  have later := turning_later.every_trans due
    (turning_later.every_trans (later_decayKinds k _) (later_countSilence k _)) k
  rw [ratedState, State.link_setLink_same] at later
  rw [markLink_eq enrolled]
  exact later

/-- The keys of a link that the mark does not quarantine. -/
theorem keys_of_markLink (enrolled : (s.link k).state ≠ .vacant) (kept : ((markLink k s).link k).state ≠ .quarantined) :
    ((markLink k s).link k).current = (countedLink k s).current ∧ ((markLink k s).link k).retiring = (countedLink k s).retiring ∧
      ((markLink k s).link k).retireTimer = (countedLink k s).retireTimer ∧ ((ageCurrent k s).link k).state ≠ .quarantined := by
  obtain ⟨state, current, retiring, timer, -, -⟩ := ratedLink_same k s
  obtain ⟨live, key, slot, count⟩ := (markLink_later enrolled).keys kept
  refine ⟨key.trans current, slot.trans retiring, count.trans timer, fun erased => kept ?_⟩
  exact live.trans (state.trans ((countedLink_aged k s).state.trans erased))

theorem current_of_markLink (enrolled : (s.link k).state ≠ .vacant) (kept : ((markLink k s).link k).state ≠ .quarantined)
    (used : (s.link k).current.state = .inUse) (budget : (s.link k).current.use + 98 ≤ (s.link k).current.budget)
    (age : (s.link k).current.age + 1 < (s.link k).current.ageLimit) :
    ((markLink k s).link k).current = { (s.link k).current with age := (s.link k).current.age + 1 } := by
  rw [(keys_of_markLink enrolled kept).1, (countedLink_aged k s).current, ageCurrent_below used (by omega), State.link_setLink_same]
  rfl

/-- RETIRING and its timer as the aging of CURRENT leaves them. -/
theorem retiring_of_markLink (enrolled : (s.link k).state ≠ .vacant) (kept : ((markLink k s).link k).state ≠ .quarantined) :
    ((ageCurrent k s).link k).retiring = (s.link k).retiring ∧ ((ageCurrent k s).link k).retireTimer = (s.link k).retireTimer :=
  (currentAged_ageCurrent k s).retiring.resolve_left (keys_of_markLink enrolled kept).2.2.2

theorem rest_of_markLink (enrolled : (s.link k).state ≠ .vacant) (now : ((markLink k s).link k).renewal = .rest) :
    (s.link k).renewal = .rest ∧ 2 ≤ (s.link k).restTimer ∧ ((markLink k s).link k).restTimer = (s.link k).restTimer - 1 := by
  obtain ⟨-, -, -, -, renewal, counted⟩ := ratedLink_same k s
  obtain ⟨rested, timer⟩ := (markLink_later enrolled).rest now
  obtain ⟨resting, more, lower⟩ := rest_of_countedRest (l := countedLink k s) (renewal ▸ rested)
  have aged := countedLink_aged k s
  obtain ⟨first, start⟩ := (currentAged_ageCurrent k s).rest (aged.renewal ▸ resting)
  have timers : (countedLink k s).restTimer = (s.link k).restTimer := aged.restTimer.trans start
  rw [timers] at more lower
  exact ⟨first, more, timer.trans (counted.trans lower)⟩

/-- Settles O59: each part by its cases, and the link that the whole mark leaves. -/
theorem periodMarkAtLinkAgesAndRates : Obligations.PeriodMarkAtLinkAgesAndRates := by
  unfold Obligations.PeriodMarkAtLinkAgesAndRates
  refine ⟨fun s k => ⟨fun used => ⟨ageCurrent_reached used, ageCurrent_below used⟩, ageCurrent_none,
    fun used => ⟨ageRetiring_reached used, ageRetiring_below used⟩,
    fun other => ⟨ageRetiring_none other, countRetireTimer_none other⟩,
    fun used => ⟨countRetireTimer_last used, countRetireTimer_more used⟩,
    fun resting => ⟨countedRest_last resting, countedRest_more resting⟩, countedRest_other⟩,
    fun env s k runs clean => ⟨fun vacant => ?_, fun enrolled => ?_⟩⟩
  · exact ⟨_, rfl, timedEvent_idle runs clean (if_pos vacant)⟩
  · have done := timedEvent_done runs clean (quiet_markLink k (beginEvent env s))
    have links : (timedEvent env (markLink k) s).links = (markLink k (beginEvent env s)).links := by
      have e := congrArg State.links done.inner; exact e
    have link := link_congr links k
    have later := markLink_later (s := beginEvent env s) (k := k) enrolled
    refine ⟨_, rfl, ?_, ?_, ?_, fun kept => ?_, fun now => ?_⟩
    · rw [markLink_eq (s := beginEvent env s) enrolled] at done
      exact done
    · rw [link]
      exact later.rate
    · rw [link]
      exact later.periodCount
    · rw [link] at kept ⊢
      obtain ⟨-, retiring, timer, -⟩ := keys_of_markLink (s := beginEvent env s) enrolled kept
      obtain ⟨same, count⟩ := retiring_of_markLink (s := beginEvent env s) enrolled kept
      refine ⟨fun used budget age => current_of_markLink (s := beginEvent env s) enrolled kept used budget age,
        fun used budget age more => ?_, fun used last => ?_⟩
      · have counted := retiring_counted (s := ageCurrent k (beginEvent env s)) (k := k) (by rw [same]; exact used)
          (by rw [same]; exact fun reached => reached.elim (Nat.not_lt.2 budget) (Nat.not_le.2 age)) (by rw [count]; exact more)
        rw [same, count] at counted
        rw [retiring, timer]
        exact counted
      · rw [retiring]
        exact retiring_erased (by rw [same]; exact used) (by rw [count]; exact last)
    · rw [link] at now ⊢
      exact rest_of_markLink (s := beginEvent env s) enrolled now

end Sys2Proof.Machine
end

