-- ==== Sys2Proof/Proofs/Granted.lean ====
section
/-! PROOFS. Accesses of host memory of which so many succeed: what the parts of an event make of them. -/

namespace Sys2Proof.Machine
variable {s t u : State} {m n : Nat} {ws : List HostWrite}

/-! ## Accesses that succeed -/

/-- The next `n` accesses of host memory succeed. -/
def State.granted (n : Nat) (s : State) : Prop := ∀ o ∈ s.bus.take n, o = .done

theorem State.granted_of_clean (h : s.busClean) (n : Nat) : s.granted n := fun o mem => h o (List.mem_of_mem_take mem)

theorem State.granted.mono (h : s.granted n) (le : m ≤ n) : s.granted m :=
  fun o mem => h o (List.mem_of_mem_take (by rw [List.take_take, Nat.min_eq_left le]; exact mem))

theorem State.granted.wrote (h : s.granted (n + m)) (ws : List HostWrite) : (s.wrote n ws).granted m := by
  intro o mem
  have inside : o ∈ (s.bus.take (n + m)).drop n := by rw [List.drop_take, Nat.add_sub_cancel_left]; exact mem
  exact h o (List.mem_of_mem_drop inside)

theorem State.granted.of_bus (h : s.granted n) (bus : t.bus = s.bus) : t.granted n := by
  rw [State.granted, bus]
  exact h

theorem State.granted_replicate {rest : List BusOutcome} (bus : s.bus = List.replicate n .done ++ rest) : s.granted n := by
  intro o mem
  rw [bus, List.take_append_of_le_length (by simp)] at mem
  exact List.eq_of_mem_replicate (List.mem_of_mem_take mem)

/-- The outcome of the next access. -/
theorem granted_one (h : s.granted 1) : s.bus = [] ∨ ∃ rest, s.bus = .done :: rest := by
  cases bus : s.bus with
  | nil => exact .inl rfl
  | cons o rest =>
    have done : o = .done := h o (by simp [bus])
    exact .inr ⟨rest, by rw [done]⟩

theorem hostWrite_granted (h : s.granted 1) (kind : WriteKind) (a : Address) (bytes : List Byte) :
    hostWrite kind a bytes s = (true, s.wrote 1 [⟨a, bytes⟩]) := by
  unfold hostWrite nextAccess
  rcases granted_one h with bus | ⟨rest, bus⟩ <;> simp [State.wrote, applyWrites, bus]

theorem hostRead_granted (h : s.granted 1) : hostRead s = (true, s.wrote 1 []) := by
  unfold hostRead nextAccess
  rcases granted_one h with bus | ⟨rest, bus⟩
  · have same : s.wrote 1 [] = s := by
      rw [State.wrote, bus, List.append_nil, List.drop_nil, ← bus]
      rfl
    simp [bus, same]
  · simp [bus, State.wrote, applyWrites]

/-! ## Board writes that succeed -/

theorem writeBoardSlot_granted (h : s.granted 1) (base : Address) (k : Nat) (bytes : List Byte) :
    writeBoardSlot base k bytes s = s.wrote 1 [⟨boardSlotAddress base k, bytes⟩] := by
  rw [writeBoardSlot, hostWrite_granted h]

theorem writeDeviceSlot_granted (h : s.granted 1) (base : Address) :
    writeDeviceSlot base s = s.wrote 1 [⟨boardSlotAddress base 512, deviceSlotBytes s⟩] := by
  unfold writeDeviceSlot
  dsimp only
  rw [writeBoardSlot_granted h, deviceSlotBytes_wrote, if_pos rfl]

theorem writeLinkSlots_granted (s : State) (base : Address) (l : List Slot) {t : State} (h : t.granted l.length) :
    l.foldl (fun t k => writeBoardSlot base k.val (linkSlotBytes s k) t) t =
      t.wrote l.length (l.map fun k => ⟨boardSlotAddress base k.val, linkSlotBytes s k⟩) := by
  induction l generalizing t with
  | nil => exact (State.wrote_zero t).symm
  | cons k l ih =>
    have both : t.granted (1 + l.length) := h.mono (by simp [Nat.add_comm])
    rw [List.foldl_cons, writeBoardSlot_granted (both.mono (by omega)), ih (both.wrote _), State.wrote_wrote]
    simp [Nat.add_comm]

theorem flushBoard_granted (before : State) {s : State} (h : s.granted (boardWrites before s).length) :
    flushBoard before s = s.wrote (boardWrites before s).length (boardWrites before s) := by
  unfold flushBoard
  unfold boardWrites at h ⊢
  cases base : s.boardBase with
  | none => exact (State.wrote_zero s).symm
  | some base' =>
    rw [base] at h
    dsimp only at h ⊢
    rw [List.length_append, List.length_map] at h
    rw [writeLinkSlots_granted s base' _ (h.mono (by omega)), deviceSlotBytes_wrote]
    split
    · simp
    · rename_i shown
      rw [if_neg shown] at h
      rw [writeDeviceSlot_granted (h.wrote _), State.wrote_wrote, deviceSlotBytes_wrote]
      simp

/-! ## Operations that make no access -/

/-- An operation that neither reads nor writes host memory, its outcomes and the level of RESETN. -/
structure Inert (f : State → State) : Prop where
  blind : ∀ s r m p b, f (s.outside (.host r m p b)) = (f s).outside (.host r m p b)
  resetn : ∀ s, (f s).resetn = s.resetn
  hostMem : ∀ s, (f s).hostMem = s.hostMem
  posted : ∀ s, (f s).posted = s.posted
  bus : ∀ s, (f s).bus = s.bus

theorem Inert.wrote {f : State → State} (h : Inert f) (n : Nat) (ws : List HostWrite) (s : State) :
    f (s.wrote n ws) = (f s).wrote n ws := by
  rw [wrote_eq, wrote_eq, h.blind, h.resetn, h.hostMem, h.posted, h.bus]

theorem Inert.of_quiet {f : State → State} (blind : ∀ s r m p b, f (s.outside (.host r m p b)) = (f s).outside (.host r m p b))
    (quiet : ∀ s, Quiet s (f s)) : Inert f :=
  ⟨blind, fun s => (quiet s).resetn, fun s => (quiet s).hostMem, fun s => (quiet s).posted, fun s => (quiet s).bus⟩

theorem Inert.comp {f g : State → State} (hf : Inert f) (hg : Inert g) : Inert fun s => g (f s) where
  blind s r m p b := by rw [hf.blind, hg.blind]
  resetn s := (hg.resetn _).trans (hf.resetn s)
  hostMem s := (hg.hostMem _).trans (hf.hostMem s)
  posted s := (hg.posted _).trans (hf.posted s)
  bus s := (hg.bus _).trans (hf.bus s)

theorem Inert.foldl {β : Type} {f : State → β → State} (h : ∀ b, Inert fun s => f s b) (l : List β) :
    Inert fun s => l.foldl f s := by
  induction l with
  | nil => exact ⟨fun _ _ _ _ _ => rfl, fun _ => rfl, fun _ => rfl, fun _ => rfl, fun _ => rfl⟩
  | cons b l ih => exact (h b).comp ih

theorem inert_tryOriginate : Inert tryOriginate := .of_quiet (fun _ _ _ _ _ => outside_tryOriginate _ _) quiet_tryOriginate

theorem inert_popItem : Inert popItem := ⟨fun _ _ _ _ _ => rfl, fun _ => rfl, fun _ => rfl, fun _ => rfl, fun _ => rfl⟩

theorem inert_deliverItem (it : Item) : Inert (deliverItem it) :=
  .of_quiet (fun _ _ _ _ _ => outside_deliverItem _ _ it) (quiet_deliverItem it)

theorem inert_deliver (it : Item) : Inert fun s => deliverItem it (popItem s) := inert_popItem.comp (inert_deliverItem it)

/-! ## The tail of a close -/

theorem deliveredFirst_wrote (i n : Nat) (ws : List HostWrite) (s : State) :
    deliveredFirst i (s.wrote n ws) = (deliveredFirst i s).wrote n ws :=
  (Inert.foldl inert_deliver (s.queue.take i)).wrote n ws s

theorem queue_deliverItem (it : Item) (s : State) : (deliverItem it s).queue = s.queue := by
  unfold deliverItem
  split
  · rfl
  · split <;> rfl

theorem workBase_deliverItem (it : Item) (s : State) : (deliverItem it s).workBase = s.workBase := (quiet_deliverItem it s).workBase

/-- The writes of the first items of a tail, from tail item `j` on. -/
def tailFrom (base : Address) (id : BatchId) (j : Nat) (items : List Item) : List HostWrite :=
  (items.zipIdx j).map fun p => ⟨tailAddress base id p.2, tailItemBytes p.1⟩

theorem tailFrom_length (base : Address) (id : BatchId) (j : Nat) (items : List Item) :
    (tailFrom base id j items).length = items.length := by simp [tailFrom]

/-- The first `i` items written and delivered. -/
theorem fillTail_granted (id : BatchId) (i : Nat) {j n : Nat} (h : s.granted i) (enough : i ≤ s.queue.length) :
    fillTail id j (i + n) s = fillTail id (j + i) n
      ((deliveredFirst i s).wrote i (tailFrom s.workBase id j (s.queue.take i))) := by
  induction i generalizing j s with
  | zero =>
    have same : (deliveredFirst 0 s).wrote 0 (tailFrom s.workBase id j (s.queue.take 0)) = s := by
      simp only [deliveredFirst, List.take_zero, List.foldl_nil, tailFrom, List.zipIdx_nil, List.map_nil]
      exact State.wrote_zero s
    rw [same, Nat.zero_add, Nat.add_zero]
  | succ i ih =>
    cases queue : s.queue with
    | nil => rw [queue] at enough; simp at enough
    | cons it rest =>
      have both : s.granted (1 + i) := h.mono (by omega)
      have popped : (deliverItem it (popItem s)).queue = rest := by
        rw [queue_deliverItem]
        show s.queue.tail = rest
        rw [queue, List.tail_cons]
      have base : (deliverItem it (popItem s)).workBase = s.workBase := workBase_deliverItem it (popItem s)
      have bus : (deliverItem it (popItem s)).granted (1 + i) := both.of_bus ((inert_deliver it).bus s)
      have next := ih (s := (deliverItem it (popItem s)).wrote 1 [⟨tailAddress s.workBase id j, tailItemBytes it⟩]) (j := j + 1)
        (bus.wrote _) (by rw [State.wrote_queue, popped]; rw [queue] at enough; simpa using enough)
      rw [Nat.add_right_comm, fillTail, queue]
      dsimp only
      rw [hostWrite_granted (both.mono (by omega))]
      dsimp only
      rw [(inert_deliver it).wrote, next, deliveredFirst_wrote, State.wrote_wrote, State.wrote_workBase, State.wrote_queue, popped,
        base, Nat.add_assoc j 1 i, Nat.add_comm 1 i]
      have delivered : deliveredFirst (i + 1) s = deliveredFirst i (deliverItem it (popItem s)) := by
        rw [deliveredFirst, deliveredFirst, queue, popped]
        rfl
      rw [delivered]
      rfl

end Sys2Proof.Machine
end

