-- ==== Sys2Proof/Proofs/Closing.lean ====
section
/-! PROOFS. The start of a service, the close of a batch and the SKIPPED results, where their accesses succeed. -/

namespace Sys2Proof.Machine
variable {s t u : State} {m n : Nat} {ws : List HostWrite} {id : BatchId}

/-! ## The start of a service -/

theorem startedService_eq (id : BatchId) (s : State) : startedService id s = servingFrom id (s.batch id).taken s := by
  cases id <;> rfl

theorem startService_granted (h : s.granted 1) (id : BatchId) :
    startService id s = (servingFrom id (s.batch id).taken s).wrote 1 [startHeader s id (s.batch id).taken] := by
  have bus : (servingFrom id (s.batch id).taken s).bus = s.bus := by cases id <;> rfl
  rw [startService_eq, startedService_eq, hostWrite_granted (h.of_bus bus)]
  rfl

/-! ## The close -/

theorem deliveredFirst_quiet (n : Nat) (s : State) : Quiet s (deliveredFirst n s) := by
  unfold deliveredFirst
  exact .foldl (fun s it => (quiet_popItem s).trans (quiet_deliverItem it _)) _ s

theorem deliveredAll_eq (s : State) : deliveredAll s = deliveredFirst (min s.settings.tailRoom s.queue.length) s := by
  rw [deliveredAll, deliveredFirst, tailItems, List.take_eq_take_min]

theorem tailItems_length (s : State) : (tailItems s).length = min s.settings.tailRoom s.queue.length := List.length_take

theorem tailWrites_eq (s : State) (id : BatchId) :
    tailWrites s id = tailFrom s.workBase id 0 (s.queue.take (min s.settings.tailRoom s.queue.length)) := by
  rw [tailWrites, tailFrom, tailItems, ← List.take_eq_take_min]

/-- The whole tail written. -/
theorem fillTail_all (h : s.granted (tailItems s).length) (id : BatchId) :
    fillTail id 0 (min s.settings.tailRoom s.queue.length) s =
      ((tailItems s).length, (deliveredAll s).wrote (tailItems s).length (tailWrites s id)) := by
  have written := fillTail_granted id (min s.settings.tailRoom s.queue.length) (j := 0) (n := 0)
    (by rw [← tailItems_length]; exact h) (Nat.min_le_right _ _)
  rw [Nat.add_zero, Nat.zero_add] at written
  rw [written, tailWrites_eq, deliveredAll_eq, tailItems_length]
  rfl

theorem closeTailed_granted {id : BatchId} {tail : Nat × State} (h : tail.2.granted 1) :
    closeTailed id tail = collectAfterClose (tryOriginate (afterClose id (freedBatch id (tail.2.wrote 1
      [⟨headerAddress tail.2.workBase id, headerBlock (if tail.2.abandoned then .abandoned else .complete) (tail.2.batch id).taken
        tail.2.entriesDone tail.1⟩])))) := by
  unfold closeTailed
  dsimp only
  rw [hostWrite_granted h]
  rfl

/-- A close whose tail and header are written. -/
theorem closeBatch_granted (h : s.granted ((tailItems s).length + 1)) (id : BatchId) : closeBatch id s = afterCloseState s id := by
  have quiet : Quiet s (deliveredAll s) := by rw [deliveredAll_eq]; exact deliveredFirst_quiet _ s
  have granted : ((deliveredAll s).wrote (tailItems s).length (tailWrites s id)).granted 1 :=
    State.granted.wrote (h.of_bus quiet.bus) _
  rw [closeBatch_eq, fillTail_all (h.mono (by omega)), closeTailed_granted granted]
  dsimp only
  rw [State.wrote_wrote, State.wrote_workBase, State.wrote_abandoned, State.wrote_entriesDone, quiet.workBase, quiet.abandoned,
    quiet.entriesDone]
  have batch : ((deliveredAll s).wrote (tailItems s).length (tailWrites s id)).batch id = s.batch id := by
    rw [← quiet.batch id]
    cases id <;> rfl
  rw [batch, afterCloseState, closedState]
  exact congrArg (fun v => collectAfterClose (tryOriginate (afterClose id (freedBatch id v)))) rfl

/-! ## The SKIPPED results -/

/-- The SKIPPED results of `a` entries, from entry `i` on. -/
def skipsFrom (base : Address) (id : BatchId) (i a : Nat) : List HostWrite :=
  (List.range' i a).map fun i => ⟨resultAddress base id i, resultBytes skippedResult⟩

theorem skipsFrom_length (base : Address) (id : BatchId) (i a : Nat) : (skipsFrom base id i a).length = a := by
  simp [skipsFrom]

theorem skipWrites_eq (s : State) (id : BatchId) :
    skipWrites s id = skipsFrom s.workBase id s.nextIndex ((s.batch id).taken - s.nextIndex) := rfl

theorem skipWrites_length (s : State) (id : BatchId) : (skipWrites s id).length = (s.batch id).taken - s.nextIndex := by
  rw [skipWrites_eq, skipsFrom_length]

theorem inert_setAbandoned : Inert setAbandoned := ⟨fun _ _ _ _ _ => rfl, fun _ => rfl, fun _ => rfl, fun _ => rfl, fun _ => rfl⟩

/-- The engine with `a` entries passed over. -/
def passedOver (a : Nat) (s : State) : State := { s with abandoned := s.abandoned || decide (0 < a) }

theorem passedOver_zero (s : State) : passedOver 0 s = s := by
  have none : (s.abandoned || decide (0 < 0)) = s.abandoned := by simp
  rw [passedOver, none]

theorem passedOver_succ (a n : Nat) (ws : List HostWrite) (s : State) :
    passedOver a ((setAbandoned s).wrote n ws) = (passedOver (a + 1) s).wrote n ws := by
  have set : (s.abandoned || decide (0 < a + 1)) = true := by simp
  rw [passedOver, passedOver, set]
  rfl

/-- The first `a` entries passed over. -/
theorem skipEntries_granted (id : BatchId) (a : Nat) {i n : Nat} (h : s.granted a) :
    skipEntries id i (a + n) s = skipEntries id (i + a) n ((passedOver a s).wrote a (skipsFrom s.workBase id i a)) := by
  induction a generalizing i s with
  | zero =>
    have same : s.wrote 0 (skipsFrom s.workBase id i 0) = s := State.wrote_zero s
    rw [passedOver_zero, same, Nat.zero_add, Nat.add_zero]
  | succ a ih =>
    have both : s.granted (1 + a) := h.mono (by omega)
    have whole : skipsFrom s.workBase id i (a + 1) =
        [⟨resultAddress s.workBase id i, resultBytes skippedResult⟩] ++ skipsFrom s.workBase id (i + 1) a := by
      simp [skipsFrom, List.range'_succ]
    have first : skipEntries id i (a + n + 1) s =
        skipEntries id (i + 1) (a + n) ((setAbandoned s).wrote 1 [⟨resultAddress s.workBase id i, resultBytes skippedResult⟩]) := by
      rw [skipEntries, hostWrite_granted (both.mono (by omega))]
      dsimp only
      rw [inert_setAbandoned.wrote]
    rw [Nat.add_right_comm, first, ih ((both.of_bus (t := setAbandoned s) rfl).wrote _), passedOver_succ, State.wrote_wrote, whole,
      State.wrote_workBase, setAbandoned_workBase, Nat.add_assoc i 1 a, Nat.add_comm 1 a]

/-- The rest of a batch passed over, and then closed. -/
theorem abandonRest_granted (h : s.granted (skipWrites s id).length) :
    abandonRest id s = closeBatch id (skippedState s id) := by
  have skipped := skipEntries_granted id ((s.batch id).taken - s.nextIndex) (i := s.nextIndex) (n := 0)
    (by rw [← skipWrites_length]; exact h)
  rw [Nat.add_zero] at skipped
  unfold abandonRest
  dsimp only
  rw [skipped, skipEntries]
  dsimp only
  have some : decide (0 < (s.batch id).taken - s.nextIndex) = decide (s.nextIndex < (s.batch id).taken) :=
    decide_eq_decide.2 (by omega)
  rw [passedOver, some, ← skipWrites_eq, ← skipWrites_length]
  exact congrArg (closeBatch id) rfl

end Sys2Proof.Machine
end

