-- ==== Sys2Proof/Proofs/Services.lean ====
section
/-! PROOFS. Handover, RUN and the start of a service. -/

namespace Sys2Proof.Machine
variable {s t own u : State} {env : Env} {id : BatchId} {value : Word}

/-! ## Events that show nothing on the board -/

/-- Two states that the board shows alike. -/
structure ShownAlike (s t : State) : Prop where
  links : t.links = s.links
  records : t.records = s.records
  device : t.device = s.device
  quiesce : t.quiesce = s.quiesce
  queue : t.queue = s.queue
  dueList : t.dueList = s.dueList

theorem ShownAlike.flush (h : ShownAlike s t) : flushBoard s t = t :=
  flushBoard_of_same s t h.links h.records h.device h.quiesce h.queue h.dueList

theorem ShownAlike.unshown (h : ShownAlike s t) : boardWrites s t = [] :=
  boardWrites_unshown h.links h.records h.device h.quiesce h.queue h.dueList

theorem ShownAlike.trans (h : ShownAlike s t) (g : ShownAlike t u) : ShownAlike s u :=
  ⟨g.links.trans h.links, g.records.trans h.records, g.device.trans h.device, g.quiesce.trans h.quiesce, g.queue.trans h.queue,
    g.dueList.trans h.dueList⟩

theorem ShownAlike.wrote (h : ShownAlike s t) (n : Nat) (ws : List HostWrite) : ShownAlike s (t.wrote n ws) :=
  ⟨h.links, h.records, h.device, h.quiesce, h.queue, h.dueList⟩

/-- An event that makes no access and shows nothing, whatever its accesses would meet. -/
theorem unshownEvent (high : s.resetn = true) {body : State → State} (does : body (beginEvent env s) = u)
    (alike : ShownAlike (beginEvent env s) u) (inner : u.inner = own.inner) (posted : u.posted = []) (memory : u.hostMem = s.hostMem) :
    SilentDone s (event env (withBoard body) s) own := by
  have shown : withBoard body (beginEvent env s) = u := by
    rw [withBoard, does]
    exact alike.flush
  exact silentEvent high (by rw [shown]; exact inner) (by rw [shown]; exact posted) (by rw [shown]; exact memory)

/-- An event that makes writes and shows nothing more on the board. -/
theorem writingEvent (high : s.resetn = true) {body : State → State} {output : List HostWrite} (does : body (beginEvent env s) = u)
    (within : Within s u env) (posted : u.posted = output) (inner : u.inner = own.inner) (unshown : boardWrites s own = []) :
    EventDone s (event env body s) output own := by
  rw [event_of_high high, does]
  have memory : u.hostMem = applyWrites s.hostMem u.posted := within.memory
  refine ⟨inner, ?_, memory, fun x apart _ => ?_⟩
  · rw [unshown, List.append_nil]
    exact posted
  · show u.hostMem.readByte x = _
    rw [memory]
    exact readByte_applyWrites_outside _ _ (posted ▸ apart)

/-! ## Handover -/

/-- The batch WAITING, and CLAMPED set by a count above 64. -/
def handedOver (id : BatchId) (value : Word) (s : State) : State :=
  { s.setBatch id ⟨.waiting, min (value.toNat % 128) 64⟩ with clamped := s.clamped || decide (64 < value.toNat % 128) }

theorem handedOver_eq (id : BatchId) (value : Word) (s : State) :
    (if handoverCount value > 64 then setClamped s else s).setBatch id ⟨.waiting, min (handoverCount value) 64⟩ =
      handedOver id value s := by
  have count : handoverCount value = value.toNat % 128 := rfl
  rw [handedOver, count]
  by_cases above : value.toNat % 128 > 64
  · rw [if_pos above, decide_eq_true above, Bool.or_true]
    cases id <;> rfl
  · rw [if_neg above, decide_eq_false above, Bool.or_false]
    cases id <;> rfl

theorem takeHandover_clash (busy : s.engine = .starting ∨ (s.batch id).state ≠ .free) : takeHandover id value s = s.setCause .clash :=
  if_pos busy

theorem takeHandover_idle (idle : s.engine = .idle) (free : (s.batch id).state = .free) :
    takeHandover id value s = startService id (handedOver id value s) := by
  have engine : (if handoverCount value > 64 then setClamped s else s).engine = .idle := by
    split <;> exact idle
  unfold takeHandover
  rw [if_neg (by simp [idle, free])]
  dsimp only
  rw [if_pos engine, handedOver_eq]

theorem takeHandover_waits (busy : s.engine = .stopped ∨ s.engine = .serving) (free : (s.batch id).state = .free) :
    takeHandover id value s = setFirstWaiting (if (s.batch (otherBatch id)).state = .waiting then s.firstWaiting else some id)
      (handedOver id value s) := by
  have engine : (if handoverCount value > 64 then setClamped s else s).engine ≠ .idle := by
    rcases busy with h | h
    all_goals split
    all_goals
      intro idle
      have idle : s.engine = .idle := idle
      rw [h] at idle
      cases idle
  have started : ¬ (s.engine = .starting ∨ (s.batch id).state ≠ .free) := by
    rcases busy with h | h <;> simp [h, free]
  have first : (if ((if handoverCount value > 64 then setClamped s else s).batch (otherBatch id)).state = .waiting then
        (if handoverCount value > 64 then setClamped s else s).firstWaiting else some id) =
      if (s.batch (otherBatch id)).state = .waiting then s.firstWaiting else some id := by
    split <;> cases id <;> rfl
  unfold takeHandover
  rw [if_neg started]
  dsimp only
  rw [if_neg engine, handedOver_eq, first]

theorem shownAlike_setBatch (id : BatchId) (b : Batch) (s : State) : ShownAlike s (s.setBatch id b) := by
  cases id <;> exact ⟨rfl, rfl, rfl, rfl, rfl, rfl⟩

theorem shownAlike_servingFrom (id : BatchId) (taken : Nat) (s : State) : ShownAlike s (servingFrom id taken s) := by
  have batch := shownAlike_setBatch id ⟨.inService, taken⟩ s
  exact ⟨batch.links, batch.records, batch.device, batch.quiesce, batch.queue, batch.dueList⟩

theorem shownAlike_handedOver (id : BatchId) (value : Word) (s : State) : ShownAlike s (handedOver id value s) := by
  have batch := shownAlike_setBatch id ⟨.waiting, min (value.toNat % 128) 64⟩ s
  exact ⟨batch.links, batch.records, batch.device, batch.quiesce, batch.queue, batch.dueList⟩

theorem servingFrom_handedOver (id : BatchId) (value : Word) (s : State) :
    servingFrom id ((handedOver id value s).batch id).taken (handedOver id value s) =
      { servingFrom id (min (value.toNat % 128) 64) s with clamped := s.clamped || decide (64 < value.toNat % 128) } := by
  cases id <;> rfl

theorem taken_handedOver (id : BatchId) (value : Word) (s : State) :
    ((handedOver id value s).batch id).taken = min (value.toNat % 128) 64 := by cases id <;> rfl

theorem handedOver_outer (id : BatchId) (value : Word) (s : State) :
    (handedOver id value s).workBase = s.workBase ∧ (handedOver id value s).bus = s.bus ∧
      (handedOver id value s).posted = s.posted ∧ (handedOver id value s).hostMem = s.hostMem := by
  cases id <;> exact ⟨rfl, rfl, rfl, rfl⟩

/-- A service started, as an event with nothing else in it. -/
theorem startService_done (high : s.resetn = true) (clean : cleanEnv env) {body : State → State} {taken : Nat}
    (does : body (beginEvent env s) = (servingFrom id taken u).wrote 1 [startHeader s id taken])
    (alike : ShownAlike s u) (bus : (servingFrom id taken u).bus = env.bus) (posted : (servingFrom id taken u).posted = [])
    (memory : (servingFrom id taken u).hostMem = s.hostMem) :
    EventDone s (event env (withBoard body) s) [startHeader s id taken] (servingFrom id taken u) := by
  have shown : ShownAlike s (servingFrom id taken u) := alike.trans (shownAlike_servingFrom id taken u)
  have flushed : withBoard body (beginEvent env s) = (servingFrom id taken u).wrote 1 [startHeader s id taken] := by
    rw [withBoard, does]
    exact (shown.wrote _ _).flush
  have start : Within s (servingFrom id taken u) env :=
    ⟨by rw [State.busClean, bus]; exact clean, by rw [memory, posted]; rfl⟩
  exact writingEvent high flushed (start.wrote _ _) (by rw [State.wrote_posted, posted]; rfl) rfl shown.unshown

/-- Settles O23: by the engine's and the batch's state. -/
theorem handoverTakesTheBatch : Obligations.HandoverTakesTheBatch := by
  refine ⟨fun id value env s high busy => ⟨_, rfl, ?_⟩, fun id value env s high busy free => ⟨_, rfl, ?_⟩,
    fun id value env s high clean idle free => ⟨_, rfl, ?_⟩⟩
  · have busy : (beginEvent env s).engine = .starting ∨ ((beginEvent env s).batch id).state ≠ .free := by cases id <;> exact busy
    exact unshownEvent high (takeHandover_clash busy) ⟨rfl, rfl, rfl, rfl, rfl, rfl⟩ rfl rfl rfl
  · have free : ((beginEvent env s).batch id).state = .free := by cases id <;> exact free
    have waits := takeHandover_waits (s := beginEvent env s) (value := value) busy free
    have alike := shownAlike_handedOver id value (beginEvent env s)
    exact unshownEvent high waits ⟨alike.links, alike.records, alike.device, alike.quiesce, alike.queue, alike.dueList⟩
      (by cases id <;> rfl) (by cases id <;> rfl) (by cases id <;> rfl)
  · have free : ((beginEvent env s).batch id).state = .free := by cases id <;> exact free
    have does : takeHandover id value (beginEvent env s) =
        (servingFrom id (min (value.toNat % 128) 64) (handedOver id value (beginEvent env s))).wrote 1
          [startHeader s id (min (value.toNat % 128) 64)] := by
      obtain ⟨base, bus, -, -⟩ := handedOver_outer id value (beginEvent env s)
      have granted : (handedOver id value (beginEvent env s)).granted 1 :=
        (State.granted_of_clean (s := beginEvent env s) clean 1).of_bus bus
      rw [takeHandover_idle (s := beginEvent env s) idle free, startService_granted granted, taken_handedOver, startHeader, base]
      rfl
    have alike := shownAlike_handedOver id value (beginEvent env s)
    have done := startService_done high clean does
      ⟨alike.links, alike.records, alike.device, alike.quiesce, alike.queue, alike.dueList⟩ (by cases id <;> rfl)
      (by cases id <;> rfl) (by cases id <;> rfl)
    exact done.of_inner (by cases id <;> rfl)

/-! ## RUN -/

theorem startable?_iff : s.startable? = some id ↔
    s.run = true ∧ s.faultStop = false ∧ s.inService? = none ∧ s.engine ≠ .starting ∧ s.firstWaiting = some id ∧
      (s.batch id).state = .waiting := by
  unfold State.startable?
  by_cases can : s.run = true ∧ s.faultStop = false ∧ s.inService? = none ∧ s.engine ≠ .starting
  · rw [if_pos can, Option.filter_eq_some_iff, decide_eq_true_eq]
    exact ⟨fun h => ⟨can.1, can.2.1, can.2.2.1, can.2.2.2, h⟩, fun h => h.2.2.2.2⟩
  · rw [if_neg can]
    exact ⟨fun h => (nomatch h), fun h => absurd ⟨h.1, h.2.1, h.2.2.1, h.2.2.2.1⟩ can⟩

theorem setRun_set (set : s.run = true) : setRun s = s := if_pos set

theorem setRun_clash (clear : s.run = false) (barred : s.engine = .starting ∨ s.faultStop = true) : setRun s = s.setCause .clash := by
  rw [setRun, if_neg (by simp [clear]), if_pos barred]

theorem setRun_serving (clear : s.run = false) (fault : s.faultStop = false) (serving : s.engine = .serving) :
    setRun s = takeRun s := by
  rw [setRun, if_neg (by simp [clear]), if_neg (by simp [serving, fault]), if_pos serving]

/-- RUN set where no batch waits. -/
theorem setRun_idles (clear : s.run = false) (fault : s.faultStop = false) (stopped : s.engine = .stopped)
    (none : (takeRun s).firstWaiting = none) : setRun s = flushBoard (takeRun s) (setEngine .idle (takeRun s)) := by
  unfold setRun withBoard
  rw [if_neg (by simp [clear]), if_neg (by simp [stopped, fault]), if_neg (by simp [stopped])]
  dsimp only
  rw [none]

/-- RUN set where a batch waits. -/
theorem setRun_starts (clear : s.run = false) (fault : s.faultStop = false) (stopped : s.engine = .stopped)
    (first : (takeRun s).firstWaiting = some id) : setRun s = flushBoard (takeRun s) (startService id (takeRun s)) := by
  unfold setRun withBoard
  rw [if_neg (by simp [clear]), if_neg (by simp [stopped, fault]), if_neg (by simp [stopped])]
  dsimp only
  rw [first]

theorem takeRun_clean (clean : s.busClean) :
    takeRun s = (setRunBase s).wrote (fullWrites (setRunBase s)).length (fullWrites (setRunBase s)) :=
  fullBoardWrite_clean (s := setRunBase s) clean

/-- What RUN writes is the board as it stands, at the base it takes. -/
theorem fullWrites_setRunBase (env : Env) (s : State) :
    fullWrites (setRunBase (beginEvent env s)) = fullWrites { s with run := true, boardBase := some s.workBase } :=
  fullWrites_congr rfl rfl rfl rfl rfl rfl rfl

/-- The state in which RUN is set and the board base taken. -/
def runningState (s : State) : State := { s with run := true, boardBase := some s.workBase }

theorem takeRun_begun (env : Env) (clean : cleanEnv env) (s : State) :
    takeRun (beginEvent env s) = (setRunBase (beginEvent env s)).wrote (fullWrites (runningState s)).length (fullWrites (runningState s)) := by
  rw [takeRun_clean (s := beginEvent env s) clean, fullWrites_setRunBase]
  rfl

theorem within_runningWrites (env : Env) (clean : cleanEnv env) (s : State) (n : Nat) (ws : List HostWrite) {u : State}
    (eq : u = (setRunBase (beginEvent env s)).wrote n ws) :
    Within s u env ∧ u.posted = ws ∧ u.inner = (runningState s).inner ∧ u.firstWaiting = s.firstWaiting ∧ ShownAlike s u := by
  have start : Within s (setRunBase (beginEvent env s)) env := ⟨clean, rfl⟩
  rw [eq]
  exact ⟨start.wrote _ _, rfl, rfl, rfl, ⟨rfl, rfl, rfl, rfl, rfl, rfl⟩⟩

/-- RUN set and the board written, as a whole event or as its first part. -/
theorem within_takeRun (env : Env) (clean : cleanEnv env) (s : State) :
    Within s (takeRun (beginEvent env s)) env ∧ (takeRun (beginEvent env s)).posted = fullWrites (runningState s) ∧
      (takeRun (beginEvent env s)).inner = (runningState s).inner ∧ (takeRun (beginEvent env s)).firstWaiting = s.firstWaiting ∧
      ShownAlike s (takeRun (beginEvent env s)) :=
  within_runningWrites env clean s _ _ (takeRun_begun env clean s)

/-- The four cases of RUN set. -/
theorem runSet_done (high : s.resetn = true) (clean : cleanEnv env) :
    (s.run = true → SilentDone s (event env setRun s) s) ∧
    (s.run = false → s.engine = .starting ∨ s.faultStop = true → SilentDone s (event env setRun s) (s.setCause .clash)) ∧
    (s.run = false → s.faultStop = false → s.engine = .serving →
      EventDone s (event env setRun s) (fullWrites (runningState s)) (runningState s)) ∧
    (s.run = false → s.faultStop = false → s.engine = .stopped → s.firstWaiting = none →
      EventDone s (event env setRun s) (fullWrites (runningState s)) { runningState s with engine := .idle }) ∧
    ∀ id, s.run = false → s.faultStop = false → s.engine = .stopped → s.firstWaiting = some id →
      EventDone s (event env setRun s) (fullWrites (runningState s) ++ [startHeader s id (s.batch id).taken])
        (servingFrom id (s.batch id).taken (runningState s)) := by
  obtain ⟨within, posted, inner, first, alike⟩ := within_takeRun env clean s
  have unshown {own : State} (h : ShownAlike s own) : boardWrites s own = [] := h.unshown
  refine ⟨fun set => ?_, fun clear barred => ?_, fun clear fault serving => ?_, fun clear fault stopped none => ?_,
    fun id clear fault stopped some => ?_⟩
  · have same : setRun (beginEvent env s) = beginEvent env s := setRun_set (s := beginEvent env s) set
    exact silentEvent high (by rw [same]; rfl) (by rw [same]; rfl) (by rw [same]; rfl)
  · have clash : setRun (beginEvent env s) = (beginEvent env s).setCause .clash := setRun_clash (s := beginEvent env s) clear barred
    exact silentEvent high (by rw [clash]; rfl) (by rw [clash]; rfl) (by rw [clash]; rfl)
  · exact writingEvent high (setRun_serving (s := beginEvent env s) clear fault serving) within posted inner
      (unshown ⟨rfl, rfl, rfl, rfl, rfl, rfl⟩)
  · have idles := setRun_idles (s := beginEvent env s) clear fault stopped (first.trans none)
    generalize takeRun (beginEvent env s) = v at within posted inner first alike idles
    have shown : flushBoard v (setEngine .idle v) = setEngine .idle v := flushBoard_of_same _ _ rfl rfl rfl rfl rfl rfl
    refine writingEvent high (idles.trans shown) ⟨within.clean, within.memory⟩ posted ?_ (unshown ⟨rfl, rfl, rfl, rfl, rfl, rfl⟩)
    have commutes (u : State) : (setEngine .idle u).inner = setEngine .idle u.inner := rfl
    rw [commutes, inner]
    rfl
  · have starts := setRun_starts (s := beginEvent env s) clear fault stopped (first.trans some)
    generalize takeRun (beginEvent env s) = v at within posted inner first alike starts
    have batch : v.batch id = s.batch id := by
      have a : v.batchA = s.batchA := by have e := congrArg State.batchA inner; exact e
      have b : v.batchB = s.batchB := by have e := congrArg State.batchB inner; exact e
      cases id <;> assumption
    have base : v.workBase = s.workBase := by have e := congrArg State.workBase inner; exact e
    have granted := startService_granted (State.granted_of_clean within.clean 1) id
    rw [batch, startHeader, base] at granted
    have serving : ShownAlike v (servingFrom id (s.batch id).taken v) := shownAlike_servingFrom id _ v
    have shown : flushBoard v (startService id v) = startService id v := by
      rw [granted]
      exact (serving.wrote _ _).flush
    have outer : (servingFrom id (s.batch id).taken v).bus = v.bus ∧ (servingFrom id (s.batch id).taken v).posted = v.posted ∧
        (servingFrom id (s.batch id).taken v).hostMem = v.hostMem := by cases id <;> exact ⟨rfl, rfl, rfl⟩
    have started : Within s (servingFrom id (s.batch id).taken v) env :=
      ⟨by rw [State.busClean, outer.1]; exact within.clean, by rw [outer.2.2, outer.2.1]; exact within.memory⟩
    refine writingEvent high ((starts.trans shown).trans granted) (started.wrote _ _) ?_ ?_
      (unshown ((⟨rfl, rfl, rfl, rfl, rfl, rfl⟩ : ShownAlike s (runningState s)).trans (shownAlike_servingFrom id _ _)))
    · rw [State.wrote_posted, outer.2.1, posted]
      rfl
    · have serves (u w : State) (same : u.inner = w.inner) :
          (servingFrom id (s.batch id).taken u).inner = (servingFrom id (s.batch id).taken w).inner := by
        have commutes (u : State) : (servingFrom id (s.batch id).taken u).inner = servingFrom id (s.batch id).taken u.inner := by
          cases id <;> rfl
        rw [commutes, commutes, same]
      exact serves _ _ inner

/-! ## The start of a waiting service -/

theorem startWaiting_none (none : s.startable? = none) : startWaiting s = s := by rw [startWaiting, none]

theorem startWaiting_some (some : s.startable? = some id) : startWaiting s = startService id s := by rw [startWaiting, some]

theorem startable?_begun (env : Env) (s : State) : (beginEvent env s).startable? = s.startable? := rfl

/-- Settles O24: the cases of RUN, and the service that waits. -/
theorem runAndServiceStart : Obligations.RunAndServiceStart := by
  refine ⟨fun s id => startable?_iff, fun env s high clean => ?_, fun s high => ⟨_, rfl, ?_⟩, fun env s high =>
    ⟨fun id run fault free started first waiting clean => ⟨_, rfl, ?_⟩, fun none => ⟨_, rfl, ?_⟩⟩⟩
  · obtain ⟨set, clash, serving, idles, starts⟩ := runSet_done (s := s) high clean
    exact ⟨fun run => ⟨_, rfl, set run⟩, fun clear barred => ⟨_, rfl, clash clear barred⟩,
      fun clear fault engine => ⟨_, rfl, serving clear fault engine⟩,
      fun clear fault engine none => ⟨_, rfl, idles clear fault engine none⟩,
      fun id clear fault engine first => ⟨_, rfl, starts id clear fault engine first⟩⟩
  · have cleared : clearRun (beginEvent .plain s) = if s.run then clearRunBit (beginEvent .plain s) else beginEvent .plain s := rfl
    refine silentEvent high ?_ ?_ ?_
    all_goals
      rw [cleared]
      split <;> rfl
  · have startable : (beginEvent env s).startable? = some id :=
      (startable?_begun env s).trans (startable?_iff.2 ⟨run, fault, free, started, first, waiting⟩)
    have granted := startService_granted (State.granted_of_clean (s := beginEvent env s) clean 1) id
    have batch : (beginEvent env s).batch id = s.batch id := by cases id <;> rfl
    rw [batch] at granted
    have done := startService_done high clean ((startWaiting_some startable).trans granted) ⟨rfl, rfl, rfl, rfl, rfl, rfl⟩
      (by cases id <;> rfl) (by cases id <;> rfl) (by cases id <;> rfl)
    exact done.of_inner (by cases id <;> rfl)
  · exact unshownEvent high (startWaiting_none (s := beginEvent env s) none) ⟨rfl, rfl, rfl, rfl, rfl, rfl⟩ rfl rfl rfl

end Sys2Proof.Machine
end

