-- ==== Sys2Proof/Proofs/Closes.lean ====
section
/-! PROOFS. The close of a batch and ABANDON: the bytes of headers and tail items, what is written and what is left. -/

namespace Sys2Proof.Machine
variable {s t u v : State} {id : BatchId} {env : Env}

/-! ## Layouts -/

/-- The fields of a batch header. -/
def headerFields (status : CloseStatus) (taken done count : Nat) : List (Nat × Nat) :=
  [(1, status.code.toNat), (3, 0), (1, taken), (1, done), (1, count), (1, 0)]

theorem headerBlock_eq_layout (status : CloseStatus) (taken done count : Nat) :
    headerBlock status taken done count = layout (headerFields status taken done count) := by
  simp only [headerBlock, singleton_eq, zeroBytes_eq, headerFields, layout, List.flatMap_cons, List.flatMap_nil, List.append_nil,
    List.append_assoc]

/-- The fields of a notice in a tail. -/
def noticeFields (n : Notice) : List (Nat × Nat) :=
  [(1, 2), (1, if n.flicker then 1 else 0), (2, n.linkNumber), (1, n.kind.code), (1, n.edge.code), (2, n.counter), (2, n.score),
    (86, 0)]

theorem tailItemBytes_notice (n : Notice) : tailItemBytes (.notice n) = layout (noticeFields n) := by
  simp only [tailItemBytes, flagByte_eq, zeroBytes_eq, noticeFields, layout, List.flatMap_cons, List.flatMap_nil, List.append_nil,
    List.append_assoc]

/-- The fields of an offer in a tail, ahead of its packet. -/
def offerFields (k : Slot) : List (Nat × Nat) := [(1, 1), (1, 0), (2, k.val), (2, 86), (4, 0)]

theorem tailItemBytes_offer (k : Slot) (packet : List Byte) :
    tailItemBytes (.offer k packet) = layout (offerFields k) ++ packet := by
  simp only [tailItemBytes, zeroBytes_eq, offerFields, layout, List.flatMap_cons, List.flatMap_nil, List.append_nil,
    List.append_assoc]

/-- A field that stands ahead of what follows a layout. -/
theorem bytesAt_layout_append {fields : List (Nat × Nat)} {o n v : Nat} (i : Nat) (rest : List Byte)
    (field : fields[i]? = some (n, v)) (offset : ((fields.take i).map Prod.fst).sum = o) :
    bytesAt (layout fields ++ rest) o n = leBytes n v := by
  obtain ⟨h, e⟩ := List.getElem?_eq_some_iff.1 field
  have whole : layout fields ++ rest = layout (fields.take i) ++ (leBytes n v ++ (layout (fields.drop (i + 1)) ++ rest)) := by
    conv_lhs => rw [← List.take_append_drop i fields, List.drop_eq_getElem_cons h, e]
    rw [layout_append, layout_cons, List.append_assoc, List.append_assoc]
  rw [whole]
  exact bytesAt_part (by simpa using offset) (by simp)

/-! ## Causes -/

theorem hasCause_setCause (s : State) (c : Cause) : (s.setCause c).hasCause c = true := by
  rw [hasCause_iff]
  show (s.causes ||| c.bit) &&& c.bit ≠ 0
  generalize s.causes = v
  cases c <;> revert v <;> decide

theorem bit_apart {c d : Cause} (ne : c ≠ d) : d.bit &&& c.bit = 0 := by
  revert ne
  cases c <;> cases d <;> decide

theorem hasCause_setCause_ne (s : State) {c d : Cause} (ne : c ≠ d) : (s.setCause d).hasCause c = s.hasCause c := by
  unfold State.hasCause
  have bits : (s.setCause d).causes &&& c.bit = s.causes &&& c.bit := by
    show (s.causes ||| d.bit) &&& c.bit = _
    rw [BitVec.and_comm, BitVec.and_or_distrib_left, BitVec.and_comm c.bit d.bit, bit_apart ne, BitVec.and_comm c.bit]
    exact BitVec.or_zero
  rw [bits]

theorem hasCause_of_causes (c : Cause) (same : t.causes = s.causes) : t.hasCause c = s.hasCause c := by
  rw [State.hasCause, same, State.hasCause]

/-- A try at origination reads and changes of the causes and the device fault record COLLECT alone. -/
theorem originateOne_told (n : RecordNumber) (s : State) :
    (originateOne n s).device = s.device ∧ ∀ c, c ≠ .collect → (originateOne n s).hasCause c = s.hasCause c := by
  rw [originateOne_eq]
  refine ⟨rfl, fun c other => ?_⟩
  by_cases free : s.bothFree = true
  · refine (hasCause_of_causes c ?_).trans (hasCause_setCause_ne s other)
    exact if_pos free
  · refine hasCause_of_causes c ?_
    exact if_neg free

theorem tryOriginate_told (s : State) :
    (tryOriginate s).device = s.device ∧ ∀ c, c ≠ .collect → (tryOriginate s).hasCause c = s.hasCause c := by
  unfold tryOriginate
  generalize s.sendOrder = order
  induction order generalizing s with
  | nil => exact ⟨rfl, fun _ _ => rfl⟩
  | cons n order ih =>
    rw [List.foldl_cons]
    obtain ⟨device, causes⟩ := ih (if canOriginate n s then originateOne n s else s)
    have first : (if canOriginate n s then originateOne n s else s).device = s.device ∧
        ∀ c, c ≠ .collect → (if canOriginate n s then originateOne n s else s).hasCause c = s.hasCause c := by
      split
      · exact originateOne_told n s
      · exact ⟨rfl, fun _ _ => rfl⟩
    exact ⟨device.trans first.1, fun c other => (causes c other).trans (first.2 c other)⟩

theorem collectAfterClose_told (s : State) :
    (collectAfterClose s).device = s.device ∧ ∀ c, c ≠ .collect → (collectAfterClose s).hasCause c = s.hasCause c := by
  unfold collectAfterClose
  split
  · exact ⟨rfl, fun c other => hasCause_setCause_ne s other⟩
  · exact ⟨rfl, fun _ _ => rfl⟩

theorem closedCause_ne_collect (id : BatchId) : closedCause id ≠ .collect := by cases id <;> decide

/-! ## What follows the freeing of a batch -/

/-- The engine once a batch is FREE: in the service of the other batch, IDLE or STOPPED. -/
def nextEngine (id : BatchId) (s : State) : State :=
  if s.run then
    if (s.batch (otherBatch id)).state = .waiting then servingFrom (otherBatch id) (s.batch (otherBatch id)).taken s
    else setEngine .idle s
  else setEngine .stopped s

theorem afterClose_granted (h : s.granted 1) (id : BatchId) :
    afterClose id s = (nextEngine id s).wrote (nextHeader s id).length (nextHeader s id) := by
  unfold afterClose nextEngine nextHeader
  by_cases run : s.run = true
  · by_cases waiting : (s.batch (otherBatch id)).state = .waiting
    · rw [if_pos run, if_pos waiting, if_pos run, if_pos waiting, if_pos ⟨run, waiting⟩]
      exact startService_granted h _
    · rw [if_pos run, if_neg waiting, if_pos run, if_neg waiting, if_neg (fun both => waiting both.2)]
      exact (State.wrote_zero _).symm
  · rw [if_neg run, if_neg run, if_neg (fun both => run both.1)]
    exact (State.wrote_zero _).symm

theorem quiet_closing (s : State) : Quiet s (collectAfterClose (tryOriginate s)) := by
  refine (quiet_tryOriginate s).trans ?_
  unfold collectAfterClose
  exact .ite (quiet_setCause _ _) (.refl _)

theorem closing_told (s : State) : (collectAfterClose (tryOriginate s)).device = s.device ∧
    ∀ c, c ≠ .collect → (collectAfterClose (tryOriginate s)).hasCause c = s.hasCause c :=
  ⟨(collectAfterClose_told _).1.trans (tryOriginate_told s).1,
    fun c other => ((collectAfterClose_told _).2 c other).trans ((tryOriginate_told s).2 c other)⟩

theorem queue_collectAfterClose (s : State) : (collectAfterClose s).queue = s.queue := by
  unfold collectAfterClose
  split <;> rfl

theorem queue_closing (h : s.quiesce = true) : (collectAfterClose (tryOriginate s)).queue = s.queue := by
  rw [queue_collectAfterClose, tryOriginate_none (.inl h)]

theorem collectAfterClose_sets (free : s.bothFree = true) (waits : s.queue ≠ []) :
    collectAfterClose s = s.setCause .collect := if_pos ⟨free, waits⟩

theorem collectAfterClose_keeps (h : s.bothFree = false ∨ s.queue = []) : collectAfterClose s = s := by
  refine if_neg fun both => ?_
  rcases h with busy | empty
  · rw [busy] at both
    exact Bool.noConfusion both.1
  · exact both.2 empty

theorem collect_closing (h : (collectAfterClose s).bothFree = true) (waits : (collectAfterClose s).queue ≠ []) :
    (collectAfterClose s).hasCause .collect = true := by
  have free : s.bothFree = true := by
    have same : (collectAfterClose s).bothFree = s.bothFree := by unfold collectAfterClose; split <;> rfl
    rw [← same]
    exact h
  rw [queue_collectAfterClose] at waits
  rw [collectAfterClose_sets free waits]
  exact hasCause_setCause s .collect

theorem batch_freed (id : BatchId) (s : State) : (freedBatch id s).batch id = ⟨.free, 0⟩ := by cases id <;> rfl

theorem batch_other_freed (id : BatchId) (s : State) : (freedBatch id s).batch (otherBatch id) = s.batch (otherBatch id) := by
  cases id <;> rfl

/-- What the engine that follows a close keeps. -/
structure Following (id : BatchId) (s t : State) : Prop where
  batch : t.batch id = s.batch id
  posted : t.posted = s.posted
  hostMem : t.hostMem = s.hostMem
  bus : t.bus = s.bus
  device : t.device = s.device
  causes : t.causes = s.causes
  queue : t.queue = s.queue
  quiesce : t.quiesce = s.quiesce
  stopped : s.run = false → t.engine = .stopped
  serves : s.run = true → (s.batch (otherBatch id)).state = .waiting →
    t.engine = .serving ∧ t.batch (otherBatch id) = ⟨.inService, (s.batch (otherBatch id)).taken⟩
  idles : s.run = true → (s.batch (otherBatch id)).state ≠ .waiting → t.engine = .idle

theorem following_nextEngine (id : BatchId) (s : State) : Following id s (nextEngine id s) := by
  unfold nextEngine
  by_cases run : s.run = true
  · by_cases waiting : (s.batch (otherBatch id)).state = .waiting
    · rw [if_pos run, if_pos waiting]
      have runs (h : s.run = false) : False := by rw [run] at h; cases h
      cases id
      · exact ⟨rfl, rfl, rfl, rfl, rfl, rfl, rfl, rfl, fun h => (runs h).elim, fun _ _ => ⟨rfl, rfl⟩, fun _ h => absurd waiting h⟩
      · exact ⟨rfl, rfl, rfl, rfl, rfl, rfl, rfl, rfl, fun h => (runs h).elim, fun _ _ => ⟨rfl, rfl⟩, fun _ h => absurd waiting h⟩
    · rw [if_pos run, if_neg waiting]
      have runs (h : s.run = false) : False := by rw [run] at h; cases h
      exact ⟨by cases id <;> rfl, rfl, rfl, rfl, rfl, rfl, rfl, rfl, fun h => (runs h).elim, fun _ h => absurd h waiting,
        fun _ _ => rfl⟩
  · rw [if_neg run]
    exact ⟨by cases id <;> rfl, rfl, rfl, rfl, rfl, rfl, rfl, rfl, fun _ => rfl, fun h => absurd h run, fun h => absurd h run⟩

theorem nextHeader_freed (id : BatchId) (s : State) : nextHeader (freedBatch id s) id = nextHeader s id := by
  have run : (freedBatch id s).run = s.run := by cases id <;> rfl
  have base : (freedBatch id s).workBase = s.workBase := by cases id <;> rfl
  rw [nextHeader, nextHeader, batch_other_freed, run, startHeader, startHeader, base]

/-- The state that a close leaves, with the batch freed in the state `s`. -/
def closedInto (id : BatchId) (s : State) : State :=
  (nextEngine id (freedBatch id s)).wrote (nextHeader s id).length (nextHeader s id)

theorem afterClose_freed (h : s.granted 1) (id : BatchId) : afterClose id (freedBatch id s) = closedInto id s := by
  have granted : (freedBatch id s).granted 1 := h.of_bus (by cases id <;> rfl)
  rw [afterClose_granted granted, nextHeader_freed, closedInto]

/-- What a close leaves whose batch has been freed in the state `s`. -/
structure ClosedFrom (id : BatchId) (s t : State) : Prop where
  batch : t.batch id = ⟨.free, 0⟩
  cause : t.hasCause (closedCause id) = true
  device : t.device = s.device
  posted : t.posted = s.posted ++ nextHeader s id
  queue : s.quiesce = true → t.queue = s.queue
  collect : t.bothFree = true → t.queue ≠ [] → t.hasCause .collect = true
  stopped : s.run = false → t.engine = .stopped
  serves : s.run = true → (s.batch (otherBatch id)).state = .waiting →
    t.engine = .serving ∧ t.batch (otherBatch id) = ⟨.inService, (s.batch (otherBatch id)).taken⟩
  idles : s.run = true → (s.batch (otherBatch id)).state ≠ .waiting → t.engine = .idle

theorem closedFrom_closing (h : s.granted 1) (id : BatchId) :
    ClosedFrom id s (collectAfterClose (tryOriginate (afterClose id (freedBatch id s)))) := by
  rw [afterClose_freed h]
  have next := following_nextEngine id (freedBatch id s)
  have quiet := quiet_closing (closedInto id s)
  have told := closing_told (closedInto id s)
  have batch (i : BatchId) : (closedInto id s).batch i = (nextEngine id (freedBatch id s)).batch i := by cases i <;> rfl
  have other := batch_other_freed id s
  refine ⟨?_, ?_, ?_, ?_, fun quiesce => ?_, collect_closing, fun run => ?_, fun run waiting => ?_, fun run busy => ?_⟩
  · rw [quiet.batch, batch, next.batch, batch_freed]
  · have causes : (closedInto id s).causes = (freedBatch id s).causes := next.causes
    rw [told.2 _ (closedCause_ne_collect id), hasCause_of_causes _ causes]
    exact hasCause_setCause _ _
  · rw [told.1]
    exact next.device.trans (by cases id <;> rfl)
  · rw [quiet.posted, closedInto, State.wrote_posted, next.posted]
    cases id <;> rfl
  · rw [queue_closing (s := closedInto id s) (next.quiesce.trans (Eq.trans (by cases id <;> rfl) quiesce))]
    exact next.queue.trans (by cases id <;> rfl)
  · rw [quiet.engine]
    exact next.stopped (Eq.trans (by cases id <;> rfl) run)
  · rw [quiet.engine, quiet.batch, batch, ← other]
    exact next.serves (Eq.trans (by cases id <;> rfl) run) (by rw [other]; exact waiting)
  · rw [quiet.engine]
    exact next.idles (Eq.trans (by cases id <;> rfl) run) (by rw [other]; exact busy)

theorem queue_deliveredFirst (n : Nat) (s : State) : (deliveredFirst n s).queue = s.queue.drop n := by
  unfold deliveredFirst
  have walk (items : List Item) (s : State) :
      (items.foldl (fun s it => deliverItem it (popItem s)) s).queue = s.queue.drop items.length := by
    induction items generalizing s with
    | nil => rfl
    | cons it items ih =>
      rw [List.foldl_cons, ih, queue_deliverItem]
      show s.queue.tail.drop items.length = _
      rw [List.drop_tail, List.length_cons]
  rw [walk, List.length_take]
  rcases Nat.le_total n s.queue.length with le | ge
  · rw [Nat.min_eq_left le]
  · rw [Nat.min_eq_right ge, List.drop_eq_nil_of_le (Nat.le_refl _), List.drop_eq_nil_of_le ge]

/-- The state in which a close frees its batch. -/
def headed (s : State) (id : BatchId) : State :=
  (deliveredAll s).wrote ((tailItems s).length + 1) (tailWrites s id ++ [closeHeader s id])

theorem afterCloseState_eq (s : State) (id : BatchId) :
    afterCloseState s id = collectAfterClose (tryOriginate (afterClose id (freedBatch id (headed s id)))) := rfl

theorem deliveredAll_quiet (s : State) : Quiet s (deliveredAll s) := by
  rw [deliveredAll_eq]
  exact deliveredFirst_quiet _ s

theorem deliveredFirst_device (n : Nat) (s : State) : (deliveredFirst n s).device = s.device := by
  unfold deliveredFirst
  generalize s.queue.take n = items
  induction items generalizing s with
  | nil => rfl
  | cons it items ih =>
    rw [List.foldl_cons, ih]
    unfold deliverItem
    split
    · rfl
    · split <;> rfl

theorem nextHeader_headed (s : State) (id : BatchId) : nextHeader (headed s id) id = nextHeader s id := by
  have quiet := deliveredAll_quiet s
  have run : (headed s id).run = s.run := quiet.run
  have base : (headed s id).workBase = s.workBase := quiet.workBase
  have batch : (headed s id).batch (otherBatch id) = s.batch (otherBatch id) :=
    Eq.trans (by cases id <;> rfl) (quiet.batch (otherBatch id))
  rw [nextHeader, nextHeader, run, batch, startHeader, startHeader, base]

theorem closed_afterCloseState (h : s.granted ((tailItems s).length + 1 + 1)) (id : BatchId) :
    ClosedFrom id (headed s id) (afterCloseState s id) := by
  rw [afterCloseState_eq]
  exact closedFrom_closing ((h.of_bus (deliveredAll_quiet s).bus).wrote _) id

theorem afterCloseState_posted (h : s.granted ((tailItems s).length + 1 + 1)) (id : BatchId) :
    (afterCloseState s id).posted = s.posted ++ tailWrites s id ++ [closeHeader s id] ++ nextHeader s id := by
  rw [(closed_afterCloseState h id).posted, nextHeader_headed, headed, State.wrote_posted, (deliveredAll_quiet s).posted,
    ← List.append_assoc s.posted]

/-! ## The commands -/

/-- A body that keeps the flow of accesses, where they all succeed. -/
theorem Flow.within (h : Flow (beginEvent env s) t) (clean : cleanEnv env) : Within s t env := by
  obtain ⟨clean, ws, posted, memory⟩ := h.clean clean
  refine ⟨clean, ?_⟩
  rw [memory, posted]
  rfl

theorem begun_facts (env : Env) (s : State) (id : BatchId) :
    (beginEvent env s).batch id = s.batch id ∧ tailWrites (beginEvent env s) id = tailWrites s id ∧
      closeHeader (beginEvent env s) id = closeHeader s id ∧ nextHeader (beginEvent env s) id = nextHeader s id := by
  cases id <;> exact ⟨rfl, rfl, rfl, rfl⟩

/-- The close of a batch, as the whole of an event. -/
theorem closeBatch_done (high : s.resetn = true) (clean : cleanEnv env) {body : State → State} (id : BatchId)
    (does : body (beginEvent env s) = closeBatch id (beginEvent env s)) :
    EventDone s (event env (withBoard body) s) (tailWrites s id ++ [closeHeader s id] ++ nextHeader s id)
      (afterCloseState (beginEvent env s) id) := by
  have granted (n : Nat) : (beginEvent env s).granted n := State.granted_of_clean (s := beginEvent env s) clean n
  have closes : body (beginEvent env s) = afterCloseState (beginEvent env s) id := does.trans (closeBatch_granted (granted _) id)
  have flow : Flow (beginEvent env s) (afterCloseState (beginEvent env s) id) := by
    rw [← closeBatch_granted (granted _) id]
    exact (hosted_closeBatch (map := True) (profiles := True) id _).toFlow
  have done := event_done high closes (flow.within clean)
  obtain ⟨-, tail, header, next⟩ := begun_facts env s id
  rw [afterCloseState_posted (granted _), tail, header, next] at done
  exact done

theorem takeClose_closing (h : s.closing? = some id) : takeClose s = closeBatch id s := by rw [takeClose, h]

theorem takeClose_none (h : s.closing? = none) : takeClose s = s := by rw [takeClose, h]

theorem closing?_begun (env : Env) (s : State) : (beginEvent env s).closing? = s.closing? := rfl

theorem inService?_iff (id : BatchId) : s.inService? = some id ↔
    (s.batch id).state = .inService ∧ (id = .b → s.batchA.state ≠ .inService) := by
  unfold State.inService?
  cases id
  · show _ ↔ s.batchA.state = .inService ∧ _
    split_ifs <;> simp_all
  · show _ ↔ s.batchB.state = .inService ∧ _
    split_ifs <;> simp_all

theorem closing?_iff : s.closing? = some id ↔ s.engine = .serving ∧ s.inService? = some id ∧ (s.batch id).taken ≤ s.nextIndex := by
  constructor
  · intro h
    obtain ⟨engine, inService, done⟩ := closing_of_closing? h
    exact ⟨engine, inService, Nat.not_lt.1 done⟩
  · rintro ⟨engine, inService, done⟩
    unfold State.closing?
    rw [engine, inService]
    exact if_neg (Nat.not_lt.2 done)

theorem serving?_iff : s.serving? = some id ↔ s.engine = .serving ∧ s.inService? = some id ∧ s.nextIndex < (s.batch id).taken := by
  constructor
  · exact serving_of_serving?
  · rintro ⟨engine, inService, due⟩
    unfold State.serving?
    rw [engine, inService]
    exact if_pos due

theorem deliverItem_offer (k : Slot) (packet : List Byte) :
    (s.recordOf k = none → deliverItem (.offer k packet) s = s) ∧
      ∀ r, s.recordOf k = some r → deliverItem (.offer k packet) s =
        s.setRecord r { s.records[r] with
          state := .waitingReply, offerQueued := false, replyTimer := (s.profileOf k).replyWait } := by
  refine ⟨fun missing => ?_, fun r found => ?_⟩
  · rw [deliverItem, missing]
  · rw [deliverItem, found]

theorem bothFree_ab : s.bothFree = true ↔ s.batchA.state = .free ∧ s.batchB.state = .free := bothFree_iff .a

/-- Settles O25: the layouts, and the close as the writes and the state that `closedFrom_closing` takes apart. -/
theorem batchCloseDeliversAndFrees : Obligations.BatchCloseDeliversAndFrees := by
  refine ⟨fun s id b => ⟨rfl, rfl, rfl, rfl, rfl, rfl, bothFree_ab, inService?_iff id, closing?_iff⟩, fun id s => ?_,
    fun base j => ⟨BitVec.add_zero base, rfl, rfl, rfl⟩, fun status taken done count => ?_, fun it => ?_,
    fun s n k packet => ⟨rfl, (deliverItem_offer k packet).1, (deliverItem_offer k packet).2⟩,
    fun id env s high clean closing => ⟨_, rfl, ?_⟩⟩
  · refine ⟨collectAfterClose_sets, collectAfterClose_keeps, fun run => ?_, fun run busy => ?_, fun run waiting clean => ?_⟩
    · exact if_neg (by rw [run]; decide)
    · exact (if_pos run).trans (if_neg busy)
    · rw [afterClose_granted (State.granted_of_clean clean 1), nextEngine, nextHeader, if_pos run, if_pos waiting,
        if_pos ⟨run, waiting⟩] <;> rfl
  · have field {o n v : Nat} (i : Nat) (f : (headerFields status taken done count)[i]? = some (n, v))
        (offset : ((([1, 3, 1, 1, 1, 1] : List Nat)).take i).sum = o) :
        bytesAt (headerBlock status taken done count) o n = leBytes n v := by
      rw [headerBlock_eq_layout]; exact bytesAt_sized i f rfl offset
    refine ⟨by rw [headerBlock_eq_layout, layout_length]; rfl, fun st => ?_, fun st => ?_, fun st => ?_, field 1 rfl rfl,
      field 2 rfl rfl, field 3 rfl rfl, field 4 rfl rfl, field 5 rfl rfl⟩
    all_goals
      subst st
      exact field 0 rfl rfl
  · cases it with
    | offer k packet =>
      intro _ long
      have field {o n v : Nat} (i : Nat) (f : (offerFields k)[i]? = some (n, v))
          (offset : (((offerFields k).take i).map Prod.fst).sum = o) :
          bytesAt (tailItemBytes (.offer k packet)) o n = leBytes n v := by
        rw [tailItemBytes_offer]; exact bytesAt_layout_append i packet f offset
      refine ⟨?_, field 0 rfl rfl, field 1 rfl rfl, field 2 rfl rfl, field 3 rfl rfl, field 4 rfl rfl, ?_⟩
      · rw [tailItemBytes_offer, List.length_append, layout_length, long]
        rfl
      · rw [tailItemBytes_offer, ← List.append_nil packet]
        have found : bytesAt (layout (offerFields k) ++ (packet ++ [])) 10 86 = packet :=
          bytesAt_part (layout_length (offerFields k)) long
        rw [found, List.append_nil]
    | notice n =>
      have field {o k v : Nat} (i : Nat) (f : (noticeFields n)[i]? = some (k, v))
          (offset : ((([1, 1, 2, 1, 1, 2, 2, 86] : List Nat)).take i).sum = o) :
          bytesAt (tailItemBytes (.notice n)) o k = leBytes k v := by
        rw [tailItemBytes_notice]; exact bytesAt_sized i f rfl offset
      have number : bytesAt (tailItemBytes (.notice n)) 2 2 = leBytes 2 n.linkNumber := field 2 rfl rfl
      have kind : bytesAt (tailItemBytes (.notice n)) 4 1 = leBytes 1 n.kind.code := field 3 rfl rfl
      have edge : bytesAt (tailItemBytes (.notice n)) 5 1 = leBytes 1 n.edge.code := field 4 rfl rfl
      refine ⟨by rw [tailItemBytes_notice, layout_length]; rfl, field 0 rfl rfl, field 1 rfl rfl, fun k of => ?_, fun of => ?_,
        fun kd of => ?_, fun it of => ?_, fun of => ?_, fun of => ?_, field 5 rfl rfl, field 6 rfl rfl, field 7 rfl rfl⟩
      · exact number.trans (by rw [Notice.linkNumber, of])
      · exact number.trans (by rw [Notice.linkNumber, of]; rfl)
      · exact kind.trans (by rw [of]; cases kd <;> rfl)
      · exact kind.trans (by rw [of]; rfl)
      · exact edge.trans (by rw [of]; rfl)
      · exact edge.trans (by rw [of]; rfl)
  · have done := closeBatch_done high clean id (takeClose_closing ((closing?_begun env s).trans closing))
    have facts := closed_afterCloseState (s := beginEvent env s) (State.granted_of_clean (s := beginEvent env s) clean _) id
    have quiet := deliveredAll_quiet (beginEvent env s)
    have other : (headed (beginEvent env s) id).batch (otherBatch id) = s.batch (otherBatch id) :=
      (Eq.trans (by cases id <;> rfl) (quiet.batch (otherBatch id))).trans (begun_facts env s (otherBatch id)).1
    have run : (headed (beginEvent env s) id).run = s.run := quiet.run
    have state : (event env (withBoard takeClose) s).inner = (afterCloseState (beginEvent env s) id).inner := done.inner
    have batch (i : BatchId) : (event env (withBoard takeClose) s).batch i = (afterCloseState (beginEvent env s) id).batch i := by
      cases i
      · have e := congrArg State.batchA state; exact e
      · have e := congrArg State.batchB state; exact e
    have engine : (event env (withBoard takeClose) s).engine = (afterCloseState (beginEvent env s) id).engine := by
      have e := congrArg State.engine state; exact e
    have queue : (event env (withBoard takeClose) s).queue = (afterCloseState (beginEvent env s) id).queue := by
      have e := congrArg State.queue state; exact e
    have causes : (event env (withBoard takeClose) s).causes = (afterCloseState (beginEvent env s) id).causes := by
      have e := congrArg State.causes state; exact e
    have bothFree : (event env (withBoard takeClose) s).bothFree = (afterCloseState (beginEvent env s) id).bothFree := by
      have e := congrArg State.bothFree state; exact e
    have waits : s.run = true → (s.batch (otherBatch id)).state = .waiting → _ :=
      fun r w => facts.serves (run.trans r) (by rw [other]; exact w)
    rw [other] at waits
    refine ⟨done, (batch id).trans facts.batch, ?_, fun r => engine.trans (facts.stopped (run.trans r)), fun r w => ?_,
      fun r w => engine.trans (facts.idles (run.trans r) (by rw [other]; exact w)), fun q => ?_, fun free waits => ?_⟩
    · rw [hasCause_of_causes _ causes]
      have set := facts.cause
      cases id <;> exact set
    · exact ⟨engine.trans (waits r w).1, (batch _).trans (waits r w).2⟩
    · refine (queue.trans (facts.queue (quiet.quiesce.trans q))).trans ?_
      have dropped := queue_deliveredFirst (min (beginEvent env s).settings.tailRoom (beginEvent env s).queue.length)
        (beginEvent env s)
      rw [← deliveredAll_eq] at dropped
      refine dropped.trans ?_
      show s.queue.drop (min s.settings.tailRoom s.queue.length) = _
      rcases Nat.le_total s.settings.tailRoom s.queue.length with le | ge
      · rw [Nat.min_eq_left le]
      · rw [Nat.min_eq_right ge, List.drop_eq_nil_of_le (Nat.le_refl _), List.drop_eq_nil_of_le ge]
    · rw [hasCause_of_causes _ causes]
      rw [bothFree] at free
      rw [queue] at waits
      exact facts.collect free waits

/-! ## ABANDON -/

theorem takeAbandon_serving (engine : s.engine = .serving) (inService : s.inService? = some id) :
    takeAbandon s = abandonRest id s := by rw [takeAbandon, engine, inService]

theorem takeAbandon_none (h : s.engine ≠ .serving ∨ s.inService? = none) : takeAbandon s = s := by
  unfold takeAbandon
  split
  · rename_i engine inService
    rcases h with other | missing
    · exact absurd engine other
    · rw [missing] at inService
      cases inService
  · rfl

theorem skippedState_facts (s : State) (id : BatchId) (env : Env) :
    (skippedState (beginEvent env s) id).posted = skipWrites s id ∧
      tailWrites (skippedState (beginEvent env s) id) id = tailWrites s id ∧
      nextHeader (skippedState (beginEvent env s) id) id = nextHeader s id ∧
      (skippedState (beginEvent env s) id).bus = env.bus.drop (skipWrites (beginEvent env s) id).length := by
  cases id <;> exact ⟨rfl, rfl, rfl, rfl⟩

/-- Settles O26: the SKIPPED results, and then the close that `closedFrom_closing` takes apart. -/
theorem abandonSkipsAndCloses : Obligations.AbandonSkipsAndCloses := by
  refine ⟨⟨rfl, by decide⟩, fun env s high => ⟨fun id engine inService clean => ⟨_, rfl, ?_⟩, fun idle => ⟨_, rfl, ?_⟩⟩⟩
  · have granted (n : Nat) : (beginEvent env s).granted n := State.granted_of_clean (s := beginEvent env s) clean n
    obtain ⟨posted, tail, next, bus⟩ := skippedState_facts s id env
    have skipped (n : Nat) : (skippedState (beginEvent env s) id).granted n :=
      State.granted_of_clean (fun o mem => clean o (List.mem_of_mem_drop (bus ▸ mem))) n
    have rest : takeAbandon (beginEvent env s) = abandonRest id (beginEvent env s) := takeAbandon_serving engine inService
    have closes : abandonRest id (beginEvent env s) = afterCloseState (skippedState (beginEvent env s) id) id :=
      (abandonRest_granted (granted _)).trans (closeBatch_granted (skipped _) id)
    have flow : Flow (beginEvent env s) (afterCloseState (skippedState (beginEvent env s) id) id) := by
      rw [← closes]
      exact (hosted_abandonRest (map := True) (profiles := True) id _).toFlow
    have done := event_done high (rest.trans closes) (flow.within clean)
    rw [afterCloseState_posted (skipped _), posted, tail, next] at done
    have facts := closed_afterCloseState (skipped _) id
    refine ⟨done, ?_⟩
    have state := done.inner
    have batch : (event env (withBoard takeAbandon) s).batch id =
        (afterCloseState (skippedState (beginEvent env s) id) id).batch id := by
      cases id
      · have e := congrArg State.batchA state; exact e
      · have e := congrArg State.batchB state; exact e
    exact batch.trans facts.batch
  · exact unshownEvent high (takeAbandon_none (s := beginEvent env s) idle) ⟨rfl, rfl, rfl, rfl, rfl, rfl⟩ rfl rfl rfl

end Sys2Proof.Machine
end

