-- ==== Sys2Proof/Proofs/Entries.lean ====
section
/-! PROOFS. An entry served: its bytes, the bytes of its result, the command of its kind, and how it completes. -/

namespace Sys2Proof.Machine
variable {s t own other : State} {id : BatchId} {env : Env} {r : EntryResult} {output : List HostWrite} {map profiles : Prop}
  {request : State → EntryResult × State}

/-! ## How an entry completes -/

theorem boardWrites_inner (inner : other.inner = own.inner) : boardWrites s own = boardWrites s other := by
  have field {α : Type} (f : State → α) (blind : ∀ s, f s.inner = f s) : own.inner = other.inner → f own = f other :=
    fun e => (blind own).symm.trans ((congrArg f e).trans (blind other))
  have same := inner.symm
  rw [boardWrites_right s (field State.boardBase (fun _ => rfl) same) (field State.links (fun _ => rfl) same)
    (field State.records (fun _ => rfl) same) (field State.device (fun _ => rfl) same)
    (field State.quiesce (fun _ => rfl) same) (field State.queue (fun _ => rfl) same)
    (field State.dueList (fun _ => rfl) same)]

/-- The device's own state may be given by another with the same inner state. -/
theorem EntryDone.of_inner (done : EntryDone id s t r output other) (inner : other.inner = own.inner) :
    EntryDone id s t r output own where
  inner := done.inner.trans (congrArg State.counted inner)
  posted := by rw [done.posted, boardWrites_inner inner]
  memory := done.memory
  frame := done.frame

/-- An entry whose accesses all succeed, given what its request does. -/
theorem entry_done (ready : s.ready id) (clean : cleanEnv env)
    (served : Served map profiles (s.accessed env 1 []) (request (s.accessed env 1 [])).2)
    (does : request (s.accessed env 1 []) = (r, own)) (ok : r.status ≠ .busFault) (posted : own.posted = output) :
    EntryDone id s (serveEntry request env s) r output own := by
  rw [does] at served
  have start : Within s (s.accessed env 1 []) env := Within.accessed clean s 1 []
  obtain ⟨cleaned, ws, wrote, memory⟩ := served.toFlow.clean start.clean
  have within : Within s own env := ⟨cleaned, by
    rw [memory, wrote]
    rfl⟩
  have index : own.nextIndex = s.nextIndex := congrArg EngineView.nextIndex served.engine
  have done := serveEntry_done ready clean does ok within served.workBase index served.boardBase
  rw [posted] at done
  exact done

/-- A refusal leaves everything as it was but the access of the entry itself. -/
theorem entry_refused (ready : s.ready id) (clean : cleanEnv env) {n : Nat}
    (served : Served map profiles (s.accessed env 1 []) (request (s.accessed env 1 [])).2)
    (does : request (s.accessed env 1 []) = (r, s.accessed env n [])) (ok : r.status ≠ .busFault) :
    EntryDone id s (serveEntry request env s) r [] s :=
  (entry_done ready clean served does ok rfl).of_inner rfl

/-! ## Bytes -/

theorem getElem?_leBytes {n i : Nat} (v : Nat) (inside : i < n) :
    (leBytes n v)[i]? = some (BitVec.ofNat 8 (v / 256 ^ i)) := by
  induction n generalizing v i with
  | zero => omega
  | succ n ih =>
    cases i with
    | zero => simp [leBytes]
    | succ i =>
      rw [leBytes, List.getElem?_cons_succ, ih (v / 256) (by omega), Nat.div_div_eq_div_mul, Nat.pow_succ']

theorem getElem?_bytesAt {n j : Nat} (bs : List Byte) (i : Nat) (inside : j < n) :
    (bytesAt bs i n)[j]? = some (bs.getD (i + j) 0) := by
  simp [bytesAt, inside]

/-- The fields of a result. -/
def resultFields (r : EntryResult) : List (Nat × Nat) :=
  [(1, r.status.code.toNat), (1, r.detail.code.toNat), (2, r.slot), (4, r.outputLength), (1, r.generation), (3, 0), (4, r.sequence)]

theorem resultBytes_eq_layout (r : EntryResult) : resultBytes r = layout (resultFields r) := by
  have head : [r.status.code, r.detail.code] = leBytes 1 r.status.code.toNat ++ leBytes 1 r.detail.code.toNat := by
    rw [← singleton_eq, ← singleton_eq]
    rfl
  simp only [resultBytes, head, zeroBytes_eq, resultFields, layout, List.flatMap_cons, List.flatMap_nil, List.append_nil,
    List.append_assoc]

/-! ## The bytes of an entry -/

/-- The bytes of an entry, with the bytes between its fields. -/
def workEntryBytes (kind : Byte) (e : WorkEntry) (reserved rest : List Byte) : List Byte :=
  [kind, e.flags] ++ leBytes 2 e.slotField.toNat ++ reserved ++ leBytes 8 e.inputAddress.toNat
    ++ leBytes 4 e.inputLength.toNat ++ leBytes 4 e.outputRoom.toNat ++ leBytes 8 e.outputAddress.toNat ++ rest

/-- A number of `n` bits read from the bytes that hold it. -/
theorem ofNat_ofLe_leBytes {n k : Nat} (v : BitVec n) (holds : 256 ^ k = 2 ^ n) :
    BitVec.ofNat n (ofLe (leBytes k v.toNat)) = v := by
  rw [ofLe_leBytes, holds, Nat.mod_eq_of_lt v.isLt, BitVec.ofNat_toNat, BitVec.setWidth_eq]

theorem parseEntry_workEntryBytes (kind : Byte) (e : WorkEntry) {reserved : List Byte} (rest : List Byte) (four : reserved.length = 4) :
    parseEntry (workEntryBytes kind e reserved rest) = e := by
  obtain ⟨flags, slot, address, len, room, out⟩ := e
  generalize whole : workEntryBytes kind ⟨flags, slot, address, len, room, out⟩ reserved rest = bs
  have found (a b c : List Byte) (o n : Nat) (here : bs = a ++ (b ++ c)) (before : a.length = o) (long : b.length = n) :
      bytesAt bs o n = b := by rw [here]; exact bytesAt_part before long
  have slots := found [kind, flags] (leBytes 2 slot.toNat) _ 2 2
    (by rw [← whole, workEntryBytes]; simp only [List.append_assoc]; rfl) rfl (by simp)
  have inputs := found ([kind, flags] ++ (leBytes 2 slot.toNat ++ reserved)) (leBytes 8 address.toNat) _ 8 8
    (by rw [← whole, workEntryBytes]; simp only [List.append_assoc]; rfl) (by simp [four]) (by simp)
  have lengths := found ([kind, flags] ++ (leBytes 2 slot.toNat ++ (reserved ++ leBytes 8 address.toNat))) (leBytes 4 len.toNat) _ 16 4
    (by rw [← whole, workEntryBytes]; simp only [List.append_assoc]; rfl) (by simp [four]) (by simp)
  have rooms := found ([kind, flags] ++ (leBytes 2 slot.toNat ++ (reserved ++ (leBytes 8 address.toNat ++ leBytes 4 len.toNat))))
    (leBytes 4 room.toNat) _ 20 4
    (by rw [← whole, workEntryBytes]; simp only [List.append_assoc]; rfl) (by simp [four]) (by simp)
  have outs := found ([kind, flags] ++ (leBytes 2 slot.toNat ++ (reserved ++ (leBytes 8 address.toNat ++ (leBytes 4 len.toNat ++
    leBytes 4 room.toNat))))) (leBytes 8 out.toNat) rest 24 8
    (by rw [← whole, workEntryBytes]; simp only [List.append_assoc]) (by simp [four]) (by simp)
  have flag : bs.getD 1 0 = flags := by rw [← whole]; rfl
  rw [parseEntry, slots, inputs, lengths, rooms, outs, flag, ofNat_ofLe_leBytes slot rfl, ofNat_ofLe_leBytes address rfl,
    ofNat_ofLe_leBytes len rfl, ofNat_ofLe_leBytes room rfl, ofNat_ofLe_leBytes out rfl]

theorem entryKind_workEntryBytes (kind : Byte) (e : WorkEntry) (reserved rest : List Byte) :
    entryKind (workEntryBytes kind e reserved rest) = kind := rfl

theorem kindNamesRequest_iff (kind : Byte) : kindNamesRequest kind = false ↔ kind.toNat = 0 ∨ 12 < kind.toNat := by
  rw [kindNamesRequest, Bool.and_eq_false_iff, decide_eq_false_iff_not, decide_eq_false_iff_not]
  omega

/-- An entry whose kind names no request. -/
theorem entryCommand_other {bs : List Byte} (input : List Byte) (env : Env) (h : kindNamesRequest (entryKind bs) = false) :
    entryCommand bs input env = .badRequest (entryKind bs) (parseEntry bs) env := by
  have out := (kindNamesRequest_iff _).1 h
  unfold entryCommand
  split
  case h_13 => rfl
  all_goals omega

/-! ## An entry or a close that the engine has not come to -/

theorem pinned_entry {c : Instr} (entry : isEntry c = true) (s : State) : pinned c s = s := by
  cases c with
  | quiesceAssert env => cases entry
  | quiesceRelease env => cases entry
  | _ => rfl

theorem not_reset_of_entry {c : Instr} (entry : isEntry c = true) : isReset c = false ∧ c ≠ .resetnFall := by
  refine ⟨?_, fun fall => by subst fall; cases entry⟩
  cases c with
  | powerOnReset => cases entry
  | pinReset => cases entry
  | _ => rfl

theorem bodyOf_entry {c : Instr} (entry : isEntry c = true) : bodyOf c = entryBody (requestOf c) := if_pos entry

/-- An entry's command is one event. -/
theorem exec_entry {c : Instr} (entry : isEntry c = true) (s : State) :
    exec c s = .next (event (envOf c) (entryBody (requestOf c)) s) := by
  obtain ⟨reset, fall⟩ := not_reset_of_entry entry
  rw [exec_eq_event c s reset fall, pinned_entry entry, bodyOf_entry entry]

theorem entryBody_none (none : s.serving? = none) : entryBody request s = s := by rw [entryBody, none]

theorem entryBody_some (due : s.serving? = some id) : entryBody request s = serveEntryOf id request s := by rw [entryBody, due]

theorem serving?_begun (env : Env) (s : State) : (beginEvent env s).serving? = s.serving? := rfl

/-- Settles O27: the layouts, the kinds, and that an entry or a close not come to changes nothing. -/
theorem entriesByKind : Obligations.EntriesByKind := by
  refine ⟨fun n v i b bs => ⟨leBytes_length n v, getElem?_leBytes v, rfl, rfl, rfl, bytesAt_length bs i n,
      fun j => getElem?_bytesAt bs i⟩, fun _ _ _ => ⟨rfl, rfl⟩, ⟨kindNamesRequest_iff, fun _ _ => serving?_iff⟩,
    fun base i => ⟨?_, rfl⟩, fun r => ?_, by decide, by decide, fun kind e reserved rest input env four => ?_,
    fun kind e env s id ready clean => ⟨_, rfl, ?_⟩, fun c env s high => ⟨fun entry none => ?_, fun none => ⟨_, rfl, ?_⟩⟩⟩
  · rw [resultAddress, batchOffset, Nat.zero_add]
  · have field {o n v : Nat} (i : Nat) (f : (resultFields r)[i]? = some (n, v))
        (offset : ((([1, 1, 2, 4, 1, 3, 4] : List Nat)).take i).sum = o) :
        bytesAt (resultBytes r) o n = leBytes n v := by
      rw [resultBytes_eq_layout]; exact bytesAt_sized i f rfl offset
    exact ⟨by rw [resultBytes_eq_layout, layout_length]; rfl, field 0 rfl rfl, field 1 rfl rfl, field 2 rfl rfl, field 3 rfl rfl,
      field 4 rfl rfl, field 5 rfl rfl, field 6 rfl rfl⟩
  · have parsed := parseEntry_workEntryBytes kind e rest four
    have other := entryCommand_other (bs := workEntryBytes kind e reserved rest) input env
    have named := entryKind_workEntryBytes kind e reserved rest
    rw [named, parsed] at other
    have command (n : Nat) (c : Instr) (of : kind = BitVec.ofNat 8 n)
        (names : ∀ bs : List Byte, entryKind bs = BitVec.ofNat 8 n → parseEntry bs = e → entryCommand bs input env = c) :
        entryCommand (workEntryBytes kind e reserved rest) input env = c := names _ (named.trans of) parsed
    refine ⟨parsed, fun of => command 1 _ of ?_, fun of => command 2 _ of ?_, fun of => command 3 _ of ?_,
      fun of => command 4 _ of ?_, fun of => command 5 _ of ?_, fun of => command 6 _ of ?_, fun of => command 7 _ of ?_,
      fun of => command 8 _ of ?_, fun of => command 9 _ of ?_, fun of => command 10 _ of ?_, fun of => command 11 _ of ?_,
      fun of => command 12 _ of ?_, other⟩
    all_goals
      intro bs is reads
      rw [entryCommand, is, reads]
      rfl
  · exact entry_refused (n := 1) (map := True) (profiles := True) (request := serveBadRequest) ready clean (.refl _) rfl (by decide)
  · rw [exec_entry entry]
    have same := entryBody_none (request := requestOf c) ((serving?_begun (envOf c) s).trans none)
    exact ⟨_, rfl, silentEvent high (by rw [same]; rfl) (by rw [same]; rfl) (by rw [same]; rfl)⟩
  · exact unshownEvent high (takeClose_none ((closing?_begun env s).trans none)) ⟨rfl, rfl, rfl, rfl, rfl, rfl⟩ rfl rfl rfl

end Sys2Proof.Machine
end

