-- ==== Sys2Proof/Proofs/AdminChecks.lean ====
section
/-! PROOFS. ENROL and SET_LINK: their parameter blocks, their checks in order, and their changes. -/

namespace Sys2Proof.Machine
variable {s t own : State} {id : BatchId} {env : Env} {e : WorkEntry} {input : List Byte} {k : Slot} {b : LinkBlock} {p : ProfileNumber}

/-! ## Accesses of an entry -/

theorem accessed_wrote (s : State) (env : Env) (n m : Nat) (a c : List HostWrite) :
    (s.accessed env n a).wrote m c = s.accessed env (n + m) (a ++ c) := State.wrote_wrote _ n m a c

theorem accessed_clean (clean : cleanEnv env) (s : State) (n : Nat) (ws : List HostWrite) : (s.accessed env n ws).busClean :=
  State.busClean_wrote (s := beginEvent env s) clean n ws

/-! ## Slot numbers and parameter blocks -/

theorem slotOf_none {field : BitVec 16} (h : 512 ≤ field.toNat) : slotOf field = none := dif_neg (by omega)

theorem slotOf_some {field : BitVec 16} (h : field.toNat = k.val) : slotOf field = some k := by
  obtain ⟨k, lt⟩ := k
  have h : field.toNat = k := h
  subst h
  exact dif_pos lt

theorem not_allLinks {field : BitVec 16} (h : field.toNat = k.val) : field ≠ allLinks := by
  intro all
  rw [all] at h
  have lt := k.isLt
  have number : allLinks.toNat = 1023 := rfl
  omega

theorem profileNumberOf_none {n : Nat} (h : 16 ≤ n) : profileNumberOf n = none := dif_neg (by omega)

theorem profileNumberOf_some {n : Nat} (h : n = p.val) : profileNumberOf n = some p := by
  subst h
  exact dif_pos p.isLt

theorem badRange_iff (first last : Nat) : badRange first last = true ↔ last < first ∨ last = 65535 := by
  rw [badRange, Bool.or_eq_true, decide_eq_true_eq, decide_eq_true_eq]

theorem goodRange {first last : Nat} (le : first ≤ last) (ne : last ≠ 65535) : ¬ badRange first last = true :=
  fun bad => ((badRange_iff _ _).1 bad).elim (by omega) ne

theorem withBlock_length (h : e.inputLength.toNat ≠ 64) (slot : Nat) (s : State) (next : State → EntryResult × State) :
    withBlock slot e s next = (slotResult slot .malformed .length, s) := if_pos h

theorem withBlock_read (h : e.inputLength.toNat = 64) (granted : s.granted 1) (slot : Nat) (next : State → EntryResult × State) :
    withBlock slot e s next = next (s.wrote 1 []) := by
  have size : ¬ e.inputLength.toNat ≠ blockSize := not_not_intro h
  unfold withBlock
  rw [if_neg size, hostRead_granted granted]
  rfl

/-- The block read behind the entry. -/
theorem withBlock_accessed (h : e.inputLength.toNat = 64) (clean : cleanEnv env) (slot : Nat) (next : State → EntryResult × State) :
    withBlock slot e (s.accessed env 1 []) next = next (s.accessed env 2 []) := by
  rw [withBlock_read h (State.granted_of_clean (accessed_clean clean s 1 []) 1), accessed_wrote]
  rfl

/-! ## Ranges -/

theorem rangesShare_iff (first last : Nat) (u : Triple) :
    rangesShare first last u = true ↔ first ≤ u.last ∧ u.first ≤ last := by
  rw [rangesShare]
  simp

theorem any_rangesShare_iff (first last : Nat) (m : List Triple) :
    m.any (rangesShare first last) = true ↔ ∃ u ∈ m, first ≤ u.last ∧ u.first ≤ last := by
  rw [List.any_eq_true]
  exact exists_congr fun u => and_congr_right fun _ => rangesShare_iff first last u

theorem any_rangesShare_removed_iff (first last : Nat) (k : Slot) (m : List Triple) :
    (removeTriple k m).any (rangesShare first last) = true ↔ ∃ u ∈ m, u.slot ≠ k ∧ first ≤ u.last ∧ u.first ≤ last := by
  rw [any_rangesShare_iff]
  refine exists_congr fun u => ?_
  rw [removeTriple, List.mem_filter, decide_eq_true_eq, and_assoc]

/-! ## ENROL -/

/-- What an ENROL does with the root key that it unwraps. -/
def enrolUnwrapped (k : Slot) (e : WorkEntry) (b : LinkBlock) (p : ProfileNumber) (s : State) : Option (Key × Salt) → EntryResult × State
  | none => (slotResult k.val .badWrap .none, s)
  | some (rootKey, _) =>
    if rootKey = 0 then (slotResult k.val .badWrap .zeroKey, s)
    else (slotResult k.val .ok .none, enrolLink k b p rootKey (entryFlag0 e) s)

section
variable (vacant : (s.link k).state = .vacant)
include vacant

theorem enrolChecked_badRange (bad : b.last < b.first ∨ b.last = 65535) :
    enrolChecked k e b s = (slotResult k.val .badRange .none, s) := by
  rw [enrolChecked, if_neg (not_not_intro vacant), if_pos ((badRange_iff _ _).2 bad)]

variable (le : b.first ≤ b.last) (ne : b.last ≠ 65535)
include le ne

theorem enrolChecked_overlap (shares : ∃ u ∈ s.branchMap, b.first ≤ u.last ∧ u.first ≤ b.last) :
    enrolChecked k e b s = (slotResult k.val .rangeOverlap .none, s) := by
  rw [enrolChecked, if_neg (not_not_intro vacant), if_neg (goodRange le ne), if_pos ((any_rangesShare_iff _ _ _).2 shares)]

variable (apart : ∀ u ∈ s.branchMap, ¬ (b.first ≤ u.last ∧ u.first ≤ b.last))
include apart

theorem enrolChecked_badProfile (number : 16 ≤ b.profile) : enrolChecked k e b s = (slotResult k.val .badProfile .none, s) := by
  have free : ¬ s.branchMap.any (rangesShare b.first b.last) = true := by
    rw [any_rangesShare_iff]
    exact fun ⟨u, mem, share⟩ => apart u mem share
  rw [enrolChecked, if_neg (not_not_intro vacant), if_neg (goodRange le ne), if_neg free, profileNumberOf_none number]

variable (number : b.profile = p.val)
include number

/-- The checks that come before the profile's own, passed. -/
theorem enrolChecked_named : enrolChecked k e b s =
    if s.profiles[p].valid = false then (slotResult k.val .profileEmpty .none, s)
    else if s.device.noMaster then (slotResult k.val .noMaster .none, s)
    else enrolUnwrapped k e b p s (Config.cipher.unwrap s.masterKey b.wrappedKey) := by
  have free : ¬ s.branchMap.any (rangesShare b.first b.last) = true := by
    rw [any_rangesShare_iff]
    exact fun ⟨u, mem, share⟩ => apart u mem share
  unfold enrolChecked
  rw [if_neg (not_not_intro vacant), if_neg (goodRange le ne), if_neg free, profileNumberOf_some number]
  dsimp only
  generalize Config.cipher.unwrap s.masterKey b.wrappedKey = key
  cases key <;> rfl

theorem enrolChecked_empty (invalid : s.profiles[p].valid = false) :
    enrolChecked k e b s = (slotResult k.val .profileEmpty .none, s) := by
  rw [enrolChecked_named vacant le ne apart number, if_pos invalid]

variable (valid : s.profiles[p].valid = true)
include valid

theorem enrolChecked_noMaster (missing : s.device.noMaster = true) :
    enrolChecked k e b s = (slotResult k.val .noMaster .none, s) := by
  rw [enrolChecked_named vacant le ne apart number, if_neg (by rw [valid]; decide), if_pos missing]

theorem enrolChecked_key (master : s.device.noMaster = false) :
    enrolChecked k e b s = enrolUnwrapped k e b p s (Config.cipher.unwrap s.masterKey b.wrappedKey) := by
  rw [enrolChecked_named vacant le ne apart number, if_neg (by rw [valid]; decide), if_neg (by rw [master]; decide)]

end

/-! ## SET_LINK -/

section
variable (enrolled : (s.link k).state ≠ .vacant) (keyed : (s.link k).state ≠ .quarantined)
include enrolled keyed

theorem setLinkChecked_notHeld (free : (s.link k).hostHold = false) :
    setLinkChecked k b s = (slotResult k.val .notHeld .none, s) := by
  rw [setLinkChecked, if_neg enrolled, if_neg keyed, if_pos free]

variable (held : (s.link k).hostHold = true)
include held

theorem setLinkChecked_badRange (bad : b.last < b.first ∨ b.last = 65535) :
    setLinkChecked k b s = (slotResult k.val .badRange .none, s) := by
  rw [setLinkChecked, if_neg enrolled, if_neg keyed, if_neg (by rw [held]; decide), if_pos ((badRange_iff _ _).2 bad)]

variable (le : b.first ≤ b.last) (ne : b.last ≠ 65535)
include le ne

theorem setLinkChecked_overlap (shares : ∃ u ∈ s.branchMap, u.slot ≠ k ∧ b.first ≤ u.last ∧ u.first ≤ b.last) :
    setLinkChecked k b s = (slotResult k.val .rangeOverlap .none, s) := by
  rw [setLinkChecked, if_neg enrolled, if_neg keyed, if_neg (by rw [held]; decide), if_neg (goodRange le ne),
    if_pos ((any_rangesShare_removed_iff _ _ _ _).2 shares)]

variable (apart : ∀ u ∈ s.branchMap, u.slot ≠ k → ¬ (b.first ≤ u.last ∧ u.first ≤ b.last))
include apart

theorem setLinkChecked_apart : setLinkChecked k b s =
    (profileNumberOf b.profile).elim (slotResult k.val .badProfile .none, s) fun p =>
      if s.profiles[p].valid = false then (slotResult k.val .profileEmpty .none, s) else (slotResult k.val .ok .none, relink k b p s) := by
  have free : ¬ (removeTriple k s.branchMap).any (rangesShare b.first b.last) = true := by
    rw [any_rangesShare_removed_iff]
    exact fun ⟨u, mem, other, share⟩ => apart u mem other share
  rw [setLinkChecked, if_neg enrolled, if_neg keyed, if_neg (by rw [held]; decide), if_neg (goodRange le ne), if_neg free]
  cases profileNumberOf b.profile <;> rfl

theorem setLinkChecked_badProfile (number : 16 ≤ b.profile) : setLinkChecked k b s = (slotResult k.val .badProfile .none, s) := by
  rw [setLinkChecked_apart enrolled keyed held le ne apart, profileNumberOf_none number]
  rfl

variable (number : b.profile = p.val)
include number

theorem setLinkChecked_empty (invalid : s.profiles[p].valid = false) :
    setLinkChecked k b s = (slotResult k.val .profileEmpty .none, s) := by
  rw [setLinkChecked_apart enrolled keyed held le ne apart, profileNumberOf_some number]
  exact if_pos invalid

theorem setLinkChecked_passes (valid : s.profiles[p].valid = true) :
    setLinkChecked k b s = (slotResult k.val .ok .none, relink k b p s) := by
  rw [setLinkChecked_apart enrolled keyed held le ne apart, profileNumberOf_some number]
  exact if_neg (by rw [valid]; decide)

end

/-! ## The refusals -/

section
variable (ready : s.ready id) (clean : cleanEnv env)
include ready clean

theorem enrol_refused {status : Status} {detail : Detail} (slot : e.slotField.toNat = k.val) (length : e.inputLength.toNat = 64)
    (checked : enrolChecked k e (parseLinkBlock input) (s.accessed env 2 []) = (slotResult k.val status detail, s.accessed env 2 []))
    (ok : status ≠ .busFault) :
    ∃ t, exec (.enrol e input env) s = .next t ∧ EntryDone id s t (slotResult k.val status detail) [] s := by
  refine ⟨_, rfl, entry_refused (n := 2) ready clean (served_serveEnrol (profiles := True) e input _) ?_ ok⟩
  rw [serveEnrol, slotOf_some slot]
  exact (withBlock_accessed length clean _ _).trans checked

theorem setLink_refused {status : Status} {detail : Detail} (slot : e.slotField.toNat = k.val) (length : e.inputLength.toNat = 64)
    (checked : setLinkChecked k (parseLinkBlock input) (s.accessed env 2 []) = (slotResult k.val status detail, s.accessed env 2 []))
    (ok : status ≠ .busFault) :
    ∃ t, exec (.setLink e input env) s = .next t ∧ EntryDone id s t (slotResult k.val status detail) [] s := by
  refine ⟨_, rfl, entry_refused (n := 2) ready clean (served_serveSetLink (profiles := True) e input _) ?_ ok⟩
  rw [serveSetLink, slotOf_some slot]
  exact (withBlock_accessed length clean _ _).trans checked

end

theorem ofLe_two (a b : Byte) : ofLe [a, b] = a.toNat + 256 * b.toNat := by simp [ofLe]

theorem leBytes_ofLe (bs : List Byte) : leBytes bs.length (ofLe bs) = bs := by
  induction bs with
  | nil => rfl
  | cons b bs ih =>
    have low : BitVec.ofNat 8 (b.toNat + 256 * ofLe bs) = b := by
      apply BitVec.eq_of_toNat_eq
      rw [BitVec.toNat_ofNat, Nat.add_mul_mod_self_left, Nat.mod_eq_of_lt b.isLt]
    have high : (b.toNat + 256 * ofLe bs) / 256 = ofLe bs := by
      have lt := b.isLt
      omega
    rw [List.length_cons, leBytes, ofLe, low, high, ih]

theorem leBytes_toNat_ofNat {w n v : Nat} (holds : 256 ^ n = 2 ^ w) (lt : v < 256 ^ n) :
    leBytes n (BitVec.ofNat w v).toNat = leBytes n v := by
  rw [BitVec.toNat_ofNat, ← holds, Nat.mod_eq_of_lt lt]

theorem wrappedBytes_read (bs : List Byte) (long : bs.length = 48) : wrappedBytes (BitVec.ofNat 384 (ofLe bs)) = bs := by
  have bound := ofLe_lt bs
  have whole := leBytes_ofLe bs
  rw [long] at bound whole
  exact (leBytes_toNat_ofNat (Nat.pow_mul 2 8 48).symm bound).trans whole

/-- Settles O39: a slot number without a slot first, then each check of ENROL and SET_LINK with those before it passed. -/
theorem slotAndBlockRefusals : Obligations.SlotAndBlockRefusals := by
  refine ⟨fun input => ⟨ofLe_two _ _, ofLe_two _ _, ?_, wrappedBytes_read _ (bytesAt_length _ _ _)⟩,
    fun id e input env s ready clean high => ?_, fun id e input env s k ready clean slot => ?_,
    fun id e input env s k ready clean slot => ?_⟩
  · exact Nat.add_zero _
  · have none := slotOf_none high
    have bad : badSlot.status ≠ .busFault := by decide
    refine ⟨⟨_, rfl, entry_refused (n := 1) ready clean (served_serveEnrol (profiles := True) e input _) ?_ bad⟩,
      ⟨_, rfl, entry_refused (n := 1) ready clean (served_serveRetire (profiles := True) e _) ?_ bad⟩,
      ⟨_, rfl, entry_refused (n := 1) ready clean (served_serveSetLink (profiles := True) e input _) ?_ bad⟩,
      ⟨_, rfl, entry_refused (n := 1) ready clean (served_serveReadLink (map := True) (profiles := True) e _) ?_ bad⟩,
      ⟨_, rfl, entry_refused (n := 1) ready clean (served_serveReadFaults (map := True) (profiles := True) e _) ?_ bad⟩,
      fun one => ⟨⟨_, rfl, entry_refused (n := 1) ready clean (served_serveHold (map := True) (profiles := True) e _) ?_ bad⟩,
        ⟨_, rfl, entry_refused (n := 1) ready clean (served_serveRelease (map := True) (profiles := True) e _) ?_ bad⟩,
        ⟨_, rfl, entry_refused (n := 1) ready clean (served_serveRenewNow (map := True) (profiles := True) e _) ?_ bad⟩⟩⟩
    · rw [serveEnrol, none]
      rfl
    · rw [serveRetire, none]
      rfl
    · rw [serveSetLink, none]
      rfl
    · rw [serveReadLink, none]
      rfl
    · rw [serveReadFaults, none]
      rfl
    · exact (if_neg one).trans (by rw [none]; rfl)
    · exact (if_neg one).trans (by rw [none]; rfl)
    · exact (if_neg one).trans (by rw [none]; rfl)
  · refine ⟨fun length => ?_, fun length => ⟨fun taken => ?_, fun vacant => ⟨fun bad => ?_, fun le ne => ⟨fun shares => ?_,
      fun apart => ⟨fun number => ?_, fun p number => ⟨fun invalid => ?_, fun valid => ⟨fun missing => ?_, fun master =>
        ⟨fun none => ?_, fun salt zero => ?_⟩⟩⟩⟩⟩⟩⟩⟩
    · refine ⟨_, rfl, entry_refused (n := 1) ready clean (served_serveEnrol (profiles := True) e input _) ?_ nofun⟩
      rw [serveEnrol, slotOf_some slot]
      exact withBlock_length length _ _ _
    · exact enrol_refused ready clean slot length (if_pos taken) (by decide)
    · exact enrol_refused ready clean slot length (enrolChecked_badRange vacant bad) (by decide)
    · exact enrol_refused ready clean slot length (enrolChecked_overlap vacant le ne shares) (by decide)
    · exact enrol_refused ready clean slot length (enrolChecked_badProfile vacant le ne apart number) (by decide)
    · exact enrol_refused ready clean slot length (enrolChecked_empty vacant le ne apart number invalid) (by decide)
    · exact enrol_refused ready clean slot length (enrolChecked_noMaster vacant le ne apart number valid missing) (by decide)
    · refine enrol_refused ready clean slot length ((enrolChecked_key (s := s.accessed env 2 []) vacant le ne apart number valid master).trans ?_) (by decide)
      exact congrArg (enrolUnwrapped k e _ p _) none
    · refine enrol_refused ready clean slot length ((enrolChecked_key (s := s.accessed env 2 []) vacant le ne apart number valid master).trans ?_) (by decide)
      exact (congrArg (enrolUnwrapped k e _ p _) zero).trans (by rw [enrolUnwrapped, if_pos rfl])
  · refine ⟨fun length => ?_, fun length => ⟨fun vacant => ?_, fun quarantined => ?_, fun enrolled keyed => ⟨fun free => ?_,
      fun held => ⟨fun bad => ?_, fun le ne => ⟨fun shares => ?_, fun apart => ⟨fun number => ?_, fun p number invalid => ?_⟩⟩⟩⟩⟩⟩
    · refine ⟨_, rfl, entry_refused (n := 1) ready clean (served_serveSetLink (profiles := True) e input _) ?_ nofun⟩
      rw [serveSetLink, slotOf_some slot]
      exact withBlock_length length _ _ _
    · exact setLink_refused ready clean slot length (if_pos vacant) (by decide)
    · have checked : setLinkChecked k (parseLinkBlock input) (s.accessed env 2 []) =
          (slotResult k.val .quarantined .none, s.accessed env 2 []) :=
        (if_neg (fun vacant => by rw [show (s.link k).state = _ from vacant] at quarantined; cases quarantined)).trans
          (if_pos quarantined)
      exact setLink_refused ready clean slot length checked (by decide)
    · exact setLink_refused ready clean slot length (setLinkChecked_notHeld enrolled keyed free) (by decide)
    · exact setLink_refused ready clean slot length (setLinkChecked_badRange enrolled keyed held bad) (by decide)
    · exact setLink_refused ready clean slot length (setLinkChecked_overlap enrolled keyed held le ne shares) (by decide)
    · exact setLink_refused ready clean slot length (setLinkChecked_badProfile enrolled keyed held le ne apart number) (by decide)
    · exact setLink_refused ready clean slot length (setLinkChecked_empty enrolled keyed held le ne apart number invalid) (by decide)

end Sys2Proof.Machine
end

