-- ==== Sys2Proof/Proofs/AdminChanges.lean ====
section
/-! PROOFS. What an ENROL and a SET_LINK that pass their checks change. -/

namespace Sys2Proof.Machine
variable {s t own : State} {id : BatchId} {env : Env} {e : WorkEntry} {input : List Byte} {k : Slot} {b : LinkBlock} {p : ProfileNumber}

theorem EntryDone.link {r : EntryResult} {output : List HostWrite} (done : EntryDone id s t r output own) (k : Slot) :
    t.link k = own.link k := by
  have links : t.links = own.links := by have same := congrArg State.links done.inner; exact same
  rw [State.link, links, State.link]

/-! ## The Branch Map -/

/-- In a rising list, the triples that hold a branch number are one triple. -/
theorem holder_unique {m : List Triple} (rising : m.Pairwise fun u v => u.last < v.first) {u v : Triple} (hu : u ∈ m) (hv : v ∈ m)
    {n : Nat} (inU : u.first ≤ n ∧ n ≤ u.last) (inV : v.first ≤ n ∧ n ≤ v.last) : u = v := by
  by_contra ne
  rcases List.pairwise_iff_getElem.1 rising with below
  obtain ⟨i, hi, rfl⟩ := List.getElem_of_mem hu
  obtain ⟨j, hj, rfl⟩ := List.getElem_of_mem hv
  rcases Nat.lt_trichotomy i j with lt | same | gt
  · have := below i j hi hj lt
    omega
  · subst same
    exact ne rfl
  · have := below j i hj hi gt
    omega

theorem lookupBranch_iff {m : List Triple} (rising : m.Pairwise fun u v => u.last < v.first) (n : Nat) (k : Slot) :
    lookupBranch m n = some k ↔ ∃ u ∈ m, u.slot = k ∧ u.first ≤ n ∧ n ≤ u.last := by
  rw [lookupBranch, Option.map_eq_some_iff]
  constructor
  · rintro ⟨u, found, slot⟩
    have holds : (decide (u.first ≤ n) && decide (n ≤ u.last)) = true :=
      List.find?_some (p := fun t : Triple => decide (t.first ≤ n) && decide (n ≤ t.last)) found
    rw [Bool.and_eq_true, decide_eq_true_eq, decide_eq_true_eq] at holds
    exact ⟨u, List.mem_of_find?_eq_some found, slot, holds⟩
  · rintro ⟨u, mem, slot, holds⟩
    cases found : m.find? fun t => t.first ≤ n && n ≤ t.last with
    | none =>
      have missing := List.find?_eq_none.1 found u mem
      rw [Bool.and_eq_true, decide_eq_true_eq, decide_eq_true_eq] at missing
      exact absurd holds missing
    | some v =>
      have inV : (decide (v.first ≤ n) && decide (n ≤ v.last)) = true :=
        List.find?_some (p := fun t : Triple => decide (t.first ≤ n) && decide (n ≤ t.last)) found
      rw [Bool.and_eq_true, decide_eq_true_eq, decide_eq_true_eq] at inV
      rw [holder_unique rising mem (List.mem_of_find?_eq_some found) holds inV] at slot
      exact ⟨v, rfl, slot⟩

/-! ## ENROL -/

/-- An admission leaves a link in DUE or EXCHANGE where it is in one of them. -/
theorem inTurn_admitUpTo (i : Nat) (s : State) (k : Slot) (turn : (s.link k).renewal = .due ∨ (s.link k).renewal = .exchange) :
    ((admitUpTo i s).link k).renewal = .due ∨ ((admitUpTo i s).link k).renewal = .exchange := by
  induction i generalizing s with
  | zero => exact turn
  | succ i ih =>
    have drawn := (beside_drawMany 6 s).link k
    unfold admitUpTo
    split
    · split
      · rename_i n j _ _ _ _ d0 d1 d2 d3 d4 d5 u eq
        rw [eq] at drawn
        apply ih
        unfold admitInto
        dsimp only
        obtain ⟨q, taken⟩ := tryOriginate_links (joinSendOrder n (((removeDue j u).setRecord n
          (admittedRecord (u.link j) j (keyOfDraws d0 d1 d2 d3) d4 d5)).modLink j (Link.withRenewal .exchange 0))) k
        refine Eq.mpr (congrArg (fun l : Link => l.renewal = .due ∨ l.renewal = .exchange) taken) ?_
        have link : (joinSendOrder n (((removeDue j u).setRecord n
            (admittedRecord (u.link j) j (keyOfDraws d0 d1 d2 d3) d4 d5)).modLink j (Link.withRenewal .exchange 0))).link k =
            if k = j then (u.link j).withRenewal .exchange 0 else u.link k := State.link_setLink _ _ _ _
        rw [link]
        split
        · exact .inr rfl
        · rw [drawn]
          exact turn
      · rename_i eq
        rw [eq] at drawn
        rw [drawn]
        exact turn
    · exact turn

theorem inTurn_joinDue (k : Slot) (sec : Section) (s : State) :
    ((joinDue k sec s).link k).renewal = .due ∨ ((joinDue k sec s).link k).renewal = .exchange := by
  refine inTurn_admitUpTo 16 _ k (.inl ?_)
  have link : ((appendDue k sec s).modLink k (Link.withRenewal .due 0)).link k =
      ((appendDue k sec s).link k).withRenewal .due 0 := State.link_setLink_same _ _ _
  rw [link]
  rfl

theorem insert_clear {t : Triple} {m : List Triple} (apart : ∀ u ∈ m, ¬ (t.first ≤ u.last ∧ u.first ≤ t.last)) :
    m.any (rangesShare t.first t.last) = false := by
  rw [← Bool.not_eq_true, any_rangesShare_iff]
  exact fun ⟨u, mem, share⟩ => apart u mem share

/-- Settles O40: the checks of `enrolChecked_key` pass, and the join leaves the link where ENROL put it. -/
theorem enrolMakesTheLink : Obligations.EnrolMakesTheLink := by
  refine ⟨fun _ => rfl, fun m t rising ranges => ⟨lookupBranch_iff rising, fun range apart =>
    ⟨pairwise_insertTriple rising ranges range (insert_clear apart), insertTriple_perm t m⟩⟩, ?_⟩
  intro id e input env s k p rootKey salt ready clean b slot length vacant le ne apart number valid master unwraps nonzero l mapped
  have checked : enrolChecked k e b (s.accessed env 2 []) =
      (slotResult k.val .ok .none, enrolLink k b p rootKey (entryFlag0 e) (s.accessed env 2 [])) := by
    refine (enrolChecked_key (s := s.accessed env 2 []) vacant le ne apart number valid master).trans ?_
    refine (congrArg (enrolUnwrapped k e b p (s.accessed env 2 [])) unwraps).trans ?_
    rw [enrolUnwrapped, if_neg nonzero]
  have does : serveEnrol e input (s.accessed env 1 []) =
      (slotResult k.val .ok .none, joinDue k .urgent (mapped.setLink k l)) := by
    rw [serveEnrol, slotOf_some slot]
    exact (withBlock_accessed length clean _ _).trans checked
  have done := entry_done ready clean (served_serveEnrol (profiles := True) e input _) does nofun
    (output := []) (quiet_joinDue k .urgent _).posted
  have left := done.link k
  refine ⟨_, rfl, done, ?_, ?_⟩
  · have kept := turning_turned.joinDue k .urgent (mapped.setLink k l) k
    have start : (mapped.setLink k l).link k = l := State.link_setLink_same _ _ _
    rw [start] at kept
    have state := congrArg Link.state kept
    exact (congrArg Link.state left).trans state
  · rw [left]
    exact inTurn_joinDue k .urgent _

/-! ## SET_LINK -/

/-- A SET_LINK's range and profile in the Branch Map and the record. -/
def placedLink (k : Slot) (b : LinkBlock) (p : ProfileNumber) (s : State) : State :=
  { s with
    branchMap := if s.rangeOf k = (b.first, b.last) then s.branchMap
      else insertTriple ⟨b.first, b.last, k⟩ (s.branchMap.filter fun u => u.slot ≠ k) }.setLink k
    (relinkedRecord b (decide (s.rangeOf k = (b.first, b.last))) p (s.link k))

theorem relink_eq (k : Slot) (b : LinkBlock) (p : ProfileNumber) (s : State) : relink k b p s =
    dueCheck k .joinsOnly (if (s.link k).profile = p then placedLink k b p s else reexamine k (placedLink k b p s)) := by
  have placed : (if decide (s.rangeOf k = (b.first, b.last)) = true then s
        else setBranchMap (replaceTriple k b.first b.last s.branchMap) s).modLink k
      (relinkedRecord b (decide (s.rangeOf k = (b.first, b.last))) p) = placedLink k b p s := by
    unfold placedLink
    by_cases same : s.rangeOf k = (b.first, b.last)
    · rw [if_pos (decide_eq_true same), if_pos same]
      rfl
    · rw [if_neg (by rw [decide_eq_false same]; decide), if_neg same]
      rfl
  unfold relink
  dsimp only
  rw [placed]

/-- The record as it is written: as it was, or with its code taken on by difference. -/
theorem relinkedRecord_eq (b : LinkBlock) (c : Prop) [Decidable c] (p : ProfileNumber) (l moved : Link)
    (moves : moved = if c then { l with profile := p } else { l with first := b.first, last := b.last, profile := p }) :
    relinkedRecord b (decide c) p l = if c ∧ l.profile = p then l
      else { moved with checkCode := l.checkCode ^^^ (freshCode l ^^^ freshCode moved) } := by
  subst moves
  by_cases same : c
  · by_cases named : l.profile = p
    · simp [relinkedRecord, same, named]
    · simp [relinkedRecord, Link.recodeBy, same, named]
  · simp [relinkedRecord, Link.recodeBy, same]

/-- Settles O42: the checks of `setLinkChecked_passes` pass, and the changes are those of `relink_eq`. -/
theorem setLinkMovesTheRange : Obligations.SetLinkMovesTheRange := by
  intro id e input env s k p ready clean b l slot length enrolled keyed held le ne apart number valid same moved written mapped placed
  refine ⟨fun nodup u mem of => mapRange_of_nodup nodup mem of _, ?_⟩
  have there : placedLink k b p (s.accessed env 2 []) = placed :=
    congrArg (mapped.setLink k) (relinkedRecord_eq b same p l moved rfl)
  have does : serveSetLink e input (s.accessed env 1 []) =
      (slotResult k.val .ok .none, dueCheck k .joinsOnly (if l.profile = p then placed else reexamine k placed)) := by
    rw [serveSetLink, slotOf_some slot]
    refine (withBlock_accessed length clean _ _).trans ?_
    refine (setLinkChecked_passes (s := s.accessed env 2 []) enrolled keyed held le ne apart number valid).trans ?_
    rw [relink_eq]
    rw [there]
    rfl
  have quiet : Quiet placed (dueCheck k .joinsOnly (if l.profile = p then placed else reexamine k placed)) :=
    (Quiet.ite (.refl _) (quiet_reexamine k _)).trans (quiet_dueCheck k _ _)
  exact ⟨_, rfl, entry_done ready clean (served_serveSetLink (profiles := True) e input _) does nofun quiet.posted⟩
end Sys2Proof.Machine
end

