-- ==== Sys2Proof/Proofs/Holds.lean ====
section
/-! PROOFS. HOLD, RELEASE and RENEW_NOW, on one slot and on the all-links number. -/

namespace Sys2Proof.Machine
variable {s t own other : State} {id : BatchId} {env : Env} {e : WorkEntry} {k : Slot} {r : EntryResult}

/-! ## Marks -/

theorem heldRecord_same (l : Link) : heldRecord l = l ↔ l.hostHold = true := by
  constructor
  · intro same
    have mark := congrArg Link.hostHold same
    exact mark.symm
  · intro held
    rw [heldRecord, ← held]

theorem releasedRecord_same (host supervisor : Bool) (l : Link) : releasedRecord host supervisor l = l ↔
    (host = true → l.hostHold = false) ∧ (supervisor = true → l.supervisorHold = false) := by
  constructor
  · intro same
    have first : (l.hostHold && !host) = l.hostHold := congrArg Link.hostHold same
    have second : (l.supervisorHold && !supervisor) = l.supervisorHold := congrArg Link.supervisorHold same
    constructor
    · intro named
      rw [← first, named]
      simp
    · intro named
      rw [← second, named]
      simp
  · rintro ⟨host_, supervisor_⟩
    have first : (l.hostHold && !host) = l.hostHold := by
      cases host
      · simp
      · rw [host_ rfl]
        rfl
    have second : (l.supervisorHold && !supervisor) = l.supervisorHold := by
      cases supervisor
      · simp
      · rw [supervisor_ rfl]
        rfl
    rw [releasedRecord, first, second]

theorem markOne_vacant (h : (s.link k).state = .vacant) (f : Link → Link) :
    markOne k f s = (slotResult k.val .notEnrolled .none, s) := if_pos h

theorem markOne_same {f : Link → Link} (h : (s.link k).state ≠ .vacant) (same : f (s.link k) = s.link k) :
    markOne k f s = (slotResult k.val .ok .unchanged, s) := (if_neg h).trans (if_pos same)

theorem markOne_changed {f : Link → Link} (h : (s.link k).state ≠ .vacant) (changed : f (s.link k) ≠ s.link k) :
    markOne k f s = (slotResult k.val .ok .none, s.modLink k f) := (if_neg h).trans (if_neg changed)

theorem serveHold_one (slot : e.slotField.toNat = k.val) (s : State) : serveHold e s = markOne k heldRecord s := by
  rw [serveHold, if_neg (not_allLinks slot), slotOf_some slot]

theorem serveRelease_one (slot : e.slotField.toNat = k.val) (s : State) : serveRelease e s =
    if entryFlag0 e || entryFlag1 e then markOne k (releasedRecord (entryFlag0 e) (entryFlag1 e)) s
    else (slotResult k.val .malformed .flags, s) := by
  unfold serveRelease
  dsimp only
  rw [if_neg (not_allLinks slot), slotOf_some slot]

theorem serveHold_all (all : e.slotField = 1023) (s : State) :
    serveHold e s = (allLinksResult s.enrolledSlots.length, onEnrolled heldRecord s) := if_pos all

theorem serveRelease_all (all : e.slotField = 1023) (s : State) : serveRelease e s =
    if entryFlag0 e || entryFlag1 e then
      (allLinksResult s.enrolledSlots.length, onEnrolled (releasedRecord (entryFlag0 e) (entryFlag1 e)) s)
    else (slotResult allLinks.toNat .malformed .flags, s) := by
  unfold serveRelease
  dsimp only
  rw [if_pos (show e.slotField = allLinks from all)]

theorem heldRecord_twice (l : Link) : heldRecord (heldRecord l) = heldRecord l := rfl

theorem releasedRecord_twice (host supervisor : Bool) (l : Link) :
    releasedRecord host supervisor (releasedRecord host supervisor l) = releasedRecord host supervisor l := by
  simp only [releasedRecord, Bool.and_assoc, Bool.and_self]

/-- The marks of every enrolled link changed, as an entry. -/
theorem marked_all (ready : s.ready id) (clean : cleanEnv env) {request : State → EntryResult × State} {f : Link → Link}
    (keeps : KeepsKeys f) (twice : ∀ l, f (f l) = f l)
    (does : ∀ s : State, request s = (allLinksResult s.enrolledSlots.length, onEnrolled f s)) :
    ∃ own, EntryDone id s (serveEntry request env s) ⟨.ok, .none, 0, 1023, 0, (allSlots.filter s.enrolled).length⟩ [] own ∧
      own = { s with links := own.links } ∧
      ∀ k, own.link k = if (s.link k).state = .vacant then s.link k else f (s.link k) := by
  have quiet := quiet_onEnrolled keeps (s.accessed env 1 [])
  have link (k : Slot) := onEnrolled_link twice (s.accessed env 1 []) k
  have result := does (s.accessed env 1 [])
  have count : (s.accessed env 1 []).enrolledSlots.length = (allSlots.filter s.enrolled).length := rfl
  have whole := onEnrolled_eq f (s.accessed env 1 [])
  rw [count] at result
  generalize (allSlots.filter s.enrolled).length = count at result
  generalize onEnrolled f (s.accessed env 1 []) = marked at quiet link result whole
  have served : Served True True (s.accessed env 1 []) (request (s.accessed env 1 [])).2 := by
    rw [result]
    exact quiet.served
  have done := entry_done ready clean served result nofun quiet.posted
  refine ⟨{ s with links := marked.links }, done.of_inner ?_, rfl, link⟩
  rw [whole]
  rfl

/-- Settles O44: the marks of a link change or stay as `heldRecord_same` and `releasedRecord_same` say. -/
theorem holdAndReleaseMoveMarks : Obligations.HoldAndReleaseMoveMarks := by
  refine ⟨⟨rfl, fun s k => by rw [State.enrolled, decide_eq_true_eq]⟩, fun id e env s k ready clean slot => ?_,
    fun id e env s ready clean all => ?_⟩
  · intro l host supervisor hold release
    have holds {r : EntryResult} {other own : State} (does : markOne k heldRecord (s.accessed env 1 []) = (r, other))
        (ok : r.status ≠ .busFault) (posted : other.posted = []) (inner : other.inner = own.inner) : hold r own :=
      ⟨_, rfl, (entry_done ready clean (served_serveHold (map := True) (profiles := True) e _)
        ((serveHold_one slot _).trans does) ok posted).of_inner inner⟩
    have named (h : host = true ∨ supervisor = true) : (entryFlag0 e || entryFlag1 e) = true := by rw [Bool.or_eq_true]; exact h
    have releases {r : EntryResult} {other own : State} (h : host = true ∨ supervisor = true)
        (does : markOne k (releasedRecord host supervisor) (s.accessed env 1 []) = (r, other))
        (ok : r.status ≠ .busFault) (posted : other.posted = []) (inner : other.inner = own.inner) : release r own :=
      ⟨_, rfl, (entry_done ready clean (served_serveRelease (map := True) (profiles := True) e _)
        ((serveRelease_one slot _).trans ((if_pos (named h)).trans does)) ok posted).of_inner inner⟩
    refine ⟨fun vacant => ?_, fun enrolled held => ?_, fun enrolled free => ?_, fun none1 none2 => ?_,
      fun h => ⟨fun vacant => ?_, fun enrolled first second => ?_, fun enrolled some => ?_⟩⟩
    · exact holds (markOne_vacant (s := s.accessed env 1 []) vacant _) nofun rfl rfl
    · exact holds (markOne_same (s := s.accessed env 1 []) enrolled ((heldRecord_same _).2 held)) nofun rfl rfl
    · have changed : ¬ heldRecord l = l := by rw [heldRecord_same, free]; decide
      exact holds (markOne_changed (s := s.accessed env 1 []) enrolled changed) nofun rfl rfl
    · have unnamed : ¬ (entryFlag0 e || entryFlag1 e) = true := by
        rw [Bool.or_eq_true, show entryFlag0 e = false from none1, show entryFlag1 e = false from none2]
        decide
      exact ⟨_, rfl, entry_refused (n := 1) ready clean (served_serveRelease (map := True) (profiles := True) e _)
        ((serveRelease_one slot _).trans (if_neg unnamed)) nofun⟩
    · exact releases h (markOne_vacant (s := s.accessed env 1 []) vacant _) nofun rfl rfl
    · exact releases h (markOne_same (s := s.accessed env 1 []) enrolled ((releasedRecord_same _ _ _).2 ⟨first, second⟩)) nofun rfl rfl
    · have changed : ¬ releasedRecord host supervisor l = l := by
        rw [releasedRecord_same]
        rintro ⟨first, second⟩
        rcases some with ⟨marks, held⟩ | ⟨marks, held⟩
        · rw [first marks] at held
          cases held
        · rw [second marks] at held
          cases held
      exact releases h (markOne_changed (s := s.accessed env 1 []) enrolled changed) nofun rfl rfl
  · intro host supervisor count done
    refine ⟨?_, fun h => ?_, fun none1 none2 => ?_⟩
    · obtain ⟨own, finish, rest⟩ := marked_all ready clean keeps_heldRecord heldRecord_twice (serveHold_all all)
      exact ⟨_, own, rfl, finish, rest⟩
    · have named : (entryFlag0 e || entryFlag1 e) = true := by rw [Bool.or_eq_true]; exact h
      obtain ⟨own, finish, rest⟩ := marked_all ready clean (keeps_releasedRecord host supervisor)
        (releasedRecord_twice host supervisor) (fun s => (serveRelease_all all s).trans (if_pos named))
      exact ⟨_, own, rfl, finish, rest⟩
    · have unnamed : ¬ (entryFlag0 e || entryFlag1 e) = true := by
        rw [Bool.or_eq_true, show entryFlag0 e = false from none1, show entryFlag1 e = false from none2]
        decide
      exact ⟨_, rfl, entry_refused (n := 1) ready clean (served_serveRelease (map := True) (profiles := True) e _)
        ((serveRelease_all all _).trans (if_neg unnamed)) nofun⟩

/-! ## RENEW_NOW -/

/-- A link that a RENEW_NOW on the all-links number makes join. -/
def Link.renews (l : Link) : Prop :=
  (l.state = .standby ∨ l.state = .live ∨ l.state = .stalled) ∧ (l.renewal = .idle ∨ l.renewal = .rest)

theorem renewOneOfAll_joins {c : Nat × State} (h : (c.2.link k).renews) : renewOneOfAll c k = (c.1 + 1, joinDue k .ordinary c.2) := by
  obtain ⟨state, renewal⟩ := h
  have inUse : ¬ ((c.2.link k).state = .vacant ∨ (c.2.link k).state = .quarantined) := by
    rcases state with h | h | h <;> rw [h] <;> decide
  rw [renewOneOfAll, if_neg inUse, forcedJoin_joins renewal]

theorem renewOneOfAll_passes {c : Nat × State} (h : ¬ (c.2.link k).renews) : renewOneOfAll c k = c := by
  unfold renewOneOfAll
  split
  · rfl
  · rename_i inUse
    have state : (c.2.link k).state = .standby ∨ (c.2.link k).state = .live ∨ (c.2.link k).state = .stalled := by
      cases st : (c.2.link k).state with
      | vacant => exact absurd (.inl st) inUse
      | quarantined => exact absurd (.inr st) inUse
      | standby => exact .inl rfl
      | live => exact .inr (.inl rfl)
      | stalled => exact .inr (.inr rfl)
    cases renewal : (c.2.link k).renewal with
    | idle => exact absurd ⟨state, .inl renewal⟩ h
    | rest => exact absurd ⟨state, .inr renewal⟩ h
    | exchange => rw [forcedJoin_exchange renewal]
    | due => rw [forcedJoin_due renewal, if_neg fun both => nomatch both.1]

/-- The walk of a RENEW_NOW on the all-links number, by what each link is. -/
theorem renewAll_eq (s : State) (joins : Link → Prop) [DecidablePred joins] (same : ∀ l, joins l ↔ l.renews) :
    renewAll s = (allSlots.filter s.enrolled).foldl
      (fun (c : Nat × State) k => if joins (c.2.link k) then (c.1 + 1, joinDue k .ordinary c.2) else c) (0, s) := by
  have one : renewOneOfAll = fun (c : Nat × State) k => if joins (c.2.link k) then (c.1 + 1, joinDue k .ordinary c.2) else c := by
    funext c k
    by_cases h : joins (c.2.link k)
    · rw [renewOneOfAll_joins ((same _).1 h), if_pos h]
    · rw [renewOneOfAll_passes fun r => h ((same _).2 r), if_neg h]
  rw [renewAll, one]
  rfl

/-- While no admission is possible, the links that join stand behind those that were there. -/
theorem renewal_walk (joins : Link → Prop) [DecidablePred joins] (walk : List Slot) (once : walk.Nodup) (c : Nat × State)
    (blocked : c.2.freeRecord = none ∨ c.2.device.randomFault = true) :
    let u := walk.foldl (fun (c : Nat × State) k => if joins (c.2.link k) then (c.1 + 1, joinDue k .ordinary c.2) else c) c
    let joined := walk.filter fun k => joins (c.2.link k)
    u.1 = c.1 + joined.length ∧ u.2.dueList = ⟨c.2.dueList.urgent, c.2.dueList.ordinary ++ joined⟩ := by
  induction walk generalizing c with
  | nil => exact ⟨rfl, by rw [List.filter_nil, List.append_nil]; rfl⟩
  | cons k walk ih =>
    obtain ⟨fresh, once⟩ := List.nodup_cons.1 once
    intro u joined
    by_cases h : joins (c.2.link k)
    · have none : ({ c.2 with dueList := ⟨c.2.dueList.urgent, c.2.dueList.ordinary ++ [k]⟩ }.setLink k
          { c.2.link k with renewal := .due, restTimer := 0 }).admitsNone := blocked.imp id fun fault => .inr fault
      have join : joinDue k .ordinary c.2 = { c.2 with dueList := ⟨c.2.dueList.urgent, c.2.dueList.ordinary ++ [k]⟩ }.setLink k
          { c.2.link k with renewal := .due, restTimer := 0 } := (joinDue_ordinary k c.2).trans (admitUpTo_none none 16)
      have rest := ih once (c.1 + 1, joinDue k .ordinary c.2) (by rw [join]; exact blocked)
      have others : (walk.filter fun j => joins ((joinDue k .ordinary c.2).link j)) = walk.filter fun j => joins (c.2.link j) := by
        refine List.filter_congr fun j mem => ?_
        have ne : j ≠ k := fun same => fresh (same ▸ mem)
        rw [join, State.link_setLink_ne _ _ ne]
        rfl
      have whole : joined = k :: walk.filter fun j => joins (c.2.link j) := List.filter_cons_of_pos (by simpa using h)
      have next : u = walk.foldl (fun (c : Nat × State) k => if joins (c.2.link k) then (c.1 + 1, joinDue k .ordinary c.2) else c)
          (c.1 + 1, joinDue k .ordinary c.2) := by
        show List.foldl _ _ (k :: walk) = _
        rw [List.foldl_cons, if_pos h]
      rw [next, whole]
      dsimp only at rest
      rw [others] at rest
      refine ⟨rest.1.trans ?_, rest.2.trans ?_⟩
      · rw [List.length_cons]
        omega
      · rw [join]
        show DueList.mk c.2.dueList.urgent (c.2.dueList.ordinary ++ [k] ++ _) = _
        rw [List.append_assoc]
        rfl
    · have whole : joined = walk.filter fun j => joins (c.2.link j) := List.filter_cons_of_neg (by simpa using h)
      have next : u = walk.foldl (fun (c : Nat × State) k => if joins (c.2.link k) then (c.1 + 1, joinDue k .ordinary c.2) else c)
          c := by
        show List.foldl _ _ (k :: walk) = _
        rw [List.foldl_cons, if_neg h]
      rw [next, whole]
      exact ih once c blocked

theorem allSlots_once : allSlots.Nodup := List.nodup_finRange 512

/-- The walk over enrolled links, while no admission is possible. -/
theorem renewal_walk_enrolled (joins : Link → Prop) [DecidablePred joins] (inUse : ∀ l, joins l → l.state ≠ .vacant)
    (slots : List Slot) (once : slots.Nodup) (s given : State) (links : given.links = s.links) (dueList : given.dueList = s.dueList)
    (blocked : given.freeRecord = none ∨ given.device.randomFault = true) :
    let u := (slots.filter s.enrolled).foldl
      (fun (c : Nat × State) k => if joins (c.2.link k) then (c.1 + 1, joinDue k .ordinary c.2) else c) (0, given)
    let joined := slots.filter fun k => joins (s.link k)
    u.1 = joined.length ∧ u.2.dueList = ⟨s.dueList.urgent, s.dueList.ordinary ++ joined⟩ := by
  intro u joined
  obtain ⟨number, list⟩ := renewal_walk joins (slots.filter s.enrolled) (once.filter _) (0, given) blocked
  have same : (slots.filter s.enrolled).filter (fun k => joins (given.link k)) = joined := by
    rw [List.filter_filter]
    refine List.filter_congr fun k _ => ?_
    rw [link_congr links]
    by_cases h : joins (s.link k)
    · have enrolled : s.enrolled k = true := decide_eq_true (inUse _ h)
      rw [enrolled, Bool.and_true]
    · rw [decide_eq_false h, Bool.false_and]
  rw [same] at number list
  rw [dueList] at list
  exact ⟨number.trans (Nat.zero_add _), list⟩

theorem serveRenewNow_one (slot : e.slotField.toNat = k.val) (enrolled : (s.link k).state ≠ .vacant)
    (keyed : (s.link k).state ≠ .quarantined) :
    serveRenewNow e s = (slotResult k.val .ok (forcedJoin k .urgent s).1.detail, (forcedJoin k .urgent s).2) := by
  rw [serveRenewNow, if_neg (not_allLinks slot), slotOf_some slot]
  dsimp only
  cases state : (s.link k).state with
  | vacant => exact absurd state enrolled
  | quarantined => exact absurd state keyed
  | _ => rfl

theorem serveRenewNow_vacant (slot : e.slotField.toNat = k.val) (vacant : (s.link k).state = .vacant) :
    serveRenewNow e s = (slotResult k.val .notEnrolled .none, s) := by
  rw [serveRenewNow, if_neg (not_allLinks slot), slotOf_some slot]
  dsimp only
  rw [vacant]

theorem serveRenewNow_quarantined (slot : e.slotField.toNat = k.val) (quarantined : (s.link k).state = .quarantined) :
    serveRenewNow e s = (slotResult k.val .quarantined .none, s) := by
  rw [serveRenewNow, if_neg (not_allLinks slot), slotOf_some slot]
  dsimp only
  rw [quarantined]

theorem serveRenewNow_all (all : e.slotField = 1023) (s : State) :
    serveRenewNow e s = (allLinksResult (renewAll s).1, (renewAll s).2) := by
  have number : e.slotField = allLinks := all
  unfold serveRenewNow
  rw [if_pos number]

/-- Settles O45: by link state and renewal state, and the walk by what each link is. -/
theorem renewNowForcesJoins : Obligations.RenewNowForcesJoins := by
  intro id e env s ready clean done given
  have finish {r : EntryResult} {other own : State} (does : serveRenewNow e given = (r, other)) (ok : r.status ≠ .busFault)
      (posted : other.posted = []) (inner : other.inner = own.inner) : done r own :=
    ⟨_, rfl, (entry_done ready clean (served_serveRenewNow (map := True) (profiles := True) e _) does ok posted).of_inner inner⟩
  refine ⟨fun k slot => ?_, fun all => ?_⟩
  · intro l
    refine ⟨fun vacant => finish (serveRenewNow_vacant slot vacant) nofun rfl rfl,
      fun quarantined => finish (serveRenewNow_quarantined slot quarantined) nofun rfl rfl, fun enrolled keyed => ?_⟩
    have one := serveRenewNow_one (s := given) slot enrolled keyed
    refine ⟨fun joins => ?_, fun due listed => ?_, fun due absent => ?_, fun exchange => ?_⟩
    · rw [forcedJoin_joins (s := given) joins] at one
      exact finish one nofun (quiet_joinDue k .urgent given).posted rfl
    · rw [forcedJoin_due (s := given) due, if_pos ⟨rfl, listed⟩] at one
      exact finish one nofun rfl rfl
    · rw [forcedJoin_due (s := given) due, if_neg fun both => absent both.2] at one
      exact finish one nofun rfl rfl
    · rw [forcedJoin_exchange (s := given) exchange] at one
      exact finish one nofun rfl rfl
  · intro joins walk joined
    have does := serveRenewNow_all (e := e) all given
    have walked : renewAll given = walk := renewAll_eq given joins fun _ => .rfl
    have posted : walk.2.posted = [] := by
      rw [← walked]
      exact (quiet_renewAll given).posted
    rw [walked] at does
    refine ⟨finish does nofun posted rfl, fun blocked => ?_⟩
    have inUse (l : Link) (h : joins l) : l.state ≠ .vacant := by
      obtain ⟨state, -⟩ := h
      rcases state with h | h | h <;> rw [h] <;> decide
    have key := renewal_walk_enrolled joins inUse allSlots allSlots_once s given rfl rfl blocked
    have whole : walk = List.foldl (fun (c : Nat × State) k => if joins (c.2.link k) then (c.1 + 1, joinDue k .ordinary c.2) else c) (0, given) (allSlots.filter s.enrolled) := rfl
    have behind : joined = allSlots.filter (fun k => joins (s.link k)) := rfl
    rw [whole, behind]
    exact key

end Sys2Proof.Machine
end

