-- ==== Sys2Proof/Proofs/Reads.lean ====
section
/-! PROOFS. The READ requests: the layouts of their records, what they write and what they clear. -/

namespace Sys2Proof.Machine
variable {s t own other : State} {id : BatchId} {env : Env} {e : WorkEntry} {k : Slot} {r : EntryResult}

/-! ## The link summary -/

/-- The fields of a link summary ahead of its renewal record. -/
def summaryFields (l : Link) : List (Nat × Nat) :=
  [(1, l.state.code), (1, holdMarks l), (1, l.profile.val), (1, l.renewal.code), (2, l.first), (2, l.last), (2, l.silence),
    (2, l.restTimer), (4, l.rate), (4, l.periodCount), (4, l.checkCode.toNat), (4, l.rootSequence), (4, l.rootWindow.high),
    (8, l.rootWindow.map.toNat), (1, l.current.state.code), (1, l.current.generation), (2, 0), (4, l.current.use),
    (4, l.current.age), (4, l.current.budget), (4, l.current.ageLimit), (4, l.nextSequence), (4, l.current.window.high),
    (8, l.current.window.map.toNat), (1, l.retiring.state.code), (1, l.retiring.generation), (1, l.retireTimer), (1, 0),
    (4, l.retiring.use), (4, l.retiring.age), (4, l.retiring.budget), (4, l.retiring.ageLimit), (4, l.retiring.window.high),
    (8, l.retiring.window.map.toNat)]

/-- The fields of a renewal record in a link summary. -/
def summaryRecord (n : RecordNumber) (r : RenewalRecord) : List (Nat × Nat) :=
  [(1, n.val), (1, r.generation), (1, r.attempt), (1, r.state.code), (1, if r.offerQueued then 1 else 0),
    (1, r.lastRefusal.code), (1, r.replyTimer), (1, 0), (12, 0)]

theorem linkSummary_eq (s : State) (k : Slot) :
    linkSummary s k = layout (summaryFields (s.link k)) ++ (renewalBytes s k ++ zeroBytes 12) := by
  unfold linkSummary
  dsimp only
  generalize renewalBytes s k = rest
  generalize zeroBytes 12 = last
  generalize s.link k = l
  simp only [summaryFields, layout_cons, layout_nil]
  simp only [windowBytes, zeroBytes_eq, List.append_nil]
  simp only [List.append_assoc]

theorem summaryFields_sizes (l : Link) : (summaryFields l).map Prod.fst =
    [1, 1, 1, 1, 2, 2, 2, 2, 4, 4, 4, 4, 4, 8, 1, 1, 2, 4, 4, 4, 4, 4, 4, 8, 1, 1, 1, 1, 4, 4, 4, 4, 4, 8] := rfl

theorem linkSummary_none (none : s.recordOf k = none) :
    linkSummary s k = layout (summaryFields (s.link k) ++ [(1, 0xFF), (6, 0), (1, 0), (12, 0)]) := by
  rw [linkSummary_eq, renewalBytes, none, layout_append]
  rfl

theorem linkSummary_some {n : RecordNumber} (some : s.recordOf k = some n) :
    linkSummary s k = layout (summaryFields (s.link k) ++ summaryRecord n s.records[n]) := by
  rw [linkSummary_eq, renewalBytes, some, layout_append]
  simp only [flagByte_eq, zeroBytes_eq, summaryRecord, layout, List.flatMap_cons, List.flatMap_nil, List.append_nil,
    List.append_assoc]

theorem renewalBytes_length (s : State) (k : Slot) : (renewalBytes s k).length = 8 := by
  unfold renewalBytes
  split
  · rfl
  · simp [leBytes_length, zeroBytes]

/-! ## The fault copy -/

/-- A number of two bytes found among others of two bytes. -/
theorem bytesAt_pairs {head : List Byte} {values : List Nat} {o i v : Nat} (rest : List Byte) (long : head.length = o)
    (here : values[i]? = some v) : bytesAt (head ++ ((values.flatMap (leBytes 2)) ++ rest)) (o + 2 * i) 2 = leBytes 2 v := by
  obtain ⟨inside, e⟩ := List.getElem?_eq_some_iff.1 here
  have split : values.flatMap (leBytes 2) =
      (values.take i).flatMap (leBytes 2) ++ (leBytes 2 v ++ (values.drop (i + 1)).flatMap (leBytes 2)) := by
    conv_lhs => rw [← List.take_append_drop i values, List.drop_eq_getElem_cons inside, e]
    rw [List.flatMap_append, List.flatMap_cons]
  have before : (head ++ (values.take i).flatMap (leBytes 2)).length = o + 2 * i := by
    have pairs (l : List Nat) : (l.flatMap (leBytes 2)).length = 2 * l.length := by
      induction l with
      | nil => rfl
      | cons a l ih => rw [List.flatMap_cons, List.length_append, ih, leBytes_length, List.length_cons]; omega
    rw [List.length_append, pairs, List.length_take, long, Nat.min_eq_left (by omega)]
  have whole : head ++ ((values.flatMap (leBytes 2)) ++ rest) = head ++ (values.take i).flatMap (leBytes 2) ++
      (leBytes 2 v ++ ((values.drop (i + 1)).flatMap (leBytes 2) ++ rest)) := by
    rw [split]
    simp only [List.append_assoc]
  rw [whole]
  exact bytesAt_part before (leBytes_length 2 v)

/-- Bytes within a part of a list. -/
theorem bytesAt_within {a b c : List Byte} {o j n : Nat} (long : a.length = o) (inside : j + n ≤ b.length) :
    bytesAt (a ++ (b ++ c)) (o + j) n = bytesAt b j n := by
  subst long
  refine List.map_congr_left fun i mem => ?_
  have lt : i < n := List.mem_range.1 mem
  rw [List.getD_eq_getElem?_getD, List.getD_eq_getElem?_getD, List.getElem?_append_right (by omega),
    List.getElem?_append_left (by omega)]
  congr 2
  omega

theorem bytesAt_bytesAt (bs : List Byte) {j n m : Nat} (inside : j + n ≤ m) : bytesAt (bytesAt bs 0 m) j n = bytesAt bs j n := by
  refine List.map_congr_left fun i mem => ?_
  have lt : i < n := List.mem_range.1 mem
  rw [List.getD_eq_getElem?_getD, getElem?_bytesAt bs 0 (by omega), Nat.zero_add]
  rfl

theorem bytesAt_beyond {bs : List Byte} {o : Nat} (beyond : bs.length ≤ o) (n : Nat) : bytesAt bs o n = leBytes n 0 := by
  rw [← zeroBytes_eq, zeroBytes, List.eq_replicate_iff]
  refine ⟨bytesAt_length bs o n, fun b mem => ?_⟩
  obtain ⟨i, -, rfl⟩ := List.mem_map.1 mem
  exact List.getD_eq_default _ _ (by omega)

/-- The fields of a fault copy ahead of its counters, and between its scores and its codes. -/
theorem faultCopy_eq (l : Link) : faultCopy l =
    layout [(2, activeStates l), (2, overflowMarks l)] ++ ((l.kinds.toList.map KindRecord.counter).flatMap (leBytes 2) ++
      (l.scores.toList.flatMap (leBytes 2) ++ (layout [(2, l.silence), (1, l.shopCodes.length), (3, 0)] ++
        (shopCodeBytes l.shopCodes ++ layout [(28, 0)])))) := by
  unfold faultCopy counterBytes
  rw [List.flatMap_map]
  generalize shopCodeBytes l.shopCodes = codes
  simp only [layout_cons, layout_nil]
  simp only [zeroBytes_eq, List.append_nil]
  simp only [List.append_assoc]

theorem pairs_length (values : List Nat) : (values.flatMap (leBytes 2)).length = 2 * values.length := by
  induction values with
  | nil => rfl
  | cons a values ih =>
    rw [List.flatMap_cons, List.length_append, ih, leBytes_length, List.length_cons]
    omega

theorem counters_length (l : Link) : ((l.kinds.toList.map KindRecord.counter).flatMap (leBytes 2)).length = 18 := by
  rw [pairs_length, List.length_map, Vector.length_toList]

theorem scores_length (l : Link) : (l.scores.toList.flatMap (leBytes 2)).length = 8 := by
  rw [pairs_length, Vector.length_toList]

theorem shopCodeBytes_length (codes : List ShopCode) : (shopCodeBytes codes).length = 32 := bytesAt_length _ _ _

/-- The bytes of a list of codes. -/
def codeBytes (codes : List ShopCode) : List Byte := codes.flatMap fun c => leBytes 2 c.code ++ leBytes 2 c.sum

theorem codeBytes_length (codes : List ShopCode) : (codeBytes codes).length = 4 * codes.length := by
  unfold codeBytes
  induction codes with
  | nil => rfl
  | cons c codes ih =>
    rw [List.flatMap_cons, List.length_append, ih, List.length_append, leBytes_length, leBytes_length, List.length_cons]
    omega

/-- A code of the list in its place. -/
theorem codeBytes_at {codes : List ShopCode} {i : Nat} {c : ShopCode} (here : codes[i]? = some c) :
    bytesAt (codeBytes codes) (4 * i) 2 = leBytes 2 c.code ∧ bytesAt (codeBytes codes) (4 * i + 2) 2 = leBytes 2 c.sum := by
  obtain ⟨inside, e⟩ := List.getElem?_eq_some_iff.1 here
  have before : (codeBytes (codes.take i)).length = 4 * i := by
    rw [codeBytes_length, List.length_take, Nat.min_eq_left (by omega)]
  have whole : codeBytes codes =
      codeBytes (codes.take i) ++ (leBytes 2 c.code ++ (leBytes 2 c.sum ++ codeBytes (codes.drop (i + 1)))) := by
    conv_lhs => rw [codeBytes, ← List.take_append_drop i codes, List.drop_eq_getElem_cons inside, e]
    rw [List.flatMap_append, List.flatMap_cons, List.append_assoc]
    rfl
  constructor
  · rw [whole]
    exact bytesAt_part before (leBytes_length 2 _)
  · rw [whole, ← List.append_assoc]
    exact bytesAt_part (by rw [List.length_append, before, leBytes_length]) (leBytes_length 2 _)

/-- The part of a fault copy that holds its codes. -/
theorem faultCopy_codes (l : Link) {j n : Nat} (inside : j + n ≤ 32) :
    bytesAt (faultCopy l) (36 + j) n = bytesAt (codeBytes l.shopCodes) j n := by
  have whole : faultCopy l = (layout [(2, activeStates l), (2, overflowMarks l)] ++
      ((l.kinds.toList.map KindRecord.counter).flatMap (leBytes 2) ++ (l.scores.toList.flatMap (leBytes 2) ++
        layout [(2, l.silence), (1, l.shopCodes.length), (3, 0)]))) ++ (shopCodeBytes l.shopCodes ++ layout [(28, 0)]) := by
    rw [faultCopy_eq]
    simp only [List.append_assoc]
  rw [whole, bytesAt_within (o := 36) ?_ (by rw [shopCodeBytes_length]; exact inside)]
  · exact bytesAt_bytesAt _ inside
  · rw [List.length_append, List.length_append, List.length_append, counters_length, scores_length, layout_length, layout_length]
    rfl

/-- A field ends within its layout. -/
theorem layout_fits {fields : List (Nat × Nat)} {i n v : Nat} (f : fields[i]? = some (n, v)) :
    ((fields.take i).map Prod.fst).sum + n ≤ (layout fields).length := by
  obtain ⟨inside, e⟩ := List.getElem?_eq_some_iff.1 f
  have whole : fields = fields.take i ++ ((n, v) :: fields.drop (i + 1)) := by
    conv_lhs => rw [← List.take_append_drop i fields, List.drop_eq_getElem_cons inside, e]
  have sum := congrArg (fun l : List (Nat × Nat) => (l.map Prod.fst).sum) whole
  rw [List.map_append, List.sum_append, List.map_cons, List.sum_cons] at sum
  rw [layout_length, sum]
  omega

/-- The part of a fault copy between its scores and its codes. -/
theorem faultCopy_between (l : Link) {o n v : Nat} (i : Nat)
    (f : ([(2, l.silence), (1, l.shopCodes.length), (3, 0)] : List (Nat × Nat))[i]? = some (n, v))
    (offset : 30 + ((([(2, l.silence), (1, l.shopCodes.length), (3, 0)] : List (Nat × Nat)).take i).map Prod.fst).sum = o) :
    bytesAt (faultCopy l) o n = leBytes n v := by
  have whole : faultCopy l = (layout [(2, activeStates l), (2, overflowMarks l)] ++
      ((l.kinds.toList.map KindRecord.counter).flatMap (leBytes 2) ++ l.scores.toList.flatMap (leBytes 2))) ++
        (layout [(2, l.silence), (1, l.shopCodes.length), (3, 0)] ++ (shopCodeBytes l.shopCodes ++ layout [(28, 0)])) := by
    rw [faultCopy_eq]
    simp only [List.append_assoc]
  have before : (layout [(2, activeStates l), (2, overflowMarks l)] ++
      ((l.kinds.toList.map KindRecord.counter).flatMap (leBytes 2) ++ l.scores.toList.flatMap (leBytes 2))).length = 30 := by
    rw [List.length_append, List.length_append, counters_length, scores_length, layout_length]
    rfl
  have fits : (((([(2, l.silence), (1, l.shopCodes.length), (3, 0)] : List (Nat × Nat)).take i).map Prod.fst).sum) + n ≤
      (layout [(2, l.silence), (1, l.shopCodes.length), (3, 0)]).length := layout_fits f
  subst offset
  rw [whole, bytesAt_within before fits]
  exact bytesAt_layout i f rfl

theorem faultCopy_last (l : Link) : bytesAt (faultCopy l) 68 28 = leBytes 28 0 := by
  have whole : faultCopy l = (layout [(2, activeStates l), (2, overflowMarks l)] ++
      ((l.kinds.toList.map KindRecord.counter).flatMap (leBytes 2) ++ (l.scores.toList.flatMap (leBytes 2) ++
        (layout [(2, l.silence), (1, l.shopCodes.length), (3, 0)] ++ shopCodeBytes l.shopCodes)))) ++ (leBytes 28 0 ++ []) := by
    rw [faultCopy_eq]
    simp only [List.append_assoc]
    rfl
  rw [whole]
  refine bytesAt_part ?_ (leBytes_length 28 0)
  simp only [List.length_append, counters_length, scores_length, shopCodeBytes_length, layout_length]
  rfl

/-! ## The device summary -/

/-- The fields of the device summary. -/
def deviceFields (s : State) : List (Nat × Nat) :=
  [(4, s.settings.period), (1, s.settings.tailRoom), (1, if s.settings.drive = .pushPull then 1 else 0),
    (1, if s.settings.polarity = .activeHigh then 1 else 0), (1, if s.settings.source = .block then 1 else 0), (1, s.deviceFlags),
    (1, 0), (2, s.device.unknownBranchCount), (1, s.recordsInUse), (1, 0), (2, s.dueLength), (2, s.dueList.urgent.length),
    (1, s.sendOrder.length), (1, s.queue.length), (1, noticeCount s.queue), (1, s.validProfiles), (2, s.enrolledSlots.length),
    (2, s.quarantinedLinks), (2, s.walkPosition.val), (36, 0)]

theorem flagByte_decide (p : Prop) [Decidable p] : [flagByte (decide p)] = leBytes 1 (if p then 1 else 0) := by
  by_cases h : p
  · rw [decide_eq_true h, if_pos h]
    rfl
  · rw [decide_eq_false h, if_neg h]
    rfl

theorem deviceSummary_eq_layout (s : State) : deviceSummary s = layout (deviceFields s) := by
  unfold deviceSummary deviceFields
  generalize s.enrolledSlots.length = enrolled
  generalize s.quarantinedLinks = quarantined
  generalize s.validProfiles = valid
  simp only [layout_cons, layout_nil]
  simp only [flagByte_decide, zeroBytes_eq, List.append_nil]
  simp only [List.append_assoc]

theorem enrolled_count (s : State) :
    s.enrolledSlots.length = 512 - (allSlots.filter fun k => (s.link k).state = .vacant).length := by
  have both : (allSlots.filter fun k => (s.link k).state = .vacant).length + s.enrolledSlots.length = allSlots.length := by
    rw [State.enrolledSlots]
    generalize allSlots = slots
    induction slots with
    | nil => rfl
    | cons k slots ih =>
      by_cases vacant : (s.link k).state = .vacant
      · rw [List.filter_cons_of_pos (by simpa using vacant), List.filter_cons_of_neg (by simp [State.enrolled, vacant]),
          List.length_cons, List.length_cons]
        omega
      · rw [List.filter_cons_of_neg (by simpa using vacant), List.filter_cons_of_pos (by simp [State.enrolled, vacant]),
          List.length_cons, List.length_cons]
        omega
  have all : allSlots.length = 512 := List.length_finRange
  omega

/-! ## The entries -/

theorem linkSummary_length (s : State) (k : Slot) : (linkSummary s k).length = 128 := by
  rw [linkSummary_eq, List.length_append, List.length_append, layout_length, summaryFields_sizes, renewalBytes_length]
  rfl

theorem faultCopy_length (l : Link) : (faultCopy l).length = 96 := by
  rw [faultCopy_eq]
  simp only [List.length_append, counters_length, scores_length, shopCodeBytes_length, layout_length]
  rfl

theorem deviceSummary_length (s : State) : (deviceSummary s).length = 64 := by
  have sizes : (deviceFields s).map Prod.fst = [4, 1, 1, 1, 1, 1, 1, 2, 1, 1, 2, 2, 1, 1, 1, 1, 2, 2, 2, 36] := rfl
  rw [deviceSummary_eq_layout, layout_length, sizes]
  rfl

theorem linkSummary_accessed (s : State) (env : Env) (n : Nat) (k : Slot) : linkSummary (s.accessed env n []) k = linkSummary s k := by
  rw [linkSummary_eq, linkSummary_eq]
  rfl

theorem deviceSummary_accessed (s : State) (env : Env) (n : Nat) : deviceSummary (s.accessed env n []) = deviceSummary s := by
  rw [deviceSummary_eq_layout, deviceSummary_eq_layout]
  rfl

theorem withOutput_granted (granted : s.granted 1) (bytes : List Byte) (good failed : EntryResult) (clear : State → State) :
    withOutput e bytes good failed clear s =
      ({ good with outputLength := bytes.length }, clear (s.wrote 1 [⟨e.outputAddress, bytes⟩])) := by
  unfold withOutput
  rw [hostWrite_granted granted]
  rfl

theorem withOutput_accessed (clean : cleanEnv env) (s : State) (bytes : List Byte) (good failed : EntryResult) (clear : State → State) :
    withOutput e bytes good failed clear (s.accessed env 1 []) =
      ({ good with outputLength := bytes.length }, clear (s.accessed env 2 [⟨e.outputAddress, bytes⟩])) := by
  rw [withOutput_granted (State.granted_of_clean (accessed_clean clean s 1 []) 1), accessed_wrote]
  rfl

theorem serveReadLink_room (slot : e.slotField.toNat = k.val) (short : e.outputRoom.toNat < 128) :
    serveReadLink e s = (slotResult k.val .noRoom .none, s) := by
  rw [serveReadLink, slotOf_some slot]
  exact if_pos short

theorem serveReadLink_vacant (slot : e.slotField.toNat = k.val) (room : 128 ≤ e.outputRoom.toNat) (vacant : (s.link k).state = .vacant) :
    serveReadLink e s = (slotResult k.val .notEnrolled .none, s) := by
  rw [serveReadLink, slotOf_some slot]
  exact (if_neg (by omega)).trans (if_pos vacant)

theorem serveReadLink_reads (slot : e.slotField.toNat = k.val) (room : 128 ≤ e.outputRoom.toNat) (enrolled : (s.link k).state ≠ .vacant) :
    serveReadLink e s = withOutput e (linkSummary s k)
      { slotResult k.val .ok .none with generation := (s.link k).current.generation } (slotResult k.val .busFault .write) (fun t => t) s := by
  rw [serveReadLink, slotOf_some slot]
  exact (if_neg (by omega)).trans (if_neg enrolled)

theorem serveReadFaults_room (slot : e.slotField.toNat = k.val) (short : e.outputRoom.toNat < 96) :
    serveReadFaults e s = (slotResult k.val .noRoom .none, s) := by
  rw [serveReadFaults, slotOf_some slot]
  exact if_pos short

theorem serveReadFaults_vacant (slot : e.slotField.toNat = k.val) (room : 96 ≤ e.outputRoom.toNat) (vacant : (s.link k).state = .vacant) :
    serveReadFaults e s = (slotResult k.val .notEnrolled .none, s) := by
  rw [serveReadFaults, slotOf_some slot]
  exact (if_neg (by omega)).trans (if_pos vacant)

theorem serveReadFaults_reads (slot : e.slotField.toNat = k.val) (room : 96 ≤ e.outputRoom.toNat) (enrolled : (s.link k).state ≠ .vacant) :
    serveReadFaults e s = withOutput e (faultCopy (s.link k)) (slotResult k.val .ok .none) (slotResult k.val .busFault .write)
      (fun s => if entryFlag0 e then s.modLink k clearedCounters else s) s := by
  rw [serveReadFaults, slotOf_some slot]
  exact (if_neg (by omega)).trans (if_neg enrolled)

theorem cleared_posted {clear : State → State} (flag : Bool) (keeps : ∀ s, (clear s).posted = s.posted) (s : State) :
    (if flag then clear s else s).posted = s.posted := by
  cases flag
  · rfl
  · exact keeps s

theorem inner_ite {c : Prop} [Decidable c] {a b x y : State} (yes : a.inner = x.inner) (no : b.inner = y.inner) :
    (if c then a else b).inner = (if c then x else y).inner := by
  by_cases h : c
  · rw [if_pos h, if_pos h, yes]
  · rw [if_neg h, if_neg h, no]

theorem setLink_inner (h : t.inner = s.inner) (k : Slot) (l : Link) : (t.setLink k l).inner = (s.setLink k l).inner := by
  have same := congrArg (fun u : State => u.setLink k l) h
  exact same

theorem clearedCounters_inner (h : t.inner = s.inner) (k : Slot) :
    (t.modLink k clearedCounters).inner = (s.setLink k (clearedCounters (s.link k))).inner := by
  have links : t.links = s.links := by have e := congrArg State.links h; exact e
  rw [State.modLink, link_congr links]
  exact setLink_inner h k _

theorem modDevice_inner (h : t.inner = s.inner) (f : DeviceFaults → DeviceFaults) : (t.modDevice f).inner = (s.modDevice f).inner := by
  have same := congrArg (fun u : State => u.modDevice f) h
  exact same

theorem clearDeviceCounts_inner (h : t.inner = s.inner) : (clearDeviceCounts t).inner = (clearDeviceCounts s).inner :=
  modDevice_inner h _

theorem accessed_inner (s : State) (env : Env) (n : Nat) (ws : List HostWrite) : (s.accessed env n ws).inner = s.inner := rfl

/-- A READ request, with what its clear option makes of the state. -/
theorem entry_cleared (ready : s.ready id) (clean : cleanEnv env) {request : State → EntryResult × State} {clear : State → State}
    {w : HostWrite} {c : Bool} (served : ∀ s, Served True True s (request s).2)
    (does : request (s.accessed env 1 []) = (r, if c then clear (s.accessed env 2 [w]) else s.accessed env 2 [w]))
    (ok : r.status ≠ .busFault) (keeps : ∀ s, (clear s).posted = s.posted)
    (inner : (clear (s.accessed env 2 [w])).inner = other.inner) :
    EntryDone id s (serveEntry request env s) r [w] (if c then other else s) := by
  have done := entry_done ready clean (served _) does ok (cleared_posted (clear := clear) c keeps _)
  exact done.of_inner (inner_ite inner rfl)

section
variable (ready : s.ready id) (clean : cleanEnv env)
include ready clean

theorem readLink_done (slot : e.slotField.toNat = k.val) (room : 128 ≤ e.outputRoom.toNat) (enrolled : (s.link k).state ≠ .vacant) :
    EntryDone id s (serveEntry (serveReadLink e) env s) ⟨.ok, .none, 128, k.val, (s.link k).current.generation, 0⟩
      [⟨e.outputAddress, linkSummary s k⟩] s := by
  have reads := serveReadLink_reads (s := s.accessed env 1 []) slot room enrolled
  rw [withOutput_accessed clean, linkSummary_accessed, linkSummary_length] at reads
  generalize linkSummary s k = bytes at reads ⊢
  exact (entry_done ready clean (served_serveReadLink (map := True) (profiles := True) e _) reads nofun
    (accessed_posted s env 2 _)).of_inner (accessed_inner s env 2 _)

theorem readFaults_done (slot : e.slotField.toNat = k.val) (room : 96 ≤ e.outputRoom.toNat) (enrolled : (s.link k).state ≠ .vacant) :
    EntryDone id s (serveEntry (serveReadFaults e) env s) ⟨.ok, .none, 96, k.val, 0, 0⟩ [⟨e.outputAddress, faultCopy (s.link k)⟩]
      (if entryFlag0 e then s.setLink k (clearedCounters (s.link k)) else s) := by
  have reads := serveReadFaults_reads (s := s.accessed env 1 []) slot room enrolled
  have link : (s.accessed env 1 []).link k = s.link k := rfl
  rw [withOutput_accessed clean, faultCopy_length, link] at reads
  exact entry_cleared (clear := fun u => u.modLink k clearedCounters) ready clean (served_serveReadFaults e) reads nofun (fun _ => rfl) (clearedCounters_inner (accessed_inner s env _ _) k)

theorem readDevice_done (room : 64 ≤ e.outputRoom.toNat) :
    EntryDone id s (serveEntry (serveReadDevice e) env s) ⟨.ok, .none, 64, 0xFFFF, 0, 0⟩ [⟨e.outputAddress, deviceSummary s⟩]
      (if entryFlag0 e then clearDeviceCounts s else s) := by
  have reads : serveReadDevice e (s.accessed env 1 []) = withOutput e (deviceSummary (s.accessed env 1 [])) (.bare .ok .none)
      (.bare .busFault .write) (fun s => if entryFlag0 e then clearDeviceCounts s else s) (s.accessed env 1 []) :=
    if_neg (by omega)
  rw [withOutput_accessed clean, deviceSummary_accessed, deviceSummary_length] at reads
  exact entry_cleared (clear := clearDeviceCounts) ready clean (served_serveReadDevice e) reads nofun (fun _ => rfl) (clearDeviceCounts_inner (accessed_inner s env _ _))

end

/-! ## Fields in their places -/

theorem linkSummary_field {o n v : Nat} (i : Nat) (f : (summaryFields (s.link k))[i]? = some (n, v))
    (offset : ((([1, 1, 1, 1, 2, 2, 2, 2, 4, 4, 4, 4, 4, 8, 1, 1, 2, 4, 4, 4, 4, 4, 4, 8, 1, 1, 1, 1, 4, 4, 4, 4, 4, 8] : List Nat)).take i).sum
      = o) : bytesAt (linkSummary s k) o n = leBytes n v := by
  rw [linkSummary_eq]
  exact bytesAt_layout_append i _ f (by rw [List.map_take, summaryFields_sizes]; exact offset)

/-- A field behind those of the link, in a summary of a link with or without a renewal record. -/
theorem linkSummary_behind {behind : List (Nat × Nat)} (whole : linkSummary s k = layout (summaryFields (s.link k) ++ behind))
    {o n v : Nat} (i : Nat) (f : behind[i]? = some (n, v)) (offset : 108 + ((behind.take i).map Prod.fst).sum = o) :
    bytesAt (linkSummary s k) o n = leBytes n v := by
  have long : (summaryFields (s.link k)).length = 34 := rfl
  have size : ((summaryFields (s.link k)).map Prod.fst).sum = 108 := by rw [summaryFields_sizes]; rfl
  rw [whole]
  refine bytesAt_layout (34 + i) ?_ ?_
  · rw [List.getElem?_append_right (by omega), long, Nat.add_sub_cancel_left]
    exact f
  · rw [List.take_append, long, Nat.add_sub_cancel_left, List.take_of_length_le (by omega), List.map_append, List.sum_append, size]
    exact offset

theorem linkSummary_spare (s : State) (k : Slot) :
    bytesAt (linkSummary s k) 115 1 = leBytes 1 0 ∧ bytesAt (linkSummary s k) 116 12 = leBytes 12 0 := by
  cases record : s.recordOf k with
  | none =>
    have whole := linkSummary_none record
    exact ⟨linkSummary_behind whole 2 rfl rfl, linkSummary_behind whole 3 rfl rfl⟩
  | some m =>
    have whole := linkSummary_some record
    exact ⟨linkSummary_behind whole 7 rfl rfl, linkSummary_behind whole 8 rfl rfl⟩

theorem deviceSummary_field {o n v : Nat} (i : Nat) (f : (deviceFields s)[i]? = some (n, v))
    (offset : ((([4, 1, 1, 1, 1, 1, 1, 2, 1, 1, 2, 2, 1, 1, 1, 1, 2, 2, 2, 36] : List Nat)).take i).sum = o) :
    bytesAt (deviceSummary s) o n = leBytes n v := by
  rw [deviceSummary_eq_layout]
  exact bytesAt_sized i f rfl offset

/-- Settles O46: each record as a layout of its fields, written where there is room for it. -/
theorem readsWriteTheirRecords : Obligations.ReadsWriteTheirRecords := by
  refine ⟨fun id e env s ready clean => ?_, fun s k => ?_, fun l => ?_, fun s => ?_⟩
  · intro clear done refused
    refine ⟨fun k slot => ⟨fun short => ?_, fun room vacant => ?_, fun room enrolled => ⟨_, rfl, readLink_done ready clean slot room enrolled⟩,
      fun short => ?_, fun room vacant => ?_, fun room enrolled => ⟨_, rfl, readFaults_done ready clean slot room enrolled⟩⟩,
      fun short => ?_, fun room => ⟨_, rfl, readDevice_done ready clean room⟩⟩
    · exact ⟨_, rfl, entry_refused (n := 1) ready clean (served_serveReadLink (map := True) (profiles := True) e _)
        (serveReadLink_room slot short) nofun⟩
    · exact ⟨_, rfl, entry_refused (n := 1) ready clean (served_serveReadLink (map := True) (profiles := True) e _)
        (serveReadLink_vacant (s := s.accessed env 1 []) slot room vacant) nofun⟩
    · exact ⟨_, rfl, entry_refused (n := 1) ready clean (served_serveReadFaults (map := True) (profiles := True) e _)
        (serveReadFaults_room slot short) nofun⟩
    · exact ⟨_, rfl, entry_refused (n := 1) ready clean (served_serveReadFaults (map := True) (profiles := True) e _)
        (serveReadFaults_vacant (s := s.accessed env 1 []) slot room vacant) nofun⟩
    · exact ⟨_, rfl, entry_refused (n := 1) ready clean (served_serveReadDevice (map := True) (profiles := True) e _) (if_pos short) nofun⟩
  · have marks : bytesAt (linkSummary s k) 1 1 = leBytes 1 (holdMarks (s.link k)) := linkSummary_field 1 rfl rfl
    obtain ⟨last, spare⟩ := linkSummary_spare s k
    rw [holdMarks_eq] at marks
    refine ⟨linkSummary_length s k, linkSummary_field 0 rfl rfl, marks, linkSummary_field 2 rfl rfl, linkSummary_field 3 rfl rfl,
      linkSummary_field 4 rfl rfl, linkSummary_field 5 rfl rfl, linkSummary_field 6 rfl rfl, linkSummary_field 7 rfl rfl,
      linkSummary_field 8 rfl rfl, linkSummary_field 9 rfl rfl, linkSummary_field 10 rfl rfl, linkSummary_field 11 rfl rfl,
      linkSummary_field 12 rfl rfl, linkSummary_field 13 rfl rfl, linkSummary_field 14 rfl rfl, linkSummary_field 15 rfl rfl,
      linkSummary_field 16 rfl rfl, linkSummary_field 17 rfl rfl, linkSummary_field 18 rfl rfl, linkSummary_field 19 rfl rfl,
      linkSummary_field 20 rfl rfl, linkSummary_field 21 rfl rfl, linkSummary_field 22 rfl rfl, linkSummary_field 23 rfl rfl,
      linkSummary_field 24 rfl rfl, linkSummary_field 25 rfl rfl, linkSummary_field 26 rfl rfl, linkSummary_field 27 rfl rfl,
      linkSummary_field 28 rfl rfl, linkSummary_field 29 rfl rfl, linkSummary_field 30 rfl rfl, linkSummary_field 31 rfl rfl,
      linkSummary_field 32 rfl rfl, linkSummary_field 33 rfl rfl, last, spare, fun none => ?_, fun m some_ => ?_⟩
    · have whole := linkSummary_none none
      exact ⟨linkSummary_behind whole 0 rfl rfl, linkSummary_behind whole 1 rfl rfl⟩
    · have whole := linkSummary_some some_
      exact ⟨linkSummary_behind whole 0 rfl rfl, linkSummary_behind whole 1 rfl rfl, linkSummary_behind whole 2 rfl rfl,
        linkSummary_behind whole 3 rfl rfl, linkSummary_behind whole 4 rfl rfl, linkSummary_behind whole 5 rfl rfl,
        linkSummary_behind whole 6 rfl rfl⟩
  · have head {o n v : Nat} (i : Nat) (f : ([(2, activeStates l), (2, overflowMarks l)] : List (Nat × Nat))[i]? = some (n, v))
        (offset : (([(2, activeStates l), (2, overflowMarks l)].take i).map Prod.fst).sum = o) : bytesAt (faultCopy l) o n = leBytes n v := by
      rw [faultCopy_eq]
      exact bytesAt_layout_append i _ f offset
    have active (i : Nat) : (ofLe (bytesAt (faultCopy l) 0 2)).testBit i = (l.kinds.toList.map KindRecord.active).getD i false := by
      have flags : bytesAt (faultCopy l) 0 2 = leBytes 2 (activeStates l) := head 0 rfl rfl
      rw [flags, activeStates]
      exact testBit_field (by simp) i
    have overflow (i : Nat) : (ofLe (bytesAt (faultCopy l) 2 2)).testBit i = (l.kinds.toList.map KindRecord.overflow).getD i false := by
      have marks : bytesAt (faultCopy l) 2 2 = leBytes 2 (overflowMarks l) := head 1 rfl rfl
      rw [marks, overflowMarks]
      exact testBit_field (by simp) i
    refine ⟨faultCopy_length l, fun i => ⟨(active i).trans (getD_kinds l KindRecord.active i),
      (overflow i).trans (getD_kinds l KindRecord.overflow i), ?_⟩, fun i high => ⟨?_, ?_⟩, fun i => ?_, faultCopy_between l 0 rfl rfl,
      faultCopy_between l 1 rfl rfl, faultCopy_between l 2 rfl rfl, fun i low => ⟨fun unused => ?_, fun c used => ?_⟩, ?_⟩
    · rw [faultCopy_eq]
      exact bytesAt_pairs (o := 4) _ (layout_length _) (by simp)
    · exact (active i).trans (List.getD_eq_default _ _ (by simpa using high))
    · exact (overflow i).trans (List.getD_eq_default _ _ (by simpa using high))
    · rw [faultCopy_eq, ← List.append_assoc]
      exact bytesAt_pairs (o := 22) _ (by rw [List.length_append, counters_length, layout_length]; rfl) (by simp)
    · refine (faultCopy_codes l (by omega)).trans (bytesAt_beyond ?_ 4)
      rw [codeBytes_length]
      have beyond := List.getElem?_eq_none_iff.1 unused
      omega
    · have place : 38 + 4 * i = 36 + (4 * i + 2) := by omega
      obtain ⟨code, sum⟩ := codeBytes_at used
      refine ⟨(faultCopy_codes l (by omega)).trans code, ?_⟩
      rw [place]
      exact (faultCopy_codes l (by omega)).trans sum
    · exact faultCopy_last l
  · refine ⟨deviceSummary_length s, deviceSummary_field 0 rfl rfl, deviceSummary_field 1 rfl rfl, deviceSummary_field 2 rfl rfl,
      deviceSummary_field 3 rfl rfl, deviceSummary_field 4 rfl rfl, deviceSummary_field 5 rfl rfl, deviceSummary_field 6 rfl rfl,
      deviceSummary_field 7 rfl rfl, deviceSummary_field 8 rfl rfl, deviceSummary_field 9 rfl rfl, deviceSummary_field 10 rfl rfl,
      deviceSummary_field 11 rfl rfl, deviceSummary_field 12 rfl rfl, deviceSummary_field 13 rfl rfl, deviceSummary_field 14 rfl rfl,
      ?_, ?_, deviceSummary_field 17 rfl rfl, deviceSummary_field 18 rfl rfl, deviceSummary_field 19 rfl rfl⟩
    · rw [← List.countP_eq_length_filter]
      exact deviceSummary_field 15 rfl rfl
    · rw [← enrolled_count]
      exact deviceSummary_field 16 rfl rfl

end Sys2Proof.Machine
end

