-- ==== Sys2Proof/Proofs/Retires.lean ====
section
/-! PROOFS. RETIRE: its parts, and the slot it leaves VACANT with nothing of the link anywhere. -/

namespace Sys2Proof.Machine
variable {s t own : State} {id : BatchId} {env : Env} {e : WorkEntry} {k : Slot}

/-! ## The record and the items of a link -/

theorem recordOf_none_iff : s.recordOf k = none ↔ ∀ n : RecordNumber, ¬ (s.records[n].state ≠ .free ∧ s.records[n].slot = k) := by
  rw [State.recordOf, List.find?_eq_none]
  exact ⟨fun h n => by simpa using h n (List.mem_finRange n), fun h n _ => by simpa using h n⟩

theorem recordOf_some_iff {n : RecordNumber} : s.recordOf k = some n ↔ (s.records[n].state ≠ .free ∧ s.records[n].slot = k) ∧
    ∀ m : RecordNumber, m < n → ¬ (s.records[m].state ≠ .free ∧ s.records[m].slot = k) := by
  rw [State.recordOf, allRecordNumbers, find?_finRange_eq_some]
  simp

theorem isItemOf_iff (k : Slot) (it : Item) :
    isItemOf k it = true ↔ (∃ packet, it = .offer k packet) ∨ ∃ n, it = .notice n ∧ n.link = some k := by
  cases it with
  | offer j packet => simp [isItemOf, eq_comm]
  | notice n => simp [isItemOf]

/-! ## The parts of a RETIRE -/

/-- A RETIRE before its tries at admission and origination. -/
def retiredState (k : Slot) (s : State) : State :=
  (setBranchMap (removeTriple k (removeItems k (removeDue k (freeRecordOf k s))).branchMap)
    (removeItems k (removeDue k (freeRecordOf k s)))).setLink k .vacant

theorem retireLink_eq (k : Slot) (s : State) : retireLink k s = tryOriginate (tryAdmit (retiredState k s)) := rfl

theorem removedItems_eq (k : Slot) (q : List Item) : q.filter (fun it => !isItemOf k it) = q.filter fun it => isItemOf k it = false :=
  List.filter_congr fun it _ => by cases isItemOf k it <;> rfl

/-- The changes of a RETIRE to a state `u` in which the renewal record has been freed. -/
def retiredFrom (k : Slot) (s u : State) : State :=
  { u with
    dueList := ⟨s.dueList.urgent.filter fun j => j ≠ k, s.dueList.ordinary.filter fun j => j ≠ k⟩
    queue := s.queue.filter fun it => isItemOf k it = false
    branchMap := s.branchMap.filter fun u => u.slot ≠ k }.setLink k .vacant

theorem retiredFrom_eq (k : Slot) {s u : State} (due : u.dueList = s.dueList) (queue : u.queue = s.queue)
    (map : u.branchMap = s.branchMap) :
    (setBranchMap (removeTriple k (removeItems k (removeDue k u)).branchMap) (removeItems k (removeDue k u))).setLink k .vacant =
      retiredFrom k s u := by
  rw [retiredFrom, ← due, ← queue, ← map, ← removedItems_eq]
  rfl

theorem retiredState_free (none : s.recordOf k = none) : retiredState k s = retiredFrom k s s := by
  rw [retiredState, freeRecordOf, none]
  exact retiredFrom_eq k rfl rfl rfl

theorem retiredState_freed {n : RecordNumber} (some : s.recordOf k = some n) : retiredState k s =
    retiredFrom k s { s with records := s.records.set n.val .free, sendOrder := s.sendOrder.filter fun m => m ≠ n } := by
  rw [retiredState, freeRecordOf, some]
  exact retiredFrom_eq k rfl rfl rfl

theorem link_retiredState (k : Slot) (s : State) (j : Slot) : (retiredState k s).link j = if j = k then .vacant else s.link j := by
  have links : (removeItems k (removeDue k (freeRecordOf k s))).links = s.links := freeRecordOf_links k s
  have start (m : List Triple) : (setBranchMap m (removeItems k (removeDue k (freeRecordOf k s)))).link j = s.link j := link_congr links j
  rw [retiredState, State.link_setLink, start]

/-! ## Notices of a link -/

/-- No notice of the link waits on the queue. -/
def Unnoticed (k : Slot) (s : State) : Prop := ∀ n, .notice n ∈ s.queue → n.link ≠ some k

theorem link_of_foldInto {n w m : Notice} (folded : foldInto n (.notice w) = .notice m) : m.link = w.link := by
  rw [foldInto] at folded
  by_cases same : samePair n (.notice w) = true
  · rw [if_pos same] at folded
    injection folded with e
    rw [← e]
  · rw [if_neg same] at folded
    injection folded with e
    rw [← e]

theorem Unnoticed.makeNotice (h : Unnoticed k s) {n : Notice} (other : n.link ≠ some k) : Unnoticed k (makeNotice n s) := by
  unfold Machine.makeNotice
  intro m mem
  split at mem
  · obtain ⟨it, waits, folded⟩ := List.mem_map.1 mem
    cases it with
    | offer j packet => cases folded
    | notice w =>
      rw [link_of_foldInto folded]
      exact h w waits
  · split at mem
    · rw [joinQueue_eq] at mem
      rcases List.mem_append.1 mem with old | new
      · exact h m old
      · cases List.mem_singleton.1 new
        exact other
    · exact h m mem

theorem Unnoticed.raiseDevice (h : Unnoticed k s) (item : DeviceItem) : Unnoticed k (raiseDevice item s) := by
  unfold Machine.raiseDevice
  split
  · exact h
  · exact Unnoticed.makeNotice (s := s.modDevice fun d => d.activate item) h nofun

theorem Unnoticed.of_queue (h : Unnoticed k s) (queue : t.queue = s.queue) : Unnoticed k t := by
  rw [Unnoticed, queue]
  exact h

theorem Unnoticed.draw (h : Unnoticed k s) : Unnoticed k (draw s).2 := by
  have next : Unnoticed k (nextNoise s).2 := h.of_queue (by unfold nextNoise; split <;> rfl)
  unfold Machine.draw
  dsimp only
  split
  · exact Unnoticed.raiseDevice (s := setLastDraw (nextNoise s).1 (nextNoise s).2) next _
  · exact next

theorem Unnoticed.drawMany (h : Unnoticed k s) (n : Nat) : Unnoticed k (drawMany n s).2 := by
  induction n generalizing s with
  | zero => exact h
  | succ n ih =>
    have first := h.draw
    unfold Machine.drawMany
    split
    · rename_i failed
      rw [failed] at first
      exact first
    · rename_i passed
      rw [passed] at first
      have rest := ih first
      split
      · rename_i eq
        rw [eq] at rest
        exact rest
      · rename_i eq
        rw [eq] at rest
        exact rest

theorem Unnoticed.tryOriginate (h : Unnoticed k s) : Unnoticed k (tryOriginate s) := by
  unfold Machine.tryOriginate
  generalize s.sendOrder = order
  induction order generalizing s with
  | nil => exact h
  | cons n order ih =>
    refine ih (s := if canOriginate n s then originateOne n s else s) ?_
    split
    · rw [originateOne_eq]
      intro m mem
      rcases List.mem_append.1 mem with old | new
      · exact h m old
      · cases List.mem_singleton.1 new
    · exact h

theorem Unnoticed.admitUpTo (h : Unnoticed k s) (i : Nat) : Unnoticed k (admitUpTo i s) := by
  induction i generalizing s with
  | zero => exact h
  | succ i ih =>
    have drawn := h.drawMany 6
    unfold Machine.admitUpTo
    split
    · split
      · rename_i eq
        rw [eq] at drawn
        apply ih
        rw [admitInto_eq]
        exact Unnoticed.tryOriginate drawn
      · rename_i eq
        rw [eq] at drawn
        exact drawn
    · exact h

/-! ## What is left -/

theorem retiredState_apart (k : Slot) (s : State) : (retiredState k s).Apart k .vacant ∧ Unnoticed k (retiredState k s) := by
  have shape : ∃ u, retiredState k s = retiredFrom k s u := by
    cases record : s.recordOf k with
    | none => exact ⟨_, retiredState_free record⟩
    | some n => exact ⟨_, retiredState_freed record⟩
  have link := (link_retiredState k s k).trans (if_pos rfl)
  obtain ⟨u, whole⟩ := shape
  rw [whole] at link ⊢
  have items (it : Item) (mem : it ∈ (retiredFrom k s u).queue) : isItemOf k it = false := by
    have kept := (List.mem_filter.1 mem).2
    simpa using kept
  refine ⟨⟨link, ?_, fun mem => ?_⟩, fun n mem of => ?_⟩
  · show k ∉ s.dueList.urgent.filter (fun j => j ≠ k) ++ s.dueList.ordinary.filter (fun j => j ≠ k)
    simp
  · obtain ⟨it, waits, offers⟩ := List.mem_filterMap.1 mem
    have none := items it waits
    cases it with
    | notice n => cases offers
    | offer j packet =>
      cases offers
      simp [isItemOf] at none
  · have none := items _ mem
    rw [(isItemOf_iff k _).2 (.inr ⟨n, rfl, of⟩)] at none
    cases none

theorem retireLink_apart (k : Slot) (s : State) : (retireLink k s).Apart k .vacant ∧ Unnoticed k (retireLink k s) := by
  obtain ⟨apart, unnoticed⟩ := retiredState_apart k s
  rw [retireLink_eq]
  exact ⟨apart.tries rfl, (unnoticed.admitUpTo 16).tryOriginate⟩

theorem quiet_retireLink (k : Slot) (s : State) : Quiet (retiredState k s) (retireLink k s) :=
  (quiet_tryAdmit _).trans (quiet_tryOriginate _)

theorem retiredState_outer (k : Slot) (s : State) :
    (retiredState k s).posted = s.posted ∧ (retiredState k s).branchMap = s.branchMap.filter fun u => u.slot ≠ k := by
  cases record : s.recordOf k with
  | none =>
    rw [retiredState_free record]
    exact ⟨rfl, rfl⟩
  | some n =>
    rw [retiredState_freed record]
    exact ⟨rfl, rfl⟩

theorem serveRetire_vacant (slot : e.slotField.toNat = k.val) (vacant : (s.link k).state = .vacant) :
    serveRetire e s = (slotResult k.val .ok .wasVacant, s) := by
  rw [serveRetire, slotOf_some slot]
  exact if_pos vacant

theorem serveRetire_retires (slot : e.slotField.toNat = k.val) (enrolled : (s.link k).state ≠ .vacant) :
    serveRetire e s = (slotResult k.val .ok .none, retireLink k s) := by
  rw [serveRetire, slotOf_some slot]
  exact if_neg enrolled

theorem turnoverOk_accessed (ok : s.TurnoverOk) (env : Env) : (s.accessed env 1 []).TurnoverOk :=
  ⟨ok.dueNodup, ok.dueMirror, ok.recordMirror, ok.recordUnique, ok.restTimer, ok.outside, ok.sendNodup, ok.sendMirror, ok.queuedWaits,
    ok.offerNodup, ok.offerMirror⟩

/-- Settles O41: a RETIRE as its parts, and the slot, which is apart after them. -/
theorem retireLeavesNothing : Obligations.RetireLeavesNothing := by
  refine ⟨fun s k => ⟨recordOf_none_iff, fun n => recordOf_some_iff, isItemOf_iff k⟩, ⟨rfl, rfl⟩, fun s k => ?_,
    fun id e env s k ready clean slot => ⟨fun vacant => ⟨_, rfl, ?_⟩, fun enrolled => ⟨_, rfl, ?_⟩⟩⟩
  · intro freed left
    have same : left = retiredState k s := by
      cases record : s.recordOf k with
      | none =>
        rw [retiredState_free record]
        simp only [left, freed, record]
        rfl
      | some n =>
        rw [retiredState_freed record]
        simp only [left, freed, record]
        rfl
    rw [same]
    exact ⟨retireLink_eq k s, (link_retiredState k s k).trans (if_pos rfl), fun j other => (link_retiredState k s j).trans (if_neg other)⟩
  · exact entry_refused (n := 1) ready clean (served_serveRetire (profiles := True) e _)
      (serveRetire_vacant (s := s.accessed env 1 []) slot vacant) nofun
  · have quiet := quiet_retireLink k (s.accessed env 1 [])
    have posted : (retireLink k (s.accessed env 1 [])).posted = [] := by
      rw [quiet.posted, (retiredState_outer _ _).1]
      rfl
    have done := entry_done ready clean (served_serveRetire (profiles := True) e _)
      (serveRetire_retires (s := s.accessed env 1 []) slot enrolled) nofun posted
    obtain ⟨apart, unnoticed⟩ := retireLink_apart k (s.accessed env 1 [])
    have map : (retireLink k (s.accessed env 1 [])).branchMap = s.branchMap.filter fun u => u.slot ≠ k :=
      quiet.branchMap.trans (retiredState_outer k _).2
    have listed (ok : s.TurnoverOk) : (retireLink k (s.accessed env 1 [])).recordOf k = none := by
      have before : (s.accessed env 1 []).TurnoverOk := turnoverOk_accessed ok env
      exact recordOf_none_of_idle ((runs_retireLink (E := noSlots) k _).turnoverOk before) (by rw [apart.link]; rfl)
    have left := done.inner
    generalize retireLink k (s.accessed env 1 []) = own at done apart unnoticed map listed left
    have dueList : (serveEntry (serveRetire e) env s).dueList = own.dueList := by have same := congrArg State.dueList left; exact same
    have branchMap : (serveEntry (serveRetire e) env s).branchMap = own.branchMap := by
      have same := congrArg State.branchMap left; exact same
    have queue : (serveEntry (serveRetire e) env s).queue = own.queue := by have same := congrArg State.queue left; exact same
    have records : (serveEntry (serveRetire e) env s).records = own.records := by have same := congrArg State.records left; exact same
    refine ⟨done, (done.link k).trans apart.link, branchMap.trans map, ?_, fun it mem => ?_, fun ok => ?_⟩
    · rw [dueList]
      exact apart.due
    · rw [queue] at mem
      refine Bool.eq_false_iff.2 fun item => ?_
      rcases (isItemOf_iff k it).1 item with ⟨packet, rfl⟩ | ⟨n, rfl, of⟩
      · exact apart.offers (List.mem_filterMap.2 ⟨_, mem, rfl⟩)
      · exact unnoticed n mem of
    · rw [recordOf_congr records]
      exact listed ok

end Sys2Proof.Machine
end

