-- ==== Sys2Proof/Proofs/Profiles.lean ====
section
/-! PROOFS. SET_PROFILE: what its block holds, what is written of it, and the links that name the profile. -/

namespace Sys2Proof.Machine
variable {s t own : State} {id : BatchId} {env : Env} {e : WorkEntry} {input bs : List Byte} {p : ProfileNumber}

/-! ## Fields brought into their ranges -/

/-- A field `x` written from the carried value `f`: as it is carried when in range, and the nearer end otherwise. -/
def WrittenFrom (low high f x : Nat) : Prop :=
  (f < low → x = low) ∧ (high < f → x = high) ∧ (low ≤ f → f ≤ high → x = f)

theorem writtenFrom_clamp {low high : Nat} (le : low ≤ high) (f : Nat) : WrittenFrom low high f (clamp low high f) := by
  unfold WrittenFrom clamp
  omega

theorem writtenFrom_max {high f : Nat} (lt : f ≤ high) : WrittenFrom 1 high f (max 1 f) := by
  unfold WrittenFrom
  omega

theorem writtenFrom_clear (level f : Nat) (pos : 1 ≤ level) : WrittenFrom 0 (level - 1) f (clampClear level f) := by
  unfold WrittenFrom clampClear
  split <;> omega

theorem clampAction_same (v : Nat) : clampAction v = v ↔ v ≤ 3 := by
  unfold clampAction
  split <;> omega

/-- An action byte, as it is named. -/
theorem action_named (v : Nat) :
    (v = 1 → actionOfNumber (clampAction v) = .hold) ∧ (v = 2 → actionOfNumber (clampAction v) = .renew) ∧
      (v = 3 → actionOfNumber (clampAction v) = .quarantine) ∧ (v = 0 ∨ 3 < v → actionOfNumber (clampAction v) = .note) := by
  refine ⟨fun one => ?_, fun two => ?_, fun three => ?_, fun other => ?_⟩
  · subst one
    decide
  · subst two
    decide
  · subst three
    decide
  · have none : clampAction v = 0 := by
      unfold clampAction
      split <;> omega
    rw [none]
    decide

/-! ## What a block carries -/

/-- A rate kind's fields carried as they are written. -/
theorem rate_carried_iff (bs : List Byte) (i : Nat) : clampedRate bs i = rawRate bs i ↔
    (rateOfFields (clampedRate bs i)).weight = ofLe (bytesAt bs (26 + 7 * i) 1) ∧
      (rateOfFields (clampedRate bs i)).raiseLevel = ofLe (bytesAt bs (26 + 7 * i + 2) 2) ∧
      (rateOfFields (clampedRate bs i)).clearLevel = ofLe (bytesAt bs (26 + 7 * i + 4) 2) ∧ ofLe (bytesAt bs (26 + 7 * i + 6) 1) ≤ 3 := by
  rw [← clampAction_same]
  show [_, _, _, _, _] = [_, _, _, _, _] ↔ _
  rw [List.cons.injEq, List.cons.injEq, List.cons.injEq, List.cons.injEq, List.cons.injEq]
  exact ⟨fun ⟨weight, _, level, clear, action, _⟩ => ⟨weight, level, clear, action⟩,
    fun ⟨weight, level, clear, action⟩ => ⟨weight, rfl, level, clear, action, rfl⟩⟩

/-- Lists of the same parts are equal part by part. -/
theorem parts_eq {a a' b b' c c' d d' e e' f f' : List Nat} (lb : b.length = b'.length) (lc : c.length = c'.length)
    (ld : d.length = d'.length) (le : e.length = e'.length) (lf : f.length = f'.length) :
    a ++ b ++ c ++ d ++ e ++ f = a' ++ b' ++ c' ++ d' ++ e' ++ f' ↔ a = a' ∧ b = b' ∧ c = c' ∧ d = d' ∧ e = e' ∧ f = f' := by
  constructor
  · intro whole
    obtain ⟨whole, last⟩ := List.append_inj' whole lf
    obtain ⟨whole, fifth⟩ := List.append_inj' whole le
    obtain ⟨whole, fourth⟩ := List.append_inj' whole ld
    obtain ⟨whole, third⟩ := List.append_inj' whole lc
    obtain ⟨first, second⟩ := List.append_inj' whole lb
    exact ⟨first, second, third, fourth, fifth, last⟩
  · rintro ⟨rfl, rfl, rfl, rfl, rfl, rfl⟩
    rfl

/-- Every field of a block carried as it is written. -/
def Carried (bs : List Byte) : Prop :=
  let v := parseProfile bs
  let field (offset size : Nat) := ofLe (bytesAt bs offset size)
  v.budget = field 1 4 ∧ v.ageLimit = field 5 4 ∧ v.lead = field 9 4 ∧ v.replyWait = field 13 2 ∧
    v.attempts = field 15 1 ∧ v.restTime = field 16 4 ∧ v.retireTime = field 20 2 ∧ v.silenceLimit = field 22 4 ∧
    (∀ r : RateKind, let o := 26 + 7 * r.index.val
      (v.rate r).weight = field o 1 ∧ (v.rate r).raiseLevel = field (o + 2) 2 ∧
        (v.rate r).clearLevel = field (o + 4) 2 ∧ field (o + 6) 1 ≤ 3) ∧
    field 54 1 ≤ 3 ∧ field 55 1 ≤ 3 ∧ field 56 1 ≤ 3 ∧ field 57 1 ≤ 3

theorem carried_iff (bs : List Byte) : Carried bs ↔ clampedProfile bs = rawProfile bs := by
  have rates : (∀ r : RateKind, clampedRate bs r.index.val = rawRate bs r.index.val) ↔
      clampedRate bs 0 = rawRate bs 0 ∧ clampedRate bs 1 = rawRate bs 1 ∧ clampedRate bs 2 = rawRate bs 2 ∧
        clampedRate bs 3 = rawRate bs 3 :=
    ⟨fun h => ⟨h .tagFail, h .replay, h .unknownGen, h .exchangeFault⟩, fun ⟨a, b, c, d⟩ r => by cases r <;> assumption⟩
  have each : (∀ r : RateKind, let o := 26 + 7 * r.index.val
      ((parseProfile bs).rate r).weight = ofLe (bytesAt bs o 1) ∧ ((parseProfile bs).rate r).raiseLevel = ofLe (bytesAt bs (o + 2) 2) ∧
        ((parseProfile bs).rate r).clearLevel = ofLe (bytesAt bs (o + 4) 2) ∧ ofLe (bytesAt bs (o + 6) 1) ≤ 3) ↔
      ∀ r : RateKind, clampedRate bs r.index.val = rawRate bs r.index.val := by
    refine forall_congr' fun r => ?_
    rw [rate_carried_iff, ← parseProfile_rate]
  have whole : clampedProfile bs = rawProfile bs ↔ _ :=
    parts_eq (a' := [ofLe (bytesAt bs 1 4), ofLe (bytesAt bs 5 4), ofLe (bytesAt bs 9 4), ofLe (bytesAt bs 13 2), ofLe (bytesAt bs 15 1),
        ofLe (bytesAt bs 16 4), ofLe (bytesAt bs 20 2), ofLe (bytesAt bs 22 4)])
      (b' := rawRate bs 0) (c' := rawRate bs 1) (d' := rawRate bs 2) (e' := rawRate bs 3)
      (f' := [ofLe (bytesAt bs 54 1), ofLe (bytesAt bs 55 1), ofLe (bytesAt bs 56 1), ofLe (bytesAt bs 57 1)]) rfl rfl rfl rfl rfl
  rw [whole]
  simp only [List.cons.injEq, and_true, clampAction_same, and_assoc]
  rw [Carried, each, rates]
  constructor
  · rintro ⟨budget, ageLimit, lead, replyWait, attempts, restTime, retireTime, silenceLimit, ⟨r0, r1, r2, r3⟩, last⟩
    exact ⟨budget, ageLimit, lead, replyWait, attempts, restTime, retireTime, silenceLimit, r0, r1, r2, r3, last⟩
  · rintro ⟨budget, ageLimit, lead, replyWait, attempts, restTime, retireTime, silenceLimit, r0, r1, r2, r3, last⟩
    exact ⟨budget, ageLimit, lead, replyWait, attempts, restTime, retireTime, silenceLimit, ⟨r0, r1, r2, r3⟩, last⟩

theorem profileClamps_iff (bs : List Byte) : profileClamps bs = true ↔ ¬ Carried bs := by
  rw [carried_iff, profileClamps, decide_eq_true_eq]
  exact not_congr eq_comm

/-! ## The links that name a profile, and the request -/

theorem namingLinks_eq (s : State) (p : ProfileNumber) :
    s.namingLinks p = allSlots.filter fun k => s.enrolled k && (s.link k).profile = p := by
  rw [State.namingLinks, State.enrolledSlots, List.filter_filter]
  exact List.filter_congr fun k _ => Bool.and_comm _ _

/-- What a SET_PROFILE of a named profile does. -/
theorem setProfileChecked_named (number : ofLe (bytesAt input 0 1) = p.val) (s : State) : setProfileChecked e input s =
    if entryFlag0 e then
      if (s.namingLinks p).length ≠ 0 then (⟨.profileInUse, .none, 0, 0xFFFF, 0, (s.namingLinks p).length⟩, s)
      else (⟨.ok, .none, 0, 0xFFFF, 0, (s.namingLinks p).length⟩, s.setProfile p .invalid)
    else (⟨if profileClamps input then .okClamped else .ok, .none, 0, 0xFFFF, 0, (s.namingLinks p).length⟩,
      writeProfile p (parseProfile input) s) := by
  rw [setProfileChecked, profileNumberOf_some number]
  rfl

theorem ofLe_first (input : List Byte) : ofLe (bytesAt input 0 1) = (input.getD 0 0).toNat := Nat.add_zero _

theorem quiet_writeProfile (p : ProfileNumber) (v : Profile) (s : State) : Quiet (s.setProfile p v) (writeProfile p v s) :=
  .foldl (fun s k => quiet_reexamine k s) _ _

theorem profileOf_valid {k : Slot} (valid : s.profiles[(s.link k).profile].valid = true) :
    s.profileOf k = s.profiles[(s.link k).profile] := if_pos valid

theorem profileOf_invalid {k : Slot} (invalid : s.profiles[(s.link k).profile].valid = false) : s.profileOf k = .lowest :=
  if_neg (by rw [invalid]; decide)

/-- A rate kind of the profile that is written, by the fields of its block. -/
theorem rate_written (bs : List Byte) (r : RateKind) :
    let o := 26 + 7 * r.index.val
    let v := (parseProfile bs).rate r
    WrittenFrom 1 255 (ofLe (bytesAt bs o 1)) v.weight ∧ v.decay = ofLe (bytesAt bs (o + 1) 1) ∧
      WrittenFrom 1 65535 (ofLe (bytesAt bs (o + 2) 2)) v.raiseLevel ∧
      WrittenFrom 0 (v.raiseLevel - 1) (ofLe (bytesAt bs (o + 4) 2)) v.clearLevel ∧
      v.action = actionOfNumber (clampAction (ofLe (bytesAt bs (o + 6) 1))) := by
  intro o v
  have parsed : v = rateOfFields (clampedRate bs r.index.val) := parseProfile_rate bs r
  have weight := ofLe_bytesAt_lt bs o 1
  have level := ofLe_bytesAt_lt bs (o + 2) 2
  rw [parsed]
  exact ⟨writtenFrom_max (by omega), rfl, writtenFrom_max (by omega), writtenFrom_clear _ _ (Nat.le_max_left 1 _), rfl⟩

theorem served_serveSetProfile {map : Prop} (e : WorkEntry) (input : List Byte) (s : State) :
    Served map False s (serveSetProfile e input s).2 :=
  served_withBlock (served_setProfileChecked e input) noSlot e s

/-- Settles O43: the checks, the two options, and each field as `WrittenFrom` says. -/
theorem setProfileWritesOrInvalidates : Obligations.SetProfileWritesOrInvalidates := by
  refine ⟨fun s k => ⟨profileOf_valid, profileOf_invalid⟩, fun id e input env s ready clean => ?_⟩
  intro done
  have finish {r : EntryResult} {other own : State} (length : e.inputLength.toNat = 64)
      (does : setProfileChecked e input (s.accessed env 2 []) = (r, other)) (ok : r.status ≠ .busFault)
      (posted : other.posted = []) (inner : other.inner = own.inner) : done r own :=
    ⟨_, rfl, (entry_done ready clean (served_serveSetProfile (map := True) e input _)
      ((withBlock_accessed length clean _ _).trans does) ok posted).of_inner inner⟩
  refine ⟨fun length => ⟨_, rfl, entry_refused (n := 1) ready clean (served_serveSetProfile (map := True) e input _)
    (withBlock_length length _ _ _) nofun⟩, fun length high => finish (own := s) (other := s.accessed env 2 []) length ?_ nofun rfl rfl, fun p length number => ?_⟩
  · rw [setProfileChecked, ofLe_first, profileNumberOf_none high]
  · have named := setProfileChecked_named (e := e) ((ofLe_first input).trans number) (s.accessed env 2 [])
    intro naming result v field written action rateOffset carried wrote
    have links : (s.accessed env 2 []).namingLinks p = naming := namingLinks_eq s p
    rw [links] at named
    have clamps : profileClamps input = true ↔ ¬ carried := profileClamps_iff input
    have writes (notFlag : entryFlag0 e = false) (status : Status) (ok : status ≠ .busFault)
        (is : (if profileClamps input then Status.okClamped else .ok) = status) : done (result status) wrote := by
      refine finish (own := wrote) (other := writeProfile p v (s.accessed env 2 [])) length ?_ ok ?_ ?_
      · rw [named, if_neg (by rw [notFlag]; decide), is]
      · exact (quiet_writeProfile p v _).posted
      · rw [writeProfile, links]
        rfl
    refine ⟨fun flag named' => ?_, fun flag unnamed => ?_, fun notFlag => ⟨fun all => ?_, fun not => ?_⟩, rfl,
      parseProfile_inRange input, writtenFrom_clamp (by decide) _, writtenFrom_clamp (by decide) _,
      writtenFrom_clamp (by decide) _, writtenFrom_clamp (by decide) _, writtenFrom_clamp (by decide) _,
      writtenFrom_clamp (by decide) _, writtenFrom_clamp (by decide) _, writtenFrom_clamp (by decide) _, fun r => ?_,
      action_named _, action_named _, action_named _, action_named _⟩
    · refine finish (own := s) (other := s.accessed env 2 []) length ?_ nofun rfl rfl
      rw [named, if_pos (show entryFlag0 e = true from flag), if_pos (by rwa [Ne, List.length_eq_zero_iff])]
    · refine finish (other := (s.accessed env 2 []).setProfile p .invalid) length ?_ nofun rfl rfl
      rw [named, if_pos (show entryFlag0 e = true from flag), if_neg (by rw [unnamed]; decide)]
    · exact writes notFlag .ok nofun (if_neg fun h => clamps.mp h all)
    · exact writes notFlag .okClamped nofun (if_pos (clamps.mpr not))
    · obtain ⟨weight, decay, level, clear, act⟩ := rate_written input r
      refine ⟨weight, decay, level, clear, ?_⟩
      rw [act]
      exact action_named _

end Sys2Proof.Machine
end

