-- ==== Sys2Proof/Proofs/Refusals.lean ====
section
/-! PROOFS. OUTBOUND and INBOUND: their checks in order, and what each refusal leaves. -/

namespace Sys2Proof.Machine
variable {s t own : State} {id : BatchId} {env : Env} {e : WorkEntry} {k : Slot} {input : List Byte}

theorem hostRead_accessed (clean : cleanEnv env) (s : State) (n : Nat) :
    hostRead (s.accessed env n []) = (true, s.accessed env (n + 1) []) := by
  rw [hostRead_granted (State.granted_of_clean (accessed_clean clean s n []) 1), accessed_wrote]
  rfl

/-! ## The checks of OUTBOUND -/

section
variable (fits : e.inputLength.toNat ≤ 1536) (room : e.inputLength.toNat + 28 ≤ e.outputRoom.toNat)

theorem serveOutbound_oversize (long : 1536 < e.inputLength.toNat) : serveOutbound e input s = (.bare .oversize .none, s) :=
  if_pos long

include fits in
theorem serveOutbound_noRoom (small : e.outputRoom.toNat < e.inputLength.toNat + 28) :
    serveOutbound e input s = (.bare .noRoom .none, s) :=
  (if_neg (Nat.not_lt.mpr fits)).trans (if_pos small)

include fits room

theorem serveOutbound_unknown (unknown : lookupBranch s.branchMap e.slotField.toNat = none) :
    serveOutbound e input s = (.bare .unknownBranch .none, s) := by
  refine (if_neg (Nat.not_lt.mpr fits)).trans ((if_neg (Nat.not_lt.mpr room)).trans ?_)
  rw [unknown]

variable (found : lookupBranch s.branchMap e.slotField.toNat = some k)
include found

theorem serveOutbound_quarantined (state : (s.link k).state = .quarantined) :
    serveOutbound e input s = (slotResult k.val .quarantined .none, s) := by
  refine (if_neg (Nat.not_lt.mpr fits)).trans ((if_neg (Nat.not_lt.mpr room)).trans ?_)
  rw [found]
  dsimp only
  rw [state]
  rfl

theorem serveOutbound_noKey (state : (s.link k).state = .vacant ∨ (s.link k).state = .standby) :
    serveOutbound e input s = (slotResult k.val .noKey .none, s) := by
  refine (if_neg (Nat.not_lt.mpr fits)).trans ((if_neg (Nat.not_lt.mpr room)).trans ?_)
  rw [found]
  dsimp only
  rcases state with state | state <;> rw [state] <;> rfl

theorem serveOutbound_stalled (state : (s.link k).state = .stalled) :
    serveOutbound e input s = (slotResult k.val .keySpent .none, s) := by
  refine (if_neg (Nat.not_lt.mpr fits)).trans ((if_neg (Nat.not_lt.mpr room)).trans ?_)
  rw [found]
  dsimp only
  rw [state]
  rfl

variable (live : (s.link k).state = .live)
include live

theorem serveOutbound_held {status : Status} {detail : Detail} (held : holdRefusal (s.link k) s.quiesce = some (status, detail)) :
    serveOutbound e input s = (slotResult k.val status detail, s) := by
  refine (if_neg (Nat.not_lt.mpr fits)).trans ((if_neg (Nat.not_lt.mpr room)).trans ?_)
  rw [found]
  dsimp only
  rw [live]
  dsimp only
  rw [held]
  rfl

/-- An OUTBOUND entry that passes its checks: its plaintext is read, when there is one, and its key used. -/
theorem serveOutbound_passed (unheld : holdRefusal (s.link k) s.quiesce = none) {read : Bool}
    (plain : (if e.inputLength.toNat = 0 then (true, s) else hostRead s) = (read, t)) :
    serveOutbound e input s =
      if read then outboundUse k e (bytesAt input 0 e.inputLength.toNat) t else (slotResult k.val .busFault .read, t) := by
  refine (if_neg (Nat.not_lt.mpr fits)).trans ((if_neg (Nat.not_lt.mpr room)).trans ?_)
  rw [found]
  dsimp only
  rw [live]
  dsimp only
  rw [unheld]
  dsimp only
  rw [plain]
  rfl

end

theorem holdRefusal_none {l : Link} (host : l.hostHold = false) (supervisor : l.supervisorHold = false) :
    holdRefusal l false = none := by
  unfold holdRefusal
  rw [host, supervisor]

/-- Settles O31: each check decides in its turn, and a refusal changes nothing. -/
theorem outboundRefusals : Obligations.OutboundRefusals := by
  intro id e input env s ready clean len refused
  have finish {r : EntryResult} (does : serveOutbound e input (s.accessed env 1 []) = (r, s.accessed env 1 []))
      (ok : r.status ≠ .busFault) : refused r :=
    ⟨_, rfl, entry_refused (n := 1) ready clean (served_serveOutbound (map := True) (profiles := True) e input _) does ok⟩
  refine ⟨fun long => finish (serveOutbound_oversize long) nofun, fun fits small => finish (serveOutbound_noRoom fits small) nofun,
    fun fits room => ⟨fun unknown => finish (serveOutbound_unknown fits room unknown) nofun, fun k found => ?_⟩⟩
  refine ⟨fun state => finish (serveOutbound_quarantined fits room found state) nofun,
    fun state => finish (serveOutbound_noKey fits room found state) nofun,
    fun state => finish (serveOutbound_stalled fits room found state) nofun, fun live => ?_⟩
  have held {status : Status} {detail : Detail} (held : holdRefusal (s.link k) s.quiesce = some (status, detail))
      (ok : status ≠ .busFault) : refused (slotResult k.val status detail) :=
    finish (serveOutbound_held (s := s.accessed env 1 []) fits room found live held) ok
  refine ⟨fun host supervisor => held ?_ nofun, fun host supervisor => held ?_ nofun, fun host supervisor => held ?_ nofun,
    fun host supervisor quiesce => held ?_ nofun⟩
  all_goals
    unfold holdRefusal
    rw [host, supervisor]
  rw [quiesce]

/-! ## The header of an INBOUND packet -/

theorem ofBe_two_bytes (a b : Byte) : ofBe [a, b] = 256 * a.toNat + b.toNat := by
  simp only [ofBe, List.reverse_cons, List.reverse_nil, List.nil_append, List.cons_append, ofLe]
  omega

theorem ofBe_four_bytes (a b c d : Byte) : ofBe [a, b, c, d] = 16777216 * a.toNat + 65536 * b.toNat + 256 * c.toNat + d.toNat := by
  simp only [ofBe, List.reverse_cons, List.reverse_nil, List.nil_append, List.cons_append, ofLe]
  omega

section
variable {h : Header} {n room : Nat}

theorem headerRefusal_format (bad : h.format ≠ 1) : headerRefusal h n room = some (.malformed, .format) := if_pos bad

variable (format : h.format = 1)
include format

theorem headerRefusal_class (bad : ¬ (h.class_ = 1 ∨ h.class_ = 2)) : headerRefusal h n room = some (.malformed, .class_) := by
  rw [headerRefusal, if_neg (not_not_intro format)]
  exact if_pos (not_or.mp bad)

variable (class_ : h.class_ = 1 ∨ h.class_ = 2)
include class_

/-- The checks after the first two. -/
theorem headerRefusal_classed : headerRefusal h n room =
    if n ≠ 28 + h.bodyLength.toNat then some (.malformed, .length)
    else if h.flags ≠ 1 then some (.malformed, .flags)
    else if 1536 < h.bodyLength.toNat then some (.oversize, .none)
    else if h.sequence = 0 then some (.malformed, .sequence)
    else if room < h.bodyLength.toNat then some (.noRoom, .none) else none := by
  rw [headerRefusal, if_neg (not_not_intro format)]
  exact if_neg fun bad => (not_or.mpr bad) class_

theorem headerRefusal_length (bad : n ≠ 28 + h.bodyLength.toNat) : headerRefusal h n room = some (.malformed, .length) := by
  rw [headerRefusal_classed format class_, if_pos bad]

variable (length : n = 28 + h.bodyLength.toNat)
include length

theorem headerRefusal_flags (bad : h.flags ≠ 1) : headerRefusal h n room = some (.malformed, .flags) := by
  rw [headerRefusal_classed format class_, if_neg (not_not_intro length), if_pos bad]

variable (flags : h.flags = 1)
include flags

theorem headerRefusal_oversize (bad : 1536 < h.bodyLength.toNat) : headerRefusal h n room = some (.oversize, .none) := by
  rw [headerRefusal_classed format class_, if_neg (not_not_intro length), if_neg (not_not_intro flags), if_pos bad]

variable (short : h.bodyLength.toNat ≤ 1536)
include short

theorem headerRefusal_sequence (bad : h.sequence = 0) : headerRefusal h n room = some (.malformed, .sequence) := by
  rw [headerRefusal_classed format class_, if_neg (not_not_intro length), if_neg (not_not_intro flags),
    if_neg (Nat.not_lt.mpr short), if_pos bad]

theorem headerRefusal_noRoom (sequence : h.sequence ≠ 0) (bad : room < h.bodyLength.toNat) :
    headerRefusal h n room = some (.noRoom, .none) := by
  rw [headerRefusal_classed format class_, if_neg (not_not_intro length), if_neg (not_not_intro flags),
    if_neg (Nat.not_lt.mpr short), if_neg sequence, if_pos bad]

end

theorem headerRefusal_none {h : Header} (good : headerGood h e) :
    headerRefusal h e.inputLength.toNat e.outputRoom.toNat = none := by
  obtain ⟨format, class_, length, flags, short, sequence, room⟩ := good
  rw [headerRefusal_classed format class_, if_neg (not_not_intro length), if_neg (not_not_intro flags),
    if_neg (Nat.not_lt.mpr short), if_neg sequence, if_neg (Nat.not_lt.mpr room)]

/-! ## The checks of INBOUND up to its link record -/

theorem serveInbound_runt (short : e.inputLength.toNat < 28) : serveInbound e input s = (.bare .runt .none, s) := if_pos short

section
variable (long : 28 ≤ e.inputLength.toNat)
include long

theorem serveInbound_unread (read : hostRead s = (false, t)) : serveInbound e input s = (.bare .busFault .read, t) := by
  rw [serveInbound, if_neg (Nat.not_lt.mpr long), read]
  rfl

variable (read : hostRead s = (true, t))
include read

theorem serveInbound_refused {status : Status} {detail : Detail}
    (refused : headerRefusal (parseHeader input) e.inputLength.toNat e.outputRoom.toNat = some (status, detail)) :
    serveInbound e input s = (inboundResult (parseHeader input) noSlot status detail, t) := by
  rw [serveInbound, if_neg (Nat.not_lt.mpr long), read]
  dsimp only
  rw [refused]
  rfl

end

theorem headerGood.long (good : headerGood (parseHeader input) e) : 28 ≤ e.inputLength.toNat := by
  obtain ⟨format, class_, length, flags, short, sequence, room⟩ := good
  omega

section
variable (good : headerGood (parseHeader input) e) (read : hostRead s = (true, t))
include good read

theorem serveInbound_unknown (unknown : lookupBranch t.branchMap (parseHeader input).branch.toNat = none) :
    serveInbound e input s = (inboundResult (parseHeader input) noSlot .unknownBranch .none, countUnknownBranch t) := by
  rw [serveInbound, if_neg (Nat.not_lt.mpr good.long), read]
  dsimp only
  rw [headerRefusal_none good, unknown]
  rfl

variable (found : lookupBranch t.branchMap (parseHeader input).branch.toNat = some k)
include found

theorem serveInbound_found : serveInbound e input s =
    if (t.link k).state = .quarantined then (inboundResult (parseHeader input) k.val .quarantined .none, t)
    else inboundAtLink k e input (parseHeader input) t := by
  rw [serveInbound, if_neg (Nat.not_lt.mpr good.long), read]
  dsimp only
  rw [headerRefusal_none good, found]
  rfl

end

/-- Settles O33: the header's checks are made in order, then the lookup of the branch, then the state of its link. -/
theorem inboundRefusedBeforeTheRecord : Obligations.InboundRefusedBeforeTheRecord := by
  refine ⟨fun input => ?_, fun id e input env s ready clean => ?_⟩
  · intro h byte
    have two : h.branch.toNat = 256 * byte 4 + byte 5 ∧ h.bodyLength.toNat = 256 * byte 6 + byte 7 ∧
        h.sequence.toNat = 16777216 * byte 8 + 65536 * byte 9 + 256 * byte 10 + byte 11 := by
      have branch : h.branch = BitVec.ofNat 16 (256 * byte 4 + byte 5) := congrArg (BitVec.ofNat 16) (ofBe_two_bytes _ _)
      have length : h.bodyLength = BitVec.ofNat 16 (256 * byte 6 + byte 7) := congrArg (BitVec.ofNat 16) (ofBe_two_bytes _ _)
      have sequence : h.sequence = BitVec.ofNat 32 (16777216 * byte 8 + 65536 * byte 9 + 256 * byte 10 + byte 11) :=
        congrArg (BitVec.ofNat 32) (ofBe_four_bytes _ _ _ _)
      have small (i : Nat) : byte i < 256 := (input.getD i 0).isLt
      rw [branch, length, sequence]
      simp only [BitVec.toNat_ofNat]
      refine ⟨Nat.mod_eq_of_lt ?_, Nat.mod_eq_of_lt ?_, Nat.mod_eq_of_lt ?_⟩
      · have := small 4; have := small 5; omega
      · have := small 6; have := small 7; omega
      · have := small 8; have := small 9; have := small 10; have := small 11; omega
    exact ⟨rfl, rfl, rfl, rfl, two⟩
  · intro n h len refused bad class_
    have served := served_serveInbound (map := True) (profiles := True) e input (s.accessed env 1 [])
    have read : hostRead (s.accessed env 1 []) = (true, s.accessed env 2 []) := hostRead_accessed clean s 1
    have finish {status : Status} {detail : Detail} (long : 28 ≤ n) (ok : status ≠ .busFault)
        (refusal : headerRefusal h n e.outputRoom.toNat = some (status, detail)) : bad status detail :=
      ⟨_, rfl, entry_refused (n := 2) ready clean served (serveInbound_refused long read refusal) ok⟩
    refine ⟨fun short => ⟨_, rfl, entry_refused (n := 1) ready clean served (serveInbound_runt short) nofun⟩,
      fun long bad => finish long nofun (headerRefusal_format bad),
      fun long format bad => finish long nofun (headerRefusal_class format bad),
      fun long format classed bad => finish long nofun (headerRefusal_length format classed bad),
      fun format classed length bad => finish (by omega) nofun (headerRefusal_flags format classed length bad),
      fun format classed length flags bad => finish (by omega) nofun (headerRefusal_oversize format classed length flags bad),
      fun format classed length flags short bad =>
        finish (by omega) nofun (headerRefusal_sequence format classed length flags short bad),
      fun format classed length flags short sequence bad =>
        finish (by omega) nofun (headerRefusal_noRoom format classed length flags short sequence bad),
      fun good unknown => ⟨_, rfl, entry_done ready clean served (serveInbound_unknown good read unknown) nofun
        (quiet_countUnknownBranch _).posted⟩,
      fun k good found state => ⟨_, rfl, entry_refused (n := 2) ready clean served
        ((serveInbound_found good read found).trans (if_pos state)) nofun⟩⟩

/-! ## The checks at the link record -/

section
variable {h : Header}

theorem inboundAtLink_mismatch (clash : h.class_ = classControl ↔ ¬ h.generation.toNat = 0) : inboundAtLink k e input h s =
    (inboundResult h k.val .classMismatch .none, scoreKind k .exchangeFault s) := by
  refine if_pos fun same => ?_
  rw [same] at clash
  exact iff_not_self clash

variable (class_ : h.class_ = classControl ↔ h.generation.toNat = 0)
include class_

theorem inboundAtLink_keySpent (selected : selectKey (s.link k) h.generation.toNat = .keySpent) :
    inboundAtLink k e input h s = (inboundResult h k.val .keySpent .none, s) := by
  rw [inboundAtLink, if_neg (not_not_intro (propext class_))]
  dsimp only
  rw [selected]

theorem inboundAtLink_unknownGen (selected : selectKey (s.link k) h.generation.toNat = .unknownGen) :
    inboundAtLink k e input h s = (inboundResult h k.val .unknownGen .none, scoreKind k .unknownGen s) := by
  rw [inboundAtLink, if_neg (not_not_intro (propext class_))]
  dsimp only
  rw [selected]

variable {choice : KeyChoice} (selected : selectKey (s.link k) h.generation.toNat = .key choice)
include selected

theorem inboundAtLink_replayed (window : windowTest ((s.link k).windowOf choice) h.sequence.toNat = .replayed) :
    inboundAtLink k e input h s = (inboundResult h k.val .replayed choice.detail, scoreKind k .replay s) := by
  rw [inboundAtLink, if_neg (not_not_intro (propext class_))]
  dsimp only
  rw [selected]
  dsimp only
  rw [window]

theorem inboundAtLink_tooOld (window : windowTest ((s.link k).windowOf choice) h.sequence.toNat = .tooOld) :
    inboundAtLink k e input h s = (inboundResult h k.val .tooOld choice.detail, scoreKind k .replay s) := by
  rw [inboundAtLink, if_neg (not_not_intro (propext class_))]
  dsimp only
  rw [selected]
  dsimp only
  rw [window]

theorem inboundAtLink_passes (window : windowTest ((s.link k).windowOf choice) h.sequence.toNat = .passes) :
    inboundAtLink k e input h s = decipherInbound k e input h choice s := by
  rw [inboundAtLink, if_neg (not_not_intro (propext class_))]
  dsimp only
  rw [selected]
  dsimp only
  rw [window]

end

/-- Settles O34: class and generation, then the key, then its window. -/
theorem inboundRefusedAtTheRecord : Obligations.InboundRefusedAtTheRecord := by
  intro id e input env s k ready clean h g l good found notQuarantined refused scored
  have served := served_serveInbound (map := True) (profiles := True) e input (s.accessed env 1 [])
  have atLink : serveInbound e input (s.accessed env 1 []) = inboundAtLink k e input h (s.accessed env 2 []) :=
    (serveInbound_found good (hostRead_accessed clean s 1) found).trans (if_neg notQuarantined)
  have score {status : Status} {detail : Detail} {kind : RateKind} (ok : status ≠ .busFault)
      (does : inboundAtLink k e input h (s.accessed env 2 []) = (inboundResult h k.val status detail, scored kind)) :
      refused status detail (scored kind) :=
    ⟨_, rfl, entry_done ready clean served (atLink.trans does) ok (quiet_scoreKind k kind _).posted⟩
  have data (isData : h.class_ = 1) (traffic : g ≠ 0) : h.class_ = classControl ↔ g = 0 := by
    rw [isData]
    exact ⟨fun c => absurd c (by decide), fun c => absurd c traffic⟩
  refine ⟨fun control traffic => score nofun (inboundAtLink_mismatch ⟨fun _ => traffic, fun _ => control⟩),
    fun isData root => score nofun (inboundAtLink_mismatch ⟨fun c => absurd (isData.symm.trans c) (by decide), fun c => absurd root c⟩),
    fun isData traffic selected => ⟨_, rfl, entry_refused (n := 2) ready clean served
      (atLink.trans (inboundAtLink_keySpent (data isData traffic) selected)) nofun⟩,
    fun isData traffic selected => score nofun (inboundAtLink_unknownGen (data isData traffic) selected),
    fun choice classed selected => ⟨fun window => score nofun (inboundAtLink_replayed classed selected window),
      fun window => score nofun (inboundAtLink_tooOld classed selected window)⟩⟩

end Sys2Proof.Machine
end

