-- ==== Sys2Proof/Proofs/Traffic.lean ====
section
/-! PROOFS. OUTBOUND and INBOUND past their checks: the use of a key, and what a packet that comes to a key does. -/

namespace Sys2Proof.Machine
variable {s t own : State} {id : BatchId} {env : Env} {e : WorkEntry} {k : Slot} {input body text : List Byte} {h : Header}
  {choice : KeyChoice}

/-! ## The bytes of a packet -/

theorem ofNat_shift (v : BitVec n) (i : Nat) : BitVec.ofNat 8 (v.toNat / 2 ^ i) = v.extractLsb' i 8 := by
  apply BitVec.eq_of_toNat_eq
  simp [BitVec.extractLsb'_toNat, Nat.shiftRight_eq_div_pow]

theorem beBytes_word16 (v : BitVec 16) : beBytes 2 v.toNat = [v.extractLsb' 8 8, v.extractLsb' 0 8] := by
  rw [← ofNat_shift v 8, ← ofNat_shift v 0, pow_zero, Nat.div_one]
  rfl

theorem beBytes_word32 (v : BitVec 32) :
    beBytes 4 v.toNat = [v.extractLsb' 24 8, v.extractLsb' 16 8, v.extractLsb' 8 8, v.extractLsb' 0 8] := by
  rw [← ofNat_shift v 24, ← ofNat_shift v 16, ← ofNat_shift v 8, ← ofNat_shift v 0, pow_zero, Nat.div_one]
  simp only [beBytes, leBytes, List.reverse_cons, List.reverse_nil, List.nil_append, List.cons_append, Nat.div_div_eq_div_mul]
  norm_num

theorem headerBytes_eq (h : Header) : headerBytes h =
    [h.format, h.class_, h.generation, h.flags, h.branch.extractLsb' 8 8, h.branch.extractLsb' 0 8,
      h.bodyLength.extractLsb' 8 8, h.bodyLength.extractLsb' 0 8, h.sequence.extractLsb' 24 8,
      h.sequence.extractLsb' 16 8, h.sequence.extractLsb' 8 8, h.sequence.extractLsb' 0 8] := by
  rw [headerBytes, beBytes_word16, beBytes_word16, beBytes_word32]
  rfl

/-! ## The use of CURRENT by an OUTBOUND entry -/

/-- A link's record with a packet of `len` bytes enciphered under its CURRENT key. -/
def outboundUsed (l : Link) (len : Nat) : Link := (sequencedRecord l).chargeCurrent (cost len)

/-- The packet of an OUTBOUND entry. -/
def outboundPacket (l : Link) (e : WorkEntry) (body : List Byte) : List Byte :=
  sealPacket l.current.key l.current.salt (outboundHeader l e.slotField body.length) body

theorem outboundSpends_iff {l : Link} (inUse : l.current.state = .inUse) (len : Nat) :
    outboundSpends (outboundUsed l len) = true ↔
      l.current.budget < l.current.use + ((len + 15) / 16 + 2) + 98 ∨ l.current.ageLimit ≤ l.current.age ∨
        nextSequence l.nextSequence = 0 := by
  have state : (outboundUsed l len).current.state = .inUse := inUse
  rw [outboundSpends, state, decide_eq_true rfl, Bool.true_and, Bool.or_eq_true, decide_eq_true_eq, limitReached, Bool.or_eq_true,
    decide_eq_true_eq, decide_eq_true_eq, or_assoc]
  exact Iff.rfl

/-- The use of a key: of the state in which its packet has been written, or not. -/
theorem outboundUse_eq (listed : (s.link k).state ≠ .vacant) (link : t.link k = s.link k) {written : Bool}
    (wrote : hostWrite .output e.outputAddress (outboundPacket (s.link k) e body) (s.modLink k sequencedRecord) =
      (written, t.modLink k sequencedRecord)) :
    outboundUse k e body s =
      let l := s.link k
      let charged := t.setLink k (outboundUsed l body.length)
      let spends := outboundSpends (outboundUsed l body.length)
      (if written then ⟨.ok, if spends then .lastUse else .none, 28 + body.length, k.val, l.current.generation, l.nextSequence⟩
        else ⟨.busFault, .write, 0, k.val, l.current.generation, l.nextSequence⟩,
        dueCheck k .testsUrgency (if spends then spendCurrent k charged else charged)) := by
  have sequenced : sequencedRecord (s.link k) ≠ .vacant := Link.ne_vacant (l := sequencedRecord (s.link k)) listed
  have used : (t.modLink k sequencedRecord).modLink k (fun l => l.chargeCurrent (cost body.length)) =
      t.setLink k (outboundUsed (s.link k) body.length) := by
    rw [State.modLink, State.modLink, link, State.link_setLink_same, State.setLink_setLink _ _ _ sequenced]
    rfl
  unfold outboundUse
  dsimp only
  rw [show sealPacket (s.link k).current.key (s.link k).current.salt (outboundHeader (s.link k) e.slotField body.length) body =
    outboundPacket (s.link k) e body from rfl, wrote]
  dsimp only
  rw [used, State.link_setLink_same]
  cases written <;> rfl

/-! ## A packet that comes to a key -/

theorem selectKey_root_iff {l : Link} {g : Nat} : selectKey l g = .key .root ↔ g = 0 := by
  constructor
  · intro root
    by_contra traffic
    rw [selectKey, if_neg traffic] at root
    split_ifs at root <;> cases root
  · rintro rfl
    exact selectKey_root

theorem inboundText_length (reads : inboundText s input k choice = some text) :
    text.length = (parseHeader input).bodyLength.toNat := by
  have made := congrArg (fun c : List Byte × Tag => c.1.length) (encipher_of_inboundText reads)
  have same : (encipher ((s.link k).keyOf choice).1 ((s.link k).keyOf choice).2 (parseHeader input) text).1.length = text.length :=
    Config.cipher.encipher_length _ _ _ _
  rw [← same]
  exact made.trans (bytesAt_length _ _ _)

/-- An INBOUND entry whose packet comes to a key. -/
theorem serveInbound_atKey (comes : InboundAtKey s e input k choice) {u : State} (read : hostRead u = (true, t))
    (map : t.branchMap = s.branchMap) (links : t.links = s.links) :
    serveInbound e input u = decipherInbound k e input (parseHeader input) choice t := by
  obtain ⟨good, found, state, class_, selected, window⟩ := comes
  have link : t.link k = s.link k := link_congr links k
  rw [serveInbound_found good read (by rw [map]; exact found), if_neg (by rw [link]; exact state)]
  exact inboundAtLink_passes class_ (by rw [link]; exact selected) (by rw [link]; exact window)

section
variable (read : hostRead s = (true, t))
include read

theorem decipherInbound_fails (fails : inboundText t input k choice = none) :
    decipherInbound k e input (parseHeader input) choice s =
      (inboundResult (parseHeader input) k.val .tagFail choice.detail, afterCharge k choice (scoreKind k .tagFail
        (t.modLink k fun l => l.charge (cost (parseHeader input).bodyLength.toNat) choice))) := by
  unfold decipherInbound
  dsimp only
  rw [read]
  have none_ : decipher ((t.link k).keyOf choice).1 ((t.link k).keyOf choice).2 (parseHeader input)
    (bytesAt input 12 (parseHeader input).bodyLength.toNat)
    (BitVec.ofNat 128 (ofLe (bytesAt input (12 + (parseHeader input).bodyLength.toNat) 16))) = none := fails
  dsimp only
  rw [none_]
  rfl

theorem decipherInbound_reads (reads : inboundText t input k choice = some text) :
    decipherInbound k e input (parseHeader input) choice s =
      let passed := tagPassed k choice (parseHeader input).sequence.toNat
        (t.modLink k fun l => l.charge (cost (parseHeader input).bodyLength.toNat) choice)
      if (parseHeader input).class_ = classData then deliverData k e (parseHeader input) choice text passed
      else consumeControl k e (parseHeader input) text passed := by
  unfold decipherInbound
  dsimp only
  rw [read]
  have some_ : decipher ((t.link k).keyOf choice).1 ((t.link k).keyOf choice).2 (parseHeader input)
    (bytesAt input 12 (parseHeader input).bodyLength.toNat)
    (BitVec.ofNat 128 (ofLe (bytesAt input (12 + (parseHeader input).bodyLength.toNat) 16))) = some text := reads
  dsimp only
  rw [some_]
  rfl

end

/-! ## The obligations -/

/-- What reads the plaintext of an OUTBOUND entry: nothing, when there is none. -/
theorem plaintext_accessed (clean : cleanEnv env) (s : State) (len : Nat) :
    (if len = 0 then (true, s.accessed env 1 []) else hostRead (s.accessed env 1 [])) =
      (true, s.accessed env (if len = 0 then 1 else 2) []) := by
  rw [hostRead_accessed clean]
  split <;> rfl

/-- The writes posted by the use of a key are those posted before it. -/
theorem outboundUse_posted (s : State) (c : Bool) (k : Slot) :
    (dueCheck k .testsUrgency (if c then spendCurrent k s else s)).posted = s.posted := by
  rw [(quiet_dueCheck k _ _).posted]
  cases c with
  | true => exact (quiet_spendCurrent k s).posted
  | false => rfl

theorem hostWrite_modLink (h : s.granted 1) (kind : WriteKind) (a : Address) (bytes : List Byte) (f : Link → Link) :
    hostWrite kind a bytes (s.modLink k f) = (true, (s.wrote 1 [⟨a, bytes⟩]).modLink k f) :=
  hostWrite_granted (s := s.modLink k f) h kind a bytes

/-- An OUTBOUND entry that passes its checks, every access succeeding. -/
theorem serveOutbound_written (clean : cleanEnv env) (fits : e.inputLength.toNat ≤ 1536)
    (room : e.inputLength.toNat + 28 ≤ e.outputRoom.toNat) (found : lookupBranch s.branchMap e.slotField.toNat = some k)
    (live : (s.link k).state = .live) (unheld : holdRefusal (s.link k) s.quiesce = none) :
    serveOutbound e input (s.accessed env 1 []) =
      let l := s.link k
      let len := e.inputLength.toNat
      let charged := (s.accessed env (if len = 0 then 2 else 3)
        [⟨e.outputAddress, outboundPacket l e (bytesAt input 0 len)⟩]).setLink k (outboundUsed l len)
      let spends := outboundSpends (outboundUsed l len)
      (⟨.ok, if spends then .lastUse else .none, 28 + len, k.val, l.current.generation, l.nextSequence⟩,
        dueCheck k .testsUrgency (if spends then spendCurrent k charged else charged)) := by
  have count : (if e.inputLength.toNat = 0 then 1 else 2) + 1 = if e.inputLength.toNat = 0 then 2 else 3 := by
    split <;> rfl
  have listed : (s.link k).state ≠ .vacant := by
    rw [live]
    decide
  rw [serveOutbound_passed (s := s.accessed env 1 []) fits room found live unheld (plaintext_accessed clean s _), if_pos rfl]
  generalize (if e.inputLength.toNat = 0 then 1 else 2) = n at count ⊢
  have written := hostWrite_modLink (k := k) (State.granted_of_clean (accessed_clean clean s n []) 1) .output e.outputAddress
    (outboundPacket (s.link k) e (bytesAt input 0 e.inputLength.toNat)) sequencedRecord
  rw [accessed_wrote, count, List.nil_append] at written
  rw [outboundUse_eq (s := s.accessed env n []) listed (by rfl) written, bytesAt_length]
  rfl

theorem outward_direction : (0 : Byte) &&& 1 = 0 := by decide

/-- Settles O32: the checks passed, the use of the key is `outboundUse_eq`. -/
theorem outboundEnciphersAndCharges : Obligations.OutboundEnciphersAndCharges := by
  refine ⟨headerBytes_eq, fun tag => ⟨tagBytes_length tag, tag_read tag⟩, fun id e input env s k ready clean => ?_⟩
  intro len l fits room found live inUse host supervisor quiesce header nonce sealed packet use next spends charged
  have length : (bytesAt input 0 len).length = len := bytesAt_length _ _ _
  have packet_ : outboundPacket l e (bytesAt input 0 len) = packet := by
    have header_ : outboundHeader l e.slotField len = header := rfl
    have nonce_ : packetNonce l.current.salt header = nonce := congrArg (fun d : Byte => l.current.salt ++ d ++ header.generation ++
      header.sequence) (show direction header = 0 from outward_direction)
    rw [outboundPacket, length, header_, sealPacket, encipher, nonce_]
  have unheld : holdRefusal l s.quiesce = none := by
    rw [quiesce]
    exact holdRefusal_none host supervisor
  have does := serveOutbound_written (input := input) clean fits room found live unheld
  have spends_ : outboundSpends (outboundUsed l len) = true ↔ spends := outboundSpends_iff inUse len
  have judged {α : Type} (x y : α) : (if outboundSpends (outboundUsed l len) = true then x else y) = if spends then x else y :=
    if_congr spends_ rfl rfl
  have done := entry_done ready clean (served_serveOutbound (map := True) (profiles := True) e input _) does nofun
    (outboundUse_posted _ _ k)
  rw [packet_, judged, judged] at done
  refine ⟨_, rfl, ?_, done⟩
  rw [← packet_, outboundPacket, sealPacket_length, length]

/-! ### Packets that come to a key -/

/-- A packet that comes to a key has its body and tag read. -/
theorem serveInbound_accessed (clean : cleanEnv env) (comes : InboundAtKey s e input k choice) :
    serveInbound e input (s.accessed env 1 []) = decipherInbound k e input (parseHeader input) choice (s.accessed env 2 []) :=
  serveInbound_atKey comes (hostRead_accessed clean s 1) rfl rfl

/-- Settles O36: the charge, the score, and the checks of the key charged. -/
theorem inboundTagFailure : Obligations.InboundTagFailure := by
  refine ⟨fun l w => ⟨rfl, rfl, rfl, rfl, rfl, rfl, rfl, rfl, rfl, rfl, rfl, rfl⟩, fun l len => ⟨rfl, rfl, rfl, rfl⟩,
    fun id e input env s k choice ready clean => ?_⟩
  intro h len comes fails charged scored
  have does := (serveInbound_accessed clean comes).trans
    (decipherInbound_fails (e := e) (hostRead_accessed clean s 2) (choice := choice) fails)
  have posted : (afterCharge k choice scored).posted = [] := (quiet_afterCharge k choice _).posted.trans (quiet_scoreKind k _ _).posted
  have done := entry_done ready clean (served_serveInbound (map := True) (profiles := True) e input _) does nofun posted
  exact ⟨_, rfl, by cases choice <;> exact done⟩

/-- Steps 1 to 4 of a tag pass make no access. -/
theorem tagPassed_host (k : Slot) (choice : KeyChoice) (q : Nat) (s : State) :
    (tagPassed k choice q s).posted = s.posted ∧ (tagPassed k choice q s).bus = s.bus := by
  have heard := quiet_endSilence k (s.modLink k fun l => l.setWindow (windowAdvance (l.windowOf choice) q) choice)
  have erased := Quiet.ite (c := choice = .current) (quiet_eraseRetiring k (endSilence k (s.modLink k fun l =>
    l.setWindow (windowAdvance (l.windowOf choice) q) choice))) (.refl _)
  have passed := (heard.trans erased).trans (quiet_afterCharge k choice _)
  exact ⟨passed.posted, passed.bus⟩

theorem tagPassed_current (k : Slot) (q : Nat) (s : State) : tagPassed k .current q s =
    dueCheck k .testsUrgency (checkCurrent k (eraseRetiring k (endSilence k
      (s.modLink k fun l => l.setWindow (windowAdvance (l.windowOf .current) q) .current)))) := by
  rw [tagPassed, if_pos rfl, afterCharge]

theorem tagPassed_retiring (k : Slot) (q : Nat) (s : State) : tagPassed k .retiring q s =
    checkRetiring k (endSilence k (s.modLink k fun l => l.setWindow (windowAdvance (l.windowOf .retiring) q) .retiring)) := by
  rw [tagPassed, if_neg (by decide), afterCharge]

theorem writeOutput_nil (e : WorkEntry) (s : State) : writeOutput e [] s = (true, s) := rfl

theorem writeOutput_granted (h : s.granted 1) (some_ : body ≠ []) :
    writeOutput e body s = (true, s.wrote 1 [⟨e.outputAddress, body⟩]) := by
  rw [writeOutput, if_neg (by rwa [List.length_eq_zero_iff]), hostWrite_granted h]

/-- A plaintext delivered, every access succeeding. -/
theorem deliverData_granted (granted : s.granted 1) : deliverData k e h choice text s =
    let out : List HostWrite := if text.length = 0 then [] else [⟨e.outputAddress, text⟩]
    ({ inboundResult h k.val .delivered choice.detail with outputLength := text.length }, s.wrote out.length out) := by
  by_cases empty : text = []
  · subst empty
    exact congrArg (Prod.mk _) (State.wrote_zero s).symm
  · have some_ : ¬ text.length = 0 := by rwa [List.length_eq_zero_iff]
    rw [deliverData, writeOutput_granted granted empty, if_neg some_]
    rfl

section
variable (clean : cleanEnv env) (comes : InboundAtKey s e input k choice) (reads : inboundText s input k choice = some text)
include clean comes reads

/-- A packet that deciphers, handed on by its class. -/
theorem serveInbound_reads :
    serveInbound e input (s.accessed env 1 []) =
      let passed := tagPassed k choice (parseHeader input).sequence.toNat
        ((s.accessed env 3 []).modLink k fun l => l.charge (cost (parseHeader input).bodyLength.toNat) choice)
      if (parseHeader input).class_ = classData then deliverData k e (parseHeader input) choice text passed
      else consumeControl k e (parseHeader input) text passed :=
  (serveInbound_accessed clean comes).trans (decipherInbound_reads (e := e) (hostRead_accessed clean s 2) reads)

end

theorem tagPassed_clean (clean : cleanEnv env) (s : State) (k : Slot) (choice : KeyChoice) (q : Nat) (n : Nat) (f : Link → Link) :
    (tagPassed k choice q ((s.accessed env n []).modLink k f)).busClean := by
  rw [State.busClean, (tagPassed_host k choice q _).2]
  exact accessed_clean clean s n []

/-- Settles O37: steps 1 to 4 of a tag pass, then the plaintext. -/
theorem inboundDataDelivered : Obligations.InboundDataDelivered := by
  intro id e input env s k choice text ready clean h len comes isData reads out charged advanced heard
  have length : text.length = len := inboundText_length reads
  have traffic : choice ≠ .root := by
    rintro rfl
    obtain ⟨good, found, state, class_, selected, window⟩ := comes
    have control : h.class_ = 2 := class_.mpr (selectKey_root_iff.mp selected)
    rw [isData] at control
    exact absurd control (by decide)
  have does := (serveInbound_reads clean comes reads).trans ((if_pos isData).trans
    (deliverData_granted (State.granted_of_clean (tagPassed_clean clean s k choice _ 3 _) 1)))
  have posted : ((tagPassed k choice h.sequence.toNat charged).wrote out.length out).posted = out := by
    rw [State.wrote, (tagPassed_host k choice _ _).1]
    rfl
  dsimp only at does
  rw [length] at does
  have done := entry_done ready clean (served_serveInbound (map := True) (profiles := True) e input _) does nofun posted
  refine ⟨_, rfl, length, traffic, ?_⟩
  cases choice with
  | root => exact absurd rfl traffic
  | current =>
    rw [tagPassed_current] at done
    exact done
  | retiring =>
    rw [tagPassed_retiring] at done
    exact done

/-! ### Control bodies -/

section
variable {n : RecordNumber} {g : Nat} {nonce : AttemptNonce} {proof : Proof} {reason : Refuse}

theorem takeAccept_taken (record : s.recordOf k = some n) (answers : AcceptMatches s.records[n] g nonce proof) :
    takeAccept k g nonce proof s = (true, install n s) := by
  rw [takeAccept, record]
  exact if_pos ⟨replyMatches_iff.mpr answers.1, answers.2⟩

theorem takeAccept_stale (stale : ∀ n, s.recordOf k = some n → ¬ AcceptMatches s.records[n] g nonce proof) :
    takeAccept k g nonce proof s = (false, s) := by
  rw [takeAccept]
  cases record : s.recordOf k with
  | none => rfl
  | some n => exact if_neg fun ⟨answers, proves⟩ => stale n record ⟨replyMatches_iff.mp answers, proves⟩

theorem takeRefuse_taken (record : s.recordOf k = some n) (answers : ReplyMatches s.records[n] g nonce) :
    takeRefuse k g nonce reason s = (true, endAttempt n (s.setRecord n { s.records[n] with lastRefusal := reason })) := by
  rw [takeRefuse, record]
  exact if_pos (replyMatches_iff.mpr answers)

theorem takeRefuse_stale (stale : ∀ n, s.recordOf k = some n → ¬ ReplyMatches s.records[n] g nonce) :
    takeRefuse k g nonce reason s = (false, s) := by
  rw [takeRefuse]
  cases record : s.recordOf k with
  | none => rfl
  | some n => exact if_neg fun answers => stale n record (replyMatches_iff.mp answers)

end

section
variable {generation : Nat} {nonce : AttemptNonce} {proof : Proof} {reason : Refuse} {entries : List ShopCode} {detail : Detail}

theorem consumeControl_invalid (shape : parseControl text = .invalid detail) : consumeControl k e h text s =
    (inboundResult h k.val .malformed detail, scoreKind k .exchangeFault s) := by
  rw [consumeControl, shape]

theorem consumeControl_accept (shape : parseControl text = .accept generation nonce proof)
    (takes : takeAccept k generation nonce proof s = (true, t)) :
    consumeControl k e h text s = (inboundResult h k.val .consumed .acceptTaken, t) := by
  rw [consumeControl, shape]
  dsimp only
  rw [takes]

theorem consumeControl_staleAccept (shape : parseControl text = .accept generation nonce proof)
    (stale : takeAccept k generation nonce proof s = (false, t)) :
    consumeControl k e h text s = (inboundResult h k.val .consumed .stale, scoreKind k .exchangeFault t) := by
  rw [consumeControl, shape]
  dsimp only
  rw [stale]

theorem consumeControl_refuse (shape : parseControl text = .refuse generation nonce reason)
    (takes : takeRefuse k generation nonce reason s = (true, t)) :
    consumeControl k e h text s = (inboundResult h k.val .consumed .refuseTaken, t) := by
  rw [consumeControl, shape]
  dsimp only
  rw [takes]

theorem consumeControl_staleRefuse (shape : parseControl text = .refuse generation nonce reason)
    (stale : takeRefuse k generation nonce reason s = (false, t)) :
    consumeControl k e h text s = (inboundResult h k.val .consumed .stale, scoreKind k .exchangeFault t) := by
  rw [consumeControl, shape]
  dsimp only
  rw [stale]

theorem consumeControl_report (shape : parseControl text = .report entries) {written : Bool}
    (wrote : writeOutput e text (takeReport k entries s) = (written, t)) :
    consumeControl k e h text s =
      if written then ({ inboundResult h k.val .reportDelivered .none with outputLength := text.length }, t)
      else (inboundResult h k.val .busFault .write, t) := by
  rw [consumeControl, shape]
  dsimp only
  rw [wrote]

end

theorem report_nonempty {entries : List ShopCode} (shape : parseControl text = .report entries) : text ≠ [] := by
  rintro rfl
  rw [show parseControl [] = .invalid .controlCode from rfl] at shape
  cases shape

/-- Hearing a packet on the root channel changes no renewal record. -/
theorem records_tagPassed_root (k : Slot) (q : Nat) (s : State) : (tagPassed k .root q s).records = s.records := by
  rw [tagPassed_root, endSilence, clearIfActive]
  split
  · exact (beside_linkNotice k _ _ _).records
  · rfl

/-- Settles O38: the root key deciphers, and the body decides who takes it. -/
theorem inboundControlConsumed : Obligations.InboundControlConsumed := by
  intro id e input env s k text ready clean h comes isControl reads charged heard done
  have heard_ : tagPassed k .root h.sequence.toNat charged = heard := tagPassed_root k _ _
  have notData : ¬ h.class_ = classData := by
    rw [isControl]
    decide
  have clean_ : heard.busClean := by
    rw [← heard_]
    exact tagPassed_clean clean s k .root _ 3 _
  have posted_ : heard.posted = [] := by
    rw [← heard_]
    exact (tagPassed_host k .root _ _).1
  have records : heard.records = s.records := by
    rw [← heard_]
    exact records_tagPassed_root k _ _
  clear_value heard
  have recordOf : heard.recordOf k = s.recordOf k := recordOf_congr records k
  have consumed : serveInbound e input (s.accessed env 1 []) = consumeControl k e h text heard := by
    rw [← heard_]
    exact (serveInbound_reads clean comes reads).trans (if_neg notData)
  have finish {status : Status} {detail : Detail} {length : Nat} {out : List HostWrite} {own : State}
      (does : consumeControl k e h text heard = ({ inboundResult h k.val status detail with outputLength := length }, own))
      (ok : status ≠ .busFault) (posted : own.posted = out) : done status detail length out own :=
    ⟨_, rfl, entry_done ready clean (served_serveInbound (map := True) (profiles := True) e input _) (consumed.trans does) ok posted⟩
  have scored : (scoreKind k .exchangeFault heard).posted = [] := (quiet_scoreKind k _ _).posted.trans posted_
  cases shape : parseControl text with
  | invalid detail => exact finish (consumeControl_invalid shape) nofun scored
  | accept g nonce proof =>
    refine ⟨fun n record answers => ?_, fun stale => ?_⟩
    · rw [← recordOf] at record
      rw [← records] at answers
      exact finish (consumeControl_accept shape (takeAccept_taken record answers)) nofun ((quiet_install n _).posted.trans posted_)
    · rw [← recordOf, ← records] at stale
      exact finish (consumeControl_staleAccept shape (takeAccept_stale stale)) nofun scored
  | refuse g nonce reason =>
    refine ⟨fun n record answers => ?_, fun stale => ?_⟩
    · rw [← recordOf] at record
      rw [← records] at answers ⊢
      exact finish (consumeControl_refuse shape (takeRefuse_taken record answers)) nofun
        ((quiet_endAttempt n _).posted.trans posted_)
    · rw [← recordOf, ← records] at stale
      exact finish (consumeControl_staleRefuse shape (takeRefuse_stale stale)) nofun scored
  | report entries =>
    have quiet := quiet_takeReport k entries heard
    have granted : (takeReport k entries heard).granted 1 := State.granted_of_clean (by rw [State.busClean, quiet.bus]; exact clean_) 1
    refine finish ((consumeControl_report shape (writeOutput_granted granted (report_nonempty shape))).trans (if_pos rfl)) nofun ?_
    rw [State.wrote, quiet.posted, posted_]
    rfl

end Sys2Proof.Machine
end

