-- ==== Sys2Proof/Proofs/Paces.lean ====
section
/-! PROOFS. The pace of an operation: how many accesses of host memory it makes while all succeed, and that under any other outcomes of as many it does the same until one fails or RESETN falls. -/

namespace Sys2Proof.Machine
variable {α β : Type} {s t u v w : State} {a : α} {b : β} {d e j landed : Nat} {ws vs us : List HostWrite} {m : Memory}

/-! ## States that differ in what is still to come -/

/-- The state with other outcomes of its accesses still to come. -/
def State.facing (bus : List BusOutcome) (s : State) : State := s.outside (.host s.resetn s.hostMem s.posted bus)

/-- The state as a fall of RESETN has left its accesses: memory and writes made stay as they are. -/
def State.afterFall (m : Memory) (posted : List HostWrite) (s : State) : State := s.outside (.host false m posted [.fall 0])

/-- Outcomes of which the first `j` are successes, the next one a fall of RESETN. -/
def fallAfter (j landed : Nat) : List BusOutcome := List.replicate j .done ++ [.fall landed]

/-- What host memory holds, and which writes have been made, where RESETN falls after `j` accesses of an operation whose
writes are `vs`. -/
structure CutShort (j landed : Nat) (memory : Memory) (vs : List HostWrite) (m : Memory) (ws : List HostWrite) : Prop where
  begins : ws <+: vs
  few : ws.length ≤ j
  whole : landed = 0 → m = applyWrites memory ws
  frame : ∀ x, (∀ w ∈ vs, ¬ w.covers x) → m.readByte x = memory.readByte x

/-- An operation that makes `d` accesses at a state where all succeed, with the writes `vs`, and then answers `a` and leaves
`v`: it does the same under every run of outcomes that begins with `d` successes, and is cut short by a fall before. -/
structure Paced (f : State → α × State) (t : State) (a : α) (v : State) (d : Nat) (vs : List HostWrite) : Prop where
  few : vs.length ≤ d
  resetn : v.resetn = t.resetn
  posted : v.posted = t.posted ++ vs
  hostMem : v.hostMem = applyWrites t.hostMem vs
  does : ∀ rest, f (t.facing (List.replicate d .done ++ rest)) = (a, v.facing rest)
  clean : ∀ j ≤ d, f (t.facing (List.replicate j .done)) = (a, v.facing [])
  fallen : ∀ m p, f (t.afterFall m p) = (a, v.afterFall m p)
  cut : ∀ j < d, ∀ landed, ∃ m ws, CutShort j landed t.hostMem vs m ws ∧
    f (t.facing (fallAfter j landed)) = (a, v.afterFall m (t.posted ++ ws))

/-- An operation is paced at a state. -/
def PacedAt (f : State → α × State) (t : State) : Prop := ∃ a v d vs, Paced f t a v d vs

/-- An operation without answer is paced at a state. -/
def PacedStep (f : State → State) (t : State) : Prop := PacedAt (fun s => ((), f s)) t

/-! ## Rules -/

theorem CutShort.append {n : Memory} (h : CutShort j landed m vs n ws) (us : List HostWrite) : CutShort j landed m (vs ++ us) n ws where
  begins := h.begins.trans (List.prefix_append _ _)
  few := h.few
  whole := h.whole
  frame x out := h.frame x fun w mem => out w (List.mem_append_left _ mem)

theorem CutShort.after {n : Memory} (h : CutShort (j - d) landed (applyWrites m vs) us n ws) (few : vs.length ≤ d) (le : d ≤ j) :
    CutShort j landed m (vs ++ us) n (vs ++ ws) where
  begins := (List.prefix_append_right_inj vs).mpr h.begins
  few := by
    have := h.few
    rw [List.length_append]
    omega
  whole z := by rw [h.whole z, applyWrites_append]
  frame x out := by
    rw [h.frame x fun w mem => out w (List.mem_append_right _ mem)]
    exact readByte_applyWrites_outside _ _ fun w mem => out w (List.mem_append_left _ mem)

/-- One operation after another. -/
theorem Paced.bind {f : State → α × State} {g : α → State → β × State} (hf : Paced f t a v d vs) (hg : Paced (g a) v b w e us) :
    Paced (fun s => g (f s).1 (f s).2) t b w (d + e) (vs ++ us) where
  few := by
    rw [List.length_append]
    exact Nat.add_le_add hf.few hg.few
  resetn := hg.resetn.trans hf.resetn
  posted := by rw [hg.posted, hf.posted, List.append_assoc]
  hostMem := by rw [hg.hostMem, hf.hostMem, applyWrites_append]
  does rest := by
    rw [List.replicate_add, List.append_assoc, hf.does, hg.does]
  clean j le := by
    by_cases early : j ≤ d
    · have second := hg.clean 0 (Nat.zero_le e)
      rw [hf.clean j early]
      exact second
    · have split : j = d + (j - d) := by omega
      have first := hf.does (List.replicate (j - d) .done)
      rw [split, List.replicate_add, first]
      exact hg.clean (j - d) (by omega)
  fallen m p := by
    rw [hf.fallen, hg.fallen]
  cut j lt landed := by
    by_cases early : j < d
    · obtain ⟨m, ws, short, ends⟩ := hf.cut j early landed
      refine ⟨m, ws, short.append us, ?_⟩
      rw [ends, hg.fallen]
    · obtain ⟨m, ws, short, ends⟩ := hg.cut (j - d) (by omega) landed
      rw [hf.hostMem] at short
      rw [hf.posted, List.append_assoc] at ends
      refine ⟨m, vs ++ ws, short.after hf.few (by omega), ?_⟩
      have split : fallAfter j landed = List.replicate d .done ++ fallAfter (j - d) landed := by
        rw [fallAfter, fallAfter, ← List.append_assoc, ← List.replicate_add, Nat.add_sub_cancel' (by omega)]
      rw [split, hf.does, ends]

/-- Operations that agree whatever is outside are paced alike. -/
theorem Paced.congr {f g : State → α × State} (h : ∀ r m p b, f (t.outside (.host r m p b)) = g (t.outside (.host r m p b)))
    (paced : Paced g t a v d vs) : Paced f t a v d vs where
  few := paced.few
  resetn := paced.resetn
  posted := paced.posted
  hostMem := paced.hostMem
  does rest := (h _ _ _ _).trans (paced.does rest)
  clean j le := (h _ _ _ _).trans (paced.clean j le)
  fallen m p := (h _ _ _ _).trans (paced.fallen m p)
  cut j lt landed := by
    obtain ⟨m, ws, short, ends⟩ := paced.cut j lt landed
    exact ⟨m, ws, short, (h _ _ _ _).trans ends⟩

/-- An operation that makes no access. -/
theorem Paced.inert {f : State → α × State} (blind : ∀ r m p b, f (t.outside (.host r m p b)) = (a, v.outside (.host r m p b)))
    (resetn : v.resetn = t.resetn) (hostMem : v.hostMem = t.hostMem) (posted : v.posted = t.posted) : Paced f t a v 0 [] where
  few := Nat.le_refl 0
  resetn := resetn
  posted := by rw [posted, List.append_nil]
  hostMem := hostMem
  does rest := by rw [State.facing, blind, State.facing, resetn, hostMem, posted]; rfl
  clean j le := by
    rw [Nat.le_zero.mp le, State.facing, blind, State.facing, resetn, hostMem, posted]
    rfl
  fallen m p := blind _ _ _ _
  cut j lt := absurd lt (Nat.not_lt_zero j)

theorem cutShort_start (landed : Nat) (m : Memory) (vs : List HostWrite) : CutShort 0 landed m vs m [] where
  begins := List.nil_prefix
  few := Nat.le_refl 0
  whole _ := rfl
  frame _ _ := rfl

/-- A read. -/
theorem paced_hostRead (t : State) : Paced hostRead t true t 1 [] where
  few := Nat.zero_le 1
  resetn := rfl
  posted := (List.append_nil _).symm
  hostMem := rfl
  does _ := rfl
  clean j le := by
    obtain rfl | rfl : j = 0 ∨ j = 1 := by omega
    · rfl
    · rfl
  fallen _ _ := rfl
  cut j lt landed := by
    obtain rfl : j = 0 := by omega
    exact ⟨t.hostMem, [], cutShort_start _ _ _, by rw [List.append_nil]; rfl⟩

/-- The memory that a write cut short by a fall leaves. -/
def landedMemory (kind : WriteKind) (a : Address) (landed : Nat) (bytes : List Byte) (m : Memory) : Memory :=
  if kind = .output then m.writeLanded a landed bytes else m

theorem writeLanded_zero (m : Memory) (a : Address) (bytes : List Byte) : m.writeLanded a 0 bytes = m := by
  induction bytes generalizing a with
  | nil => rfl
  | cons b bytes ih => exact ih (a + 1)

theorem landedMemory_zero (kind : WriteKind) (a : Address) (bytes : List Byte) (m : Memory) : landedMemory kind a 0 bytes m = m := by
  rw [landedMemory, writeLanded_zero, ite_self]

theorem cutShort_write (kind : WriteKind) (a : Address) (landed : Nat) (bytes : List Byte) (m : Memory) :
    CutShort 0 landed m [⟨a, bytes⟩] (landedMemory kind a landed bytes m) [] where
  begins := List.nil_prefix
  few := Nat.le_refl 0
  whole z := by
    rw [z, landedMemory_zero]
    rfl
  frame x out := by
    unfold landedMemory
    split
    · exact Memory.readByte_writeLanded_outside _ _ _ _ (out _ List.mem_cons_self)
    · rfl

/-- A write. -/
theorem paced_hostWrite (kind : WriteKind) (a : Address) (bytes : List Byte) (t : State) :
    Paced (hostWrite kind a bytes) t true (t.wrote 0 [⟨a, bytes⟩]) 1 [⟨a, bytes⟩] where
  few := Nat.le_refl 1
  resetn := rfl
  posted := rfl
  hostMem := rfl
  does _ := rfl
  clean j le := by
    obtain rfl | rfl : j = 0 ∨ j = 1 := by omega
    · rfl
    · rfl
  fallen m p := by
    rw [hostWrite_fall (rest := []) rfl]
    have stays : landBytes a 0 bytes (t.afterFall m p) = t.afterFall m p :=
      congrArg (fun n => t.afterFall n p) (writeLanded_zero m a bytes)
    cases kind with
    | output => exact congrArg (Prod.mk true) stays
    | whole => rfl
    | tailItem => rfl
  cut j lt landed := by
    obtain rfl : j = 0 := by omega
    refine ⟨_, [], cutShort_write kind a landed bytes t.hostMem, ?_⟩
    rw [hostWrite_fall (rest := []) rfl, List.append_nil]
    cases kind <;> rfl

end Sys2Proof.Machine
end

