-- ==== Sys2Proof/Proofs/Pacing.lean ====
section
/-! PROOFS. The pace of the board writes, of the traffic and of the administrative requests. -/

namespace Sys2Proof.Machine
variable {α β : Type} {s t u v w : State} {k : Slot} {e : WorkEntry} {input body text : List Byte}

/-! ## Rules -/

theorem PacedAt.bind {f : State → α × State} {g : α → State → β × State} (hf : PacedAt f t) (hg : ∀ a v, PacedAt (g a) v) :
    PacedAt (fun s => g (f s).1 (f s).2) t := by
  obtain ⟨a, v, d, vs, hf⟩ := hf
  obtain ⟨b, w, e, us, hg⟩ := hg a v
  exact ⟨b, w, _, _, hf.bind hg⟩

theorem PacedAt.congr {f g : State → α × State} (paced : PacedAt g t)
    (h : ∀ r m p b, f (t.outside (.host r m p b)) = g (t.outside (.host r m p b))) : PacedAt f t := by
  obtain ⟨a, v, d, vs, hg⟩ := paced
  exact ⟨a, v, d, vs, hg.congr h⟩

theorem PacedStep.congr {f g : State → State} (paced : PacedStep g t)
    (h : ∀ r m p b, f (t.outside (.host r m p b)) = g (t.outside (.host r m p b))) : PacedStep f t :=
  PacedAt.congr paced fun r m p b => congrArg (Prod.mk ()) (h r m p b)

theorem PacedStep.then {f g : State → State} (hf : PacedStep f t) (hg : ∀ v, PacedStep g v) : PacedStep (fun s => g (f s)) t :=
  PacedAt.bind hf fun _ v => hg v

theorem PacedStep.answer {f : State → State} {g : State → α × State} (hf : PacedStep f t) (hg : ∀ v, PacedAt g v) :
    PacedAt (fun s => g (f s)) t := PacedAt.bind hf fun _ v => hg v

/-- An operation with an answer, and what is done with it. -/
theorem PacedAt.step {f : State → α × State} {g : α → State → State} (hf : PacedAt f t) (hg : ∀ a v, PacedStep (g a) v) :
    PacedStep (fun s => g (f s).1 (f s).2) t := PacedAt.bind hf hg

theorem PacedAt.pure (a : α) (t : State) : PacedAt (fun s => (a, s)) t := ⟨a, t, 0, [], .inert (fun _ _ _ _ => rfl) rfl rfl rfl⟩

theorem PacedStep.id (t : State) : PacedStep (fun s => s) t := PacedAt.pure () t

/-- An operation that does not see what is outside leaves it as it is. -/
theorem host_of_blind {f : State → State} (blind : ∀ r m p b, f (t.outside (.host r m p b)) = (f t).outside (.host r m p b)) :
    (f t).resetn = t.resetn ∧ (f t).hostMem = t.hostMem ∧ (f t).posted = t.posted ∧ (f t).bus = t.bus := by
  have same : f t = (f t).outside (.host t.resetn t.hostMem t.posted t.bus) := blind t.resetn t.hostMem t.posted t.bus
  rw [same]
  exact ⟨rfl, rfl, rfl, rfl⟩

theorem Inert.of_blind {f : State → State}
    (blind : ∀ s r m p b, f (s.outside (.host r m p b)) = (f s).outside (.host r m p b)) : Inert f where
  blind := blind
  resetn s := (host_of_blind (blind s)).1
  hostMem s := (host_of_blind (blind s)).2.1
  posted s := (host_of_blind (blind s)).2.2.1
  bus s := (host_of_blind (blind s)).2.2.2

/-- An operation with an answer that does not see what is outside. -/
theorem PacedAt.of_blind {f : State → α × State}
    (blind : ∀ r m p b, f (t.outside (.host r m p b)) = ((f t).1, (f t).2.outside (.host r m p b))) : PacedAt f t := by
  obtain ⟨resetn, hostMem, posted, _⟩ := host_of_blind (f := fun s => (f s).2) fun r m p b => congrArg Prod.snd (blind r m p b)
  exact ⟨_, _, 0, [], .inert blind resetn hostMem posted⟩

/-- An operation that makes no access, with an answer that does not depend on what is outside. -/
theorem Inert.answer {f : State → State} (h : Inert f) {x : State → α} (blind : ∀ r m p b, x (t.outside (.host r m p b)) = x t) :
    PacedAt (fun s => (x s, f s)) t :=
  .of_blind fun r m p b => by rw [blind, h.blind]

theorem Inert.paced {f : State → State} (h : Inert f) (t : State) : PacedStep f t :=
  ⟨(), f t, 0, [], .inert (fun r m p b => congrArg (Prod.mk ()) (h.blind t r m p b)) (h.resetn t) (h.hostMem t) (h.posted t)⟩

theorem PacedAt.ite {c : State → Prop} [∀ s, Decidable (c s)] {f g : State → α × State}
    (blind : ∀ r m p b, c (t.outside (.host r m p b)) ↔ c t) (yes : c t → PacedAt f t) (no : ¬ c t → PacedAt g t) :
    PacedAt (fun s => if c s then f s else g s) t := by
  by_cases h : c t
  · exact (yes h).congr fun r m p b => if_pos ((blind r m p b).mpr h)
  · exact (no h).congr fun r m p b => if_neg fun c => h ((blind r m p b).mp c)

theorem PacedStep.ite {c : State → Prop} [∀ s, Decidable (c s)] {f g : State → State}
    (blind : ∀ r m p b, c (t.outside (.host r m p b)) ↔ c t) (yes : c t → PacedStep f t) (no : ¬ c t → PacedStep g t) :
    PacedStep (fun s => if c s then f s else g s) t := by
  by_cases h : c t
  · exact (yes h).congr fun r m p b => if_pos ((blind r m p b).mpr h)
  · exact (no h).congr fun r m p b => if_neg fun c => h ((blind r m p b).mp c)

theorem PacedStep.foldl {f : State → β → State} (h : ∀ b v, PacedStep (fun s => f s b) v) (l : List β) (t : State) :
    PacedStep (fun s => l.foldl f s) t := by
  induction l generalizing t with
  | nil => exact PacedStep.id t
  | cons b l ih => exact (h b t).then ih

theorem pacedAt_hostRead (t : State) : PacedAt hostRead t := ⟨_, _, _, _, paced_hostRead t⟩

theorem pacedAt_hostWrite (kind : WriteKind) (a : Address) (bytes : List Byte) (t : State) : PacedAt (hostWrite kind a bytes) t :=
  ⟨_, _, _, _, paced_hostWrite kind a bytes t⟩

/-- The state that an operation with an answer leaves. -/
theorem PacedAt.state {f : State → α × State} (hf : PacedAt f t) : PacedStep (fun s => (f s).2) t :=
  hf.step fun _ v => PacedStep.id v

theorem inert_modLink (k : Slot) (f : Link → Link) : Inert fun s => s.modLink k f :=
  ⟨fun _ _ _ _ _ => rfl, fun _ => rfl, fun _ => rfl, fun _ => rfl, fun _ => rfl⟩

theorem Inert.id : Inert fun s => s := ⟨fun _ _ _ _ _ => rfl, fun _ => rfl, fun _ => rfl, fun _ => rfl, fun _ => rfl⟩

/-! ## The board -/

theorem paced_writeBoardSlot (base : Address) (k : Nat) (bytes : List Byte) (t : State) :
    PacedStep (writeBoardSlot base k bytes) t := (pacedAt_hostWrite _ _ _ t).state

theorem paced_writeDeviceSlot (base : Address) (t : State) : PacedStep (writeDeviceSlot base) t := by
  have again (v : State) : PacedStep (fun v => if deviceSlotBytes v = deviceSlotBytes t then v
      else writeBoardSlot base 512 (deviceSlotBytes v) v) v :=
    .ite (fun r m p b => by rw [outside_deviceSlotBytes]) (fun _ => .id v) fun _ =>
      (paced_writeBoardSlot base 512 (deviceSlotBytes v) v).congr fun r m p b => by rw [outside_deviceSlotBytes]
  refine ((paced_writeBoardSlot base 512 (deviceSlotBytes t) t).then again).congr fun r m p b => ?_
  rw [writeDeviceSlot, outside_deviceSlotBytes]

theorem paced_writeLinkSlots (s : State) (base : Address) (l : List Slot) (t : State) :
    PacedStep (fun t => l.foldl (fun t k => writeBoardSlot base k.val (linkSlotBytes s k) t) t) t :=
  .foldl (fun k v => paced_writeBoardSlot base k.val _ v) l t

theorem paced_flushBoard (before t : State) : PacedStep (flushBoard before) t := by
  cases board : t.boardBase with
  | none =>
    refine (PacedStep.id t).congr fun r m p b => ?_
    unfold flushBoard
    rw [outside_boardBase, board]
  | some base =>
    have device (v : State) : PacedStep (fun v => if deviceSlotBytes before = deviceSlotBytes v then v else writeDeviceSlot base v) v :=
      .ite (fun r m p b => by rw [outside_deviceSlotBytes]) (fun _ => .id v) fun _ => paced_writeDeviceSlot base v
    refine ((paced_writeLinkSlots t base (allSlots.filter (slotChanged before t)) t).then device).congr fun r m p b => ?_
    have changed : slotChanged before (t.outside (.host r m p b)) = slotChanged before t :=
      funext fun k => slotChanged_outside_right (o := .host r m p b) (s := t) before k
    unfold flushBoard
    rw [outside_boardBase, board, changed]
    dsimp only
    simp only [outside_linkSlotBytes]

theorem paced_fullBoardWrite (t : State) : PacedStep fullBoardWrite t := by
  cases board : t.boardBase with
  | none =>
    refine (PacedStep.id t).congr fun r m p b => ?_
    unfold fullBoardWrite
    rw [outside_boardBase, board]
  | some base =>
    refine ((paced_writeLinkSlots t base allSlots t).then (paced_writeDeviceSlot base)).congr fun r m p b => ?_
    unfold fullBoardWrite
    rw [outside_boardBase, board]
    dsimp only
    simp only [outside_linkSlotBytes]

theorem flushBoard_outside (o : Outside) (s t : State) : flushBoard (s.outside o) t = flushBoard s t := by
  have changed : slotChanged (s.outside o) t = slotChanged s t := funext fun k => slotChanged_outside_left o s t k
  unfold flushBoard
  rw [changed, outside_deviceSlotBytes]

theorem paced_withBoard {body : State → State} (h : PacedStep body t) : PacedStep (withBoard body) t :=
  (h.then (paced_flushBoard t)).congr fun r m p b => by rw [withBoard, flushBoard_outside]

/-! ## Traffic -/

/-- What an OUTBOUND entry does once its packet has been written, or not. -/
def outboundCharged (k : Slot) (l : Link) (len : Nat) (written : Bool) (s : State) : EntryResult × State :=
  let s := s.modLink k fun l => l.chargeCurrent (cost len)
  let spends := outboundSpends (s.link k)
  (if written then ⟨.ok, if spends then .lastUse else .none, 28 + len, k.val, l.current.generation, l.nextSequence⟩
    else ⟨.busFault, .write, 0, k.val, l.current.generation, l.nextSequence⟩,
    dueCheck k .testsUrgency (if spends then spendCurrent k s else s))

theorem outboundUse_split (k : Slot) (e : WorkEntry) (body : List Byte) (s : State) : outboundUse k e body s =
    let written := hostWrite .output e.outputAddress (outboundPacket (s.link k) e body) (s.modLink k sequencedRecord)
    outboundCharged k (s.link k) body.length written.1 written.2 := by
  unfold outboundUse outboundCharged
  dsimp only
  rw [show sealPacket (s.link k).current.key (s.link k).current.salt (outboundHeader (s.link k) e.slotField body.length) body =
    outboundPacket (s.link k) e body from rfl]
  generalize hostWrite .output e.outputAddress (outboundPacket (s.link k) e body) (s.modLink k sequencedRecord) = written
  obtain ⟨written, u⟩ := written
  cases written <;> rfl

theorem paced_outboundCharged (k : Slot) (l : Link) (len : Nat) (written : Bool) (t : State) :
    PacedAt (outboundCharged k l len written) t := by
  have charge := inert_modLink k fun l => l.chargeCurrent (cost len)
  have spent (s : State) : Inert fun u => dueCheck k .testsUrgency (if outboundSpends (s.link k) then spendCurrent k u else u) :=
    .of_blind fun u r m p b => by
      split
      · rw [host_spendCurrent, host_dueCheck]
      · rw [host_dueCheck]
  refine .of_blind fun r m p b => ?_
  unfold outboundCharged
  dsimp only
  rw [charge.blind t r m p b, outside_link]
  exact congrArg (Prod.mk _) ((spent _).blind _ r m p b)

theorem paced_outboundUse (k : Slot) (e : WorkEntry) (body : List Byte) (t : State) : PacedAt (outboundUse k e body) t := by
  have use := PacedAt.bind (PacedStep.answer ((inert_modLink k sequencedRecord).paced t)
    (pacedAt_hostWrite .output e.outputAddress (outboundPacket (t.link k) e body)))
    (paced_outboundCharged k (t.link k) body.length)
  refine use.congr fun r m p b => ?_
  rw [outboundUse_split, outside_link]

theorem paced_serveOutbound (e : WorkEntry) (input : List Byte) (t : State) : PacedAt (serveOutbound e input) t := by
  by_cases fits : e.inputLength.toNat ≤ 1536
  swap
  · exact (PacedAt.pure _ t).congr fun r m p b => serveOutbound_oversize (Nat.not_le.mp fits)
  by_cases room : e.inputLength.toNat + 28 ≤ e.outputRoom.toNat
  swap
  · exact (PacedAt.pure _ t).congr fun r m p b => serveOutbound_noRoom fits (Nat.not_le.mp room)
  cases found : lookupBranch t.branchMap e.slotField.toNat with
  | none => exact (PacedAt.pure _ t).congr fun r m p b => serveOutbound_unknown fits room (by rw [outside_branchMap, found])
  | some k =>
    have found_ (r m p b) : lookupBranch (t.outside (.host r m p b)).branchMap e.slotField.toNat = some k := by
      rw [outside_branchMap, found]
    have link (r m p b) : (t.outside (.host r m p b)).link k = t.link k := outside_link _ _ k
    cases state : (t.link k).state with
    | quarantined => exact (PacedAt.pure _ t).congr fun r m p b =>
        serveOutbound_quarantined fits room (found_ r m p b) (by rw [link, state])
    | vacant => exact (PacedAt.pure _ t).congr fun r m p b =>
        serveOutbound_noKey fits room (found_ r m p b) (.inl (by rw [link, state]))
    | standby => exact (PacedAt.pure _ t).congr fun r m p b =>
        serveOutbound_noKey fits room (found_ r m p b) (.inr (by rw [link, state]))
    | stalled => exact (PacedAt.pure _ t).congr fun r m p b =>
        serveOutbound_stalled fits room (found_ r m p b) (by rw [link, state])
    | live =>
      cases held : holdRefusal (t.link k) t.quiesce with
      | some refusal => exact (PacedAt.pure _ t).congr fun r m p b =>
          serveOutbound_held fits room (found_ r m p b) (by rw [link, state]) (by rw [link, outside_quiesce, held])
      | none =>
        have reads : PacedAt (fun s => if e.inputLength.toNat = 0 then (true, s) else hostRead s) t :=
          .ite (fun _ _ _ _ => Iff.rfl) (fun _ => .pure true t) fun _ => pacedAt_hostRead t
        have used (read : Bool) (v : State) : PacedAt (fun s => if read then
            outboundUse k e (bytesAt input 0 e.inputLength.toNat) s else (slotResult k.val .busFault .read, s)) v :=
          .ite (fun _ _ _ _ => Iff.rfl) (fun _ => paced_outboundUse k e _ v) fun _ => .pure _ v
        exact (reads.bind used).congr fun r m p b =>
          serveOutbound_passed fits room (found_ r m p b) (by rw [link, state]) (by rw [link, outside_quiesce, held]) rfl

theorem paced_writeOutput (e : WorkEntry) (body : List Byte) (t : State) : PacedAt (writeOutput e body) t :=
  .ite (fun _ _ _ _ => Iff.rfl) (fun _ => .pure true t) fun _ => pacedAt_hostWrite _ _ _ t

/-- What an output written, or not, answers. -/
theorem paced_answered (a b : EntryResult) (written : Bool) (t : State) : PacedAt (fun s => if written then (a, s) else (b, s)) t :=
  .ite (fun _ _ _ _ => Iff.rfl) (fun _ => .pure a t) fun _ => .pure b t

theorem paced_deliverData (k : Slot) (e : WorkEntry) (h : Header) (choice : KeyChoice) (body : List Byte) (t : State) :
    PacedAt (deliverData k e h choice body) t := (paced_writeOutput e body t).bind (paced_answered _ _)

theorem inert_scoreKind (k : Slot) (kind : RateKind) : Inert (scoreKind k kind) := .of_blind fun s r m p b => host_scoreKind s r m p b k kind

theorem paced_taken (k : Slot) (a b : EntryResult) (taken : Bool) (t : State) :
    PacedAt (fun s => if taken then (a, s) else (b, scoreKind k .exchangeFault s)) t :=
  .ite (fun _ _ _ _ => Iff.rfl) (fun _ => .pure a t) fun _ => (inert_scoreKind k _).answer fun _ _ _ _ => rfl

theorem paced_consumeControl (k : Slot) (e : WorkEntry) (h : Header) (body : List Byte) (t : State) :
    PacedAt (consumeControl k e h body) t := by
  cases shape : parseControl body with
  | invalid detail =>
    exact ((inert_scoreKind k .exchangeFault).answer (x := fun _ => inboundResult h k.val .malformed detail)
      fun _ _ _ _ => rfl).congr fun r m p b => consumeControl_invalid shape
  | accept generation nonce proof =>
    have takes : PacedAt (takeAccept k generation nonce proof) t := .of_blind fun r m p b => host_takeAccept t r m p b k _ _ _
    refine (takes.bind (paced_taken k (inboundResult h k.val .consumed .acceptTaken)
      (inboundResult h k.val .consumed .stale))).congr fun r m p b => ?_
    rcases taken : takeAccept k generation nonce proof (t.outside (.host r m p b)) with ⟨_ | _, u⟩
    · exact consumeControl_staleAccept shape taken
    · exact consumeControl_accept shape taken
  | refuse generation nonce reason =>
    have takes : PacedAt (takeRefuse k generation nonce reason) t := .of_blind fun r m p b => host_takeRefuse t r m p b k _ _ _
    refine (takes.bind (paced_taken k (inboundResult h k.val .consumed .refuseTaken)
      (inboundResult h k.val .consumed .stale))).congr fun r m p b => ?_
    rcases taken : takeRefuse k generation nonce reason (t.outside (.host r m p b)) with ⟨_ | _, u⟩
    · exact consumeControl_staleRefuse shape taken
    · exact consumeControl_refuse shape taken
  | report entries =>
    have inert : Inert (takeReport k entries) := .of_blind fun s r m p b => host_takeReport s r m p b k entries
    exact (PacedAt.bind ((inert.paced t).answer (paced_writeOutput e body)) (paced_answered _ _)).congr fun r m p b =>
      consumeControl_report shape rfl

theorem inert_tagPassed (k : Slot) (choice : KeyChoice) (q : Nat) : Inert (tagPassed k choice q) :=
  .of_blind fun s r m p b => host_tagPassed s r m p b k choice q

theorem inert_afterCharge (k : Slot) (choice : KeyChoice) : Inert (afterCharge k choice) :=
  .of_blind fun s r m p b => host_afterCharge s r m p b k choice

/-- What an INBOUND packet does once its body and tag have been read. -/
def inboundPacket (k : Slot) (e : WorkEntry) (input : List Byte) (h : Header) (choice : KeyChoice) (s : State) :
    EntryResult × State :=
  let charged := s.modLink k fun l => l.charge (cost h.bodyLength.toNat) choice
  let plain := decipher ((s.link k).keyOf choice).1 ((s.link k).keyOf choice).2 h (bytesAt input 12 h.bodyLength.toNat)
    (BitVec.ofNat 128 (ofLe (bytesAt input (12 + h.bodyLength.toNat) 16)))
  plain.elim (inboundResult h k.val .tagFail choice.detail, afterCharge k choice (scoreKind k .tagFail charged)) fun text =>
    if h.class_ = classData then deliverData k e h choice text (tagPassed k choice h.sequence.toNat charged)
    else consumeControl k e h text (tagPassed k choice h.sequence.toNat charged)

theorem decipherInbound_split (k : Slot) (e : WorkEntry) (input : List Byte) (h : Header) (choice : KeyChoice) (s : State) :
    decipherInbound k e input h choice s = if (hostRead s).1 then inboundPacket k e input h choice (hostRead s).2
      else (inboundResult h k.val .busFault .read, (hostRead s).2) := by
  unfold decipherInbound inboundPacket
  rcases hostRead s with ⟨_ | _, u⟩
  · rfl
  · dsimp only
    generalize decipher ((u.link k).keyOf choice).1 ((u.link k).keyOf choice).2 h (bytesAt input 12 h.bodyLength.toNat)
      (BitVec.ofNat 128 (ofLe (bytesAt input (12 + h.bodyLength.toNat) 16))) = plain
    cases plain <;> rfl

theorem paced_inboundPacket (k : Slot) (e : WorkEntry) (input : List Byte) (h : Header) (choice : KeyChoice) (t : State) :
    PacedAt (inboundPacket k e input h choice) t := by
  have charge := inert_modLink k fun l => l.charge (cost h.bodyLength.toNat) choice
  cases plain : decipher ((t.link k).keyOf choice).1 ((t.link k).keyOf choice).2 h (bytesAt input 12 h.bodyLength.toNat)
    (BitVec.ofNat 128 (ofLe (bytesAt input (12 + h.bodyLength.toNat) 16))) with
  | none =>
    refine (((charge.comp (inert_scoreKind k .tagFail)).comp (inert_afterCharge k choice)).answer
      (x := fun _ => inboundResult h k.val .tagFail choice.detail) fun _ _ _ _ => rfl).congr fun r m p b => ?_
    rw [inboundPacket, outside_link, plain]
    rfl
  | some text =>
    have handed (v : State) : PacedAt (fun s => if h.class_ = classData then deliverData k e h choice text s
        else consumeControl k e h text s) v :=
      .ite (fun _ _ _ _ => Iff.rfl) (fun _ => paced_deliverData k e h choice text v) fun _ => paced_consumeControl k e h text v
    refine (((charge.comp (inert_tagPassed k choice h.sequence.toNat)).paced t).answer handed).congr fun r m p b => ?_
    rw [inboundPacket, outside_link, plain]
    rfl

theorem paced_decipherInbound (k : Slot) (e : WorkEntry) (input : List Byte) (h : Header) (choice : KeyChoice) (t : State) :
    PacedAt (decipherInbound k e input h choice) t :=
  ((pacedAt_hostRead t).bind (g := fun read s => if read then inboundPacket k e input h choice s
    else (inboundResult h k.val .busFault .read, s)) fun _ v =>
      .ite (fun _ _ _ _ => Iff.rfl) (fun _ => paced_inboundPacket k e input h choice v) fun _ => .pure _ v).congr
    fun _ _ _ _ => decipherInbound_split _ _ _ _ _ _

theorem paced_inboundAtLink (k : Slot) (e : WorkEntry) (input : List Byte) (h : Header) (t : State) :
    PacedAt (inboundAtLink k e input h) t := by
  have scored (a : EntryResult) (kind : RateKind) : PacedAt (fun s => (a, scoreKind k kind s)) t :=
    (inert_scoreKind k kind).answer fun _ _ _ _ => rfl
  by_cases class_ : h.class_ = classControl ↔ h.generation.toNat = 0
  swap
  · exact (scored _ .exchangeFault).congr fun r m p b => inboundAtLink_mismatch (by tauto)
  have link (r m p b) : (t.outside (.host r m p b)).link k = t.link k := outside_link _ _ k
  cases selected : selectKey (t.link k) h.generation.toNat with
  | keySpent => exact (PacedAt.pure _ t).congr fun r m p b => inboundAtLink_keySpent class_ (by rw [link, selected])
  | unknownGen => exact (scored _ .unknownGen).congr fun r m p b => inboundAtLink_unknownGen class_ (by rw [link, selected])
  | key choice =>
    cases window : windowTest ((t.link k).windowOf choice) h.sequence.toNat with
    | replayed => exact (scored _ .replay).congr fun r m p b =>
        inboundAtLink_replayed class_ (by rw [link, selected]) (by rw [link, window])
    | tooOld => exact (scored _ .replay).congr fun r m p b =>
        inboundAtLink_tooOld class_ (by rw [link, selected]) (by rw [link, window])
    | passes => exact (paced_decipherInbound k e input h choice t).congr fun r m p b =>
        inboundAtLink_passes class_ (by rw [link, selected]) (by rw [link, window])

/-- What an INBOUND entry does once its packet's header has been read. -/
def inboundHeaded (e : WorkEntry) (input : List Byte) (s : State) : EntryResult × State :=
  (headerRefusal (parseHeader input) e.inputLength.toNat e.outputRoom.toNat).elim
    ((lookupBranch s.branchMap (parseHeader input).branch.toNat).elim
      (inboundResult (parseHeader input) noSlot .unknownBranch .none, countUnknownBranch s) fun k =>
        if (s.link k).state = .quarantined then (inboundResult (parseHeader input) k.val .quarantined .none, s)
        else inboundAtLink k e input (parseHeader input) s)
    fun refusal => (inboundResult (parseHeader input) noSlot refusal.1 refusal.2, s)

theorem serveInbound_split (long : 28 ≤ e.inputLength.toNat) (s : State) : serveInbound e input s =
    if (hostRead s).1 then inboundHeaded e input (hostRead s).2 else (.bare .busFault .read, (hostRead s).2) := by
  rw [serveInbound, if_neg (Nat.not_lt.mpr long)]
  unfold inboundHeaded
  rcases hostRead s with ⟨_ | _, u⟩
  · rfl
  · dsimp only
    cases headerRefusal (parseHeader input) e.inputLength.toNat e.outputRoom.toNat with
    | some refusal => rfl
    | none =>
      dsimp only
      cases lookupBranch u.branchMap (parseHeader input).branch.toNat <;> rfl

theorem paced_inboundHeaded (e : WorkEntry) (input : List Byte) (t : State) : PacedAt (inboundHeaded e input) t := by
  unfold inboundHeaded
  cases headerRefusal (parseHeader input) e.inputLength.toNat e.outputRoom.toNat with
  | some refusal => exact .pure _ t
  | none =>
    cases found : lookupBranch t.branchMap (parseHeader input).branch.toNat with
    | none =>
      refine PacedAt.congr (g := fun s => (inboundResult (parseHeader input) noSlot .unknownBranch .none, countUnknownBranch s))
        (.of_blind fun r m p b => by rw [outside_countUnknownBranch]) fun r m p b => ?_
      rw [outside_branchMap, found]
      rfl
    | some k =>
      refine PacedAt.congr (g := fun s => if (s.link k).state = .quarantined then
          (inboundResult (parseHeader input) k.val .quarantined .none, s) else inboundAtLink k e input (parseHeader input) s)
        (.ite (fun r m p b => by rw [outside_link]) (fun _ => .pure _ t) fun _ => paced_inboundAtLink k e input _ t)
        fun r m p b => ?_
      rw [outside_branchMap, found]
      rfl

theorem paced_serveInbound (e : WorkEntry) (input : List Byte) (t : State) : PacedAt (serveInbound e input) t := by
  by_cases long : 28 ≤ e.inputLength.toNat
  · exact ((pacedAt_hostRead t).bind (g := fun read s => if read then inboundHeaded e input s else (.bare .busFault .read, s))
      fun _ v => .ite (fun _ _ _ _ => Iff.rfl) (fun _ => paced_inboundHeaded e input v) fun _ => .pure _ v).congr
      fun _ _ _ _ => serveInbound_split long _
  · exact (PacedAt.pure _ t).congr fun _ _ _ _ => serveInbound_runt (Nat.not_le.mp long)

/-! ## Administrative requests -/

theorem paced_withBlock (slot : Nat) (e : WorkEntry) {next : State → EntryResult × State} (h : ∀ v, PacedAt next v) (t : State) :
    PacedAt (fun s => withBlock slot e s next) t :=
  .ite (fun _ _ _ _ => Iff.rfl) (fun _ => .pure _ t) fun _ =>
    (pacedAt_hostRead t).bind (g := fun read s => if read then next s else (slotResult slot .busFault .read, s))
      fun _ v => .ite (fun _ _ _ _ => Iff.rfl) (fun _ => h v) fun _ => .pure _ v

theorem paced_withOutput (e : WorkEntry) (bytes : List Byte) (good failed : EntryResult) {clear : State → State} (h : Inert clear)
    (t : State) : PacedAt (withOutput e bytes good failed clear) t :=
  (pacedAt_hostWrite .output e.outputAddress bytes t).bind
    (g := fun written s => if written then ({ good with outputLength := bytes.length }, clear s) else (failed, s))
    fun _ v => .ite (fun _ _ _ _ => Iff.rfl) (fun _ => h.answer fun _ _ _ _ => rfl) fun _ => .pure _ v

/-- A choice of what does not see what is outside. -/
theorem answer_ite {c : Prop} [Decidable c] {o : Outside} {x y x' y' : α × State} (yes : x' = (x.1, x.2.outside o))
    (no : y' = (y.1, y.2.outside o)) : (if c then x' else y') = ((if c then x else y).1, (if c then x else y).2.outside o) := by
  split
  · exact yes
  · exact no

theorem blind_enrolChecked (k : Slot) (e : WorkEntry) (b : LinkBlock) (s : State) (r m p c) :
    enrolChecked k e b (s.outside (.host r m p c)) = ((enrolChecked k e b s).1, (enrolChecked k e b s).2.outside (.host r m p c)) := by
  unfold enrolChecked
  simp only [outside_link, outside_branchMap, outside_profiles, outside_device, outside_masterKey, host_enrolLink]
  refine answer_ite rfl (answer_ite rfl (answer_ite rfl ?_))
  cases profileNumberOf b.profile with
  | none => rfl
  | some n =>
    refine answer_ite rfl (answer_ite rfl ?_)
    cases Config.cipher.unwrap s.masterKey b.wrappedKey with
    | none => rfl
    | some key => exact answer_ite rfl rfl

theorem blind_setLinkChecked (k : Slot) (b : LinkBlock) (s : State) (r m p c) :
    setLinkChecked k b (s.outside (.host r m p c)) = ((setLinkChecked k b s).1, (setLinkChecked k b s).2.outside (.host r m p c)) := by
  unfold setLinkChecked
  simp only [outside_link, outside_branchMap, outside_profiles, host_relink]
  refine answer_ite rfl (answer_ite rfl (answer_ite rfl (answer_ite rfl (answer_ite rfl ?_))))
  cases profileNumberOf b.profile with
  | none => rfl
  | some n => exact answer_ite rfl rfl

theorem blind_setProfileChecked (e : WorkEntry) (input : List Byte) (s : State) (r m p c) :
    setProfileChecked e input (s.outside (.host r m p c)) =
      ((setProfileChecked e input s).1, (setProfileChecked e input s).2.outside (.host r m p c)) := by
  unfold setProfileChecked
  cases profileNumberOf (ofLe (bytesAt input 0 1)) with
  | none => rfl
  | some n =>
    dsimp only
    rw [outside_namingLinks, outside_setProfile, host_writeProfile]
    generalize s.setProfile n .invalid = erased, writeProfile n (parseProfile input) s = written, (s.namingLinks n).length = count
    exact answer_ite (answer_ite rfl rfl) rfl

theorem blind_serveRetire (e : WorkEntry) (s : State) (r m p c) :
    serveRetire e (s.outside (.host r m p c)) = ((serveRetire e s).1, (serveRetire e s).2.outside (.host r m p c)) := by
  unfold serveRetire
  cases slotOf e.slotField with
  | none => rfl
  | some k =>
    simp only [outside_link, host_retireLink]
    exact answer_ite rfl rfl

theorem blind_markOne (k : Slot) (f : Link → Link) (s : State) (r m p c) :
    markOne k f (s.outside (.host r m p c)) = ((markOne k f s).1, (markOne k f s).2.outside (.host r m p c)) := by
  unfold markOne
  simp only [outside_link, outside_modLink]
  exact answer_ite rfl (answer_ite rfl rfl)

theorem blind_serveHold (e : WorkEntry) (s : State) (r m p c) :
    serveHold e (s.outside (.host r m p c)) = ((serveHold e s).1, (serveHold e s).2.outside (.host r m p c)) := by
  unfold serveHold
  rw [outside_enrolledSlots, outside_onEnrolled]
  generalize onEnrolled heldRecord s = held, s.enrolledSlots.length = count
  refine answer_ite rfl ?_
  cases slotOf e.slotField with
  | none => rfl
  | some k => exact blind_markOne k _ s r m p c

theorem blind_serveRelease (e : WorkEntry) (s : State) (r m p c) :
    serveRelease e (s.outside (.host r m p c)) = ((serveRelease e s).1, (serveRelease e s).2.outside (.host r m p c)) := by
  unfold serveRelease
  dsimp only
  rw [outside_enrolledSlots, outside_onEnrolled]
  generalize onEnrolled (releasedRecord (entryFlag0 e) (entryFlag1 e)) s = released, s.enrolledSlots.length = count
  refine answer_ite (answer_ite rfl rfl) ?_
  cases slotOf e.slotField with
  | none => rfl
  | some k => exact answer_ite (blind_markOne k _ s r m p c) rfl

theorem blind_serveRenewNow (e : WorkEntry) (s : State) (r m p c) :
    serveRenewNow e (s.outside (.host r m p c)) = ((serveRenewNow e s).1, (serveRenewNow e s).2.outside (.host r m p c)) := by
  unfold serveRenewNow
  rw [host_renewAll]
  generalize renewAll s = renewed
  refine answer_ite rfl ?_
  cases slotOf e.slotField with
  | none => rfl
  | some k =>
    dsimp only
    rw [outside_link, host_forcedJoin]
    cases (s.link k).state <;> rfl

theorem paced_serveEnrol (e : WorkEntry) (input : List Byte) (t : State) : PacedAt (serveEnrol e input) t := by
  unfold serveEnrol
  cases slotOf e.slotField with
  | none => exact .pure _ t
  | some k => exact paced_withBlock _ e (fun v => .of_blind fun r m p b => blind_enrolChecked k e _ v r m p b) t

theorem paced_serveSetLink (e : WorkEntry) (input : List Byte) (t : State) : PacedAt (serveSetLink e input) t := by
  unfold serveSetLink
  cases slotOf e.slotField with
  | none => exact .pure _ t
  | some k => exact paced_withBlock _ e (fun v => .of_blind fun r m p b => blind_setLinkChecked k _ v r m p b) t

theorem paced_serveSetProfile (e : WorkEntry) (input : List Byte) (t : State) : PacedAt (serveSetProfile e input) t :=
  paced_withBlock _ e (fun v => .of_blind fun r m p b => blind_setProfileChecked e input v r m p b) t

/-- A READ request that writes what it reads. -/
theorem paced_read {c : State → Prop} [∀ s, Decidable (c s)] (blind : ∀ r m p b, c (t.outside (.host r m p b)) ↔ c t)
    (refusal failed : EntryResult) {good : State → EntryResult} {bytes : State → List Byte} {clear : State → State}
    (same : ∀ r m p b, bytes (t.outside (.host r m p b)) = bytes t ∧ good (t.outside (.host r m p b)) = good t) (inert : Inert clear) :
    PacedAt (fun s => if c s then (refusal, s) else withOutput e (bytes s) (good s) failed clear s) t :=
  .ite blind (fun _ => .pure _ t) fun _ => (paced_withOutput e (bytes t) (good t) failed inert t).congr fun r m p b => by
    rw [(same r m p b).1, (same r m p b).2]

end Sys2Proof.Machine
end

