-- ==== Sys2Proof/Proofs/Falls.lean ====
section
/-! PROOFS. The pace of every command, and what a fall of RESETN within it leaves. -/

namespace Sys2Proof.Machine
variable {α : Type} {s t u v : State} {id : BatchId} {k : Slot} {e : WorkEntry}

/-! ## The READ requests, and every request -/

theorem outside_linkSummary (o : Outside) (s : State) (k : Slot) : linkSummary (s.outside o) k = linkSummary s k := by
  have renewal : renewalBytes (s.outside o) k = renewalBytes s k := by
    rw [renewalBytes, outside_recordOf, outside_records, renewalBytes]
  rw [linkSummary_eq, linkSummary_eq, outside_link, renewal]

theorem outside_deviceSummary (o : Outside) (s : State) : deviceSummary (s.outside o) = deviceSummary s := by
  have flags : (s.outside o).deviceFlags = s.deviceFlags := by
    rw [State.deviceFlags, outside_device, outside_quiesce, State.deviceFlags]
  have records : (s.outside o).recordsInUse = s.recordsInUse := by rw [State.recordsInUse, outside_records, State.recordsInUse]
  have due : (s.outside o).dueLength = s.dueLength := by rw [State.dueLength, outside_dueList, State.dueLength]
  have profiles : (s.outside o).validProfiles = s.validProfiles := by rw [State.validProfiles, outside_profiles, State.validProfiles]
  have quarantined : (s.outside o).quarantinedLinks = s.quarantinedLinks := by
    simp only [State.quarantinedLinks, outside_link]
  rw [deviceSummary_eq_layout, deviceSummary_eq_layout, deviceFields, flags, records, due, profiles, quarantined, outside_settings,
    outside_device, outside_dueList, outside_sendOrder, outside_queue, outside_enrolledSlots, outside_walkPosition, deviceFields]

theorem paced_serveReadLink (e : WorkEntry) (t : State) : PacedAt (serveReadLink e) t := by
  unfold serveReadLink
  cases slotOf e.slotField with
  | none => exact .pure _ t
  | some k =>
    refine .ite (fun _ _ _ _ => Iff.rfl) (fun _ => .pure _ t) fun _ => paced_read (fun r m p b => by rw [outside_link]) _ _
      (good := fun s => { slotResult k.val .ok .none with generation := (s.link k).current.generation })
      (bytes := fun s => linkSummary s k) (fun r m p b => ?_) Inert.id
    simp only [outside_linkSummary, outside_link, and_self]

theorem paced_serveReadFaults (e : WorkEntry) (t : State) : PacedAt (serveReadFaults e) t := by
  unfold serveReadFaults
  cases slotOf e.slotField with
  | none => exact .pure _ t
  | some k =>
    refine .ite (fun _ _ _ _ => Iff.rfl) (fun _ => .pure _ t) fun _ => paced_read (fun r m p b => by rw [outside_link]) _ _
      (good := fun _ => slotResult k.val .ok .none) (bytes := fun s => faultCopy (s.link k)) (fun r m p b => ?_)
      (.of_blind fun s r m p b => ?_)
    · simp only [outside_link, and_self]
    · split <;> rfl

theorem paced_serveReadDevice (e : WorkEntry) (t : State) : PacedAt (serveReadDevice e) t := by
  refine paced_read (fun _ _ _ _ => Iff.rfl) _ _ (good := fun _ => .bare .ok .none) (bytes := deviceSummary) (fun r m p b => ?_)
    (.of_blind fun s r m p b => ?_)
  · exact ⟨outside_deviceSummary _ t, rfl⟩
  · split <;> rfl

theorem paced_requestOf (c : Instr) (t : State) : PacedAt (requestOf c) t := by
  cases c with
  | outbound e input env => exact paced_serveOutbound e input t
  | inbound e input env => exact paced_serveInbound e input t
  | enrol e input env => exact paced_serveEnrol e input t
  | retire e env => exact .of_blind fun r m p b => blind_serveRetire e t r m p b
  | setLink e input env => exact paced_serveSetLink e input t
  | setProfile e input env => exact paced_serveSetProfile e input t
  | hold e env => exact .of_blind fun r m p b => blind_serveHold e t r m p b
  | release e env => exact .of_blind fun r m p b => blind_serveRelease e t r m p b
  | renewNow e env => exact .of_blind fun r m p b => blind_serveRenewNow e t r m p b
  | readLink e env => exact paced_serveReadLink e t
  | readFaults e env => exact paced_serveReadFaults e t
  | readDevice e env => exact paced_serveReadDevice e t
  | _ => exact .pure _ t

/-! ## The Batch Engine -/

/-- A write whose address and bytes do not depend on what is outside, and what follows it. -/
theorem paced_writing (kind : WriteKind) {a : State → Address} {bytes : State → List Byte} {f : Bool → State → State}
    (same : ∀ r m p b, a (t.outside (.host r m p b)) = a t ∧ bytes (t.outside (.host r m p b)) = bytes t)
    (h : ∀ written v, PacedStep (f written) v) :
    PacedStep (fun s => f (hostWrite kind (a s) (bytes s) s).1 (hostWrite kind (a s) (bytes s) s).2) t :=
  ((pacedAt_hostWrite kind (a t) (bytes t) t).step h).congr fun r m p b => by rw [(same r m p b).1, (same r m p b).2]

theorem inert_stopOnFault : Inert stopOnFault := .of_blind fun s _ _ _ _ => outside_stopOnFault _ s

theorem inert_setBatch (id : BatchId) (b : Batch) : Inert fun s => s.setBatch id b :=
  .of_blind fun s _ _ _ _ => outside_setBatch _ s id b

theorem inert_startedService (id : BatchId) : Inert (startedService id) := .of_blind fun _ _ _ _ _ => by
  simp only [startedService, outside_batch, outside_setBatch, waitingAfter, outside_setFirstWaiting, outside_serveFromStart]

theorem paced_startService (id : BatchId) (t : State) : PacedStep (startService id) t := by
  have header (v : State) : PacedStep (fun s => if (hostWrite .whole (headerAddress t.workBase id)
      (headerBlock .inService (t.batch id).taken 0 0) s).1 then (hostWrite .whole (headerAddress t.workBase id)
      (headerBlock .inService (t.batch id).taken 0 0) s).2 else stopOnFault (hostWrite .whole (headerAddress t.workBase id)
      (headerBlock .inService (t.batch id).taken 0 0) s).2) v :=
    (pacedAt_hostWrite _ _ _ v).step (g := fun written s => if written then s else stopOnFault s) fun _ w =>
      .ite (fun _ _ _ _ => Iff.rfl) (fun _ => .id w) fun _ => inert_stopOnFault.paced w
  refine (((inert_startedService id).paced t).then header).congr fun r m p b => ?_
  rw [startService_eq, outside_workBase, outside_batch]

theorem paced_fillTail (id : BatchId) (n j : Nat) (t : State) : PacedAt (fillTail id j n) t := by
  induction n generalizing j t with
  | zero => exact .pure j t
  | succ n ih =>
    cases queue : t.queue with
    | nil =>
      refine (PacedAt.pure j t).congr fun r m p b => ?_
      unfold fillTail
      rw [outside_queue, queue]
    | cons it rest =>
      have next (written : Bool) (v : State) : PacedAt (fun s => if written then fillTail id (j + 1) n (deliverItem it (popItem s))
          else (j, s)) v :=
        .ite (fun _ _ _ _ => Iff.rfl) (fun _ => ((inert_deliver it).paced v).answer (ih (j + 1))) fun _ => .pure j v
      refine ((pacedAt_hostWrite .tailItem (tailAddress t.workBase id j) (tailItemBytes it) t).bind next).congr fun r m p b => ?_
      rw [fillTail, outside_queue, queue, outside_workBase]
      dsimp only
      rcases hostWrite .tailItem (tailAddress t.workBase id j) (tailItemBytes it) (t.outside (.host r m p b)) with ⟨_ | _, u⟩ <;> rfl

theorem inert_setEngine (e : EngineState) : Inert (setEngine e) := .of_blind fun s _ _ _ _ => outside_setEngine _ s e

theorem paced_afterClose (id : BatchId) (t : State) : PacedStep (afterClose id) t :=
  .ite (fun r m p b => by rw [outside_run]) (fun _ => .ite (fun r m p b => by rw [outside_batch])
    (fun _ => paced_startService _ t) fun _ => (inert_setEngine _).paced t) fun _ => (inert_setEngine _).paced t

theorem inert_freedBatch (id : BatchId) : Inert (freedBatch id) := .of_blind fun _ _ _ _ _ => by
  simp only [freedBatch, outside_setBatch, outside_setCause]

theorem inert_collectAfterClose : Inert collectAfterClose := .of_blind fun s _ _ _ _ => outside_collectAfterClose _ s

theorem paced_closeTailed (id : BatchId) (j : Nat) (t : State) : PacedStep (fun s => closeTailed id (j, s)) t := by
  refine paced_writing .whole (a := fun s => headerAddress s.workBase id) (bytes := fun s =>
    headerBlock (if s.abandoned then .abandoned else .complete) (s.batch id).taken s.entriesDone j)
    (f := fun written s => if written then collectAfterClose (tryOriginate (afterClose id (freedBatch id s)))
      else tryOriginate (stopOnFault s)) (fun _ _ _ _ => ?_) fun written v => .ite (fun _ _ _ _ => Iff.rfl) (fun _ => ?_) fun _ => ?_
  · simp only [outside_workBase, outside_abandoned, outside_batch, outside_entriesDone, and_self]
  · exact (((inert_freedBatch id).paced v).then (paced_afterClose id)).then fun w =>
      (inert_tryOriginate.comp inert_collectAfterClose).paced w
  · exact (inert_stopOnFault.comp inert_tryOriginate).paced v

theorem paced_closeBatch (id : BatchId) (t : State) : PacedStep (closeBatch id) t :=
  ((paced_fillTail id (min t.settings.tailRoom t.queue.length) 0 t).step fun j v => paced_closeTailed id j v).congr
    fun r m p b => by rw [closeBatch_eq, outside_settings, outside_queue]

theorem paced_skipEntries (id : BatchId) (n i : Nat) (t : State) : PacedAt (skipEntries id i n) t := by
  induction n generalizing i t with
  | zero => exact .pure true t
  | succ n ih =>
    have next (written : Bool) (v : State) : PacedAt (fun s => if written then skipEntries id (i + 1) n (setAbandoned s)
        else (false, s)) v :=
      .ite (fun _ _ _ _ => Iff.rfl) (fun _ => (inert_setAbandoned.paced v).answer (ih (i + 1))) fun _ => .pure false v
    refine ((pacedAt_hostWrite .whole (resultAddress t.workBase id i) (resultBytes skippedResult) t).bind next).congr fun r m p b => ?_
    rw [skipEntries, outside_workBase]
    rcases hostWrite .whole (resultAddress t.workBase id i) (resultBytes skippedResult) (t.outside (.host r m p b))
      with ⟨_ | _, u⟩ <;> rfl

theorem inert_setNextIndex (n : Nat) : Inert (setNextIndex n) := .of_blind fun s _ _ _ _ => outside_setNextIndex _ s n

theorem paced_abandonRest (id : BatchId) (t : State) : PacedStep (abandonRest id) t := by
  have next (all : Bool) (v : State) : PacedStep (fun s => if all then closeBatch id (setNextIndex (t.batch id).taken s)
      else stopOnFault s) v :=
    .ite (fun _ _ _ _ => Iff.rfl) (fun _ => ((inert_setNextIndex _).paced v).then (paced_closeBatch id)) fun _ =>
      inert_stopOnFault.paced v
  refine ((paced_skipEntries id ((t.batch id).taken - t.nextIndex) t.nextIndex t).step next).congr fun r m p b => ?_
  unfold abandonRest
  rw [outside_batch, outside_nextIndex]
  dsimp only
  rcases skipEntries id t.nextIndex ((t.batch id).taken - t.nextIndex) (t.outside (.host r m p b)) with ⟨_ | _, u⟩ <;> rfl

theorem inert_countEntry : Inert countEntry := .of_blind fun s _ _ _ _ => outside_countEntry _ s

theorem paced_completeEntry (id : BatchId) (r : EntryResult) (t : State) : PacedStep (completeEntry id r) t := by
  refine (paced_writing .whole (a := fun s => resultAddress s.workBase id s.nextIndex) (bytes := fun _ => resultBytes r)
    (f := fun written s => if !written then stopOnFault s else
      if r.status = .busFault then abandonRest id (setAbandoned (countEntry s)) else countEntry s) (fun _ _ _ _ => ?_) fun written v =>
      .ite (fun _ _ _ _ => Iff.rfl) (fun _ => inert_stopOnFault.paced v) fun _ =>
        .ite (fun _ _ _ _ => Iff.rfl) (fun _ => ?_) fun _ => inert_countEntry.paced v)
  · simp only [outside_workBase, outside_nextIndex, and_self]
  · exact ((inert_countEntry.comp inert_setAbandoned).paced v).then (paced_abandonRest id)

/-- A request, once its entry has been read, or not. -/
def readRequest (request : State → EntryResult × State) (read : Bool) (s : State) : EntryResult × State :=
  if read then request s else (unreadResult, s)

theorem serveEntryOf_split (id : BatchId) (request : State → EntryResult × State) (s : State) : serveEntryOf id request s =
    let served := readRequest request (hostRead s).1 (hostRead s).2
    withBoard (completeEntry id served.1) (flushBoard s served.2) := by
  unfold serveEntryOf readRequest withBoard
  rcases hostRead s with ⟨_ | _, u⟩ <;> rfl

theorem paced_readRequest {request : State → EntryResult × State} (h : ∀ v, PacedAt request v) (t : State) :
    PacedAt (fun s => readRequest request (hostRead s).1 (hostRead s).2) t :=
  (pacedAt_hostRead t).bind fun _ v => .ite (fun _ _ _ _ => Iff.rfl) (fun _ => h v) fun _ => .pure _ v

theorem paced_serveEntryOf (id : BatchId) {request : State → EntryResult × State} (h : ∀ v, PacedAt request v) (t : State) :
    PacedStep (serveEntryOf id request) t :=
  ((paced_readRequest h t).step (g := fun r u => withBoard (completeEntry id r) (flushBoard t u)) fun r v =>
    (paced_flushBoard t v).then fun w => paced_withBoard (paced_completeEntry id r w)).congr fun r m p b => by
      rw [serveEntryOf_split]
      dsimp only
      rw [flushBoard_outside]

theorem paced_entryBody {request : State → EntryResult × State} (h : ∀ v, PacedAt request v) (t : State) :
    PacedStep (entryBody request) t := by
  cases due : t.serving? with
  | none =>
    refine (PacedStep.id t).congr fun r m p b => ?_
    rw [entryBody, outside_serving?, due]
  | some id =>
    refine (paced_serveEntryOf id h t).congr fun r m p b => ?_
    rw [entryBody, outside_serving?, due]

/-! ## Registers, pins and the clock -/

theorem inert_setCause (c : Cause) : Inert fun s => s.setCause c := .of_blind fun s _ _ _ _ => outside_setCause _ s c

theorem outside_handedOver (o : Outside) (id : BatchId) (value : Word) (s : State) :
    handedOver id value (s.outside o) = (handedOver id value s).outside o := by
  cases o <;> cases id <;> rfl

theorem paced_takeHandover (id : BatchId) (value : Word) (t : State) : PacedStep (takeHandover id value) t := by
  have handed : Inert (handedOver id value) := .of_blind fun _ _ _ _ _ => outside_handedOver _ _ _ _
  by_cases free : (t.batch id).state = .free
  swap
  · exact ((inert_setCause .clash).paced t).congr fun r m p b => takeHandover_clash (.inr (by rwa [outside_batch]))
  have waits (busy : t.engine = .stopped ∨ t.engine = .serving) : PacedStep (takeHandover id value) t := by
    refine (((handed.comp (.of_blind fun _ _ _ _ _ => outside_setFirstWaiting _ _
      (if (t.batch (otherBatch id)).state = .waiting then t.firstWaiting else some id))).paced t)).congr fun r m p b => ?_
    rw [takeHandover_waits (by rwa [outside_engine]) (by rwa [outside_batch]), outside_batch, outside_firstWaiting]
  cases engine : t.engine with
  | starting => exact ((inert_setCause .clash).paced t).congr fun r m p b => takeHandover_clash (.inl (by rwa [outside_engine]))
  | idle => exact ((handed.paced t).then (paced_startService id)).congr fun r m p b =>
      takeHandover_idle (by rwa [outside_engine]) (by rwa [outside_batch])
  | stopped => exact waits (.inl engine)
  | serving => exact waits (.inr engine)

theorem paced_takeRun (t : State) : PacedStep takeRun t :=
  ((Inert.of_blind fun s _ _ _ _ => outside_setRunBase _ s).paced t).then paced_fullBoardWrite

/-- What a setting of RUN does once the board is written. -/
def startFirst (s : State) : State := s.firstWaiting.elim (setEngine .idle s) fun id => startService id s

theorem paced_startFirst (t : State) : PacedStep startFirst t := by
  cases first : t.firstWaiting with
  | none =>
    refine ((inert_setEngine .idle).paced t).congr fun r m p b => ?_
    rw [startFirst, outside_firstWaiting, first]
    rfl
  | some id =>
    refine (paced_startService id t).congr fun r m p b => ?_
    rw [startFirst, outside_firstWaiting, first]
    rfl

theorem setRun_eq (s : State) : setRun s = if s.run then s else if s.engine = .starting ∨ s.faultStop then s.setCause .clash
    else if s.engine = .serving then takeRun s else withBoard startFirst (takeRun s) := by
  unfold setRun
  dsimp only
  split
  · rfl
  split
  · rfl
  split
  · rfl
  refine congrArg (fun f => withBoard f (takeRun s)) (funext fun u => ?_)
  rw [startFirst]
  cases u.firstWaiting <;> rfl

theorem paced_setRun (t : State) : PacedStep setRun t := by
  have started : PacedStep (fun s => withBoard startFirst (takeRun s)) t :=
    (paced_takeRun t).then fun v => paced_withBoard (paced_startFirst v)
  rw [show setRun = _ from funext setRun_eq]
  refine .ite (fun r m p b => ?_) (fun _ => .id t) fun _ => .ite (fun r m p b => ?_)
    (fun _ => (inert_setCause .clash).paced t) fun _ => .ite (fun r m p b => ?_) (fun _ => paced_takeRun t) fun _ => started
  · rw [outside_run]
  · rw [outside_engine, outside_faultStop]
  · rw [outside_engine]

theorem paced_startWaiting (t : State) : PacedStep startWaiting t := by
  have startable (r m p b) : (t.outside (.host r m p b)).startable? = t.startable? := by
    simp only [State.startable?, outside_run, outside_faultStop, outside_inService?, outside_engine, outside_firstWaiting, outside_batch]
  cases waits : t.startable? with
  | none => exact (PacedStep.id t).congr fun r m p b => startWaiting_none (by rw [startable, waits])
  | some id => exact (paced_startService id t).congr fun r m p b => startWaiting_some (by rw [startable, waits])

theorem paced_takeClose (t : State) : PacedStep takeClose t := by
  cases closing : t.closing? with
  | none => exact (PacedStep.id t).congr fun r m p b => takeClose_none (by rw [outside_closing?, closing])
  | some id => exact (paced_closeBatch id t).congr fun r m p b => takeClose_closing (by rw [outside_closing?, closing])

theorem paced_takeAbandon (t : State) : PacedStep takeAbandon t := by
  have idle (h : t.engine ≠ .serving ∨ t.inService? = none) : PacedStep takeAbandon t :=
    (PacedStep.id t).congr fun r m p b => takeAbandon_none (by rwa [outside_engine, outside_inService?])
  by_cases serving : t.engine = .serving
  swap
  · exact idle (.inl serving)
  cases inService : t.inService? with
  | none => exact idle (.inr inService)
  | some id => exact (paced_abandonRest id t).congr fun r m p b =>
      takeAbandon_serving (by rwa [outside_engine]) (by rw [outside_inService?, inService])

theorem inert_clearRun : Inert clearRun := .of_blind fun s r m p b => by
  rw [clearRun, outside_run, outside_clearRunBit, clearRun]
  split <;> rfl

theorem paced_maskAndAbandon (control : Word) (t : State) : PacedStep (maskAndAbandon control) t :=
  ((Inert.of_blind fun s _ _ _ _ => outside_setMask _ s (controlMask control)).paced t).then
    (g := fun s => if controlAbandon control then takeAbandon s else s) fun v =>
      .ite (fun _ _ _ _ => Iff.rfl) (fun _ => paced_takeAbandon v) fun _ => .id v

theorem paced_restart (t : State) : PacedStep restart t :=
  .ite (fun r m p b => by rw [outside_engine]) (fun _ => (inert_setCause .clash).paced t) fun _ =>
    ((Inert.of_blind fun s r m p b => by rw [outside_restartState, host_selfTest]).paced t).then paced_fullBoardWrite

theorem paced_writeControl (control : Word) (t : State) : PacedStep (writeControl control) t := by
  have runs (v : State) : PacedStep (fun v => if (controlRun control && v.takesRun) = true then setRun v
      else flushBoard t (if controlRun control then setRun v else clearRun v)) v := by
    refine .ite (fun r m p b => ?_) (fun _ => paced_setRun v) fun _ => ?_
    · rw [State.takesRun, outside_run, outside_engine, outside_faultStop, State.takesRun]
    · exact PacedStep.then (.ite (fun _ _ _ _ => Iff.rfl) (fun _ => paced_setRun v) fun _ => inert_clearRun.paced v)
        (paced_flushBoard t)
  refine .ite (fun _ _ _ _ => Iff.rfl) (fun _ => paced_restart t) fun _ =>
    ((paced_maskAndAbandon control t).then runs).congr fun r m p b => ?_
  dsimp only
  rw [flushBoard_outside]

theorem inert_writeWorkBase (half : BaseHalf) (value : Word) : Inert (writeWorkBase half value) := .of_blind fun s r m p b => by
  rw [writeWorkBase, outside_bothFree, writeWorkBase]
  split <;> rfl

theorem inert_timedPart (c : Instr) : Inert (timedPart c) := by
  cases c with
  | scrubStep env => exact .of_blind fun s r m p b => host_scrub s r m p b
  | periodMark => exact .of_blind fun s _ _ _ _ => outside_setPhase _ s 0
  | periodMarkAtLink k env => exact .of_blind fun s r m p b => host_markLink s r m p b k
  | ageLimitReached k which env => exact .of_blind fun s r m p b => host_reachAgeLimit s r m p b k which
  | retireTimerExpiry k env => exact .of_blind fun s _ _ _ _ => outside_reachRetireTime _ s k
  | restEnd k env => exact .of_blind fun s r m p b => host_reachRestEnd s r m p b k
  | periodMarkAtRenewalRecord n env => exact .of_blind fun s r m p b => host_markRecord s r m p b n
  | replyTimerExpiry n env => exact .of_blind fun s r m p b => host_reachReplyExpiry s r m p b n
  | _ => exact Inert.id

/-- What agrees with an operation that has a pace wherever RESETN is high. -/
def PacedHigh (body : State → State) (t : State) : Prop :=
  ∃ f, PacedStep f t ∧ ∀ m p b, body (t.outside (.host true m p b)) = f (t.outside (.host true m p b))

theorem PacedStep.high {body : State → State} (h : PacedStep body t) : PacedHigh body t := ⟨body, h, fun _ _ _ => rfl⟩

/-- What is done past start-up alone, while RESETN is high. -/
theorem pacedHigh_started {c : State → Bool} {d : State → Prop} [∀ s, Decidable (d s)] {f : State → State}
    (same : ∀ m p b, c (t.outside (.host true m p b)) = true ↔ d (t.outside (.host true m p b)))
    (blind : ∀ r m p b, d (t.outside (.host r m p b)) ↔ d t) (h : PacedStep f t) :
    PacedHigh (fun s => if c s then f s else s) t :=
  ⟨fun s => if d s then f s else s, .ite blind (fun _ => h) fun _ => .id t, fun m p b => if_congr (same m p b) rfl rfl⟩

theorem takesEdges_high (m : Memory) (p : List HostWrite) (b : List BusOutcome) :
    (t.outside (.host true m p b)).takesEdges = true ↔ (t.outside (.host true m p b)).engine ≠ .starting := by
  rw [State.takesEdges, host_resetn, Bool.true_and, decide_eq_true_eq]

/-- What a command that is no reset does within its event. -/
theorem paced_bodyOf (c : Instr) (t : State) : PacedHigh (bodyOf c) t := by
  have started (r m p b) : (t.outside (.host r m p b)).engine ≠ .starting ↔ t.engine ≠ .starting := by rw [outside_engine]
  by_cases entry : isEntry c = true
  · rw [bodyOf_entry entry]
    exact (paced_entryBody (paced_requestOf c) t).high
  by_cases timed : isTimed c = true
  · have body : bodyOf c = timedBody (timedPart c) := by
      unfold bodyOf
      rw [if_neg entry, if_pos timed]
    rw [body]
    exact pacedHigh_started (c := State.timebaseRuns) (d := fun s => s.engine ≠ .starting) takesEdges_high started (paced_withBoard ((inert_timedPart c).paced t))
  obtain ⟨body, is⟩ : ∃ body, bodyOf c = body := ⟨_, rfl⟩
  rw [is]
  unfold bodyOf at is
  rw [if_neg entry, if_neg timed] at is
  split at is <;> subst is
  · exact (paced_withBoard ((Inert.of_blind fun s r m p b => host_startUp s r m p b _).paced t)).high
  · exact pacedHigh_started (d := fun s => s.engine ≠ .starting) takesEdges_high started
      (paced_withBoard ((Inert.of_blind fun s _ _ _ _ => outside_assertQuiesce _ s).paced t))
  · refine ⟨fun s => if s.engine ≠ .starting ∧ s.quiesce then withBoard releaseQuiesce s else s, ?_, fun m p b =>
      if_congr (and_congr (takesEdges_high m p b) Iff.rfl) rfl rfl⟩
    exact .ite (fun r m p b => by rw [outside_engine, outside_quiesce]) (fun _ => paced_withBoard
      ((Inert.of_blind fun s _ _ _ _ => outside_releaseQuiesce _ s).paced t)) fun _ => .id t
  · exact (paced_withBoard (paced_takeHandover _ _ t)).high
  · exact ((inert_writeWorkBase _ _).paced t).high
  · exact (paced_setRun t).high
  · exact (inert_clearRun.paced t).high
  · exact (paced_withBoard (paced_takeAbandon t)).high
  · exact (paced_restart t).high
  · exact (paced_writeControl _ t).high
  · exact ((Inert.of_blind fun s _ _ _ _ => outside_clearCauses _ s _).paced t).high
  · exact (paced_withBoard (paced_startWaiting t)).high
  · exact (paced_withBoard (paced_takeClose t)).high
  · exact (paced_withBoard ((Inert.of_blind fun s r m p b => host_tryAdmit s r m p b).paced t)).high
  · exact (paced_withBoard (inert_tryOriginate.paced t)).high
  · exact (PacedStep.id t).high

/-! ## Commands under other outcomes of their accesses -/

/-- A command that asks something of the outside. -/
def asks (c : Instr) : Bool :=
  !(c matches .powerOnReset | .resetnFall | .pinReset | .workBaseWrite .. | .runClear | .noticeClear .. | .ignoredRegisterWrite ..
    | .periodMark)

/-- A command under other outcomes is the same event. -/
theorem withBus_asks {c : Instr} (h : asks c = true) (b : List BusOutcome) (s : State) :
    exec (withBus b c) s = .next (event { envOf c with bus := b } (bodyOf c) (pinned c s)) := by
  cases c with
  | powerOnReset => cases h
  | resetnFall => cases h
  | pinReset => cases h
  | workBaseWrite half value => cases h
  | runClear => cases h
  | noticeClear value => cases h
  | ignoredRegisterWrite register value => cases h
  | periodMark => cases h
  | _ => rfl

theorem withBus_unasked {c : Instr} (h : asks c = false) (b : List BusOutcome) : withBus b c = c := by
  cases c with
  | powerOnReset => rfl
  | resetnFall => rfl
  | pinReset => rfl
  | workBaseWrite half value => rfl
  | runClear => rfl
  | noticeClear value => rfl
  | ignoredRegisterWrite register value => rfl
  | periodMark => rfl
  | _ => cases h

theorem event_inert (high : s.resetn = true) (env : Env) {f : State → State} (inert : Inert f) :
    (event env f s).posted = [] ∧ (event env f s).hostMem = s.hostMem := by
  rw [event_of_high high]
  exact ⟨inert.posted _, inert.hostMem _⟩

/-- A command that asks nothing of the outside makes no access. -/
theorem unasked_posted {c : Instr} (h : asks c = false) (high : s.resetn = true) (run : exec c s = .next t) :
    t.posted = [] ∧ t.hostMem = s.hostMem := by
  cases c with
  | powerOnReset =>
    cases run
    exact ⟨rfl, rfl⟩
  | resetnFall =>
    cases run
    exact ⟨rfl, rfl⟩
  | pinReset =>
    cases run
    exact ⟨rfl, rfl⟩
  | workBaseWrite half value =>
    cases run
    exact event_inert high _ (inert_writeWorkBase half value)
  | runClear =>
    cases run
    exact event_inert high _ inert_clearRun
  | noticeClear value =>
    cases run
    exact event_inert high _ (.of_blind fun s _ _ _ _ => outside_clearCauses _ s value)
  | ignoredRegisterWrite register value =>
    cases run
    exact event_inert high _ Inert.id
  | periodMark =>
    by_cases starting : s.engine = .starting
    · obtain ⟨u, runs, silent⟩ := exec_timed_starting (c := .periodMark) high starting rfl
      rw [run] at runs
      cases runs
      exact ⟨silent.posted, silent.memory⟩
    · obtain ⟨u, runs, silent⟩ := exec_periodMark high starting
      rw [run] at runs
      cases runs
      exact ⟨silent.posted, silent.memory⟩
  | _ => cases h

/-! ## A fall of RESETN -/

/-- What is left of a state that the fall has come to in a command that would leave `t`. -/
structure FallenFrom (s t u : State) (n landed : Nat) : Prop where
  begins : u.posted <+: t.posted
  few : u.posted.length ≤ n
  level : u.resetn = false ∨ u = t
  whole : landed = 0 → u.hostMem = applyWrites s.hostMem u.posted
  frame : ∀ x, (∀ w ∈ t.posted, ¬ w.covers x) → u.hostMem.readByte x = s.hostMem.readByte x
  pin : u.quiescePin = t.quiescePin
  store : u.oneTimeStore = t.oneTimeStore
  pending : u.pending = t.pending

/-- A command taken whole. -/
theorem FallenFrom.taken (landed : Nat) {n : Nat} (memory : t.hostMem = applyWrites s.hostMem t.posted) (few : t.posted.length ≤ n) :
    FallenFrom s t t n landed where
  begins := List.prefix_rfl
  few := few
  level := .inr rfl
  whole _ := memory
  frame x out := by
    rw [memory]
    exact readByte_applyWrites_outside _ _ out
  pin := rfl
  store := rfl
  pending := rfl

theorem clean_eq_replicate {env : Env} (clean : cleanEnv env) : env.bus = List.replicate env.bus.length .done :=
  List.eq_replicate_iff.mpr ⟨rfl, clean⟩

/-- An event in which RESETN falls after `n` accesses. -/
theorem event_falls {env : Env} (high : s.resetn = true) (clean : cleanEnv env) {body : State → State}
    (paced : PacedHigh body (beginEvent env s)) (n landed : Nat) :
    FallenFrom s (event env body s) (event { env with bus := fallAfter n landed } body s) n landed := by
  obtain ⟨f, ⟨_, v, d, vs, paced⟩, same⟩ := paced
  have begins (b : List BusOutcome) : body (beginEvent { env with bus := b } s) = f ((beginEvent env s).facing b) := by
    have start : beginEvent { env with bus := b } s = (beginEvent env s).outside (.host true s.hostMem [] b) := by
      rw [← high]
      rfl
    rw [start, same, ← high]
    rfl
  have made : v.posted = vs := paced.posted
  have memory : v.hostMem = applyWrites s.hostMem vs := paced.hostMem
  have ends (j : Nat) : ∃ b, f ((beginEvent env s).facing (List.replicate j .done)) = v.facing b := by
    by_cases early : j ≤ d
    · exact ⟨[], congrArg Prod.snd (paced.clean j early)⟩
    · have split : j = d + (j - d) := by omega
      rw [split, List.replicate_add]
      exact ⟨_, congrArg Prod.snd (paced.does _)⟩
  have whole : event env body s = endEvent v := by
    obtain ⟨b, ends⟩ := ends env.bus.length
    have start := begins env.bus
    rw [event_of_high high, show beginEvent env s = beginEvent { env with bus := env.bus } s from rfl, start]
    have bus : (beginEvent env s).facing env.bus = (beginEvent env s).facing (List.replicate env.bus.length .done) :=
      congrArg (fun b => (beginEvent env s).facing b) (clean_eq_replicate clean)
    rw [bus, ends]
    rfl
  rw [whole, event_of_high high, begins]
  by_cases late : d ≤ n
  · have split : fallAfter n landed = List.replicate d .done ++ fallAfter (n - d) landed := by
      rw [fallAfter, fallAfter, ← List.append_assoc, ← List.replicate_add, Nat.add_sub_cancel' late]
    have does : f ((beginEvent env s).facing (fallAfter n landed)) = v.facing (fallAfter (n - d) landed) := by
      rw [split]
      exact congrArg Prod.snd (paced.does _)
    rw [does]
    refine FallenFrom.taken (t := endEvent v) landed ?_ ?_
    · show v.hostMem = applyWrites s.hostMem v.posted
      rw [memory, made]
    · show v.posted.length ≤ n
      rw [made]
      exact paced.few.trans late
  · obtain ⟨m, ws, short, cut⟩ := paced.cut n (Nat.not_le.mp late) landed
    have cut : f ((beginEvent env s).facing (fallAfter n landed)) = v.afterFall m ws := congrArg Prod.snd cut
    rw [cut]
    exact ⟨by rw [show (endEvent v).posted = vs from made]; exact short.begins, short.few, .inl rfl, short.whole,
      fun x out => short.frame x (by rw [← made]; exact out), rfl, rfl, rfl⟩

/-- Settles O6: an event that RESETN falls in is one whose pace is cut short, and the reset after it sees the levels, the
one-time store, host memory and the queue of commands alone. -/
theorem resetnFallEndsTheAccesses : Obligations.ResetnFallEndsTheAccesses := by
  intro c s t n landed high clean run
  have left : ∃ u, exec (withBus (fallAfter n landed) c) s = .next u ∧ FallenFrom s t u n landed := by
    cases asked : asks c with
    | false =>
      obtain ⟨posted, memory⟩ := unasked_posted asked high run
      rw [withBus_unasked asked]
      exact ⟨t, run, .taken landed (by rw [posted, memory]; rfl) (by rw [posted]; exact Nat.zero_le n)⟩
    | true =>
      have whole := withBus_asks asked (envOf c).bus s
      have same : withBus (envOf c).bus c = c := by cases c <;> rfl
      rw [same, run] at whole
      cases whole
      have pinned_ : (pinned c s).resetn = true ∧ (pinned c s).hostMem = s.hostMem := by
        unfold pinned
        split <;> exact ⟨high, rfl⟩
      have fallen := event_falls pinned_.1 clean (paced_bodyOf c _) n landed
      refine ⟨_, withBus_asks asked _ s, fallen.begins, fallen.few, fallen.level, fun z => ?_, fun x out => ?_, fallen.pin,
        fallen.store, fallen.pending⟩
      · rw [← pinned_.2]
        exact fallen.whole z
      · rw [← pinned_.2]
        exact fallen.frame x out
  obtain ⟨u, runs, fallen⟩ := left
  obtain ⟨v, again, pending, _⟩ := everyCommandCompletes.1 c s
  rw [run] at again
  cases again
  have store := (eachFieldHasItsWriters c s t run).1
  refine ⟨u, runs, fallen.begins, fallen.few, fallen.level, fallen.whole, fallen.frame, ?_⟩
  show Host.Outcome.next { resetDevice u with resetn := true } = _
  rw [resetDevice, fallen.pin, fallen.store, fallen.pending, store, pending]

end Sys2Proof.Machine
end

