-- ==== Sys2Proof/Proofs/Amid.lean ====
section
/-! PROOFS. States amid an event, told apart from what host memory holds, the writes made and the outcomes to come; and the accesses that fail. -/

namespace Sys2Proof.Machine
variable {s t u v own before : State} {id : BatchId} {m n : Memory} {p ws torn : List HostWrite} {b rest : List BusOutcome}
  {i j k landed : Nat}

/-! ## States amid an event -/

/-- A state amid an event: host memory holds `m`, the writes `p` have been made, and the outcomes `b` are still to come. -/
def State.amid (m : Memory) (p : List HostWrite) (b : List BusOutcome) (s : State) : State := s.outside (.host s.resetn m p b)

/-- The first `k` outcomes are successes. -/
def grants (k : Nat) (b : List BusOutcome) : Prop := ∀ o ∈ b.take k, o = .done

theorem grants_nil (k : Nat) : grants k [] := by
  intro o mem
  rw [List.take_nil] at mem
  cases mem

theorem grants_replicate (k : Nat) (rest : List BusOutcome) : grants k (List.replicate k .done ++ rest) := by
  intro o mem
  rw [List.take_left' List.length_replicate] at mem
  exact List.eq_of_mem_replicate mem

theorem grants_one (rest : List BusOutcome) : grants 1 (.done :: rest) := grants_replicate 1 rest

theorem drop_replicate (k : Nat) (rest : List BusOutcome) : (List.replicate k BusOutcome.done ++ rest).drop k = rest :=
  List.drop_left' List.length_replicate

theorem wrote_amid (k : Nat) (ws : List HostWrite) (s : State) :
    (s.amid m p b).wrote k ws = s.amid (applyWrites m ws) (p ++ ws) (b.drop k) := rfl

theorem wrote_as_amid (k : Nat) (ws : List HostWrite) (s : State) :
    s.wrote k ws = s.amid (applyWrites s.hostMem ws) (s.posted ++ ws) (s.bus.drop k) := rfl

theorem amid_inner (s : State) : (s.amid m p b).inner = s.inner := rfl

theorem Inert.amid {f : State → State} (h : Inert f) (s : State) : f (s.amid m p b) = (f s).amid m p b := by
  rw [State.amid, h.blind, State.amid, h.resetn]

theorem inert_raiseDevice (item : DeviceItem) : Inert (raiseDevice item) := .of_blind fun s _ _ _ _ => outside_raiseDevice _ s item

theorem begun_amid (env : Env) (s : State) : beginEvent env s = (s.begun env).amid s.hostMem [] env.bus := rfl

/-! ## Accesses -/

theorem hostWrite_amid (h : grants 1 b) (kind : WriteKind) (a : Address) (bytes : List Byte) (s : State) :
    hostWrite kind a bytes (s.amid m p b) = (true, s.amid (applyWrites m [⟨a, bytes⟩]) (p ++ [⟨a, bytes⟩]) (b.drop 1)) :=
  hostWrite_granted (s := s.amid m p b) h kind a bytes

/-- What host memory may hold after a write that has failed. -/
def failedMemory (kind : WriteKind) (a : Address) (landed : Nat) (bytes : List Byte) (m : Memory) : Memory :=
  if kind = .whole then m else m.writeLanded a landed bytes

theorem hostWrite_amid_error (kind : WriteKind) (a : Address) (bytes : List Byte) (s : State) :
    hostWrite kind a bytes (s.amid m p (.error landed :: rest)) =
      (false, (raiseDevice .busFault s).amid (failedMemory kind a landed bytes m) p rest) := by
  rw [hostWrite_error (rest := rest) rfl, ← (inert_raiseDevice .busFault).amid]
  cases kind <;> rfl

theorem hostRead_amid (s : State) : hostRead (s.amid m p (.done :: rest)) = (true, s.amid m p rest) := rfl

theorem hostRead_amid_error (s : State) :
    hostRead (s.amid m p (.error landed :: rest)) = (false, (raiseDevice .busFault s).amid m p rest) := by
  rw [hostRead_error (rest := rest) rfl, ← (inert_raiseDevice .busFault).amid]
  rfl

/-- A notice sets no cause but COLLECT, and of the device fault record no mark but that of a notice dropped. -/
theorem makeNotice_told (n : Notice) (s : State) :
    (makeNotice n s).device.busFault = s.device.busFault ∧ ∀ c, c ≠ .collect → (makeNotice n s).hasCause c = s.hasCause c := by
  unfold makeNotice
  split
  · exact ⟨rfl, fun _ _ => rfl⟩
  split
  · rw [joinQueue_eq]
    refine ⟨rfl, fun c other => ?_⟩
    by_cases free : s.bothFree = true
    · exact (hasCause_of_causes c (if_pos free)).trans (hasCause_setCause_ne s other)
    · exact hasCause_of_causes c (if_neg free)
  · exact ⟨rfl, fun _ _ => rfl⟩

theorem raised_busFault (h : s.device.busFault = true) : raiseDevice .busFault s = s := raiseDevice_of_active h

theorem busFault_raised (s : State) : (raiseDevice .busFault s).device.busFault = true := by
  by_cases active : s.device.isActive .busFault = true
  · rw [raiseDevice_of_active active]
    exact active
  · rw [raiseDevice_of_inactive (by simpa using active)]
    exact (makeNotice_told _ _).1

theorem hasCause_raiseDevice (item : DeviceItem) (s : State) {c : Cause} (other : c ≠ .collect) (told : c ≠ .faultRaised) :
    (raiseDevice item s).hasCause c = s.hasCause c := by
  by_cases active : s.device.isActive item = true
  · rw [raiseDevice_of_active active]
  · rw [raiseDevice_of_inactive (by simpa using active), hasCause_setCause_ne _ told, (makeNotice_told _ _).2 c other]
    rfl

/-! ## The board writes of an event -/

theorem flushBoard_amid (before s : State) (h : grants (boardWrites before s).length b) :
    flushBoard before (s.amid m p b) = s.amid (applyWrites m (boardWrites before s)) (p ++ boardWrites before s)
      (b.drop (boardWrites before s).length) := by
  have same : boardWrites before (s.amid m p b) = boardWrites before s := boardWrites_outside_right _ _ _
  rw [flushBoard_granted before (by rw [same]; exact h), same]
  rfl

theorem boardWrites_amid (before s : State) : boardWrites before (s.amid m p b) = boardWrites before s :=
  boardWrites_outside_right _ _ _

theorem amid_boardWrites (before s : State) : boardWrites (before.amid m p b) s = boardWrites before s :=
  boardWrites_outside_left _ _ _

theorem begun_boardWrites (env : Env) (s t : State) : boardWrites (beginEvent env s) t = boardWrites s t := by
  rw [beginEvent_eq, boardWrites_outside_left, boardWrites_outside_left]

/-- An event that shows nothing more makes no board write, whatever its accesses would meet. -/
theorem flushBoard_amid_unshown (h : boardWrites before s = []) : flushBoard before (s.amid m p b) = s.amid m p b := by
  have none := flushBoard_amid (m := m) (p := p) (b := b) before s (by rw [h]; intro o mem; cases mem)
  rw [none, h, List.append_nil]
  rfl

/-! ## Host memory of which some bytes stay -/

/-- Of host memory no byte but those of the writes `ws` and `torn` has changed. -/
def Untouched (n m : Memory) (ws torn : List HostWrite) : Prop :=
  ∀ x, (∀ w ∈ ws, ¬ w.covers x) → (∀ w ∈ torn, ¬ w.covers x) → m.readByte x = n.readByte x

theorem Untouched.refl (n : Memory) (torn : List HostWrite) : Untouched n n [] torn := fun _ _ _ => rfl

theorem Untouched.wrote (h : Untouched n m p torn) (ws : List HostWrite) : Untouched n (applyWrites m ws) (p ++ ws) torn := by
  intro x out apart
  rw [readByte_applyWrites_outside _ _ fun w mem => out w (List.mem_append_right _ mem)]
  exact h x (fun w mem => out w (List.mem_append_left _ mem)) apart

theorem Untouched.failed {a : Address} {bytes : List Byte} (h : Untouched n m p torn) (kind : WriteKind) (landed : Nat)
    (among : ⟨a, bytes⟩ ∈ torn) : Untouched n (failedMemory kind a landed bytes m) p torn := by
  intro x out apart
  unfold failedMemory
  split
  · exact h x out apart
  · rw [Memory.readByte_writeLanded_outside _ _ _ _ (apart _ among)]
    exact h x out apart

/-! ## The end of an event -/

theorem event_amid (high : s.resetn = true) {env : Env} {body : State → State}
    (does : body ((s.begun env).amid s.hostMem [] env.bus) = v.amid m p b) :
    event env body s = endEvent (v.amid m p b) := by
  rw [event_of_high high, begun_amid, does]

/-- What an event leaves. -/
theorem ended_facts (v : State) (m : Memory) (p : List HostWrite) (b : List BusOutcome) (id : BatchId) :
    (endEvent (v.amid m p b)).inner = v.inner ∧ (endEvent (v.amid m p b)).posted = p ∧ (endEvent (v.amid m p b)).hostMem = m ∧
      (endEvent (v.amid m p b)).batch id = v.batch id ∧ (endEvent (v.amid m p b)).nextIndex = v.nextIndex ∧
      (endEvent (v.amid m p b)).entriesDone = v.entriesDone ∧ (endEvent (v.amid m p b)).device = v.device := by
  cases id <;> exact ⟨rfl, rfl, rfl, rfl, rfl, rfl, rfl⟩

theorem FaultStopped.ended (h : FaultStopped id v) : FaultStopped id (endEvent (v.amid m p b)) where
  run := h.run
  faultStop := h.faultStop
  engine := h.engine
  busFault := h.busFault
  inService := (congrArg Batch.state (ended_facts v m p b id).2.2.2.1).trans h.inService

/-- An event stopped by a failed write. -/
theorem eventStopped (h : FaultStopped id v) (frame : Untouched s.hostMem m p torn) (inner : v.inner = own.inner) :
    EventStopped id s (endEvent (v.amid m p b)) p torn own where
  toFaultStopped := h.ended
  inner := inner
  posted := rfl
  frame := frame

/-! ## A service that starts -/

theorem inert_servingFrom (id : BatchId) (taken : Nat) : Inert (servingFrom id taken) := .of_blind fun s r m p b => by
  cases id <;> rfl

theorem startService_amid (h : grants 1 b) (id : BatchId) (s : State) :
    startService id (s.amid m p b) = (servingFrom id (s.batch id).taken s).amid
      (applyWrites m [startHeader s id (s.batch id).taken]) (p ++ [startHeader s id (s.batch id).taken]) (b.drop 1) := by
  have started := startService_granted (s := s.amid m p b) h id
  cases id <;> exact started

theorem startService_amid_error (id : BatchId) (s : State) :
    startService id (s.amid m p (.error landed :: rest)) =
      (stopOnFault (raiseDevice .busFault (servingFrom id (s.batch id).taken s))).amid m p rest := by
  have batch : (s.amid m p (.error landed :: rest)).batch id = s.batch id := by cases id <;> rfl
  rw [startService_eq, startedService_eq, batch, (inert_servingFrom id _).amid, hostWrite_amid_error, ← inert_stopOnFault.amid]
  rfl

theorem stopOnFault_faultStopped (busFault : s.device.busFault = true) (inService : (s.batch id).state = .inService) :
    FaultStopped id (stopOnFault s) where
  run := rfl
  faultStop := rfl
  engine := rfl
  busFault := busFault
  inService := by cases id <;> exact inService

theorem batch_servingFrom (id : BatchId) (taken : Nat) (s : State) :
    (servingFrom id taken s).batch id = ⟨.inService, taken⟩ ∧
      (servingFrom id taken s).batch (otherBatch id) = s.batch (otherBatch id) := by
  cases id <;> exact ⟨rfl, rfl⟩

theorem batch_stopOnFault (id : BatchId) (s : State) : (stopOnFault s).batch id = s.batch id := by cases id <;> rfl

theorem batch_raiseDevice (item : DeviceItem) (id : BatchId) (s : State) : (raiseDevice item s).batch id = s.batch id :=
  (quiet_raiseDevice item s).batch id

end Sys2Proof.Machine
end

