-- ==== Sys2Proof/Proofs/Failing.lean ====
section
/-! PROOFS. The close of a batch and the SKIPPED results amid an event: whole, and where a write fails. -/

namespace Sys2Proof.Machine
variable {s t u v own before : State} {id : BatchId} {m n : Memory} {p ws torn : List HostWrite} {b rest : List BusOutcome}
  {i j k landed : Nat}

/-! ## The tail -/

theorem inert_deliveredFirst (i : Nat) (s : State) :
    deliveredFirst i (s.amid m p b) = (deliveredFirst i s).amid m p b :=
  (Inert.foldl inert_deliver (s.queue.take i)).amid s

theorem take_zipIdx {α : Type} (l : List α) (k j : Nat) : (l.zipIdx k).take j = (l.take j).zipIdx k := by
  refine List.ext_getElem? fun i => ?_
  rw [List.getElem?_zipIdx, List.getElem?_take, List.getElem?_take, List.getElem?_zipIdx]
  split <;> rfl

/-- The first writes of a tail. -/
theorem tailFrom_take (s : State) (id : BatchId) (le : j ≤ (tailItems s).length) :
    tailFrom s.workBase id 0 (s.queue.take j) = (tailWrites s id).take j := by
  rw [tailItems_length] at le
  rw [tailWrites_eq, tailFrom, tailFrom, ← List.map_take, take_zipIdx, List.take_take, Nat.min_eq_left le]

theorem fillTail_amid (id : BatchId) (s : State) (le : j ≤ (tailItems s).length) (h : grants j b) :
    fillTail id 0 (min s.settings.tailRoom s.queue.length) (s.amid m p b) =
      fillTail id j ((tailItems s).length - j) ((deliveredFirst j s).amid (applyWrites m ((tailWrites s id).take j))
        (p ++ (tailWrites s id).take j) (b.drop j)) := by
  have few : j ≤ s.queue.length := by rw [tailItems_length] at le; omega
  have filled := fillTail_granted (s := s.amid m p b) id j (j := 0) (n := (tailItems s).length - j) h few
  have base : (s.amid m p b).workBase = s.workBase := rfl
  have queue : (s.amid m p b).queue = s.queue := rfl
  rw [inert_deliveredFirst, Nat.zero_add, base, queue, tailFrom_take s id le, Nat.add_sub_cancel' le] at filled
  rw [← tailItems_length, filled]
  rfl

theorem fillTail_amid_whole (id : BatchId) (s : State) (h : grants (tailItems s).length b) :
    fillTail id 0 (min s.settings.tailRoom s.queue.length) (s.amid m p b) =
      ((tailItems s).length, (deliveredAll s).amid (applyWrites m (tailWrites s id)) (p ++ tailWrites s id)
        (b.drop (tailItems s).length)) := by
  have all : (tailWrites s id).take (tailItems s).length = tailWrites s id := by
    rw [List.take_of_length_le]
    rw [tailWrites_eq, tailFrom_length, tailItems_length, List.length_take]
    exact Nat.min_le_left _ _
  rw [fillTail_amid id s (Nat.le_refl _) h, Nat.sub_self, fillTail, all, deliveredAll_eq, tailItems_length]

/-- The write of a tail item that fails. -/
theorem fillTail_amid_lost (id : BatchId) (s : State) (lt : j < (tailItems s).length) (landed : Nat) :
    ∃ w, (tailWrites s id)[j]? = some w ∧
      fillTail id 0 (min s.settings.tailRoom s.queue.length) (s.amid m p (List.replicate j .done ++ .error landed :: rest)) =
        (j, (raiseDevice .busFault (deliveredFirst j s)).amid
          (failedMemory .tailItem w.address landed w.bytes (applyWrites m ((tailWrites s id).take j)))
          (p ++ (tailWrites s id).take j) rest) := by
  have inside : j < s.queue.length := by rw [tailItems_length] at lt; omega
  have item : (tailItems s)[j]? = some s.queue[j] := by
    rw [tailItems, List.getElem?_take_of_lt (by rw [tailItems_length] at lt; omega), List.getElem?_eq_getElem inside]
  refine ⟨⟨tailAddress s.workBase id j, tailItemBytes s.queue[j]⟩, ?_, ?_⟩
  · rw [tailWrites, List.getElem?_map, List.getElem?_zipIdx, item]
    simp
  · rw [fillTail_amid id s (Nat.le_of_lt lt) (grants_replicate j _), drop_replicate]
    obtain ⟨d, more⟩ : ∃ d, (tailItems s).length - j = d + 1 := ⟨(tailItems s).length - j - 1, by omega⟩
    have queue : (deliveredFirst j s).queue = s.queue[j] :: s.queue.drop (j + 1) := by
      rw [queue_deliveredFirst, List.drop_eq_getElem_cons inside]
    have base : (deliveredFirst j s).workBase = s.workBase := (deliveredFirst_quiet j s).workBase
    generalize applyWrites m ((tailWrites s id).take j) = n, p ++ (tailWrites s id).take j = made
    rw [more, fillTail]
    have front : ((deliveredFirst j s).amid n made (.error landed :: rest)).queue = s.queue[j] :: s.queue.drop (j + 1) := queue
    have work : ((deliveredFirst j s).amid n made (.error landed :: rest)).workBase = s.workBase := base
    rw [front]
    dsimp only
    rw [hostWrite_amid_error, work]

/-! ## The header of a close, and what follows it -/

/-- What a close leaves whose batch is freed in the state `v`, told apart from the writes it makes. -/
def closedOn (id : BatchId) (v : State) : State := collectAfterClose (tryOriginate (nextEngine id (freedBatch id v)))

/-- The header that a close writes over a tail of `j` items. -/
def headerOver (s : State) (id : BatchId) (j : Nat) : HostWrite :=
  ⟨headerAddress s.workBase id, headerBlock (if s.abandoned then .abandoned else .complete) (s.batch id).taken s.entriesDone j⟩

theorem inert_closing : Inert fun s => collectAfterClose (tryOriginate s) := inert_tryOriginate.comp inert_collectAfterClose

theorem inert_nextEngine (id : BatchId) : Inert (nextEngine id) := .of_blind fun s r m p b => by
  unfold nextEngine
  rw [outside_run, outside_batch, outside_setEngine, outside_setEngine, (inert_servingFrom (otherBatch id) _).blind]
  split
  · split <;> rfl
  · rfl

theorem closing_amid (id : BatchId) (v : State) :
    collectAfterClose (tryOriginate (afterClose id (freedBatch id (v.amid m p [])))) =
      (closedOn id v).amid (applyWrites m (nextHeader v id)) (p ++ nextHeader v id) [] := by
  have freed : afterClose id (freedBatch id (v.amid m p [])) = closedInto id (v.amid m p []) :=
    afterClose_freed (s := v.amid m p []) (grants_nil 1) id
  have header : nextHeader (v.amid m p []) id = nextHeader v id := by cases id <;> rfl
  rw [freed, closedInto, header, (inert_freedBatch id).amid, (inert_nextEngine id).amid, wrote_amid, List.drop_nil]
  exact inert_closing.amid _

theorem closing_inner (v : State) (none : v.bus = []) (id : BatchId) :
    (collectAfterClose (tryOriginate (afterClose id (freedBatch id v)))).inner = (closedOn id v).inner := by
  have same : v = v.amid v.hostMem v.posted [] := by rw [← none]; rfl
  rw [same, closing_amid, ← same]
  rfl

theorem headerOver_amid (v : State) (id : BatchId) (j : Nat) : headerOver (v.amid m p b) id j = headerOver v id j := by
  cases id <;> rfl

theorem closeTailed_written (v : State) (id : BatchId) (j : Nat) (h : grants 1 b) : closeTailed id (j, v.amid m p b) =
    collectAfterClose (tryOriginate (afterClose id (freedBatch id
      (v.amid (applyWrites m [headerOver v id j]) (p ++ [headerOver v id j]) (b.drop 1))))) := by
  have written := closeTailed_granted (id := id) (tail := (j, v.amid m p b)) h
  rw [written, wrote_amid, ← headerOver_amid (m := m) (p := p) (b := b) v id j]
  rfl

/-- A header written, and with nothing after it that fails. -/
theorem closeTailed_whole (v : State) (id : BatchId) (j : Nat) : closeTailed id (j, v.amid m p []) =
    (closedOn id v).amid (applyWrites m (headerOver v id j :: nextHeader v id)) (p ++ headerOver v id j :: nextHeader v id) [] := by
  rw [closeTailed_written v id j (grants_nil 1), List.drop_nil, closing_amid, List.append_assoc]
  rfl

/-- A header that is not written. -/
theorem closeTailed_lost (v : State) (id : BatchId) (j : Nat) : closeTailed id (j, v.amid m p (.error landed :: rest)) =
    (tryOriginate (stopOnFault (raiseDevice .busFault v))).amid m p rest := by
  unfold closeTailed
  dsimp only
  rw [hostWrite_amid_error, ← inert_tryOriginate.amid, ← inert_stopOnFault.amid]
  rfl

/-- The header of the next service is not written. -/
theorem closeTailed_unstarted (v : State) (id : BatchId) (j : Nat) (run : v.run = true)
    (waiting : (v.batch (otherBatch id)).state = .waiting) : closeTailed id (j, v.amid m p (.done :: .error landed :: rest)) =
      (tryOriginate (stopOnFault (raiseDevice .busFault
        (servingFrom (otherBatch id) (v.batch (otherBatch id)).taken (freedBatch id v))))).amid
          (applyWrites m [headerOver v id j]) (p ++ [headerOver v id j]) rest := by
  rw [closeTailed_written v id j (grants_one _), List.drop_one,
    List.tail_cons, (inert_freedBatch id).amid]
  generalize applyWrites m [headerOver v id j] = n, p ++ [headerOver v id j] = made
  have runs : ((freedBatch id v).amid n made (.error landed :: rest)).run = true := by cases id <;> exact run
  have waits : (((freedBatch id v).amid n made (.error landed :: rest)).batch (otherBatch id)).state = .waiting := by
    cases id <;> exact waiting
  rw [afterClose, if_pos runs, if_pos waits, startService_amid_error, batch_other_freed, inert_tryOriginate.amid]
  refine collectAfterClose_keeps (.inl ?_)
  have serves : (tryOriginate (stopOnFault (raiseDevice .busFault (servingFrom (otherBatch id) (v.batch (otherBatch id)).taken
      (freedBatch id v))))).batch (otherBatch id) = ⟨.inService, (v.batch (otherBatch id)).taken⟩ := by
    rw [(quiet_tryOriginate _).batch, batch_stopOnFault, batch_raiseDevice]
    exact (batch_servingFrom (otherBatch id) _ (freedBatch id v)).1
  generalize tryOriginate (stopOnFault (raiseDevice .busFault (servingFrom (otherBatch id) (v.batch (otherBatch id)).taken
      (freedBatch id v)))) = w at serves
  cases busy : (w.amid n made rest).bothFree with
  | false => rfl
  | true =>
    have free : w.bothFree = true := busy
    have other := ((bothFree_iff id).1 free).2
    rw [serves] at other
    cases other

/-! ## The SKIPPED results -/

theorem passedOver_eq (a : Nat) (s : State) : passedOver a s = { s with abandoned := s.abandoned || decide (0 < a) } := rfl

theorem inert_passedOver (a : Nat) : Inert (passedOver a) := .of_blind fun _ _ _ _ _ => rfl

theorem skippedState_amid (s : State) (id : BatchId) : skippedState (s.amid m p b) id =
    (skippedState s id).amid (applyWrites m (skipWrites s id)) (p ++ skipWrites s id) (b.drop (skipWrites s id).length) := by
  cases id <;> rfl

theorem abandonRest_amid (s : State) (id : BatchId) (h : grants (skipWrites s id).length b) :
    abandonRest id (s.amid m p b) = closeBatch id ((skippedState s id).amid (applyWrites m (skipWrites s id))
      (p ++ skipWrites s id) (b.drop (skipWrites s id).length)) := by
  rw [← skippedState_amid]
  refine abandonRest_granted ?_
  have same : skipWrites (s.amid m p b) id = skipWrites s id := by cases id <;> rfl
  rw [same]
  exact h

/-- A SKIPPED result that is not written. -/
theorem abandonRest_amid_lost (s : State) (id : BatchId) (lt : j < (skipWrites s id).length) (landed : Nat) :
    abandonRest id (s.amid m p (List.replicate j .done ++ .error landed :: rest)) =
      (stopOnFault (raiseDevice .busFault (passedOver j s))).amid (applyWrites m ((skipWrites s id).take j))
        (p ++ (skipWrites s id).take j) rest := by
  rw [skipWrites_length] at lt
  obtain ⟨d, more⟩ : ∃ d, (s.batch id).taken - s.nextIndex = j + (d + 1) := ⟨(s.batch id).taken - s.nextIndex - j - 1, by omega⟩
  have first : (skipWrites s id).take j = skipsFrom s.workBase id s.nextIndex j := by
    rw [skipWrites_eq, skipsFrom, skipsFrom, ← List.map_take, more]
    rw [← List.range'_append_1, List.take_left' List.length_range']
  have skipped := skipEntries_granted (s := s.amid m p (List.replicate j BusOutcome.done ++ .error landed :: rest)) id j (i := s.nextIndex)
    (n := d + 1) (grants_replicate j (.error landed :: rest))
  have base : (s.amid m p (List.replicate j .done ++ .error landed :: rest)).workBase = s.workBase := rfl
  rw [(inert_passedOver j).amid, wrote_amid, drop_replicate, base, ← first, skipEntries, hostWrite_amid_error] at skipped
  have batch : (s.amid m p (List.replicate j .done ++ .error landed :: rest)).batch id = s.batch id := by cases id <;> rfl
  have index : (s.amid m p (List.replicate j .done ++ .error landed :: rest)).nextIndex = s.nextIndex := rfl
  unfold abandonRest
  dsimp only
  rw [batch, index, more, skipped]
  dsimp only
  rw [← inert_stopOnFault.amid]
  rfl

end Sys2Proof.Machine
end

