-- ==== Sys2Proof/Proofs/Faulted.lean ====
section
/-! PROOFS. An entry that ends in BUS_FAULT: the rest of its batch abandoned and closed, or the engine stopped. -/

namespace Sys2Proof.Machine
variable {s t u v own before : State} {id : BatchId} {m n : Memory} {p ws torn : List HostWrite} {b rest : List BusOutcome}
  {i j k landed : Nat} {c : Instr} {r : EntryResult} {request : State → EntryResult × State}

/-! ## A close whose writes are all made -/

theorem headerOver_deliveredFirst (u : State) (id : BatchId) (i j : Nat) :
    headerOver (raiseDevice .busFault (deliveredFirst i u)) id j = headerOver u id j ∧
      headerOver (deliveredFirst i u) id j = headerOver u id j := by
  have quiet := deliveredFirst_quiet i u
  have raised := quiet.trans (quiet_raiseDevice .busFault _)
  simp only [headerOver, quiet.workBase, quiet.abandoned, quiet.batch, quiet.entriesDone, raised.workBase, raised.abandoned,
    raised.batch, raised.entriesDone, and_self]

theorem headerOver_all (u : State) (id : BatchId) : headerOver (deliveredAll u) id (tailItems u).length = closeHeader u id := by
  rw [deliveredAll_eq, (headerOver_deliveredFirst u id _ _).2]
  rfl

theorem nextHeader_quiet (h : Quiet s t) (id : BatchId) : nextHeader t id = nextHeader s id := by
  simp only [nextHeader, startHeader, h.run, h.batch, h.workBase]

theorem closeBatch_amid (u : State) (id : BatchId) (tail : Nat × State)
    (filled : fillTail id 0 (min u.settings.tailRoom u.queue.length) (u.amid m p b) = tail) :
    closeBatch id (u.amid m p b) = closeTailed id tail := by
  rw [closeBatch_eq, ← filled]
  rfl

theorem closeBatch_whole (u : State) (id : BatchId) : closeBatch id (u.amid m p []) =
    (closedOn id (deliveredAll u)).amid (applyWrites m (tailWrites u id ++ closeHeader u id :: nextHeader u id))
      (p ++ (tailWrites u id ++ closeHeader u id :: nextHeader u id)) [] := by
  rw [closeBatch_amid u id _ (fillTail_amid_whole id u (grants_nil _)), List.drop_nil, closeTailed_whole, headerOver_all,
    nextHeader_quiet (deliveredAll_quiet u), ← applyWrites_append, List.append_assoc]

theorem closedOn_amid (id : BatchId) (v : State) : closedOn id (v.amid m p b) = (closedOn id v).amid m p b := by
  rw [closedOn, (inert_freedBatch id).amid, (inert_nextEngine id).amid]
  exact inert_closing.amid _

/-- The state that a close leaves, told apart from its writes. -/
theorem afterCloseState_inner (u : State) (none : u.bus = []) (id : BatchId) :
    (afterCloseState u id).inner = (closedOn id (deliveredAll u)).inner := by
  have bus : (headed u id).bus = [] := by
    rw [headed, State.wrote_bus, (deliveredAll_quiet u).bus, none, List.drop_nil]
  calc (afterCloseState u id).inner
    _ = (closedOn id (headed u id)).inner := closing_inner (headed u id) bus id
    _ = (closedOn id (deliveredAll u)).inner := by
      rw [headed, wrote_as_amid, closedOn_amid]
      exact amid_inner _

theorem batch_closedOn (id : BatchId) (v : State) : (closedOn id v).batch id = ⟨.free, 0⟩ := by
  rw [closedOn, (quiet_closing _).batch, (following_nextEngine id _).batch, batch_freed]

/-! ## The end of an entry -/

theorem asks_of_entry (entry : isEntry c = true) : asks c = true := by
  cases c with
  | powerOnReset => cases entry
  | resetnFall => cases entry
  | pinReset => cases entry
  | workBaseWrite half value => cases entry
  | runClear => cases entry
  | noticeClear value => cases entry
  | ignoredRegisterWrite register value => cases entry
  | periodMark => cases entry
  | _ => rfl

/-- The event of an entry that is due. -/
theorem entry_event (entry : isEntry c = true) (ready : s.ready id) (b : List BusOutcome) : exec (withBus b c) s =
    .next (endEvent (serveEntryOf id (requestOf c) ((s.begun (envOf c)).amid s.hostMem [] b))) := by
  have asked : asks c = true := asks_of_entry entry
  rw [withBus_asks asked, pinned_entry entry, bodyOf_entry entry, event_of_high ready.1]
  have due : (beginEvent { envOf c with bus := b } s).serving? = some id := ready.2
  have begun : beginEvent { envOf c with bus := b } s = (s.begun (envOf c)).amid s.hostMem [] b := rfl
  rw [entryBody_some due, begun]

theorem withBus_self (c : Instr) : withBus (envOf c).bus c = c := by cases c <;> rfl

/-- What an entry does once its request has been served. -/
theorem serveEntryOf_amid {x : State} (id : BatchId)
    (serves : readRequest request (hostRead x).1 (hostRead x).2 = (r, own.amid m p b)) (shown : boardWrites x own = boardWrites s own)
    (granted : grants (boardWrites s own).length b) :
    serveEntryOf id request x = flushBoard own (completeEntry id r (own.amid (applyWrites m (boardWrites s own))
      (p ++ boardWrites s own) (b.drop (boardWrites s own).length))) := by
  rw [serveEntryOf_split]
  dsimp only
  rw [serves]
  dsimp only
  rw [flushBoard_amid x own (by rw [shown]; exact granted), shown, withBoard]
  exact flushBoard_outside _ _ _

theorem completeEntry_lost (id : BatchId) (r : EntryResult) (own : State) :
    completeEntry id r (own.amid m p (.error landed :: rest)) = (stopOnFault (raiseDevice .busFault own)).amid m p rest := by
  unfold completeEntry
  rw [hostWrite_amid_error]
  rw [← inert_stopOnFault.amid]
  exact if_pos rfl

theorem completeEntry_faulted (status : r.status = .busFault) (h : grants 1 b) (id : BatchId) (own : State) :
    completeEntry id r (own.amid m p b) = abandonRest id (own.faulted.amid (applyWrites m [resultWrite own id r])
      (p ++ [resultWrite own id r]) (b.drop 1)) := by
  have write : (⟨resultAddress (own.amid m p b).workBase id (own.amid m p b).nextIndex, resultBytes r⟩ : HostWrite) =
    resultWrite own id r := rfl
  have counts : setAbandoned (countEntry own) = own.faulted := rfl
  unfold completeEntry
  rw [hostWrite_amid h, write]
  dsimp only
  rw [if_neg (by decide), if_pos status, inert_countEntry.amid, inert_setAbandoned.amid, counts]

theorem resultWrite_of (work : own.workBase = s.workBase) (index : own.nextIndex = s.nextIndex) (id : BatchId) (r : EntryResult) :
    resultWrite own id r = resultWrite s id r := by rw [resultWrite, work, index, resultWrite]

/-! ## An entry that ends in BUS_FAULT -/

/-- What is left of the state in which a request of an entry has come to a failed access. -/
structure FaultedAt (s own : State) (m : Memory) (torn : List HostWrite) : Prop where
  view : own.engineView = s.engineView
  workBase : own.workBase = s.workBase
  busFault : own.device.busFault = true
  bus : own.bus = []
  frame : Untouched s.hostMem m [] torn

theorem stopped_unshown (s : State) : boardWrites s (stopOnFault s) = [] :=
  ShownAlike.unshown ⟨rfl, rfl, rfl, rfl, rfl, rfl⟩

/-- The request of the entry `c` has come to a failed access, with result `r`. -/
structure ComesToFault (id : BatchId) (c : Instr) (s own : State) (r : EntryResult) (m : Memory) (torn : List HostWrite) : Prop
    extends FaultedAt s own m torn where
  entry : isEntry c = true
  ready : s.ready id
  status : r.status = .busFault
  serves : ∀ rest, readRequest (requestOf c) (hostRead ((s.begun (envOf c)).amid s.hostMem [] ((envOf c).bus ++ rest))).1
    (hostRead ((s.begun (envOf c)).amid s.hostMem [] ((envOf c).bus ++ rest))).2 = (r, own.amid m [] rest)

theorem ComesToFault.index (h : ComesToFault id c s own r m torn) : own.nextIndex = s.nextIndex :=
  congrArg EngineView.nextIndex h.view

theorem ComesToFault.done (h : ComesToFault id c s own r m torn) : own.entriesDone = s.entriesDone :=
  congrArg EngineView.entriesDone h.view

theorem ComesToFault.inService (h : ComesToFault id c s own r m torn) : (own.batch id).state = .inService := by
  rw [batch_of_view h.view]
  exact batch_of_inService? (serving?_iff.1 h.ready.2).2.1

/-- The entry up to its result. -/
theorem ComesToFault.served (h : ComesToFault id c s own r m torn) (granted : grants (boardWrites s own).length rest) :
    exec (withBus ((envOf c).bus ++ rest) c) s = .next (endEvent (flushBoard own (completeEntry id r (own.amid
      (applyWrites m (boardWrites s own)) (boardWrites s own) (rest.drop (boardWrites s own).length))))) := by
  rw [entry_event h.entry h.ready, serveEntryOf_amid id (h.serves rest)
    (begun_boardWrites { envOf c with bus := (envOf c).bus ++ rest } s own) granted, List.nil_append]

theorem entryAbandoned (inner : v.inner = (abandonedState id own).inner)
    (posted : p = boardWrites s own ++ [resultWrite s id r] ++ skipWrites own.faulted id ++ tailWrites own.faulted id
      ++ [closeHeader (skippedState own.faulted id) id] ++ nextHeader own id ++ boardWrites own (abandonedState id own))
    (frame : Untouched s.hostMem m p torn) : EntryAbandoned id s (endEvent (v.amid m p b)) r torn own :=
  ⟨inner, posted, rfl, frame⟩

/-- The rest of the batch abandoned, the close and the next service. -/
theorem ComesToFault.ends (h : ComesToFault id c s own r m torn) :
    ∃ t, exec c s = .next t ∧ (t.batch id).state = .free ∧ EntryAbandoned id s t r torn own := by
  have whole := h.served (grants_nil (boardWrites s own).length)
  rw [List.append_nil, withBus_self, List.drop_nil, completeEntry_faulted h.status (grants_nil 1), List.drop_nil,
    abandonRest_amid _ _ (grants_nil _), List.drop_nil, closeBatch_whole, flushBoard_amid _ _ (grants_nil _), List.drop_nil] at whole
  have bus : (skippedState own.faulted id).bus = [] := by
    show own.bus.drop _ = []
    rw [h.bus, List.drop_nil]
  have closed : (abandonedState id own).inner = (closedOn id (deliveredAll (skippedState own.faulted id))).inner :=
    afterCloseState_inner _ bus id
  have next : nextHeader (skippedState own.faulted id) id = nextHeader own id := by cases id <;> rfl
  have tail : tailWrites (skippedState own.faulted id) id = tailWrites own.faulted id := rfl
  have free := batch_closedOn id (deliveredAll (skippedState own.faulted id))
  refine ⟨_, whole, ?_, entryAbandoned closed.symm ?_ ((((h.frame.wrote _).wrote _).wrote _).wrote _ |>.wrote _)⟩
  · rw [(ended_facts _ _ _ _ id).2.2.2.1, free]
  · rw [boardWrites_inner closed, next, tail, resultWrite_of h.workBase h.index]
    simp only [List.append_assoc, List.cons_append, List.nil_append]

/-- Its result is not written. -/
theorem ComesToFault.resultLost (h : ComesToFault id c s own r m torn) (landed : Nat) : ∃ t,
    exec (withBus ((envOf c).bus ++ List.replicate (boardWrites s own).length .done ++ [.error landed]) c) s = .next t ∧
      EventStopped id s t (boardWrites s own) torn (stopOnFault own) ∧ t.nextIndex = s.nextIndex ∧ t.entriesDone = s.entriesDone := by
  have lost := h.served (grants_replicate (boardWrites s own).length [.error landed])
  rw [drop_replicate, completeEntry_lost, raised_busFault h.busFault, flushBoard_amid_unshown (stopped_unshown own)] at lost
  rw [List.append_assoc]
  exact ⟨_, lost, eventStopped (stopOnFault_faultStopped h.busFault h.inService) (h.frame.wrote _) rfl, h.index, h.done⟩

/-- The SKIPPED result of a later entry is not written. -/
theorem ComesToFault.skippedLost (h : ComesToFault id c s own r m torn) (landed : Nat) (lt : j < (skipWrites own.faulted id).length) :
    ∃ t, exec (withBus ((envOf c).bus ++ List.replicate ((boardWrites s own).length + 1 + j) .done ++ [.error landed]) c) s
        = .next t ∧
      EventStopped id s t (boardWrites s own ++ [resultWrite s id r] ++ (skipWrites own.faulted id).take j) torn
        (stopOnFault own.faulted) ∧
      t.nextIndex = s.nextIndex + 1 ∧ t.entriesDone = s.entriesDone + 1 := by
  have outcomes : List.replicate ((boardWrites s own).length + 1 + j) BusOutcome.done ++ [.error landed] =
      List.replicate (boardWrites s own).length .done ++ .done :: (List.replicate j .done ++ .error landed :: []) := by
    rw [Nat.add_assoc, List.replicate_add, List.append_assoc, Nat.add_comm 1 j, List.replicate_succ]
    rfl
  have lost := h.served (grants_replicate (boardWrites s own).length (.done :: (List.replicate j .done ++ .error landed :: [])))
  have alike : ShownAlike own (stopOnFault own.faulted) := ⟨rfl, rfl, rfl, rfl, rfl, rfl⟩
  have faulted : raiseDevice .busFault own.faulted = own.faulted := raised_busFault h.busFault
  have passed : passedOver j own.faulted = own.faulted := rfl
  have inService : (own.faulted.batch id).state = .inService := by
    rw [← h.inService]
    cases id <;> rfl
  rw [drop_replicate, completeEntry_faulted h.status (grants_one _), List.drop_one, List.tail_cons,
    abandonRest_amid_lost _ _ lt, passed, faulted, flushBoard_amid_unshown alike.unshown, resultWrite_of h.workBase h.index] at lost
  rw [List.append_assoc, outcomes]
  exact ⟨_, lost, eventStopped (stopOnFault_faultStopped h.busFault inService) (((h.frame.wrote _).wrote _).wrote _) rfl,
    congrArg (· + 1) h.index, congrArg (· + 1) h.done⟩

/-- How an entry ends whose request has come to a failed access. -/
theorem ComesToFault.entryBusFault (h : ComesToFault id c s own r m torn) : EntryBusFault id s c r torn own :=
  ⟨h.ends, h.resultLost, fun _ landed lt => h.skippedLost landed lt⟩

end Sys2Proof.Machine
end

