-- ==== Sys2Proof/Proofs/Answers.lean ====
section
/-! PROOFS. No request answers BUS_FAULT where its accesses succeed. -/

namespace Sys2Proof.Machine
variable {s t : State} {k : Slot} {e : WorkEntry} {input body text : List Byte} {x y : EntryResult × State}

/-- An answer other than BUS_FAULT. -/
def Unfaulted (x : EntryResult × State) : Prop := x.1.status ≠ .busFault

theorem Unfaulted.ite {c : Prop} [Decidable c] (yes : c → Unfaulted x) (no : ¬ c → Unfaulted y) : Unfaulted (if c then x else y) := by
  split
  · exact yes ‹_›
  · exact no ‹_›

theorem busClean_of_bus (h : s.busClean) (bus : t.bus = s.bus) : t.busClean := by
  rw [State.busClean, bus]
  exact h

/-! ## Traffic -/

theorem unfaulted_outboundUse (clean : s.busClean) : Unfaulted (outboundUse k e body s) := by
  rw [outboundUse_split]
  dsimp only
  rw [hostWrite_clean (s := s.modLink k sequencedRecord) clean]
  exact nofun

theorem unfaulted_serveOutbound (clean : s.busClean) : Unfaulted (serveOutbound e input s) := by
  have answers {r : EntryResult} (does : serveOutbound e input s = (r, s)) (other : r.status ≠ .busFault) :
      Unfaulted (serveOutbound e input s) := by
    rw [does]
    exact other
  by_cases fits : e.inputLength.toNat ≤ 1536
  swap
  · exact answers (serveOutbound_oversize (Nat.not_le.mp fits)) nofun
  by_cases room : e.inputLength.toNat + 28 ≤ e.outputRoom.toNat
  swap
  · exact answers (serveOutbound_noRoom fits (Nat.not_le.mp room)) nofun
  cases found : lookupBranch s.branchMap e.slotField.toNat with
  | none => exact answers (serveOutbound_unknown fits room found) nofun
  | some k =>
    cases state : (s.link k).state with
    | quarantined => exact answers (serveOutbound_quarantined fits room found state) nofun
    | vacant => exact answers (serveOutbound_noKey fits room found (.inl state)) nofun
    | standby => exact answers (serveOutbound_noKey fits room found (.inr state)) nofun
    | stalled => exact answers (serveOutbound_stalled fits room found state) nofun
    | live =>
      cases held : holdRefusal (s.link k) s.quiesce with
      | some refusal =>
        refine answers (serveOutbound_held fits room found state held) ?_
        unfold holdRefusal at held
        split at held <;> cases held <;> exact nofun
      | none =>
        by_cases empty : e.inputLength.toNat = 0
        · rw [serveOutbound_passed fits room found state held (if_pos empty)]
          exact unfaulted_outboundUse clean
        · rw [serveOutbound_passed fits room found state held ((if_neg empty).trans (hostRead_clean clean))]
          exact unfaulted_outboundUse (State.busClean_wrote clean 1 [])

theorem writeOutput_clean (clean : s.busClean) (e : WorkEntry) (body : List Byte) : (writeOutput e body s).1 = true := by
  unfold writeOutput
  split
  · rfl
  · rw [hostWrite_clean clean]

theorem unfaulted_deliverData (clean : s.busClean) (h : Header) (choice : KeyChoice) : Unfaulted (deliverData k e h choice body s) := by
  have written := writeOutput_clean clean e body
  unfold deliverData
  generalize writeOutput e body s = wrote at written
  dsimp only
  rw [if_pos written]
  exact nofun

theorem unfaulted_consumeControl (clean : s.busClean) (h : Header) : Unfaulted (consumeControl k e h body s) := by
  cases shape : parseControl body with
  | invalid detail =>
    rw [consumeControl_invalid shape]
    exact nofun
  | accept generation nonce proof =>
    rcases taken : takeAccept k generation nonce proof s with ⟨_ | _, u⟩
    · rw [consumeControl_staleAccept shape taken]
      exact nofun
    · rw [consumeControl_accept shape taken]
      exact nofun
  | refuse generation nonce reason =>
    rcases taken : takeRefuse k generation nonce reason s with ⟨_ | _, u⟩
    · rw [consumeControl_staleRefuse shape taken]
      exact nofun
    · rw [consumeControl_refuse shape taken]
      exact nofun
  | report entries =>
    have kept : (takeReport k entries s).busClean := busClean_of_bus clean (quiet_takeReport k entries s).bus
    have written := writeOutput_clean kept e body
    rcases wrote : writeOutput e body (takeReport k entries s) with ⟨done, u⟩
    rw [wrote] at written
    rw [consumeControl_report shape wrote, if_pos written]
    exact nofun

theorem unfaulted_decipherInbound (clean : s.busClean) (choice : KeyChoice) :
    Unfaulted (decipherInbound k e input (parseHeader input) choice s) := by
  have read := hostRead_clean clean
  have kept : (tagPassed k choice (parseHeader input).sequence.toNat ((s.wrote 1 []).modLink k fun l =>
      l.charge (cost (parseHeader input).bodyLength.toNat) choice)).busClean :=
    busClean_of_bus (State.busClean_wrote clean 1 []) (tagPassed_host _ _ _ _).2
  cases reads : inboundText (s.wrote 1 []) input k choice with
  | none =>
    rw [decipherInbound_fails read reads]
    exact nofun
  | some text =>
    rw [decipherInbound_reads read reads]
    exact .ite (fun _ => unfaulted_deliverData kept _ _) fun _ => unfaulted_consumeControl kept _

theorem unfaulted_inboundAtLink (clean : s.busClean) : Unfaulted (inboundAtLink k e input (parseHeader input) s) := by
  by_cases class_ : (parseHeader input).class_ = classControl ↔ (parseHeader input).generation.toNat = 0
  swap
  · rw [inboundAtLink_mismatch (by tauto)]
    exact nofun
  cases selected : selectKey (s.link k) (parseHeader input).generation.toNat with
  | keySpent =>
    rw [inboundAtLink_keySpent class_ selected]
    exact nofun
  | unknownGen =>
    rw [inboundAtLink_unknownGen class_ selected]
    exact nofun
  | key choice =>
    cases window : windowTest ((s.link k).windowOf choice) (parseHeader input).sequence.toNat with
    | replayed =>
      rw [inboundAtLink_replayed class_ selected window]
      exact nofun
    | tooOld =>
      rw [inboundAtLink_tooOld class_ selected window]
      exact nofun
    | passes =>
      rw [inboundAtLink_passes class_ selected window]
      exact unfaulted_decipherInbound clean choice

theorem headerRefusal_unfaulted {h : Header} {i o : Nat} {refusal : Status × Detail} (refused : headerRefusal h i o = some refusal) :
    refusal.1 ≠ .busFault := by
  unfold headerRefusal at refused
  dsimp only at refused
  split_ifs at refused <;> cases refused <;> exact nofun

theorem unfaulted_serveInbound (clean : s.busClean) : Unfaulted (serveInbound e input s) := by
  by_cases long : 28 ≤ e.inputLength.toNat
  swap
  · rw [serveInbound_runt (Nat.not_le.mp long)]
    exact nofun
  rw [serveInbound_split long, hostRead_clean clean, if_pos rfl]
  unfold inboundHeaded
  cases refused : headerRefusal (parseHeader input) e.inputLength.toNat e.outputRoom.toNat with
  | some refusal => exact headerRefusal_unfaulted refused
  | none =>
    cases lookupBranch (s.wrote 1 []).branchMap (parseHeader input).branch.toNat with
    | none => exact nofun
    | some k => exact .ite (fun _ => nofun) fun _ => unfaulted_inboundAtLink (State.busClean_wrote clean 1 [])

/-! ## Administrative requests -/

theorem unfaulted_withBlock (clean : s.busClean) (slot : Nat) {next : State → EntryResult × State} (h : ∀ v, Unfaulted (next v)) :
    Unfaulted (withBlock slot e s next) := by
  refine .ite (fun _ => nofun) fun _ => ?_
  rw [hostRead_clean clean]
  exact h _

theorem unfaulted_withOutput (clean : s.busClean) (bytes : List Byte) {good failed : EntryResult} (clear : State → State)
    (other : good.status ≠ .busFault) : Unfaulted (withOutput e bytes good failed clear s) := by
  unfold withOutput
  rw [hostWrite_clean clean]
  exact other

theorem unfaulted_enrolChecked (k : Slot) (e : WorkEntry) (b : LinkBlock) (s : State) : Unfaulted (enrolChecked k e b s) := by
  refine .ite (fun _ => nofun) fun _ => .ite (fun _ => nofun) fun _ => .ite (fun _ => nofun) fun _ => ?_
  cases profileNumberOf b.profile with
  | none => exact nofun
  | some n =>
    refine .ite (fun _ => nofun) fun _ => .ite (fun _ => nofun) fun _ => ?_
    cases Config.cipher.unwrap s.masterKey b.wrappedKey with
    | none => exact nofun
    | some key => exact .ite (fun _ => nofun) fun _ => nofun

theorem unfaulted_setLinkChecked (k : Slot) (b : LinkBlock) (s : State) : Unfaulted (setLinkChecked k b s) := by
  refine .ite (fun _ => nofun) fun _ => .ite (fun _ => nofun) fun _ => .ite (fun _ => nofun) fun _ => .ite (fun _ => nofun)
    fun _ => .ite (fun _ => nofun) fun _ => ?_
  cases profileNumberOf b.profile with
  | none => exact nofun
  | some n => exact .ite (fun _ => nofun) fun _ => nofun

theorem unfaulted_setProfileChecked (e : WorkEntry) (input : List Byte) (s : State) : Unfaulted (setProfileChecked e input s) := by
  unfold setProfileChecked
  cases profileNumberOf (ofLe (bytesAt input 0 1)) with
  | none => exact nofun
  | some n =>
    refine .ite (fun _ => .ite (fun _ => nofun) fun _ => nofun) fun _ => ?_
    show (if profileClamps input then Status.okClamped else .ok) ≠ .busFault
    split <;> exact nofun

theorem unfaulted_markOne (k : Slot) (f : Link → Link) (s : State) : Unfaulted (markOne k f s) :=
  .ite (fun _ => nofun) fun _ => .ite (fun _ => nofun) fun _ => nofun

theorem unfaulted_serveRetire (e : WorkEntry) (s : State) : Unfaulted (serveRetire e s) := by
  unfold serveRetire
  cases slotOf e.slotField with
  | none => exact nofun
  | some k => exact .ite (fun _ => nofun) fun _ => nofun

theorem unfaulted_serveHold (e : WorkEntry) (s : State) : Unfaulted (serveHold e s) := by
  refine .ite (fun _ => nofun) fun _ => ?_
  cases slotOf e.slotField with
  | none => exact nofun
  | some k => exact unfaulted_markOne k _ s

theorem unfaulted_serveRelease (e : WorkEntry) (s : State) : Unfaulted (serveRelease e s) := by
  refine .ite (fun _ => .ite (fun _ => nofun) fun _ => nofun) fun _ => ?_
  cases slotOf e.slotField with
  | none => exact nofun
  | some k => exact .ite (fun _ => unfaulted_markOne k _ s) fun _ => nofun

theorem unfaulted_serveRenewNow (e : WorkEntry) (s : State) : Unfaulted (serveRenewNow e s) := by
  unfold serveRenewNow
  generalize renewAll s = renewed
  refine .ite (fun _ => nofun) fun _ => ?_
  cases slotOf e.slotField with
  | none => exact nofun
  | some k =>
    dsimp only
    cases (s.link k).state <;> exact nofun

theorem unfaulted_serveEnrol (clean : s.busClean) : Unfaulted (serveEnrol e input s) := by
  unfold serveEnrol
  cases slotOf e.slotField with
  | none => exact nofun
  | some k => exact unfaulted_withBlock clean _ (unfaulted_enrolChecked k e _)

theorem unfaulted_serveSetLink (clean : s.busClean) : Unfaulted (serveSetLink e input s) := by
  unfold serveSetLink
  cases slotOf e.slotField with
  | none => exact nofun
  | some k => exact unfaulted_withBlock clean _ (unfaulted_setLinkChecked k _)

theorem unfaulted_serveReadLink (clean : s.busClean) : Unfaulted (serveReadLink e s) := by
  unfold serveReadLink
  cases slotOf e.slotField with
  | none => exact nofun
  | some k => exact .ite (fun _ => nofun) fun _ => .ite (fun _ => nofun) fun _ => unfaulted_withOutput clean _ _ nofun

theorem unfaulted_serveReadFaults (clean : s.busClean) : Unfaulted (serveReadFaults e s) := by
  unfold serveReadFaults
  cases slotOf e.slotField with
  | none => exact nofun
  | some k => exact .ite (fun _ => nofun) fun _ => .ite (fun _ => nofun) fun _ => unfaulted_withOutput clean _ _ nofun

theorem unfaulted_requestOf {c : Instr} (entry : isEntry c = true) (clean : s.busClean) : Unfaulted (requestOf c s) := by
  cases c with
  | outbound e input env => exact unfaulted_serveOutbound clean
  | inbound e input env => exact unfaulted_serveInbound clean
  | enrol e input env => exact unfaulted_serveEnrol clean
  | retire e env => exact unfaulted_serveRetire e s
  | setLink e input env => exact unfaulted_serveSetLink clean
  | setProfile e input env => exact unfaulted_withBlock clean _ (unfaulted_setProfileChecked e input)
  | hold e env => exact unfaulted_serveHold e s
  | release e env => exact unfaulted_serveRelease e s
  | renewNow e env => exact unfaulted_serveRenewNow e s
  | readLink e env => exact unfaulted_serveReadLink clean
  | readFaults e env => exact unfaulted_serveReadFaults clean
  | readDevice e env => exact .ite (fun _ => nofun) fun _ => unfaulted_withOutput clean _ _ nofun
  | badRequest kind e env => exact nofun
  | _ => cases entry

end Sys2Proof.Machine
end

