-- ==== Sys2Proof/Proofs/EntryErrors.lean ====
section
/-! PROOFS. Errors on the accesses of an entry: of its result write, of the read of the entry, and of the reads of its input. -/

namespace Sys2Proof.Machine
variable {s t u v w own : State} {id : BatchId} {m : Memory} {p ws torn : List HostWrite} {b rest : List BusOutcome} {k : Slot}
  {d landed : Nat} {c : Instr} {r : EntryResult} {α : Type} {a : α} {vs : List HostWrite} {env : Env} {e : WorkEntry}
  {input : List Byte}

/-! ## Board writes, whatever becomes of them -/

/-- What the board writes of an event may do, whatever becomes of them. -/
structure Boarded (s t : State) : Prop where
  beside : Beside s t
  view : t.engineView = s.engineView
  boardBase : t.boardBase = s.boardBase
  busFault : s.device.busFault = true → t.device.busFault = true
  posted : ∃ ws, t.posted = s.posted ++ ws ∧ ∀ w ∈ ws, isBoardWrite s.boardBase w

theorem Boarded.refl (s : State) : Boarded s s := ⟨.refl s, rfl, rfl, fun h => h, [], (List.append_nil _).symm, nofun⟩

theorem Boarded.trans (h : Boarded s t) (g : Boarded t u) : Boarded s u where
  beside := h.beside.trans g.beside
  view := g.view.trans h.view
  boardBase := g.boardBase.trans h.boardBase
  busFault active := g.busFault (h.busFault active)
  posted := by
    obtain ⟨ws, posted, board⟩ := h.posted
    obtain ⟨vs, more, last⟩ := g.posted
    refine ⟨ws ++ vs, by rw [more, posted, List.append_assoc], fun w mem => ?_⟩
    rcases List.mem_append.mp mem with first | second
    · exact board w first
    · rw [← h.boardBase]
      exact last w second

/-- A write is made and posted, or it is not. -/
theorem posted_hostWrite (a : Address) (bytes : List Byte) (s : State) :
    (hostWrite .whole a bytes s).2.posted = s.posted ++ [⟨a, bytes⟩] ∨ (hostWrite .whole a bytes s).2.posted = s.posted := by
  rcases h : s.bus with _ | ⟨_ | landed | landed, rest⟩
  · rw [hostWrite_nil h]
    exact .inl rfl
  · rw [hostWrite_done h]
    exact .inl rfl
  · rw [hostWrite_error h, if_pos rfl]
    exact .inr (quiet_raiseDevice .busFault _).posted
  · rw [hostWrite_fall h, if_neg (by decide)]
    exact .inr rfl

theorem busFault_hostWrite (a : Address) (bytes : List Byte) (active : s.device.busFault = true) :
    (hostWrite .whole a bytes s).2.device.busFault = true := by
  rcases h : s.bus with _ | ⟨_ | landed | landed, rest⟩
  · rw [hostWrite_nil h]
    exact active
  · rw [hostWrite_done h]
    exact active
  · rw [hostWrite_error h]
    exact busFault_raised _
  · rw [hostWrite_fall h, if_neg (by decide)]
    exact active

theorem boarded_writeBoardSlot {base : Address} {k : Nat} {bytes : List Byte} {s : State}
    (board : isBoardWrite s.boardBase ⟨boardSlotAddress base k, bytes⟩) : Boarded s (writeBoardSlot base k bytes s) where
  beside := (apart_hostWrite _ _ _ s).beside
  view := (served_hostWrite (map := True) (profiles := True) _ _ _ s).engine
  boardBase := (served_hostWrite (map := True) (profiles := True) _ _ _ s).boardBase
  busFault := busFault_hostWrite _ _
  posted := by
    rcases posted_hostWrite (boardSlotAddress base k) bytes s with made | lost
    · exact ⟨_, made, fun w mem => by rw [List.mem_singleton.mp mem]; exact board⟩
    · exact ⟨[], lost.trans (List.append_nil _).symm, nofun⟩

theorem boarded_writeDeviceSlot {base : Address} (board : s.boardBase = some base) : Boarded s (writeDeviceSlot base s) := by
  have first : Boarded s (writeBoardSlot base 512 (deviceSlotBytes s) s) :=
    boarded_writeBoardSlot (by rw [board]; exact isBoardWrite_device s)
  unfold writeDeviceSlot
  dsimp only
  split
  · exact first
  · exact first.trans (boarded_writeBoardSlot (by rw [first.boardBase, board]; exact isBoardWrite_device _))

theorem boarded_flushBoard (before s : State) : Boarded s (flushBoard before s) := by
  unfold flushBoard
  cases board : s.boardBase with
  | none => exact .refl s
  | some base =>
    have slots (l : List Slot) {t : State} (h : Boarded s t) :
        Boarded s (l.foldl (fun t k => writeBoardSlot base k.val (linkSlotBytes s k) t) t) := by
      induction l generalizing t with
      | nil => exact h
      | cons k l ih => exact ih (h.trans (boarded_writeBoardSlot (by rw [h.boardBase, board]; exact isBoardWrite_link s k)))
    have links := slots (allSlots.filter (slotChanged before s)) (.refl s)
    dsimp only
    split
    · exact links
    · exact links.trans (boarded_writeDeviceSlot (links.boardBase.trans board))

/-- An event stopped by a failed write, and then its board writes. -/
theorem FaultStopped.boarded (h : FaultStopped id v) (kept : Boarded (v.amid m p b) u) :
    FaultStopped id (endEvent u) ∧ (endEvent u).batch id = v.batch id ∧ (endEvent u).nextIndex = v.nextIndex ∧
      (endEvent u).entriesDone = v.entriesDone ∧ ∃ ws, (endEvent u).posted = p ++ ws ∧ ∀ w ∈ ws, isBoardWrite v.boardBase w := by
  have batch : (endEvent u).batch id = v.batch id := by
    have same := batch_of_view kept.view id
    cases id <;> exact same
  exact ⟨⟨(congrArg EngineView.run kept.view).trans h.run, (congrArg EngineView.faultStop kept.view).trans h.faultStop,
    (congrArg EngineView.engine kept.view).trans h.engine, kept.busFault h.busFault, (congrArg Batch.state batch).trans h.inService⟩,
    batch, congrArg EngineView.nextIndex kept.view, congrArg EngineView.entriesDone kept.view, kept.posted⟩

/-! ## A result that is not written -/

/-- A paced operation at a state whose outcomes begin with successes. -/
theorem Paced.granted {f : State → α × State} (h : Paced f t a v d vs) (clean : grants d b) :
    f (t.facing b) = (a, v.facing (b.drop d)) := by
  have all : b.take d = List.replicate (b.take d).length .done := List.eq_replicate_of_mem clean
  by_cases long : d ≤ b.length
  · have split : b = List.replicate d .done ++ b.drop d := by
      conv_lhs => rw [← List.take_append_drop d b, all, List.length_take, Nat.min_eq_left long]
    rw [split, h.does, drop_replicate]
  · have short : b.length ≤ d := Nat.le_of_not_le long
    rw [List.take_of_length_le short] at all
    rw [List.drop_eq_nil_of_le short, all]
    exact h.clean b.length short

theorem grants_mono {n k : Nat} (h : grants n b) (le : k ≤ n) : grants k b := by
  intro o mem
  refine h o (List.mem_of_mem_take (i := k) ?_)
  rw [List.take_take, Nat.min_eq_left le]
  exact mem

theorem grants_drop {n k : Nat} (h : grants (n + k) b) : grants k (b.drop n) := by
  intro o mem
  have inside : o ∈ (b.take (n + k)).drop n := by rw [List.drop_take, Nat.add_sub_cancel_left]; exact mem
  exact h o (List.mem_of_mem_drop inside)

/-- An entry's request, served with its accesses succeeding. -/
structure RequestMade (s : State) (c : Instr) (r : EntryResult) (v : State) (d : Nat) : Prop where
  answers : r.status ≠ .busFault
  view : v.engineView = s.engineView
  workBase : v.workBase = s.workBase
  boardBase : v.boardBase = s.boardBase
  does : ∀ b, grants d b → readRequest (requestOf c) (hostRead ((s.begun (envOf c)).amid s.hostMem [] b)).1
    (hostRead ((s.begun (envOf c)).amid s.hostMem [] b)).2 = (r, v.amid v.hostMem v.posted (b.drop d))

theorem requestMade (entry : isEntry c = true) (s : State) : ∃ r v d, RequestMade s c r v d := by
  obtain ⟨r, v, d, vs, paced⟩ := paced_readRequest (paced_requestOf c) (s.begun (envOf c))
  have clean : ((s.begun (envOf c)).facing []).busClean := nofun
  have first : readRequest (requestOf c) (hostRead ((s.begun (envOf c)).facing [])).1 (hostRead ((s.begun (envOf c)).facing [])).2 =
    (r, v.facing []) := paced.clean 0 (Nat.zero_le d)
  rw [hostRead_clean clean] at first
  have does : requestOf c (((s.begun (envOf c)).facing []).wrote 1 []) = (r, v.facing []) := first
  have answers := unfaulted_requestOf entry (State.busClean_wrote clean 1 [])
  have served := served_requestOf c (((s.begun (envOf c)).facing []).wrote 1 [])
  rw [does] at answers served
  exact ⟨r, v, d, answers, served.engine, served.workBase, served.boardBase, fun b granted => paced.granted granted⟩

theorem RequestMade.index (h : RequestMade s c r v d) : v.nextIndex = s.nextIndex := congrArg EngineView.nextIndex h.view

/-- The entry up to its result. -/
theorem RequestMade.served (h : RequestMade s c r v d) (entry : isEntry c = true) (ready : s.ready id)
    (granted : grants (d + (boardWrites s v).length) b) : exec (withBus b c) s = .next (endEvent (flushBoard v (completeEntry id r
      (v.amid (applyWrites v.hostMem (boardWrites s v)) (v.posted ++ boardWrites s v) (b.drop (d + (boardWrites s v).length)))))) := by
  rw [entry_event entry ready, serveEntryOf_amid id (h.does b (grants_mono granted (Nat.le_add_right _ _)))
    (begun_boardWrites { envOf c with bus := b } s v) (grants_drop granted), List.drop_drop]

theorem completeEntry_done (answers : r.status ≠ .busFault) (h : grants 1 b) (id : BatchId) (v : State) :
    completeEntry id r (v.amid m p b) =
      v.counted.amid (applyWrites m [resultWrite v id r]) (p ++ [resultWrite v id r]) (b.drop 1) := by
  have write : (⟨resultAddress (v.amid m p b).workBase id (v.amid m p b).nextIndex, resultBytes r⟩ : HostWrite) =
    resultWrite v id r := rfl
  have counts : countEntry v = v.counted := rfl
  unfold completeEntry
  rw [hostWrite_amid h, write]
  dsimp only
  rw [if_neg (by decide), if_neg answers, inert_countEntry.amid, counts]

/-- What an entry leaves whose result is written, and whose result is not. -/
theorem result_lost (entry : isEntry c = true) (ready : s.ready id) (clean : cleanEnv (envOf c)) (does : exec c s = .next t) :
    ∃ n, ∀ (landed : Nat) (rest : List BusOutcome),
      ∃ u, exec (withBus (List.replicate n .done ++ .error landed :: rest) c) s = .next u ∧
        FaultStopped id u ∧ u.nextIndex = s.nextIndex ∧ u.entriesDone = s.entriesDone ∧
        u.links = t.links ∧ u.profiles = t.profiles ∧ u.branchMap = t.branchMap ∧
        ∃ ws, u.posted = t.posted.dropLast ++ ws ∧ ∀ w ∈ ws, isBoardWrite s.boardBase w := by
  obtain ⟨r, v, d, made⟩ := requestMade entry s
  have all (n : Nat) : grants n (envOf c).bus := fun o mem => clean o (List.mem_of_mem_take mem)
  have left (n : Nat) : grants 1 ((envOf c).bus.drop n) := grants_drop (all (n + 1))
  have whole := made.served entry ready (all (d + (boardWrites s v).length))
  have counted : ShownAlike v v.counted := ⟨rfl, rfl, rfl, rfl, rfl, rfl⟩
  rw [withBus_self, does, completeEntry_done made.answers (left _), flushBoard_amid_unshown counted.unshown] at whole
  injection whole with whole
  refine ⟨d + (boardWrites s v).length, fun landed rest => ?_⟩
  have lost := made.served entry ready (grants_replicate (d + (boardWrites s v).length) (.error landed :: rest))
  rw [drop_replicate, completeEntry_lost] at lost
  generalize applyWrites v.hostMem (boardWrites s v) = n, v.posted ++ boardWrites s v = posted at whole lost
  have stopped : FaultStopped id (stopOnFault (raiseDevice .busFault v)) := by
    refine stopOnFault_faultStopped (busFault_raised v) ?_
    rw [batch_raiseDevice, batch_of_view made.view]
    exact batch_of_inService? (serving?_iff.1 ready.2).2.1
  have kept := beside_raiseDevice .busFault v
  have quiet := quiet_raiseDevice .busFault v
  have boarded := boarded_flushBoard v ((stopOnFault (raiseDevice .busFault v)).amid n posted rest)
  generalize flushBoard v ((stopOnFault (raiseDevice .busFault v)).amid n posted rest) = u at lost boarded
  obtain ⟨ends, -, index, done, ws, more, board⟩ := stopped.boarded boarded
  have base : (stopOnFault (raiseDevice .busFault v)).boardBase = s.boardBase := quiet.boardBase.trans made.boardBase
  rw [base] at board
  rw [whole]
  have last : (posted ++ [resultWrite v id r]).dropLast = posted := List.dropLast_concat
  exact ⟨_, lost, ends, index.trans (quiet.nextIndex.trans made.index),
    done.trans (quiet.entriesDone.trans (congrArg EngineView.entriesDone made.view)), boarded.beside.links.trans kept.links,
    boarded.beside.profiles.trans kept.profiles, boarded.beside.branchMap.trans kept.branchMap, ws,
    more.trans (congrArg (· ++ ws) last.symm), board⟩

/-! ## Reads that fail -/

theorem faultedAt_raised (s : State) (env : Env) : FaultedAt s (raiseDevice .busFault (s.begun env)) s.hostMem [] where
  view := (quiet_raiseDevice .busFault (s.begun env)).served (map := True) (profiles := True) |>.engine
  workBase := (quiet_raiseDevice .busFault (s.begun env)).workBase
  busFault := busFault_raised _
  bus := (quiet_raiseDevice .busFault (s.begun env)).bus
  frame := .refl _ _

/-- An entry that is not read. -/
theorem entry_unread (entry : isEntry c = true) (ready : s.ready id) (bus : (envOf c).bus = [.error landed]) :
    EntryBusFault id s c unreadResult [] (raiseDevice .busFault (s.begun (envOf c))) := by
  refine ComesToFault.entryBusFault ⟨faultedAt_raised s _, entry, ready, rfl, fun rest => ?_⟩
  rw [bus, List.singleton_append, hostRead_amid_error]
  rfl

/-- An entry whose request comes to an access that fails. -/
theorem request_faulted (entry : isEntry c = true) (ready : s.ready id) (status : r.status = .busFault) (at_ : FaultedAt s own m torn)
    (bus : (envOf c).bus = .done :: b)
    (does : ∀ rest, requestOf c ((s.begun (envOf c)).amid s.hostMem [] (b ++ rest)) = (r, own.amid m [] rest)) :
    EntryBusFault id s c r torn own := by
  refine ComesToFault.entryBusFault ⟨at_, entry, ready, status, fun rest => ?_⟩
  rw [bus, List.cons_append, hostRead_amid]
  exact does rest

theorem withBlock_unread {next : State → EntryResult × State} (size : e.inputLength.toNat = 64) (slot : Nat)
    (unread : hostRead s = (false, t)) : withBlock slot e s next = (slotResult slot .busFault .read, t) := by
  rw [withBlock, if_neg (by rw [size]; decide), unread]
  rfl

theorem decipherInbound_unread {h : Header} {choice : KeyChoice} (unread : hostRead s = (false, t)) :
    decipherInbound k e input h choice s = (inboundResult h k.val .busFault .read, t) := by
  rw [decipherInbound_split, unread]
  rfl

/-- Settles O28: the result write of a paced entry that fails, and the reads that fail. -/
theorem entryErrorsStopOrAbandon : Obligations.EntryErrorsStopOrAbandon := by
  refine ⟨fun id c s t ready entry clean does => result_lost entry ready clean does,
    fun id landed c s ready entry bus => entry_unread entry ready bus, fun id landed e input env s ready => ?_⟩
  intro len h unread
  have fails (rest : List BusOutcome) := hostRead_amid_error (m := s.hostMem) (p := []) (landed := landed) (rest := rest) (s.begun env)
  have at_ := faultedAt_raised s env
  refine ⟨fun bus => ⟨fun k some_ fits room found live host supervisor quiesce => ?_, fun long => ?_, fun size => ⟨fun k named => ⟨?_, ?_⟩, ?_⟩⟩,
    fun bus k choice comes => ?_⟩
  · refine request_faulted (c := .outbound e input env) rfl ready rfl at_ bus fun rest => ?_
    have held : holdRefusal (s.link k) s.quiesce = none := by rw [quiesce, holdRefusal_none host supervisor]
    have some_ : e.inputLength.toNat ≠ 0 := by omega
    have plain : (if e.inputLength.toNat = 0 then (true, (s.begun env).amid s.hostMem [] (.error landed :: rest))
        else hostRead ((s.begun env).amid s.hostMem [] (.error landed :: rest))) =
      (false, (raiseDevice .busFault (s.begun env)).amid s.hostMem [] rest) := (if_neg some_).trans (fails rest)
    exact serveOutbound_passed (s := (s.begun env).amid s.hostMem [] (.error landed :: rest)) fits room found live held plain
  · exact request_faulted (c := .inbound e input env) rfl ready rfl at_ bus fun rest => serveInbound_unread long (fails rest)
  · refine request_faulted (c := .enrol e input env) rfl ready rfl at_ bus fun rest => ?_
    show serveEnrol e input _ = _
    rw [serveEnrol, slotOf_some named]
    exact withBlock_unread size _ (fails rest)
  · refine request_faulted (c := .setLink e input env) rfl ready rfl at_ bus fun rest => ?_
    show serveSetLink e input _ = _
    rw [serveSetLink, slotOf_some named]
    exact withBlock_unread size _ (fails rest)
  · exact request_faulted (c := .setProfile e input env) rfl ready rfl at_ bus fun rest => withBlock_unread size _ (fails rest)
  · refine request_faulted (c := .inbound e input env) rfl ready rfl at_ bus fun rest => ?_
    have read := hostRead_amid (m := s.hostMem) (p := []) (rest := .error landed :: rest) (s.begun env)
    exact (serveInbound_atKey comes read rfl rfl).trans (decipherInbound_unread (fails rest))

end Sys2Proof.Machine
end

