-- ==== Sys2Proof/Proofs/CloseErrors.lean ====
section
/-! PROOFS. Errors on the writes of headers, tail items and SKIPPED results. -/

namespace Sys2Proof.Machine
variable {s t u v own shown : State} {id : BatchId} {m : Memory} {p made : List HostWrite} {b lead rest : List BusOutcome}
  {j landed : Nat} {c : Instr} {env : Env}

/-! ## Board writes of which so many succeed -/

theorem fullWrites_length (board : s.boardBase ≠ none) : (fullWrites s).length = 513 := by
  obtain ⟨base, is⟩ := Option.ne_none_iff_exists'.mp board
  rw [fullWrites, is]
  simp [allSlots]

theorem fullBoardWrite_granted (h : s.granted (fullWrites s).length) :
    fullBoardWrite s = s.wrote (fullWrites s).length (fullWrites s) := by
  unfold fullBoardWrite
  unfold fullWrites at h ⊢
  cases board : s.boardBase with
  | none => exact (State.wrote_zero s).symm
  | some base =>
    rw [board] at h
    dsimp only at h ⊢
    rw [List.length_append, List.length_map, List.length_singleton] at h
    rw [writeLinkSlots_granted s base _ (h.mono (Nat.le_add_right _ _)), writeDeviceSlot_granted (h.wrote _), State.wrote_wrote,
      deviceSlotBytes_wrote, List.length_append, List.length_map, List.length_singleton]

theorem takeRun_amid (s : State) (h : grants 513 b) : takeRun (s.amid m p b) =
    (setRunBase s).amid (applyWrites m (fullWrites (setRunBase s))) (p ++ fullWrites (setRunBase s)) (b.drop 513) := by
  have length : (fullWrites (setRunBase (s.amid m p b))).length = 513 := fullWrites_length nofun
  have same : fullWrites (setRunBase (s.amid m p b)) = fullWrites (setRunBase s) := rfl
  rw [takeRun, fullBoardWrite_granted (by rw [length]; exact h), length, same]
  rfl

/-! ## Headers of a service that starts -/

/-- A header that is not written stops the engine before any entry. -/
theorem unwritten_stopped (id : BatchId) (s : State) : FaultStopped id (stopOnFault (raiseDevice .busFault (servingFrom id j s))) ∧
    ((stopOnFault (raiseDevice .busFault (servingFrom id j s))).batch id).taken = j ∧
    (stopOnFault (raiseDevice .busFault (servingFrom id j s))).nextIndex = 0 ∧
    (stopOnFault (raiseDevice .busFault (servingFrom id j s))).entriesDone = 0 ∧
    (stopOnFault (raiseDevice .busFault (servingFrom id j s))).boardBase = s.boardBase ∧
    (stopOnFault (raiseDevice .busFault (servingFrom id j s))).batch (otherBatch id) = s.batch (otherBatch id) := by
  have quiet := quiet_raiseDevice .busFault (servingFrom id j s)
  obtain ⟨batch, other⟩ := batch_servingFrom id j s
  refine ⟨stopOnFault_faultStopped (busFault_raised _) ?_, ?_, quiet.nextIndex, quiet.entriesDone, ?_, ?_⟩
  · rw [batch_raiseDevice, batch]
  · rw [batch_stopOnFault, batch_raiseDevice, batch]
  · refine quiet.boardBase.trans ?_
    cases id <;> rfl
  · rw [batch_stopOnFault, batch_raiseDevice, other]

theorem begun_flush (env : Env) (s t : State) : flushBoard (beginEvent env s) t = flushBoard s t := by
  rw [beginEvent_eq, flushBoard_outside, flushBoard_outside]

theorem amid_flush (s t : State) : flushBoard (s.amid m p b) t = flushBoard s t := flushBoard_outside _ _ _

/-- An event of which a header is not written, with nothing after it that fails. -/
theorem eventStopped_flushed (h : FaultStopped id v) (m : Memory) (frame : Untouched s.hostMem m p []) (before : State) :
    EventStopped id s (endEvent (flushBoard before (v.amid m p []))) (p ++ boardWrites before v) [] v ∧
      (endEvent (flushBoard before (v.amid m p []))).batch = v.batch ∧
      (endEvent (flushBoard before (v.amid m p []))).nextIndex = v.nextIndex ∧
      (endEvent (flushBoard before (v.amid m p []))).entriesDone = v.entriesDone ∧
      (endEvent (flushBoard before (v.amid m p []))).causes = v.causes := by
  rw [flushBoard_amid _ _ (grants_nil _), List.drop_nil]
  exact ⟨eventStopped h (frame.wrote _) rfl, funext fun i => by cases i <;> rfl, rfl, rfl, rfl⟩

theorem handover_lost (high : s.resetn = true) (idle : s.engine = .idle) (free : (s.batch id).state = .free) (value : Word)
    (bus : env.bus = .error landed :: rest) :
    ∃ t, exec (.handover id value env) s = .next t ∧ FaultStopped id t ∧
      (t.batch id).taken = min (value.toNat % 128) 64 ∧ t.nextIndex = 0 ∧ t.entriesDone = 0 ∧
      ∀ w ∈ t.posted, isBoardWrite s.boardBase w := by
  have handed : Inert (handedOver id value) := .of_blind fun _ _ _ _ _ => outside_handedOver _ _ _ _
  have starts : takeHandover id value (beginEvent env s) = _ :=
    takeHandover_idle (s := beginEvent env s) (value := value) idle (by cases id <;> exact free)
  rw [begun_amid, bus, handed.amid, startService_amid_error, taken_handedOver] at starts
  obtain ⟨stopped, taken, index, done, base, -⟩ := unwritten_stopped (j := min (value.toNat % 128) 64) id (handedOver id value (s.begun env))
  generalize stopOnFault (raiseDevice .busFault (servingFrom id (min (value.toNat % 128) 64) (handedOver id value (s.begun env)))) = v
    at starts stopped taken index done base
  have does : exec (.handover id value env) s =
      .next (endEvent (flushBoard (beginEvent env s) (v.amid s.hostMem [] rest))) := by
    refine congrArg _ ((event_of_high high).trans ?_)
    rw [withBoard, ← starts, begun_amid, bus]
  obtain ⟨ends, batch, next, counted, ws, posted, board⟩ := stopped.boarded (boarded_flushBoard (beginEvent env s) (v.amid s.hostMem [] rest))
  have boardBase : v.boardBase = s.boardBase := base.trans (by cases id <;> rfl)
  rw [boardBase] at board
  exact ⟨_, does, ends, (congrArg Batch.taken batch).trans taken, next.trans index, counted.trans done,
    fun w mem => board w (by rw [posted] at mem; exact mem)⟩

theorem runSet_lost (high : s.resetn = true) (bus : env.bus = List.replicate 513 .done ++ [.error landed]) (clear : s.run = false)
    (fault : s.faultStop = false) (engine : s.engine = .stopped) (first : s.firstWaiting = some id) :
    let running := setRunBase (s.begun env)
    let own := stopOnFault (raiseDevice .busFault (servingFrom id (s.batch id).taken running))
    ∃ t, exec (.runSet env) s = .next t ∧ EventStopped id s t (fullWrites running ++ boardWrites running own) [] own ∧
      (t.batch id).taken = (s.batch id).taken ∧ t.nextIndex = 0 ∧ t.entriesDone = 0 := by
  intro running own
  have run : takeRun (beginEvent env s) = running.amid (applyWrites s.hostMem (fullWrites running)) (fullWrites running) [.error landed] := by
    have taken := takeRun_amid (m := s.hostMem) (p := []) (b := env.bus) (s.begun env) (by rw [bus]; exact grants_replicate 513 _)
    rw [bus, drop_replicate, List.nil_append] at taken
    rw [begun_amid, bus]
    exact taken
  have starts : setRun (beginEvent env s) = _ :=
    setRun_starts (s := beginEvent env s) (id := id) clear fault engine (by rw [run]; exact first)
  have batch : (running.batch id).taken = (s.batch id).taken := by cases id <;> rfl
  rw [run, startService_amid_error, batch, amid_flush] at starts
  obtain ⟨stopped, taken, index, done, -⟩ := unwritten_stopped (j := (s.batch id).taken) id running
  have frame := (Untouched.refl s.hostMem []).wrote (fullWrites running)
  rw [List.nil_append] at frame
  obtain ⟨event, batches, next, counted, -⟩ := eventStopped_flushed stopped (applyWrites s.hostMem (fullWrites running)) frame running
  have does : exec (.runSet env) s = .next (endEvent (flushBoard running (own.amid (applyWrites s.hostMem (fullWrites running))
      (fullWrites running) []))) := by
    refine congrArg _ ((event_of_high high).trans ?_)
    rw [starts]
  exact ⟨_, does, event, by rw [batches]; exact taken, next.trans index, counted.trans done⟩

theorem serviceStart_lost (high : s.resetn = true) (bus : env.bus = [.error landed]) (starts : s.startable? = some id) :
    let own := stopOnFault (raiseDevice .busFault (servingFrom id (s.batch id).taken (s.begun env)))
    ∃ t, exec (.serviceStart env) s = .next t ∧ EventStopped id s t (boardWrites s own) [] own ∧
      (t.batch id).taken = (s.batch id).taken ∧ t.nextIndex = 0 ∧ t.entriesDone = 0 := by
  intro own
  have started : startWaiting (beginEvent env s) = _ := startWaiting_some (s := beginEvent env s) starts
  have batch : ((s.begun env).batch id).taken = (s.batch id).taken := by cases id <;> rfl
  rw [begun_amid, bus, startService_amid_error, batch] at started
  obtain ⟨stopped, taken, index, done, -⟩ := unwritten_stopped (j := (s.batch id).taken) id (s.begun env)
  obtain ⟨event, batches, next, counted, -⟩ := eventStopped_flushed stopped s.hostMem (Untouched.refl s.hostMem []) s
  have does : exec (.serviceStart env) s = .next (endEvent (flushBoard s (own.amid s.hostMem [] []))) := by
    refine congrArg _ ((event_of_high high).trans ?_)
    rw [withBoard, begun_flush, begun_amid, bus, started]
  exact ⟨_, does, event, by rw [batches]; exact taken, next.trans index, counted.trans done⟩

/-! ## SKIPPED results -/

theorem closedCause_ne_told (id : BatchId) : closedCause id ≠ .faultRaised := by cases id <;> decide

theorem hasCause_stopped (s : State) (id : BatchId) :
    (stopOnFault (raiseDevice .busFault s)).hasCause (closedCause id) = s.hasCause (closedCause id) :=
  hasCause_raiseDevice .busFault s (closedCause_ne_collect id) (closedCause_ne_told id)

theorem abandon_lost (high : s.resetn = true) (serving : s.engine = .serving) (inService : s.inService? = some id)
    (lt : j < (skipWrites s id).length) (bus : env.bus = List.replicate j .done ++ [.error landed]) :
    let own := stopOnFault (raiseDevice .busFault (passedOver j (s.begun env)))
    ∃ t, exec (.abandon env) s = .next t ∧ EventStopped id s t ((skipWrites s id).take j ++ boardWrites s own) [] own ∧
      t.nextIndex = s.nextIndex ∧ t.entriesDone = s.entriesDone ∧ t.hasCause (closedCause id) = s.hasCause (closedCause id) := by
  intro own
  have quiet := quiet_raiseDevice .busFault (passedOver j (s.begun env))
  have abandons : takeAbandon (beginEvent env s) = _ := takeAbandon_serving (s := beginEvent env s) serving inService
  have few : j < (skipWrites (s.begun env) id).length := lt
  rw [begun_amid, bus, abandonRest_amid_lost _ _ few, List.nil_append] at abandons
  have served : ((passedOver j (s.begun env)).batch id).state = .inService := by
    rw [← batch_of_inService? inService]
    cases id <;> rfl
  have stopped : FaultStopped id own := stopOnFault_faultStopped (busFault_raised _) (by rw [batch_raiseDevice]; exact served)
  have frame := (Untouched.refl s.hostMem []).wrote ((skipWrites s id).take j)
  obtain ⟨event, -, next, counted, causes⟩ := eventStopped_flushed stopped (applyWrites s.hostMem ((skipWrites s id).take j)) frame s
  have does : exec (.abandon env) s = .next (endEvent (flushBoard s (own.amid (applyWrites s.hostMem ((skipWrites s id).take j))
      ([] ++ (skipWrites s id).take j) []))) := by
    refine congrArg _ ((event_of_high high).trans ?_)
    rw [withBoard, begun_flush, begun_amid, bus, abandons]
    rfl
  refine ⟨_, does, event, next.trans quiet.nextIndex, counted.trans quiet.entriesDone, ?_⟩
  rw [hasCause_of_causes _ causes]
  exact hasCause_stopped _ id

end Sys2Proof.Machine
end

