-- ==== Sys2Proof/Proofs/CloseComes.lean ====
section
/-! PROOFS. A close, however it is come to, of which the write of a tail item, of the header, or of the next header fails. -/

namespace Sys2Proof.Machine
variable {s t u v own shown : State} {id : BatchId} {m : Memory} {p made torn : List HostWrite} {b lead rest : List BusOutcome}
  {j landed : Nat} {c : Instr} {env : Env}

/-! ## What comes to a close -/

/-- What the state that a close finds keeps of the state in which the event began. -/
structure Found (id : BatchId) (s u : State) : Prop where
  workBase : u.workBase = s.workBase
  run : u.run = s.run
  quiesce : u.quiesce = s.quiesce
  batch : ∀ i, u.batch i = s.batch i
  bus : u.bus = []
  causes : u.hasCause (closedCause id) = s.hasCause (closedCause id)
  inService : (s.batch id).state = .inService

/-- The event of a close, however it is come to. -/
theorem comesToClose_event (high : s.resetn = true) (comes : ComesToClose id s c lead made shown u) (b : List BusOutcome) :
    Found id s u ∧ exec (withBus (lead ++ b) c) s =
      .next (endEvent (flushBoard shown (closeBatch id (u.amid (applyWrites s.hostMem made) made b)))) := by
  cases comes with
  | close env closing =>
    have inService := batch_of_inService? (closing?_iff.1 closing).2.1
    refine ⟨⟨rfl, rfl, rfl, fun i => by cases i <;> rfl, rfl, rfl, inService⟩, ?_⟩
    have closes := takeClose_closing (s := (s.begun env).amid s.hostMem [] b) closing
    refine congrArg _ ((event_of_high high).trans ?_)
    rw [withBoard, begun_flush]
    exact congrArg (fun v => endEvent (flushBoard s v)) closes
  | abandon env serving inService =>
    refine ⟨⟨rfl, rfl, rfl, fun i => by cases i <;> rfl, List.drop_nil, rfl, batch_of_inService? inService⟩, ?_⟩
    have abandons := takeAbandon_serving (s := (s.begun env).amid s.hostMem []
      (List.replicate (skipWrites s id).length .done ++ b)) serving inService
    rw [abandonRest_amid (s.begun env) id (grants_replicate (skipWrites s id).length b), List.nil_append] at abandons
    have left : (List.replicate (skipWrites s id).length BusOutcome.done ++ b).drop (skipWrites (s.begun env) id).length = b :=
      drop_replicate _ _
    rw [left] at abandons
    refine congrArg _ ((event_of_high high).trans ?_)
    rw [withBoard, begun_flush]
    exact congrArg (fun v => endEvent (flushBoard s v)) abandons
  | entry c landed _ due entry is =>
    have at_ := faultedAt_raised s (envOf c)
    have causes : shown.hasCause (closedCause id) = s.hasCause (closedCause id) := by
      rw [is]
      exact hasCause_stopped (s.begun (envOf c)) id
    have quiet := quiet_raiseDevice .busFault (s.begun (envOf c))
    rw [← is] at at_ quiet
    have index : shown.nextIndex = s.nextIndex := congrArg EngineView.nextIndex at_.view
    refine ⟨⟨at_.workBase, quiet.run, quiet.quiesce, fun i => ?_, ?_, causes, batch_of_inService? (serving?_iff.1 due).2.1⟩, ?_⟩
    · rw [← batch_of_view at_.view i]
      cases i <;> rfl
    · show shown.bus.drop _ = []
      rw [at_.bus, List.drop_nil]
    · have outcomes : List.replicate ((boardWrites s shown).length + 1 + (skipWrites shown.faulted id).length) BusOutcome.done ++ b =
          List.replicate (boardWrites s shown).length .done ++ .done :: (List.replicate (skipWrites shown.faulted id).length .done ++ b) := by
        rw [Nat.add_assoc, List.replicate_add, List.append_assoc, Nat.add_comm 1, List.replicate_succ, List.cons_append]
      have reads (rest : List BusOutcome) : readRequest (requestOf c) (hostRead ((s.begun (envOf c)).amid s.hostMem [] (.error landed :: rest))).1
          (hostRead ((s.begun (envOf c)).amid s.hostMem [] (.error landed :: rest))).2 = (unreadResult, shown.amid s.hostMem [] rest) := by
        rw [hostRead_amid_error, is]
        rfl
      rw [List.cons_append, outcomes, entry_event entry ⟨high, due⟩, serveEntryOf_amid id (reads _)
        (begun_boardWrites { envOf c with bus := _ } s shown) (grants_replicate _ _), drop_replicate, List.nil_append,
        completeEntry_faulted rfl (grants_one _), List.drop_one, List.tail_cons, abandonRest_amid _ _ (grants_replicate _ _),
        drop_replicate, ← applyWrites_append, ← applyWrites_append, resultWrite_of at_.workBase index,
        ← List.append_assoc (boardWrites s shown), unreadResult]

theorem Found.header (found : Found id s u) (j : Nat) : headerOver u id j = ⟨headerAddress s.workBase id,
    headerBlock (if u.abandoned then .abandoned else .complete) (s.batch id).taken u.entriesDone j⟩ := by
  rw [headerOver, found.workBase, found.batch]

theorem Found.next (found : Found id s u) : nextHeader u id = nextHeader s id := by
  simp only [nextHeader, startHeader, found.run, found.batch, found.workBase]

/-! ## A tail item that is not written -/

theorem closedOn_told (id : BatchId) (v : State) : (closedOn id v).device = v.device ∧
    (v.quiesce = true → (closedOn id v).queue = v.queue) := by
  have next := following_nextEngine id (freedBatch id v)
  refine ⟨(closing_told _).1.trans (next.device.trans (by cases id <;> rfl)), fun asserted => ?_⟩
  refine (queue_closing (next.quiesce.trans (Eq.trans (by cases id <;> rfl) asserted))).trans ?_
  exact next.queue.trans (by cases id <;> rfl)

/-- The queue that is left of a close whose next tail item is not written. -/
theorem queue_raised (active : u.device.busFault = true) (j : Nat) :
    (raiseDevice .busFault (deliveredFirst j u)).queue = u.queue.drop j := by
  rw [raised_busFault (by rw [deliveredFirst_device]; exact active), queue_deliveredFirst]

/-- The end of an event that has closed a batch. -/
theorem closed_ended (inner : own.inner = (closedOn id v).inner) (frame : Untouched s.hostMem m p torn) :
    let t := endEvent ((closedOn id v).amid (applyWrites m (boardWrites shown (closedOn id v)))
      (p ++ boardWrites shown (closedOn id v)) [])
    t.inner = own.inner ∧ t.posted = p ++ boardWrites shown own ∧ (t.batch id).state = .free ∧ t.device = v.device ∧
      (v.quiesce = true → t.queue = v.queue) ∧ Untouched s.hostMem t.hostMem t.posted torn := by
  have told := closedOn_told id v
  have free := batch_closedOn id v
  rw [← boardWrites_inner inner.symm]
  generalize closedOn id v = w at inner told free
  refine ⟨inner.symm, rfl, ?_, told.1, told.2, frame.wrote _⟩
  rw [(ended_facts _ _ _ _ id).2.2.2.1, free]

theorem tail_lost (high : s.resetn = true) (comes : ComesToClose id s c lead made shown u) (lt : j < (tailItems u).length)
    (landed : Nat) (is : own = collectAfterClose (tryOriginate (afterClose id (freedBatch id
      (raiseDevice .busFault (deliveredFirst j u)))))) :
    ∃ t, exec (withBus (lead ++ (List.replicate j .done ++ [.error landed])) c) s = .next t ∧ t.inner = own.inner ∧
      t.posted = made ++ (tailWrites u id).take j ++ [headerOver u id j] ++ nextHeader s id ++ boardWrites shown own ∧
      (t.batch id).state = .free ∧ t.device.busFault = true ∧
      (s.quiesce = true → u.device.busFault = true → t.queue = u.queue.drop j) ∧
      ∀ x, (∀ w ∈ t.posted, ¬ w.covers x) → (∀ w ∈ (tailWrites u id)[j]?, ¬ w.covers x) →
        t.hostMem.readByte x = s.hostMem.readByte x := by
  obtain ⟨found, does⟩ := comesToClose_event high comes (List.replicate j .done ++ [.error landed])
  obtain ⟨w, item, filled⟩ := fillTail_amid_lost (m := applyWrites s.hostMem made) (p := made) (rest := []) id u lt landed
  have quiet := (deliveredFirst_quiet j u).trans (quiet_raiseDevice .busFault _)
  have active := busFault_raised (deliveredFirst j u)
  rw [closeBatch_amid u id _ filled, closeTailed_whole, (headerOver_deliveredFirst u id j j).1, nextHeader_quiet quiet,
    found.next, flushBoard_amid _ _ (grants_nil _), List.drop_nil] at does
  have inner : own.inner = (closedOn id (raiseDevice .busFault (deliveredFirst j u))).inner := by
    rw [is]
    exact closing_inner _ (quiet.bus.trans found.bus) id
  have lost : Untouched s.hostMem (failedMemory .tailItem w.address landed w.bytes
      (applyWrites (applyWrites s.hostMem made) ((tailWrites u id).take j))) (made ++ (tailWrites u id).take j) [w] := by
    refine Untouched.failed ?_ .tailItem landed List.mem_cons_self
    exact ((Untouched.refl s.hostMem [w]).wrote made).wrote _
  have waits := queue_raised (u := u) (j := j)
  obtain ⟨same, posted, free, device, queue, frame⟩ := closed_ended (shown := shown) inner
    (lost.wrote (headerOver u id j :: nextHeader s id))
  refine ⟨_, does, same, ?_, free, (congrArg DeviceFaults.busFault device).trans active, fun asserted was => ?_, fun x out apart => ?_⟩
  · rw [posted]
    simp only [List.append_assoc, List.cons_append, List.nil_append]
  · exact (queue (quiet.quiesce.trans (found.quiesce.trans asserted))).trans (waits was)
  · refine frame x out fun z mem => ?_
    rw [List.mem_singleton.mp mem]
    exact apart w (by rw [item]; rfl)

end Sys2Proof.Machine
end

