-- ==== Sys2Proof/Proofs/CloseLosses.lean ====
section
/-! PROOFS. A close of which a header is not written, and the errors on headers and tails. -/

namespace Sys2Proof.Machine
variable {s t u v own shown : State} {id : BatchId} {m : Memory} {p made : List HostWrite} {b lead rest : List BusOutcome}
  {j landed : Nat} {c : Instr} {env : Env}

/-- A try at origination, which a stopped engine makes too. -/
theorem FaultStopped.tried (h : FaultStopped id s) : FaultStopped id (tryOriginate s) where
  run := (quiet_tryOriginate s).run.trans h.run
  faultStop := (quiet_tryOriginate s).faultStop.trans h.faultStop
  engine := (quiet_tryOriginate s).engine.trans h.engine
  busFault := (congrArg DeviceFaults.busFault (tryOriginate_told s).1).trans h.busFault
  inService := (congrArg Batch.state ((quiet_tryOriginate s).batch id)).trans h.inService

theorem hasCause_deliveredFirst (j : Nat) (s : State) (c : Cause) : (deliveredFirst j s).hasCause c = s.hasCause c := by
  refine hasCause_of_causes c ?_
  unfold deliveredFirst
  generalize s.queue.take j = items
  induction items generalizing s with
  | nil => rfl
  | cons it items ih =>
    rw [List.foldl_cons, ih]
    unfold deliverItem
    split
    · rfl
    · split <;> rfl

/-- The header of a close is not written. -/
theorem header_lost (high : s.resetn = true) (comes : ComesToClose id s c lead made shown u) (landed : Nat)
    (is : own = tryOriginate (stopOnFault (raiseDevice .busFault (deliveredFirst (tailItems u).length u)))) :
    ∃ t, exec (withBus (lead ++ (List.replicate (tailItems u).length .done ++ [.error landed])) c) s = .next t ∧
      EventStopped id s t (made ++ tailWrites u id ++ boardWrites shown own) [] own ∧ t.nextIndex = u.nextIndex ∧
      t.entriesDone = u.entriesDone ∧ t.hasCause (closedCause id) = s.hasCause (closedCause id) := by
  obtain ⟨found, does⟩ := comesToClose_event high comes (List.replicate (tailItems u).length .done ++ [.error landed])
  have filled := fillTail_amid_whole (m := applyWrites s.hostMem made) (p := made) id u
    (grants_replicate (tailItems u).length [.error landed])
  rw [drop_replicate] at filled
  rw [tailItems_length, ← deliveredAll_eq] at is
  rw [closeBatch_amid u id _ filled, closeTailed_lost, ← is] at does
  have quiet := (deliveredAll_quiet u).trans (quiet_raiseDevice .busFault (deliveredAll u))
  have tried := quiet_tryOriginate (stopOnFault (raiseDevice .busFault (deliveredAll u)))
  have stopped : FaultStopped id own := by
    rw [is]
    refine (stopOnFault_faultStopped (busFault_raised _) ?_).tried
    rw [quiet.batch, found.batch]
    exact found.inService
  have told := (tryOriginate_told (stopOnFault (raiseDevice .busFault (deliveredAll u)))).2 _ (closedCause_ne_collect id)
  rw [hasCause_stopped, deliveredAll_eq, hasCause_deliveredFirst, found.causes, ← deliveredAll_eq, ← is] at told
  rw [← is] at tried
  obtain ⟨event, -, next, counted, causes⟩ := eventStopped_flushed stopped
    (applyWrites (applyWrites s.hostMem made) (tailWrites u id)) (((Untouched.refl s.hostMem []).wrote made).wrote (tailWrites u id)) shown
  exact ⟨_, does, event, next.trans (tried.nextIndex.trans quiet.nextIndex), counted.trans (tried.entriesDone.trans quiet.entriesDone),
    (hasCause_of_causes _ causes).trans told⟩

theorem hasCause_servingFrom (id : BatchId) (taken : Nat) (s : State) (c : Cause) :
    (servingFrom id taken s).hasCause c = s.hasCause c := by cases id <;> rfl

/-- The header of the service that follows a close is not written. -/
theorem next_lost (high : s.resetn = true) (comes : ComesToClose id s c lead made shown u) (landed : Nat) (run : s.run = true)
    (waiting : (s.batch (otherBatch id)).state = .waiting)
    (is : own = tryOriginate (stopOnFault (raiseDevice .busFault (servingFrom (otherBatch id) (s.batch (otherBatch id)).taken
      (freedBatch id (deliveredFirst (tailItems u).length u)))))) :
    ∃ t, exec (withBus (lead ++ (List.replicate ((tailItems u).length + 1) .done ++ [.error landed])) c) s = .next t ∧
      EventStopped (otherBatch id) s t (made ++ tailWrites u id ++ [closeHeader u id] ++ boardWrites shown own) [] own ∧
      t.batch id = ⟨.free, 0⟩ ∧ t.batch (otherBatch id) = ⟨.inService, (s.batch (otherBatch id)).taken⟩ ∧ t.nextIndex = 0 ∧
      t.entriesDone = 0 ∧ t.hasCause (closedCause id) = true := by
  obtain ⟨found, does⟩ := comesToClose_event high comes (List.replicate ((tailItems u).length + 1) .done ++ [.error landed])
  have filled := fillTail_amid_whole (m := applyWrites s.hostMem made) (p := made) id u
    (grants_replicate (tailItems u).length (.done :: .error landed :: []))
  have outcomes : List.replicate ((tailItems u).length + 1) BusOutcome.done ++ [.error landed] =
      List.replicate (tailItems u).length .done ++ .done :: .error landed :: [] := by
    rw [List.replicate_succ', List.append_assoc]
    rfl
  rw [drop_replicate] at filled
  rw [tailItems_length, ← deliveredAll_eq] at is
  have quiet := deliveredAll_quiet u
  have batch (i : BatchId) : (deliveredAll u).batch i = s.batch i := (quiet.batch i).trans (found.batch i)
  have unstarted := closeTailed_unstarted (m := applyWrites (applyWrites s.hostMem made) (tailWrites u id)) (p := made ++ tailWrites u id)
    (landed := landed) (rest := []) (deliveredAll u) id (tailItems u).length (quiet.run.trans (found.run.trans run))
    (by rw [batch]; exact waiting)
  rw [batch, ← is, headerOver_all] at unstarted
  rw [outcomes] at does ⊢
  rw [closeBatch_amid u id _ filled, unstarted] at does
  obtain ⟨stopped, taken, index, done, -, freed⟩ := unwritten_stopped (j := (s.batch (otherBatch id)).taken) (otherBatch id)
    (freedBatch id (deliveredAll u))
  have other : otherBatch (otherBatch id) = id := by cases id <;> rfl
  rw [other, batch_freed] at freed
  have set : (stopOnFault (raiseDevice .busFault (servingFrom (otherBatch id) (s.batch (otherBatch id)).taken
      (freedBatch id (deliveredAll u))))).hasCause (closedCause id) = true := by
    rw [hasCause_stopped, hasCause_servingFrom]
    exact hasCause_setCause _ _
  generalize stopOnFault (raiseDevice .busFault (servingFrom (otherBatch id) (s.batch (otherBatch id)).taken
      (freedBatch id (deliveredAll u)))) = w at is stopped taken index done freed set
  have tried := quiet_tryOriginate w
  have told := (tryOriginate_told w).2 _ (closedCause_ne_collect id)
  have ends := stopped.tried
  rw [← is] at tried told ends
  have serves : own.batch (otherBatch id) = ⟨.inService, (s.batch (otherBatch id)).taken⟩ := by
    rw [← taken, ← stopped.inService, tried.batch]
  have frame := (((Untouched.refl s.hostMem []).wrote made).wrote (tailWrites u id)).wrote [closeHeader u id]
  rw [List.nil_append] at frame
  obtain ⟨event, batches, next, counted, causes⟩ := eventStopped_flushed ends
    (applyWrites (applyWrites (applyWrites s.hostMem made) (tailWrites u id)) [closeHeader u id])
    frame shown
  exact ⟨_, does, event, by rw [batches, tried.batch, freed], by rw [batches, serves], next.trans (tried.nextIndex.trans index),
    counted.trans (tried.entriesDone.trans done), (hasCause_of_causes _ causes).trans (told.trans set)⟩

/-- Settles O29: each access that fails, by what the event has come to. -/
theorem headerAndTailErrors : Obligations.HeaderAndTailErrors := by
  refine ⟨fun s => rfl, fun id value landed rest env s high idle free bus => handover_lost high idle free value bus,
    fun id landed env s high => ?_, fun id j landed env s high serving inService lt bus => ?_, fun id s c lead made shown u high comes => ?_⟩
  · intro taken unwritten stopped running
    exact ⟨fun bus clear fault engine first => runSet_lost high bus clear fault engine first,
      fun bus starts => serviceStart_lost high bus starts⟩
  · intro own
    exact abandon_lost high serving inService lt bus
  · intro other all closed ends
    refine ⟨fun j landed lt => ?_, fun landed => ?_, fun landed run waiting => ?_⟩
    · intro own header
      have found := (comesToClose_event high comes []).1
      have lost := tail_lost high comes lt landed (own := own) rfl
      rw [found.header] at lost
      exact lost
    · intro own
      exact header_lost high comes landed rfl
    · intro started own
      exact next_lost high comes landed run waiting rfl

end Sys2Proof.Machine
end

