-- ==== Sys2Proof/Proofs/BusFaults.lean ====
section
/-! PROOFS. No operation of the exchange changes whether BUS_FAULT is active: a key spent and a due check leave it as it was. -/

namespace Sys2Proof.Machine
variable {s t : State}

theorem busFault_makeNotice (n : Notice) (s : State) : (makeNotice n s).device.busFault = s.device.busFault := (makeNotice_told n s).1

theorem busFault_raiseDevice {item : DeviceItem} (other : item ≠ .busFault) (s : State) :
    (raiseDevice item s).device.busFault = s.device.busFault := by
  by_cases active : s.device.isActive item = true
  · rw [raiseDevice_of_active active]
  · rw [raiseDevice_of_inactive (by simpa using active)]
    refine (busFault_makeNotice _ _).trans ?_
    cases item with
    | busFault => exact absurd rfl other
    | _ => rfl

/-! ## The exchange -/

theorem busFault_draw (s : State) : (draw s).2.device.busFault = s.device.busFault := by
  have noise : (nextNoise s).2.device = s.device := by
    unfold nextNoise
    split <;> rfl
  unfold draw
  generalize nextNoise s = drawn at noise
  dsimp only
  split
  · rw [busFault_raiseDevice (by decide), ← noise]
    rfl
  · rw [← noise]
    rfl

theorem busFault_drawMany (n : Nat) (s : State) : (drawMany n s).2.device.busFault = s.device.busFault := by
  induction n generalizing s with
  | zero => rfl
  | succ n ih =>
    have one := busFault_draw s
    unfold drawMany
    split
    · rename_i drawn
      rw [drawn] at one
      exact one
    · rename_i d t drawn
      rw [drawn] at one
      have more := ih t
      split <;> rename_i rest <;> rw [rest] at more <;> exact more.trans one

theorem busFault_tryOriginate (s : State) : (tryOriginate s).device.busFault = s.device.busFault :=
  congrArg DeviceFaults.busFault (tryOriginate_told s).1

theorem busFault_admitUpTo (i : Nat) (s : State) : (admitUpTo i s).device.busFault = s.device.busFault := by
  induction i generalizing s with
  | zero => rfl
  | succ i ih =>
    unfold admitUpTo
    split
    · have drawn := busFault_drawMany 6 s
      split <;> rename_i is <;> rw [is] at drawn
      · exact (ih _).trans ((busFault_tryOriginate _).trans drawn)
      · exact drawn
    · rfl

theorem busFault_tryAdmit (s : State) : (tryAdmit s).device.busFault = s.device.busFault := busFault_admitUpTo 16 s

theorem busFault_joinDue (k : Slot) (sec : Section) (s : State) : (joinDue k sec s).device.busFault = s.device.busFault :=
  busFault_tryAdmit _

theorem busFault_forcedJoin (k : Slot) (sec : Section) (s : State) : (forcedJoin k sec s).2.device.busFault = s.device.busFault := by
  unfold forcedJoin
  split
  · exact busFault_joinDue k sec s
  · exact busFault_joinDue k sec s
  · split <;> rfl
  · rfl

theorem busFault_dueCheck (k : Slot) (site : DueSite) (s : State) : (dueCheck k site s).device.busFault = s.device.busFault := by
  unfold dueCheck
  split
  · rfl
  · split
    · split
      · exact busFault_joinDue k _ s
      · rfl
    · split <;> rfl
    · rfl
    · rfl

/-! ## Raises -/

theorem busFault_clearIfActive (k : Slot) (kind : LinkKind) (s : State) :
    (clearIfActive k kind s).device.busFault = s.device.busFault := by
  unfold clearIfActive
  split
  · exact busFault_makeNotice _ _
  · rfl

theorem busFault_freeRecordOf (k : Slot) (s : State) : (freeRecordOf k s).device.busFault = s.device.busFault := by
  unfold freeRecordOf
  split <;> rfl

theorem busFault_quarantineLink (k : Slot) (s : State) : (quarantineLink k s).device.busFault = s.device.busFault := by
  unfold quarantineLink
  split
  · rfl
  · have removed (u : State) : (removeOffers k (removeDue k u)).device = u.device := rfl
    have erased (f : Link → Link) : (s.modLink k f).device = s.device := rfl
    rw [busFault_tryOriginate, busFault_tryAdmit, removed, busFault_freeRecordOf, busFault_clearIfActive, erased]

theorem busFault_takeAction (k : Slot) (a : Action) (s : State) : (takeAction k a s).device.busFault = s.device.busFault := by
  cases a with
  | note => rfl
  | hold => rfl
  | renew =>
    show (if (s.link k).state = .quarantined ∨ (s.link k).state = .vacant then s
      else (forcedJoin k .urgent s).2).device.busFault = _
    split
    · rfl
    · exact busFault_forcedJoin k _ s
  | quarantine => exact busFault_quarantineLink k s

theorem busFault_raiseKind (k : Slot) (kind : LinkKind) (s : State) : (raiseKind k kind s).device.busFault = s.device.busFault :=
  (busFault_takeAction k _ _).trans (busFault_makeNotice _ _)

theorem busFault_spendCurrent (k : Slot) (s : State) : (spendCurrent k s).device.busFault = s.device.busFault := by
  unfold spendCurrent raiseIfInactive
  split
  · rfl
  · exact busFault_raiseKind k _ _

end Sys2Proof.Machine
end

