-- ==== Sys2Proof/Proofs/OutputErrors.lean ====
section
/-! PROOFS. Errors on the writes of output buffers. -/

namespace Sys2Proof.Machine
variable {s t u v own : State} {id : BatchId} {m : Memory} {p torn : List HostWrite} {b rest : List BusOutcome} {k : Slot}
  {landed : Nat} {c : Instr} {r : EntryResult} {env : Env} {e : WorkEntry} {input body text bytes : List Byte} {h : Header}

/-! ## BUS_FAULT raised ahead of a change of a link -/

theorem makeNotice_modLink (n : Notice) (s : State) (k : Slot) (f : Link → Link) :
    makeNotice n (s.modLink k f) = (makeNotice n s).modLink k f := by
  have queue : (s.modLink k f).queue = s.queue := rfl
  unfold makeNotice
  rw [queue]
  split
  · rfl
  split
  · rw [joinQueue_eq, joinQueue_eq]
    rfl
  · rfl

theorem raiseDevice_modLink (item : DeviceItem) (s : State) (k : Slot) (f : Link → Link) :
    raiseDevice item (s.modLink k f) = (raiseDevice item s).modLink k f := by
  by_cases active : s.device.isActive item = true
  · rw [raiseDevice_of_active active, raiseDevice_of_active (s := s.modLink k f) active]
  · have inactive : s.device.isActive item = false := by simpa using active
    rw [raiseDevice_of_inactive inactive, raiseDevice_of_inactive (s := s.modLink k f) inactive]
    exact congrArg (·.setCause .faultRaised) (makeNotice_modLink _ { s with device := s.device.activate item } k f)

theorem link_raiseDevice (item : DeviceItem) (s : State) (k : Slot) : (raiseDevice item s).link k = s.link k :=
  (beside_raiseDevice item s).link k

/-! ## An output that is not written -/

/-- An entry that comes to an output it cannot write. -/
theorem output_lost (entry : isEntry c = true) (ready : s.ready id) (status : r.status = .busFault) (bus : (envOf c).bus = .done :: b)
    (busFault : own.device.busFault = true) (none : own.bus = [])
    (does : ∀ rest, requestOf c ((s.begun (envOf c)).amid s.hostMem [] (b ++ rest)) =
      (r, own.amid (failedMemory .output e.outputAddress landed bytes s.hostMem) [] rest)) :
    EntryBusFault id s c r [⟨e.outputAddress, bytes⟩] own := by
  have served := served_requestOf c ((s.begun (envOf c)).amid s.hostMem [] (b ++ []))
  rw [does []] at served
  exact request_faulted entry ready status
    ⟨served.engine, served.workBase, busFault, none, (Untouched.refl _ _).failed .output landed List.mem_cons_self⟩ bus does

theorem withOutput_lost (good failed : EntryResult) (clear : State → State) (v : State) :
    withOutput e bytes good failed clear (v.amid m p (.error landed :: rest)) =
      (failed, (raiseDevice .busFault v).amid (failedMemory .output e.outputAddress landed bytes m) p rest) := by
  unfold withOutput
  rw [hostWrite_amid_error]
  rfl

theorem writeOutput_lost (some_ : body ≠ []) (v : State) : writeOutput e body (v.amid m p (.error landed :: rest)) =
    (false, (raiseDevice .busFault v).amid (failedMemory .output e.outputAddress landed body m) p rest) := by
  rw [writeOutput, if_neg (by rwa [List.length_eq_zero_iff]), hostWrite_amid_error]

theorem deliverData_lost (some_ : body ≠ []) (choice : KeyChoice) (v : State) :
    deliverData k e h choice body (v.amid m p (.error landed :: rest)) = (inboundResult h k.val .busFault .write,
      (raiseDevice .busFault v).amid (failedMemory .output e.outputAddress landed body m) p rest) := by
  unfold deliverData
  rw [writeOutput_lost some_]
  rfl

theorem inert_takeReport (k : Slot) (entries : List ShopCode) : Inert (takeReport k entries) :=
  .of_blind fun s r m p b => host_takeReport s r m p b k entries

theorem consumeControl_lost {entries : List ShopCode} (shape : parseControl text = .report entries) (v : State) :
    consumeControl k e h text (v.amid m p (.error landed :: rest)) = (inboundResult h k.val .busFault .write,
      (raiseDevice .busFault (takeReport k entries v)).amid (failedMemory .output e.outputAddress landed text m) p rest) := by
  have wrote := writeOutput_lost (e := e) (m := m) (p := p) (landed := landed) (rest := rest) (report_nonempty shape) (takeReport k entries v)
  rw [← (inert_takeReport k entries).amid] at wrote
  exact consumeControl_report shape wrote

/-! ## OUTBOUND -/

/-- The checks of an OUTBOUND entry once its key has been charged. -/
def outboundChecked (k : Slot) (spends : Bool) (s : State) : State :=
  dueCheck k .testsUrgency (if spends then spendCurrent k s else s)

theorem inert_outboundChecked (k : Slot) (spends : Bool) : Inert (outboundChecked k spends) := .of_blind fun s r m p b => by
  unfold outboundChecked
  split
  · rw [host_spendCurrent, host_dueCheck]
  · rw [host_dueCheck]

theorem busFault_outboundChecked (k : Slot) (spends : Bool) (s : State) :
    (outboundChecked k spends s).device.busFault = s.device.busFault := by
  unfold outboundChecked
  rw [busFault_dueCheck]
  split
  · exact busFault_spendCurrent k s
  · rfl

theorem outboundUse_lost (listed : (v.link k).state ≠ .vacant) :
    outboundUse k e body (v.amid m p (.error landed :: rest)) =
      (⟨.busFault, .write, 0, k.val, (v.link k).current.generation, (v.link k).nextSequence⟩,
        (outboundChecked k (outboundSpends (outboundUsed (v.link k) body.length))
          ((raiseDevice .busFault v).setLink k (outboundUsed (v.link k) body.length))).amid
            (failedMemory .output e.outputAddress landed (outboundPacket (v.link k) e body) m) p rest) := by
  generalize torn : failedMemory .output e.outputAddress landed (outboundPacket (v.link k) e body) m = n
  have wrote : hostWrite .output e.outputAddress (outboundPacket (v.link k) e body)
      ((v.amid m p (.error landed :: rest)).modLink k sequencedRecord) =
        (false, ((raiseDevice .busFault v).amid n p rest).modLink k sequencedRecord) := by
    rw [(inert_modLink k sequencedRecord).amid, hostWrite_amid_error, torn, raiseDevice_modLink, (inert_modLink k sequencedRecord).amid]
  have used := outboundUse_eq (s := v.amid m p (.error landed :: rest)) (t := (raiseDevice .busFault v).amid n p rest) listed
    (link_raiseDevice .busFault v k) wrote
  rw [used, ← (inert_outboundChecked k _).amid]
  rfl

/-- The reads that an OUTBOUND entry makes of its plaintext. -/
theorem plaintext_read (len : Nat) (v : State) : (if len = 0 then (true, v.amid m p ((if len = 0 then [] else [.done]) ++ b))
    else hostRead (v.amid m p ((if len = 0 then [] else [.done]) ++ b))) = (true, v.amid m p b) := by
  split <;> rfl

theorem outbound_lost (ready : s.ready id)
    (bus : env.bus = List.replicate (if e.inputLength.toNat = 0 then 1 else 2) .done ++ [.error landed])
    (fits : e.inputLength.toNat ≤ 1536) (room : e.inputLength.toNat + 28 ≤ e.outputRoom.toNat)
    (found : lookupBranch s.branchMap e.slotField.toNat = some k) (live : (s.link k).state = .live)
    (unheld : holdRefusal (s.link k) s.quiesce = none) :
    EntryBusFault id s (.outbound e input env)
      ⟨.busFault, .write, 0, k.val, (s.link k).current.generation, (s.link k).nextSequence⟩
      [⟨e.outputAddress, outboundPacket (s.link k) e (bytesAt input 0 e.inputLength.toNat)⟩]
      (outboundChecked k (outboundSpends (outboundUsed (s.link k) e.inputLength.toNat))
        ((raiseDevice .busFault (s.begun env)).setLink k (outboundUsed (s.link k) e.inputLength.toNat))) := by
  have outcomes : env.bus = .done :: ((if e.inputLength.toNat = 0 then [] else [.done]) ++ [.error landed]) := by
    rw [bus]
    split <;> rfl
  have listed : ((s.begun env).link k).state ≠ .vacant := by
    show (s.link k).state ≠ .vacant
    rw [live]
    decide
  have checked := inert_outboundChecked k (outboundSpends (outboundUsed (s.link k) e.inputLength.toNat))
  have raised := faultedAt_raised s env
  refine output_lost (landed := landed) (c := .outbound e input env) rfl ready rfl outcomes ?_ ?_ fun rest => ?_
  · rw [busFault_outboundChecked]
    exact raised.busFault
  · rw [checked.bus]
    exact raised.bus
  · have plain := plaintext_read (m := s.hostMem) (p := []) (b := .error landed :: rest) e.inputLength.toNat (s.begun env)
    have passed := serveOutbound_passed (input := input) (s := (s.begun env).amid s.hostMem []
      ((if e.inputLength.toNat = 0 then [] else [.done]) ++ .error landed :: rest)) fits room found live unheld plain
    have used := outboundUse_lost (e := e) (body := bytesAt input 0 e.inputLength.toNat) (m := s.hostMem) (p := []) (landed := landed)
      (rest := rest) listed
    rw [bytesAt_length] at used
    rw [List.append_assoc]
    exact passed.trans used

/-! ## INBOUND -/

/-- What hearing a packet under a key leaves. -/
def heardPacket (k : Slot) (choice : KeyChoice) (h : Header) (s : State) : State :=
  tagPassed k choice h.sequence.toNat (s.modLink k fun l => l.charge (cost h.bodyLength.toNat) choice)

theorem inert_heardPacket (k : Slot) (choice : KeyChoice) (h : Header) : Inert (heardPacket k choice h) :=
  (inert_modLink k _).comp (inert_tagPassed k choice _)

/-- An INBOUND entry that comes to an output it cannot write. -/
theorem inbound_lost {choice : KeyChoice} (ready : s.ready id) (bus : env.bus = [.done, .done, .done, .error landed])
    (comes : InboundAtKey s e input k choice) (reads : inboundText s input k choice = some text) (none : own.bus = [])
    (handed : ∀ rest, (if (parseHeader input).class_ = classData then deliverData k e (parseHeader input) choice text
        ((heardPacket k choice (parseHeader input) (s.begun env)).amid s.hostMem [] (.error landed :: rest))
      else consumeControl k e (parseHeader input) text
        ((heardPacket k choice (parseHeader input) (s.begun env)).amid s.hostMem [] (.error landed :: rest))) =
        (inboundResult (parseHeader input) k.val .busFault .write, (raiseDevice .busFault own).amid
          (failedMemory .output e.outputAddress landed text s.hostMem) [] rest)) :
    EntryBusFault id s (.inbound e input env) (inboundResult (parseHeader input) k.val .busFault .write) [⟨e.outputAddress, text⟩]
      (raiseDevice .busFault own) := by
  refine output_lost (landed := landed) (c := .inbound e input env) rfl ready rfl bus (busFault_raised _)
    ((quiet_raiseDevice _ _).bus.trans none) fun rest => ?_
  have head := hostRead_amid (m := s.hostMem) (p := []) (rest := .done :: .error landed :: rest) (s.begun env)
  have tail := hostRead_amid (m := s.hostMem) (p := []) (rest := .error landed :: rest) (s.begun env)
  have does := (serveInbound_atKey comes head rfl rfl).trans (decipherInbound_reads (e := e) tail reads)
  have heard := (inert_heardPacket k choice (parseHeader input)).amid (m := s.hostMem) (p := []) (b := .error landed :: rest) (s.begun env)
  rw [heardPacket] at heard
  rw [← handed rest, ← heard]
  exact does

/-! ## READ requests -/

/-- A READ request that comes to an output it cannot write. -/
theorem read_lost (entry : isEntry c = true) (ready : s.ready id) (bus : (envOf c).bus = [.done, .error landed]) {failed : EntryResult}
    (status : failed.status = .busFault) (does : ∀ rest, ∃ good clear, requestOf c ((s.begun (envOf c)).amid s.hostMem [] rest) =
      withOutput e bytes good failed clear ((s.begun (envOf c)).amid s.hostMem [] rest)) :
    EntryBusFault id s c failed [⟨e.outputAddress, bytes⟩] (raiseDevice .busFault (s.begun (envOf c))) :=
  output_lost (landed := landed) entry ready status bus (busFault_raised _) (quiet_raiseDevice .busFault (s.begun (envOf c))).bus
    fun rest => by
      obtain ⟨good, clear, does⟩ := does (.error landed :: rest)
      exact does.trans (withOutput_lost good failed clear _)

theorem linkSummary_amid (s : State) (env : Env) (k : Slot) : linkSummary ((s.begun env).amid m p b) k = linkSummary s k := by
  rw [State.amid, State.begun, beginEvent_eq, outside_linkSummary, outside_linkSummary, outside_linkSummary]

theorem deviceSummary_amid (s : State) (env : Env) : deviceSummary ((s.begun env).amid m p b) = deviceSummary s := by
  rw [State.amid, State.begun, beginEvent_eq, outside_deviceSummary, outside_deviceSummary, outside_deviceSummary]

theorem readLink_lost (ready : s.ready id) (bus : env.bus = [.done, .error landed]) (named : e.slotField.toNat = k.val)
    (enrolled : (s.link k).state ≠ .vacant) (room : 128 ≤ e.outputRoom.toNat) :
    EntryBusFault id s (.readLink e env) (slotResult k.val .busFault .write) [⟨e.outputAddress, linkSummary s k⟩]
      (raiseDevice .busFault (s.begun env)) := by
  refine read_lost (c := .readLink e env) rfl ready bus rfl fun _ =>
    ⟨{ slotResult k.val .ok .none with generation := (s.link k).current.generation }, fun s => s, ?_⟩
  show serveReadLink e _ = _
  unfold serveReadLink
  rw [slotOf_some named]
  refine (if_neg (Nat.not_lt.mpr room)).trans ((if_neg enrolled).trans ?_)
  rw [linkSummary_amid]
  rfl

theorem readFaults_lost (ready : s.ready id) (bus : env.bus = [.done, .error landed]) (named : e.slotField.toNat = k.val)
    (enrolled : (s.link k).state ≠ .vacant) (room : 96 ≤ e.outputRoom.toNat) :
    EntryBusFault id s (.readFaults e env) (slotResult k.val .busFault .write) [⟨e.outputAddress, faultCopy (s.link k)⟩]
      (raiseDevice .busFault (s.begun env)) := by
  refine read_lost (c := .readFaults e env) rfl ready bus rfl fun _ =>
    ⟨slotResult k.val .ok .none, fun s => if entryFlag0 e then s.modLink k clearedCounters else s, ?_⟩
  show serveReadFaults e _ = _
  unfold serveReadFaults
  rw [slotOf_some named]
  exact (if_neg (Nat.not_lt.mpr room)).trans (if_neg enrolled)

theorem readDevice_lost (ready : s.ready id) (bus : env.bus = [.done, .error landed]) (room : 64 ≤ e.outputRoom.toNat) :
    EntryBusFault id s (.readDevice e env) (.bare .busFault .write) [⟨e.outputAddress, deviceSummary s⟩]
      (raiseDevice .busFault (s.begun env)) := by
  refine read_lost (c := .readDevice e env) rfl ready bus rfl fun _ =>
    ⟨.bare .ok .none, fun s => if entryFlag0 e then clearDeviceCounts s else s, ?_⟩
  refine (if_neg (Nat.not_lt.mpr room)).trans ?_
  rw [deviceSummary_amid]

end Sys2Proof.Machine
end

