-- ==== Sys2Proof/Proofs/BoardErrors.lean ====
section
/-! PROOFS. Errors on board writes, and with them the errors on the writes of output buffers and board slots. -/

namespace Sys2Proof.Machine
variable {s t u v w own before : State} {id : BatchId} {m : Memory} {p : List HostWrite} {b rest : List BusOutcome} {k : Slot}
  {landed : Nat} {r : EntryResult} {env : Env} {e : WorkEntry} {base : Address}

/-! ## What the slots tell apart -/

theorem deviceBits_shown (same : deviceSlotBytes s = deviceSlotBytes t) (i : Nat) :
    (deviceBits s).getD i false = (deviceBits t).getD i false := by
  have flags (u : State) : (ofLe (bytesAt (deviceSlotBytes u) 0 1)).testBit i = (deviceBits u).getD i false := by
    have field : bytesAt (layout (deviceSlotFields u)) 0 1 = leBytes 1 u.deviceFlags := bytesAt_sized 0 rfl (deviceSlotFields_sizes u) rfl
    rw [deviceSlotBytes_eq_layout, field, deviceFlags_eq]
    exact testBit_field (by simp [deviceBits]) i
  rw [← flags s, ← flags t, same]

theorem busFault_shown (same : deviceSlotBytes s = deviceSlotBytes t) : s.device.busFault = t.device.busFault :=
  deviceBits_shown same 3

theorem quiesce_shown (same : deviceSlotBytes s = deviceSlotBytes t) : s.quiesce = t.quiesce := deviceBits_shown same 6

theorem hostHold_shown (here : (s.link k).state ≠ .vacant) (there : (t.link k).state ≠ .vacant)
    (same : linkSlotBytes s k = linkSlotBytes t k) : (s.link k).hostHold = (t.link k).hostHold := by
  have marks {u : State} (enrolled : (u.link k).state ≠ .vacant) :
      (ofLe (bytesAt (linkSlotBytes u k) 1 1)).testBit 0 = (u.link k).hostHold := by
    have field : bytesAt (layout (linkSlotFields u k)) 1 1 = leBytes 1 (holdMarks (u.link k)) :=
      bytesAt_sized 1 rfl (linkSlotFields_sizes u k) rfl
    rw [linkSlotBytes_eq_layout enrolled, field, holdMarks]
    exact testBit_field (bits := [(u.link k).hostHold, (u.link k).supervisorHold]) (n := 1) (by simp) 0
  rw [← marks here, ← marks there, same]

/-- BUS_FAULT, newly raised, is shown. -/
theorem raised_shown (inactive : s.device.busFault = false) (t : State) :
    deviceSlotBytes s ≠ deviceSlotBytes (raiseDevice .busFault t) := by
  intro same
  have flag := busFault_shown same
  rw [inactive, busFault_raised] at flag
  cases flag

/-! ## Writes of slots that fail -/

theorem writeBoardSlot_amid (base : Address) (k : Nat) (bytes : List Byte) (v : State) : writeBoardSlot base k bytes (v.amid m p []) =
    v.amid (applyWrites m [⟨boardSlotAddress base k, bytes⟩]) (p ++ [⟨boardSlotAddress base k, bytes⟩]) [] := by
  rw [writeBoardSlot, hostWrite_amid (grants_nil 1), List.drop_nil]

theorem writeBoardSlot_lost (base : Address) (k : Nat) (bytes : List Byte) (v : State) :
    writeBoardSlot base k bytes (v.amid m p (.error landed :: rest)) = (raiseDevice .busFault v).amid m p rest := by
  rw [writeBoardSlot, hostWrite_amid_error]
  rfl

theorem deviceSlotBytes_amid (v : State) : deviceSlotBytes (v.amid m p b) = deviceSlotBytes v := outside_deviceSlotBytes _ _

theorem writeDeviceSlot_amid (base : Address) (v : State) : writeDeviceSlot base (v.amid m p []) =
    v.amid (applyWrites m [⟨boardSlotAddress base 512, deviceSlotBytes v⟩]) (p ++ [⟨boardSlotAddress base 512, deviceSlotBytes v⟩]) [] := by
  unfold writeDeviceSlot
  dsimp only
  rw [writeBoardSlot_amid, deviceSlotBytes_amid, deviceSlotBytes_amid, if_pos rfl]

/-- The device slot whose write fails is written once more, with BUS_FAULT. -/
theorem writeDeviceSlot_lost (inactive : v.device.busFault = false) (base : Address) :
    writeDeviceSlot base (v.amid m p (.error landed :: rest)) =
      writeBoardSlot base 512 (deviceSlotBytes (raiseDevice .busFault v)) ((raiseDevice .busFault v).amid m p rest) := by
  unfold writeDeviceSlot
  dsimp only
  rw [writeBoardSlot_lost, deviceSlotBytes_amid, deviceSlotBytes_amid, if_neg (raised_shown inactive v).symm]

/-! ## The device slot alone -/

theorem flushBoard_device (board : v.boardBase = some base) (links : ∀ k, slotChanged before v k = false)
    (device : deviceSlotBytes before ≠ deviceSlotBytes v) : flushBoard before v = writeDeviceSlot base v := by
  have none : allSlots.filter (slotChanged before v) = [] := List.filter_eq_nil_iff.mpr fun k _ => by simp [links k]
  unfold flushBoard
  rw [board]
  dsimp only
  rw [none, List.foldl_nil, if_neg device]

/-- The board writes of a QUIESCE that is asserted: the device slot alone. -/
theorem flushBoard_asserted (released : t.quiesce = false) (board : t.boardBase = some base) :
    flushBoard t (assertQuiesce t) = writeDeviceSlot base (assertQuiesce t) := by
  refine flushBoard_device board (fun k => ?_) fun same => ?_
  · have bytes : linkSlotBytes (assertQuiesce t) k = linkSlotBytes t k := linkSlotBytes_congr rfl rfl k
    simp [slotChanged, bytes]
  · cases released.symm.trans (quiesce_shown same)

/-- The state in which a QUIESCE is asserted, up to its board writes. -/
def quiesced (env : Env) (s : State) : State := { s.begun env with quiescePin := true, quiesce := true }

theorem assertQuiesce_begun (env : Env) (s : State) :
    assertQuiesce (beginEvent env { s with quiescePin := true }) = (quiesced env s).amid s.hostMem [] env.bus := rfl

/-- The event of a QUIESCE that is asserted, up to the write of the device slot. -/
theorem quiesceAssert_event (high : s.resetn = true) (started : s.engine ≠ .starting) (released : s.quiesce = false)
    (board : s.boardBase = some base) :
    exec (.quiesceAssert env) s = .next (endEvent (writeDeviceSlot base ((quiesced env s).amid s.hostMem [] env.bus))) := by
  have edges : (beginEvent env { s with quiescePin := true }).takesEdges = true := by
    show (s.resetn && decide (s.engine ≠ .starting)) = true
    rw [high, decide_eq_true started]
    rfl
  have shown := flushBoard_asserted (t := beginEvent env { s with quiescePin := true }) released board
  have taken : exec (.quiesceAssert env) s = .next (event env (fun s => if s.takesEdges then withBoard assertQuiesce s else s)
      { s with quiescePin := true }) := rfl
  have pinHigh : ({ s with quiescePin := true } : State).resetn = true := high
  rw [taken, event_of_high pinHigh]
  rw [if_pos edges, withBoard, shown, assertQuiesce_begun]

/-! ## What the end of an event leaves -/

theorem inner_ended (v : State) : (endEvent (v.amid m p b)).inner = v.inner := rfl

theorem posted_ended (v : State) : (endEvent (v.amid m p b)).posted = p := rfl

theorem hostMem_ended (v : State) : (endEvent (v.amid m p b)).hostMem = m := rfl

/-! ## A link slot -/

theorem filter_single {f : Slot → Bool} (only : ∀ j, f j = true ↔ j = k) : allSlots.filter f = [k] := by
  have is : f = fun j => j == k := funext fun j => by rw [Bool.eq_iff_iff, only, beq_iff_eq]
  rw [is, List.filter_beq, List.count_eq_one_of_mem allSlots_once (List.mem_finRange k)]
  rfl

/-- The board writes of a HOLD whose link slot is not written: the device slot is, with BUS_FAULT. -/
theorem flushBoard_held (enrolled : (s.link k).state ≠ .vacant) (free : (s.link k).hostHold = false) (board : s.boardBase = some base)
    (inactive : s.device.busFault = false) :
    let own := raiseDevice .busFault (s.modLink k heldRecord)
    flushBoard s ((s.modLink k heldRecord).amid m [] [.error landed]) =
      own.amid (applyWrites m [⟨boardSlotAddress base 512, deviceSlotBytes own⟩]) [⟨boardSlotAddress base 512, deviceSlotBytes own⟩] [] := by
  intro own
  have held : (s.modLink k heldRecord).link k = heldRecord (s.link k) := State.link_setLink_same _ _ _
  have here : ((s.modLink k heldRecord).link k).state ≠ .vacant := by
    rw [held]
    exact enrolled
  have changed (j : Slot) : slotChanged s ((s.modLink k heldRecord).amid m [] [.error landed]) j = true ↔ j = k := by
    rw [State.amid, slotChanged_outside_right]
    constructor
    · intro moved
      by_contra other
      have link : (s.modLink k heldRecord).link j = s.link j := State.link_setLink_ne _ _ other
      have bytes : linkSlotBytes (s.modLink k heldRecord) j = linkSlotBytes s j := by
        unfold linkSlotBytes
        rw [link]
        rfl
      simp [slotChanged, bytes] at moved
    · rintro rfl
      have differ : linkSlotBytes s j ≠ linkSlotBytes (s.modLink j heldRecord) j := by
        intro same
        have mark := hostHold_shown enrolled here same
        rw [free, held] at mark
        cases mark
      simp [slotChanged, enrolled, differ]
  have based : ((s.modLink k heldRecord).amid m [] [.error landed]).boardBase = some base := board
  unfold flushBoard
  rw [based]
  dsimp only
  rw [filter_single changed, List.foldl_cons, List.foldl_nil, writeBoardSlot_lost, deviceSlotBytes_amid,
    if_neg (raised_shown inactive _), writeDeviceSlot_amid, List.nil_append]

/-- What an entry does once its request has been served and its slots written, or not. -/
theorem serveEntryOf_shown {request : State → EntryResult × State} {x : State} (id : BatchId)
    (serves : readRequest request (hostRead x).1 (hostRead x).2 = (r, u)) (flushed : flushBoard x u = w) :
    serveEntryOf id request x = flushBoard w (completeEntry id r w) := by
  rw [serveEntryOf_split]
  dsimp only
  rw [serves]
  dsimp only
  rw [flushed]
  rfl

/-- The request of a HOLD, its result and the record with its mark. -/
theorem hold_serves (slot : e.slotField.toNat = k.val) (enrolled : (v.link k).state ≠ .vacant) (free : (v.link k).hostHold = false) :
    readRequest (requestOf (.hold e env)) (hostRead (v.amid m p (.done :: rest))).1 (hostRead (v.amid m p (.done :: rest))).2 =
      (slotResult k.val .ok .none, (v.modLink k heldRecord).amid m p rest) := by
  have changed : ¬ heldRecord (v.link k) = v.link k := by
    rw [heldRecord_same, free]
    decide
  have given := markOne_changed (s := v.amid m p rest) (k := k) enrolled changed
  rw [(inert_modLink k heldRecord).amid] at given
  exact (serveHold_one slot _).trans given

/-- An entry that is served, whose board writes leave `own`, and which counts. -/
theorem entry_shown {request : State → EntryResult × State} (id : BatchId)
    (serves : readRequest request (hostRead v).1 (hostRead v).2 = (r, u)) (flushed : flushBoard v u = own.amid m p [])
    (answers : r.status ≠ .busFault) : serveEntryOf id request v =
      own.counted.amid (applyWrites m [resultWrite own id r]) (p ++ [resultWrite own id r]) [] := by
  have counted : ShownAlike own own.counted := ⟨rfl, rfl, rfl, rfl, rfl, rfl⟩
  rw [serveEntryOf_shown id serves flushed, completeEntry_done answers (grants_nil 1), amid_flush,
    flushBoard_amid_unshown counted.unshown, List.drop_nil]

theorem hold_unshown (ready : s.ready id) (slot : e.slotField.toNat = k.val) (enrolled : (s.link k).state ≠ .vacant)
    (free : (s.link k).hostHold = false) (board : s.boardBase = some base) (inactive : s.device.busFault = false)
    (bus : env.bus = [.done, .error landed]) :
    let own := raiseDevice .busFault ((s.begun env).modLink k heldRecord)
    ∃ t, exec (.hold e env) s = .next t ∧ t.inner = own.counted.inner ∧
      t.posted = [⟨boardSlotAddress base 512, deviceSlotBytes own⟩, resultWrite s id (slotResult k.val .ok .none)] := by
  intro own
  have event := entry_event (c := .hold e env) rfl ready env.bus
  have is : withBus env.bus (.hold e env) = .hold e env := withBus_self (.hold e env)
  have asked : envOf (.hold e env) = env := rfl
  rw [is, asked, bus] at event
  have serves := hold_serves (v := s.begun env) (m := s.hostMem) (p := []) (env := env) (rest := [.error landed]) slot enrolled free
  have flushed := flushBoard_held (m := s.hostMem) (landed := landed) (s := s.begun env) (k := k) enrolled free board inactive
  rw [← amid_flush (m := s.hostMem) (p := []) (b := [.done, .error landed])] at flushed
  have quiet := quiet_raiseDevice .busFault ((s.begun env).modLink k heldRecord)
  have result : resultWrite own id (slotResult k.val .ok .none) = resultWrite s id (slotResult k.val .ok .none) :=
    resultWrite_of quiet.workBase quiet.nextIndex id _
  rw [entry_shown id serves flushed (show Status.ok ≠ .busFault by decide), result] at event
  exact ⟨_, event, inner_ended _, posted_ended _⟩

/-- Settles O30: the output that is not written, by its entry, and the board writes that fail. -/
theorem outputAndBoardErrors : Obligations.OutputAndBoardErrors := by
  refine ⟨fun id landed e input env s k ready => ?_, fun id landed e input env s k choice text ready bus => ?_,
    fun id landed e env s ready bus => ?_, fun landed again env s base high started released board inactive => ?_,
    fun id landed e env s k base ready slot enrolled free board inactive bus => hold_unshown ready slot enrolled free board inactive bus⟩
  · intro len l bus fits room found live inUse host supervisor quiesce use next spends charged
    have unheld : holdRefusal l s.quiesce = none := by
      rw [quiesce]
      exact holdRefusal_none host supervisor
    have lost := outbound_lost (input := input) ready bus fits room found live unheld
    have judged : outboundChecked k (outboundSpends (outboundUsed l len)) charged =
        dueCheck k .testsUrgency (if spends then spendCurrent k charged else charged) :=
      congrArg (dueCheck k .testsUrgency) (if_congr (outboundSpends_iff inUse len) rfl rfl)
    refine ⟨outboundPacket l e (bytesAt input 0 len), ?_, ?_⟩
    · rw [outboundPacket, sealPacket_length, bytesAt_length]
    · rw [← judged]
      exact lost
  · intro h comes reads some_ charged heard checked failed
    have passed : heardPacket k choice h (s.begun env) = checked := by
      cases choice with
      | root => exact tagPassed_root k _ _
      | current => exact tagPassed_current k _ _
      | retiring => exact tagPassed_retiring k _ _
    have none : checked.bus = [] := by
      rw [← passed]
      exact (inert_heardPacket k choice h).bus (s.begun env)
    refine ⟨fun data => ?_, fun entries control shape => ?_⟩
    · refine inbound_lost ready bus comes reads none fun rest => ?_
      rw [if_pos (show (parseHeader input).class_ = classData from data), passed]
      exact deliverData_lost some_ choice checked
    · refine inbound_lost ready bus comes reads (((inert_takeReport k entries).bus checked).trans none) fun rest => ?_
      have class_ : ¬ (parseHeader input).class_ = classData := by
        rw [show (parseHeader input).class_ = 2 from control]
        decide
      rw [if_neg class_, passed]
      exact consumeControl_lost shape checked
  · intro failed
    exact ⟨fun k named enrolled => ⟨readLink_lost ready bus named enrolled, readFaults_lost ready bus named enrolled⟩,
      readDevice_lost ready bus⟩
  · intro own
    have event := quiesceAssert_event (env := env) high started released board
    have raisedTwice : raiseDevice .busFault (raiseDevice .busFault (quiesced env s)) = own := raised_busFault (busFault_raised _)
    refine ⟨fun bus => ?_, fun bus => ?_⟩
    · rw [bus, writeDeviceSlot_lost (v := quiesced env s) inactive, writeBoardSlot_amid] at event
      exact ⟨_, event, inner_ended _, posted_ended _⟩
    · rw [bus, writeDeviceSlot_lost (v := quiesced env s) inactive, writeBoardSlot_lost, raisedTwice] at event
      exact ⟨_, event, inner_ended _, posted_ended _, hostMem_ended _⟩

end Sys2Proof.Machine
end
